-- ==== Sys2Proof/Word.lean ====
section
/-! DEFINITION. The words of the model: the byte, the 32-bit register word and the 64-bit word (00_scope.md R3, R6). -/

namespace Sys2Proof

/-- One byte of memory. -/
abbrev Byte := BitVec 8

/-- A 32-bit register (00_scope.md R6). -/
abbrev Word := BitVec 32

/-- A 64-bit field or register pair (00_scope.md R7). -/
abbrev DWord := BitVec 64

/-- A finite map kept as a list of keys and values in strictly rising key order, holding no value equal to the map's
default. -/
abbrev Sparse (α : Type) := List (Nat × α)

end Sys2Proof
end

