-- ==== Sys2Proof/Syntax.lean ====
section
/-! DEFINITION. The commands that the module takes, one constructor for each row of spec/opcode_table.json, and the types
of their operands. A tile command is the issue of a whole bundle: it names the tile site, the own slot's bits below its
opcode and the other three slot words (03_engine_tile.md R64). -/

namespace Sys2Proof

/-- A host function: 0 is the PF, n is VF n (09_host_objects.md R287). -/
abbrev Fn := Fin 64
/-- A bolt number (00_scope.md R10). -/
abbrev Bolt := Fin 64
/-- A tile site (R10). -/
abbrev Site := Fin 256
/-- An HBM3E channel (R10). -/
abbrev Chan := Fin 384
/-- A Creust port: 0–15 F0–F15, 16 U0, 17 U1 (07_creust_fabric.md R253). -/
abbrev Port := Fin 18
/-- A panel (R10). -/
abbrev Panel := Fin 4
/-- A global queue number (09 R296). -/
abbrev Queue := Fin 8192
/-- A shuttle stream of a tile (03_engine_tile.md R63). -/
abbrev Stream := Fin 16
/-- A cue slot (06_stage_time_cues.md R188). -/
abbrev CueSlot := BitVec 16
/-- A multicast or reduction group (04_panel_mesh.md R122, R126). -/
abbrev Group := Fin 256
/-- A node of a group's tree (04 R123). -/
abbrev NodeIx := Fin 64
/-- A die-to-die bridge, unit ID 0x2E0 + n (01_three_planes.md R13). -/
abbrev Bridge := Fin 8
/-- An invalidation slot (05_memory_translation.md R158). -/
abbrev InvSlot := Fin 64
/-- A module number (R10). -/
abbrev ModNum := BitVec 12
/-- A Creust session index (07 R240). -/
abbrev SessIx := BitVec 14
/-- A booth session of the at most four (13_firmware_booth.md R431). -/
abbrev SessId := Fin 4
/-- A region index of the live image (12_security.md SEC_REG_SEL). -/
abbrev RegionIx := Fin 4096
/-- A virtual channel 0–19 of a mesh link, or 20 for the shared pool of its input (04 R114, R134). -/
abbrev Vc := Fin 21
/-- A ticket ledger number of a Creust port: 0–8 the virtual lanes, 9 the shared pool, 16 + g group g (07 R220). -/
abbrev LedgerNo := Nat

/-- What the ECC of an access found (04 R136, 05 R170). -/
inductive Ecc
  | clean | corrected | uncorrectable
  deriving DecidableEq, Repr

/-- Which walk of a stream a level read belongs to: the one for its tensor tile's next page, or the prefetch walk of a UVA (05
R152, R153). -/
inductive WalkSel
  | demand
  | prefetch (va : BitVec 64)
  deriving DecidableEq, Repr

/-- What the integrity check of a sealed access found (12 R388, R393): everything matched; the block's MAC did not; a
tree or counter-line MAC at `level` did not; an uncorrectable error in a counter line or tree node. -/
inductive MacCheck
  | good | blockMac | treeMac (level : Fin 16) | nodeUe (level : Fin 16)
  deriving DecidableEq, Repr

/-- A router input: the receiving site and its port, 0 N, 1 E, 2 S, 3 W, 4 local, 5–6 attachment (04 R138). -/
structure MeshLink where
  site : Site
  inPort : Fin 7
  deriving DecidableEq, Repr

/-- A mesh flit as a router reads it (04 R111 to R115): virtual channel, bolt, scene bit, source and destination
attachment points. -/
structure Flit where
  vc : Fin 20
  bolt : Bolt
  scene : Bool
  srcPanel : Panel
  srcPoint : Fin 89
  dstPanel : Panel
  dstPoint : Fin 89
  deriving DecidableEq, Repr

/-- A ledger that the audit engine checks (14_incidents_understudy.md R458). -/
inductive LedgerId
  | mesh (l : MeshLink) (vc : Vc)
  | edge (panel : Panel) (stop : Fin 12) (toStop : Bool) (vc : Vc)
  | bridge (br : Bridge) (stop : Fin 4) (back : Bool) (vc : Vc)
  | creust (p : Port) (no : LedgerNo)
  | tree (red : Bool) (g : Group) (node : NodeIx)
  | queueWindows
  | windowSlots (q : Queue)
  | castEntries (b : Bolt)
  deriving DecidableEq, Repr

/-- What a bridge stop's receiver reports after a retrain (04 R137): slots occupied, by direction and channel, 20 for the shared
pool. -/
structure BridgeOcc where
  back : Bool
  pool : Vc
  slots : Nat
  deriving DecidableEq, Repr

/-- Who issued a memory request (08_loom_bolts.md R256, 09 R292, 12 R397). -/
inductive Requester
  | tile (site : Site)
  | host (fn : Fn)
  | firmware
  | castEngine
  | creust (src : ModNum)
  | debug
  deriving DecidableEq, Repr

/-- A request at an HBM3E edge stop or a CXL port (05 R170, 11_budgets.md R346, R347). `off` is the offset in space 0 or
space 1; a read asks for `len` bytes, a write carries `data`. -/
structure MemReq where
  bolt : Bolt
  who : Requester
  write : Bool
  off : Nat
  len : Nat
  data : List Byte
  /-- scene bit under which it was issued -/
  scene : Bool
  cls : Fin 8
  tag : Word
  deriving DecidableEq, Repr

/-- The four causes of R198 that make a cue late (06). -/
inductive LateCause
  | armedLate | comparatorsFull | heldForBuild | slewed
  deriving DecidableEq, Repr

/-- Where a step's admission takes place (06 R202, R204): a queue of this module, or, for a bolt whose home is another module, that
module, whose start arrives. -/
inductive AdmitAt
  | queue (q : Queue)
  | fromHome (b : Bolt) (start : BitVec 64)
  deriving DecidableEq, Repr

/-- A record of a component's journal (13 R422): a call of a queue, by its index; a command of an interface; a booth request about a
bolt, BOLT_STRIKE or BOLT_DRAIN. -/
inductive JournalRec
  | call (q : Queue) (index : BitVec 16)
  | command (hif : Bool) (b : Bolt)
  | request (ses : SessId) (b : Bolt) (strike : Bool)
  deriving DecidableEq, Repr

/-- A PARAM slot (07 R212). -/
structure ParamSlot where
  isSwitch : Bool
  module_ : ModNum
  port : BitVec 5
  dedicated : BitVec 16
  shared : BitVec 16
  redCells : BitVec 16
  version : BitVec 16
  deriving DecidableEq, Repr

/-- What the FEC made of a codeword (07 R218). -/
inductive Fec
  | clean | corrected | failed
  deriving DecidableEq, Repr

/-- A received codeword (07 R210, R218): what the FEC made of it, its 20-bit tag, and its 640 data bytes. -/
structure Codeword where
  fec : Fec
  tag : BitVec 20
  data : List Byte
  deriving DecidableEq, Repr

/-- The TAGSLOT's 16 bytes of a sealed packet, as a little-endian number (07 R212, R242); a clear packet has none. -/
abbrev GcmTag := BitVec 128

/-- A packet header (07 R226). -/
structure PktHdr where
  kind : Byte
  tc : BitVec 3
  scene : Bool
  bolt : BitVec 6
  src : ModNum
  vs : Bool
  sp : Bool
  dst : ModNum
  ski : SessIx
  sealed : Bool
  rsv1 : BitVec 5
  seq : DWord
  addr : DWord
  len : BitVec 6
  rsv2 : BitVec 2
  tag : BitVec 16
  opx : Byte
  aux : Word
  deriving DecidableEq, Repr

/-- The draw of a bolt measured over a budget interval, in watts (11 R362). -/
structure Demand where
  bolt : Bolt
  memory : Nat
  links : Nat
  deriving DecidableEq, Repr

/-- The two debug paths (12 R396 PATH). -/
inductive DbgPath
  | jtag | dbgBlock
  deriving DecidableEq, Repr

/-- Strap pins as sampled (15_module_electrical.md R478). -/
structure Straps where
  role : BitVec 2
  hostw : Bool
  bootsel : BitVec 2
  tsrc : BitVec 2
  modnumLo : BitVec 6
  boothAddr : BitVec 4
  dbgAllow : Bool
  deriving DecidableEq, Repr

/-- How a boot stage's load and verification ended (13 R410, R413). `fail` carries the code of GLB_BOOT.FAIL. A good
stage 3 brings the channels that trained (05 R173), by word of GLB_HBM_OK. -/
inductive StageResult
  | good (hash : BitVec 256) (hbmOk : List Word)
  | fail (code : Fin 8)
  deriving DecidableEq, Repr

/-- A client certificate as TLS presents it (13 R433): signed by the enrolled house CA key; self-signed P-384; its
Organizational Unit attributes: 0 HM-ADMIN, 1 HM-OPERATOR, 2 HM-AUDIT, 3 any other. -/
structure ClientCert where
  caSigned : Bool
  selfSigned : Bool
  ous : List (Fin 4)
  deriving DecidableEq, Repr

/-- An enrolment record (13 R437). -/
structure EnrolRec where
  magicOk : Bool
  gen : Word
  loomKey : BitVec 512
  caKey : BitVec 776
  deriving DecidableEq, Repr

/-- What the device finds when it programs a firmware fragment and, on the last one, verifies the image (13 R438). -/
structure FwCheck where
  flashOk : Bool
  sigOk : Bool
  manifestOk : Bool
  svn : Fin 128
  id : Word
  imgVer : Word
  ifVer : Word
  hash : BitVec 256
  deriving DecidableEq, Repr

/-- A debug grant record (12 R396). -/
structure GrantRec where
  rights : BitVec 7
  path : BitVec 2
  rsvZero : Bool
  bolts : DWord
  expiry : DWord
  key : BitVec 256
  deriving DecidableEq, Repr

/-- A mirror bolt as the twin's FAB component describes it at pairing (14 R461): flags and mirrored regions as
(fabric offset with space, size, mode code, and whether it lies on the channels or windows that ours lies on). -/
structure PairBolt where
  bolt : Bolt
  priv : Bool
  mirror : Bool
  regions : List (Nat × Nat × Nat × Bool)
  deriving DecidableEq, Repr

/-- What the twin reports at the first link-up of U0 or U1 (14 R461, R468). -/
structure PairInfo where
  role : BitVec 2
  module_ : ModNum
  promoted : Bool
  bolts : List PairBolt
  deriving DecidableEq, Repr

/-- A level read of a walk: which walk, and what the ECC of its table unit found (05 R152, R170). -/
structure WalkRead where
  which : WalkSel
  ecc : Ecc
  deriving DecidableEq, Repr

/-- A link of the mesh, an edge stop or a bridge that has ticket ledgers, one to a virtual channel (04 R134). -/
inductive TicketLink
  | mesh (l : MeshLink)
  | edge (panel : Panel) (stop : Fin 12) (toStop : Bool)
  | bridge (br : Bridge) (stop : Fin 4) (back : Bool)
  deriving DecidableEq, Repr

/-- A fragment of a message of set-up as it comes: header and data (07 R241). -/
structure SetupFragment where
  h : PktHdr
  data : List Byte
  deriving DecidableEq, Repr

/-- What a sealed packet brings beside its header: its data and its tag (07 R242). -/
structure SealedBody where
  data : List Byte
  tag : GcmTag
  deriving DecidableEq, Repr

/-- A packet as it came: header, EXT slot, data and tag (07 R246). -/
structure WholePkt where
  h : PktHdr
  ext : BitVec 256
  data : List Byte
  tag : GcmTag
  deriving DecidableEq, Repr

/-- A component that serves again: its core, and the journal records that fail their CRC-32 (13 R422). -/
structure CoreRestart where
  core : Fin 10
  lost : List JournalRec
  deriving DecidableEq, Repr

/-- What comes back from a CXL device: whether it answered in time, and what the integrity check finds (11 R352; 12 R393). -/
structure CxlAnswer where
  answered : Bool
  mac : MacCheck
  deriving DecidableEq, Repr

/-- The commands of the module. -/
inductive Instr
  /-- REGISTER_WRITE (R5). A host write to a register field that has no row of its own sets the field under its type code. -/
  | registerWrite (fn : Fn) (off : Nat) (wide : Bool) (val : BitVec 64)
  /-- UNIMPLEMENTED_ACCESS (R6). An access to an unimplemented offset reads 0 or is dropped and sets GLB_ERR_STATUS.UNIMPL. -/
  | unimplementedAccess (fn : Fn) (off : Nat) (write : Bool)
  /-- UNSUPPORTED_WIDTH_ACCESS (R6). An access of another width or alignment reads 0 or is dropped and sets GLB_ERR_STATUS.WIDTH. -/
  | unsupportedWidthAccess (fn : Fn) (off : Nat) (write : Bool)
  /-- PAIR_LO_READ (R7). A read of a _LO register returns the low half and latches the high half into the function's shadow. -/
  | pairLoRead (fn : Fn) (off : Nat) (wide : Bool)
  /-- PAIR_LO_WRITE (R7). A write of the _LO half of a writable pair is held until the _HI write. -/
  | pairLoWrite (fn : Fn) (off : Nat) (val : Word)
  /-- MNOP (R70). Matrix-slot no-operation. -/
  | mnop (t : Site) (f : BitVec 27) (vs ss cs : Word)
  /-- MLDW (R71). Loads 128 weight columns, with MX scales where needed, into weight buffer W(WBUF). -/
  | mldw (t : Site) (f : BitVec 27) (vs ss cs : Word)
  /-- MMUL (R72). Multiplies CNT + 1 activation rows against a weight buffer and accumulates into accumulator rows. -/
  | mmul (t : Site) (f : BitVec 27) (vs ss cs : Word)
  /-- MWB (R73). Writes accumulator rows to the spool in DFMT with rounding mode RND, optionally clearing them. -/
  | mwb (t : Site) (f : BitVec 27) (vs ss cs : Word)
  /-- MZERO (R70). Sets CNT + 1 accumulator rows to +0. -/
  | mzero (t : Site) (f : BitVec 27) (vs ss cs : Word)
  /-- DITHER_WRAP (R51). The stochastic-rounding counter wraps from 2^48 − 1 to 0 and sets SRWRAP. -/
  | ditherWrap (t : Site)
  /-- VNOP (R74). Vector-slot no-operation. -/
  | vnop (t : Site) (f : BitVec 26) (ms ss cs : Word)
  /-- VLD (R74). Loads 256 elements and any scales from the spool and converts them to FP32. -/
  | vld (t : Site) (f : BitVec 26) (ms ss cs : Word)
  /-- VST (R503). Converts 256 lanes to DFMT by RND and stores them, with MX blocks stored whole. -/
  | vst (t : Site) (f : BitVec 26) (ms ss cs : Word)
  /-- VADD (R74). Lane-wise FP32 addition. -/
  | vadd (t : Site) (f : BitVec 26) (ms ss cs : Word)
  /-- VSUB (R74). Lane-wise FP32 subtraction. -/
  | vsub (t : Site) (f : BitVec 26) (ms ss cs : Word)
  /-- VMUL (R74). Lane-wise FP32 multiplication. -/
  | vmul (t : Site) (f : BitVec 26) (ms ss cs : Word)
  /-- VFMA (R74). Lane-wise fused multiply-add rounded once. -/
  | vfma (t : Site) (f : BitVec 26) (ms ss cs : Word)
  /-- VMAX (R55). Lane-wise IEEE maximum. -/
  | vmax (t : Site) (f : BitVec 26) (ms ss cs : Word)
  /-- VMIN (R55). Lane-wise IEEE minimum. -/
  | vmin (t : Site) (f : BitVec 26) (ms ss cs : Word)
  /-- VABS (R500). Lane-wise absolute value, canonicalising NaN. -/
  | vabs (t : Site) (f : BitVec 26) (ms ss cs : Word)
  /-- VNEG (R500). Lane-wise negation, canonicalising NaN. -/
  | vneg (t : Site) (f : BitVec 26) (ms ss cs : Word)
  /-- VSEL (R74). Selects VA or VB per lane by the mask. -/
  | vsel (t : Site) (f : BitVec 26) (ms ss cs : Word)
  /-- VBCST (R74). Broadcasts one lane of VA to every unmasked lane. -/
  | vbcst (t : Site) (f : BitVec 26) (ms ss cs : Word)
  /-- VCMPLT (R75). Writes a mask of lanes where VA < VB. -/
  | vcmplt (t : Site) (f : BitVec 26) (ms ss cs : Word)
  /-- VCMPEQ (R75). Writes a mask of lanes where VA = VB. -/
  | vcmpeq (t : Site) (f : BitVec 26) (ms ss cs : Word)
  /-- VCMPLE (R75). Writes a mask of lanes where VA ≤ VB. -/
  | vcmple (t : Site) (f : BitVec 26) (ms ss cs : Word)
  /-- VEXP2 (R57). Lane-wise exp2 by the special-function units. -/
  | vexp2 (t : Site) (f : BitVec 26) (ms ss cs : Word)
  /-- VLOG2 (R57). Lane-wise log2 by the special-function units. -/
  | vlog2 (t : Site) (f : BitVec 26) (ms ss cs : Word)
  /-- VRCP (R57). Lane-wise reciprocal. -/
  | vrcp (t : Site) (f : BitVec 26) (ms ss cs : Word)
  /-- VRSQ (R57). Lane-wise reciprocal square root. -/
  | vrsq (t : Site) (f : BitVec 26) (ms ss cs : Word)
  /-- VTANH (R57). Lane-wise hyperbolic tangent. -/
  | vtanh (t : Site) (f : BitVec 26) (ms ss cs : Word)
  /-- VRSUM (R54). Sums VA's lanes by the fixed pairwise tree. -/
  | vrsum (t : Site) (f : BitVec 26) (ms ss cs : Word)
  /-- VRMAX (R54). Maximum of VA's lanes by the fixed tree. -/
  | vrmax (t : Site) (f : BitVec 26) (ms ss cs : Word)
  /-- VRMIN (R54). Minimum of VA's lanes by the fixed tree. -/
  | vrmin (t : Site) (f : BitVec 26) (ms ss cs : Word)
  /-- SNOP (R77). Shuttle-slot no-operation. -/
  | snop (t : Site) (f : BitVec 28) (ms vs cs : Word)
  /-- SQ (R78). Checks and copies CNT + 1 descriptors into a shuttle stream. -/
  | sq (t : Site) (f : BitVec 28) (ms vs cs : Word)
  /-- STREAM_SLOT_FREE (R78). A slot frees in a full shuttle stream and a held SQ continues enqueueing. -/
  | streamSlotFree (t : Site) (stream : Stream)
  /-- SCFG (R77). Sets a stream's stride-ahead prefetch depth. -/
  | scfg (t : Site) (f : BitVec 28) (ms vs cs : Word)
  /-- CNOP (R79). Control-slot no-operation. -/
  | cnop (t : Site) (f : BitVec 26) (ms vs ss : Word)
  /-- BR (R80). Unconditional relative branch. -/
  | br (t : Site) (f : BitVec 26) (ms vs ss : Word)
  /-- BRZ (R80). Branch if an integer register is zero. -/
  | brz (t : Site) (f : BitVec 26) (ms vs ss : Word)
  /-- BRNZ (R80). Branch if an integer register is non-zero. -/
  | brnz (t : Site) (f : BitVec 26) (ms vs ss : Word)
  /-- LOOP (R80). Repeats the following body a given number of times. -/
  | loop (t : Site) (f : BitVec 26) (ms vs ss : Word)
  /-- WAITSEM (R79). Waits until a tile semaphore reaches N, then subtracts N. -/
  | waitsem (t : Site) (f : BitVec 26) (ms vs ss : Word)
  /-- WAITSEM_SATISFIED (R100). A waiting tile's semaphore reaches its count and issue resumes with acquire ordering. -/
  | waitsemSatisfied (t : Site)
  /-- SEMSIG (R99). Adds N + 1 to a semaphore of a bolt-local tile, after a full fence when REL = 1. -/
  | semsig (t : Site) (f : BitVec 26) (ms vs ss : Word)
  /-- WAITCUE (R79). Waits until CREL reaches PHASE. -/
  | waitcue (t : Site) (f : BitVec 26) (ms vs ss : Word)
  /-- WAITCUE_SATISFIED (R196). A start-phase cue raises CREL and a waiting tile resumes issue. -/
  | waitcueSatisfied (t : Site)
  /-- FENCE (R100). Waits for completion of the selected earlier write-backs, stores and descriptors. -/
  | fence (t : Site) (f : BitVec 26) (ms vs ss : Word)
  /-- FENCE_SATISFIED (R100). The operations a FENCE waits for complete and issue resumes. -/
  | fenceSatisfied (t : Site)
  /-- TMARK (R429). Emits a trace-mark record if the mark is enabled for the bolt. -/
  | tmark (t : Site) (f : BitVec 26) (ms vs ss : Word)
  /-- SEED (R50). Loads the dither seed and clears the dither counter. -/
  | seed (t : Site) (f : BitVec 26) (ms vs ss : Word)
  /-- RSTAT (R79). Reads the arithmetic status word into an integer register. -/
  | rstat (t : Site) (f : BitVec 26) (ms vs ss : Word)
  /-- CSTAT (R79). Clears the status flags selected by the mask. -/
  | cstat (t : Site) (f : BitVec 26) (ms vs ss : Word)
  /-- SETA (R79). Sets an address register from an immediate. -/
  | seta (t : Site) (f : BitVec 26) (ms vs ss : Word)
  /-- SETST (R79). Sets an address register's step. -/
  | setst (t : Site) (f : BitVec 26) (ms vs ss : Word)
  /-- ADDA (R79). Adds an immediate to an address register. -/
  | adda (t : Site) (f : BitVec 26) (ms vs ss : Word)
  /-- SETI (R79). Sets an integer register from an immediate. -/
  | seti (t : Site) (f : BitVec 26) (ms vs ss : Word)
  /-- ADDI (R79). Adds an immediate to an integer register. -/
  | addi (t : Site) (f : BitVec 26) (ms vs ss : Word)
  /-- LDI (R79). Loads a 32-bit spool word into an integer register. -/
  | ldi (t : Site) (f : BitVec 26) (ms vs ss : Word)
  /-- TINFO (R79). Reads the bolt-local tile number, tile count or blocking index. -/
  | tinfo (t : Site) (f : BitVec 26) (ms vs ss : Word)
  /-- BOW (R103). The tile reaches bow point NUM and waits for the whole bolt. -/
  | bow (t : Site) (f : BitVec 26) (ms vs ss : Word)
  /-- STEPEND (R104). The tile reaches the step boundary, a bow point of number 0xFFFF with KEEP = 0. -/
  | stepend (t : Site) (f : BitVec 26) (ms vs ss : Word)
  /-- HALT (R79). The tile stops issuing for the rest of the production. -/
  | halt (t : Site) (f : BitVec 26) (ms vs ss : Word)
  /-- BOW_PASS (R103). Every tile of the bolt has arrived and the bolt passes the bow point, or stops there for a pending drain. -/
  | bowPass (b : Bolt)
  /-- TENSOR_TILE_START (R505). A queued tensor tile starts after any release-credit wait, checks its group and begins translation. -/
  | tensorTileStart (t : Site) (stream : Stream)
  /-- MICRO_TLB_ROOM (R93). Enough unpinned micro-TLB entries free up and a waiting tensor tile begins translation. -/
  | microTlbRoom (t : Site) (stream : Stream)
  /-- MICRO_TLB_MISS (R154). A page not in the micro-TLB is looked up in the translation cache, starting a walk on a miss. -/
  | microTlbMiss (t : Site) (stream : Stream)
  /-- WALK_LEVEL_READ (R152). A page-table level read returns and the walk continues, fills the caches or faults. -/
  | walkLevelRead (t : Site) (stream : Stream) (r : WalkRead)
  /-- PREFETCH_WALK (R95). The shuttle hands the pages of the next N queued tensor tiles to the translation unit to walk ahead. -/
  | prefetchWalk (t : Site) (stream : Stream)
  /-- TENSOR_TILE_TRANSLATED (R92). Every page of a tensor tile has translated and pinned, so it begins committing to the destination. -/
  | tensorTileTranslated (t : Site) (stream : Stream)
  /-- TENSOR_TILE_COMPLETE (R98). The last byte is committed and the named semaphore is signalled. -/
  | tensorTileComplete (t : Site) (stream : Stream)
  /-- START_PHASE (R101). A start-phase cue advances CREL or NCREL of each target tile. -/
  | startPhase (slot : CueSlot)
  /-- RELEASE_STREAM (R102). A cue adds one release credit to a shuttle stream. -/
  | releaseStream (slot : CueSlot)
  /-- OPEN_RED (R191). A cue makes each node of a reduction group start the member timer for a round. -/
  | openRed (slot : CueSlot)
  /-- SIGNAL_FENCE (R191). A cue signals a fence to its argument. -/
  | signalFence (slot : CueSlot)
  /-- SHIFT_POWER (R192). A cue replaces a bolt's compute, memory and link power shares if they sum to its reservation. -/
  | shiftPower (slot : CueSlot)
  /-- SCENE_CHANGE (R274). The loom unit's cue makes the armed scene live and the module enters DRAINING. -/
  | sceneChange (slot : CueSlot)
  /-- MESH_FLIT_RECEIVE (R136). A flit arrives at a router input and is checked by ECC, then forwarded or delivered. -/
  | meshFlitReceive (l : MeshLink) (flit : Flit) (ecc : Ecc)
  /-- TICKET_RETURN (R134). A ticket returns to the sender when a flit leaves its receiver slot. -/
  | ticketReturn (l : TicketLink) (vc : Vc)
  /-- MCAST_FLIT_FORWARD (R125). A multicast node holding tickets writes a flit to its spool and forwards copies to its children. -/
  | mcastFlitForward (g : Group) (node : NodeIx)
  /-- RED_CHUNK_COMBINE (R129). With every designated input of a chunk present, a reduction node adds them in fixed order and forwards or commits. -/
  | redChunkCombine (g : Group) (node : NodeIx) (round : Nat) (chunk : Nat)
  /-- RED_TIMEOUT (R132). A missing reduction input passes TIMEOUT and the group enters the failed state. -/
  | redTimeout (g : Group) (node : NodeIx) (round : Nat) (chunk : Nat)
  /-- BRIDGE_FLIT_RECEIVE (R137). A bridge flit is checked by CRC and replayed on failure. -/
  | bridgeFlitReceive (br : Bridge) (stop : Fin 4) (flit : Flit) (crcOk : Bool)
  /-- BRG_RETRAIN (R137). Eight consecutive failed replays make the bridge retrain. -/
  | brgRetrain (br : Bridge) (stop : Fin 4)
  /-- BRIDGE_RETRAIN_END (R137). A bridge retrain ends and tickets are resynchronised, or the bridge is declared down. -/
  | bridgeRetrainEnd (br : Bridge) (stop : Fin 4) (ok : Bool) (occupied : List BridgeOcc) (ns : Nat)
  /-- LEDGER_AUDIT (R458). The audit engine checks a ledger's balance at a quiet point or at least once per millisecond. -/
  | ledgerAudit (l : LedgerId)
  /-- AUDIT_LATE (R459). A scheduled audit not completed within 10 ms is reported and taken first next. -/
  | auditLate (l : LedgerId)
  /-- HBM_ACCESS (R170). A request is served at an HBM3E edge stop with ECC, sealed or veiled protection and class ordering. -/
  | hbmAccess (r : MemReq) (ecc : Ecc) (mac : MacCheck) (ns : Nat)
  /-- HBM_SCRUB (R171). The background scrub of a channel corrects errors and reports latent uncorrectable ones. -/
  | hbmScrub (c : Chan) (off : Nat) (ecc : Ecc)
  /-- HBM_REFRESH_HOT (R172). A stack crossing 85 °C doubles or restores its refresh rate. -/
  | hbmRefreshHot (stack : Fin 24) (temp : Nat)
  /-- HBM_CH_DOWN (R174). A channel that stops responding or fails retrain is taken out of service and its bolts reset. -/
  | hbmChDown (c : Chan) (retrain : Bool)
  /-- FQ_RESUME (R166). XLT_FQ_RESP with RESUME removes the head entry and restarts its tensor tile from translation. -/
  | fqResume (fn : Fn) (b : Bolt) (val : Word)
  /-- FQ_ABANDON (R166). XLT_FQ_RESP with ABANDON removes the head entry and turns it into a tile fault. -/
  | fqAbandon (fn : Fn) (b : Bolt) (val : Word)
  /-- INV_RANGE (R161). A slot submission removes cached translations of a bolt overlapping a UVA range. -/
  | invRange (slot : InvSlot) (w7 : Word)
  /-- INV_CONTEXT (R161). A slot submission removes all cached translations of a bolt. -/
  | invContext (slot : InvSlot) (w7 : Word)
  /-- INV_ALL (R161). A slot submission removes cached translations of every bolt. -/
  | invAll (slot : InvSlot) (w7 : Word)
  /-- INV_COMPLETE (R161). All completion conditions of an invalidation hold; the slot sets DONE and signals its fence. -/
  | invComplete (slot : InvSlot)
  /-- INV_TIMEOUT (R162). A bound module fails to acknowledge a shootdown within 500 µs and the bolt is reset. -/
  | invTimeout (slot : InvSlot) (p : Port) (m : ModNum)
  /-- PPS_EDGE (R183). A rising PPS_IN edge is accepted or ignored and disciplines, locks or steps stage time. -/
  | ppsEdge (width : Nat)
  /-- PPS_LOSS (R181). No accepted PPS edge for two seconds moves the STU to HOLDOVER. -/
  | ppsLoss
  /-- FABRIC_TIME_LOSS (R181). No completed fabric time exchange for 1 ms moves the STU to HOLDOVER. -/
  | fabricTimeLoss
  /-- STU_REACQ (R182). A write of STU_REACQ.GO requests re-acquisition, or is refused. -/
  | stuReacq (fn : Fn) (val : Word)
  /-- STU_CTL_WRITE (R179). A PF write of STU_CTL before the first loom commit changes the time source at once. -/
  | stuCtlWrite (fn : Fn) (val : Word)
  /-- STU_END (R177). Stage time reaches its last value and stops counting. -/
  | stuEnd
  /-- CUE_HANDOVER (R196). The dispatcher hands an occurrence to every target comparator 4 µs before its fire time. -/
  | cueHandover (slot : CueSlot)
  /-- CUE_LATE (R198). A late occurrence fires on all targets once its cause clears and its lateness is recorded. -/
  | cueLate (slot : CueSlot) (cause : LateCause)
  /-- STEP_ADMISSION (R202). Firmware admits a queued STEP once its conditions hold, setting S, D or D_bound and arming its template. -/
  | stepAdmission (at_ : AdmitAt)
  /-- STEP_DELIVERY (R201). A step's completion is sent and the next queued step starts. -/
  | stepDelivery (b : Bolt)
  /-- GUARANTEE_MISSED (R207). Stage time passes D with the step undelivered. -/
  | guaranteeMissed (b : Bolt)
  /-- PORT_ENABLE (R213). Setting or clearing a Creust port's EN starts training or takes the port down. -/
  | portEnable (fn : Fn) (p : Port) (val : Word)
  /-- RETRAIN (R213). A write of CRU_PORT_CTL.RETRAIN leaves FAILED or forces a full training. -/
  | retrain (fn : Fn) (p : Port) (val : Word)
  /-- LINK_TRAINING_END (R213). Link training completes and the port enters ALIGN, or fails. -/
  | linkTrainingEnd (p : Port) (ok : Bool) (us : Nat)
  /-- CODEWORD_LOCK (R213). The port locks onto codewords and deskews its lanes, entering PARAM. -/
  | codewordLock (p : Port) (ok : Bool)
  /-- PARAM (R214). A PARAM slot from the peer is checked against the expected peer and the port enters UP. -/
  | param (p : Port) (w : ParamSlot)
  /-- CODEWORD_RECEIVE (R218). A codeword is decoded, CRC and sequence checked and accepted or discarded. -/
  | codewordReceive (p : Port) (cw : Codeword)
  /-- ACK (R218). A cumulative ACK slot frees the sender's replay entries. -/
  | ack (p : Port) (cseq : BitVec 12)
  /-- NAK (R218). A NAK slot makes the sender replay from the named CSEQ. -/
  | nak (p : Port) (cseq : BitVec 12)
  /-- NAK_BOUND (R219). One CSEQ NAKed eight times in a row makes the port enter RETRAIN. -/
  | nakBound (p : Port)
  /-- ACK_STALL (R219). Sequenced codewords waiting 20 µs for ACK progress make the port enter RETRAIN. -/
  | ackStall (p : Port)
  /-- FAST_RETRAIN_END (R213). A fast retrain completes and the link resyncs, or fails to full training. -/
  | fastRetrainEnd (p : Port) (ok : Bool) (ns : Nat)
  /-- RESYNC (R220). A RESYNC slot resets held tickets and replay after a retrain. -/
  | resync (p : Port) (cseq : BitVec 12) (ledger : LedgerNo) (occupied : Nat)
  /-- CREDIT (R216). A CREDIT slot returns cells to the sender's ledgers. -/
  | credit (p : Port) (cells : List Nat) (shared : Nat)
  /-- RED_CREDIT (R217). A RED_CREDIT slot returns VL8 cells to reduction groups. -/
  | redCredit (p : Port) (pairs : List (Group × Nat))
  /-- AUDIT (R221). An AUDIT slot is checked against the receiver's ledger. -/
  | audit (p : Port) (ledger : LedgerNo) (held : Nat) (ret : Nat)
  /-- TIME (R223). A TIME request or reply slot drives the two-way time exchange and disciplines the STU. -/
  | time (p : Port) (reply : Bool) (ta tb tc : BitVec 64)
  /-- LD (R229). A read request packet is checked and answered with RD_DATA. -/
  | ld (p : Port) (h : PktHdr) (tag : GcmTag)
  /-- ST (R229). A write request packet is checked, performed and answered WR_ACK. -/
  | st (p : Port) (h : PktHdr) (data : List Byte) (tag : GcmTag)
  /-- BULK_WR (R232). A bulk write fragment is performed in SEQ order and acknowledged cumulatively. -/
  | bulkWr (p : Port) (h : PktHdr) (data : List Byte) (tag : GcmTag)
  /-- ATOM (R233). An atomic ADD, CAS or maximum is performed indivisibly and answered with the old value. -/
  | atom (p : Port) (h : PktHdr) (extLo extHi : BitVec 128) (tag : GcmTag)
  /-- SEM (R234). A semaphore packet adds to a tile semaphore and is acknowledged. -/
  | sem (p : Port) (h : PktHdr) (tag : GcmTag)
  /-- CREUST_FENCE (R235). A FENCE packet is answered once earlier requests of the session in its classes are performed. -/
  | creustFence (p : Port) (h : PktHdr) (tag : GcmTag)
  /-- RED (R237). A RED packet supplies a port leaf's chunks to a reduction group. -/
  | red (p : Port) (h : PktHdr) (data : List Byte) (tag : GcmTag)
  /-- SHOOT (R236). A shootdown packet performs an invalidation on the target and is acknowledged. -/
  | shoot (p : Port) (h : PktHdr) (tag : GcmTag)
  /-- SESS_OFFER (R241). An OFFER is verified and answered with ENCAPS, or a clear session proceeds to CONFIRM. -/
  | sessOffer (p : Port) (h : PktHdr) (data : List Byte) (sigOk : Bool)
  /-- SESS_ENCAPS (R241). An ENCAPS is decapsulated and the direction keys derived. -/
  | sessEncaps (p : Port) (f : SetupFragment)
  /-- SESS_CONFIRM (R241). A verifying CONFIRM opens the session. -/
  | sessConfirm (p : Port) (h : PktHdr) (body : SealedBody)
  /-- SESS_CLOSE (R252). A CLOSE ends the session and the peer resets its part of the bolt. -/
  | sessClose (p : Port) (h : PktHdr) (data : List Byte) (tag : GcmTag)
  /-- SESSION_TIMEOUT (R241). No answer within 1 s leaves the session closed. -/
  | sessionTimeout (ski : SessIx)
  /-- RD_DATA (R230). Read data returns to the requester, faulting its tensor tile on a bad status. -/
  | rdData (p : Port) (h : PktHdr) (data : List Byte) (tag : GcmTag)
  /-- WR_ACK (R230). A write acknowledgement completes a store. -/
  | wrAck (p : Port) (h : PktHdr) (tag : GcmTag)
  /-- BULK_ACK (R232). A cumulative bulk acknowledgement completes fragments and may commit a tensor tile. -/
  | bulkAck (p : Port) (h : PktHdr) (tag : GcmTag)
  /-- ATOM_RSP (R233). An atomic response returns the old value. -/
  | atomRsp (p : Port) (h : PktHdr) (tag : GcmTag)
  /-- FENCE_ACK (R235). A fence acknowledgement releases the ordering it covered. -/
  | fenceAck (p : Port) (h : PktHdr) (tag : GcmTag)
  /-- SEM_ACK (R234). A semaphore acknowledgement completes a remote signal. -/
  | semAck (p : Port) (h : PktHdr) (tag : GcmTag)
  /-- SHOOT_ACK (R236). A shootdown acknowledgement counts toward an invalidation's completion. -/
  | shootAck (p : Port) (h : PktHdr) (tag : GcmTag)
  /-- SESS_RSP (R227). A session response advances session set-up or close. -/
  | sessRsp (p : Port) (h : PktHdr) (tag : GcmTag)
  /-- TRANSIT_PACKET (R246). A packet for another module is forwarded by its route entry. -/
  | transitPacket (p : Port) (x : WholePkt)
  /-- CR_CPL_TIMEOUT (R231). A request's completion timer expires and the request is abandoned. -/
  | crCplTimeout (tag : BitVec 16)
  /-- CR_STALL (R248). An egress VL waiting 10 ms for a ticket is reported and its bolts lose their guarantee. -/
  | crStall (p : Port) (vl : Fin 9) (waiting : Nat)
  /-- LOOM_PUT (R435). A booth message writes part of an image into the loom staging buffer. -/
  | loomPut (ses : SessId) (off : Nat) (data : List Byte)
  /-- LOOM_COMMIT (R268). The staged image is verified, checked and, if accepted, armed for its scene cue. -/
  | loomCommit (ses : SessId) (force : Bool) (sigOk : Bool)
  /-- LOOM_CANCEL (R273). A cancel disarms an armed scene if it arrives at least 4 µs before the cue. -/
  | loomCancel (ses : SessId) (scene : Word)
  /-- LOOM_READ (R435). Returns bytes of the live loom image. -/
  | loomRead (ses : SessId) (off : Nat)
  /-- SCENE_RETIRE (R276). The old scene's in-flight count reaches zero and the old scene retires. -/
  | sceneRetire
  /-- LOM_DRAIN_TIMEOUT (R277). DRAIN_MAX passes without retirement and bolts with old-scene requests are reset. -/
  | lomDrainTimeout
  /-- LOM_SCRUB_DONE (R280). The zero overwrite of a moved channel ends and the channel is released. -/
  | lomScrubDone (c : Chan)
  /-- FLR (R289). A Function Level Reset stops the bolt's queues, resets the bolt and abandons its fences. -/
  | flr (fn : Fn)
  /-- DOORBELL (R298). A doorbell write records LAST for a queue and marks it pending. -/
  | doorbell (fn : Fn) (q : Nat) (val : Word)
  /-- QUEUE_WINDOW_SWAP (R299). A window can be taken or evicted and a waiting queue is swapped in. -/
  | queueWindowSwap (q : Queue)
  /-- CALL_FETCH (R302). A call is fetched whole into its window and checked for bolt membership and scene. -/
  | callFetch (q : Queue) (hostData : List Byte)
  /-- Q_CREATE (R296). Creates a queue ring in RUNNING state. -/
  | qCreate (fn : Fn) (hif : Bool) (b : Bolt) (rsv : BitVec 23)
  /-- Q_DESTROY (R296). Destroys a stopped queue. -/
  | qDestroy (fn : Fn) (hif : Bool) (b : Bolt) (rsv : BitVec 23)
  /-- Q_STOP (R301). Stops fetching and discards every unstarted call. -/
  | qStop (fn : Fn) (hif : Bool) (b : Bolt) (rsv : BitVec 23)
  /-- Q_START (R296). Resumes fetch of a stopped or errored queue. -/
  | qStart (fn : Fn) (hif : Bool) (b : Bolt) (rsv : BitVec 23)
  /-- Q_READ (R296). Returns a queue's HEAD, LAST and state. -/
  | qRead (fn : Fn) (hif : Bool) (b : Bolt) (rsv : BitVec 23)
  /-- FENCE_CREATE (R296). Creates a fence within quota. -/
  | fenceCreate (fn : Fn) (hif : Bool) (b : Bolt) (rsv : BitVec 23)
  /-- FENCE_DESTROY (R296). Destroys a fence, waking waiters ABANDONED. -/
  | fenceDestroy (fn : Fn) (hif : Bool) (b : Bolt) (rsv : BitVec 23)
  /-- FENCE_ABANDON (R310). Sets a fence ABANDONED and wakes unsatisfied waiters. -/
  | fenceAbandon (fn : Fn) (hif : Bool) (b : Bolt) (rsv : BitVec 23)
  /-- FENCE_READ (R296). Returns a fence's value, status and state. -/
  | fenceRead (fn : Fn) (hif : Bool) (b : Bolt) (rsv : BitVec 23)
  /-- OBJ_CREATE (R296). Allocates a ledger entry with HOST count 1. -/
  | objCreate (fn : Fn) (hif : Bool) (b : Bolt) (rsv : BitVec 23)
  /-- OBJ_HOST_INC (R311). Raises an entry's HOST count. -/
  | objHostInc (fn : Fn) (hif : Bool) (b : Bolt) (rsv : BitVec 23)
  /-- OBJ_HOST_DEC (R311). Lowers an entry's HOST count, freeing it when both counts reach 0. -/
  | objHostDec (fn : Fn) (hif : Bool) (b : Bolt) (rsv : BitVec 23)
  /-- OBJ_READ (R296). Returns an entry's counts. -/
  | objRead (fn : Fn) (hif : Bool) (b : Bolt) (rsv : BitVec 23)
  /-- FENCE_SHARE (R309). The PF sets the mask of bolts that may wait on a fence. -/
  | fenceShare (fn : Fn) (hif : Bool) (b : Bolt) (rsv : BitVec 23)
  /-- QUOTA (R296). The PF sets a bolt's fence and ledger quotas. -/
  | quota (fn : Fn) (hif : Bool) (b : Bolt) (rsv : BitVec 23)
  /-- NOP (R304). A call that completes at once. -/
  | nop (q : Queue)
  /-- STEP (R304). A call that asks to run one step of the loaded production. -/
  | step (q : Queue)
  /-- CTX_LOAD (R307). Loads a production into the bolt's context slot, optionally resuming from a save area. -/
  | ctxLoad (q : Queue)
  /-- CONTEXT_READY (R307). Sessions are open and the context becomes READY, completing CTX_LOAD. -/
  | contextReady (b : Bolt)
  /-- CTX_UNLOAD (R316). Drains the bolt and empties its context slot. -/
  | ctxUnload (q : Queue)
  /-- COPY (R304). Firmware copies a UVA range page by page. -/
  | copy (q : Queue)
  /-- FILL (R304). Firmware fills a UVA range with a pattern. -/
  | fill (q : Queue)
  /-- SIGNAL (R308). Signals a fence to FVAL. -/
  | signal (q : Queue)
  /-- WAIT (R309). Waits until a fence reaches a value. -/
  | wait (q : Queue)
  /-- WAIT_TIMEOUT (R309). A WAIT's timeout passes first and it completes TIMEOUT. -/
  | waitTimeout (q : Queue)
  /-- CUE_ARM (R194). Arms a cue slot with a record, or refuses with a cue status. -/
  | cueArm (q : Queue)
  /-- CUE_CANCEL (R195). Disarms a cue slot and reports whether the next occurrence fired. -/
  | cueCancel (q : Queue)
  /-- BARRIER (R304). Completes when every earlier call of the queue has completed. -/
  | barrier (q : Queue)
  /-- CAST_ADMIT (R332). Writes a checked image as a FREE cast entry. -/
  | castAdmit (q : Queue)
  /-- CAST_UPDATE (R330). Copies class, period, deadline, MAX_POS and sampling fields into an entry. -/
  | castUpdate (q : Queue)
  /-- CAST_READ (R330). Writes a cast entry to the image. -/
  | castRead (q : Queue)
  /-- CAST_PARK (R330). Parks a sequence. -/
  | castPark (q : Queue)
  /-- CAST_RESUME (R330). Resumes a parked sequence. -/
  | castResume (q : Queue)
  /-- CAST_RESUME_PROMOTE (R343). Moves a parked entry's rows back into pool 0 and resumes it. -/
  | castResumePromote (q : Queue)
  /-- CAST_EVICT (R342). Spills every pool-0 row of a parked entry. -/
  | castEvict (q : Queue)
  /-- CAST_RELEASE (R330). Returns an entry's pages to their pools and frees the entry. -/
  | castRelease (q : Queue)
  /-- STRIKE (R402). Scrubs a bolt with an EMPTY context, destroying its keys and state. -/
  | strike (q : Queue)
  /-- STRIKE_COMPLETE (R402). The strike's scrub and optional overwrite end and the context becomes EMPTY. -/
  | strikeComplete (b : Bolt)
  /-- APERTURE_ACCESS (R292). An access through PF BAR2 or VF BAR2 reaches fabric memory with the function's rights. -/
  | apertureAccess (fn : Fn) (off : Nat) (len : Nat) (wdata : Option (List Byte)) (ecc : Ecc)
  /-- DRAIN (R316). A write of DRAIN_CTL.GO stops admission and drains the bolt to its next bow point. -/
  | drain (fn : Fn) (b : Bolt) (val : Word)
  /-- DRAIN_TIMEOUT (R316). No bow point within DRAIN_TMO resets the bolt. -/
  | drainTimeout (b : Bolt)
  /-- FREE_POP (R312). A read pops the oldest freed handle from the bolt's free FIFO. -/
  | freePop (fn : Fn) (b : Bolt)
  /-- MBX_SEND (R314). SEND copies a mailbox message to the peer and signals it. -/
  | mbxSend (fn : Fn) (vf : Fn) (val : Word)
  /-- MBX_ACK (R314). ACK releases the inbound buffer and the sender's TX_BUSY. -/
  | mbxAck (fn : Fn) (vf : Fn) (val : Word)
  /-- DRV_VER_WRITE (R319). The driver's version write is compared with the interface version. -/
  | drvVerWrite (fn : Fn) (b : Bolt) (val : Word)
  /-- RUNNING_ORDER_BUILD (R334). At a serving step's start the engine selects sequences, allocates rows and writes the running order. -/
  | runningOrderBuild (b : Bolt)
  /-- POST_STEP_UPDATE (R340). After the last tile passes STEPEND the engine advances every chosen entry. -/
  | postStepUpdate (b : Bolt)
  /-- SRV_POOL_PUSH (R327). A write of SRV_POOLn_PUSH_HI appends a page to a pool ring. -/
  | srvPoolPush (fn : Fn) (b : Bolt) (pool : Fin 4) (hi : Word)
  /-- SRV_POOL_ENABLE (R327). EN changing from 0 to 1 samples a pool's base and order and empties it. -/
  | srvPoolEnable (fn : Fn) (b : Bolt) (pool : Fin 4) (val : Word)
  /-- SPILL (R342). The mover moves rows of parked entries out of pool 0 while it is below its watermark. -/
  | spill (b : Bolt)
  /-- BUDGET_INTERVAL (R362). Every 10 µs the arbiter recomputes shares, rate limits, operating points and intermission. -/
  | budgetInterval (demand : List Demand)
  /-- OP_STEP_DONE (R356). A panel reaches the next operating point. -/
  | opStepDone (p : Panel)
  /-- INTERMISSION_FRAME (R366). At a 64 µs frame boundary the duty is changed or intermission ends. -/
  | intermissionFrame (p : Panel)
  /-- PACE_WINDOW (R205). A 10 µs window shows a panel's measured pace more than 1 % below a floor. -/
  | paceWindow (p : Panel) (pace : Nat)
  /-- PWR_OVERCAP (R365). The 1 ms input average exceeds the cap by more than 1 % and the excess is subtracted. -/
  | pwrOvercap (avg : Nat)
  /-- PWR_CAP (R358). A booth message sets the power cap or is refused. -/
  | pwrCap (ses : SessId) (watts : Nat)
  /-- PWR_ORDER (R358). A booth message sets the consumer priority order. -/
  | pwrOrder (ses : SessId) (first second third : BitVec 2)
  /-- HOLD_ASSERT (R368). A tile rail falls below threshold and its droop detector asserts hold. -/
  | holdAssert (t : Site)
  /-- HOLD_RELEASE (R368). A rail stays above threshold plus 10 mV and hold is released. -/
  | holdRelease (t : Site)
  /-- DROOP_LONG (R369). A hold lasting longer than 10 µs is reported. -/
  | droopLong (t : Site)
  /-- DROOP_STORM (R369). Hold above 2 % of a 1 ms window lowers the panel ceiling for 100 ms. -/
  | droopStorm (p : Panel) (frac : Nat)
  /-- CEILING_RESTORE (R369). A droop or thermal ceiling timer expires and the ceiling rises. -/
  | ceilingRestore (p : Panel)
  /-- THERM_WARN (R370). A sensor crosses 100 °C. -/
  | thermWarn (die : Fin 5) (sensor : Fin 16) (temp : Nat)
  /-- THERM_THROTTLE (R370). A panel at 105 °C has its ceiling lowered stepwise by firmware. -/
  | thermThrottle (p : Panel) (temp : Nat)
  /-- THERM_HW (R370). A panel at 110 °C is forced to OP15 with intermission by hardware. -/
  | thermHw (p : Panel) (temp : Nat)
  /-- THERM_TRIP (R370). 115 °C on a die or 105 °C on a stack asserts THERMTRIP_n. -/
  | thermTrip (die : Nat) (sensor : Nat) (temp : Nat)
  /-- REGION_INIT_DONE (R380). A sealed region's side areas are written and it becomes READY. -/
  | regionInitDone (r : RegionIx)
  /-- REKEY_DONE (R392). Every group has moved to the new K_enc and the old key is destroyed. -/
  | rekeyDone (r : RegionIx)
  /-- SEC_RNG_FAIL (R378). Three consecutive entropy health failures halt the device. -/
  | secRngFail (test : Nat)
  /-- SEC_PB_CTL_GO (R406). A write of SEC_PB_CTL.GO requests a device or bolt playbill. -/
  | secPbCtlGo (fn : Fn) (bltWin : Option Bolt) (val : Word)
  /-- PLAYBILL_SIGNED (R407). Signing completes and the playbill is written with a status. -/
  | playbillSigned (writeOk : Bool)
  /-- DBG_CHAL (R398). A read of the challenge register draws a fresh challenge. -/
  | dbgChal (path : DbgPath)
  /-- DBG_RESP (R398). A written signature is verified and opens a debug session, or counts a failure. -/
  | dbgResp (path : DbgPath) (grant : Nat) (sigOk : Bool)
  /-- DBG_ACCESS (R493). An Update-DR starts one debug register or DMA request checked against the grant. -/
  | dbgAccess (path : DbgPath) (req : BitVec 128) (ecc : Ecc)
  /-- GRANT_EXPIRY (R396). A debug grant reaches its expiry time and ends. -/
  | grantExpiry (grant : Fin 4)
  /-- JTAG_TRST (R398). TRST resets the TAP and ends a JTAG debug session. -/
  | jtagTrst
  /-- RESET_N_DEASSERT (R410). Deassertion of RESET_N samples straps and starts the boot ROM. -/
  | resetNDeassert (straps : Straps)
  /-- BOOT_STAGE (R410). The ROM verifies and runs the next boot stage, or fails or falls back. -/
  | bootStage (r : StageResult)
  /-- TRIAL_TIMEOUT (R439). A trial boot not READY within 10 s falls back. -/
  | trialTimeout
  /-- HEARTBEAT_LAPSE (R421). A core without a heartbeat for 4 ms is restarted by the stage door. -/
  | heartbeatLapse (core : Fin 10)
  /-- CORE_TRAP (R421). A trap or PMP fault of a core starts its restart. -/
  | coreTrap (core : Fin 10) (pmp : Bool) (mcause : BitVec 64)
  /-- RESTART_COMPLETE (R422). A restarted component serves again and replays its journal; the records of `lost` fail their CRC-32. -/
  | restartComplete (r : CoreRestart)
  /-- TLS_CONNECT (R431). A booth connection completes the TLS handshake or is refused. -/
  | tlsConnect (cert : ClientCert)
  /-- SESSION_IDLE (R431). A booth session idle for 300 s is closed. -/
  | sessionIdle (ses : SessId)
  /-- HELLO (R432). Binds the booth session to the module's identity key. -/
  | hello (ses : SessId) (nonce : BitVec 256)
  /-- STATUS (R435). Returns the module's identity, boot, scene and power status. -/
  | status (ses : SessId)
  /-- SET_MODNUM (R435). Sets the high six bits of the module number in scene 0. -/
  | setModnum (ses : SessId) (hi : BitVec 6)
  /-- SET_ADDR (R430). Adds a global booth address. -/
  | setAddr (ses : SessId) (addr : BitVec 128) (plen : Nat) (gw : BitVec 128)
  /-- ENROLL (R437). Writes a new enrolment record and advances the fused counter. -/
  | enroll (ses : SessId) (r : EnrolRec) (sigOk : Bool)
  /-- FW_STAGE (R438). Programs a firmware fragment into the inactive slot and verifies the final one. -/
  | fwStage (ses : SessId) (off : Nat) (last : Bool) (data : List Byte) (check : FwCheck)
  /-- FW_ACTIVATE (R439). Records the staged slot as trial and resets the module. -/
  | fwActivate (ses : SessId) (force : Bool)
  /-- FW_CONFIRM (R439). Makes the trial slot preferred and advances the SVN counter. -/
  | fwConfirm (ses : SessId)
  /-- FW_DISCARD (R435). Discards the staged firmware. -/
  | fwDiscard (ses : SessId)
  /-- DBG_GRANT (R396). Accepts a debug grant record. -/
  | dbgGrant (ses : SessId) (g : GrantRec)
  /-- DBG_REVOKE (R396). Revokes a debug grant. -/
  | dbgRevoke (ses : SessId) (grant : Nat)
  /-- PLAYBILL (R406). The house manager requests a playbill over the booth. -/
  | playbill (ses : SessId) (kind : Bool) (b : Bolt) (nonce : BitVec 256)
  /-- INC_READ (R448). Returns incident records without consuming them. -/
  | incRead (ses : SessId) (first : Nat)
  /-- INC_SUBSCRIBE (R447). Subscribes the session to incident notifications. -/
  | incSubscribe (ses : SessId) (cls : Nat)
  /-- PB_READ (R427). Returns prompt-book records. -/
  | pbRead (ses : SessId) (first : Word) (count : Nat)
  /-- TRACE_SET (R428). Writes a word of a component's trace-mark enable table. -/
  | traceSet (ses : SessId) (comp : Nat) (word : Nat) (mask : Word)
  /-- BOLT_DRAIN (R315). The house manager drains a bolt. -/
  | boltDrain (ses : SessId) (b : Bolt) (save : Bool)
  /-- BOLT_RESET (R454). The house manager resets a bolt. -/
  | boltReset (ses : SessId) (b : Bolt)
  /-- BOLT_STRIKE (R401). The house manager strikes a bolt, resetting it first if loaded. -/
  | boltStrike (ses : SessId) (b : Bolt) (overwrite : Bool)
  /-- MODULE_RESET (R485). Resets the module with the rails up. -/
  | moduleReset (ses : SessId)
  /-- TRC_ENABLE (R429). Setting TRC_CTL.EN samples the trace ring and zeroes HEAD and TAIL. -/
  | trcEnable (fn : Fn) (b : Bolt) (val : Word)
  /-- INC_INTAKE (R445). INC accepts a pending report and writes it to the ring and, for class 4, a fatal slot. -/
  | incIntake
  /-- FAULT_N_ASSERT (R457). 100 ms after a halt FAULT_n is asserted. -/
  | faultNAssert
  /-- INC_TAIL_WRITE (R448). The PF releases consumed ring slots. -/
  | incTailWrite (fn : Fn) (val : Word)
  /-- INC_SRC_CLEAR (R449). Writing 1 to INC_SRC_FIRST.VALID clears a source's first and last registers. -/
  | incSrcClear (fn : Fn) (val : Word)
  /-- BLT_INC_CLEAR (R450). Writing 1 to BLT_INC_FIRST.VALID clears the bolt's first and last registers. -/
  | bltIncClear (fn : Fn) (b : Bolt) (val : Word)
  /-- COUNTER_SAT_CLEAR (R452). Writing 1 to a counter's SAT clears SAT and the counter. -/
  | counterSatClear (fn : Fn) (off : Nat) (val : Word)
  /-- BOLT_RESET_COMPLETE (R454). The recovery manager completes a bolt reset and the context becomes EMPTY. -/
  | boltResetComplete (b : Bolt)
  /-- CTX_TEARDOWN (R455). The context of a LEGACY bolt is torn down instead of a reset. -/
  | ctxTeardown (b : Bolt)
  /-- U_LINK_PAIRING (R461). At first U-link up the twins compare roles and mirrored bolts. -/
  | uLinkPairing (p : Port) (peer : PairInfo)
  /-- MIRROR_WRITE (R462). A mirrored write is performed on the twin and acknowledged. -/
  | mirrorWrite (p : Port) (b : Bolt) (space : BitVec 3) (off : Nat) (data : List Byte)
  /-- MIR_CKPT (R463). A write of MIR_CKPT_HI declares a checkpoint to send to the twin. -/
  | mirCkpt (fn : Fn) (b : Bolt) (hi : Word)
  /-- MIR_CKPT_ACK (R463). The twin acknowledges a checkpoint and MIR_CKPT_ACK is updated. -/
  | mirCkptAck (b : Bolt)
  /-- TWIN_OK_IN_CHANGE (R464). TWIN_OK_IN changes level, making the pair DEGRADED or reachable. -/
  | twinOkInChange (level : Bool)
  /-- PROMOTION (R466). TWIN_OK_IN deasserted for 1 ms makes a PAIRED understudy take over mirrored bolts. -/
  | promotion
  /-- SYNC_COMPLETE (R464). The copy of mirrored regions to the twin completes and the pair is PAIRED. -/
  | syncComplete (p : Port)
  /-- CXL_MEMBER_LOST (R473). A lost CXL logical device resets bolts with windows on it. -/
  | cxlMemberLost (cp : Fin 2) (decoder : Fin 8) (ld : BitVec 4)
  /-- CXL_REBUILT (R474). A returned part's chunks finish rebuilding. -/
  | cxlRebuilt (r : RegionIx) (part : Fin 6)
  /-- PWR_EN_ASSERT (R483). PWR_EN asserted raises the main rails. -/
  | pwrEnAssert
  /-- PWR_EN_DEASSERT (R483). PWR_EN deasserted drops the main rails. -/
  | pwrEnDeassert
  /-- VIN_OUT_OF_RANGE (R480). Input beyond 48 to 60 V for over 100 µs switches off the main rails. -/
  | vinOutOfRange (mv : Nat)
  /-- PWR_GOOD_FALL (R484). Loss of power loses all state and drops TWIN_OK_OUT. -/
  | pwrGoodFall
  /-- RESET_N_ASSERT (R485). RESET_N asserted with rails up starts an internal reset. -/
  | resetNAssert
  /-- INTERNAL_RESET_END (R485). An internal reset ends after 1 ms, samples straps and boots. -/
  | internalResetEnd (straps : Straps)
  /-- PERST0_N (R486). PERST0_n holds host-port half 0 down and resets its functions on deassertion. -/
  | perst0N (level : Bool)
  /-- PERST1_N (R486). PERST1_n resets the companion function of half 1. -/
  | perst1N (level : Bool)
  /-- P12V_CAGE_LOSS (R482). Loss of the cage supply takes every Creust port down. -/
  | p12vCageLoss
  /-- CAGE_INSERT (R495). A plugged cable or transceiver lets its port enter TRAIN or holds it in low power. -/
  | cageInsert (p : Port) (watts : Nat)
  /-- CAGE_REMOVE (R495). Removal from a port in UP takes the port down. -/
  | cageRemove (p : Port)
  /-- PMBUS_WRITE (R491). A PMBus write is refused except CLEAR_FAULTS. -/
  | pmbusWrite (addr : BitVec 7) (cmd : Byte)
  /-- CLEAR_FAULTS (R491). Clears a regulator's fault status. -/
  | clearFaults (addr : BitVec 7)
  /-- TIME_EXCHANGE (R223). Every 125 µs the child end of each port in UP sends a TIME request stamped t1. -/
  | timeExchange (p : Port)
  /-- PPS_OUT_PULSE (R183). At every whole second of stage time PPS_OUT rises, and it falls 100 ms later. -/
  | ppsOutPulse (rise : Bool)
  /-- INTERMISSION_SLOT (R366). At each 1 µs slot boundary a panel in intermission opens or gates tile issue and stops or resumes reduction timers. -/
  | intermissionSlot (p : Panel)
  /-- HOST_READ_COMPLETION (R293). A PCIe completion for a space-4 read arrives on the host port, delivering data or counting as an uncorrectable error if poisoned. -/
  | hostReadCompletion (tag : BitVec 16) (data : List Byte) (poisoned : Bool)
  /-- SPACE4_COMPLETION_TIMEOUT (R293). A space-4 read whose completion does not arrive in time counts as an uncorrectable error at the target. -/
  | space4CompletionTimeout (tag : BitVec 16)
  /-- CXL_COMPLETION (R347). A CXL device's response to a read or write returns at a CXL port, including coded-region and atomic read-then-write handling. -/
  | cxlCompletion (cp : Fin 2) (r : MemReq) (x : CxlAnswer) (ns : Nat)
  /-- CXL_MEMBER_RETURN (R474). A lost part of a coded region returns and the device starts rebuilding its chunks at class 7. -/
  | cxlMemberReturn (r : RegionIx) (part : Fin 6)
  /-- SCENE_RETIRE_CPL_TMO (R276). Stage time passes the scene cue by CRU_CPL_TMO with the in-flight count already zero, and the old scene retires. -/
  | sceneRetireCplTmo
  /-- VIN56_RISE (R483). VIN56 reaches 52.0 V, inrush is limited, PMBus starts answering and PWR_EN is held off for 50 ms. -/
  | vin56Rise (mv : Nat)
  /-- P12V_CAGE_APPLY (R482). P12V_CAGE is applied and the cages are powered so that their ports can train. -/
  | p12vCageApply
  /-- THERM_RECOVER (R370). A panel reads below 103 °C or 100 °C, ending throttle steps and releasing the 110 °C state so the ceiling may rise. -/
  | thermRecover (p : Panel) (temp : Nat)
  /-- BOOTH_SESSION_CLOSE (R435). A client closes its booth session, discarding any uncommitted loom or firmware staging it owned. -/
  | boothSessionClose (ses : SessId)
  /-- TAP_INSTRUCTION_LOAD (R492). A JTAG Update-IR selects an instruction, which acts only if allowed without or with the session's rights, else as BYPASS. -/
  | tapInstructionLoad (code : Byte)
  /-- POWER_STATE_D3HOT (R287). A function enters or leaves D3hot, stopping call fetch and holding MSI-X messages pending, or sending them on return to D0. -/
  | powerStateD3hot (fn : Fn) (enter : Bool)
  deriving DecidableEq, Repr

end Sys2Proof
end

