-- ==== Sys2Proof/Config.lean ====
section
/-! DEFINITION. What the spec leaves to the implementation or does not state: free values. None of them has a body, so no
claim can rest on a value of one. -/

namespace Sys2Proof.Config

/-- Contents of a byte that the spec leaves undefined: the epoch that made it undefined, and the address (03 R97, R501;
12 R405). DESIGN CHOICE, log entry 6: safe, no value of it can be proved. -/
opaque freeByte : Nat → Nat → Byte

/-- A choice between two outcomes that the spec allows, by draw and position (03 R84).
DESIGN CHOICE, log entry 7: safe, no value of it can be proved. -/
opaque freeBit : Nat → Nat → Bool

/-- A 32-bit value that the spec does not state, by draw.
DESIGN CHOICE, log entry 8: safe, no value of it can be proved. -/
opaque freeWord : Nat → Word

/-- A natural number that the spec does not state, by draw.
DESIGN CHOICE, log entry 8: safe, no value of it can be proved. -/
opaque freeNat : Nat → Nat

/-- The set index of a page in a translation cache, by bolt, first UVA and page size (05 R151).
DESIGN CHOICE, log entry 111: safe, no value of it can be proved. -/
opaque tcSet : Nat → Nat → Nat → Nat

/-- Result bits of a special function outside its exact cases (02 R57, R59): function number (0 exp2, 1 log2, 2 rcp,
3 rsqrt, 4 tanh) and the FP32 operand. DESIGN CHOICE, log entry 9: safe, no value of it can be proved. -/
opaque sfu : Nat → Word → Word

/-- A key of SEC's generator for a region's key set, by its number and its part: 0 and 1 the XTS pair, or 0 K_enc and 2 K_tree (12 R376,
R378). DESIGN CHOICE, log entry 10: safe, no value of it can be proved. -/
opaque regionKey : Nat → Nat → BitVec 256

/-- A random draw of SEC's generator (12 R378, R398), by draw.
DESIGN CHOICE, log entry 10: safe, no value of it can be proved. -/
opaque random : Nat → BitVec 256

/-- Byte `k` of the SLH-DSA signature of a message under the identity key (12 R376, R408; 13 R432).
DESIGN CHOICE, log entry 10: safe, no value of it can be proved. -/
opaque signature : List Byte → Nat → Byte

/-- Byte `k` of the ML-KEM-1024 encapsulation key of a key pair of SEC, by its draw (07 R241).
DESIGN CHOICE, log entry 10: safe, no value of it can be proved. -/
opaque kemKey : Nat → Nat → Byte

/-- Byte `k` of the ML-KEM-1024 ciphertext for an encapsulation key, by draw (07 R241).
DESIGN CHOICE, log entry 10: safe, no value of it can be proved. -/
opaque kemCipher : List Byte → Nat → Nat → Byte

/-- The shared secret of an encapsulation to a key, by draw (07 R241).
DESIGN CHOICE, log entry 10: safe, no value of it can be proved. -/
opaque kemSecret : List Byte → Nat → BitVec 256

/-- The shared secret that a key pair of SEC decapsulates from a ciphertext (07 R241).
DESIGN CHOICE, log entry 10: safe, no value of it can be proved. -/
opaque kemOpen : Nat → List Byte → BitVec 256

/-- The key of the direction from a module, by its number, of the pair's sealed session on U0 and U1 (12 R395): the spec gives its
set-up no place. DESIGN CHOICE, log entry 10: safe, no value of it can be proved. -/
opaque twinKey : Nat → BitVec 256

/-- The core, 0 to 9, that stage 4 makes the producer, and the consumer, of a queue of the message-queue unit (13 R420): the spec names
none. DESIGN CHOICE, log entry 123: safe, no value of it can be proved. -/
opaque mqProducer : Nat → Nat
opaque mqConsumer : Nat → Nat

/-- Hash of the part's boot ROM (12 R408).
DESIGN CHOICE, log entry 10: safe, no value of it can be proved. -/
opaque romHash : BitVec 256

/-- Byte `k` of the component entry of a component of a firmware image, by the image's hash and the component's ID: version,
security version, reserved, hash (12 R408; 13 R415). DESIGN CHOICE, log entry 10: safe, no value of it can be proved. -/
opaque component : BitVec 256 → Nat → Nat → Byte

end Sys2Proof.Config
end

