-- ==== Sys2Proof/Machine/State.lean ====
section
/-! DEFINITION. The state of the module: every register, memory, buffer, queue, counter, mode and pin that the spec gives
it, as plain data; the reasons a step can stop; and the module at reset. Citations such as (03 R63) name the section file
of spec/ by its number and the rule. -/

namespace Sys2Proof.Machine

/-! ### Stops -/

/-- Faults. No command of this module stops it with a fault: every error that the spec names is an effect (an incident,
a status, a refusal answered to the requester). The type is kept for the host's interface; nothing raises it. -/
inductive Fault
  /-- Raised by nothing: a placeholder that keeps the type inhabited. Safe. -/
  | none_
  deriving DecidableEq, Repr

/-- Refusals. -/
inductive Refusal
  /-- The command has no meaning in the model yet. Raised by an arm of `exec` only. Safe. -/
  | notModelled (mnemonic : String)
  deriving DecidableEq, Repr

/-- A range of bytes whose unlisted contents are free: `[lo, hi)`, contents those of `epoch` (03 R97, R501; 12 R405). -/
structure FreeRange where
  lo : Nat
  hi : Nat
  epoch : Nat
  deriving DecidableEq, Repr

/-- A byte memory: cells by strictly rising address; an address not listed reads as 0, or as a free byte inside the
first range of `free` that holds it. -/
structure Mem where
  cells : List Host.Cell
  free : List FreeRange
  deriving DecidableEq, Repr

/-! ### Registers (00_scope.md) -/

/-- A 48-bit event counter with its saturation flag (14 R452).
`val` 48 bits; `sat` set when the counter stopped at 2^48 − 1. reset 0. -/
structure Ctr where
  val : Nat
  sat : Bool
  deriving DecidableEq, Repr

/-- The per-function latch of R7: the `_LO` offset last read and the high half taken with it. -/
structure Latch where
  off : Nat
  hi : Word
  deriving DecidableEq, Repr

/-! ### Engine tiles (02_arithmetic.md, 03_engine_tile.md) -/

/-- One active loop of the 4-level loop stack (03 R63, R80): first and last bundle of the body and the passes left. -/
structure LoopFrame where
  start : Nat
  last : Nat
  left : Nat
  deriving DecidableEq, Repr

/-- A weight buffer (03 R63, R72): the 4-bit code of the format it holds (`none`: no format) and its columns,
`128 × 128` or `256 × 128` element codes and scale codes as loaded by MLDW. -/
structure WBuf where
  fmt : Option (BitVec 4)
  elems : List (List Nat)
  scales : List (List Nat)
  deriving DecidableEq, Repr

/-- A shuttle descriptor (03 R88), 64 bytes, its fields. -/
structure Desc where
  op : BitVec 8
  esize : BitVec 2
  cls : BitVec 3
  sem : BitVec 3
  semEn : Bool
  hold : Bool
  redFmt : Bool
  srcUva : Bool
  dstUva : Bool
  group : BitVec 16
  semTile : BitVec 16
  src : BitVec 64
  dst : BitVec 64
  dim0 : BitVec 16
  dim1 : BitVec 16
  dim2 : BitVec 16
  dim3 : BitVec 16
  srcStride1 : BitVec 32
  srcStride2 : BitVec 32
  srcStride3 : BitVec 32
  dstStride1 : BitVec 32
  dstStride2 : BitVec 32
  dstStride3 : BitVec 32
  tag : BitVec 32
  deriving DecidableEq, Repr

/-- Reasons of a translation fault (05 R165 REASON). -/
inductive XltReason
  | unmapped | noRead | noWrite | malformed | enc
  deriving DecidableEq, Repr

/-- A cached or pinned leaf translation (05 R147, R151): bolt, context generation, first UVA of the page, page-size
code, the PTE word; `prefetched` marks one that a prefetch walk brought in (R157 counts hits on them), `stale` a pinned one
that an invalidation has removed: it leaves the micro-TLB as soon as it is unpinned (R161). -/
structure Leaf where
  bolt : Nat
  gen : Nat
  va : Nat
  ps : Nat
  pte : DWord
  prefetched : Bool
  stale : Bool
  deriving DecidableEq, Repr

/-- A walk-cache entry (05 R151): a non-leaf entry of `level` covering the UVA range from `va`. -/
structure WalkEntry where
  bolt : Nat
  gen : Nat
  level : Nat
  va : Nat
  next : Nat
  deriving DecidableEq, Repr

/-- A walk in progress for one page (05 R152): the UVA, the level about to be read and the table page it reads in. Of a table
on another module, whether the line of the entry has been asked for over Creust, and the line once it has come. -/
structure Walk where
  va : Nat
  level : Nat
  table : Nat
  writes : Bool
  dstSide : Bool
  asked : Bool
  line : List Byte
  deriving DecidableEq, Repr

/-- A prefetch walk in progress (03 R95; 05 R153): for a stream of a tile, under a context generation of its bolt. The panel is
that of the tile. -/
structure PfWalk where
  site : Nat
  stream : Nat
  bolt : Nat
  gen : Nat
  walk : Walk
  deriving DecidableEq, Repr

/-- A contiguous run of one side of a tensor tile in one page: position in traversal order, address as the descriptor gives it,
fabric address (none: this tile's own spool), bytes. -/
structure Piece where
  pos : Nat
  va : Nat
  fa : Option Nat
  len : Nat
  deriving DecidableEq, Repr

/-- Where a queued tensor tile stands (03 R91 to R98, R505). -/
inductive TensorPhase
  /-- queued, not started -/
  | queued
  /-- started (credit consumed, group checked); waiting for micro-TLB room (R93) -/
  | started
  /-- translating: pages still to translate, walk under way if any (R92) -/
  | translating (walk : Option Walk)
  /-- every page translated and pinned; committing (R92, R98) -/
  | committing
  /-- held by a translation fault, entered in the fault queue or waiting to be (R94, R163, R164) -/
  | held
  deriving DecidableEq, Repr

/-- A descriptor in a stream with its phase (03 R78, R91). `pins` are the leaves pinned for it; `data` the source bytes it
has fetched: runs by position in traversal order (staging buffer, R92). -/
structure QDesc where
  desc : Desc
  phase : TensorPhase
  pins : List Leaf
  data : List (Nat × List Byte)
  /-- a remote destination's writes have been sent -/
  sent : Bool
  /-- a local destination has been written and its mirrored copies are due (14 R462) -/
  written : Bool
  /-- round of a REDUCE (04 R127) -/
  round : Nat
  /-- scene under which its requests were issued (08 R275) -/
  scene : Word
  /-- pieces of the side in hand whose requests have not been issued -/
  todo : List Piece
  /-- is the next of them held at a limit? (11 R349) -/
  limited : Bool
  deriving DecidableEq, Repr

/-- One shuttle stream (03 R63, R78): its queue of at most 32 descriptors and its prefetch depth, 1 to 16. -/
structure StreamQ where
  queue : List QDesc
  depth : Nat
  deriving DecidableEq, Repr

/-- What a tile is doing (03 R65, R79, R103, R106). -/
inductive TileRun
  /-- no context has given the tile a stream -/
  | idle
  /-- issuing -/
  | running
  /-- its next bundle is held at issue (WAITSEM, WAITCUE, FENCE, SEMSIG with REL, SQ on a full stream) -/
  | heldIssue
  /-- an issued SQ is still copying: stream, address of the next descriptor, step, how many are left, PC of its bundle (R78);
  and what the tile does after it -/
  | copying (stream : Nat) (addr : Nat) (step : Int) (left : Nat) (pc : Nat) (next : TileRun)
  /-- arrived at bow point `num` with KEEP; `stepEnd` for STEPEND (R103, R104) -/
  | atBow (num : Nat) (keep : Bool) (stepEnd : Bool)
  /-- HALT issued -/
  | halted
  /-- stopped by a tile fault, by its bolt's reset or stop, or by a device halt (R106, 14 R454) -/
  | stopped
  deriving DecidableEq, Repr

/-- One engine tile (03 R63), reset values of 03 R501. After a context load that does not clear them, spool and
accumulator bytes are free (R97, R501). -/
structure Tile where
  /-- instruction buffer, 8,192 × 128 bits (03 R63), by bundle index; reset: empty -/
  imem : Sparse (BitVec 128)
  /-- bundles loaded -/
  streamLen : Nat
  /-- program counter, 13 bits (03 R63); reset 0 -/
  pc : Nat
  /-- loop stack, 4 levels, innermost first (03 R63); reset empty -/
  loops : List LoopFrame
  /-- A0–A15, 24 bits each (03 R63); reset 0 -/
  aReg : Sparse (BitVec 24)
  /-- steps of A0–A15, 22 bits signed (03 R63); reset 0 -/
  aStep : Sparse (BitVec 22)
  /-- I0–I15, 32 bits (03 R63); reset 0 -/
  iReg : Sparse Word
  /-- V0–V31, 256 FP32 lanes each; key reg × 256 + lane (03 R63); reset 0 -/
  vReg : Sparse Word
  /-- M1–M3, 256 bits each (03 R63); M0 reads as all ones; reset 0 -/
  mReg : Sparse (BitVec 256)
  /-- weight buffer W0 (03 R63); reset: no format -/
  w0 : WBuf
  /-- weight buffer W1 (03 R63); reset: no format -/
  w1 : WBuf
  /-- accumulator file, 2,048 × 128 × FP32 = 1 MiB, little-endian, row × 512 + column × 4 (03 R63); reset 0 -/
  acc : Mem
  /-- spool, 16 MiB (03 R63); reset 0 -/
  spool : Mem
  /-- eight 16-bit semaphores (03 R63, R99); reset 0 -/
  sems : Sparse Nat
  /-- STEP, 16 bits (03 R101); reset 0 -/
  step : BitVec 16
  /-- CREL, 16 bits (03 R101); reset 0 -/
  crel : BitVec 16
  /-- NCREL, 16 bits (03 R101); reset 0 -/
  ncrel : BitVec 16
  /-- stream release credits, 16 × 8 bits (03 R102); reset 0 -/
  credits : Sparse Nat
  /-- dither seed S, 64 bits (02 R50); reset 0 -/
  seed : DWord
  /-- dither counter c, 48 bits (02 R50); reset 0 -/
  dither : BitVec 48
  /-- arithmetic status word, 32 bits (02 R60); reset 0 -/
  status : Word
  /-- the 16 shuttle streams (03 R63); reset: empty, depth 1 -/
  streams : Sparse StreamQ
  /-- micro-TLB, 64 entries (03 R63): leaves not pinned by a tensor tile; reset empty -/
  utlb : List Leaf
  /-- issue state -/
  run : TileRun
  /-- hold asserted by the droop detector (11 R368); reset 0 -/
  hold : Bool
  /-- stage time at which hold was asserted -/
  holdSince : Nat
  /-- the intermission slot of the tile is gated (11 R366); reset 0 -/
  gated : Bool
  deriving DecidableEq, Repr

/-! ### Mesh (04_panel_mesh.md) -/

/-- One ticket ledger (04 R135): tickets taken from the sender's held count, and where they are. Balance:
`taken = flight + back + occ`. reset all 0 (every ticket is held by the sender). -/
structure Ledger where
  taken : Nat
  flight : Nat
  back : Nat
  occ : Nat
  deriving DecidableEq, Repr

/-- An input of a reduction chunk waiting at a node (04 R129): `rank = 0` own contribution, `k + 1` the child of rank k. -/
structure RedInput where
  group : Nat
  scene : Word
  node : Nat
  round : Nat
  chunk : Nat
  rank : Nat
  data : List Word
  /-- elements the contribution holds in this chunk -/
  len : Nat
  /-- stage time of arrival (nanoseconds), for the timer of R132 -/
  at_ : Nat
  deriving DecidableEq, Repr

/-- Run-time state of a reduction group (04 R127, R132). -/
structure RedRun where
  /-- failed until bolt reset or legacy teardown (R132) -/
  failed : Bool
  /-- next round of each member node (R127), by node index -/
  next : Sparse Nat
  /-- semaphore signals due at the destination tile when each round commits: (round, sem, contributing tile's bolt-local number) per
  contribution (R98; 03 R106) -/
  sems : List (Nat × Nat × Nat)
  /-- chunks of each round that each node has forwarded, sent up or committed, by node + 64 × round -/
  committed : Sparse Nat
  /-- chunks of each round's contributions -/
  size : Sparse Nat
  /-- rounds that a member here has begun and that are not over, each with the scene that counts it (08 R275) -/
  begun : List (Nat × Word)
  deriving DecidableEq, Repr

/-- A multicast flit waiting in a node's tree slot (04 R125). -/
structure McFlit where
  group : Nat
  scene : Word
  node : Nat
  /-- destination spool offset and bytes -/
  dst : Nat
  data : List Byte
  /-- last flit of the tensor tile: semaphore to signal on the member, if any -/
  sem : Option Nat
  /-- site and stream of the tensor tile -/
  from_ : Nat × Nat
  deriving DecidableEq, Repr

/-- A flit in a bridge stop's replay buffer (04 R137): its direction, towards the lower-numbered panel, or from the proscenium
die, or not; and the ledger number it holds a ticket of, a virtual channel or 20. -/
structure BridgeFlit where
  back : Bool
  pool : Vc
  flit : Flit
  deriving DecidableEq, Repr

/-- One bridge stop's replay state (04 R137). -/
structure BridgeStop where
  /-- flits sent and not acknowledged: their last transfer failed its CRC -/
  replay : List BridgeFlit
  /-- consecutive failed replays, 0 to 8 -/
  failed : Nat
  /-- replays since the last retrain -/
  replays : Nat
  /-- retrain in progress -/
  retraining : Bool
  /-- consecutive retrains that failed, 0 to 3 -/
  badRetrains : Nat
  deriving DecidableEq, Repr

/-! ### Memory and translation (05_memory_translation.md) -/

/-- A fault-queue entry (05 R165). -/
structure FqEntry where
  seq : Nat
  stream : Nat
  dstSide : Bool
  writes : Bool
  reason : XltReason
  level : Nat
  ltile : Nat
  site : Nat
  addr : DWord
  tag : Word
  scene : Word
  time : DWord
  deriving DecidableEq, Repr

/-- A bolt's fault queue (05 R163, R164): at most 1,024 entries, head first; `waiting` the held faults not yet entered;
`nextSeq` from 1, wrapping from 65,535 to 1. -/
structure FaultQueue where
  entries : List FqEntry
  waiting : List FqEntry
  nextSeq : Nat
  deriving DecidableEq, Repr

/-- A descriptor that an invalidation slot is processing (05 R158, R161). -/
structure InvActive where
  kind : Nat
  bolt : Nat
  fen : Bool
  fence : Nat
  fval : DWord
  start : Nat
  pages : Nat
  seq : Nat
  /-- tensor tiles pinned against a removed entry: (site, stream) (R161 condition 3) -/
  pins : List (Nat × Nat)
  /-- modules whose shootdown acknowledgement is due: (port, module) -/
  unacked : List (Nat × Nat)
  /-- stage time of the submission (R162) -/
  at_ : Nat
  /-- header of a SHOOT from another module that waits for its acknowledgement (07 R236): kept under keys from 64 on -/
  reply : Option PktHdr
  deriving DecidableEq, Repr


/-! ### Stage time, cues, the guarantee (06_stage_time_cues.md). Times are kept in nanoseconds (seconds × 10^9 + ns);
`packTime` gives the 64-bit layout of R176. -/

/-- States of the STU (06 STU_STATE): codes 0 to 3. -/
inductive StuMode
  | free | acquire | locked | holdover
  deriving DecidableEq, Repr

/-- The stage time unit (06 R176 to R187). -/
structure Stu where
  /-- stage time in ns (06 R176); reset 0 (R180) -/
  time : Nat
  /-- counting has ended at the last value (06 R177); reset false -/
  ended : Bool
  /-- STU_STATE.STATE (06); reset FREE when SRC = 2, else ACQUIRE -/
  mode : StuMode
  /-- STU_STATE.ALIGN_OK (06 R186); reset 0 -/
  alignOk : Bool
  /-- STU_STATE.ERR_BOUND, 8 bits (06 R184, R185); reset 0xFF -/
  errBound : Nat
  /-- STU_PHASE, signed 32 bits (06); reset 0 -/
  phase : Int
  /-- STU_FREQ, signed 32 bits (06); reset 0 -/
  freq : BitVec 32
  /-- consecutive edges or exchanges that met the lock criterion (06 R181); reset 0 -/
  good : Nat
  /-- the first step of the present ACQUIRE has been made or can no longer be (06 R182, R183); reset false -/
  firstDone : Bool
  /-- the first step of the present ACQUIRE has been made: the acceptance window applies (06 R183); reset false -/
  stepMade : Bool
  /-- a peer takes its time from this module: the root of a fabric domain when its source is PPS or free-running (06 R184,
  R186); reset false -/
  child : Bool
  /-- stage time of the last accepted edge or completed exchange (06 R181); reset 0 -/
  lastRef : Nat
  /-- stage time at which HOLDOVER was entered (06 R185); reset 0 -/
  holdoverAt : Nat
  /-- ERR_BOUND when HOLDOVER was entered (06 R185); reset 0xFF -/
  holdoverErr : Nat
  /-- level of the PPS_OUT pin (06 R183, 15 R488); reset low -/
  ppsOut : Bool
  deriving DecidableEq, Repr

/-- A cue record (06 R189), 32 bytes. -/
structure CueRec where
  fire : DWord
  action : BitVec 8
  coal : Bool
  inc : Bool
  rsv1 : BitVec 22
  target : Word
  arg : DWord
  period : Word
  count : BitVec 16
  bolt : BitVec 6
  rsv2 : BitVec 10
  deriving DecidableEq, Repr

/-- An armed cue slot (06 R188, R194 to R199). -/
structure CueSlotSt where
  record : CueRec
  /-- index of the next occurrence -/
  occ : Nat
  /-- handed to its targets' comparators (R196) -/
  handed : Bool
  /-- stage time at which a late occurrence fired with later ones due (R199) -/
  lastAt : Option Nat
  /-- cancelled inside the 4 µs window: only the next occurrence fires (R195) -/
  lastOne : Bool
  /-- armed from the template of this step sequence number of the bolt -/
  stepSeq : Option Nat
  /-- stage time at which it was armed (R198 cause 1) -/
  armedAt : Nat
  deriving DecidableEq, Repr

/-- An admitted step of a bolt that is not yet delivered (06 R202 to R207). -/
structure StepRec where
  /-- count of steps admitted on the bolt -/
  seq : Nat
  /-- queue and call that launched it -/
  queue : Nat
  index : Nat
  call : BitVec 512
  cls : Nat
  /-- stage times (ns): admission, start S (none while queued), D, D_bound -/
  admitted : Nat
  start : Option Nat
  deadline : Nat
  /-- D_bound of a step admitted behind another, packed; 0 with none ahead (06 R202) -/
  bound : Nat
  lead : Nat
  wcs : Nat
  /-- admitted with guarantee (R203); the NOGUAR status otherwise -/
  guar : Bool
  noguar : Nat
  /-- voided (R206), missed (R207) -/
  voided : Bool
  missed : Bool
  /-- scene under which it was admitted -/
  scene : Word
  /-- a serving step (10 R334): run by the cast-list engine -/
  serving : Bool
  /-- every tile of the bolt has passed the step's STEPEND -/
  ended : Bool
  /-- stage time at which it did (10 R340) -/
  endAt : Nat
  /-- completed, and its MSI-X message held pending: delivered once that is sent (R201) -/
  held : Bool
  deriving DecidableEq, Repr

/-! ### Creust (07_creust_fabric.md) -/

/-- Port states of R213, codes 0 to 6. -/
inductive PortMode
  | down | train | align | param | up | retrain | failed
  deriving DecidableEq, Repr

/-- A slot of a control flit (07 R211, R212): NULL, a packet header, the 32 bytes of an EXT slot, the 16 bytes of a GCM tag, or a
link-control slot by kind and fields. -/
inductive WSlot
  | null
  | header (h : PktHdr)
  | ext (bytes : List Byte)
  | tag (bytes : List Byte)
  | link (kind : Nat) (fields : List Nat)
  deriving DecidableEq, Repr

/-- A flit of a Creust port (07 R211): four slots, or 128 bytes of data. -/
inductive WFlit
  | control (slots : List WSlot)
  | data (bytes : List Byte)
  deriving DecidableEq, Repr

/-- A flit to send, and the cells that its slots or data take in each ledger (07 R215). -/
structure OutFlit where
  flit : WFlit
  cells : List (Nat × Nat)
  deriving DecidableEq, Repr

/-- A codeword kept for replay (07 R218): CSEQ, the cells it carries per ledger, and its flits. -/
structure ReplayCw where
  cseq : Nat
  cells : List (Nat × Nat)
  flits : List WFlit
  deriving DecidableEq, Repr

/-- One direction pair of a ticket ledger of a port (07 R215 to R221). Ledgers 0 to 8 are VL0 to VL8 (8 unused: kept per
group as 16 + group), 9 the shared pool. Sender side: `taken` tickets not held, `sret` cumulative cells returned to us.
Receiver side: `occ` cells occupied, `freed` cumulative cells we returned, `owed` cells freed and not yet in a CREDIT. -/
structure CrLedger where
  taken : Nat
  sret : Nat
  occ : Nat
  freed : Nat
  owed : Nat
  deriving DecidableEq, Repr

/-- A packet waiting at an egress port for tickets (07 R216, R239). -/
structure EgPkt where
  h : PktHdr
  /-- data bytes; of a packet of this module in plaintext, sealed at emission -/
  data : List Byte
  /-- the 32 bytes of the EXT slot, if it has one -/
  ext : Option (List Byte)
  /-- the TAGSLOT of a sealed transit packet -/
  tag : List Byte
  /-- virtual lane (R215), or 8 for RED -/
  vl : Nat
  /-- our session index, by which its SEQ is assigned at emission; none for a transit packet -/
  ski : Option Nat
  /-- the outstanding request that it carries -/
  req : Option Nat
  deriving DecidableEq, Repr

/-- One Creust port (07 R208 to R224). -/
structure CrPort where
  /-- CRU_PORT_STAT.STATE (07 R213); reset DOWN -/
  mode : PortMode
  /-- CRU_PORT_STAT.PEER_OK (07 R214); reset 0 -/
  peerOk : Bool
  /-- failed trainings in a row (07 R219); reset 0 -/
  badTrain : Nat
  /-- training time in µs of the last training (R254 CR_LINK_UP); reset 0 -/
  trainUs : Nat
  /-- peer offer from PARAM: kind, module, port, cells per VL, shared, RED cells; reset none -/
  peer : Option (Bool × Nat × Nat × Nat × Nat × Nat)
  /-- CSEQ expected by the receiver, CSEQ next to send (07 R218); reset 0 -/
  rxCseq : Nat
  txCseq : Nat
  /-- a NAK has been sent for the present episode (07 R218); reset false -/
  nakSent : Bool
  /-- the CSEQ last NAKed by the peer and how often in a row (07 R219); reset (0, 0) -/
  nakCseq : Nat
  nakCount : Nat
  /-- unacknowledged codewords, oldest first (07 R218); reset empty -/
  replay : List ReplayCw
  /-- packets waiting for tickets, oldest first (07 R239); reset none -/
  egress : List EgPkt
  /-- flits formed and not yet sent in a codeword, oldest first, each with the cells that it takes (07 R211, R218); reset none -/
  flitQ : List OutFlit
  /-- data flits still due of the packets announced in the last control flit received: ledger and number (07 R211); reset none -/
  rxDue : List (Nat × Nat)
  /-- lanes, or 16 + a reduction group, with a packet waiting and no ticket, and the stage time since when (07 R248); reset none -/
  blocked : Sparse (Option Nat)
  /-- stage time of the entry to RETRAIN (07 R219); reset 0 -/
  retrainAt : Nat
  /-- the replay of R220 is still to come, at the first RESYNC slot; reset false -/
  resync : Bool
  /-- stage time of the last ACK progress (07 R219); reset 0 -/
  ackAt : Nat
  /-- cause of the RETRAIN in progress: 0 NAK bound, 1 ACK stall -/
  retrainCause : Nat
  /-- ticket ledgers by number -/
  ledgers : Sparse CrLedger
  /-- codewords received and corrected in the present second (R254 CR_FEC_DEGRADE); the second -/
  fecSec : Nat
  fecRx : Nat
  fecCorr : Nat
  /-- CRU_LINK_DELAY (07 R223); reset 0 -/
  delay : Nat
  /-- t1 of the exchange outstanding (R223); reset none -/
  t1 : Option Nat
  /-- missed exchanges in a row (R223); reset 0 -/
  missed : Nat
  deriving DecidableEq, Repr

/-- Set-up stages of a session (07 R241). -/
inductive SessPhase
  | offerSent | encapsSent | confirmSent | opened | closed
  deriving DecidableEq, Repr

/-- The key of one direction of a sealed session, in SEC, and its place in the chain: SEQ[63:62] (07 R240, R244). -/
structure DirKey where
  key : BitVec 256
  gen : Nat
  deriving DecidableEq, Repr

/-- A request that has arrived and waits to be performed: its SEQ and TC, and the class mask of a FENCE (07 R235). -/
structure HeldReq where
  seq : Nat
  tc : Nat
  mask : Option Nat
  deriving DecidableEq, Repr

/-- A message of session set-up that arrives in fragments, or that has come before this module opens its session (07 R241): from a
module for a bolt, its OPX, the next fragment, and the bytes so far; `whole` once all have come, with the check of the signature
that an OFFER carries. -/
structure SessMsg where
  src : Nat
  bolt : Nat
  opx : Nat
  next : Nat
  data : List Byte
  whole : Option Bool
  deriving DecidableEq, Repr

/-- A Creust session (07 R240 to R244). -/
structure Sess where
  phase : SessPhase
  peer : Nat
  bolt : Nat
  sealed : Bool
  /-- the peer's index for this session -/
  peerSki : Nat
  /-- peer's capacity record (05 R148): HBM3E bytes, CXL bytes, dark map -/
  capHbm : Nat
  capCxl : Nat
  capDark : List Nat
  /-- next SEQ to send (07 R239, R244); key generations are SEQ[63:62] -/
  txSeq : Nat
  /-- highest SEQ accepted + 1, by message class × 8 + TC (07 R243) -/
  rx : Sparse Nat
  /-- stage time at which set-up began (R241: 1 s) -/
  openedAt : Nat
  /-- bulk fragments performed and not yet acknowledged, by TC (R232); the SEQ of the last -/
  bulkOwed : Sparse Nat
  bulkSeq : Sparse Nat
  /-- keys of the sending and the receiving direction; 0 in a clear session -/
  txKey : DirKey
  rxKey : DirKey
  /-- set-up of a sealed session: the four messages as sent and received, and the secrets of our encapsulation and of the peer's
  (07 R241) -/
  offerOut : List Byte
  offerIn : List Byte
  encapsOut : List Byte
  encapsIn : List Byte
  secretOut : BitVec 256
  secretIn : BitVec 256
  /-- requests received that wait (07 R235, R238) -/
  held : List HeldReq
  deriving DecidableEq, Repr

/-- What an outstanding request of this module was for (07 R231). -/
inductive ReqOwner
  /-- a tensor tile: site, stream, source side? -/
  | tensor (site stream : Nat) (dst : Bool)
  /-- a remote SEMSIG of a tile -/
  | semsig (site : Nat)
  /-- a shootdown of an invalidation slot -/
  | shoot (slot : Nat)
  /-- firmware on a bolt's behalf -/
  | firmware (bolt : Nat)
  /-- a mirrored write of a bolt (14 R462) -/
  | mirror (bolt : Nat)
  /-- an access through a VF's aperture (09 R292) -/
  | aperture (fn : Nat)
  /-- a table read by the walkers of a translation unit (05 R144) -/
  | walk (unit_ : Nat)
  /-- a SESS message (07 R241, R244); is it the CLOSE of an open session, which is answered within the session? -/
  | sess (close : Bool)
  deriving DecidableEq, Repr

/-- What on the proscenium die asks for an access: a firmware operation of a bolt, the cast-list engine's mover (11 R348), or a
walker of the proscenium unit. -/
inductive FwWho
  | op | mover | walker
  deriving DecidableEq, Repr

/-- An access of firmware on a bolt's behalf that leaves the module: at a fabric address, of `len` bytes, with a traffic class;
`data` is what it writes, if it does (05 R149, R155). -/
structure FwNeed where
  who : FwWho
  bolt : Nat
  fa : Nat
  len : Nat
  cls : Nat
  data : Option (List Byte)
  deriving DecidableEq, Repr

/-- Such an access under way, by its request's TAG, or ended: with its status (07 R230) and, of a read, the bytes. -/
structure FwGot where
  need : FwNeed
  tag : Nat
  st : Option Nat
  bytes : List Byte
  deriving DecidableEq, Repr

/-- An outstanding request (07 R231): by TAG. -/
structure CrReq where
  kind : Nat
  dst : Nat
  bolt : Nat
  ski : Nat
  seq : Nat
  tc : Nat
  port : Nat
  scene : Word
  owner : ReqOwner
  /-- UVA or fabric address for fault reports -/
  addr : DWord
  dstSide : Bool
  /-- position in the tensor tile's traversal and length of the bytes it moves -/
  pos : Nat
  len : Nat
  /-- stage time of its completion timer's expiry -/
  due : Nat
  deriving DecidableEq, Repr

/-! ### Loom scenes (08_loom_bolts.md) -/

/-- A bolt record of a scene (08 R261). -/
structure BoltRec where
  bolt : Nat
  priv : Bool
  mirror : Bool
  legacy : Bool
  elastic : Bool
  linkSeal : Bool
  vf : Nat
  tileBase : Nat
  tiles : Nat
  cueBase : Nat
  cueCount : Nat
  castBase : Nat
  castCount : Nat
  queueBase : Nat
  queueCount : Nat
  qwinMin : Nat
  qwinMax : Nat
  guarClasses : BitVec 8
  pwrRes : Nat
  floorOp : Nat
  home : Nat
  deriving DecidableEq, Repr

/-- A tile entry with V = 1 (08 R262). -/
structure TileEnt where
  bolt : Nat
  order : Nat
  deriving DecidableEq, Repr

/-- A channel entry with V = 1 (08 R262). -/
structure ChanEnt where
  bolt : Nat
  scrub : Bool
  deriving DecidableEq, Repr

/-- An HDM decoder record (08 R263). -/
structure CxlDec where
  port : Nat
  index : Nat
  twoWay : Bool
  gran : Nat
  ld : Nat
  base : Nat
  size : Nat
  deriving DecidableEq, Repr

/-- A CXL window record (08 R264). `base` is the space 1 offset. -/
structure CxlWin where
  bolt : Nat
  base : Nat
  size : Nat
  deriving DecidableEq, Repr

/-- A grant record (08 R264). `base` is a fabric address. -/
structure Grant where
  bolt : Nat
  read : Bool
  write : Bool
  atomic : Bool
  srcMod : Nat
  base : Nat
  size : Nat
  deriving DecidableEq, Repr

/-- Protection modes of a region (08 R264 MODE). -/
inductive RegionMode
  | clear | veiled | sealed
  deriving DecidableEq, Repr

/-- Redundancy of a region (08 R264 REDUND). -/
inductive Redund
  | none | mirrored | coded
  deriving DecidableEq, Repr

/-- A region record (08 R264). `base` is a fabric address. -/
structure Region where
  bolt : Nat
  mode : RegionMode
  redund : Redund
  base : Nat
  size : Nat
  deriving DecidableEq, Repr

/-- A port record (08 R265). -/
structure PortRec where
  en : Bool
  peerSw : Bool
  peerMod : Nat
  peerPort : Nat
  owners : DWord
  deriving DecidableEq, Repr

/-- A binding record (08 R265): the peer's playbill public key stays as its 256-bit value. -/
structure Binding where
  bolt : Nat
  peer : Nat
  key : BitVec 256
  deriving DecidableEq, Repr

/-- A QOS record (08 R265): limits of classes 0 to 7. -/
structure QosRec where
  bolt : Nat
  limits : List Nat
  deriving DecidableEq, Repr

/-- A node of a multicast or reduction tree (04 R123). -/
structure Node where
  site : Nat
  parent : Nat
  port : Bool
  member : Bool
  tickets : Nat
  rank : Nat
  deriving DecidableEq, Repr

/-- A multicast group record (04 R122). -/
structure McastRec where
  group : Nat
  bolt : Nat
  rootSlots : Nat
  nodes : List Node
  deriving DecidableEq, Repr

/-- A reduction group record (04 R126). -/
structure RedRec where
  group : Nat
  bolt : Nat
  bf16 : Bool
  up : Bool
  upPort : Nat
  timeout : Nat
  upGroup : Nat
  destOffset : Nat
  nodes : List Node
  deriving DecidableEq, Repr

/-- A scene: the parsed sections of an accepted loom image (08 R255 to R265). Scene 0 holds no bolt (R271). -/
structure Scene where
  num : Word
  strict : Bool
  drainMax : Nat
  /-- stage time of its cue, ns -/
  fire : Nat
  bolts : List BoltRec
  /-- by site -/
  tiles : Sparse (Option TileEnt)
  /-- by channel -/
  channels : Sparse (Option ChanEnt)
  decs : List CxlDec
  wins : List CxlWin
  /-- by port, when the scene has a port section -/
  ports : Option (List PortRec)
  /-- by module -/
  routes : Sparse Word
  bindings : List Binding
  mcast : List McastRec
  red : List RedRec
  grants : List Grant
  qos : List QosRec
  regions : List Region
  /-- STU_CTL[6:0] and CPL_TMO of the time record -/
  stuCtl : BitVec 7
  cplTmo : Nat
  deriving DecidableEq, Repr

/-- LOM_STATE.STATE (08 R273). -/
inductive LoomMode
  | steady | armed | draining
  deriving DecidableEq, Repr

/-- The loom unit (08 R267 to R284). -/
structure Loom where
  mode : LoomMode
  /-- newest live scene; reset scene 0 (R271) -/
  live : Scene
  /-- draining scene, during DRAINING -/
  old : Option Scene
  /-- armed scene, while ARMED -/
  next : Option Scene
  /-- the management cue slot of the armed scene -/
  cueSlot : Option Nat
  /-- highest scene number accepted since reset (R272); reset 0 -/
  maxScene : Nat
  /-- stage time of the last scene's cue (R274) -/
  cueAt : Nat
  /-- LOM_RETIRE (08); reset 0 -/
  retiredAt : Nat
  /-- old-scene and new-scene in-flight counts (R275), by scene bit × 64 + bolt -/
  inflight : Sparse Nat
  /-- bolts with a tile move pending (R281) -/
  movePend : List Nat
  /-- channels waiting for or under their scrub (R280): channel, new owner, start of the overwrite once begun -/
  scrubs : List (Nat × Nat × Option Nat)
  /-- live tile membership: site → bolt and order (changes at step boundaries, R281) -/
  members : Sparse (Option TileEnt)
  /-- live image bytes, for LOOM_READ (13 R435) -/
  image : Sparse Byte
  imageLen : Nat
  /-- bytes of the armed image -/
  nextImage : Sparse Byte
  nextLen : Nat
  /-- the first loom commit has taken effect: RWL fields are locked (00 R5); reset false -/
  committed : Bool
  deriving DecidableEq, Repr

/-! ### Host attachment (09_host_objects.md) -/

/-- Queue states (09 Q_READ). -/
inductive QueueMode
  | free | running | stopped | error
  deriving DecidableEq, Repr

/-- A call fetched into a window (09 R302), its 64 bytes and how far it has gone (R300). -/
structure FetchedCall where
  index : Nat
  words : BitVec 512
  /-- started (R300) -/
  started : Bool
  /-- WAIT in progress: stage time of its timeout, if any -/
  waiting : Bool
  due : Option Nat
  /-- a STEP withdrawn by a drain with SAVE = 1: admitted afresh once the context saved in this area is back (R316) -/
  awaits : Option DWord
  deriving DecidableEq, Repr

/-- A queue of the queue table (09 R296 to R301). -/
structure QueueSt where
  mode : QueueMode
  order : Nat
  base : Nat
  head : Nat
  last : Nat
  /-- doorbell pending (R298) -/
  pend : Bool
  /-- holds a resident window (R299); stage time of the last ring -/
  resident : Bool
  rung : Nat
  /-- fetched calls not yet complete, oldest first, at most 8 (R299) -/
  calls : List FetchedCall
  deriving DecidableEq, Repr

/-- Fence states (09 R308). -/
inductive FenceMode
  | live | abandoned | exhausted
  deriving DecidableEq, Repr

/-- A created fence (09 R308). -/
structure FenceSt where
  value : DWord
  mode : FenceMode
  status : Nat
  late : Bool
  owner : Nat
  mask : DWord
  mirror : DWord
  deriving DecidableEq, Repr

/-- A ledger entry (09 R311, R312). `freed` once both counts fell to 0 and until FREE_POP returns it. -/
structure ObjSt where
  owner : Nat
  gen : BitVec 8
  host : Nat
  dev : Nat
  /-- allocated: live, or freed and not yet popped -/
  used : Bool
  deriving DecidableEq, Repr

/-- CTX_STAT.STATE (09). -/
inductive CtxMode
  | empty | loading | ready | running | draining | resetting | striking | teardown
  deriving DecidableEq, Repr

/-- A blocking of the loaded production (09 R307). -/
structure Blocking where
  tiles : Nat
  floor : Nat
  lead : Nat
  wcs : Nat
  /-- streams by bolt-local tile: bundles -/
  streams : List (List (BitVec 128))
  /-- the cue template -/
  template : List CueRec
  deriving DecidableEq, Repr

/-- A drain in progress (09 R316). -/
structure DrainSt where
  save : Bool
  /-- stage time of its timeout -/
  due : Nat
  /-- the CTX_UNLOAD calls that asked for it: queue and ring index -/
  calls : List (Nat × Nat)
  /-- the booth sessions that asked for it (13 R435) -/
  ses : List Nat
  /-- the tiles have stopped at a STEPEND whose step is not delivered yet -/
  stopped : Bool
  deriving DecidableEq, Repr

/-- A strike asked for or in progress (12 R401, R402): OVERWRITE, the STRIKE call that asked for it by queue and ring index,
or the booth session. -/
structure StrikeSt where
  erase : Bool
  call : Option (Nat × Nat)
  ses : Option Nat
  deriving DecidableEq, Repr

/-- An item of the running order built for the bolt's step (10 R336): entry index, tokens, decode or prefill. -/
structure RoItem where
  entry : Nat
  ntok : Nat
  decode : Bool
  /-- UVA of the item in the running-order buffer -/
  at_ : Nat
  deriving DecidableEq, Repr

/-- A context that a drain with SAVE = 1 has saved (03 R103; 09 R307, R316): its save-area UVA, the tile images by bolt-local
number, the step that the drain stopped at a BOW with its unfired cues, and the stage time it stopped. The images are held
as data beside the save area's bytes. -/
structure SavedCtx where
  area : DWord
  tiles : List (Nat × Tile)
  step : Option StepRec
  /-- running-order items of a serving step stopped at a BOW (10 R341) -/
  items : Option (List RoItem)
  cues : List CueSlotSt
  at_ : Nat
  deriving DecidableEq, Repr

/-- A bolt's context slot (01 R23, 09 R307). -/
structure Ctx where
  mode : CtxMode
  /-- CTX_STAT.GEN, 24 bits -/
  gen : BitVec 24
  /-- sampled XLT_ROOT (05 R145) -/
  root : DWord
  /-- directory of the production and the selected blocking index -/
  blks : List Blocking
  blk : Nat
  /-- hash of the loaded production image, and of the job's encapsulation key; 0 when none (12 R408; 07 R241) -/
  prod : BitVec 256
  kem : BitVec 256
  /-- SEC's key pair of the job, by draw (07 R241); none when it has none -/
  kemKey : Option Nat
  /-- handles the context holds (R307 step 5) -/
  objA : Word
  objB : Word
  /-- save area UVA and size -/
  saveAt : DWord
  saveLen : DWord
  /-- load in progress: the CTX_LOAD call by queue and ring index, RESUME, sessions still to open -/
  loadQ : Option (Nat × Nat)
  resume : Bool
  opening : List Nat
  /-- bolt-local numbers of the tiles: site → number (R105, R262) -/
  local_ : Sparse (Option Nat)
  /-- admitted steps not yet delivered, oldest first, at most two (06 R202) -/
  steps : List StepRec
  /-- steps admitted so far on the bolt -/
  stepSeq : Nat
  /-- cue slots reserved for the admitted steps: (step seq, slot) (R307) -/
  reserved : List (Nat × Nat)
  drain : Option DrainSt
  /-- saved contexts of the bolt -/
  saved : List SavedCtx
  /-- the next step is refused: no blocking for the new tile count (08 R281) -/
  refuseNext : Bool
  /-- a reset, teardown or strike in progress began at this stage time; the code of its causing incident (14 R475) -/
  busySince : Nat
  busyCode : Nat
  /-- a strike in progress, or one that waits for the reset of its bolt (12 R401) -/
  strike : Option StrikeSt
  deriving DecidableEq, Repr

/-- A mailbox of a VF with the PF (09 R313, R314). -/
structure Mailbox where
  /-- FROM_VF/TX of the VF, RX of the VF, 64 bytes each as 16 words; TX of the PF, RX of the PF -/
  vfTx : Sparse Word
  vfRx : Sparse Word
  pfTx : Sparse Word
  pfRx : Sparse Word
  /-- VF side: TX_BUSY, RX_FULL, OVR, READY -/
  vfBusy : Bool
  vfFull : Bool
  vfOvr : Bool
  vfReady : Bool
  /-- PF side -/
  pfBusy : Bool
  pfFull : Bool
  pfOvr : Bool
  pfReady : Bool
  deriving DecidableEq, Repr

/-- Per-function PCI state (09 R287, R290, R294). -/
structure FnSt where
  d3hot : Bool
  /-- MSI-X messages held pending, by vector -/
  msixPend : List Nat
  /-- MSI-X Enable and Function Mask -/
  msixEn : Bool
  msixMask : Bool
  /-- base addresses that the host has assigned: BAR0 and BAR2 -/
  bar0 : Nat
  bar2 : Nat
  /-- Max_Payload_Size and Max_Read_Request_Size, as codes: 128 × 2^code bytes -/
  mps : Nat
  mrrs : Nat
  /-- AER uncorrectable-error status: an uncorrectable internal error was signalled (14 R457) -/
  aer : Bool
  deriving DecidableEq, Repr

/-- What the PF's capabilities hold for the whole device (09 R287): SR-IOV VF Enable, and the size of BAR2 as a power of two. -/
structure Pci where
  vfEnable : Bool
  bar2Exp : Nat
  deriving DecidableEq, Repr

/-- A space-4 read outstanding on the host port (09 R293): TAG → requester. -/
structure HostRead where
  owner : ReqOwner
  bolt : Nat
  addr : DWord
  pos : Nat
  scene : Word
  len : Nat
  /-- traffic class, and the stage time at which the read was sent (11 R352) -/
  cls : Nat
  at_ : Nat
  deriving DecidableEq, Repr

/-! ### Serving (10_serving.md) -/

/-- Cast entry states (10 R324), codes 0 to 6. -/
inductive CastMode
  | free | queued | prefill | decode | parked | done | faulted
  deriving DecidableEq, Repr

/-- A cast entry (10 R323). -/
structure CastSt where
  seqid : Word
  mode : CastMode
  cls : Nat
  promo : Bool
  misses : Nat
  spill : Nat
  inro : Bool
  pos : Nat
  promptLen : Nat
  maxPos : Nat
  period : Nat
  deadline : DWord
  kvmap : DWord
  io : DWord
  temp : Word
  topP : Word
  topK : BitVec 16
  rseed : Word
  deriving DecidableEq, Repr

/-- Run-time state of a page pool (10 R327): BASE and ORDER as sampled at enable, head and count of the ring. -/
structure Pool where
  base : Nat
  order : Nat
  head : Nat
  count : Nat
  deriving DecidableEq, Repr

/-- The cast-list engine's state for a bolt (10 R334 to R343). -/
structure Serve where
  pools : Sparse Pool
  /-- items of the step in progress, awaiting their post-step update; `none`: no build done for the step -/
  items : Option (List RoItem)
  deriving DecidableEq, Repr

/-! ### Budgets (11_budgets.md) -/

/-- Power shares of a bolt, in units of 10 W (11 R359). -/
structure Shares where
  compute : Nat
  memory : Nat
  links : Nat
  deriving DecidableEq, Repr

/-- A panel as the arbiter holds it (11 PWR_OP_Pp, R366, R369, R370). -/
structure PanelPwr where
  /-- operating point now; reset OP15 -/
  op : Nat
  /-- operating point the arbiter is moving it to, one step at a time (R356) -/
  target : Nat
  /-- panel floor (R361): 15 with none; reset 15 -/
  floor : Nat
  /-- whether some bolt gives it a floor -/
  hasFloor : Bool
  /-- steps by which heat has lowered the ceiling from OP0 (R370); reset 0 -/
  therm : Nat
  /-- droop steps of the ceiling in force: the stage time at which each lapses, oldest first (R369); reset none -/
  droops : List Nat
  /-- duty d; 64 when not in intermission; reset 64 -/
  duty : Nat
  /-- duty to apply from the next frame boundary (R366) -/
  nextDuty : Nat
  /-- measured pace of the last window; PWR_PACE; reset 0 -/
  pace : Nat
  /-- junction temperature; PWR_TEMP.TJ; reset 0 -/
  tj : Nat
  /-- firmware is lowering the ceiling for heat; its intermission at d = 32 is in force; the 110 °C response is (R370) -/
  throttled : Bool
  thermOff : Bool
  hw : Bool
  /-- stage time of the last thermal ceiling step (R370) -/
  thermAt : Option Nat
  deriving DecidableEq, Repr

/-- The power arbiter (11 R357 to R366). -/
structure Power where
  /-- shares in force by bolt (after scaling), and shares assigned (R359, R362) -/
  inForce : Sparse Shares
  shares : Sparse Shares
  panels : Sparse PanelPwr
  /-- excess to subtract from U for the next millisecond (R365): watts and when it ends -/
  excess : Nat
  excessUntil : Nat
  /-- PWR_STAT SCALED and LIMITED; f × 2^16 of the last interval, 0 when not scaled (R362) -/
  scaled : Bool
  factor : Nat
  limited : Bool
  /-- bolts rate-limited in the last interval (PWR_BLT_LINK.LIMITED) -/
  cut : List Nat
  /-- PWR_INPUT, PWR_FIXED, PWR_UNRES; reset 0 -/
  input : Nat
  fixed : Nat
  unres : Nat
  /-- sensors at or above 100 °C, for once-per-crossing reports (R370): die × 16 + sensor -/
  warm : List Nat
  /-- stage time of the last QOS_MISS report by monitor point × 8 + class, of the last guarantee signal by bolt (R353) -/
  missAt : Sparse (Option Nat)
  sigAt : Sparse (Option Nat)
  deriving DecidableEq, Repr

/-! ### Security (12_security.md) -/

/-- Region states (12 R380). -/
inductive RegionSt
  | clear | keyless | init | ready | rekey
  deriving DecidableEq, Repr

/-- A line of a sealed unit's side area: a MAC line, or a node of a level of its tree, level 0 being the counter lines (12 R384). -/
inductive MetaKind
  | mac
  | tree (level : Nat)
  deriving DecidableEq, Repr

/-- A metadata line: the BASE of its region, its unit's number, and which line of that unit it is. -/
structure MetaKey where
  region : Nat
  unit_ : Nat
  kind : MetaKind
  index : Nat
  deriving DecidableEq, Repr

/-- A metadata line with its 64 bytes; a dirty one differs from the side area (12 R387). -/
structure MetaLine where
  key : MetaKey
  bytes : List Byte
  dirty : Bool
  deriving DecidableEq, Repr

/-- A sealed group's counters (12 R385). -/
structure GroupRec where
  major : Nat
  minors : List Nat
  gen : Bool
  i : Bool
  deriving DecidableEq, Repr

/-- A live region's keying state (12 R380, R391, R392). Keys are numbers of key-store slots' contents, unreadable. -/
structure RegRun where
  st : RegionSt
  /-- K_enc generations since keying -/
  gen : Nat
  /-- blocks sealed under the current K_enc -/
  sealedCount : Nat
  /-- groups moved in the current REKEY -/
  moved : Nat
  /-- key identities: current, old during REKEY -/
  key : Option Nat
  oldKey : Option Nat
  /-- group records by group number; default: uninitialised -/
  groups : Sparse GroupRec
  /-- blocks sealed under the old K_enc when REKEY began -/
  oldCount : Nat
  /-- identity of the tree key of a sealed region -/
  tree : Option Nat
  /-- on-chip roots of the units: the MACs of their top nodes, by 8 × unit + node, where they have changed since keying (12 R384,
  R387) -/
  roots : Sparse (Option Nat)
  deriving DecidableEq, Repr

/-- A debug grant (12 R396). -/
structure GrantSt where
  rights : BitVec 7
  path : Nat
  bolts : DWord
  expiry : Nat
  key : BitVec 256
  /-- authenticated session open (R398); failed attempts -/
  authed : Bool
  failed : Nat
  deriving DecidableEq, Repr

/-- A playbill request (12 R406, R407): who asked, and what was captured at GO. -/
structure PbReq where
  /-- 0: the PF interface; 1 + b: bolt window b; 65 + s: booth session s -/
  who : Nat
  /-- bolt playbill, of this bolt; none: device playbill -/
  bolt : Option Nat
  /-- the signature of a HELLO response (13 R432), which joins the same queue -/
  hello : Bool
  dest : DWord
  /-- the bytes to sign: 0x000 to 0x51F of the playbill, or the HELLO response before its signature -/
  body : List Byte
  deriving DecidableEq, Repr

/-- SEC (12). -/
structure Sec where
  /-- run-time state of the live scene's regions, by index -/
  regions : Sparse RegRun
  /-- next key identity from the DRBG (R376, R378) -/
  nextKey : Nat
  grants : Sparse (Option GrantSt)
  /-- SEC_STAT.RNG_OK; reset 0 -/
  rngOk : Bool
  /-- consecutive entropy health-test failures (R378) -/
  rngFails : Nat
  /-- challenge outstanding per path (R398): identity of the draw -/
  chal : Sparse (Option Nat)
  /-- playbill requests waiting or being signed, in arrival order -/
  pb : List PbReq
  /-- all keys erased by a halt (R394) -/
  erased : Bool
  deriving DecidableEq, Repr

/-! ### Firmware and the booth (13_firmware_booth.md) -/

/-- A flash slot's image as its manifest and signatures present it (13 R414, R415); `bootable` false for an interrupted
stage. Hash fields are identities of the contents. -/
structure SlotImg where
  magicOk : Bool
  svn : Nat
  id : Word
  imgVer : Word
  ifVer : Word
  bootable : Bool
  hash : BitVec 256
  deriving DecidableEq, Repr

/-- States of a firmware core (13 FWM_SH_STAT). -/
inductive CoreMode
  | running | restarting | cpStopped
  deriving DecidableEq, Repr

/-- A firmware core 0–7 stagehands, 8–9 house processor (13 R418, R421). -/
structure FwCore where
  mode : CoreMode
  restarts : Nat
  deriving DecidableEq, Repr

/-- A prompt-book record (13 R426). -/
structure PbRec where
  time : DWord
  seq : Nat
  comp : Nat
  level : Nat
  trace : Bool
  code : Nat
  bolt : Option Nat
  args : List Word
  deriving DecidableEq, Repr

/-- Roles of a booth session (13 R433); `none_`: no house CA key is enrolled. -/
inductive Role
  | admin | operator | audit | unenrolled
  deriving DecidableEq, Repr

/-- A booth session (13 R431 to R435). -/
structure BoothSess where
  role : Role
  /-- HELLO has completed (R432) -/
  hello : Bool
  /-- stage time of the last message (R431: 300 s) -/
  at_ : Nat
  /-- lowest class subscribed (R435 INC_SUBSCRIBE) -/
  sub : Option Nat
  /-- requests that wait for their answer, or for that of an earlier one, oldest first (R435: at most 16): TYPE, the bolt concerned
  or 64, and the header status and body once they are made -/
  waiting : List (Nat × Nat × Option (Nat × List Nat))
  deriving DecidableEq, Repr

/-- Firmware, flash and the booth. -/
structure Fw where
  /-- GLB_BOOT fields (13 R413); reset 0 -/
  stage : Nat
  ready : Bool
  slot : Bool
  trial : Bool
  fallback : Bool
  fail : Nat
  /-- the module is stopped in its stage (R413) -/
  bootStopped : Bool
  /-- stage time and start of the trial boot (R439: 10 s) -/
  bootAt : Nat
  /-- BOOT_HASH of the four stages (R410, R408) -/
  hashes : List (BitVec 256)
  /-- the two slots, A and B (R414) -/
  imgA : SlotImg
  imgB : SlotImg
  /-- preference record (R417): preferred slot, trial slot, whether its trial boot has begun (R439), sequence number -/
  prefer : Bool
  trialSlot : Option Bool
  trialRan : Bool
  prefSeq : Nat
  /-- fused SVN counter 0..64 (R416); enrolment counter 0..32 and the record in force (R437) -/
  fuseSvn : Nat
  enrolCnt : Nat
  loomKey : BitVec 512
  caKey : BitVec 776
  /-- a firmware image is staged (R438) -/
  staged : Bool
  /-- firmware staging area: owning session, bytes received so far -/
  stageOwner : Option Nat
  stageLen : Nat
  /-- loom staging buffer (R435): owner, bytes, length -/
  loomOwner : Option Nat
  loomBuf : Sparse Byte
  loomLen : Nat
  cores : Sparse FwCore
  /-- message-queue unit: messages of 64 bytes in each of its 64 queues, oldest first (13 R420); reset none -/
  mq : Sparse (List (BitVec 512))
  /-- stage times and causes of the stagehand restarts of the last 10 s, oldest first (R423); of the house processor (R425) -/
  shTimes : List (Nat × Nat)
  hpTimes : List Nat
  /-- control-plane resets: count saturating at 255, stage time of the last (R424) -/
  cpResets : Nat
  cpAt : Option Nat
  /-- house processor: serving; stopped until module reset (R425) -/
  hpUp : Bool
  hpDown : Bool
  /-- prompt book: last 32,768 records by position, SEQ of the next (R426) -/
  book : List PbRec
  bookSeq : Nat
  /-- trace-mark tables of the ten components (R428): key comp × 128 + word -/
  tm : Sparse Word
  /-- trace enable tables of the bolts (R429): key bolt × 128 + word; TRC_BASE and ORDER as sampled; records buffered per tile -/
  trcMarks : Sparse Word
  trcBase : Sparse DWord
  trcOrder : Sparse Nat
  /-- booth sessions by index 0 to 3 (R431) -/
  sess : Sparse (Option BoothSess)
  /-- BOOTH_AUTH_FAIL: failures since the last report and when it was (R431) -/
  authFails : Nat
  authAt : Option Nat
  /-- SET_ADDR: global address, its network length, gateway (R430) -/
  addr : Option (BitVec 128 × Nat × BitVec 128)
  /-- CRU_MODNUM.HI (07 R253, 13 SET_MODNUM) -/
  modHi : BitVec 6
  /-- serial number from the identity certificate and FRU data (13 R436, 15 R490) -/
  serial : DWord
  /-- subsystem vendor ID [15:0] and subsystem ID [31:16], from the FRU data (09 R286) -/
  subsys : Word
  /-- engineering part: the fuse leaves DBG_ALLOW in force (12 R400) -/
  eng : Bool
  /-- fused dark sites, four on each panel (04 R110) -/
  dark : List Nat
  /-- fused voltage of each operating point in mV (11 PWR_OPT_n) -/
  optMv : List Nat
  deriving DecidableEq, Repr

/-! ### Incidents (14_incidents_understudy.md) -/

/-- A report pending at its source or an accepted record (14 R441). -/
structure Incident where
  cls : Nat
  code : Nat
  unit_ : Nat
  bolt : Option Nat
  fatal : Bool
  scene : Word
  seq : Word
  time : DWord
  arg0 : DWord
  arg1 : DWord
  arg2 : DWord
  module_ : Nat
  drops : Nat
  deriving DecidableEq, Repr

/-- A source's state at INC (14 R445, R447, R449). -/
structure IncSrc where
  pend : Option Incident
  pend4 : List Incident
  /-- drops since its last accepted record (R441 DROPS), INC_DROP_CNT and its SAT -/
  drops : Nat
  dropCnt : Ctr
  /-- sticky first and last: CODE with class, bolt, stage time; FIRST.VALID is `first.isSome` -/
  first : Option (Nat × Option Nat × DWord)
  last : Option (Nat × Option Nat × DWord)
  deriving DecidableEq, Repr

/-- INC (14 R445 to R449) and the halt (R457). -/
structure Inc where
  src : Sparse IncSrc
  /-- general ring: slot → record; INC_HEAD, INC_CNT; INC_TAIL = (head − cnt) mod 4,032 -/
  ring : Sparse (Option Incident)
  head : Nat
  cnt : Nat
  /-- fatal slots in order -/
  fatal : List Incident
  /-- next SEQ, from 1, modulo 2^32 -/
  seq : Word
  /-- reports dropped since the last INC_OVERFLOW, first dropping unit -/
  ovCount : Nat
  ovUnit : Option Nat
  /-- unit served last (round-robin) -/
  rr : Nat
  /-- stage time of the last PF vector 0 signal (R448) -/
  sigAt : Option Nat
  /-- the device has halted: stage time of the accepted class 4 record -/
  halted : Bool
  haltAt : Nat
  deriving DecidableEq, Repr

/-- US_STAT.STATE (14 R468), codes 0 to 5. -/
inductive TwinMode
  | solo | unpaired | syncing | paired | degraded | promoted
  deriving DecidableEq, Repr

/-- A mirrored write of a bolt (14 R462): its number, and the bytes at an offset of a space. -/
structure MirWrite where
  seq : Nat
  bolt : Nat
  space : Nat
  off : Nat
  data : List Byte
  deriving DecidableEq, Repr

/-- What a requester is owed once both copies hold a write (14 R462): the response of an edge stop or CXL port, or a packet
that answers one received. -/
inductive OwedRsp
  | mem (who : Requester) (tag : Word)
  | packet (kind : Nat) (h : PktHdr) (rval : Nat) (data : List Byte)
  deriving DecidableEq, Repr

/-- A response that waits for the mirrored writes of a range. -/
structure Owed where
  space : Nat
  off : Nat
  len : Nat
  rsp : OwedRsp
  deriving DecidableEq, Repr

/-- A checkpoint that awaits acknowledgement (14 R463): its value, the number of the first mirrored write made after it, and
whether it has been sent to the twin. -/
structure Ckpt where
  value : DWord
  bound : Nat
  sent : Bool
  deriving DecidableEq, Repr

/-- The understudy protocol (14 R461 to R468). -/
structure Twin where
  mode : TwinMode
  /-- ROLE strap as taken; ROLE_EFF -/
  role : Nat
  roleEff : Nat
  /-- twin's module number -/
  twin : Nat
  /-- level of TWIN_OK_IN; stage time of its fall -/
  okIn : Bool
  okFell : Option Nat
  /-- bytes still to copy, bytes of the copy, when it began (R464) -/
  syncLeft : Nat
  syncAll : Nat
  syncAt : Nat
  /-- aliases held after a promotion: bolts that answer for the lead's number (R466) -/
  alias_ : List Nat
  /-- bolts left unmirrored by a configuration mismatch (R461); whether a mismatch of roles has been reported -/
  unmirrored : List Nat
  told : Bool
  /-- checkpoints awaiting acknowledgement by bolt (R463) -/
  ckpt : Sparse (Option Ckpt)
  /-- mirrored writes made so far; those that wait for an earlier one of their line; responses that wait (R462) -/
  mirSeq : Nat
  /-- highest SEQ accepted + 1 of the acknowledgements in the U-link session (07 R243; 12 R395) -/
  rxSeq : Nat
  waiting : List MirWrite
  owed : List Owed
  deriving DecidableEq, Repr

/-! ### Module signals (15_module_electrical.md) -/

/-- A cage (15 R495): watts of the plugged module's power class, if any. -/
structure Cage where
  plugged : Option Nat
  deriving DecidableEq, Repr

/-- Pins, straps, power input, PMBus and JTAG (15). -/
structure Pins where
  /-- VIN56 in mV; stage-independent: 0 before power -/
  vin : Nat
  pwrEn : Bool
  pwrGood : Bool
  resetN : Bool
  thermTripN : Bool
  faultN : Bool
  twinOkOut : Bool
  perst0N : Bool
  perst1N : Bool
  p12v : Bool
  cxlPerstN : Bool
  boothPhyRstN : Bool
  /-- straps as sampled, GLB_STRAP layout (R479) -/
  strap : Word
  /-- GLB_RST_CAUSE (R479) -/
  rstCause : Nat
  /-- internal reset in progress, cause (R485) -/
  inReset : Option Nat
  /-- PWR_EN held until a fresh deassertion after a loss of power (R484) -/
  needCycle : Bool
  cages : Sparse Cage
  /-- regulators' status words by PMBus address (R491) -/
  pmb : Sparse Word
  /-- TAP instruction register (R492); DBG_ACCESS register and outcome (R493) -/
  ir : Byte
  dbgReg : BitVec 128
  dbgPending : Bool
  deriving DecidableEq, Repr

/-! ### What leaves the module -/

/-- What the module sends or shows outside itself: the model's own record, newest first. -/
inductive Out
  /-- an MSI-X message of a function (09 R294) -/
  | msix (fn vector : Nat)
  /-- a register read's value (00 R5 to R7) -/
  | readData (fn off : Nat) (value : DWord)
  /-- an aperture read's bytes (09 R292) -/
  | apData (fn : Nat) (data : List Byte)
  /-- a booth response: session, TYPE, header STATUS, body words (13 R434, R435) -/
  | booth (ses type status : Nat) (body : List Nat)
  /-- a booth notification: session, TYPE, body words -/
  | notify (ses type : Nat) (body : List Nat)
  /-- a write to host memory in a bolt's name, or for bolt 64 the PF's own (09 R293; 12 R406), under the requester ID of a
  function: VF n, 0 the PF, 64 the companion function, which alone leaves through half 1 (05 R142, 09 R288) -/
  | hostWrite (req bolt addr : Nat) (data : List Byte)
  /-- the start of a bolt's step, for another module of its binding (06 R204) -/
  | stepStart (module_ bolt : Nat) (start : DWord)
  /-- a read of host memory: requester, tag, address, length (09 R293) -/
  | hostRead (req bolt tag addr len : Nat)
  /-- a codeword on a Creust port: its CSEQ and its five flits (07 R210, R211) -/
  | codeword (port cseq : Nat) (flits : List WFlit)
  /-- a flit forwarded to an output of a router, or delivered there: site, output port, VC (04 R111 to R114) -/
  | flit (site outPort vc : Nat)
  /-- a response of an edge stop or CXL port to a local requester: status of 07 R230 and bytes -/
  | memRsp (who : Requester) (tag : Word) (status : Nat) (data : List Byte)
  /-- a write of the mirror stream to the twin: port, bolt, space, offset, bytes (14 R462) -/
  | mirror (port bolt space off : Nat) (data : List Byte)
  /-- a message of the U-link session to the twin: port, bolt, kind (0 a checkpoint, 1 its acknowledgement, 2 a control-plane
  reset of the lead, 3 the acknowledgement of a mirrored write, 4 the copy of the bolt's regions) and value (14 R463, R467) -/
  | twin (port bolt kind : Nat) (value : DWord)
  /-- an uncorrectable internal error through AER (14 R457) -/
  | aer
  /-- bytes shown on a debug path (12 R398, 15 R493) -/
  | debug (value : Nat)
  deriving DecidableEq, Repr

/-! ### The module -/

/-- The whole module. -/
structure State where
  /-- register words as stored, by PF BAR0 offset (a bolt window b at 0x100000 + 0x4000 b): every RW, RWL, W1C and stored
  RO field of the register tables of 00 to 15; reset values in `regResets` -/
  regs : Sparse Word
  /-- GLB_ERR_STATUS of VF n, by n (00 R6); reset 0 -/
  vfErr : Sparse Word
  /-- the read latch of each function (00 R7); reset none -/
  latch : Sparse (Option Latch)
  /-- held `_LO` writes, by function × 2^26 + offset (00 R7); reset none -/
  loHeld : Sparse (Option Word)
  /-- 48-bit counters, by the offset of their `_LO` register (14 R452); reset 0 -/
  ctrs : Sparse Ctr
  /-- engine tiles by site (03); reset `Tile.reset` -/
  tiles : Sparse Tile
  /-- ticket ledgers of mesh links, edge stops and bridges (04 R134, R135), by `ledgerKey`; reset all at home -/
  ledgers : Sparse Ledger
  /-- corrections since the last MESH_CE of a link, by site × 8 + input port (04 R136); reset 0 -/
  meshCe : Sparse Nat
  /-- bridge stops, by bridge × 4 + stop (04 R137); reset idle -/
  bridges : Sparse BridgeStop
  /-- reduction inputs waiting at nodes (04 R129); reset none -/
  redIn : List RedInput
  /-- chunks that wait for a slot of their node: a member's in its staging buffer, a port leaf's at its port (04 R131); reset none -/
  redStage : List RedInput
  /-- reduction groups (04 R127, R132); reset not failed, round 0 -/
  redRun : Sparse RedRun
  /-- timers started by OPEN_RED without an input: (group, node, round, stage time) (06 R191); reset none -/
  redOpen : List (Nat × Nat × Nat × Nat)
  /-- member timers' clock of each bolt (04 R133): the stage time since which it stands still, and the nanoseconds it has
  stood still before; reset running, 0 -/
  redClk : Sparse (Option Nat × Nat)
  /-- multicast flits in tree slots, in arrival order (04 R125); reset none -/
  mcFlits : List McFlit
  /-- stage time of each ledger's last audit (14 R458, R459), by `auditKey`; reset none -/
  audited : Sparse (Option Nat)
  /-- ledgers that a late audit puts first (14 R459); reset none -/
  auditFirst : List Nat
  /-- HBM3E, space 0 (05 R141); reset: unlisted bytes read 0 -/
  hbm : Mem
  /-- CXL memory, space 1 (05 R141); reset: unlisted bytes read 0 -/
  cxl : Mem
  /-- corrected errors since the last HBM_CE, by channel (05 R170); reset 0 -/
  chanCe : Sparse Nat
  /-- 64-byte units of HBM3E that hold an uncorrectable error, by offset / 64 (05 R170, R171); reset none -/
  hbmUe : Sparse Bool
  /-- metadata caches of the edge stops (0 to 47) and CXL ports (48, 49), 2,048 lines each, the last used first (12 R387); reset empty
  -/
  metaCache : Sparse (List MetaLine)
  /-- lines of side areas written back since their region was keyed; the others are as SEC first wrote them (12 R380, R387); reset none
  -/
  sideArea : List MetaLine
  /-- stacks at double refresh (05 R172); reset none -/
  hot : List Nat
  /-- translation caches: panels 0–3, proscenium die 4 (05 R151); reset empty -/
  tcache : Sparse (List Leaf)
  /-- walk caches (05 R151); reset empty -/
  wcache : Sparse (List WalkEntry)
  /-- fault queues by bolt (05 R163); reset empty, next SEQ 1 -/
  fq : Sparse FaultQueue
  /-- invalidation slots in progress (05 R158); reset idle -/
  inv : Sparse (Option InvActive)
  /-- stage time unit (06) -/
  stu : Stu
  /-- armed cue slots (06 R188); reset none armed -/
  cues : Sparse (Option CueSlotSt)
  /-- Creust ports (07); reset DOWN -/
  ports : Sparse CrPort
  /-- Creust sessions by our index (07 R240); reset none -/
  sess : Sparse (Option Sess)
  /-- messages of session set-up not yet taken (07 R241); reset none -/
  sessIn : List SessMsg
  /-- outstanding requests by TAG (07 R231); reset none -/
  reqs : Sparse (Option CrReq)
  /-- next request TAG -/
  nextTag : Nat
  /-- loom unit (08) -/
  loom : Loom
  /-- queues by global number (09 R296); reset FREE -/
  queues : Sparse QueueSt
  /-- round-robin position of the queues of a bolt within a class (09 R300); reset 0 -/
  queueRr : Sparse Nat
  /-- fences (09 R308); reset none created -/
  fences : Sparse (Option FenceSt)
  /-- object ledger by index (09 R311); reset free, generation 0 -/
  objs : Sparse ObjSt
  /-- freed handles by bolt, oldest first; the first 256 are in the FIFO (09 R312); reset none -/
  freed : Sparse (List Word)
  /-- context slots by bolt (01 R23, 09 R307); reset EMPTY -/
  ctxs : Sparse Ctx
  /-- mailboxes by VF (09 R313); reset empty -/
  mbx : Sparse Mailbox
  /-- functions (09 R287, R294); reset D0, nothing pending -/
  fns : Sparse FnSt
  /-- the PF's device-wide capabilities (09 R287); reset VF Enable 0, BAR2 of 1 GiB -/
  pci : Pci
  /-- reads of host memory outstanding, by tag (09 R293); reset none -/
  hostReads : Sparse (Option HostRead)
  /-- prefetch walks in progress (05 R153); reset none -/
  pfWalks : List PfWalk
  /-- streams (site, stream) whose demand walk waits for a walker, oldest first (05 R153); reset none -/
  walkWait : List (Nat × Nat)
  /-- the model's own: the access outside the module that firmware has found to be next -/
  fwNeed : Option FwNeed
  /-- accesses of firmware outside the module, under way or ended, for operations still running; reset none -/
  fwGot : List FwGot
  /-- accesses of firmware that a limit holds (11 R349); reset none -/
  fwHeld : List FwNeed
  /-- cast entries by global index (10 R322); reset FREE and zero -/
  casts : Sparse CastSt
  /-- cast-list engine by bolt (10 R334); reset idle, pools empty -/
  serve : Sparse Serve
  /-- power arbiter (11) -/
  power : Power
  /-- SEC (12) -/
  sec : Sec
  /-- firmware, flash, booth (13) -/
  fw : Fw
  /-- INC (14) -/
  inc : Inc
  /-- understudy protocol (14 R461) -/
  twin : Twin
  /-- parts lost of each coded region, by region index, each with the stage time at which its rebuild began, if it has (14
  R474); reset none -/
  lost : Sparse (List (Nat × Option Nat))
  /-- logical devices lost: CXL port and number (14 R473); reset none -/
  cxlGone : List (Nat × Nat)
  /-- pins and management buses (15) -/
  pins : Pins
  /-- the model's own: epochs of free values drawn so far -/
  freeCtr : Nat
  /-- the model's own: what has left the module, newest first -/
  out : List Out
  /-- the model's own: commands waiting, first in, first out -/
  pending : List Instr
  deriving DecidableEq, Repr

/-! ### Values at reset -/

/-- A counter at reset (14 R452). -/
def Ctr.reset : Ctr := ⟨0, false⟩

/-- An empty memory: every byte reads 0. -/
def Mem.empty : Mem := ⟨[], []⟩

/-- A weight buffer that holds no format (03 R501). -/
def WBuf.reset : WBuf := ⟨none, [], []⟩

/-- A shuttle stream after a context load: empty, depth 1 (03 R501). -/
def StreamQ.reset : StreamQ := ⟨[], 1⟩

/-- A tile with no context: the register values of 03 R501; spool and accumulators read 0. -/
def Tile.reset : Tile where
  imem := []
  streamLen := 0
  pc := 0
  loops := []
  aReg := []
  aStep := []
  iReg := []
  vReg := []
  mReg := []
  w0 := WBuf.reset
  w1 := WBuf.reset
  acc := Mem.empty
  spool := Mem.empty
  sems := []
  step := 0
  crel := 0
  ncrel := 0
  credits := []
  seed := 0
  dither := 0
  status := 0
  streams := []
  utlb := []
  run := .idle
  hold := false
  holdSince := 0
  gated := false

/-- A ledger with every ticket at its sender (04 R135). -/
def Ledger.reset : Ledger := ⟨0, 0, 0, 0⟩

/-- A reduction group at a context load (04 R127). -/
def RedRun.reset : RedRun := ⟨false, [], [], [], [], []⟩

/-- A bridge stop that has replayed nothing (04 R137). -/
def BridgeStop.reset : BridgeStop := ⟨[], 0, 0, false, 0⟩

/-- An empty fault queue (05 R163, R165). -/
def FaultQueue.reset : FaultQueue := ⟨[], [], 1⟩

/-- The STU at the deassertion of RESET_N with TSRC = PPS (06 R180). -/
def Stu.reset : Stu where
  time := 0
  ended := false
  mode := .acquire
  alignOk := false
  errBound := 255
  phase := 0
  freq := 0
  good := 0
  firstDone := false
  stepMade := false
  child := false
  lastRef := 0
  holdoverAt := 0
  holdoverErr := 255
  ppsOut := false

/-- A ticket ledger with every cell at its sender (07 R222). -/
def CrLedger.reset : CrLedger := ⟨0, 0, 0, 0, 0⟩

/-- A port after reset (07 R213). -/
def CrPort.reset : CrPort where
  mode := .down
  peerOk := false
  badTrain := 0
  trainUs := 0
  peer := none
  rxCseq := 0
  txCseq := 0
  nakSent := false
  nakCseq := 0
  nakCount := 0
  replay := []
  egress := []
  flitQ := []
  rxDue := []
  blocked := []
  retrainAt := 0
  resync := false
  ackAt := 0
  retrainCause := 0
  ledgers := []
  fecSec := 0
  fecRx := 0
  fecCorr := 0
  delay := 0
  t1 := none
  missed := 0

/-- Scene 0: no bolt, no port section; source from the TSRC strap (08 R271). `cplTmo` is CRU_CPL_TMO's reset value. -/
def Scene.zero : Scene where
  num := 0
  strict := false
  drainMax := 1000
  fire := 0
  bolts := []
  tiles := []
  channels := []
  decs := []
  wins := []
  ports := none
  routes := []
  bindings := []
  mcast := []
  red := []
  grants := []
  qos := []
  regions := []
  stuCtl := 4
  cplTmo := 2000

/-- The loom unit after reset (08 R271). -/
def Loom.reset : Loom where
  mode := .steady
  live := Scene.zero
  old := none
  next := none
  cueSlot := none
  maxScene := 0
  cueAt := 0
  retiredAt := 0
  inflight := []
  movePend := []
  scrubs := []
  members := []
  image := []
  imageLen := 0
  nextImage := []
  nextLen := 0
  committed := false

/-- A queue of the table before Q_CREATE (09 R296). -/
def QueueSt.reset : QueueSt where
  mode := .free
  order := 0
  base := 0
  head := 0
  last := 0xFFFF
  pend := false
  resident := false
  rung := 0
  calls := []

/-- A ledger entry never allocated (09 R311). -/
def ObjSt.reset : ObjSt := ⟨0, 0, 0, 0, false⟩

/-- An empty context slot (01 R23). -/
def Ctx.reset : Ctx where
  mode := .empty
  gen := 0
  root := 0
  blks := []
  prod := 0
  kem := 0
  kemKey := none
  blk := 0
  objA := 0
  objB := 0
  saveAt := 0
  saveLen := 0
  loadQ := none
  resume := false
  opening := []
  local_ := []
  steps := []
  stepSeq := 0
  reserved := []
  drain := none
  saved := []
  refuseNext := false
  busySince := 0
  busyCode := 0
  strike := none

/-- An empty mailbox (09 R313). -/
def Mailbox.reset : Mailbox := ⟨[], [], [], [], false, false, false, false, false, false, false, false⟩

/-- A function in D0 with no message pending (09 R287), before a host has enumerated it: MSI-X disabled, no base address.
DESIGN CHOICE, log entry 92: the spec gives no reset values of the capabilities. -/
def FnSt.reset : FnSt where
  d3hot := false
  msixPend := []
  msixEn := false
  msixMask := false
  bar0 := 0
  bar2 := 0
  mps := 0
  mrrs := 0
  aer := false

/-- The PF's device-wide capabilities before a host has enumerated it: no VF, BAR2 of 1 GiB. DESIGN CHOICE, log entry 92. -/
def Pci.reset : Pci := ⟨false, 30⟩

/-- A FREE cast entry (10 R323: all fields 0). -/
def CastSt.reset : CastSt where
  seqid := 0
  mode := .free
  cls := 0
  promo := false
  misses := 0
  spill := 0
  inro := false
  pos := 0
  promptLen := 0
  maxPos := 0
  period := 0
  deadline := 0
  kvmap := 0
  io := 0
  temp := 0
  topP := 0
  topK := 0
  rseed := 0

/-- A pool not yet enabled (10 R327). -/
def Pool.reset : Pool := ⟨0, 0, 0, 0⟩

/-- The cast-list engine idle on a bolt (10 R325). -/
def Serve.reset : Serve := ⟨[], none⟩

/-- No shares (11 R359). -/
def Shares.reset : Shares := ⟨0, 0, 0⟩

/-- A panel after reset: OP15, no floor, ceiling OP0, all slots open (11 PWR_OP_Pp). -/
def PanelPwr.reset : PanelPwr where
  op := 15
  target := 15
  floor := 15
  hasFloor := false
  therm := 0
  droops := []
  duty := 64
  nextDuty := 64
  pace := 0
  tj := 0
  throttled := false
  thermOff := false
  hw := false
  thermAt := none

/-- The power arbiter after reset (11 power registers). -/
def Power.reset : Power where
  inForce := []
  shares := []
  panels := []
  excess := 0
  excessUntil := 0
  scaled := false
  factor := 0
  limited := false
  cut := []
  input := 0
  fixed := 0
  unres := 0
  warm := []
  missAt := []
  sigAt := []

/-- An uninitialised sealed group (12 R385). -/
def GroupRec.reset : GroupRec := ⟨0, [0, 0, 0, 0, 0, 0, 0, 0], false, false⟩

/-- A clear region, or no region. -/
def RegRun.reset : RegRun := ⟨.clear, 0, 0, 0, none, none, [], 0, none, []⟩

/-- SEC after reset (12 SEC_STAT). -/
def Sec.reset : Sec where
  regions := []
  nextKey := 1
  grants := []
  rngOk := false
  rngFails := 0
  chal := []
  pb := []
  erased := false

/-- The image that the model puts in both flash slots: GLB_ID's part, interface version 2.0 (09 R318), SVN 0. -/
def SlotImg.reset : SlotImg := ⟨true, 0, 0x02A12160, 0, 0x00020000, true, 0⟩

/-- A firmware core after reset (13 FWM_SH_STAT). -/
def FwCore.reset : FwCore := ⟨.running, 0⟩

/-- Firmware, flash and the booth after reset: the ROM is running, unenrolled, no session (13 GLB_BOOT, R437). -/
def Fw.reset : Fw where
  stage := 0
  ready := false
  slot := false
  trial := false
  fallback := false
  fail := 0
  bootStopped := false
  bootAt := 0
  hashes := []
  imgA := SlotImg.reset
  imgB := SlotImg.reset
  prefer := false
  trialSlot := none
  trialRan := false
  prefSeq := 0
  fuseSvn := 0
  enrolCnt := 0
  loomKey := 0
  caKey := 0
  staged := false
  stageOwner := none
  stageLen := 0
  loomOwner := none
  loomBuf := []
  loomLen := 0
  cores := []
  mq := []
  shTimes := []
  hpTimes := []
  cpResets := 0
  cpAt := none
  hpUp := false
  hpDown := false
  book := []
  bookSeq := 0
  tm := []
  trcMarks := []
  trcBase := []
  trcOrder := []
  sess := []
  authFails := 0
  authAt := none
  addr := none
  modHi := 0
  serial := 0
  subsys := 0
  eng := false
  dark := [19, 37, 44, 45, 83, 101, 108, 109, 147, 165, 172, 173, 211, 229, 236, 237]
  optMv := [850, 820, 800, 780, 760, 745, 730, 715, 700, 690, 680, 670, 660, 650, 635, 620]

/-- A source that has reported nothing (14 R449). -/
def IncSrc.reset : IncSrc := ⟨none, [], 0, Ctr.reset, none, none⟩

/-- INC after reset (14 INC registers). -/
def Inc.reset : Inc where
  src := []
  ring := []
  head := 0
  cnt := 0
  fatal := []
  seq := 1
  ovCount := 0
  ovUnit := none
  rr := 0
  sigAt := none
  halted := false
  haltAt := 0

/-- The understudy protocol with the ROLE strap at solo (14 US_STAT). -/
def Twin.reset : Twin where
  mode := .solo
  role := 0
  roleEff := 0
  twin := 0
  okIn := false
  okFell := none
  syncLeft := 0
  syncAll := 0
  syncAt := 0
  alias_ := []
  unmirrored := []
  told := false
  ckpt := []
  mirSeq := 0
  rxSeq := 0
  waiting := []
  owed := []

/-- An empty cage (15 R495). -/
def Cage.reset : Cage := ⟨none⟩

/-- Pins as RESET_N is deasserted after power-on: rails up, straps unconnected (15 R477, R483). -/
def Pins.reset : Pins where
  vin := 56000
  pwrEn := true
  pwrGood := true
  resetN := true
  thermTripN := true
  faultN := true
  twinOkOut := false
  perst0N := true
  perst1N := false
  p12v := false
  cxlPerstN := false
  boothPhyRstN := false
  strap := 0
  rstCause := 0
  inReset := none
  needCycle := false
  cages := []
  pmb := []
  ir := 0x02
  dbgReg := 0
  dbgPending := false

/-- The module right after the deassertion of RESET_N following power-on, straps unconnected. -/
def State.reset : State where
  regs := []
  vfErr := []
  latch := []
  loHeld := []
  ctrs := []
  tiles := []
  ledgers := []
  meshCe := []
  bridges := []
  redIn := []
  redStage := []
  redRun := []
  redOpen := []
  redClk := []
  mcFlits := []
  audited := []
  auditFirst := []
  hbm := Mem.empty
  cxl := Mem.empty
  chanCe := []
  hbmUe := []
  metaCache := []
  sideArea := []
  hot := []
  tcache := []
  wcache := []
  fq := []
  inv := []
  stu := Stu.reset
  cues := []
  ports := []
  sess := []
  sessIn := []
  reqs := []
  nextTag := 0
  loom := Loom.reset
  queues := []
  queueRr := []
  fences := []
  objs := []
  freed := []
  ctxs := []
  mbx := []
  fns := []
  pci := Pci.reset
  hostReads := []
  pfWalks := []
  walkWait := []
  fwNeed := none
  fwGot := []
  fwHeld := []
  casts := []
  serve := []
  power := Power.reset
  sec := Sec.reset
  fw := Fw.reset
  inc := Inc.reset
  twin := Twin.reset
  lost := []
  cxlGone := []
  pins := Pins.reset
  freeCtr := 0
  out := []
  pending := []

end Sys2Proof.Machine
end

