-- ==== Sys2Proof/Machine/Mem.lean ====
section
/-! DEFINITION. The two stores of the model: finite maps with a default value, and byte memories. Both keep one canonical
form: keys strictly rising, and no entry equal to what an unlisted key reads as. -/

namespace Sys2Proof.Machine

section Map
variable {α : Type} [DecidableEq α]

/-- The value at key `k`: the first entry's, or the default. -/
def mget (d : α) : Sparse α → Nat → α
  | [], _ => d
  | e :: r, k => if e.1 = k then e.2 else mget d r k

/-- The map without key `k`. -/
def merase : Sparse α → Nat → Sparse α
  | [], _ => []
  | e :: r, k => if e.1 = k then merase r k else e :: merase r k

/-- The map with `(k, v)` put before the first larger key. -/
def minsert : Sparse α → Nat → α → Sparse α
  | [], k, v => [(k, v)]
  | e :: r, k, v => if k < e.1 then (k, v) :: e :: r else e :: minsert r k v

/-- The map with `v` at `k`; the default value is not listed. -/
def mset (d : α) (m : Sparse α) (k : Nat) (v : α) : Sparse α :=
  if v = d then merase m k else minsert (merase m k) k v

/-- The map with `f` applied to the value at `k`. -/
def mupd (d : α) (m : Sparse α) (k : Nat) (f : α → α) : Sparse α := mset d m k (f (mget d m k))

/-- Keys rise strictly from `lo` on, and no value is the default. -/
def mwfFrom (d : α) : Nat → Sparse α → Bool
  | _, [] => true
  | lo, e :: r => decide (lo ≤ e.1) && decide (e.2 ≠ d) && mwfFrom d (e.1 + 1) r

/-- The canonical form of a map. -/
def mwf (d : α) (m : Sparse α) : Bool := mwfFrom d 0 m

end Map

/-! ### Byte memories -/

/-- The first free range that holds the address. -/
def freeAt : List FreeRange → Nat → Option Nat
  | [], _ => none
  | r :: rs, a => if r.lo ≤ a ∧ a < r.hi then some r.epoch else freeAt rs a

/-- What an address not listed reads as. -/
def Mem.unlisted (m : Mem) (a : Nat) : Byte :=
  match freeAt m.free a with
  | some e => Config.freeByte e a
  | none => 0

/-- One byte. -/
def Mem.read (m : Mem) (a : Nat) : Byte := mget (m.unlisted a) m.cells a

/-- Writes one byte. A zero is not listed unless the address lies in a free range. -/
def Mem.write (m : Mem) (a : Nat) (b : Byte) : Mem :=
  { m with cells :=
      if b = 0 ∧ freeAt m.free a = none then merase m.cells a else minsert (merase m.cells a) a b }

/-- `n` bytes from `a` on. -/
def Mem.bytes (m : Mem) (a : Nat) : Nat → List Byte
  | 0 => []
  | n + 1 => m.read a :: m.bytes (a + 1) n

/-- Writes a list of bytes from `a` on. -/
def Mem.store (m : Mem) (a : Nat) : List Byte → Mem
  | [] => m
  | b :: bs => (m.write a b).store (a + 1) bs

/-- A little-endian number (00 R3). -/
def leNat : List Byte → Nat
  | [] => 0
  | b :: bs => b.toNat + 256 * leNat bs

/-- The `n` low bytes of a number, little-endian (00 R3). -/
def leBytes : Nat → Nat → List Byte
  | 0, _ => []
  | n + 1, v => BitVec.ofNat 8 v :: leBytes n (v / 256)

/-- A little-endian number of `n` bytes in memory. -/
def Mem.num (m : Mem) (a n : Nat) : Nat := leNat (m.bytes a n)

/-- Stores the `n` low bytes of a number. -/
def Mem.setNum (m : Mem) (a n v : Nat) : Mem := m.store a (leBytes n v)

/-- A free range without `[lo, hi)`. -/
def FreeRange.cut (lo hi : Nat) (r : FreeRange) : List FreeRange :=
  if r.hi ≤ lo ∨ hi ≤ r.lo then [r]
  else (if r.lo < lo then [{ r with hi := lo }] else []) ++ (if hi < r.hi then [{ r with lo := hi }] else [])

/-- Sets every byte of `[lo, hi)` to 0. -/
def Mem.zero (m : Mem) (lo hi : Nat) : Mem where
  cells := m.cells.filter (fun c => decide (c.1 < lo ∨ hi ≤ c.1))
  free := m.free.flatMap (FreeRange.cut lo hi)

/-- Leaves the contents of `[lo, hi)` undefined: free bytes of a fresh epoch. -/
def Mem.forget (m : Mem) (lo hi epoch : Nat) : Mem :=
  let z := m.zero lo hi
  if lo < hi then { z with free := ⟨lo, hi, epoch⟩ :: z.free } else z

/-- Addresses rise strictly from `lo` on, and a zero is listed in a free range only. -/
def Mem.wfFrom (free : List FreeRange) : Nat → List Host.Cell → Bool
  | _, [] => true
  | lo, c :: r => decide (lo ≤ c.1) && (decide (c.2 ≠ 0) || (freeAt free c.1).isSome) && Mem.wfFrom free (c.1 + 1) r

/-- The canonical form of a memory. -/
def Mem.wf (m : Mem) : Bool := Mem.wfFrom m.free 0 m.cells

end Sys2Proof.Machine
end

