-- ==== Sys2Proof/Machine/Sha.lean ====
section
/-! DEFINITION. SHA-256 (FIPS 180-4), HMAC-SHA-256 and the counter-mode KDF of NIST SP 800-108r1, which the spec names (07_creust_fabric.md
R241, R244; 12_security.md R386, R408; 13_firmware_booth.md R410). Their details are those of the standards named. -/

namespace Sys2Proof.Machine

/-! ### SHA-256 -/

/-- Round constants: the first 32 bits of the fractional parts of the cube roots of the first 64 primes. -/
def shaK : List Word :=
  [0x428A2F98, 0x71374491, 0xB5C0FBCF, 0xE9B5DBA5, 0x3956C25B, 0x59F111F1, 0x923F82A4, 0xAB1C5ED5]
  ++ [0xD807AA98, 0x12835B01, 0x243185BE, 0x550C7DC3, 0x72BE5D74, 0x80DEB1FE, 0x9BDC06A7, 0xC19BF174]
  ++ [0xE49B69C1, 0xEFBE4786, 0x0FC19DC6, 0x240CA1CC, 0x2DE92C6F, 0x4A7484AA, 0x5CB0A9DC, 0x76F988DA]
  ++ [0x983E5152, 0xA831C66D, 0xB00327C8, 0xBF597FC7, 0xC6E00BF3, 0xD5A79147, 0x06CA6351, 0x14292967]
  ++ [0x27B70A85, 0x2E1B2138, 0x4D2C6DFC, 0x53380D13, 0x650A7354, 0x766A0ABB, 0x81C2C92E, 0x92722C85]
  ++ [0xA2BFE8A1, 0xA81A664B, 0xC24B8B70, 0xC76C51A3, 0xD192E819, 0xD6990624, 0xF40E3585, 0x106AA070]
  ++ [0x19A4C116, 0x1E376C08, 0x2748774C, 0x34B0BCB5, 0x391C0CB3, 0x4ED8AA4A, 0x5B9CCA4F, 0x682E6FF3]
  ++ [0x748F82EE, 0x78A5636F, 0x84C87814, 0x8CC70208, 0x90BEFFFA, 0xA4506CEB, 0xBEF9A3F7, 0xC67178F2]

/-- Initial hash value: the same of the square roots of the first eight primes. -/
def shaInit : List Word := [0x6A09E667, 0xBB67AE85, 0x3C6EF372, 0xA54FF53A, 0x510E527F, 0x9B05688C, 0x1F83D9AB, 0x5BE0CD19]

/-- A big-endian word of four bytes. -/
def beWord (a b c d : Byte) : Word := a ++ b ++ c ++ d

/-- The words of a byte string, big-endian. -/
def beWords : List Byte → List Word
  | a :: b :: c :: d :: r => beWord a b c d :: beWords r
  | _ => []

/-- The `n` low bytes of a number, most significant first. -/
def beBytes (n v : Nat) : List Byte := ((List.range n).map (fun k => BitVec.ofNat 8 (v / 2 ^ (8 * k)))).reverse

/-- The number that bytes give, most significant first. -/
def beNat (l : List Byte) : Nat := l.foldl (fun a b => a * 256 + b.toNat) 0

/-- The message schedule, newest word first: `n` words more. -/
def shaSchedule : Nat → List Word → List Word
  | 0, w => w
  | n + 1, w =>
    let x := w.getD 14 0
    let y := w.getD 1 0
    let s0 := x.rotateRight 7 ^^^ x.rotateRight 18 ^^^ (x >>> 3)
    let s1 := y.rotateRight 17 ^^^ y.rotateRight 19 ^^^ (y >>> 10)
    shaSchedule n ((s1 + w.getD 6 0 + s0 + w.getD 15 0) :: w)

/-- One round on the eight working variables. -/
def shaRound (v : List Word) (k w : Word) : List Word :=
  match v with
  | [a, b, c, d, e, f, g, h] =>
    let s1 := e.rotateRight 6 ^^^ e.rotateRight 11 ^^^ e.rotateRight 25
    let t1 := h + s1 + ((e &&& f) ^^^ (~~~e &&& g)) + k + w
    let s0 := a.rotateRight 2 ^^^ a.rotateRight 13 ^^^ a.rotateRight 22
    [t1 + s0 + ((a &&& b) ^^^ (a &&& c) ^^^ (b &&& c)), a, b, c, d + t1, e, f, g]
  | l => l

/-- One block of 64 bytes. -/
def shaBlock (h : List Word) (b : List Byte) : List Word :=
  let w := (shaSchedule 48 (beWords b).reverse).reverse
  h.zipWith (· + ·) ((shaK.zip w).foldl (fun v x => shaRound v x.1 x.2) h)

/-- The blocks of a padded message, `n` of them. -/
def shaBlocks : Nat → List Word → List Byte → List Word
  | 0, h, _ => h
  | n + 1, h, m => shaBlocks n (shaBlock h (m.take 64)) (m.drop 64)

/-- The padding of a message. -/
def shaPad (m : List Byte) : List Byte :=
  m ++ 0x80 :: (List.replicate ((119 - m.length % 64) % 64) 0 ++ beBytes 8 (8 * m.length))

/-- SHA-256 as 32 bytes. -/
def shaBytes (m : List Byte) : List Byte :=
  let p := shaPad m
  (shaBlocks (p.length / 64) shaInit p).flatMap (fun w => beBytes 4 w.toNat)

/-- SHA-256 of a byte string, its bytes read little-endian as every field is (00 R3). -/
def sha256 (m : List Byte) : BitVec 256 := BitVec.ofNat 256 (leNat (shaBytes m))

/-! ### HMAC and the KDF -/

/-- HMAC-SHA-256 (FIPS 198-1), 32 bytes. -/
def hmacSha256 (key m : List Byte) : List Byte :=
  let k := if 64 < key.length then shaBytes key else key
  let k := k ++ List.replicate (64 - k.length) 0
  shaBytes (k.map (fun b => b ^^^ 0x5C) ++ shaBytes (k.map (fun b => b ^^^ 0x36) ++ m))

/-- A 256-bit key by the counter-mode KDF of SP 800-108r1 with HMAC-SHA-256: one block, of counter 1, label, 0, context and length in
bits. The spec gives neither label nor context of a derivation beyond what each use names (DESIGN CHOICE, log 116). -/
def kdf256 (key label context : List Byte) : BitVec 256 :=
  BitVec.ofNat 256 (leNat (hmacSha256 key (beBytes 4 1 ++ label ++ 0 :: context ++ beBytes 4 256)))

end Sys2Proof.Machine
end

