-- ==== Sys2Proof/Machine/Aes.lean ====
section
/-! DEFINITION. AES-256 (FIPS 197), AES-256-GCM (SP 800-38D) and AES-256-XTS (IEEE 1619), which the spec names
(07_creust_fabric.md R242; 12_security.md R382, R386). Their details are those of the standards named. -/

namespace Sys2Proof.Machine

/-! ### AES-256 -/

/-- Multiplication by x in GF(2^8), polynomial 0x11B. -/
def xtime (a : Byte) : Byte := if a.getLsbD 7 then (a <<< 1) ^^^ 0x1B else a <<< 1

/-- Multiplication in GF(2^8) by the `n` low bits of `b`. -/
def gfMul8 : Nat → Byte → Byte → Byte
  | 0, _, _ => 0
  | n + 1, a, b => (if b.getLsbD 0 then a else 0) ^^^ gfMul8 n (xtime a) (b >>> 1)

/-- The inverse in GF(2^8), 0 for 0: the 254th power. -/
def gfInv (a : Byte) : Byte :=
  let sq := fun x => gfMul8 8 x x
  let a2 := sq a
  let a3 := gfMul8 8 a2 a
  let a12 := sq (sq a3)
  let a15 := gfMul8 8 a12 a3
  let a240 := sq (sq (sq (sq a15)))
  gfMul8 8 (gfMul8 8 a240 a12) a2

/-- SubBytes of one byte. -/
def aesSub (a : Byte) : Byte :=
  let x := gfInv a
  x ^^^ x.rotateLeft 1 ^^^ x.rotateLeft 2 ^^^ x.rotateLeft 3 ^^^ x.rotateLeft 4 ^^^ 0x63

/-- XOR of two byte strings, as long as the shorter. -/
def xorBytes (a b : List Byte) : List Byte := a.zipWith (· ^^^ ·) b

/-- The key schedule, newest word first: `n` words more, from word `i` on. -/
def aesExpand : Nat → Nat → Byte → List (List Byte) → List (List Byte)
  | 0, _, _, w => w
  | n + 1, i, rc, w =>
    let p := w.headD []
    let t := if i % 8 = 0 then xorBytes ((p.drop 1 ++ p.take 1).map aesSub) [rc, 0, 0, 0]
      else if i % 8 = 4 then p.map aesSub else p
    aesExpand n (i + 1) (if i % 8 = 0 then xtime rc else rc) (xorBytes (w.getD 7 []) t :: w)

/-- A byte string cut into runs of `k`, at most `n` of them. -/
def cutEvery (k : Nat) : Nat → List Byte → List (List Byte)
  | 0, _ => []
  | n + 1, l => if l.isEmpty then [] else l.take k :: cutEvery k n (l.drop k)

/-- The fifteen round keys of a 256-bit key. -/
def aesKeys (key : List Byte) : List (List Byte) :=
  cutEvery 16 15 ((aesExpand 52 8 1 (cutEvery 4 8 key).reverse).reverse.flatMap id)

/-- ShiftRows on the 16 bytes of a block, column by column. -/
def aesShift (b : List Byte) : List Byte := (List.range 16).map (fun i => b.getD ((i + 4 * (i % 4)) % 16) 0)

/-- MixColumns of one column. -/
def aesMixCol (c : List Byte) : List Byte :=
  (List.range 4).map (fun i =>
    let a := fun k => c.getD ((i + k) % 4) 0
    xtime (a 0) ^^^ xtime (a 1) ^^^ a 1 ^^^ a 2 ^^^ a 3)

/-- MixColumns. -/
def aesMix (b : List Byte) : List Byte := (cutEvery 4 4 b).flatMap aesMixCol

/-- The rounds, by the round keys that are left. -/
def aesRounds : List (List Byte) → List Byte → List Byte
  | [], b => b
  | [k], b => xorBytes (aesShift (b.map aesSub)) k
  | k :: ks, b => aesRounds ks (xorBytes (aesMix (aesShift (b.map aesSub))) k)

/-- AES-256 of a block of 16 bytes. -/
def aes256 (key block : List Byte) : List Byte :=
  match aesKeys key with
  | k :: ks => aesRounds ks (xorBytes block k)
  | [] => block

/-! ### GCM -/

/-- Multiplication in GF(2^128) as GCM has it: `n` bits of `x` are left, `v` is y times a power. -/
def ghashMul : Nat → BitVec 128 → BitVec 128 → BitVec 128 → BitVec 128
  | 0, _, _, z => z
  | n + 1, x, v, z =>
    ghashMul n (x <<< 1) (if v.getLsbD 0 then (v >>> 1) ^^^ (0xE1#128 <<< 120) else v >>> 1)
      (if x.getLsbD 127 then z ^^^ v else z)

/-- A block of up to 16 bytes as a field element: the first byte is the most significant; short ones end in zeros. -/
def ghashBlock (b : List Byte) : BitVec 128 := BitVec.ofNat 128 (beNat (b ++ List.replicate (16 - b.length) 0))

/-- GHASH of a list of blocks under a hash key. -/
def ghash (h : BitVec 128) (l : List (BitVec 128)) : BitVec 128 := l.foldl (fun y x => ghashMul 128 (y ^^^ x) h 0) 0

/-- The blocks of a byte string. -/
def blocksOf (m : List Byte) : List (List Byte) := cutEvery 16 ((m.length + 15) / 16) m

/-- A counter block: 96 bits and a 32-bit counter. -/
def ctrBlock (iv : List Byte) (n : Nat) : List Byte := iv ++ beBytes 4 n

/-- Counter mode from a counter on. -/
def aesCtr (key iv : List Byte) (n : Nat) (m : List Byte) : List Byte :=
  (blocksOf m).zipIdx.flatMap (fun x => xorBytes x.1 (aes256 key (ctrBlock iv (n + x.2))))

/-- The tag of a ciphertext and its additional data. -/
def gcmTag (key iv aad cipher : List Byte) : List Byte :=
  let h := ghashBlock (aes256 key (List.replicate 16 0))
  let y := ghash h ((blocksOf aad).map ghashBlock ++ (blocksOf cipher).map ghashBlock
    ++ [ghashBlock (beBytes 8 (8 * aad.length) ++ beBytes 8 (8 * cipher.length))])
  xorBytes (beBytes 16 y.toNat) (aes256 key (ctrBlock iv 1))

/-- AES-256-GCM: counter 2 on enciphers; decryption is the same. -/
def gcmCrypt (key iv m : List Byte) : List Byte := aesCtr key iv 2 m

/-! ### XTS -/

/-- Multiplication of a tweak by x in GF(2^128), little-endian. -/
def xtsMulX (t : List Byte) : List Byte :=
  let n := t.reverse.foldl (fun a b => a * 256 + b.toNat) 0
  let d := 2 * n % 2 ^ 128
  let r := if n < 2 ^ 127 then d else d ^^^ 0x87
  (beBytes 16 r).reverse

/-- The blocks of a data unit of whole blocks, with the tweak of the first. -/
def xtsBlocks (key : List Byte) : List Byte → List (List Byte) → List Byte
  | _, [] => []
  | t, b :: bs => xorBytes (aes256 key (xorBytes b t)) t ++ xtsBlocks key (xtsMulX t) bs

/-- AES-256-XTS encryption of a data unit of whole blocks with its number as tweak. -/
def xtsEncrypt (key1 key2 : List Byte) (unit_ : Nat) (m : List Byte) : List Byte :=
  xtsBlocks key1 (aes256 key2 ((beBytes 16 unit_).reverse)) (blocksOf m)

end Sys2Proof.Machine
end

