-- ==== Sys2Proof/Machine/RegMap.lean ====
section
/-! DEFINITION. The register map: the register tables of 00 to 15, row by row. -/

namespace Sys2Proof.Machine

/-- Type codes of R5. A reserved field is one that no row names. -/
inductive FieldKind
  | ro | rw | rwl | wo | w1c
  deriving DecidableEq, Repr

/-- A field: its bits, type code, reset value and legal encodings (empty: every one; 00 R8). -/
structure FieldDef where
  hi : Nat
  lo : Nat
  kind : FieldKind
  reset : Nat
  legal : List (Nat × Nat)
  deriving DecidableEq, Repr

/-- Who writes a register and where its value stands: stored and written by the PF only; stored and written by the bolt's
kernel driver, VF or PF; stored and written by the device only; computed from the state of a unit; a 48-bit counter pair. -/
inductive RegAttr
  | pf | kernel | device | live | counter
  deriving DecidableEq, Repr

/-- `count` registers from offset `off` of their block, `stride` bytes apart. -/
structure RegDef where
  off : Nat
  count : Nat
  stride : Nat
  attr : RegAttr
  /-- a `_LO` register, whose `_HI` register follows (00 R7) -/
  pair : Bool
  fields : List FieldDef
  deriving DecidableEq, Repr

/-- GLB (00, 04, 05, 09, 13, 15). -/
def regsGLB : List RegDef :=
  [
  -- GLB_ID
  ⟨0x0, 1, 4, .live, false, [⟨15, 0, .ro, 8544, []⟩, ⟨23, 16, .ro, 161, []⟩, ⟨27, 24, .ro, 2, []⟩]⟩,
  -- GLB_IFVER
  ⟨0x8, 1, 4, .live, false, [⟨15, 0, .ro, 0, []⟩, ⟨31, 16, .ro, 2, []⟩]⟩,
  -- GLB_DRV_VER
  ⟨0xC, 1, 4, .pf, false, [⟨15, 0, .rw, 0, []⟩, ⟨31, 16, .rw, 0, []⟩]⟩,
  -- GLB_BOOT
  ⟨0x10, 1, 4, .live, false, [⟨2, 0, .ro, 0, []⟩, ⟨3, 3, .ro, 0, []⟩, ⟨4, 4, .ro, 0, []⟩, ⟨5, 5, .ro, 0, []⟩, ⟨6, 6, .ro, 0, []⟩, ⟨15, 8, .ro, 0, []⟩]⟩,
  -- GLB_FW_VER
  ⟨0x14, 1, 4, .live, false, [⟨31, 0, .ro, 0, []⟩]⟩,
  -- GLB_STRAP
  ⟨0x20, 1, 4, .live, false, [⟨1, 0, .ro, 0, []⟩, ⟨2, 2, .ro, 0, []⟩, ⟨4, 3, .ro, 0, []⟩, ⟨6, 5, .ro, 0, []⟩, ⟨12, 7, .ro, 0, []⟩, ⟨16, 13, .ro, 0, []⟩, ⟨17, 17, .ro, 0, []⟩, ⟨18, 18, .ro, 0, []⟩]⟩,
  -- GLB_RST_CAUSE
  ⟨0x24, 1, 4, .live, false, [⟨2, 0, .ro, 0, []⟩]⟩,
  -- GLB_ERR_STATUS
  ⟨0x40, 1, 4, .pf, false, [⟨0, 0, .w1c, 0, []⟩, ⟨1, 1, .w1c, 0, []⟩, ⟨2, 2, .w1c, 0, []⟩, ⟨3, 3, .w1c, 0, []⟩]⟩,
  -- GLB_DARK
  ⟨0x100, 8, 4, .live, true, [⟨31, 0, .ro, 0, []⟩]⟩,
  -- GLB_HBM_OK
  ⟨0x200, 12, 4, .live, false, [⟨31, 0, .ro, 0, []⟩]⟩ ]

/-- HIF (09). -/
def regsHIF : List RegDef :=
  [
  -- HIF_RSV_BASE_LO
  ⟨0x0, 1, 4, .pf, true, [⟨0, 0, .rw, 0, []⟩, ⟨31, 29, .rw, 0, []⟩]⟩,
  -- HIF_RSV_BASE_HI
  ⟨0x4, 1, 4, .pf, false, [⟨31, 0, .rw, 0, []⟩]⟩,
  -- HIF_AP_BASE_LO
  ⟨0x10, 1, 4, .pf, true, [⟨31, 0, .rw, 0, []⟩]⟩,
  -- HIF_AP_BASE_HI
  ⟨0x14, 1, 4, .pf, false, [⟨31, 0, .rw, 0, []⟩]⟩,
  -- CMD_ARG
  ⟨0x100, 5, 4, .pf, false, [⟨31, 0, .rw, 0, []⟩]⟩,
  -- CMD_ARG5
  ⟨0x114, 1, 4, .pf, false, [⟨5, 0, .rw, 0, []⟩]⟩,
  -- CMD
  ⟨0x118, 1, 4, .pf, false, [⟨7, 0, .rw, 0, []⟩, ⟨31, 31, .wo, 0, []⟩]⟩,
  -- CMD_STAT
  ⟨0x11C, 1, 4, .pf, false, [⟨0, 0, .ro, 0, []⟩, ⟨1, 1, .w1c, 0, []⟩, ⟨2, 2, .w1c, 0, []⟩, ⟨15, 8, .ro, 0, []⟩]⟩,
  -- CMD_RES
  ⟨0x120, 4, 4, .device, false, [⟨31, 0, .ro, 0, []⟩]⟩ ]

/-- STU (06). -/
def regsSTU : List RegDef :=
  [
  -- STU_TIME_LO
  ⟨0x0, 1, 4, .live, true, [⟨29, 0, .ro, 0, []⟩, ⟨31, 30, .ro, 0, []⟩]⟩,
  -- STU_TIME_HI
  ⟨0x4, 1, 4, .live, false, [⟨31, 0, .ro, 0, []⟩]⟩,
  -- STU_CTL
  ⟨0x10, 1, 4, .pf, false, [⟨1, 0, .rwl, 0, [(0, 2)]⟩, ⟨2, 2, .rwl, 1, []⟩, ⟨6, 3, .rwl, 0, []⟩]⟩,
  -- STU_STATE
  ⟨0x14, 1, 4, .live, false, [⟨1, 0, .ro, 1, []⟩, ⟨2, 2, .ro, 0, []⟩, ⟨15, 8, .ro, 255, []⟩]⟩,
  -- STU_PPS_SEC
  ⟨0x18, 1, 4, .pf, false, [⟨31, 0, .rw, 0, []⟩]⟩,
  -- STU_REACQ
  ⟨0x1C, 1, 4, .pf, false, [⟨0, 0, .wo, 0, []⟩]⟩,
  -- STU_FREQ
  ⟨0x20, 1, 4, .live, false, [⟨31, 0, .ro, 0, []⟩]⟩,
  -- STU_PHASE
  ⟨0x24, 1, 4, .live, false, [⟨31, 0, .ro, 0, []⟩]⟩,
  -- STU_STAT
  ⟨0x28, 1, 4, .pf, false, [⟨0, 0, .w1c, 0, []⟩, ⟨1, 1, .w1c, 0, []⟩, ⟨2, 2, .w1c, 0, []⟩, ⟨3, 3, .w1c, 0, []⟩, ⟨4, 4, .w1c, 0, []⟩, ⟨5, 5, .w1c, 0, []⟩]⟩,
  -- STU_PPS_DLY
  ⟨0x2C, 1, 4, .pf, false, [⟨15, 0, .rw, 0, []⟩]⟩ ]

/-- PWR (11). -/
def regsPWR : List RegDef :=
  [
  -- PWR_CAP
  ⟨0x0, 1, 4, .device, false, [⟨8, 0, .ro, 420, []⟩]⟩,
  -- PWR_ORDER
  ⟨0x4, 1, 4, .device, false, [⟨1, 0, .ro, 2, []⟩, ⟨3, 2, .ro, 1, []⟩, ⟨5, 4, .ro, 0, []⟩]⟩,
  -- PWR_STAT
  ⟨0x8, 1, 4, .pf, false, [⟨0, 0, .ro, 0, []⟩, ⟨1, 1, .ro, 0, []⟩, ⟨2, 2, .ro, 0, []⟩, ⟨3, 3, .w1c, 0, []⟩, ⟨4, 4, .w1c, 0, []⟩, ⟨5, 5, .w1c, 0, []⟩]⟩,
  -- PWR_RES_SUM
  ⟨0xC, 1, 4, .live, false, [⟨8, 0, .ro, 0, []⟩]⟩,
  -- PWR_INPUT
  ⟨0x10, 1, 4, .live, false, [⟨12, 0, .ro, 0, []⟩]⟩,
  -- PWR_VIN
  ⟨0x14, 1, 4, .live, false, [⟨15, 0, .ro, 0, []⟩]⟩,
  -- PWR_FIXED
  ⟨0x18, 1, 4, .live, false, [⟨12, 0, .ro, 0, []⟩]⟩,
  -- PWR_UNRES
  ⟨0x1C, 1, 4, .live, false, [⟨12, 0, .ro, 0, []⟩]⟩,
  -- PWR_OP_P0
  ⟨0x40, 1, 4, .live, false, [⟨3, 0, .ro, 15, []⟩, ⟨7, 4, .ro, 15, []⟩, ⟨11, 8, .ro, 0, []⟩, ⟨18, 12, .ro, 64, []⟩]⟩,
  -- PWR_PACE_P0
  ⟨0x44, 1, 4, .live, false, [⟨15, 0, .ro, 0, []⟩]⟩,
  -- PWR_TEMP_P0
  ⟨0x48, 1, 4, .live, false, [⟨7, 0, .ro, 0, []⟩, ⟨15, 8, .ro, 0, []⟩]⟩,
  -- PWR_HOLD_CNT_P0
  ⟨0x50, 1, 8, .counter, true, [⟨47, 0, .ro, 0, []⟩]⟩,
  -- PWR_HOLD_NS_P0
  ⟨0x58, 1, 8, .counter, true, [⟨47, 0, .ro, 0, []⟩]⟩,
  -- PWR_OP_P1
  ⟨0x60, 1, 4, .live, false, [⟨3, 0, .ro, 15, []⟩, ⟨7, 4, .ro, 15, []⟩, ⟨11, 8, .ro, 0, []⟩, ⟨18, 12, .ro, 64, []⟩]⟩,
  -- PWR_PACE_P1
  ⟨0x64, 1, 4, .live, false, [⟨15, 0, .ro, 0, []⟩]⟩,
  -- PWR_TEMP_P1
  ⟨0x68, 1, 4, .live, false, [⟨7, 0, .ro, 0, []⟩, ⟨15, 8, .ro, 0, []⟩]⟩,
  -- PWR_HOLD_CNT_P1
  ⟨0x70, 1, 8, .counter, true, [⟨47, 0, .ro, 0, []⟩]⟩,
  -- PWR_HOLD_NS_P1
  ⟨0x78, 1, 8, .counter, true, [⟨47, 0, .ro, 0, []⟩]⟩,
  -- PWR_OP_P2
  ⟨0x80, 1, 4, .live, false, [⟨3, 0, .ro, 15, []⟩, ⟨7, 4, .ro, 15, []⟩, ⟨11, 8, .ro, 0, []⟩, ⟨18, 12, .ro, 64, []⟩]⟩,
  -- PWR_PACE_P2
  ⟨0x84, 1, 4, .live, false, [⟨15, 0, .ro, 0, []⟩]⟩,
  -- PWR_TEMP_P2
  ⟨0x88, 1, 4, .live, false, [⟨7, 0, .ro, 0, []⟩, ⟨15, 8, .ro, 0, []⟩]⟩,
  -- PWR_HOLD_CNT_P2
  ⟨0x90, 1, 8, .counter, true, [⟨47, 0, .ro, 0, []⟩]⟩,
  -- PWR_HOLD_NS_P2
  ⟨0x98, 1, 8, .counter, true, [⟨47, 0, .ro, 0, []⟩]⟩,
  -- PWR_OP_P3
  ⟨0xA0, 1, 4, .live, false, [⟨3, 0, .ro, 15, []⟩, ⟨7, 4, .ro, 15, []⟩, ⟨11, 8, .ro, 0, []⟩, ⟨18, 12, .ro, 64, []⟩]⟩,
  -- PWR_PACE_P3
  ⟨0xA4, 1, 4, .live, false, [⟨15, 0, .ro, 0, []⟩]⟩ ] ++
  [
  -- PWR_TEMP_P3
  ⟨0xA8, 1, 4, .live, false, [⟨7, 0, .ro, 0, []⟩, ⟨15, 8, .ro, 0, []⟩]⟩,
  -- PWR_HOLD_CNT_P3
  ⟨0xB0, 1, 8, .counter, true, [⟨47, 0, .ro, 0, []⟩]⟩,
  -- PWR_HOLD_NS_P3
  ⟨0xB8, 1, 8, .counter, true, [⟨47, 0, .ro, 0, []⟩]⟩,
  -- PWR_OPT
  ⟨0xC0, 16, 4, .live, false, [⟨11, 0, .ro, 0, []⟩, ⟨21, 12, .ro, 0, []⟩, ⟨31, 22, .ro, 0, []⟩]⟩,
  -- PWR_THERM
  ⟨0x100, 1, 4, .live, false, [⟨7, 0, .ro, 100, []⟩, ⟨15, 8, .ro, 105, []⟩, ⟨23, 16, .ro, 110, []⟩, ⟨31, 24, .ro, 115, []⟩]⟩ ]

/-- INC (14). -/
def regsINC : List RegDef :=
  [
  -- INC_STAT
  ⟨0x0, 1, 4, .pf, false, [⟨0, 0, .w1c, 0, []⟩, ⟨1, 1, .w1c, 0, []⟩, ⟨2, 2, .ro, 0, []⟩, ⟨3, 3, .ro, 0, []⟩]⟩,
  -- INC_HEAD
  ⟨0x4, 1, 4, .live, false, [⟨11, 0, .ro, 0, []⟩]⟩,
  -- INC_TAIL
  ⟨0x8, 1, 4, .pf, false, [⟨11, 0, .rw, 0, []⟩]⟩,
  -- INC_CNT
  ⟨0xC, 1, 4, .live, false, [⟨12, 0, .ro, 0, []⟩]⟩,
  -- INC_FATAL_CNT
  ⟨0x10, 1, 4, .live, false, [⟨6, 0, .ro, 0, []⟩]⟩,
  -- INC_DROP_TOTAL
  ⟨0x18, 1, 8, .counter, true, [⟨47, 0, .ro, 0, []⟩]⟩,
  -- INC_SRC_SEL
  ⟨0x20, 1, 4, .pf, false, [⟨11, 0, .rw, 0, []⟩]⟩,
  -- INC_SRC_FIRST
  ⟨0x24, 1, 4, .live, false, [⟨15, 0, .ro, 0, []⟩, ⟨21, 16, .ro, 0, []⟩, ⟨22, 22, .ro, 0, []⟩, ⟨31, 31, .w1c, 0, []⟩]⟩,
  -- INC_SRC_FIRST_TIME_LO
  ⟨0x28, 1, 4, .live, true, [⟨31, 0, .ro, 0, []⟩]⟩,
  -- INC_SRC_FIRST_TIME_HI
  ⟨0x2C, 1, 4, .live, false, [⟨31, 0, .ro, 0, []⟩]⟩,
  -- INC_SRC_LAST
  ⟨0x30, 1, 4, .live, false, [⟨22, 0, .ro, 0, []⟩]⟩,
  -- INC_SRC_LAST_TIME_LO
  ⟨0x38, 1, 4, .live, true, [⟨31, 0, .ro, 0, []⟩]⟩,
  -- INC_SRC_LAST_TIME_HI
  ⟨0x3C, 1, 4, .live, false, [⟨31, 0, .ro, 0, []⟩]⟩,
  -- INC_DROP_CNT_LO
  ⟨0x40, 1, 4, .live, true, [⟨31, 0, .ro, 0, []⟩]⟩,
  -- INC_DROP_CNT_HI
  ⟨0x44, 1, 4, .live, false, [⟨15, 0, .ro, 0, []⟩, ⟨31, 31, .w1c, 0, []⟩]⟩,
  -- INC_PAGE
  ⟨0x48, 1, 4, .pf, false, [⟨5, 0, .rw, 0, []⟩]⟩,
  -- INC_WIN
  ⟨0x1000, 1024, 4, .live, false, [⟨31, 0, .ro, 0, []⟩]⟩ ]

/-- XLT (05). -/
def regsXLT : List RegDef :=
  [
  -- XLT_FQ_FULL_LO
  ⟨0x0, 1, 4, .pf, true, [⟨31, 0, .w1c, 0, []⟩]⟩,
  -- XLT_FQ_FULL_HI
  ⟨0x4, 1, 4, .pf, false, [⟨31, 0, .w1c, 0, []⟩]⟩,
  -- XLT_INV_STAT
  ⟨0x200, 64, 4, .pf, false, [⟨0, 0, .ro, 0, []⟩, ⟨1, 1, .w1c, 0, []⟩, ⟨2, 2, .w1c, 0, []⟩, ⟨3, 3, .w1c, 0, []⟩, ⟨4, 4, .w1c, 0, []⟩, ⟨31, 16, .ro, 0, []⟩]⟩,
  -- XLT_INV_S
  ⟨0x1000, 512, 4, .pf, false, [⟨31, 0, .rw, 0, []⟩]⟩ ]

/-- SEC host view (12). -/
def regsSEC : List RegDef :=
  [
  -- SEC_STAT
  ⟨0x0, 1, 4, .live, false, [⟨0, 0, .ro, 0, []⟩, ⟨1, 1, .ro, 0, []⟩, ⟨2, 2, .ro, 0, []⟩, ⟨20, 8, .ro, 0, []⟩]⟩,
  -- SEC_REG_SEL
  ⟨0x4, 1, 4, .pf, false, [⟨11, 0, .rw, 0, []⟩]⟩,
  -- SEC_REG_INFO
  ⟨0x8, 1, 4, .live, false, [⟨5, 0, .ro, 0, []⟩, ⟨7, 6, .ro, 0, []⟩, ⟨10, 8, .ro, 0, []⟩, ⟨31, 16, .ro, 0, []⟩]⟩,
  -- SEC_REG_SEALED_LO
  ⟨0x10, 1, 4, .live, true, [⟨31, 0, .ro, 0, []⟩]⟩,
  -- SEC_REG_SEALED_HI
  ⟨0x14, 1, 4, .live, false, [⟨15, 0, .ro, 0, []⟩]⟩,
  -- SEC_REG_MOVED_LO
  ⟨0x18, 1, 4, .live, true, [⟨31, 0, .ro, 0, []⟩]⟩,
  -- SEC_REG_MOVED_HI
  ⟨0x1C, 1, 4, .live, false, [⟨15, 0, .ro, 0, []⟩]⟩,
  -- SEC_PB_NONCE
  ⟨0x110, 8, 4, .pf, false, [⟨31, 0, .rw, 0, []⟩]⟩,
  -- SEC_PB_DEST_LO
  ⟨0x130, 1, 4, .pf, true, [⟨31, 0, .rw, 0, []⟩]⟩,
  -- SEC_PB_DEST_HI
  ⟨0x134, 1, 4, .pf, false, [⟨31, 0, .rw, 0, []⟩]⟩,
  -- SEC_PB_CTL
  ⟨0x138, 1, 4, .pf, false, [⟨0, 0, .wo, 0, []⟩, ⟨1, 1, .rw, 0, []⟩, ⟨9, 4, .rw, 0, []⟩]⟩,
  -- SEC_PB_STAT
  ⟨0x13C, 1, 4, .pf, false, [⟨0, 0, .ro, 0, []⟩, ⟨1, 1, .w1c, 0, []⟩, ⟨7, 4, .ro, 0, []⟩]⟩ ]

/-- FWM (09, 13). -/
def regsFWM : List RegDef :=
  [
  -- FWM_MBX_PEND_LO
  ⟨0x0, 1, 4, .pf, true, [⟨31, 0, .w1c, 0, []⟩]⟩,
  -- FWM_MBX_PEND_HI
  ⟨0x4, 1, 4, .pf, false, [⟨31, 0, .w1c, 0, []⟩]⟩,
  -- FWM_SH_STAT
  ⟨0x40, 8, 4, .live, false, [⟨1, 0, .ro, 0, []⟩, ⟨15, 8, .ro, 0, []⟩]⟩,
  -- FWM_DOOR
  ⟨0x60, 1, 4, .live, false, [⟨2, 0, .ro, 0, []⟩, ⟨15, 8, .ro, 0, []⟩, ⟨16, 16, .ro, 0, []⟩]⟩,
  -- FWM_PB_HEAD
  ⟨0x8000, 1, 4, .live, false, [⟨31, 0, .ro, 0, []⟩]⟩,
  -- FWM_PB_PAGE
  ⟨0x8004, 1, 4, .pf, false, [⟨7, 0, .rw, 0, []⟩]⟩,
  -- FWM_PB_LEVEL
  ⟨0x8008, 1, 4, .pf, false, [⟨1, 0, .rw, 2, []⟩]⟩,
  -- FWM_TM_SEL
  ⟨0x8010, 1, 4, .pf, false, [⟨3, 0, .rw, 0, [(0, 10)]⟩, ⟨10, 4, .rw, 0, []⟩]⟩,
  -- FWM_TM_EN
  ⟨0x8014, 1, 4, .live, false, [⟨31, 0, .rw, 0, []⟩]⟩,
  -- FWM_PB_WIN
  ⟨0x9000, 1024, 4, .live, false, [⟨31, 0, .ro, 0, []⟩]⟩ ]

/-- LOM (08). -/
def regsLOM : List RegDef :=
  [
  -- LOM_SCENE
  ⟨0x0, 1, 4, .live, false, [⟨31, 0, .ro, 0, []⟩]⟩,
  -- LOM_SCENE_OLD
  ⟨0x4, 1, 4, .live, false, [⟨31, 0, .ro, 0, []⟩]⟩,
  -- LOM_STATE
  ⟨0x8, 1, 4, .live, false, [⟨1, 0, .ro, 0, []⟩, ⟨2, 2, .ro, 0, []⟩, ⟨3, 3, .ro, 0, []⟩]⟩,
  -- LOM_PENDING
  ⟨0xC, 1, 4, .live, false, [⟨31, 0, .ro, 0, []⟩]⟩,
  -- LOM_FIRE_LO
  ⟨0x10, 1, 4, .live, true, [⟨31, 0, .ro, 0, []⟩]⟩,
  -- LOM_FIRE_HI
  ⟨0x14, 1, 4, .live, false, [⟨31, 0, .ro, 0, []⟩]⟩,
  -- LOM_RETIRE_LO
  ⟨0x18, 1, 4, .live, true, [⟨31, 0, .ro, 0, []⟩]⟩,
  -- LOM_RETIRE_HI
  ⟨0x1C, 1, 4, .live, false, [⟨31, 0, .ro, 0, []⟩]⟩,
  -- LOM_REPORT
  ⟨0x20, 1, 4, .device, false, [⟨7, 0, .ro, 0, []⟩, ⟨12, 8, .ro, 0, []⟩, ⟨31, 16, .ro, 0, []⟩]⟩,
  -- LOM_REPORT_REC
  ⟨0x24, 1, 4, .device, false, [⟨31, 0, .ro, 0, []⟩]⟩,
  -- LOM_SCRUB
  ⟨0x30, 12, 4, .live, false, [⟨31, 0, .ro, 0, []⟩]⟩,
  -- LOM_DIST
  ⟨0x8000, 8192, 4, .live, false, [⟨7, 0, .ro, 0, []⟩, ⟨15, 8, .ro, 0, []⟩, ⟨23, 16, .ro, 0, []⟩, ⟨31, 24, .ro, 0, []⟩]⟩ ]

/-- QOS (11). -/
def regsQOS : List RegDef :=
  [
  -- QOS_THR
  ⟨0x0, 32, 4, .pf, false, [⟨19, 0, .rw, 0, []⟩, ⟨31, 31, .rw, 0, []⟩]⟩,
  -- QOS_MON_STAT
  ⟨0x80, 1, 4, .pf, false, [⟨3, 0, .w1c, 0, []⟩]⟩ ]

/-- A bolt window (05 to 14). -/
def regsBLT : List RegDef :=
  [
  -- BLT_ID
  ⟨0x0, 1, 4, .live, false, [⟨5, 0, .ro, 0, []⟩, ⟨13, 8, .ro, 0, []⟩]⟩,
  -- BLT_IFVER
  ⟨0x4, 1, 4, .live, false, [⟨31, 0, .ro, 131072, []⟩]⟩,
  -- BLT_DRV_VER
  ⟨0x8, 1, 4, .kernel, false, [⟨31, 0, .rw, 0, []⟩]⟩,
  -- VF_AP_BASE_LO
  ⟨0x10, 1, 4, .pf, true, [⟨31, 0, .rw, 0, []⟩]⟩,
  -- VF_AP_BASE_HI
  ⟨0x14, 1, 4, .pf, false, [⟨31, 0, .rw, 0, []⟩]⟩,
  -- ERR_STATUS
  ⟨0x40, 1, 4, .kernel, false, [⟨0, 0, .w1c, 0, []⟩, ⟨1, 1, .w1c, 0, []⟩, ⟨2, 2, .w1c, 0, []⟩, ⟨3, 3, .w1c, 0, []⟩]⟩,
  -- CMD_ARG
  ⟨0x100, 5, 4, .kernel, false, [⟨31, 0, .rw, 0, []⟩]⟩,
  -- CMD_ARG5
  ⟨0x114, 1, 4, .kernel, false, [⟨5, 0, .rw, 0, []⟩]⟩,
  -- CMD
  ⟨0x118, 1, 4, .kernel, false, [⟨7, 0, .rw, 0, []⟩, ⟨31, 31, .wo, 0, []⟩]⟩,
  -- CMD_STAT
  ⟨0x11C, 1, 4, .kernel, false, [⟨0, 0, .ro, 0, []⟩, ⟨1, 1, .w1c, 0, []⟩, ⟨2, 2, .w1c, 0, []⟩, ⟨15, 8, .ro, 0, []⟩]⟩,
  -- CMD_RES
  ⟨0x120, 4, 4, .device, false, [⟨31, 0, .ro, 0, []⟩]⟩,
  -- FREE_POP
  ⟨0x140, 1, 4, .live, false, [⟨31, 0, .ro, 0, []⟩]⟩,
  -- FREE_STAT
  ⟨0x144, 1, 4, .kernel, false, [⟨8, 0, .ro, 0, []⟩, ⟨9, 9, .w1c, 0, []⟩]⟩,
  -- CTX_STAT
  ⟨0x180, 1, 4, .live, false, [⟨2, 0, .ro, 0, []⟩, ⟨31, 8, .ro, 0, []⟩]⟩,
  -- DRAIN_CTL
  ⟨0x190, 1, 4, .pf, false, [⟨0, 0, .wo, 0, []⟩, ⟨1, 1, .rw, 1, []⟩]⟩,
  -- DRAIN_TMO
  ⟨0x194, 1, 4, .pf, false, [⟨23, 0, .rw, 100000, [(100, 16777215)]⟩]⟩,
  -- DRAIN_STAT
  ⟨0x198, 1, 4, .pf, false, [⟨0, 0, .ro, 0, []⟩, ⟨1, 1, .w1c, 0, []⟩, ⟨2, 2, .w1c, 0, []⟩]⟩,
  -- QUOTA_FENCE
  ⟨0x1A0, 1, 4, .device, false, [⟨20, 0, .ro, 16384, []⟩]⟩,
  -- QUOTA_OBJ
  ⟨0x1A4, 1, 4, .device, false, [⟨24, 0, .ro, 262144, []⟩]⟩,
  -- XLT_ROOT_LO
  ⟨0x800, 1, 4, .pf, true, [⟨0, 0, .rw, 0, []⟩, ⟨31, 12, .rw, 0, []⟩]⟩,
  -- XLT_ROOT_HI
  ⟨0x804, 1, 4, .pf, false, [⟨31, 0, .rw, 0, []⟩]⟩,
  -- XLT_FQ_CNT
  ⟨0x808, 1, 4, .live, false, [⟨10, 0, .ro, 0, []⟩]⟩,
  -- XLT_FQ_RESP
  ⟨0x80C, 1, 4, .pf, false, [⟨0, 0, .wo, 0, []⟩, ⟨31, 16, .wo, 0, []⟩]⟩,
  -- XLT_PF_CTL
  ⟨0x810, 1, 4, .pf, false, [⟨0, 0, .rw, 1, []⟩, ⟨5, 1, .rw, 16, [(1, 16)]⟩]⟩,
  -- XLT_FQ_STALL
  ⟨0x818, 1, 8, .counter, true, [⟨47, 0, .ro, 0, []⟩]⟩ ] ++
  [
  -- XLT_PF_HIT
  ⟨0x820, 1, 8, .counter, true, [⟨47, 0, .ro, 0, []⟩]⟩,
  -- XLT_PF_LATE
  ⟨0x828, 1, 8, .counter, true, [⟨47, 0, .ro, 0, []⟩]⟩,
  -- XLT_WALK
  ⟨0x830, 1, 8, .counter, true, [⟨47, 0, .ro, 0, []⟩]⟩,
  -- XLT_FQ_E
  ⟨0x840, 8, 4, .live, false, [⟨31, 0, .ro, 0, []⟩]⟩,
  -- CUE_BASE
  ⟨0x900, 1, 4, .live, false, [⟨15, 0, .ro, 0, []⟩]⟩,
  -- CUE_COUNT
  ⟨0x904, 1, 4, .live, false, [⟨16, 0, .ro, 0, []⟩]⟩,
  -- CUE_ARMED
  ⟨0x908, 1, 4, .live, false, [⟨16, 0, .ro, 0, []⟩]⟩,
  -- CUE_LATE_CNT
  ⟨0x910, 1, 8, .counter, true, [⟨47, 0, .ro, 0, []⟩]⟩,
  -- CUE_LATE_MAX
  ⟨0x918, 1, 4, .device, false, [⟨31, 0, .ro, 0, []⟩]⟩,
  -- GUAR_CLASSES
  ⟨0x920, 1, 4, .live, false, [⟨7, 0, .ro, 0, []⟩]⟩,
  -- GUAR_FLOOR
  ⟨0x924, 1, 4, .live, false, [⟨15, 0, .ro, 0, []⟩]⟩,
  -- GUAR_STAT
  ⟨0x928, 1, 4, .pf, false, [⟨0, 0, .w1c, 0, []⟩, ⟨1, 1, .w1c, 0, []⟩, ⟨2, 2, .ro, 0, []⟩, ⟨3, 3, .ro, 0, []⟩]⟩,
  -- GUAR_DEADLINE_LO
  ⟨0x930, 1, 4, .live, true, [⟨31, 0, .ro, 0, []⟩]⟩,
  -- GUAR_DEADLINE_HI
  ⟨0x934, 1, 4, .live, false, [⟨31, 0, .ro, 0, []⟩]⟩,
  -- GUAR_MISS_CNT
  ⟨0x938, 1, 8, .counter, true, [⟨47, 0, .ro, 0, []⟩]⟩,
  -- GUAR_VOID_CNT
  ⟨0x940, 1, 8, .counter, true, [⟨47, 0, .ro, 0, []⟩]⟩,
  -- GUAR_LAST_DELIV_LO
  ⟨0x948, 1, 4, .device, true, [⟨31, 0, .ro, 0, []⟩]⟩,
  -- GUAR_LAST_DELIV_HI
  ⟨0x94C, 1, 4, .device, false, [⟨31, 0, .ro, 0, []⟩]⟩,
  -- LOM_BLT_SCENE
  ⟨0xA00, 1, 4, .live, false, [⟨31, 0, .ro, 0, []⟩]⟩,
  -- LOM_BLT_FLAGS
  ⟨0xA04, 1, 4, .live, false, [⟨4, 0, .ro, 0, []⟩, ⟨5, 5, .ro, 0, []⟩, ⟨6, 6, .ro, 0, []⟩]⟩,
  -- LOM_BLT_TILES
  ⟨0xA08, 1, 4, .live, false, [⟨7, 0, .ro, 0, []⟩, ⟨15, 8, .ro, 0, []⟩, ⟨24, 16, .ro, 0, []⟩]⟩,
  -- LOM_BLT_OLD
  ⟨0xA0C, 1, 4, .live, false, [⟨23, 0, .ro, 0, []⟩]⟩,
  -- SRV_CFG
  ⟨0xB00, 1, 4, .kernel, false, [⟨0, 0, .rw, 0, []⟩, ⟨15, 8, .rw, 0, []⟩, ⟨25, 16, .rw, 0, []⟩]⟩,
  -- SRV_ITEMS_MAX
  ⟨0xB04, 1, 4, .kernel, false, [⟨16, 0, .rw, 4096, [(1, 65536)]⟩]⟩,
  -- SRV_TOK_MAX
  ⟨0xB08, 1, 4, .kernel, false, [⟨23, 0, .rw, 1024, [(1, 16777215)]⟩]⟩ ] ++
  [
  -- SRV_CHUNK
  ⟨0xB0C, 1, 4, .kernel, false, [⟨21, 0, .rw, 512, [(1, 2097152)]⟩]⟩,
  -- SRV_PAGES_MAX
  ⟨0xB10, 1, 4, .kernel, false, [⟨15, 0, .rw, 256, [(1, 65535)]⟩]⟩,
  -- SRV_KV_NEAR
  ⟨0xB14, 1, 4, .kernel, false, [⟨31, 0, .rw, 4294967295, []⟩]⟩,
  -- SRV_KV_FAR
  ⟨0xB18, 1, 4, .kernel, false, [⟨31, 0, .rw, 4294967295, []⟩]⟩,
  -- SRV_PREFILL_RES
  ⟨0xB1C, 1, 4, .kernel, false, [⟨23, 0, .rw, 0, []⟩]⟩,
  -- SRV_RO_BASE_LO
  ⟨0xB20, 1, 4, .kernel, true, [⟨31, 0, .rw, 0, []⟩]⟩,
  -- SRV_RO_BASE_HI
  ⟨0xB24, 1, 4, .kernel, false, [⟨31, 0, .rw, 0, []⟩]⟩,
  -- SRV_STEP
  ⟨0xB28, 1, 4, .device, false, [⟨31, 0, .ro, 0, []⟩]⟩,
  -- SRV_STAT
  ⟨0xB2C, 1, 4, .kernel, false, [⟨0, 0, .ro, 0, []⟩, ⟨1, 1, .ro, 0, []⟩, ⟨2, 2, .ro, 0, []⟩, ⟨3, 3, .w1c, 0, []⟩, ⟨4, 4, .w1c, 0, []⟩]⟩,
  -- SRV_CLASS_CAP
  ⟨0xB30, 4, 4, .kernel, false, [⟨15, 0, .rw, 65535, []⟩, ⟨31, 16, .rw, 65535, []⟩]⟩,
  -- SRV_POOL0_CTL
  ⟨0xB40, 1, 4, .kernel, false, [⟨0, 0, .rw, 0, []⟩, ⟨5, 1, .rw, 0, [(4, 26)]⟩]⟩,
  -- SRV_POOL0_FREE
  ⟨0xB44, 1, 4, .live, false, [⟨26, 0, .ro, 0, []⟩]⟩,
  -- SRV_POOL0_LOW
  ⟨0xB48, 1, 4, .kernel, false, [⟨26, 0, .rw, 0, []⟩]⟩,
  -- SRV_POOL0_BASE_LO
  ⟨0xB50, 1, 4, .kernel, true, [⟨31, 0, .rw, 0, []⟩]⟩,
  -- SRV_POOL0_BASE_HI
  ⟨0xB54, 1, 4, .kernel, false, [⟨31, 0, .rw, 0, []⟩]⟩,
  -- SRV_POOL0_PUSH_LO
  ⟨0xB58, 1, 4, .kernel, true, [⟨31, 0, .wo, 0, []⟩]⟩,
  -- SRV_POOL0_PUSH_HI
  ⟨0xB5C, 1, 4, .kernel, false, [⟨31, 0, .wo, 0, []⟩]⟩,
  -- SRV_POOL1_CTL
  ⟨0xB60, 1, 4, .kernel, false, [⟨0, 0, .rw, 0, []⟩, ⟨5, 1, .rw, 0, [(4, 26)]⟩]⟩,
  -- SRV_POOL1_FREE
  ⟨0xB64, 1, 4, .live, false, [⟨26, 0, .ro, 0, []⟩]⟩,
  -- SRV_POOL1_LOW
  ⟨0xB68, 1, 4, .kernel, false, [⟨26, 0, .rw, 0, []⟩]⟩,
  -- SRV_POOL1_BASE_LO
  ⟨0xB70, 1, 4, .kernel, true, [⟨31, 0, .rw, 0, []⟩]⟩,
  -- SRV_POOL1_BASE_HI
  ⟨0xB74, 1, 4, .kernel, false, [⟨31, 0, .rw, 0, []⟩]⟩,
  -- SRV_POOL1_PUSH_LO
  ⟨0xB78, 1, 4, .kernel, true, [⟨31, 0, .wo, 0, []⟩]⟩,
  -- SRV_POOL1_PUSH_HI
  ⟨0xB7C, 1, 4, .kernel, false, [⟨31, 0, .wo, 0, []⟩]⟩,
  -- SRV_POOL2_CTL
  ⟨0xB80, 1, 4, .kernel, false, [⟨0, 0, .rw, 0, []⟩, ⟨5, 1, .rw, 0, [(4, 26)]⟩]⟩ ] ++
  [
  -- SRV_POOL2_FREE
  ⟨0xB84, 1, 4, .live, false, [⟨26, 0, .ro, 0, []⟩]⟩,
  -- SRV_POOL2_LOW
  ⟨0xB88, 1, 4, .kernel, false, [⟨26, 0, .rw, 0, []⟩]⟩,
  -- SRV_POOL2_BASE_LO
  ⟨0xB90, 1, 4, .kernel, true, [⟨31, 0, .rw, 0, []⟩]⟩,
  -- SRV_POOL2_BASE_HI
  ⟨0xB94, 1, 4, .kernel, false, [⟨31, 0, .rw, 0, []⟩]⟩,
  -- SRV_POOL2_PUSH_LO
  ⟨0xB98, 1, 4, .kernel, true, [⟨31, 0, .wo, 0, []⟩]⟩,
  -- SRV_POOL2_PUSH_HI
  ⟨0xB9C, 1, 4, .kernel, false, [⟨31, 0, .wo, 0, []⟩]⟩,
  -- SRV_POOL3_CTL
  ⟨0xBA0, 1, 4, .kernel, false, [⟨0, 0, .rw, 0, []⟩, ⟨5, 1, .rw, 0, [(4, 26)]⟩]⟩,
  -- SRV_POOL3_FREE
  ⟨0xBA4, 1, 4, .live, false, [⟨26, 0, .ro, 0, []⟩]⟩,
  -- SRV_POOL3_LOW
  ⟨0xBA8, 1, 4, .kernel, false, [⟨26, 0, .rw, 0, []⟩]⟩,
  -- SRV_POOL3_BASE_LO
  ⟨0xBB0, 1, 4, .kernel, true, [⟨31, 0, .rw, 0, []⟩]⟩,
  -- SRV_POOL3_BASE_HI
  ⟨0xBB4, 1, 4, .kernel, false, [⟨31, 0, .rw, 0, []⟩]⟩,
  -- SRV_POOL3_PUSH_LO
  ⟨0xBB8, 1, 4, .kernel, true, [⟨31, 0, .wo, 0, []⟩]⟩,
  -- SRV_POOL3_PUSH_HI
  ⟨0xBBC, 1, 4, .kernel, false, [⟨31, 0, .wo, 0, []⟩]⟩,
  -- SRV_SEQ_MISS
  ⟨0xBC0, 1, 8, .counter, true, [⟨47, 0, .ro, 0, []⟩]⟩,
  -- SRV_SKIP_PAGE
  ⟨0xBC8, 1, 8, .counter, true, [⟨47, 0, .ro, 0, []⟩]⟩,
  -- SRV_SKIP_LIMIT
  ⟨0xBD0, 1, 8, .counter, true, [⟨47, 0, .ro, 0, []⟩]⟩,
  -- SRV_SPILLED
  ⟨0xBD8, 1, 8, .counter, true, [⟨47, 0, .ro, 0, []⟩]⟩,
  -- QOS_LIMIT
  ⟨0xC00, 4, 4, .live, false, [⟨15, 0, .ro, 0, []⟩, ⟨31, 16, .ro, 0, []⟩]⟩,
  -- QOS_HOLD_CNT
  ⟨0xC40, 8, 8, .counter, true, [⟨47, 0, .ro, 0, []⟩]⟩,
  -- QOS_MISS_CNT
  ⟨0xC80, 8, 8, .counter, true, [⟨47, 0, .ro, 0, []⟩]⟩,
  -- PWR_BLT_RES
  ⟨0xD00, 1, 4, .live, false, [⟨8, 0, .ro, 0, []⟩, ⟨15, 12, .ro, 0, []⟩, ⟨24, 16, .ro, 0, []⟩]⟩,
  -- PWR_BLT_SHARE
  ⟨0xD04, 1, 4, .live, false, [⟨11, 0, .ro, 0, []⟩, ⟨23, 12, .ro, 0, []⟩]⟩,
  -- PWR_BLT_LINK
  ⟨0xD08, 1, 4, .live, false, [⟨11, 0, .ro, 0, []⟩, ⟨12, 12, .ro, 0, []⟩, ⟨13, 13, .ro, 0, []⟩]⟩,
  -- SEC_BLT_STAT
  ⟨0xE00, 1, 4, .live, false, [⟨0, 0, .ro, 0, []⟩, ⟨1, 1, .ro, 0, []⟩, ⟨2, 2, .ro, 0, []⟩, ⟨3, 3, .ro, 0, []⟩]⟩,
  -- SEC_BLT_REGIONS
  ⟨0xE04, 1, 4, .live, false, [⟨12, 0, .ro, 0, []⟩, ⟨28, 16, .ro, 0, []⟩]⟩ ] ++
  [
  -- SEC_PB_NONCE
  ⟨0xE10, 8, 4, .kernel, false, [⟨31, 0, .rw, 0, []⟩]⟩,
  -- SEC_PB_DEST_LO
  ⟨0xE30, 1, 4, .kernel, true, [⟨31, 0, .rw, 0, []⟩]⟩,
  -- SEC_PB_DEST_HI
  ⟨0xE34, 1, 4, .kernel, false, [⟨31, 0, .rw, 0, []⟩]⟩,
  -- SEC_PB_CTL
  ⟨0xE38, 1, 4, .kernel, false, [⟨0, 0, .wo, 0, []⟩, ⟨1, 1, .rw, 0, []⟩]⟩,
  -- SEC_PB_STAT
  ⟨0xE3C, 1, 4, .kernel, false, [⟨0, 0, .ro, 0, []⟩, ⟨1, 1, .w1c, 0, []⟩, ⟨7, 4, .ro, 0, []⟩]⟩,
  -- TRC_BASE_LO
  ⟨0xF00, 1, 4, .kernel, true, [⟨31, 0, .rw, 0, []⟩]⟩,
  -- TRC_BASE_HI
  ⟨0xF04, 1, 4, .kernel, false, [⟨31, 0, .rw, 0, []⟩]⟩,
  -- TRC_CTL
  ⟨0xF08, 1, 4, .kernel, false, [⟨0, 0, .rw, 0, []⟩, ⟨5, 1, .rw, 7, [(7, 20)]⟩]⟩,
  -- TRC_HEAD
  ⟨0xF0C, 1, 4, .device, false, [⟨31, 0, .ro, 0, []⟩]⟩,
  -- TRC_TAIL
  ⟨0xF10, 1, 4, .kernel, false, [⟨31, 0, .rw, 0, []⟩]⟩,
  -- TRC_SEL
  ⟨0xF14, 1, 4, .kernel, false, [⟨6, 0, .rw, 0, []⟩]⟩,
  -- TRC_MARKS
  ⟨0xF18, 1, 4, .live, false, [⟨31, 0, .rw, 0, []⟩]⟩,
  -- TRC_DROP
  ⟨0xF20, 1, 8, .counter, true, [⟨47, 0, .ro, 0, []⟩]⟩,
  -- BLT_INC_FIRST
  ⟨0x1000, 1, 4, .kernel, false, [⟨15, 0, .ro, 0, []⟩, ⟨27, 16, .ro, 0, []⟩, ⟨31, 31, .w1c, 0, []⟩]⟩,
  -- BLT_INC_LAST
  ⟨0x1004, 1, 4, .device, false, [⟨27, 0, .ro, 0, []⟩]⟩,
  -- BLT_INC_FIRST_TIME_LO
  ⟨0x1008, 1, 4, .device, true, [⟨31, 0, .ro, 0, []⟩]⟩,
  -- BLT_INC_FIRST_TIME_HI
  ⟨0x100C, 1, 4, .device, false, [⟨31, 0, .ro, 0, []⟩]⟩,
  -- BLT_INC_CNT
  ⟨0x1010, 1, 8, .counter, true, [⟨47, 0, .ro, 0, []⟩]⟩,
  -- MIR_STAT
  ⟨0x1100, 1, 4, .kernel, false, [⟨0, 0, .ro, 0, []⟩, ⟨1, 1, .ro, 0, []⟩, ⟨2, 2, .ro, 0, []⟩, ⟨3, 3, .w1c, 0, []⟩, ⟨4, 4, .w1c, 0, []⟩, ⟨5, 5, .ro, 0, []⟩]⟩,
  -- MIR_CKPT_LO
  ⟨0x1108, 1, 4, .kernel, true, [⟨31, 0, .rw, 0, []⟩]⟩,
  -- MIR_CKPT_HI
  ⟨0x110C, 1, 4, .kernel, false, [⟨31, 0, .rw, 0, []⟩]⟩,
  -- MIR_CKPT_ACK_LO
  ⟨0x1110, 1, 4, .device, true, [⟨31, 0, .ro, 0, []⟩]⟩,
  -- MIR_CKPT_ACK_HI
  ⟨0x1114, 1, 4, .device, false, [⟨31, 0, .ro, 0, []⟩]⟩ ]

/-- A Creust port (07). -/
def regsCRU : List RegDef :=
  [
  -- CRU_PORT_CTL
  ⟨0x0, 1, 4, .pf, false, [⟨0, 0, .rwl, 0, []⟩, ⟨1, 1, .wo, 0, []⟩]⟩,
  -- CRU_PORT_STAT
  ⟨0x4, 1, 4, .pf, false, [⟨2, 0, .ro, 0, []⟩, ⟨3, 3, .ro, 0, []⟩, ⟨4, 4, .w1c, 0, []⟩, ⟨5, 5, .w1c, 0, []⟩]⟩,
  -- CRU_PEER
  ⟨0x8, 1, 4, .live, false, [⟨11, 0, .ro, 0, []⟩, ⟨16, 12, .ro, 0, []⟩, ⟨17, 17, .ro, 0, []⟩]⟩,
  -- CRU_LINK_DELAY
  ⟨0xC, 1, 4, .live, false, [⟨15, 0, .ro, 0, []⟩]⟩,
  -- CRU_CW_CORR
  ⟨0x10, 1, 8, .counter, true, [⟨47, 0, .ro, 0, []⟩]⟩,
  -- CRU_CW_BAD
  ⟨0x18, 1, 8, .counter, true, [⟨47, 0, .ro, 0, []⟩]⟩,
  -- CRU_REPLAY
  ⟨0x20, 1, 8, .counter, true, [⟨47, 0, .ro, 0, []⟩]⟩,
  -- CRU_RETRAIN
  ⟨0x28, 1, 8, .counter, true, [⟨47, 0, .ro, 0, []⟩]⟩,
  -- CRU_TX_FLITS
  ⟨0x30, 1, 8, .counter, true, [⟨47, 0, .ro, 0, []⟩]⟩,
  -- CRU_RX_FLITS
  ⟨0x38, 1, 8, .counter, true, [⟨47, 0, .ro, 0, []⟩]⟩ ]

/-- Creust common registers and the understudy (07, 14). -/
def regsCRUC : List RegDef :=
  [
  -- CRU_MODNUM
  ⟨0x0, 1, 4, .live, false, [⟨5, 0, .ro, 0, []⟩, ⟨11, 6, .ro, 0, []⟩]⟩,
  -- CRU_CPL_TMO
  ⟨0x4, 1, 4, .pf, false, [⟨16, 0, .rwl, 2000, [(100, 131071)]⟩]⟩,
  -- CRU_SESS_USED
  ⟨0x8, 1, 4, .live, false, [⟨14, 0, .ro, 0, []⟩]⟩,
  -- US_STAT
  ⟨0x100, 1, 4, .live, false, [⟨1, 0, .ro, 0, []⟩, ⟨3, 2, .ro, 0, []⟩, ⟨6, 4, .ro, 0, []⟩, ⟨7, 7, .ro, 0, []⟩, ⟨19, 8, .ro, 0, []⟩]⟩,
  -- US_SYNC_LEFT_LO
  ⟨0x108, 1, 4, .live, true, [⟨31, 0, .ro, 0, []⟩]⟩,
  -- US_SYNC_LEFT_HI
  ⟨0x10C, 1, 4, .live, false, [⟨15, 0, .ro, 0, []⟩]⟩ ]

/-- Does the row hold a register at this offset of its block? A counter row holds the two registers of each pair. -/
def RegDef.holds (r : RegDef) (off : Nat) : Bool :=
  decide (r.off ≤ off) && decide (off < r.off + r.count * r.stride) && (off - r.off) % 4 == 0

/-- The row of a table that holds an offset. -/
def findReg (t : List RegDef) (off : Nat) : Option RegDef := t.find? (fun r => r.holds off)

/-- The table of the block at a PF BAR0 offset and the offset within it (00 block map, 07, 09). -/
def regBlock (off : Nat) : List RegDef × Nat :=
  if 0x100000 ≤ off ∧ off < 0x200000 then (regsBLT, off % 0x4000)
  else if 0x200000 ≤ off ∧ off < 0x224000 then (regsCRU, off % 0x2000)
  else if 0x224000 ≤ off ∧ off < 0x240000 then (regsCRUC, off - 0x224000)
  else match off / 0x10000 with
    | 0 => (regsGLB, off)
    | 1 => (regsHIF, off - 0x10000)
    | 2 => (regsSTU, off - 0x20000)
    | 3 => (regsPWR, off - 0x30000)
    | 4 => (regsINC, off - 0x40000)
    | 5 => (regsXLT, off - 0x50000)
    | 6 => (regsSEC, off - 0x60000)
    | 7 => (regsFWM, off - 0x70000)
    | 8 => (regsLOM, off - 0x80000)
    | 9 => (regsQOS, off - 0x90000)
    | _ => ([], off)

/-- The register row at a PF BAR0 offset. -/
def regDef (off : Nat) : Option RegDef := findReg (regBlock off).1 (regBlock off).2

/-- A mask of the bits of a field. -/
def FieldDef.mask (f : FieldDef) : Nat := (2 ^ (f.hi + 1 - f.lo) - 1) * 2 ^ f.lo

/-- The field's bits of a word. -/
def FieldDef.get (f : FieldDef) (w : Nat) : Nat := w / 2 ^ f.lo % 2 ^ (f.hi + 1 - f.lo)

/-- The word with the field's bits replaced. -/
def FieldDef.put (f : FieldDef) (w v : Nat) : Nat := w - f.get w * 2 ^ f.lo + v % 2 ^ (f.hi + 1 - f.lo) * 2 ^ f.lo

/-- The reset word of a row. -/
def RegDef.resetWord (r : RegDef) : Word := BitVec.ofNat 32 (r.fields.foldl (fun w f => f.put w f.reset) 0)

/-- The reset word of the register at a PF BAR0 offset. -/
def regReset (off : Nat) : Word :=
  match regDef off with
  | some r => r.resetWord
  | none => 0

end Sys2Proof.Machine
end

