-- ==== Sys2Proof/Machine/Ops.lean ====
section
/-! DEFINITION. The operations that every family shares: stage-time values, registers and counters, what leaves the module,
interrupts, incident reports, bolts and tiles of the live scene. -/

namespace Sys2Proof.Machine

/-! ### Stage-time values (06 R176, R177) -/

/-- Nanoseconds in a second. -/
def giga : Nat := 1000000000

/-- Nanoseconds since 0 as a stage-time value: seconds in [63:30], nanoseconds in [29:0] (06 R176). -/
def packTime (n : Nat) : DWord := BitVec.ofNat 64 (n / giga * 2 ^ 30 + n % giga)

/-- Does the nanosecond field hold a legal encoding? (06 R176) -/
def timeOk (w : DWord) : Bool := decide (w.toNat % 2 ^ 30 < giga)

/-- A stage-time value in nanoseconds since 0. -/
def unpackTime (w : DWord) : Nat := w.toNat / 2 ^ 30 * giga + w.toNat % 2 ^ 30

/-- A time in the layout of STU_TIME_LO (06 R176). -/
def timeLo (n : Nat) : Nat := (packTime n).toNat % 2 ^ 32

/-- The stage time, in nanoseconds. -/
def State.now (s : State) : Nat := s.stu.time

/-- The stage time as a 64-bit value. -/
def State.time (s : State) : DWord := packTime s.now

/-! ### Words and bits -/

/-- Bits `hi` to `lo` of a number. -/
def bits (w hi lo : Nat) : Nat := w / 2 ^ lo % 2 ^ (hi + 1 - lo)

/-- Bit `k` of a number. -/
def bit (w k : Nat) : Bool := w / 2 ^ k % 2 == 1

/-- 1 for true. -/
def b2n (b : Bool) : Nat := if b then 1 else 0

/-- A signed number in `n` bits of two's complement. -/
def ofInt (n : Nat) (v : Int) : Nat := (BitVec.ofInt n v).toNat

/-- The signed value of the low `n` bits. -/
def toSigned (n v : Nat) : Int := (BitVec.ofNat n v).toInt

/-- The map of entry `k` of a list changed by `f`. -/
def setAt {α : Type} (l : List α) (k : Nat) (v : α) : List α := l.set k v

/-! ### Registers (00 R5, R6) -/

/-- The word stored in the register at a PF BAR0 offset. -/
def State.reg (s : State) (off : Nat) : Nat := (mget (regReset off) s.regs off).toNat

/-- Stores a word in the register at a PF BAR0 offset. -/
def State.setReg (s : State) (off v : Nat) : State :=
  { s with regs := mset (regReset off) s.regs off (BitVec.ofNat 32 v) }

/-- Sets bits of a register. -/
def State.orReg (s : State) (off v : Nat) : State := s.setReg off (s.reg off ||| v)

/-- Clears bits of a register. -/
def State.clrReg (s : State) (off v : Nat) : State := s.setReg off (s.reg off - (s.reg off &&& v))

/-- The 64-bit value of a pair of registers. -/
def State.reg64 (s : State) (off : Nat) : Nat := s.reg off + 2 ^ 32 * s.reg (off + 4)

/-- Stores a 64-bit value in a pair of registers. -/
def State.setReg64 (s : State) (off v : Nat) : State := (s.setReg off v).setReg (off + 4) (v / 2 ^ 32)

/-- The PF BAR0 offset of a register of a bolt window (00 block map). -/
def blt (b off : Nat) : Nat := 0x100000 + 0x4000 * b + off

/-- The PF BAR0 offset of a register of a Creust port (07). -/
def cru (p off : Nat) : Nat := 0x200000 + 0x2000 * p + off

/-- The largest value of a 48-bit counter. -/
def ctrMax : Nat := 2 ^ 48 - 1

/-- Adds `n` events: the counter stays at its largest value, and an event that finds it there sets SAT (14 R452). -/
def Ctr.add (c : Ctr) (n : Nat) : Ctr :=
  if c.val + n ≤ ctrMax then { c with val := c.val + n } else ⟨ctrMax, true⟩

/-- The counter whose `_LO` register is at a PF BAR0 offset. -/
def State.ctr (s : State) (off : Nat) : Ctr := mget Ctr.reset s.ctrs off

/-- Adds `n` events to a counter (14 R452). -/
def State.bump (s : State) (off n : Nat) : State :=
  { s with ctrs := mset Ctr.reset s.ctrs off ((s.ctr off).add n) }

/-- Sets a bit of a function's GLB_ERR_STATUS: 0 UNIMPL, 1 WIDTH, 2 LOCKED_WR, 3 RSV_ENC (00 R6). -/
def State.setErr (s : State) (fn : Fn) (k : Nat) : State :=
  if fn = 0 then s.orReg 0x40 (2 ^ k)
  else { s with vfErr := mset 0 s.vfErr fn.val (mget 0 s.vfErr fn.val ||| BitVec.ofNat 32 (2 ^ k)) }

/-! ### What leaves the module -/

/-- Records something that leaves the module. -/
def State.emit (s : State) (o : Out) : State := { s with out := o :: s.out }

/-- The next free-value draw. -/
def State.draw (s : State) : State × Nat := ({ s with freeCtr := s.freeCtr + 1 }, s.freeCtr)

/-- The module number: 6 low bits from the strap, 6 high bits from the booth (00 R10, 07 R253). -/
def State.modNum (s : State) : Nat := bits s.pins.strap.toNat 12 7 + 64 * s.fw.modHi.toNat

/-! ### Interrupts (09 R294) -/

/-- The key of word `w` of vector `v` of a function's MSI-X table in `regs`. -/
def msixKey (fn v w : Nat) : Nat := if fn = 0 then 0x8000 + 16 * v + 4 * w else 2 ^ 26 + 0x1000 * fn + 16 * v + 4 * w

/-- Is a vector of a function masked by its table entry? -/
def State.msixMasked (s : State) (fn v : Nat) : Bool := bit (s.reg (msixKey fn v 3)) 0

/-- A function's PCI state. -/
def State.fnSt (s : State) (fn : Nat) : FnSt := mget FnSt.reset s.fns fn

/-- Does the function exist on the link: the PF, or a VF while VF Enable is set (09 R289)? -/
def State.fnOn (s : State) (fn : Nat) : Bool := fn == 0 || s.pci.vfEnable

/-- Does the function hold a vector's message pending: in D3hot (09 R287), or with MSI-X disabled or masked for the function or
the vector? -/
def State.msixHeld (s : State) (fn v : Nat) : Bool :=
  (s.fnSt fn).d3hot || !(s.fnSt fn).msixEn || (s.fnSt fn).msixMask || s.msixMasked fn v

/-- Sends an MSI-X message, or holds it pending (09 R287). A halted device sends none (14 R457), none leaves while PERST0_n
holds the link down (15 R486), and a VF that is not enabled has none. -/
def State.msix (s : State) (fn v : Nat) : State :=
  if s.inc.halted || !s.pins.perst0N || !s.fnOn fn then s
  else if s.msixHeld fn v then
    { s with fns := mset FnSt.reset s.fns fn { s.fnSt fn with msixPend := v :: (s.fnSt fn).msixPend.erase v } }
  else s.emit (.msix fn v)

/-! ### Bolts and tiles of the live scene -/

/-- A bolt's record in a scene. -/
def Scene.bolt? (c : Scene) (b : Nat) : Option BoltRec := c.bolts.find? (fun r => r.bolt == b)

/-- A bolt's record: the live scene's or, while DRAINING, the old scene's. -/
def State.bolt? (s : State) (b : Nat) : Option BoltRec :=
  match s.loom.live.bolt? b with
  | some r => some r
  | none => s.loom.old.bind (fun c => c.bolt? b)

/-- The function that serves a bolt (09 R285): its VF, or the PF. -/
def State.boltFn (s : State) (b : Nat) : Nat := ((s.bolt? b).map (fun r => r.vf)).getD 0

/-- The bolt that a VF serves in the live scene, while VF Enable is set. -/
def State.fnBolt (s : State) (fn : Nat) : Option Nat :=
  if fn = 0 ∨ !s.pci.vfEnable then none else (s.loom.live.bolts.find? (fun r => r.vf == fn)).map (fun r => r.bolt)

/-! ### Firmware cores (13 R418, R421) -/

/-- Is a firmware core serving? 0–7 stagehands, 8–9 house processor. -/
def State.serving (s : State) (n : Nat) : Bool := (mget FwCore.reset s.fw.cores n).mode == .running

/-! ### Requests to host memory (05 R142; 09 R288) -/

/-- Requester ID of the companion function on half 1. -/
def companion : Nat := 64

/-- The function whose requester ID a space-4 request of a bolt carries (05 R142): its VF, or the PF; with HOSTW set to x8/x8
the companion function for a bolt of the PF with an odd number (09 R288). Bolt 64 stands for the PF itself. -/
def State.hostFn (s : State) (b : Nat) : Nat :=
  if 64 ≤ b then 0
  else if bit s.pins.strap.toNat 2 && s.boltFn b == 0 && b % 2 == 1 then companion
  else s.boltFn b

/-- Is the link half that carries a bolt's space-4 requests up? (09 R288) -/
def State.hostPath (s : State) (b : Nat) : Bool := if s.hostFn b = companion then s.pins.perst1N else s.pins.perst0N

/-- A write to host memory in a bolt's name. One whose link half is down is lost: a posted write has no completion. -/
def State.hostWrite (s : State) (b addr : Nat) (data : List Byte) : State :=
  if s.hostPath b then s.emit (.hostWrite (s.hostFn b) b addr data) else s

/-- Is the bolt LEGACY? (14 R455) -/
def State.legacy (s : State) (b : Nat) : Bool := ((s.bolt? b).map (fun r => r.legacy)).getD false

/-- A tile. -/
def State.tile (s : State) (t : Nat) : Tile := mget Tile.reset s.tiles t

/-- Replaces a tile. -/
def State.setTile (s : State) (t : Nat) (v : Tile) : State := { s with tiles := mset Tile.reset s.tiles t v }

/-- Changes a tile. -/
def State.updTile (s : State) (t : Nat) (f : Tile → Tile) : State := s.setTile t (f (s.tile t))

/-- The tile entry of a site as it stands (08 R262, R281). -/
def State.member (s : State) (t : Nat) : Option TileEnt := mget none s.loom.members t

/-- The bolt of a tile site. -/
def State.tileBolt (s : State) (t : Nat) : Option Nat := (s.member t).map (fun e => e.bolt)

/-- The sites of a bolt's tiles, ascending. -/
def State.boltTiles (s : State) (b : Nat) : List Nat :=
  s.loom.members.filterMap (fun e => match e.2 with
    | some t => if t.bolt == b then some e.1 else none
    | none => none)

/-- The tiles of a bolt but those that have just joined it and wait, idle, for its next step boundary (08 R281). -/
def State.activeTiles (s : State) (b : Nat) : List Nat := (s.boltTiles b).filter (fun t => (s.tile t).run != .idle)

/-! ### Member timers of reductions (04 R133) -/

/-- The clock of the member timers of a bolt's reductions: stage time less what it stood still. -/
def State.redNow (s : State) (b : Nat) : Nat :=
  let c := mget (none, 0) s.redClk b
  (match c.1 with
   | some t => t
   | none => s.now) - c.2

/-- The clock stands still while any tile of the bolt is in hold or in a gated slot. -/
def State.redTimers (s : State) (b : Nat) : State :=
  let c := mget (none, 0) s.redClk b
  let still := (s.boltTiles b).any (fun t => (s.tile t).hold || (s.tile t).gated)
  match c.1, still with
  | none, true => { s with redClk := mset (none, 0) s.redClk b (some s.now, c.2) }
  | some t, false => { s with redClk := mset (none, 0) s.redClk b (none, c.2 + (s.now - t)) }
  | _, _ => s

/-- A bolt's context slot. -/
def State.ctx (s : State) (b : Nat) : Ctx := mget Ctx.reset s.ctxs b

/-- Replaces a bolt's context slot. -/
def State.setCtx (s : State) (b : Nat) (v : Ctx) : State := { s with ctxs := mset Ctx.reset s.ctxs b v }

/-- Changes a bolt's context slot. -/
def State.updCtx (s : State) (b : Nat) (f : Ctx → Ctx) : State := s.setCtx b (f (s.ctx b))

/-- Signals a bolt event (09 R294): vector 1 of the bolt's VF, or vector 192 + b of the PF. -/
def State.boltEvent (s : State) (b : Nat) : State :=
  if s.boltFn b = 0 then s.msix 0 (192 + b) else s.msix (s.boltFn b) 1

/-- Signals the guarantee source of a bolt (09 R294). -/
def State.guarEvent (s : State) (b : Nat) : State :=
  if s.boltFn b = 0 then s.msix 0 (128 + b) else s.msix (s.boltFn b) 2

/-- A booth session. -/
def State.boothSess (s : State) (k : Nat) : Option BoothSess := mget none s.fw.sess k

/-- Replaces a booth session. -/
def State.setBoothSess (s : State) (k : Nat) (v : Option BoothSess) : State :=
  { s with fw := { s.fw with sess := mset none s.fw.sess k v } }

/-- Unanswered requests of a session (13 R435). -/
def BoothSess.unanswered (x : BoothSess) : Nat := x.waiting.length

/-- A response: the request's TYPE with bit 15 set (13 R434). -/
def State.replyNow (s : State) (ses ty st : Nat) (body : List Nat) : State := s.emit (.booth ses (ty + 0x8000) st body)

/-- Answers a request of a session: at once, or once every earlier request is answered (13 R435). -/
def State.reply (s : State) (ses ty st : Nat) (body : List Nat) : State :=
  match s.boothSess ses with
  | some x =>
    if x.waiting.isEmpty then s.replyNow ses ty st body
    else s.setBoothSess ses (some { x with waiting := x.waiting ++ [(ty, 64, some (st, body))] })
  | none => s.replyNow ses ty st body

/-- Notes a request of a session, about a bolt or 64, whose answer waits. -/
def State.deferReply (s : State) (ses ty key : Nat) : State :=
  match s.boothSess ses with
  | some x => s.setBoothSess ses (some { x with waiting := x.waiting ++ [(ty, key, none)] })
  | none => s

/-- The line of a session with the answer of the first such request filled in. -/
def fillAnswer (ty key : Nat) (a : Nat × List Nat) :
    List (Nat × Nat × Option (Nat × List Nat)) → List (Nat × Nat × Option (Nat × List Nat))
  | [] => []
  | e :: l => if e.1 = ty ∧ e.2.1 = key ∧ e.2.2.isNone then (ty, key, some a) :: l else e :: fillAnswer ty key a l

/-- The answers that stand at the head of a line go out; what still waits. -/
def State.answerLine (s : State) (ses : Nat) :
    List (Nat × Nat × Option (Nat × List Nat)) → State × List (Nat × Nat × Option (Nat × List Nat))
  | (ty, _, some a) :: l => (s.replyNow ses ty a.1 a.2).answerLine ses l
  | l => (s, l)

/-- Gives a session a new line, of which what can go out does. -/
def State.advanceLine (s : State) (ses : Nat) (x : BoothSess) (l : List (Nat × Nat × Option (Nat × List Nat))) : State :=
  let r := s.answerLine ses l
  r.1.setBoothSess ses (some { x with waiting := r.2 })

/-- Answers a request that has waited, if its session is still there. -/
def State.lateReply (s : State) (ses ty key st : Nat) (body : List Nat) : State :=
  match s.boothSess ses with
  | some x => s.advanceLine ses x (fillAnswer ty key (st, body) x.waiting)
  | none => s

/-- SEC_PB_STAT of a playbill interface: the PF's, or that of bolt window `who - 1` (12 R406). -/
def pbStat (who : Nat) : Nat := if who = 0 then 0x6013C else blt (who - 1) 0xE3C

/-- Playbill requests for a bolt being stopped are answered PB_BUSY_STRIKE (12 R402, R407): with nothing written. -/
def State.pbRefuse (s : State) (b : Nat) : State :=
  let gone := s.sec.pb.filter (fun p => p.bolt == some b)
  let s := { s with sec := { s.sec with pb := s.sec.pb.filter (fun p => p.bolt != some b) } }
  gone.foldl (fun s (p : PbReq) =>
    if 65 ≤ p.who then s.lateReply (p.who - 65) 0x60 b 0 [1]
    else s.setReg (pbStat p.who) 0x12) s

/-- States in which a playbill for the bolt is refused (12 R407). -/
def CtxMode.stops (m : CtxMode) : Bool :=
  match m with
  | .resetting | .striking | .teardown => true
  | _ => false

/-- Changes CTX_STAT.STATE; a change is a bolt event (09 R294). A stop refuses the bolt's playbill requests. -/
def State.setCtxMode (s : State) (b : Nat) (m : CtxMode) : State :=
  if (s.ctx b).mode = m then s
  else
    let s := (s.updCtx b (fun c => { c with mode := m })).boltEvent b
    if m.stops then s.pbRefuse b else s

/-! ### Incident reports (14 R441 to R449) -/

/-- Unit IDs (14 R443). -/
def unitHost : Nat := 0x2A0
def unitSec : Nat := 0x2C0
def unitHp : Nat := 0x2C1
def unitStu : Nat := 0x2D0
def unitPwr : Nat := 0x2D1
def unitInc : Nat := 0x2F8
def unitAudit : Nat := 0x2F9
/-- Stagehand n. -/
def unitSh (n : Nat) : Nat := 0x2B0 + n
/-- HBM3E channel c. -/
def unitChan (c : Nat) : Nat := 0x100 + c
/-- Creust port p. -/
def unitPort (p : Nat) : Nat := 0x280 + p
/-- CXL port c. -/
def unitCxl (c : Nat) : Nat := 0x2A1 + c
/-- Bridge n. -/
def unitBridge (n : Nat) : Nat := 0x2E0 + n
/-- Translation unit n, 4 for the proscenium die. -/
def unitXlt (n : Nat) : Nat := 0x2F0 + n

/-- A source's state at INC. -/
def State.src (s : State) (u : Nat) : IncSrc := mget IncSrc.reset s.inc.src u

/-- Replaces a source's state. -/
def State.setSrc (s : State) (u : Nat) (v : IncSrc) : State :=
  { s with inc := { s.inc with src := mset IncSrc.reset s.inc.src u v } }

/-- Counts a dropped report of a source (14 R447). -/
def State.dropReport (s : State) (u : Nat) : State :=
  let c := s.src u
  let s := s.setSrc u { c with drops := min (c.drops + 1) (2 ^ 32 - 1), dropCnt := c.dropCnt.add 1 }
  let s := { s with inc := { s.inc with
    ovCount := s.inc.ovCount + 1
    ovUnit := match s.inc.ovUnit with
      | some x => some x
      | none => some u } }
  (s.bump 0x40018 1).orReg 0x40000 1

/-- A source reports an incident (14 R441, R445, R447, R449): its first and last registers take the report; the report waits
in the source's slot, or, when that slot is taken, is dropped and counted. A class 4 report is never dropped. -/
def State.reportAt (s : State) (scene : Word) (u code cls : Nat) (b : Option Nat) (a0 a1 a2 : Nat) : State :=
  let c := s.src u
  let full := cls * 4096 + code
  let view : Nat × Option Nat × DWord := (full, b, s.time)
  let c := { c with
    last := some view
    first := match c.first with
      | some x => some x
      | none => some view }
  let r : Incident := {
    cls := cls, code := code, unit_ := u, bolt := b, fatal := false, scene := scene, seq := 0, time := s.time,
    arg0 := BitVec.ofNat 64 a0, arg1 := BitVec.ofNat 64 a1, arg2 := BitVec.ofNat 64 a2,
    module_ := s.modNum, drops := 0 }
  if cls = 4 then s.setSrc u { c with pend4 := c.pend4 ++ [r] }
  else match c.pend with
    | none => s.setSrc u { c with pend := some r }
    | some _ => (s.setSrc u c).dropReport u

/-- A report that concerns no request: its scene is the live scene (14 R441). -/
def State.report (s : State) (u code cls : Nat) (b : Option Nat) (a0 a1 a2 : Nat) : State :=
  s.reportAt s.loom.live.num u code cls b a0 a1 a2

/-! ### Cues and steps of a bolt (06 R195, R206) -/

/-- Disarms every slot of a bolt without firing (06 R195). -/
def State.disarmBolt (s : State) (b : Nat) : State :=
  { s with cues := s.cues.filter (fun e => match e.2 with
      | some c => decide (65280 ≤ e.1) || c.record.bolt.toNat != b
      | none => false) }

/-- Argument 1 and 2 of GUARANTEE_VOID (06 incident table). -/
def StepRec.voidArgs (r : StepRec) (now : Nat) : Nat × Nat :=
  match r.start with
  | some st => ((now - st) % 2 ^ 32, timeLo r.deadline)
  | none => ((now - r.admitted) % 2 ^ 32, r.bound % 2 ^ 32)

/-- Raises GUARANTEE_VOID for one step (06 R206). -/
def State.reportVoid (s : State) (b cause u : Nat) (r : StepRec) : State :=
  let a := r.voidArgs s.now
  s.report u 0x0A8 0 (some b) (b + 2 ^ 8 * r.cls + 2 ^ 16 * cause + 2 ^ 20 * b2n r.start.isNone) a.1 a.2

/-- Voids the guaranteed steps of a bolt that satisfy `p`: an event that finds one counts once in GUAR_VOID_CNT; each step
not yet void is marked, GUARANTEE_VOID is raised for it and the guarantee source is signalled (06 R206, R207). A guaranteed
step behind one of these is then void for cause 0xC. -/
def State.voidWhere (s : State) (b cause u : Nat) (p : StepRec → Bool) : State :=
  let hit := fun (r : StepRec) => r.guar && p r
  let st := (s.ctx b).steps
  if st.any hit then
    let fresh := st.filter (fun r => hit r && !r.voided)
    let s := s.updCtx b (fun c => { c with steps := c.steps.map (fun r => if hit r then { r with voided := true } else r) })
    let s := s.bump (blt b 0x940) 1
    if fresh.isEmpty then s
    else
      let s := (s.orReg (blt b 0x928) 1).guarEvent b
      let s := fresh.foldl (fun s r => s.reportVoid b cause u r) s
      let behind := fun (r : StepRec) => r.guar && !r.voided && fresh.any (fun x => decide (x.seq < r.seq))
      let rest := (s.ctx b).steps.filter behind
      if rest.isEmpty then s
      else
        let s := s.updCtx b (fun c => { c with steps := c.steps.map (fun r => if behind r then { r with voided := true } else r) })
        let s := (s.bump (blt b 0x940) 1).guarEvent b
        rest.foldl (fun s r => s.reportVoid b 0xC unitStu r) s
  else s

/-- Voids every guaranteed undelivered step of a bolt. -/
def State.voidSteps (s : State) (b cause u : Nat) : State := s.voidWhere b cause u (fun _ => true)

/-! ### The hardware part of a bolt reset (14 R454, R455) -/

/-- A tile stops issuing and its queued descriptors are discarded (14 R454 step 1). A tensor tile stopped in its commit stays
until the reset completes, when its destination becomes undefined (03 R97). -/
def Tile.stopAll (t : Tile) : Tile :=
  { t with
    run := .stopped
    streams := t.streams.filterMap (fun e => match e.2.queue with
      | h :: _ => if h.phase = .committing then some (e.1, { e.2 with queue := [h] }) else none
      | [] => none) }

/-- Is a bolt being reset, torn down or struck? -/
def State.stopping (s : State) (b : Nat) : Bool :=
  match (s.ctx b).mode with
  | .resetting | .teardown | .striking => true
  | _ => false

/-- Changes every tile of a list of sites. -/
def State.mapTiles (s : State) (l : List Nat) (f : Tile → Tile) : State := l.foldl (fun s t => s.updTile t f) s

/-- Is the request a mirrored write? -/
def CrReq.isMirror (r : CrReq) : Bool :=
  match r.owner with
  | .mirror _ => true
  | _ => false

/-- Requests in flight of a bolt are abandoned: their responses will be discarded (14 R454 step 1). Mirroring goes on (14
R467). -/
def State.abandonReqs (s : State) (b : Nat) : State :=
  { s with
    reqs := s.reqs.filter (fun e => match e.2 with
      | some r => r.bolt != b || r.isMirror
      | none => false)
    hostReads := s.hostReads.filter (fun e => match e.2 with
      | some r => r.bolt != b
      | none => false)
    fwGot := s.fwGot.filter (fun g => g.need.bolt != b)
    fwHeld := s.fwHeld.filter (fun n => n.bolt != b)
    loom := { s.loom with inflight := mset 0 (mset 0 s.loom.inflight b 0) (64 + b) 0 } }

/-- The part of a bolt reset, or of a context teardown for a LEGACY bolt, that hardware performs at the cause: the tiles
stop, descriptors and requests are abandoned, the cue slots are disarmed, and CTX_STAT shows RESETTING or TEARDOWN. -/
def State.boltStop (s : State) (b code : Nat) : State :=
  match s.bolt? b with
  | none => s
  | some r =>
    match (s.ctx b).mode with
    | .resetting | .teardown | .striking => s
    | _ =>
      let s := (s.mapTiles (s.boltTiles b) Tile.stopAll).abandonReqs b
      let s := s.disarmBolt b
      let s := s.updCtx b (fun c => { c with busySince := s.now, busyCode := code })
      s.setCtxMode b (if r.legacy then .teardown else .resetting)

/-- An incident of class 2 or above that names a bolt: a bolt event is signalled (09 R294), its steps are void for cause 5,
and class 2 and 3 reset it (06 R206, 14 R453). -/
def State.boltFail (s : State) (b u cls code : Nat) : State :=
  let s := (s.boltEvent b).voidSteps b 5 u
  if cls = 2 ∨ cls = 3 then s.boltStop b (cls * 4096 + code) else s

/-- Raises an incident: reports it and takes the device's response on the bolt it names (14 R453). -/
def State.raiseAt (s : State) (scene : Word) (u code cls : Nat) (b : Option Nat) (a0 a1 a2 : Nat) : State :=
  let s := s.reportAt scene u code cls b a0 a1 a2
  match b with
  | some x => if 2 ≤ cls then s.boltFail x u cls code else s
  | none => s

/-- Raises an incident under the live scene. -/
def State.raise (s : State) (u code cls : Nat) (b : Option Nat) (a0 a1 a2 : Nat) : State :=
  s.raiseAt s.loom.live.num u code cls b a0 a1 a2

/-- Two 32-bit words that show a list of bolts as bits. -/
def boltBits (l : List Nat) : Nat × Nat :=
  ((l.filter (fun b => decide (b < 32))).eraseDups.foldl (fun a b => a + 2 ^ b) 0,
   (l.filter (fun b => decide (32 ≤ b))).eraseDups.foldl (fun a b => a + 2 ^ (b - 32)) 0)

/-- Does the device answer commands other than its halt's? A halted device does nothing else (14 R457); a device in reset
or without power does nothing at all (15 R483 to R485). -/
def State.live (s : State) : Bool := !s.inc.halted && s.pins.inReset.isNone && s.pins.resetN && s.pins.pwrGood

end Sys2Proof.Machine
end

