-- ==== Sys2Proof/Machine/Seal.lean ====
section
/-! DEFINITION. Protected regions: their keys, the ciphertext of veiled and sealed memory, the counters, MACs and trees of sealed units, and
the metadata caches of the edge stops and CXL ports (12_security.md R376, R379 to R392). The contents of a keyed region are held as
plaintext; what stands in the memory's own cells is `storedUnit` and `storedSide` of it. -/

namespace Sys2Proof.Machine

/-! ### Addresses -/

/-- Module field of a fabric address. -/
def faMod (fa : Nat) : Nat := fa / 2 ^ 52 % 2 ^ 12
/-- Space field. -/
def faSpace (fa : Nat) : Nat := fa / 2 ^ 49 % 8
/-- Offset within the space. -/
def faOff (fa : Nat) : Nat := fa % 2 ^ 49
/-- A fabric address. -/
def mkFa (m sp off : Nat) : Nat := m * 2 ^ 52 + sp * 2 ^ 49 + off

/-- Bytes of a channel: 3 GiB. -/
def chanBytes : Nat := 3 * 2 ^ 30
/-- Bytes of space 0: 1,152 GiB. -/
def hbmBytes : Nat := 384 * chanBytes
/-- Bytes of a spool: 16 MiB. -/
def spoolBytes : Nat := 2 ^ 24

/-! ### Regions (08 R264, 12 R380 to R384) -/

/-- A region with its index. -/
def regionFrom (sp off : Nat) : List Region → Nat → Option (Nat × Region)
  | [], _ => none
  | r :: rs, i =>
    if faSpace r.base = sp ∧ faOff r.base ≤ off ∧ off < faOff r.base + r.size then some (i, r) else regionFrom sp off rs (i + 1)

/-- The region of the live scene that holds an address of a space of this module. -/
def State.region? (s : State) (sp off : Nat) : Option (Nat × Region) := regionFrom sp off s.loom.live.regions 0

/-- The sealed unit that holds an address: its start and size (12 R383). -/
def sealedUnit (r : Region) (sp off : Nat) : Nat × Nat :=
  let lo := faOff r.base
  let hi := lo + r.size
  if sp = 0 then
    let cl := off / chanBytes * chanBytes
    let ch := cl + chanBytes
    (max lo cl, min hi ch - max lo cl)
  else (lo, r.size)

/-- Does an address lie in a sealed unit's side area, its top 1/32? (12 R384) -/
def inSideArea (r : Region) (sp off : Nat) : Bool :=
  r.mode == .sealed &&
    (let u := sealedUnit r sp off
     decide (u.1 + (u.2 - u.2 / 32) ≤ off))

/-- The protection mode code of an address: 0 clear, 1 veiled, 2 sealed, 3 side area (05 R148, 12 R384). -/
def State.modeAt (s : State) (sp off : Nat) : Nat :=
  match s.region? sp off with
  | none => 0
  | some (_, r) =>
    if inSideArea r sp off then 3
    else match r.mode with
      | .clear => 0
      | .veiled => 1
      | .sealed => 2

/-- Points of `[off, off + len)` where the protection mode may change: its start, and where regions and side areas begin and
regions end. -/
def State.modePoints (s : State) (sp off len : Nat) : List Nat :=
  off :: (s.loom.live.regions.flatMap (fun r =>
    if faSpace r.base ≠ sp then []
    else
      let lo := faOff r.base
      let u := sealedUnit r sp (max lo off)
      [lo, lo + r.size, u.1 + (u.2 - u.2 / 32)])).filter (fun a => decide (off < a ∧ a < off + len))

/-- Has every byte of a range one protection mode? -/
def State.allMode (s : State) (sp off len mode : Nat) : Bool := (s.modePoints sp off len).all (fun a => s.modeAt sp a == mode)

/-- The protection mode of an address under a scene's regions, 0 clear, 1 veiled, 2 sealed (08 R264). -/
def Scene.modeAt (c : Scene) (sp off : Nat) : Nat :=
  match regionFrom sp off c.regions 0 with
  | none => 0
  | some (_, r) => match r.mode with
    | .clear => 0
    | .veiled => 1
    | .sealed => 2

/-- Starts and ends of a scene's regions within a range of a space. -/
def Scene.regionEnds (c : Scene) (sp off len : Nat) : List Nat :=
  (c.regions.flatMap (fun r => if faSpace r.base ≠ sp then [] else [faOff r.base, faOff r.base + r.size])).filter
    (fun a => decide (off < a ∧ a < off + len))

/-- A region's keying state. -/
def State.regRun (s : State) (i : Nat) : RegRun := mget RegRun.reset s.sec.regions i

/-- Replaces a region's keying state. -/
def State.setRegRun (s : State) (i : Nat) (v : RegRun) : State :=
  { s with sec := { s.sec with regions := mset RegRun.reset s.sec.regions i v } }

/-- A fresh key from SEC's generator (12 R376). -/
def State.newKey (s : State) : State × Nat :=
  ({ s with sec := { s.sec with nextKey := s.sec.nextKey + 1 } }, s.sec.nextKey)

/-! ### Ciphertext (12 R382, R386) -/

/-- A key of a region's key set, by its draw: 0 and 1 the XTS pair, or 0 K_enc and 2 K_tree (12 R376). -/
def regionKey (id part : Nat) : List Byte := leBytes 32 (Config.regionKey id part).toNat

/-- A unit of 64 bytes of a veiled region at an offset from its base, as it stands in memory (12 R382). -/
def veiledUnit (id off : Nat) (plain : List Byte) : List Byte := xtsEncrypt (regionKey id 0) (regionKey id 1) (off / 64) plain

/-- The counter block of 12 R386, its bytes from bit 0 on (00 R3). -/
def sealCtr (word : Nat) (mac : Bool) (index minor major : Nat) : List Byte :=
  leBytes 16 (word + 2 ^ 5 * b2n mac + 2 ^ 6 * index + 2 ^ 40 * minor + 2 ^ 47 * major)

/-- The keystream of a block of 512 bytes: 32 words of 16 bytes (12 R386). -/
def sealStream (id index minor major : Nat) : List Byte :=
  (List.range 32).flatMap (fun w => aes256 (regionKey id 0) (sealCtr w false index minor major))

/-- A sealed block as it stands in memory. -/
def sealedBlock (id index minor major : Nat) (plain : List Byte) : List Byte := xorBytes plain (sealStream id index minor major)

/-- The MAC of a block over its ciphertext (12 R386): the low 64 bits are the first 8 bytes (DEDUCED, log 122). -/
def blockMac (id index minor major : Nat) (cipher : List Byte) : List Byte :=
  let h := ghashBlock (aes256 (regionKey id 0) (List.replicate 16 0))
  let y := ghash h ((blocksOf cipher).map ghashBlock ++ [ghashBlock (beBytes 8 0 ++ beBytes 8 (8 * cipher.length))])
  (xorBytes (beBytes 16 y.toNat) (aes256 (regionKey id 0) (sealCtr 0 true index minor major))).take 8

/-- A tree entry: the MAC of a child of 64 bytes (12 R386). -/
def treeMac (id unit_ level index : Nat) (child : List Byte) : List Byte :=
  (hmacSha256 (regionKey id 2) (leBytes 2 unit_ ++ leBytes 1 level ++ leBytes 4 index ++ child)).take 8

/-! ### Sealed units (12 R383, R384) -/

/-- Number of the unit that holds an address: its channel, or 0x1FF in CXL (12 R386). -/
def unitNo (sp off : Nat) : Nat := if sp = 0 then off / chanBytes else 0x1FF

/-- Bytes of data of a unit of a size. -/
def unitData (size : Nat) : Nat := size - size / 32

/-- The levels of a tree above `n` nodes: the least number that leaves at most eight. -/
def treeLevels : Nat → Nat → Nat
  | 0, _ => 0
  | f + 1, n => if n ≤ 8 then 0 else 1 + treeLevels f ((n + 7) / 8)

/-- Levels of the tree of a unit of a size: level 0 is its counter lines, of four groups each. -/
def unitLevels (size : Nat) : Nat := treeLevels 64 ((unitData size / 4096 + 3) / 4)

/-- Nodes of a level of a unit's tree. -/
def levelNodes (size : Nat) : Nat → Nat
  | 0 => (unitData size / 4096 + 3) / 4
  | k + 1 => (levelNodes size k + 7) / 8

/-- Offset of a metadata line in the side area (12 R384): the MAC array, the group records, then the tree level by level. -/
def sideOffset (size : Nat) (kind : MetaKind) (index : Nat) : Nat :=
  let d := unitData size
  match kind with
  | .mac => 64 * index
  | .tree 0 => d / 64 + 64 * index
  | .tree (k + 1) => d / 64 + d / 256 + 64 * ((List.range k).foldl (fun n j => n + levelNodes size (j + 1)) 0 + index)

/-- A group's record as it stands in a counter line (12 R385). -/
def groupBytes (x : GroupRec) : List Byte :=
  leBytes 8 x.major
    ++ leBytes 8 ((x.minors.zipIdx.foldl (fun n m => n + m.1 * 2 ^ (7 * m.2)) 0) + 2 ^ 56 * b2n x.gen + 2 ^ 57 * b2n x.i)

/-- The counter line of four groups from group `g` on. -/
def RegRun.counterLine (r : RegRun) (g : Nat) : List Byte :=
  (List.range 4).flatMap (fun k => groupBytes (mget GroupRec.reset r.groups (g + k)))

/-- A metadata line as SEC writes it with the side areas: every group uninitialised, and the tree over that (12 R380). -/
def initLine (id unit_ : Nat) : Nat → Nat → List Byte
  | 0, _ => leBytes 64 0
  | k + 1, i => (List.range 8).flatMap (fun j => treeMac id unit_ k (8 * i + j) (initLine id unit_ k (8 * i + j)))

/-! ### Sealed counters (12 R385 to R392) -/

/-- The parity of the current generation of a region. -/
def RegRun.parity (r : RegRun) : Bool := r.gen % 2 == 1

/-- Moves a group to the new key during REKEY: MAJOR and minors 0, GEN flipped, its eight blocks sealed (12 R392). -/
def RegRun.moveGroup (r : RegRun) (g : Nat) : RegRun :=
  let x := mget GroupRec.reset r.groups g
  if r.st = .rekey ∧ x.i ∧ x.gen ≠ r.parity then
    { r with
      groups := mset GroupRec.reset r.groups g ⟨0, [0, 0, 0, 0, 0, 0, 0, 0], r.parity, true⟩
      sealedCount := r.sealedCount + 8
      moved := r.moved + 1 }
  else r

/-- Seals block `k` of a group for a write: the first write to an uninitialised group seals all eight; a write that finds
MINOR at 127 raises MAJOR, clears the minors and seals all eight; any other raises the block's MINOR (12 R385, R388, R390). -/
def RegRun.sealBlock (r : RegRun) (g k : Nat) : RegRun :=
  let r := r.moveGroup g
  let x := mget GroupRec.reset r.groups g
  if !x.i then
    { r with
      groups := mset GroupRec.reset r.groups g ⟨x.major, [1, 1, 1, 1, 1, 1, 1, 1], r.parity, true⟩
      sealedCount := r.sealedCount + 8 }
  else if x.minors.getD k 0 = 127 then
    { r with
      groups := mset GroupRec.reset r.groups g { x with major := x.major + 1, minors := [0, 0, 0, 0, 0, 0, 0, 0] }
      sealedCount := r.sealedCount + 8 }
  else
    { r with
      groups := mset GroupRec.reset r.groups g { x with minors := setAt x.minors k (x.minors.getD k 0 + 1) }
      sealedCount := r.sealedCount + 1 }

/-- Must the region enter REKEY for the blocks sealed under its key? (12 R391) -/
def RegRun.full (r : RegRun) : Bool := r.st == .ready && decide (2 ^ 43 ≤ r.sealedCount)

/-- Would a write of `n` blocks from `off` on take a group's MAJOR past 2^64 − 1? The region then enters REKEY before the write (12 R391). -/
def RegRun.wouldPass (r : RegRun) (off n : Nat) : Bool :=
  r.st == .ready && (List.range n).any (fun k =>
    let x := mget GroupRec.reset r.groups ((off + 512 * k) / 4096)
    x.i && x.major == 2 ^ 64 - 1 && x.minors.getD ((off + 512 * k) / 512 % 8) 0 == 127)

/-- The region enters REKEY under a new key, and SEC_REKEY is raised (12 R392). -/
def State.beginRekey (s : State) (i b : Nat) : State :=
  let k := s.newKey
  let r := k.1.regRun i
  let s := k.1.setRegRun i { r with
    st := .rekey, gen := r.gen + 1, oldKey := r.key, key := some k.2, oldCount := r.sealedCount, sealedCount := 0, moved := 0 }
  s.raise unitSec 0x162 0 (some b) i 1 (r.sealedCount % 2 ^ 32)

/-- Seals the blocks from `off` on that a write of `n` blocks covers. -/
def RegRun.sealRange (r : RegRun) (off : Nat) : Nat → RegRun
  | 0 => r
  | n + 1 => (r.sealBlock (off / 4096) (off / 512 % 8)).sealRange (off + 512) n

/-- The key under which a group is sealed: that of its generation (12 R392). -/
def RegRun.groupKey (r : RegRun) (g : Nat) : Nat :=
  ((if (mget GroupRec.reset r.groups g).gen = r.parity then r.key else r.oldKey).getD 0)

/-! ### The metadata caches (12 R387) -/

/-- The metadata cache that serves an address: of edge stops 0 to 47, or of the CXL ports 48 and 49. -/
def State.metaStop (s : State) (sp off : Nat) : Nat :=
  if sp = 0 then off / chanBytes / 8
  else 48 + (((s.loom.live.decs.find? (fun d => decide (d.base ≤ off ∧ off < d.base + d.size))).map (fun d => d.port)).getD 0)

/-- Lines of a metadata cache, the last used first. -/
def State.metaLines (s : State) (stop : Nat) : List MetaLine := mget [] s.metaCache stop

/-- Replaces them. -/
def State.setMeta (s : State) (stop : Nat) (l : List MetaLine) : State := { s with metaCache := mset [] s.metaCache stop l }

/-- Is a line cached? -/
def State.metaHas (s : State) (stop : Nat) (k : MetaKey) : Bool := (s.metaLines stop).any (fun l => l.key == k)

/-- A line as it stands in memory: as it was last written back, or as the side areas were first written. -/
def State.sideLine (s : State) (q : RegRun) (k : MetaKey) : List Byte :=
  match s.sideArea.find? (fun l => l.key == k), k.kind with
  | some l, _ => l.bytes
  | none, .mac => leBytes 64 0
  | none, .tree n => initLine (q.tree.getD 0) k.unit_ n k.index

/-- Uses a line, fetched if it is not cached, and changes it. -/
def State.metaUse (s : State) (stop : Nat) (q : RegRun) (k : MetaKey) (f : MetaLine → MetaLine) : State :=
  let l := s.metaLines stop
  match l.find? (fun x => x.key == k) with
  | some x => s.setMeta stop (f x :: l.filter (fun y => y.key != k))
  | none => s.setMeta stop (f ⟨k, s.sideLine q k, false⟩ :: l)

/-- Bytes of a metadata line with those from `off` on replaced. -/
def patch (l : List Byte) (off : Nat) (b : List Byte) : List Byte := l.take off ++ b ++ l.drop (off + b.length)

/-- Writes a dirty line back, after its parent's entry, or the unit's root, has been recomputed; the parent is fetched when it is not
cached, and is dirty (12 R387). `i` is the region's index, `top` the number of levels of the unit's tree. -/
def State.writeBack (s : State) (stop i top : Nat) (l : MetaLine) : State :=
  let q := s.regRun i
  let s := { s with sideArea := l :: s.sideArea.filter (fun x => x.key != l.key) }
  match l.key.kind with
  | .mac => s
  | .tree n =>
    let m := treeMac (q.tree.getD 0) l.key.unit_ n l.key.index l.bytes
    if top ≤ n then s.setRegRun i { q with roots := mset none q.roots (8 * l.key.unit_ + l.key.index) (some (leNat m)) }
    else s.metaUse stop q { l.key with kind := .tree (n + 1), index := l.key.index / 8 }
      (fun x => { x with bytes := patch x.bytes (8 * (l.key.index % 8)) m, dirty := true })

/-- Evicts lines beyond the 2,048 that a cache of 128 KiB holds, the least recently used first (the spec names no order: DESIGN CHOICE,
log 122). A line of a region that is no more has no key. -/
def State.metaTrim (s : State) (stop : Nat) : Nat → State
  | 0 => s
  | n + 1 =>
    let l := s.metaLines stop
    if l.length ≤ 2048 then s
    else match l.getLast? with
      | none => s
      | some x =>
        let s := s.setMeta stop l.dropLast
        let s := match s.loom.live.regions.findIdx? (fun r => r.base == x.key.region), x.dirty with
          | some i, true => (match s.loom.live.regions[i]? with
            | some r => s.writeBack stop i (unitLevels (sealedUnit r (faSpace r.base) (max (faOff r.base) (chanBytes * x.key.unit_))).2) x
            | none => s)
          | _, _ => s
        s.metaTrim stop n

/-- Where a block of a sealed region keeps its metadata: the stop, the keys of its MAC line, its counter line and that line's ancestors,
from the first level on. -/
structure BlockMeta where
  stop : Nat
  mac : MetaKey
  counter : MetaKey
  up : List MetaKey

/-- The metadata of the block that holds an address of a region. -/
def State.blockMeta (s : State) (r : Region) (sp off : Nat) : BlockMeta :=
  let u := sealedUnit r sp off
  let no := unitNo sp off
  let g := (off - u.1) / 4096
  { stop := s.metaStop sp off
    mac := ⟨r.base, no, .mac, g⟩
    counter := ⟨r.base, no, .tree 0, g / 4⟩
    up := (List.range (unitLevels u.2)).map (fun k => ⟨r.base, no, .tree (k + 1), g / 4 / 8 ^ (k + 1)⟩) }

/-- The ancestors of a counter line that an access fetches: those below the first that is cached; none when the line is cached. -/
def State.metaMissing (s : State) (m : BlockMeta) : List MetaKey :=
  if s.metaHas m.stop m.counter then [] else m.up.takeWhile (fun k => !s.metaHas m.stop k)

/-- Fetches what a block's access needs, checked, into the cache (12 R387, R388). -/
def State.metaFetch (s : State) (q : RegRun) (m : BlockMeta) : State :=
  let need := s.metaMissing m
  let s := need.foldl (fun s k => s.metaUse m.stop q k id) s
  (s.metaUse m.stop q m.counter id).metaUse m.stop q m.mac id

/-- A block is read: its metadata are in the cache. -/
def State.readBlock (s : State) (sp off : Nat) : State :=
  match s.region? sp off with
  | some (i, r) =>
    if r.mode = .sealed then
      let m := s.blockMeta r sp off
      (s.metaFetch (s.regRun i) m).metaTrim m.stop 64
    else s
  | none => s

/-- The blocks of a range are read. -/
def State.readBlocks (s : State) (sp off : Nat) : Nat → State
  | 0 => s
  | n + 1 => (s.readBlock sp off).readBlocks sp (off + 512) n

/-- A range of a space of this module is read: its metadata, where it is sealed, enter the cache of its stop (12 R387, R388). -/
def State.readMeta (s : State) (sp off len : Nat) : State :=
  if 1 < sp ∨ len = 0 then s else s.readBlocks sp (off / 512 * 512) ((off + len - 1) / 512 - off / 512 + 1)

/-- Does an access to an address fetch the node of a level of its tree, 0 being its counter line? A cached node is trusted, and so is
what lies above it (12 R387). -/
def State.fetchesLevel (s : State) (sp off level : Nat) : Bool :=
  match s.region? sp off with
  | some (_, r) =>
    let m := s.blockMeta r sp off
    r.mode == .sealed && (if level = 0 then !s.metaHas m.stop m.counter else (s.metaMissing m).any (fun k => k.kind == .tree level))
  | none => false

/-- A sealed group as it stands in memory, and the MACs of its eight blocks, from its 4 KiB of plaintext (12 R386). -/
def RegRun.groupCipher (q : RegRun) (g index : Nat) (plain : List Byte) : List (List Byte × List Byte) :=
  let x := mget GroupRec.reset q.groups g
  (List.range 8).map (fun k =>
    let minor := x.minors.getD k 0
    let c := sealedBlock (q.groupKey g) (index + k) minor x.major ((plain.drop (512 * k)).take 512)
    (c, blockMac (q.groupKey g) (index + k) minor x.major c))

/-- The plaintext of a memory, apart from the state's other spaces. -/
def State.cells (s : State) (sp : Nat) : Mem := if sp = 0 then s.hbm else s.cxl

/-- A group has been sealed: its MAC line and counter line are updated in the cache, and they and the ancestors are dirty (12 R387). -/
def State.sealGroup (s : State) (i : Nat) (r : Region) (sp off : Nat) : State :=
  let q := s.regRun i
  let g := off / 4096
  let m := s.blockMeta r sp off
  let u := sealedUnit r sp off
  let first := u.1 / 4096 + (off - u.1) / 4096 / 4 * 4
  let c := q.groupCipher g ((4096 * g - faOff r.base) / 512) ((s.cells sp).bytes (4096 * g) 4096)
  let s := s.metaFetch q m
  let s := s.metaUse m.stop q m.counter (fun x => { x with bytes := q.counterLine first, dirty := true })
  let s := s.metaUse m.stop q m.mac (fun x => { x with bytes := c.flatMap (fun y => y.2), dirty := true })
  (s.setMeta m.stop ((s.metaLines m.stop).map (fun x => if m.up.contains x.key then { x with dirty := true } else x))).metaTrim m.stop 64

/-- The groups of a range of a sealed region have been sealed. -/
def State.sealGroups (s : State) (i : Nat) (r : Region) (sp off : Nat) : Nat → State
  | 0 => s
  | n + 1 => (s.sealGroup i r sp off).sealGroups i r sp (off + 4096) n

/-- The cached and stored metadata of a region go with its keys. -/
def State.dropMeta (s : State) (base : Nat) : State :=
  { s with
    sideArea := s.sideArea.filter (fun l => l.key.region != base)
    metaCache := (s.metaCache.map (fun e => (e.1, e.2.filter (fun l => l.key.region != base)))).filter (fun e => e.2 != []) }

/-- The counters' part of a write of `len` bytes to a sealed region. -/
def State.sealWrite (s : State) (sp off len : Nat) : State :=
  match s.region? sp off with
  | some (i, r) =>
    if r.mode = .sealed ∧ 0 < len then
      let n := (off + len - 1) / 512 - off / 512 + 1
      let s := if (s.regRun i).wouldPass (off / 512 * 512) n then s.beginRekey i r.bolt else s
      let q := (s.regRun i).sealRange (off / 512 * 512) n
      let s := (s.setRegRun i q).sealGroups i r sp (off / 4096 * 4096) ((off + len - 1) / 4096 - off / 4096 + 1)
      if q.full then s.beginRekey i r.bolt else s
    else s
  | none => s

/-! ### What stands in memory (12 R382, R384, R386) -/

/-- The 64 bytes at an aligned address of a memory as the bus carries them. -/
def State.storedUnit (s : State) (sp off : Nat) : List Byte :=
  let plain := (s.cells sp).bytes off 64
  match s.region? sp off with
  | none => plain
  | some (i, r) =>
    let q := s.regRun i
    match r.mode with
    | .clear => plain
    | .veiled => (match q.key with
      | some k => veiledUnit k (off - faOff r.base) plain
      | none => plain)
    | .sealed =>
      if (mget GroupRec.reset q.groups (off / 4096)).i then
        let c := q.groupCipher (off / 4096) ((4096 * (off / 4096) - faOff r.base) / 512) ((s.cells sp).bytes (4096 * (off / 4096)) 4096)
        (((c.flatMap (fun y => y.1)).drop (off % 4096)).take 64)
      else plain

/-- A metadata line of a sealed unit as it stands in its side area, at `sideOffset`. -/
def State.storedSide (s : State) (k : MetaKey) : List Byte :=
  match s.loom.live.regions.findIdx? (fun r => r.base == k.region) with
  | some i => s.sideLine (s.regRun i) k
  | none => []

end Sys2Proof.Machine
end

