-- ==== Sys2Proof/Machine/Fabric.lean ====
section
/-! DEFINITION. The fabric address space of the module (05 R141): its spaces, channels, regions and rights, and the
performing of reads and writes, with coded regions (14 R474) and the mirror stream (14 R462). -/

namespace Sys2Proof.Machine

/-! ### Spaces -/

/-- Is a site live (not dark)? (04 R110) -/
def State.siteLive (s : State) (t : Nat) : Bool := decide (t < 256) && !s.fw.dark.contains t

/-- Does a list of ranges (base, size) cover `[off, off + len)`, together? Their first gap, if any, begins at `off` or at an end
of one of them. -/
def spansAll (l : List (Nat × Nat)) (off len : Nat) : Bool :=
  (off :: (l.map (fun r => r.1 + r.2)).filter (fun a => decide (off < a ∧ a < off + len))).all
    (fun a => l.any (fun r => decide (r.1 ≤ a ∧ a < r.1 + r.2)))

/-- Is a range of space 1 covered by the decoders of a scene, one or several? (05 R141, 08 R263) -/
def Scene.decoded (c : Scene) (off len : Nat) : Bool := spansAll (c.decs.map (fun d => (d.base, d.size))) off len

/-- Is a range a valid part of a space of this module? (05 R141) -/
def State.inSpace (s : State) (sp off len : Nat) : Bool :=
  match sp with
  | 0 => decide (off + len ≤ hbmBytes)
  | 1 => s.loom.live.decoded off len || ((s.loom.old.map (fun c => c.decoded off len)).getD false)
  | 2 => s.siteLive (off / 2 ^ 24 % 256) && decide (off < 2 ^ 32) && decide (off % spoolBytes + len ≤ spoolBytes)
  | 4 => true
  | _ => false

/-- Is a channel in service? (05 R173) -/
def State.chanUp (s : State) (c : Nat) : Bool := bit (s.reg (0x200 + 4 * (c / 32))) (c % 32)

/-! ### Rights (08 R256) -/

/-- May bolt `b` access a range of a space of this module under a scene's isolation tables, for a request that arrives from
module `src`? -/
def Scene.allows (c : Scene) (me b src sp off len : Nat) (rd wr at_ : Bool) : Bool :=
  let bound := src == me || c.bindings.any (fun k => k.bolt == b && k.peer == src)
  let own := match sp with
    | 0 =>
        let c0 := off / chanBytes
        let c1 := (off + (len - 1)) / chanBytes
        (match mget none c.channels c0, mget none c.channels c1 with
         | some x, some y => x.bolt == b && y.bolt == b
         | _, _ => false)
    | 1 => spansAll ((c.wins.filter (fun w => w.bolt == b)).map (fun w => (w.base, w.size))) off len
    | 2 =>
        (match mget none c.tiles (off / 2 ^ 24 % 256) with
         | some x => x.bolt == b
         | none => false)
    | 4 => src == me
    | _ => false
  let granted := c.grants.any (fun g =>
    g.bolt == b && (g.srcMod == src || (g.srcMod == 0xFFF && bound))
    && (!rd || g.read) && (!wr || g.write) && (!at_ || g.atomic)
    && faSpace g.base == sp && decide (faOff g.base ≤ off ∧ off + len ≤ faOff g.base + g.size))
  (bound && own) || granted

/-- Bytes of a sealed group not written since the region was keyed read as 0 (12 R385); the others as stored. -/
def State.sealedRead (s : State) (sp off : Nat) (raw : Byte) : Byte :=
  match s.region? sp off with
  | some (i, r) => if r.mode = .sealed ∧ !(mget GroupRec.reset (s.regRun i).groups (off / 4096)).i then 0 else raw
  | none => raw

/-! ### The mirror stream (14 R462) -/

/-- Is a link up? -/
def State.portUp (s : State) (p : Nat) : Bool := (mget CrPort.reset s.ports p).mode == .up

/-- Does this module mirror its writes to an address: the lead, or the understudy that was promoted? (R462, R468) -/
def State.mirrored (s : State) (sp off : Nat) : Option Nat :=
  match s.region? sp off with
  | some (_, r) =>
    if r.redund = .mirrored ∧ (s.twin.mode = .paired ∨ s.twin.mode = .syncing)
      ∧ s.twin.roleEff = 1 ∧ !s.twin.unmirrored.contains r.bolt
    then some r.bolt else none
  | none => none

/-- Does the understudy keep this bolt for its twin? (R462, R466) -/
def State.twinTarget (s : State) (b : Nat) : Bool :=
  s.twin.roleEff == 2 && s.twin.mode != .promoted && ((s.bolt? b).map (fun r => r.mirror)).getD false

/-- Does the twin serve a read that the local copy cannot? (R462) -/
def State.twinServes (s : State) (sp off : Nat) : Bool := s.twin.mode == .paired && (s.mirrored sp off).isSome

/-- The port of a mirrored line: U0 for even 4 KiB pages, U1 for odd ones; the other when that link is down. -/
def State.mirrorPort (s : State) (off : Nat) : Nat :=
  let p := 16 + off / 4096 % 2
  if s.portUp p then p else 33 - p

/-- Allocates the TAG of a request. -/
def State.newTag (s : State) : State × Nat := ({ s with nextTag := (s.nextTag + 1) % 2 ^ 16 }, s.nextTag)

/-- Do two ranges share a line of 64 bytes? -/
def shareLine (off len off' len' : Nat) : Bool :=
  decide (off / 64 * 64 < off' + len') && decide (off' / 64 * 64 < off + len)

/-- Is the request a mirrored write that touches a line of a range? -/
def CrReq.mirrors (r : CrReq) (sp off len : Nat) : Bool :=
  match r.owner with
  | .mirror _ => faSpace r.addr.toNat == sp && shareLine (faOff r.addr.toNat) r.len off len
  | _ => false

/-- Is a mirrored write of a line of the range unacknowledged or waiting? -/
def State.mirrorDue (s : State) (sp off len : Nat) : Bool :=
  s.reqs.any (fun (e : Nat × Option CrReq) => match e.2 with
    | some r => r.mirrors sp off len
    | none => false)
  || s.twin.waiting.any (fun w => w.space == sp && shareLine w.off w.data.length off len)

/-- Sends a mirrored write to the twin; it is outstanding until its acknowledgement. -/
def State.emitMirror (s : State) (w : MirWrite) : State :=
  let p := s.mirrorPort w.off
  let t := s.newTag
  let q : CrReq := {
    kind := 2, dst := s.twin.twin, bolt := w.bolt, ski := 0, seq := w.seq, tc := 7, port := p, scene := s.loom.live.num,
    owner := .mirror w.bolt, addr := BitVec.ofNat 64 (mkFa s.modNum w.space w.off), dstSide := true, pos := 0,
    len := w.data.length, due := s.now + s.reg 0x224004 * 1000 }
  ({ t.1 with reqs := mset none t.1.reqs t.2 (some q) }).emit (.mirror p w.bolt w.space w.off w.data)

/-- Mirrors a write within one page: at most one unacknowledged per line (R462). -/
def State.pushMirror (s : State) (b sp off : Nat) (data : List Byte) : State :=
  let w : MirWrite := ⟨s.twin.mirSeq, b, sp, off, data⟩
  let busy := s.mirrorDue sp off data.length
  let s := { s with twin := { s.twin with mirSeq := s.twin.mirSeq + 1 } }
  if busy then { s with twin := { s.twin with waiting := s.twin.waiting ++ [w] } } else s.emitMirror w

/-- Mirrors a write, page by page of 4 KiB. -/
def State.mirrorPages (s : State) (b sp off : Nat) (data : List Byte) : Nat → State
  | 0 => s
  | n + 1 =>
    if data.isEmpty then s
    else
      let k := 4096 - off % 4096
      (s.pushMirror b sp off (data.take k)).mirrorPages b sp (off + k) (data.drop k) n

/-- The mirror stream takes a write, if the address is mirrored (R462). -/
def State.sendMirror (s : State) (sp off : Nat) (data : List Byte) : State :=
  match s.mirrored sp off with
  | none => s
  | some b => s.mirrorPages b sp off data (data.length / 4096 + 2)

/-! ### Performing reads and writes in a space of this module -/

/-- The bytes at an offset of a space, with no check: `sp` 0 HBM3E, 1 CXL, 2 spools. -/
def State.peek (s : State) (sp off n : Nat) : List Byte :=
  match sp with
  | 0 => (s.hbm.bytes off n).zipIdx.map (fun x => s.sealedRead 0 (off + x.2) x.1)
  | 1 => (s.cxl.bytes off n).zipIdx.map (fun x => s.sealedRead 1 (off + x.2) x.1)
  | 2 => (s.tile (off / 2 ^ 24 % 256)).spool.bytes (off % spoolBytes) n
  | _ => []

/-- The units of 64 bytes that `[lo, hi)` covers whole hold no error any more (05 R170). -/
def State.ueClear (s : State) (lo hi : Nat) : State :=
  { s with hbmUe := s.hbmUe.filter (fun e => !decide (lo ≤ 64 * e.1 ∧ 64 * e.1 + 64 ≤ hi)) }

/-- A unit of HBM3E holds an uncorrectable error (05 R170, R171). -/
def State.ueMark (s : State) (off : Nat) : State := { s with hbmUe := mset false s.hbmUe (off / 64) true }

/-- Does a range of a space touch a unit that holds an uncorrectable error? -/
def State.readsUe (s : State) (sp off len : Nat) : Bool :=
  sp == 0 && decide (0 < len) && s.hbmUe.any (fun e => decide (off / 64 ≤ e.1 ∧ e.1 ≤ (off + len - 1) / 64))

/-- Is an address in a sealed region? -/
def State.sealedAt (s : State) (sp off : Nat) : Bool :=
  match s.region? sp off with
  | some (_, r) => r.mode == .sealed
  | none => false

/-- Does a write of a range meet an uncorrectable error: in a unit that it covers only in part, which is read first (05 R170)? A
block of 512 bytes of a sealed region is read whole (12 R388). -/
def State.writesUe (s : State) (sp off len : Nat) : Bool :=
  let u := if s.sealedAt sp off then 512 else 64
  let hi := off + len
  (off % u != 0 && s.readsUe sp (off / u * u) u) || (hi % u != 0 && s.readsUe sp (hi / u * u) u)

/-- Writes bytes at an offset of a space, with no check, no counters and no mirror. -/
def State.pokeRaw (s : State) (sp off : Nat) (data : List Byte) : State :=
  match sp with
  | 0 => ({ s with hbm := s.hbm.store off data }).ueClear off (off + data.length)
  | 1 => { s with cxl := s.cxl.store off data }
  | 2 => s.updTile (off / 2 ^ 24 % 256) (fun t => { t with spool := t.spool.store (off % spoolBytes) data })
  | _ => s

/-- Zeros the group of a sealed region that holds an address, when it is not initialised (12 R385). -/
def State.initGroup (s : State) (sp off : Nat) : State :=
  match s.region? sp off with
  | none => s
  | some (i, r) =>
    if r.mode = RegionMode.sealed ∧ (mget GroupRec.reset (s.regRun i).groups (off / 4096)).i = false then
      if sp = 0 then
        ({ s with hbm := s.hbm.zero (off / 4096 * 4096) (off / 4096 * 4096 + 4096) }).ueClear (off / 4096 * 4096)
          (off / 4096 * 4096 + 4096)
      else { s with cxl := s.cxl.zero (off / 4096 * 4096) (off / 4096 * 4096 + 4096) }
    else s

/-- The zeros that the first write to an uninitialised group of a sealed region puts in place of the bytes it does not
write (12 R385), for `n` groups from `off` on. -/
def State.initGroups (s : State) (sp off : Nat) : Nat → State
  | 0 => s
  | n + 1 => (s.initGroup sp off).initGroups sp (off + 4096) n

/-- Performs a write at an offset of a space of this module: the bytes, the counters of a sealed region, and the mirror
stream. -/
def State.poke (s : State) (sp off : Nat) (data : List Byte) : State :=
  if data.isEmpty then s
  else
    let s := if sp = 0 ∨ sp = 1 then s.initGroups sp off ((off + data.length - 1) / 4096 - off / 4096 + 1) else s
    let s := s.pokeRaw sp off data
    let s := if sp = 0 ∨ sp = 1 then s.sealWrite sp off data.length else s
    s.sendMirror sp off data

/-- The reserved area of queues, fences and ledger: 512 MiB from HIF_RSV_BASE, once VALID (09 R291). -/
def State.inReserved (s : State) (sp off len : Nat) : Bool :=
  bit (s.reg 0x10000) 0 && sp == 0 &&
    (let base := (s.reg64 0x10000) / 2 ^ 29 * 2 ^ 29 % 2 ^ 49
     decide (base < off + len ∧ off < base + 2 ^ 29))

end Sys2Proof.Machine
end

