-- ==== Sys2Proof/Machine/HostOps.lean ====
section
/-! DEFINITION. Operations on queues, calls, fences and the object ledger (09_host_objects.md). -/

namespace Sys2Proof.Machine

/-! ### Firmware cores (13 R418, R421) -/

/-- Is no stagehand that serves bolts restarting? (06 R202, 13 R418: stagehands 0 to 4 and 7) -/
def State.boltsServed (s : State) : Bool := [0, 1, 2, 3, 4, 7].all (fun n => s.serving n)

/-- The image that runs (13 R414). -/
def State.runImg (s : State) : SlotImg := if s.fw.slot then s.fw.imgB else s.fw.imgA

/-- The image of the other slot. -/
def State.otherImg (s : State) : SlotImg := if s.fw.slot then s.fw.imgA else s.fw.imgB

/-! ### The object ledger (09 R311, R312) -/

/-- A ledger entry. -/
def State.obj (s : State) (i : Nat) : ObjSt := mget ObjSt.reset s.objs i

/-- Replaces a ledger entry. -/
def State.setObj (s : State) (i : Nat) (v : ObjSt) : State := { s with objs := mset ObjSt.reset s.objs i v }

/-- Index and generation of a handle (09 R296). -/
def hIndex (h : Nat) : Nat := h % 2 ^ 24
def hGen (h : Nat) : Nat := h / 2 ^ 24 % 2 ^ 8

/-- The freed handles of a bolt, oldest first; the first 256 stand in its FIFO. -/
def State.freedOf (s : State) (b : Nat) : List Word := mget [] s.freed b

/-- Frees an entry whose counts are both 0: the generation advances, the handle with its old generation enters the owner's
FIFO, and a bolt event is raised; a full FIFO sets FREE_STAT.FULL (09 R312). -/
def State.freeObj (s : State) (i : Nat) : State :=
  let o := s.obj i
  let h : Word := BitVec.ofNat 32 (i + 2 ^ 24 * o.gen.toNat)
  let full := decide (256 ≤ (s.freedOf o.owner).length)
  let s := s.setObj i { o with gen := o.gen + 1 }
  let s := { s with freed := mset [] s.freed o.owner (s.freedOf o.owner ++ [h]) }
  let s := if full then s.orReg (blt o.owner 0x144) 0x200 else s
  s.boltEvent o.owner

/-- Replaces the counts of an entry; the update that leaves both at 0 frees it. -/
def State.setCounts (s : State) (i host dev : Nat) : State :=
  let o := s.obj i
  let s := s.setObj i { o with host := host, dev := dev }
  if host = 0 ∧ dev = 0 ∧ (o.host ≠ 0 ∨ o.dev ≠ 0) then s.freeObj i else s

/-- Status of a handle that a call of bolt `b` names: none when good, else 3 OWNER, 4 HANDLE, 5 REFS (09 R305). A freed handle is
stale, also once its index is reusable (09, the example after R317). -/
def State.handleStatus (s : State) (b h : Nat) : Option Nat :=
  if h = 0 then none
  else
    let o := s.obj (hIndex h)
    if hIndex h = 0 ∨ (o.used ∧ o.owner ≠ b) ∨ (!o.used ∧ o.gen.toNat = hGen h) then some 3
    else if o.gen.toNat ≠ hGen h ∨ (o.host = 0 ∧ o.dev = 0) then some 4
    else if o.dev = 65535 then some 5
    else none

/-- Takes a device reference on a non-zero handle. -/
def State.takeRef (s : State) (h : Nat) : State :=
  if h = 0 then s else s.setCounts (hIndex h) (s.obj (hIndex h)).host ((s.obj (hIndex h)).dev + 1)

/-- Releases a device reference on a non-zero handle. -/
def State.dropRef (s : State) (h : Nat) : State :=
  if h = 0 then s else s.setCounts (hIndex h) (s.obj (hIndex h)).host ((s.obj (hIndex h)).dev - 1)

/-! ### Calls (09 R302 to R305) -/

/-- A queue. -/
def State.queue (s : State) (q : Nat) : QueueSt := mget QueueSt.reset s.queues q

/-- Replaces a queue. -/
def State.setQueue (s : State) (q : Nat) (v : QueueSt) : State := { s with queues := mset QueueSt.reset s.queues q v }

/-- The bolt whose queue range holds a queue. -/
def State.queueBolt (s : State) (q : Nat) : Option Nat :=
  (s.loom.live.bolts.find? (fun r => decide (r.queueBase ≤ q ∧ q < r.queueBase + r.queueCount))).map (fun r => r.bolt)

/-- Bits `hi` to `lo` of the word at byte offset `off` of a call. -/
def callBits (w : BitVec 512) (off hi lo : Nat) : Nat := bits w.toNat (8 * off + hi) (8 * off + lo)

def callOp (w : BitVec 512) : Nat := callBits w 0 7 0
def callClass (w : BitVec 512) : Nat := callBits w 0 10 8
def callIrq (w : BitVec 512) : Bool := callBits w 0 11 11 == 1
def callFen (w : BitVec 512) : Bool := callBits w 0 12 12 == 1
def callVec (w : BitVec 512) : Nat := callBits w 0 26 16
def callScene (w : BitVec 512) : Nat := callBits w 4 31 0
def callFence (w : BitVec 512) : Nat := callBits w 8 19 0
def callObjA (w : BitVec 512) : Nat := callBits w 0xC 31 0
def callFval (w : BitVec 512) : Nat := callBits w 0x10 63 0
def callObjB (w : BitVec 512) : Nat := callBits w 0x18 31 0
def callTag (w : BitVec 512) : Nat := callBits w 0x1C 31 0

/-- CUE_ARM and CUE_CANCEL hold a cue slot in OBJ_B. -/
def callHandleB (w : BitVec 512) : Nat := if callOp w = 8 ∨ callOp w = 9 then 0 else callObjB w

/-- The fabric address of ring slot `index`. -/
def QueueSt.slotFa (q : QueueSt) (index : Nat) : Nat := q.base + 64 * (index % 2 ^ q.order)

/-- Writes bytes into ring slot `index` at byte `off`. -/
def State.ringWrite (s : State) (q index off : Nat) (data : List Byte) : State :=
  let u := s.queue q
  let fa := u.slotFa index + off
  if faSpace u.base = 4 then s.hostWrite ((s.queueBolt q).getD 0) (faOff fa) data
  else s.poke (faSpace fa) (faOff fa) data

/-- A completion (09 R303): the word at 0x20 and the words after it. -/
structure Completion where
  status : Nat
  gstat : Nat
  cstat : Nat
  admitted : Bool
  done : Bool
  late : Bool
  void : Bool
  start : Bool
  aux : Nat
  sVal : Nat
  dVal : Nat
  dBound : Nat

/-- A completion of a call other than a STEP. -/
def Completion.plain (status : Nat) : Completion := ⟨status, 0, 0, false, true, false, false, false, 0, 0, 0, 0⟩

/-- The word at 0x20. -/
def Completion.word (c : Completion) : Nat :=
  c.status + 2 ^ 8 * c.gstat + 2 ^ 16 * c.cstat + 2 ^ 24 * b2n c.admitted + 2 ^ 25 * b2n c.done + 2 ^ 26 * b2n c.late
    + 2 ^ 27 * b2n c.void + 2 ^ 28 * b2n c.start

/-- Writes a completion: 0x24 to 0x3F first, the word at 0x20 last (09 R303). -/
def State.writeCompletion (s : State) (q index : Nat) (c : Completion) : State :=
  let s := s.ringWrite q index 0x24 (leBytes 4 c.aux ++ leBytes 8 c.sVal ++ leBytes 8 c.dVal ++ leBytes 8 c.dBound)
  s.ringWrite q index 0x20 (leBytes 4 c.word)

/-- The MSI-X message that a call asks for at completion. -/
def State.callIrqSend (s : State) (q : Nat) (w : BitVec 512) : State :=
  if callIrq w then s.msix (s.boltFn ((s.queueBolt q).getD 0)) (callVec w) else s

/-- Takes a call out of its queue's window. -/
def State.dropCall (s : State) (q index : Nat) : State :=
  let u := s.queue q
  s.setQueue q { u with calls := u.calls.filter (fun c => c.index != index) }

/-! ### Fences (09 R308 to R310) -/

/-- A fence. -/
def State.fence (s : State) (f : Nat) : Option FenceSt := mget none s.fences f

/-- Replaces a fence. -/
def State.setFence (s : State) (f : Nat) (v : Option FenceSt) : State := { s with fences := mset none s.fences f v }

/-- May a bolt wait on a fence? (09 R309) -/
def FenceSt.mayWait (f : FenceSt) (b : Nat) : Bool := f.owner == b || bit f.mask.toNat b

/-- The status with which a WAIT for `v` completes now, if it does (09 R309). A destroyed fence wakes as abandoned. -/
def waitStatus (f : Option FenceSt) (v : Nat) : Option Nat :=
  match f with
  | none => some 0x0D
  | some x =>
    if v ≤ x.value.toNat then (if x.status = 0 then some 0 else some 0x0E)
    else if x.mode = .abandoned then some 0x0D
    else none

/-- Fence and value of a WAIT call. -/
def waitFence (w : BitVec 512) : Nat := callBits w 0x20 19 0
def waitValue (w : BitVec 512) : Nat := callBits w 0x28 63 0

/-- The queue and call of the first waiting WAIT that is satisfied, with its status. -/
def findWake (s : State) : List (Nat × QueueSt) → Option (Nat × FetchedCall × Nat)
  | [] => none
  | (q, u) :: r =>
    match u.calls.find? (fun c => c.waiting && (waitStatus (s.fence (waitFence c.words)) (waitValue c.words)).isSome) with
    | some c => some (q, c, (waitStatus (s.fence (waitFence c.words)) (waitValue c.words)).getD 0)
    | none => findWake s r

/-- One signal at the fence unit, without its waiters (09 R308). -/
def State.fenceUpdate (s : State) (f v st : Nat) (late : Bool) : State :=
  match s.fence f with
  | none => s
  | some x =>
    match x.mode with
    | .abandoned => s
    | .exhausted => s.raise unitHost 0x101 0 (some x.owner) f 0 0
    | .live =>
      if v < x.value.toNat then
        s.raise unitHost 0x100 0 (some x.owner) f (x.value.toNat % 2 ^ 32) (v % 2 ^ 32)
      else
        let y := { x with
          value := BitVec.ofNat 64 v
          status := if st ≠ 0 ∧ x.status = 0 then st else x.status
          late := x.late || late
          mode := if v = 2 ^ 64 - 1 then FenceMode.exhausted else x.mode }
        let s := s.setFence f (some y)
        if x.mirror = 0 then s else s.hostWrite x.owner (faOff x.mirror.toNat) (leBytes 8 v)

/-- The plain end of a call: its completion, its references, its window slot. The fence and the interrupt follow. -/
def State.endCall (s : State) (q : Nat) (c : FetchedCall) (k : Completion) : State :=
  let s := s.writeCompletion q c.index k
  let s := (s.dropRef (callObjA c.words)).dropRef (callHandleB c.words)
  s.dropCall q c.index

/-- Wakes satisfied waiters one after another: each completes its WAIT, signals that call's own fence and sends its
interrupt; `n` bounds the calls that can wait. -/
def State.wake (s : State) : Nat → State
  | 0 => s
  | n + 1 =>
    match findWake s s.queues with
    | none => s
    | some (q, c, st) =>
      let s := s.endCall q c (Completion.plain st)
      let s := if callFen c.words then s.fenceUpdate (callFence c.words) (callFval c.words) st false else s
      (s.callIrqSend q c.words).wake n

/-- Calls that can wait at one time: one for each queue. -/
def maxWaits : Nat := 8193

/-- A signal to a fence: value, status and lateness; then its waiters wake (09 R308). -/
def State.signal (s : State) (f v st : Nat) (late : Bool) : State := (s.fenceUpdate f v st late).wake maxWaits

/-- Completes a call other than a STEP: completion, references, fence, interrupt (09 R303, R305). -/
def State.complete (s : State) (q : Nat) (c : FetchedCall) (k : Completion) : State :=
  let s := s.endCall q c k
  let s := if callFen c.words then s.signal (callFence c.words) (callFval c.words) k.status false else s
  s.callIrqSend q c.words

/-- Discards a call: its completion says DISCARDED; no fence, no interrupt (09 R301). -/
def State.discard (s : State) (q : Nat) (c : FetchedCall) : State := s.endCall q c (Completion.plain 0x10)

/-! ### Steps and their reserved cue slots (06 R202, 09 R307) -/

/-- The completion of a STEP as it stands. -/
def StepRec.completion (r : StepRec) (done : Bool) (status cstat now : Nat) : Completion where
  status := status
  gstat := r.noguar
  cstat := cstat
  admitted := true
  done := done
  late := done && status == 0 && (match r.start with
    | some _ => decide (r.deadline < now)
    | none => false)
  void := r.voided
  start := r.start.isSome
  aux := 0
  sVal := match r.start with
    | some t => (packTime t).toNat
    | none => 0
  dVal := match r.start with
    | some _ => (packTime r.deadline).toNat
    | none => 0
  dBound := r.bound

/-- Takes a step out of its bolt's list and releases the slots still reserved for it. -/
def State.removeStep (s : State) (b sq : Nat) : State :=
  s.updCtx b (fun c => { c with
    steps := c.steps.filter (fun r => r.seq != sq)
    reserved := c.reserved.filter (fun p => p.1 != sq) })

/-- Completes the call of a step with a status: completion, references, fence, interrupt. -/
def State.closeStep (s : State) (r : StepRec) (status cstat : Nat) : State :=
  let s := s.writeCompletion r.queue r.index (r.completion true status cstat s.now)
  let s := (s.dropRef (callObjA r.call)).dropRef (callHandleB r.call)
  let s := s.dropCall r.queue r.index
  let s := if callFen r.call then s.signal (callFence r.call) (callFval r.call) status (status == 0 && r.missed) else s
  s.callIrqSend r.queue r.call

/-- Ends a step with a status: it leaves its bolt's list, and its call completes, unless it has. -/
def State.endStep (s : State) (b : Nat) (r : StepRec) (status cstat : Nat) : State :=
  let s := s.removeStep b r.seq
  if r.held then s else s.closeStep r status cstat

/-- Completes a step whose MSI-X message its function holds: it stays undelivered until the message is sent (06 R201). -/
def State.holdStep (s : State) (b : Nat) (r : StepRec) : State :=
  (s.updCtx b (fun c => { c with steps := c.steps.map (fun x => if x.seq = r.seq then { x with held := true } else x) })).closeStep
    r 0 0

/-- Disarms the slots that a step's template armed (09 R301, 06 R202). -/
def State.disarmStep (s : State) (b sq : Nat) : State :=
  { s with cues := s.cues.filter (fun e => match e.2 with
      | some c => decide (65280 ≤ e.1) || c.record.bolt.toNat != b || c.stepSeq != some sq
      | none => false) }

/-- Every started call of a bolt completes JOB_ENDED, and every queue of the bolt enters STOPPED and keeps its ring and its
LAST; calls not started stay in the ring, to be fetched again (14 R454 step 2). -/
def State.endJob (s : State) (b : Nat) : State :=
  let s := (s.ctx b).steps.foldl (fun s r => s.endStep b r 0x11 0) s
  let s := (s.ctx b).saved.foldl (fun s v => match v.step with
    | some r => s.endStep b r 0x11 0
    | none => s) s
  let s := s.updCtx b (fun c => { c with saved := c.saved.map (fun v => { v with step := none, cues := [] }) })
  let qs := (s.queues.filter (fun e => s.queueBolt e.1 == some b)).map (fun e => e.1)
  qs.foldl (fun s q =>
    let s := ((s.queue q).calls.filter (fun c => c.started)).foldl (fun s c => s.complete q c (Completion.plain 0x11)) s
    let u := s.queue q
    if u.mode = .free then s
    else
      let s := u.calls.foldl (fun s c => (s.dropRef (callObjA c.words)).dropRef (callHandleB c.words)) s
      s.setQueue q { u with
        mode := .stopped
        head := (match u.calls with
          | c :: _ => c.index
          | [] => u.head)
        calls := [] }) s

end Sys2Proof.Machine
end

