-- ==== Sys2Proof/Machine/BoothOps.lean ====
section
/-! DEFINITION. How the booth takes a message and answers it (13_firmware_booth.md R431 to R435; 14 R457). -/

namespace Sys2Proof.Machine

/-- The house processor's unit (08 R284, 13 R440). -/
def unitHouse : Nat := 0x2C1

/-- Header statuses (R434). -/
def boothOk : Nat := 0
def boothFormat : Nat := 1
def boothRole : Nat := 2
def boothBusy : Nat := 3
def boothState : Nat := 4
def boothUnbound : Nat := 5

/-- Is the booth served: rails up, stage 2 done, the house processor running? (R425, R435) -/
def State.boothUp (s : State) : Bool :=
  s.pins.inReset.isNone && s.pins.resetN && s.pins.pwrGood && s.fw.hpUp && !s.fw.hpDown && s.serving 8 && s.serving 9

/-- Counts a refused client, and raises BOOTH_AUTH_FAIL at most once per second (R431, R440). -/
def State.authFail (s : State) (cause : Nat) : State :=
  let n := s.fw.authFails + 1
  let due : Bool := match s.fw.authAt with
    | none => true
    | some t => decide (t + giga ≤ s.now)
  if due then
    ({ s with fw := { s.fw with authFails := 0, authAt := some s.now } }).report unitHouse 0x188 0 none cause n 0
  else { s with fw := { s.fw with authFails := n } }

/-- What a message asks of its sender and of the module: its TYPE; the role, 0 any, 1 admin or operator, 2 admin; whether a
halted module serves it (14 R457) and whether an unenrolled one does (R433). -/
structure MsgRule where
  type : Nat
  need : Nat
  inHalt : Bool
  unenrolled : Bool

/-- May a role send it? -/
def MsgRule.mayRole (m : MsgRule) (r : Role) : Bool :=
  match r with
  | .admin => true
  | .operator => decide (m.need ≤ 1)
  | .audit => decide (m.need = 0)
  | .unenrolled => m.unenrolled

/-- A message of a session: the header status that refuses it (STATE too when the module is stopped in a boot stage and the
message is none of the three that R413 leaves), or `act`, which answers a header status and a body now, or
nothing while the answer waits (R432 to R435). Answers go out in the order of their requests, but for the BUSY of a request that the
session does not hold. -/
def State.message (s : State) (ses : SessId) (m : MsgRule) (act : State → State × Option (Nat × List Nat)) : State :=
  if !s.boothUp then s
  else match s.boothSess ses.val with
    | none => s
    | some x =>
      let s := s.setBoothSess ses.val (some { x with at_ := s.now })
      if 16 ≤ x.unanswered then s.replyNow ses.val m.type boothBusy []
      else if !x.hello ∧ m.type ≠ 1 then s.reply ses.val m.type boothUnbound []
      else if s.inc.halted ∧ !m.inHalt then s.reply ses.val m.type boothState []
      else if s.fw.bootStopped ∧ m.type ≠ 1 ∧ m.type ≠ 2 ∧ m.type ≠ 0x60 then s.reply ses.val m.type boothState []
      else if !m.mayRole x.role then
        (if x.role = .unenrolled then s.authFail 2 else s).reply ses.val m.type boothRole []
      else
        let r := act s
        match r.2 with
        | some a => r.1.reply ses.val m.type a.1 a.2
        | none => r.1

/-- Closes a session: staged content that it owns and that is not committed or complete is discarded (R435), and what it
waits for is answered to nobody. -/
def State.closeBooth (s : State) (ses : Nat) : State :=
  let f := s.fw
  let f := { f with sess := mset none f.sess ses none }
  let f := if f.loomOwner = some ses then { f with loomOwner := none, loomBuf := [], loomLen := 0 } else f
  let f := if f.stageOwner = some ses then { f with stageOwner := none, stageLen := 0, staged := false } else f
  { s with
    fw := f
    sec := { s.sec with pb := s.sec.pb.filter (fun p => p.who != 65 + ses) }
    ctxs := s.ctxs.map (fun e => (e.1, { e.2 with
      drain := e.2.drain.map (fun d => { d with ses := d.ses.filter (fun k => k != ses) })
      strike := e.2.strike.map (fun d => if d.ses = some ses then { d with ses := none } else d) })) }

end Sys2Proof.Machine
end

