-- ==== Sys2Proof/Machine/SceneOps.lean ====
section
/-! DEFINITION. What a scene changes of a bolt (08_loom_bolts.md R255, R282, R284). -/

namespace Sys2Proof.Machine

/-- Sites that a scene gives a bolt, ascending. -/
def Scene.sites (c : Scene) (b : Nat) : List Nat :=
  c.tiles.filterMap (fun e => match e.2 with
    | some t => if t.bolt == b then some e.1 else none
    | none => none)

/-- Tile entries of a bolt. -/
def Scene.tileEnts (c : Scene) (b : Nat) : List (Nat × Nat) :=
  c.tiles.filterMap (fun e => match e.2 with
    | some t => if t.bolt == b then some (e.1, t.order) else none
    | none => none)

/-- Channels of a bolt, ascending. -/
def Scene.chans (c : Scene) (b : Nat) : List Nat :=
  c.channels.filterMap (fun e => match e.2 with
    | some t => if t.bolt == b then some e.1 else none
    | none => none)

/-- Ports of a bolt. -/
def Scene.portsOf (c : Scene) (b : Nat) : List Nat :=
  match c.ports with
  | some l => (List.range l.length).filter (fun p => ((l[p]?).map (fun r => bit r.owners.toNat b)).getD false)
  | none => []

/-- Does a scene change the resources of a bolt? -/
def Scene.changes (a c : Scene) (b : Nat) : Bool :=
  a.bolt? b != c.bolt? b || a.tileEnts b != c.tileEnts b || a.chans b != c.chans b
  || a.wins.filter (fun w => w.bolt == b) != c.wins.filter (fun w => w.bolt == b)
  || a.portsOf b != c.portsOf b
  || a.mcast.filter (fun g => g.bolt == b) != c.mcast.filter (fun g => g.bolt == b)
  || a.red.filter (fun g => g.bolt == b) != c.red.filter (fun g => g.bolt == b)
  || a.grants.filter (fun g => g.bolt == b) != c.grants.filter (fun g => g.bolt == b)
  || a.qos.filter (fun g => g.bolt == b) != c.qos.filter (fun g => g.bolt == b)
  || a.regions.filter (fun g => g.bolt == b) != c.regions.filter (fun g => g.bolt == b)
  || a.bindings.filter (fun g => g.bolt == b) != c.bindings.filter (fun g => g.bolt == b)

/-- Bolts of two scenes. -/
def Scene.bothBolts (a c : Scene) : List Nat :=
  (a.bolts.map (fun r => r.bolt) ++ c.bolts.map (fun r => r.bolt)).eraseDups

/-- Does a step's interval, from S or its admission to D or D_bound, contain a stage time? (R282) -/
def StepRec.spansTime (r : StepRec) (t : Nat) : Bool :=
  decide ((r.start.getD r.admitted) ≤ t ∧ t ≤ r.deadline)

/-- Voids the steps of a bolt that satisfy `p` and whose intervals contain the cue of an armed scene that changes the bolt,
for cause 0xA (R282). -/
def State.voidForScene (s : State) (b : Nat) (p : StepRec → Bool) : State :=
  match s.loom.next with
  | none => s
  | some c => if s.loom.live.changes c b then s.voidWhere b 0xA unitStu (fun r => p r && r.spansTime c.fire) else s

/-- A step of a bolt by its sequence number, as it stands. -/
def State.stepOfSeq (s : State) (b : Nat) (r : StepRec) : StepRec :=
  ((s.ctx b).steps.find? (fun x => x.seq == r.seq)).getD r

end Sys2Proof.Machine
end

