-- ==== Sys2Proof/Machine/CueOps.lean ====
section
/-! DEFINITION. Operations on cue records, slots and steps (06_stage_time_cues.md R188 to R207; 09 R307). -/

namespace Sys2Proof.Machine

/-! ### Cue records (06 R189 to R191) -/

/-- A cue record from its 32 bytes, as a number (06 R189). -/
def CueRec.ofNat (w : Nat) : CueRec where
  fire := BitVec.ofNat 64 w
  action := BitVec.ofNat 8 (bits w 71 64)
  coal := bit w 72
  inc := bit w 73
  rsv1 := BitVec.ofNat 22 (bits w 95 74)
  target := BitVec.ofNat 32 (bits w 127 96)
  arg := BitVec.ofNat 64 (bits w 191 128)
  period := BitVec.ofNat 32 (bits w 223 192)
  count := BitVec.ofNat 16 (bits w 239 224)
  bolt := BitVec.ofNat 6 (bits w 245 240)
  rsv2 := BitVec.ofNat 10 (bits w 255 246)

/-- Target kind, and the fields of its kinds (06 R190). -/
def CueRec.kind (r : CueRec) : Nat := bits r.target.toNat 3 0
def CueRec.first (r : CueRec) : Nat := bits r.target.toNat 19 4
def CueRec.num (r : CueRec) : Nat := bits r.target.toNat 31 20 + 1
def CueRec.group (r : CueRec) : Nat := bits r.target.toNat 11 4
def CueRec.fenceNo (r : CueRec) : Nat := bits r.target.toNat 23 4

/-- A reserved encoding or a non-zero reserved field (06 R189 to R191; 00 R9). -/
def CueRec.malformed (r : CueRec) (owner : Nat) : Bool :=
  !timeOk r.fire || r.rsv1 != 0 || r.rsv2 != 0
  || (decide (1 ≤ r.period.toNat ∧ r.period.toNat ≤ 999)) || (r.period == 0 && r.count != 0)
  || r.bolt.toNat != owner
  || decide (6 ≤ r.kind)
  || (match r.kind with
      | 0 | 4 | 5 => bits r.target.toNat 31 4 != 0
      | 2 => bits r.target.toNat 31 12 != 0
      | 3 => bits r.target.toNat 31 24 != 0
      | _ => false)
  || (match r.action.toNat with
      | 1 | 6 => bits r.arg.toNat 63 32 != 0
      | 2 => bits r.arg.toNat 63 4 != 0
      | 3 => bits r.arg.toNat 63 8 != 0
      | 5 => bits r.arg.toNat 63 36 != 0
      | _ => false)

/-- Does the action accept the target kind? (06 R191) -/
def cueKindOk (action kind : Nat) : Bool :=
  match action with
  | 1 | 2 => kind == 0 || kind == 1
  | 3 => kind == 2
  | 4 => kind == 3
  | 5 => kind == 4
  | 6 => kind == 5
  | _ => false

/-- Tiles of the whole bolt: under the loaded blocking, else on this module from the bolt's first number on (08 R261). -/
def State.wholeTiles (s : State) (b : Nat) : Nat :=
  let here := match s.bolt? b with
    | some r => r.tileBase + r.tiles
    | none => 0
  match (s.ctx b).mode with
  | .empty => here
  | _ => max here ((((s.ctx b).blks[(s.ctx b).blk]?).map (fun k => k.tiles)).getD 0)

/-- Does the bolt own what the cue names? (06 R194 CUE_TARGET) -/
def State.cueTargetOk (s : State) (b : Nat) (r : CueRec) : Bool :=
  match r.kind with
  | 1 => decide (r.first + r.num ≤ s.wholeTiles b)
  | 2 => s.loom.live.red.any (fun g => g.group == r.group && g.bolt == b)
  | 3 =>
      (match s.fence r.fenceNo with
       | some f => f.owner == b
       | none => false)
  | _ => true

/-- An armed slot. -/
def State.cue (s : State) (k : Nat) : Option CueSlotSt := mget none s.cues k

/-- Replaces a slot. -/
def State.setCue (s : State) (k : Nat) (v : Option CueSlotSt) : State := { s with cues := mset none s.cues k v }

/-- Is a slot reserved for a step of the bolt? (09 R307) -/
def Ctx.reserves (c : Ctx) (k : Nat) : Bool := c.reserved.any (fun p => p.2 == k)

/-- The status of arming a slot of a bolt (06 R194): the first that applies. `own` is the step for which firmware arms it,
whose reservation does not make the slot busy. -/
def State.armStatus (s : State) (b k : Nat) (r : CueRec) (own : Option Nat) : Nat :=
  let inRange := match s.bolt? b with
    | some x => decide (x.cueBase ≤ k ∧ k < x.cueBase + x.cueCount)
    | none => false
  if !inRange then 1
  else if (s.cue k).isSome || (own.isNone && (s.ctx b).reserves k) then 2
  else if r.malformed b then 3
  else if r.action.toNat = 0 ∨ 6 ≤ r.action.toNat then 4
  else if !cueKindOk r.action.toNat r.kind || !s.cueTargetOk b r then 5
  else if unpackTime r.fire + giga < s.now then 6
  else 0

/-- Arms a slot that the checks accept. -/
def State.armSlot (s : State) (k : Nat) (r : CueRec) (own : Option Nat) : State :=
  s.setCue k (some { record := r, occ := 0, handed := false, lastAt := none, lastOne := false, stepSeq := own, armedAt := s.now })

/-- Fire time of the next occurrence, in nanoseconds (06 R189). -/
def CueSlotSt.fireAt (c : CueSlotSt) : Nat := unpackTime c.record.fire + c.occ * c.record.period.toNat

/-- ARG of occurrence `k`: with INC its low 16 bits advance by one each time (06 R189). -/
def CueRec.argOf (r : CueRec) (k : Nat) : Nat :=
  if r.inc then r.arg.toNat / 2 ^ 16 * 2 ^ 16 + (r.arg.toNat + k) % 2 ^ 16 else r.arg.toNat

/-- Has occurrence `k` been the last? -/
def CueSlotSt.isLast (c : CueSlotSt) (k : Nat) : Bool :=
  c.lastOne || c.record.period == 0 || (c.record.count != 0xFFFF && decide (c.record.count.toNat ≤ k))

/-- The slot after occurrence `k` has fired: free after the last (06 R189), else waiting for the next. -/
def State.afterFire (s : State) (n k : Nat) (c : CueSlotSt) : State :=
  if c.isLast k then s.setCue n none
  else s.setCue n (some { c with occ := k + 1, handed := false, lastAt := none })

/-- Cancels a slot (06 R195): at least 4 µs before the next occurrence it is disarmed; later, that occurrence still fires.
The Bool says whether it fires. -/
def State.cancelCue (s : State) (k : Nat) : State × Bool :=
  match s.cue k with
  | none => (s, false)
  | some c =>
    if s.now + 4000 ≤ c.fireAt then (s.setCue k none, false) else (s.setCue k (some { c with lastOne := true }), true)

/-- Slots of a bolt armed now (CUE_ARMED). -/
def State.armedCount (s : State) (b : Nat) : Nat :=
  (s.cues.filter (fun e => match e.2 with
    | some c => decide (e.1 < 65280) && c.record.bolt.toNat == b
    | none => false)).length

/-- The `n` lowest-numbered free slots among the `left` slots from `k` on (09 R307). -/
def freeSlots (s : State) (b : Nat) : Nat → Nat → Nat → List Nat
  | 0, _, _ => []
  | _ + 1, _, 0 => []
  | left + 1, k, n + 1 =>
    if (s.cue k).isNone && !(s.ctx b).reserves k then k :: freeSlots s b left (k + 1) n
    else freeSlots s b left (k + 1) (n + 1)

/-! ### Starting, admitting and delivering steps (06 R202, R203; 09 R307) -/

/-- The selected blocking of a bolt's context. -/
def State.blocking (s : State) (b : Nat) : Option Blocking := (s.ctx b).blks[(s.ctx b).blk]?

/-- Arms template records in reserved slots, FIRE being an offset in ns from S (09 R307); the first refusal ends it with its
status. -/
def State.armTemplate (s : State) (b sq start : Nat) : List CueRec → List Nat → State × Nat
  | r :: rs, k :: ks =>
    let r := { r with bolt := BitVec.ofNat 6 b, fire := packTime (start + r.fire.toNat) }
    let st := s.armStatus b k r (some sq)
    if st = 0 then (s.armSlot k r (some sq)).armTemplate b sq start rs ks else (s, st)
  | _, _ => (s, 0)

/-- Slots reserved for a step, ascending. -/
def Ctx.slotsOf (c : Ctx) (sq : Nat) : List Nat := (c.reserved.filter (fun p => p.1 == sq)).map (fun p => p.2)

/-- Is the bolt bound to other modules? (08 R265) -/
def State.spans (s : State) (b : Nat) : Bool := s.loom.live.bindings.any (fun k => k.bolt == b)

/-- Is this module the home of the bolt, which admits its steps (R204)? A bolt that spans no module has no other. -/
def State.atHome (s : State) (b : Nat) : Bool :=
  !s.spans b || (match s.bolt? b with
    | some r => r.home == s.modNum
    | none => true)

/-- The home module sends a step's start to every other module of the bolt's binding (R204). -/
def State.sendStart (s : State) (b : Nat) (start : DWord) : State :=
  (s.loom.live.bindings.filter (fun k => k.bolt == b)).foldl (fun s k => s.emit (.stepStart k.peer b start)) s

/-- Another module of a bolt's binding arms the template from the start that the home module has sent, in its own lowest free
slots (R188, R204). It admits no step. A refusal, or too few free slots, leaves none armed: the spec names no answer to the home
module (DESIGN CHOICE, log 106). -/
def State.farStart (s : State) (b : Nat) (start : DWord) : State :=
  match s.blocking b, s.bolt? b with
  | some k, some x =>
    let slots := freeSlots s b x.cueCount x.cueBase k.template.length
    let sq := (s.ctx b).stepSeq
    if s.atHome b || !timeOk start || slots.length != k.template.length then s
    else
      let a := s.armTemplate b sq (unpackTime start) k.template slots
      if a.2 = 0 then a.1.updCtx b (fun c => { c with stepSeq := sq + 1 }) else a.1.disarmStep b sq
  | _, _ => s

/-- Starts a step at S = now: D follows, the template is armed and the completion shows START; a refusal ends the call with
STATUS CUE (06 R202). -/
def State.startStep (s : State) (b : Nat) (r : StepRec) : State × Bool :=
  let st := max r.admitted s.now
  let r := { r with start := some st, deadline := st + r.lead + r.wcs }
  let tmpl := ((s.blocking b).map (fun k => k.template)).getD []
  let a := s.armTemplate b r.seq st tmpl ((s.ctx b).slotsOf r.seq)
  if a.2 = 0 then
    let s := a.1.updCtx b (fun c => { c with
      steps := c.steps.map (fun x => if x.seq = r.seq then r else x)
      reserved := c.reserved.filter (fun p => p.1 != r.seq) })
    let s := if (s.ctx b).mode = .ready then s.setCtxMode b .running else s
    let s := s.sendStart b (packTime st)
    let s := s.voidForScene b (fun x => x.seq == r.seq && !x.voided)
    (s.writeCompletion r.queue r.index ((s.stepOfSeq b r).completion false 0 0 s.now), true)
  else ((a.1.disarmStep b r.seq).endStep b r 0x0F a.2, false)

/-- Raises LOM_BLOCKING for a bolt whose context has no blocking for its tile count (08 R281). -/
def State.raiseBlocking (s : State) (b : Nat) : State :=
  (s.updCtx b (fun y => { y with refuseNext := false })).raise (unitSh 2) 0x0E5 3 (some b) (s.boltTiles b).length
    (2 ^ (s.ctx b).blks.length - 1) 0

/-- Starts the oldest step of the bolt when it has not started; after a refusal the step behind it starts in turn. A step that
was admitted before its bolt's tile count changed is refused with BLOCKING when the context has no blocking for the new count
(01 R24, 08 R281). -/
def State.startNext (s : State) (b : Nat) : Nat → State
  | 0 => s
  | n + 1 =>
    match (s.ctx b).steps with
    | r :: _ =>
      if r.start.isNone ∧ (s.ctx b).refuseNext then (s.endStep b r 9 0).raiseBlocking b
      else if r.start.isNone then
        let x := s.startStep b r
        if x.2 then x.1 else x.1.startNext b n
      else s
    | [] => s

end Sys2Proof.Machine
end

