-- ==== Sys2Proof/Machine/Access.lean ====
section
/-! DEFINITION. What a target checks before it performs a request (05 R155; 07 R229, R230; 08 R256, R279, R280, R283;
12 R380, R384; 05 R174). -/

namespace Sys2Proof.Machine

/-- Statuses of a response (07 R230). -/
def stRevoked : Nat := 1
def stDenied : Nat := 2
def stUe : Nat := 3
def stScene : Nat := 4
def stUnsupported : Nat := 5
def stMalformed : Nat := 6
def stLinkDown : Nat := 7

/-- The scene bit of a scene number (08 R272). -/
def sceneBit (w : Word) : Bool := w.toNat % 2 == 1

/-- The live scene's bit. -/
def State.liveBit (s : State) : Bool := sceneBit s.loom.live.num

/-- The live or draining scene that a scene bit names for a bolt, and whether it is the old one. -/
def State.sceneFor (s : State) (b : Nat) (k : Bool) : Option (Scene × Bool) :=
  if s.liveBit = k then (if (s.loom.live.bolt? b).isSome then some (s.loom.live, false) else none)
  else match s.loom.old with
    | some c => if (c.bolt? b).isSome then some (c, true) else none
    | none => none

/-- A scene with the tile membership as it stands: tiles move at step boundaries (08 R281). -/
def State.withMembers (s : State) (c : Scene) : Scene := { c with tiles := s.loom.members }

/-- May a bolt use a range under a scene by what the bolt holds, grants apart? -/
def Scene.owns (c : Scene) (me b src sp off len : Nat) : Bool :=
  { c with grants := [] }.allows me b src sp off len true true true

/-- Bytes of data that a coded region holds (14 R474). -/
def Region.dataSize (r : Region) : Nat := 2 * r.size / 3

/-- The granule of a two-way decoder that an address lies in: even granules are port 0's, odd ones port 1's (08 R263). -/
def CxlDec.granule (d : CxlDec) (off : Nat) : Nat := (off - d.base) / (256 * 2 ^ d.gran)

/-- Does a decoder map a byte of a range: of a two-way one, in a granule of its port? (08 R263) -/
def CxlDec.maps (d : CxlDec) (off len : Nat) : Bool :=
  let lo := max d.base off
  let hi := min (d.base + d.size) (off + len)
  decide (lo < hi)
    && (!d.twoWay || d.granule lo % 2 == d.port || decide (d.granule lo < d.granule (hi - 1)))

/-- Does a range of space 1 lie on a logical device that is lost? (14 R473) -/
def State.onLost (s : State) (off len : Nat) : Bool :=
  s.loom.live.decs.any (fun d => d.maps off len && s.cxlGone.any (fun g => g.1 == d.port && g.2 == d.ld))

/-- Can the memory of a range answer: every channel that it touches in service (05 R174), no logical device of it lost (14
R473); a coded region answers while it has lost at most two of its parts (14 R474). -/
def State.rangeUp (s : State) (sp off len : Nat) : Bool :=
  if sp = 0 then s.chanUp (off / chanBytes) && s.chanUp ((off + (len - 1)) / chanBytes)
  else if sp = 1 then
    match s.region? sp off with
    | some (i, r) => if r.redund = .coded then decide ((mget [] s.lost i).length ≤ 2) else !s.onLost off len
    | none => !s.onLost off len
  else true

/-- Does an access meet a unit with an uncorrectable error: in what it reads, or in what a partial write merges? (05 R170) -/
def State.ueAt (s : State) (sp off len : Nat) (rd wr : Bool) : Bool :=
  (rd && s.readsUe sp off len) || (wr && s.writesUe sp off len)

/-- Does the range reach beyond the data of a coded region? (14 R474) -/
def State.beyondCoded (s : State) (sp off len : Nat) : Bool :=
  match s.region? sp off with
  | some (_, r) => r.redund == .coded && decide (faOff r.base + r.dataSize < off + len)
  | none => false

/-- Does the range lie in a resource that the live scene gives to bolt `b` and the draining one to another, to which it stays
bound until retirement? (08 R279) -/
def State.moving (s : State) (b sp off len : Nat) : Bool :=
  match s.loom.old with
  | none => false
  | some c =>
    match sp with
    | 0 =>
      (match mget none s.loom.live.channels (off / chanBytes), mget none c.channels (off / chanBytes) with
       | some x, some y => x.bolt == b && y.bolt != b
       | _, _ => false)
    | 1 => s.loom.live.wins.any (fun w => w.bolt == b && c.wins.any (fun v => v.bolt != b
        && decide (max w.base (max v.base off) < min (w.base + w.size) (min (v.base + v.size) (off + len)))))
    | _ => false

/-- Does a channel with SCRUB = 1 pass to a bolt that the scene before does not give it to? A channel that no bolt held passes too
(DEDUCED from R262, log 113). -/
def ChanEnt.passes (x : ChanEnt) (before : Option ChanEnt) : Bool := x.scrub && before.map (fun y => y.bolt) != some x.bolt

/-- Is bolt `b` the new owner of a channel whose overwrite has not ended? All its requests are refused from the cue on, whatever
their scene (08 R280). -/
def State.scrubbed (s : State) (b sp off : Nat) : Bool :=
  let ch := off / chanBytes
  let mine : Bool := match mget none s.loom.live.channels ch with
    | some x => x.bolt == b
    | none => false
  sp == 0 &&
    (s.loom.scrubs.any (fun x => x.1 == ch && (x.2.1 == b || mine))
     || (match s.loom.old, mget none s.loom.live.channels ch with
         | some c, some x => mine && x.passes (mget none c.channels ch)
         | _, _ => false))

/-- Does the range touch a side area, or lie in a region not yet keyed and written? (12 R380, R384) -/
def State.inSide (s : State) (sp off len : Nat) : Bool :=
  s.modeAt sp off == 3 || s.modeAt sp (off + (len - 1)) == 3
def State.keyWait (s : State) (sp off : Nat) : Bool :=
  match s.region? sp off with
  | some (i, r) => r.mode != .clear && ((s.regRun i).st == .keyless || (s.regRun i).st == .init)
  | none => false

/-- Is the address in a region of a bolt that the understudy keeps for its twin? Only the mirror stream writes there (14
R462). -/
def State.keptForTwin (s : State) (sp off : Nat) : Bool :=
  match s.region? sp off with
  | some (_, r) => s.twinTarget r.bolt
  | none => false

/-- Does the newer scene forbid a request of the old scene that its own tables allow (08 R283): where the old scene's owner has no
right but by a grant, by the newer grants; by a region mode that protects more than the old scene's did (DEDUCED: a scene that only
widens rights changes nothing, log 114); with STRICT = 1 by the newer ownership too? -/
def State.narrowed (s : State) (old : Scene) (b src sp off len : Nat) (rd wr at_ : Bool) : Bool :=
  let me := s.modNum
  let live := s.withMembers s.loom.live
  let old' := s.withMembers old
  let byGrant := !old'.owns me b src sp off len && !live.allows me b src sp off len rd wr at_
  let tighter := (off :: (old.regionEnds sp off len ++ live.regionEnds sp off len)).any (fun a =>
    decide (old.modeAt sp a < live.modeAt sp a))
  byGrant || tighter || (live.strict && !live.allows me b src sp off len rd wr at_)

/-- The status of a request of bolt `b` from module `src` under a scene bit for `len` bytes (at least one) at an offset of a
space of this module; none while the request waits for a release (08 R279) or for its region's key (12 R380). -/
def State.accessStatus (s : State) (b src : Nat) (k : Bool) (sp off len : Nat) (rd wr at_ : Bool) : Option Nat :=
  match s.sceneFor b k with
  | none => some stScene
  | some (c, old) =>
    let me := s.modNum
    if !s.inSpace sp off len || s.inReserved sp off len || !(s.withMembers c).allows me b src sp off len rd wr at_ then
      some stDenied
    else if old && s.narrowed c b src sp off len rd wr at_ then some stRevoked
    else if s.scrubbed b sp off then some stDenied
    else if sp ≤ 1 ∧ s.inSide sp off len then some stDenied
    else if s.beyondCoded sp off len then some stDenied
    else if (wr || at_) && s.keptForTwin sp off then some stDenied
    else if !old && s.moving b sp off len then none
    else if sp ≤ 1 ∧ s.keyWait sp off then none
    else if !s.rangeUp sp off len || s.ueAt sp off len (rd || at_) wr then
      -- a paired twin serves reads of a mirrored region (14 R462)
      (if rd && !wr && !at_ && s.twinServes sp off then some 0 else some stUe)
    else some 0

/-- The in-flight counts of the loom unit (08 R275): key of a scene and bolt. -/
def flightKey (scene : Word) (b : Nat) : Nat := (if sceneBit scene then 64 else 0) + b

/-- Adds to a bolt's in-flight count under a scene. -/
def State.flightAdd (s : State) (scene : Word) (b n : Nat) : State :=
  let k := flightKey scene b
  { s with loom := { s.loom with inflight := mset 0 s.loom.inflight k (mget 0 s.loom.inflight k + n) } }

/-- Takes from a bolt's in-flight count under a scene. -/
def State.flightSub (s : State) (scene : Word) (b n : Nat) : State :=
  let k := flightKey scene b
  { s with loom := { s.loom with inflight := mset 0 s.loom.inflight k (mget 0 s.loom.inflight k - n) } }

/-- Raises HBM_UE against the requester's bolt, which is reset (05 R170, R174): from the channel, or from the host port for a read
of host memory, which counts as an uncorrectable error at the target (09 R293). DEDUCED, log entry 95: no other incident is named
for host memory. An error of CXL memory has its own report. -/
def State.raiseUe (s : State) (b fa site tag : Nat) : State :=
  if faSpace fa = 0 then s.raise (unitChan (faOff fa / chanBytes)) 0x071 2 (some b) fa site tag
  else if faSpace fa = 4 then s.raise unitHost 0x071 2 (some b) fa site tag
  else s

end Sys2Proof.Machine
end

