-- ==== Sys2Proof/Machine/Wire.lean ====
section
/-! DEFINITION. Creust on the wire: slots, flits and codewords, the CRC, and the sealing of packets (07_creust_fabric.md R210 to R212,
R226 to R228, R242 to R244). -/

namespace Sys2Proof.Machine

/-! ### Packet kinds (R215, R227) -/

/-- Message class: 0 REQ, 1 RSP, 2 MREQ, 3 MRSP, 4 RED; none for a reserved kind. -/
def pktClass (kind : Nat) : Option Nat :=
  match kind with
  | 1 | 2 | 3 | 4 | 5 | 6 => some 0
  | 0x21 | 0x22 | 0x23 | 0x24 | 0x25 | 0x26 => some 1
  | 0x10 | 0x11 => some 2
  | 0x30 | 0x31 => some 3
  | 0x08 => some 4
  | _ => none

/-- Virtual lane of a packet with a VS bit. -/
def pktVl (kind : Nat) (vs : Bool) : Nat :=
  match pktClass kind with
  | some 4 | none => 8
  | some c => 2 * c + b2n vs

/-- Does a kind carry data? -/
def pktHasData (kind : Nat) : Bool := kind == 2 || kind == 3 || kind == 8 || kind == 0x21 || kind == 0x11

/-- The ledger that a packet's cells are charged to: its group's for RED, else the pool that SP names (R216, R217). -/
def pktLedger (h : PktHdr) : Nat :=
  if h.kind.toNat = 8 then 16 + h.aux.toNat % 256 else if h.sp then 9 else pktVl h.kind.toNat h.vs

/-- Bytes that LEN gives (R226). -/
def pktBytes (h : PktHdr) : Nat := (h.len.toNat + 1) * 64

/-- Data flits that a header announces: two units of 64 bytes in each (R228). -/
def pktFlits (h : PktHdr) : Nat := if pktHasData h.kind.toNat then (h.len.toNat + 2) / 2 else 0

/-- Cells of a packet: header, EXT, TAGSLOT and four for each data flit (R215, R228). -/
def pktCells (h : PktHdr) (hasExt : Bool) : Nat := 1 + b2n hasExt + b2n h.sealed + 4 * pktFlits h

/-! ### Slots (R212, R226) -/

/-- The 32 bytes of a packet header (R226). -/
def hdrBytes (h : PktHdr) : List Byte :=
  leBytes 4 (h.kind.toNat + 2 ^ 8 * h.tc.toNat + 2 ^ 11 * b2n h.scene + 2 ^ 12 * h.bolt.toNat + 2 ^ 18 * h.src.toNat
      + 2 ^ 30 * b2n h.vs + 2 ^ 31 * b2n h.sp)
    ++ leBytes 4 (h.dst.toNat + 2 ^ 12 * h.ski.toNat + 2 ^ 26 * b2n h.sealed + 2 ^ 27 * h.rsv1.toNat)
    ++ leBytes 8 h.seq.toNat ++ leBytes 8 h.addr.toNat
    ++ leBytes 4 (h.len.toNat + 2 ^ 6 * h.rsv2.toNat + 2 ^ 8 * h.tag.toNat + 2 ^ 24 * h.opx.toNat)
    ++ leBytes 4 h.aux.toNat

/-- The header that 32 bytes hold (R226). -/
def hdrOf (l : List Byte) : PktHdr :=
  let w := fun (off n : Nat) => leNat ((l.drop off).take n)
  { kind := BitVec.ofNat 8 (w 0 1)
    tc := BitVec.ofNat 3 (bits (w 0 4) 10 8)
    scene := bit (w 0 4) 11
    bolt := BitVec.ofNat 6 (bits (w 0 4) 17 12)
    src := BitVec.ofNat 12 (bits (w 0 4) 29 18)
    vs := bit (w 0 4) 30
    sp := bit (w 0 4) 31
    dst := BitVec.ofNat 12 (bits (w 4 4) 11 0)
    ski := BitVec.ofNat 14 (bits (w 4 4) 25 12)
    sealed := bit (w 4 4) 26
    rsv1 := BitVec.ofNat 5 (bits (w 4 4) 31 27)
    seq := BitVec.ofNat 64 (w 8 8)
    addr := BitVec.ofNat 64 (w 0x10 8)
    len := BitVec.ofNat 6 (bits (w 0x18 4) 5 0)
    rsv2 := BitVec.ofNat 2 (bits (w 0x18 4) 7 6)
    tag := BitVec.ofNat 16 (bits (w 0x18 4) 23 8)
    opx := BitVec.ofNat 8 (bits (w 0x18 4) 31 24)
    aux := BitVec.ofNat 32 (w 0x1C 4) }

/-- The EXT slot of an atomic: operand A at 0x08, B at 0x10 (R212, R233). -/
def extSlot (a b : DWord) : List Byte := leBytes 8 0x40 ++ leBytes 8 a.toNat ++ leBytes 8 b.toNat ++ leBytes 8 0

/-- Bytes 1 on of a link-control slot of a kind with its fields (R212); fields are those of the kind's row, in its order. A ledger's
number on the wire is the model's own: the spec gives none. -/
def linkBody (kind : Nat) (f : List Nat) : List Byte :=
  let n := fun k => f.getD k 0
  match kind with
  | 0x80 => 0 :: (List.range 9).flatMap (fun k => leBytes 2 (n k))
  | 0x81 | 0x82 => leBytes 3 0 ++ leBytes 2 (n 0)
  | 0x83 => leBytes 1 (n 0) ++ leBytes 6 0 ++ leBytes 8 (n 1) ++ leBytes 8 (n 2) ++ leBytes 8 (n 3)
  | 0x84 => 0 :: leBytes 2 (n 0) ++ leBytes 4 (n 1) ++ leBytes 8 (n 2)
  | 0x85 => 0 :: leBytes 2 (n 0) ++ leBytes 4 (n 1) ++ leBytes 4 (n 2)
  | 0x86 => leBytes 3 0 ++ (List.range (f.length / 2)).flatMap (fun k => leBytes 1 (n (2 * k)) ++ leBytes 3 (n (2 * k + 1)))
  | 0x87 => leBytes 1 (n 0) ++ leBytes 2 0 ++ leBytes 4 (n 1) ++ leBytes 4 (n 2) ++ leBytes 4 (n 3)
  | _ => []

/-- A byte string filled up with zeros, or cut, to `n` bytes. -/
def padTo (n : Nat) (l : List Byte) : List Byte := (l ++ List.replicate (n - l.length) 0).take n

/-- The data of a packet as LEN gives them: whole units of 64 bytes, filled up with zeros. The spec gives LEN in units alone, so what
follows a last unit's bytes, and the one unit of an RD_DATA with a bad status, are the model's own (DESIGN CHOICE, log 119). -/
def pktData (h : PktHdr) (l : List Byte) : List Byte := if pktHasData h.kind.toNat then padTo (pktBytes h) l else []

/-- The 32 bytes of a slot (R212). -/
def WSlot.bytes : WSlot → List Byte
  | .null => leBytes 32 0
  | .header h => hdrBytes h
  | .ext b => padTo 32 b
  | .tag t => leBytes 16 0x41 ++ padTo 16 t
  | .link kind f => padTo 32 (leBytes 1 kind ++ linkBody kind f)

/-- The 128 bytes of a flit (R211). -/
def WFlit.bytes : WFlit → List Byte
  | .control l => padTo 128 (l.flatMap WSlot.bytes)
  | .data b => padTo 128 b

/-- A control flit of up to four slots, the others NULL. -/
def controlFlit (l : List WSlot) : WFlit := .control (l ++ List.replicate (4 - l.length) .null)

/-- The idle flit (R211). -/
def idleFlit : WFlit := controlFlit []

/-- The flit as a replay after a retrain sends it: every link-control slot NULL (R220). -/
def WFlit.noLink : WFlit → WFlit
  | .control l => .control (l.map (fun x => match x with
      | .link _ _ => .null
      | y => y))
  | .data b => .data b

/-! ### Codewords (R210) -/

/-- One byte of the CRC-8 with polynomial 0x07. -/
def crcStep (c : Byte) : Nat → Byte
  | 0 => c
  | n + 1 => crcStep (if c.getLsbD 7 then (c <<< 1) ^^^ 0x07 else c <<< 1) n

/-- The CRC-8 of R210, initial value 0. -/
def crc8 (l : List Byte) : Byte := l.foldl (fun c b => crcStep (c ^^^ b) 8) 0

/-- The tag of a codeword: CSEQ in [11:0], the CRC over its data and CSEQ in [19:12]. -/
def cwTag (cseq : Nat) (data : List Byte) : BitVec 20 :=
  BitVec.ofNat 20 (cseq % 2 ^ 12 + 2 ^ 12 * (crc8 (data ++ leBytes 2 cseq)).toNat)

/-- The 640 data bytes of a codeword's flits. -/
def cwData (flits : List WFlit) : List Byte := padTo 640 (flits.flatMap WFlit.bytes)

/-- The 20 blocks of a codeword: bit 0 of block b is bit b of the tag, bits 1 to 256 carry 32 bytes, least significant bit first. -/
def cwBlocks (cseq : Nat) (flits : List WFlit) : List (BitVec 257) :=
  let d := cwData flits
  let t := cwTag cseq d
  (List.range 20).map (fun b => BitVec.ofNat 257 (b2n (t.getLsbD b) + 2 * leNat ((d.drop (32 * b)).take 32)))

/-- A codeword of up to five flits, filled up with idle ones. -/
def cwFill (l : List WFlit) : List WFlit := l ++ List.replicate (5 - l.length) idleFlit

/-- Non-idle flits of a list. -/
def busyFlits (l : List WFlit) : Nat := (l.filter (fun f => f != idleFlit)).length

/-! ### What a receiver reads (R211, R212, R215) -/

/-- What the control flits of a codeword have given so far: data flits due, by ledger; cells taken; whether a reserved kind has been
met. -/
structure RxScan where
  due : List (Nat × Nat)
  cells : List (Nat × Nat)
  bad : Bool
  busy : Nat
  deriving DecidableEq, Repr

/-- A data flit's cells go to the ledger of the packet that it belongs to. -/
def RxScan.dataFlit (r : RxScan) : RxScan :=
  match r.due with
  | (no, n + 1) :: rest => { r with due := if n = 0 then rest else (no, n) :: rest, cells := (no, 4) :: r.cells, busy := r.busy + 1 }
  | (_, 0) :: rest => { r with due := rest }
  | [] => r

/-- The slots of a control flit, first to last. `pend` are the kinds that must follow the last header, whose ledger is `no`: an EXT
slot, enciphered or not, and a TAGSLOT. -/
def RxScan.slots (r : RxScan) (no : Nat) : List Nat → List (List Byte) → RxScan
  | _, [] => r
  | k :: pend, b :: bs =>
    let r := { r with cells := (no, 1) :: r.cells }
    if k = 0x41 ∧ (b.headD 0).toNat ≠ 0x41 then { r with bad := true } else r.slots no pend bs
  | [], b :: bs =>
    let kind := (b.headD 0).toNat
    if kind = 0 ∨ (0x80 ≤ kind ∧ kind ≤ 0x87) then r.slots no [] bs
    else if kind ≤ 0x3F then
      let h := hdrOf b
      let no := pktLedger h
      let pend := (if kind = 4 then [0x40] else []) ++ (if h.sealed then [0x41] else [])
      let due := if pktFlits h = 0 then r.due else r.due ++ [(no, pktFlits h)]
      RxScan.slots { r with due := due, cells := (no, 1) :: r.cells } no pend bs
    else { r with bad := true }

/-- One flit of 128 bytes. -/
def RxScan.flit (r : RxScan) (b : List Byte) : RxScan :=
  if r.due.isEmpty then
    let r := r.slots 0 [] (cutEvery 32 4 b)
    if b.all (fun x => x == 0) then r else { r with busy := r.busy + 1 }
  else r.dataFlit

/-- The five flits of a codeword, after those received before. -/
def scanCw (due : List (Nat × Nat)) (data : List Byte) : RxScan :=
  (cutEvery 128 5 data).foldl RxScan.flit ⟨due, [], false, 0⟩

/-! ### Sealing (R242 to R244) -/

/-- A key as SEC's bytes. -/
def keyBytes (k : BitVec 256) : List Byte := leBytes 32 k.toNat

/-- The next key of a direction's chain, by the KDF (R244). -/
def nextKey (k : BitVec 256) : BitVec 256 := kdf256 (keyBytes k) (leBytes 4 0x5458454E) []

/-- A direction's key for the packets whose SEQ[63:62] is `g`: `g` changes after that of its set-up (R244). -/
def DirKey.at_ (k : DirKey) (g : Nat) : DirKey := ⟨(List.range (g - k.gen)).foldl (fun x _ => nextKey x) k.key, max g k.gen⟩

/-- The IV of a packet: SRC in 32 bits, then SEQ, each most significant byte first (R242). The order of the bytes is the worked
example's as it is written (DEDUCED, log 117). -/
def pktIv (h : PktHdr) : List Byte := beBytes 4 h.src.toNat ++ beBytes 8 h.seq.toNat

/-- The additional data of a packet: its header with VS and SP 0 (R242). -/
def pktAad (h : PktHdr) : List Byte := hdrBytes { h with vs := false, sp := false }

/-- Enciphers, or deciphers, the EXT slot and the data of a packet in place (R242). -/
def pktCrypt (k : DirKey) (h : PktHdr) (ext : Option (List Byte)) (data : List Byte) : Option (List Byte) × List Byte :=
  let e := ext.getD []
  let c := gcmCrypt (keyBytes (k.at_ (h.seq.toNat / 2 ^ 62)).key) (pktIv h) (e ++ data)
  (ext.map (fun _ => c.take e.length), c.drop e.length)

/-- The tag of a sealed packet over its ciphertext (R242). -/
def pktTag (k : DirKey) (h : PktHdr) (ext : Option (List Byte)) (data : List Byte) : List Byte :=
  gcmTag (keyBytes (k.at_ (h.seq.toNat / 2 ^ 62)).key) (pktIv h) (pktAad h) (ext.getD [] ++ data)

/-! ### Messages of set-up (R241) -/

/-- Bytes of an encapsulation key or a ciphertext of ML-KEM-1024, and of a signature. -/
def kemBytes : Nat := 1568
def offerSigLen : Nat := 17088

/-- An OFFER: in a sealed binding the encapsulation key, then the session index, the capacity record, and in a sealed binding the
signature. The spec gives the parts and their sizes, not their places (DESIGN CHOICE, log 118): the index takes 2 bytes, HBM3E and CXL
bytes 8 each, the dark map 32. -/
def offerBytes (key : List Byte) (ski hbm cxl dark : Nat) (sig : List Byte) : List Byte :=
  key ++ leBytes 2 ski ++ leBytes 8 hbm ++ leBytes 8 cxl ++ leBytes 32 dark ++ sig

/-- What the signature of an OFFER is over: the encapsulation key, the bolt, the scene and the module number (R241). -/
def offerSigned (key : List Byte) (bolt scene module_ : Nat) : List Byte :=
  key ++ leBytes 1 bolt ++ leBytes 4 scene ++ leBytes 2 module_

/-- The key of the direction from the lower-numbered module, or to it, from the two secrets and the four messages, the lower-numbered
module's first (R241). -/
def dirKey (ssLo ssHi : BitVec 256) (msgs : List Byte) (fromLo : Bool) : DirKey :=
  ⟨kdf256 (keyBytes ssLo ++ keyBytes ssHi) (leBytes 1 (b2n fromLo)) (shaBytes msgs), 0⟩

end Sys2Proof.Machine
end

