-- ==== Sys2Proof/Machine/CreustOps.lean ====
section
/-! DEFINITION. Sending packets over Creust (07_creust_fabric.md): routes, sessions, tickets, egress. -/

namespace Sys2Proof.Machine

/-- A Creust port. -/
def State.port (s : State) (p : Nat) : CrPort := mget CrPort.reset s.ports p

/-- Replaces a port. -/
def State.setPort (s : State) (p : Nat) (v : CrPort) : State := { s with ports := mset CrPort.reset s.ports p v }

/-- Changes a port. -/
def State.updPort (s : State) (p : Nat) (f : CrPort → CrPort) : State := s.setPort p (f (s.port p))

/-! ### Routes (07 R245, R246) -/

/-- The valid candidates of a route entry toward a module, in order: port and dateline bit. -/
def Scene.candidates (c : Scene) (m : Nat) : List (Nat × Bool) :=
  let w := (mget 0 c.routes m).toNat
  (List.range 4).filterMap (fun k =>
    if bit w (8 * k + 6) then some (bits w (8 * k + 4) (8 * k), bit w (8 * k + 5)) else none)

/-- Does a bolt own a port in a scene? -/
def Scene.ownsPort (c : Scene) (b p : Nat) : Bool :=
  match c.ports with
  | some l => ((l[p]?).map (fun r => bit r.owners.toNat b)).getD false
  | none => false

/-- May a bolt inject through a port with a scene bit: as the live scene's owner, or with the draining scene's bit as that scene's
owner (08 R279, 07 R251)? -/
def State.mayInject (s : State) (b : Nat) (k : Bool) (p : Nat) : Bool :=
  s.loom.live.ownsPort b p || (k != s.liveBit && ((s.loom.old.map (fun c => c.ownsPort b p)).getD false))

/-- The first candidate that is UP and through which the packet's bolt may inject under its scene bit; a transit packet (no bolt)
needs no owner (R246). -/
def State.egressPort (s : State) (b : Option (Nat × Bool)) (m : Nat) : Option (Nat × Bool) :=
  (s.loom.live.candidates m).find? (fun c =>
    s.portUp c.1 && (match b with
      | some x => s.mayInject x.1 x.2 c.1
      | none => true))

/-! ### Sessions (07 R240) -/

/-- A session by our index. -/
def State.sessAt (s : State) (k : Nat) : Option Sess := mget none s.sess k

/-- Replaces a session. -/
def State.setSess (s : State) (k : Nat) (v : Option Sess) : State := { s with sess := mset none s.sess k v }

/-- The open session with a peer for a bolt. -/
def State.sessFor (s : State) (peer b : Nat) : Option (Nat × Sess) :=
  s.sess.findSome? (fun e => match e.2 with
    | some x => if x.peer == peer && x.bolt == b && x.phase == .opened then some (e.1, x) else none
    | none => none)

/-- The sessions of a bolt. -/
def State.boltSess (s : State) (b : Nat) : List (Nat × Sess) :=
  s.sess.filterMap (fun e => match e.2 with
    | some x => if x.bolt == b then some (e.1, x) else none
    | none => none)

/-- Sessions open (CRU_SESS_USED). -/
def State.sessUsed (s : State) : Nat :=
  (s.sess.filter (fun e => match e.2 with
    | some x => x.phase == .opened
    | none => false)).length

/-! ### Tickets at the sender (07 R215 to R217) -/

/-- Reduction groups of the live scene that send up through a port. -/
def State.upGroups (s : State) (p : Nat) : Nat :=
  (s.loom.live.red.filter (fun g => g.up && g.upPort == p)).length

/-- What the peer allots to a ledger: 0 to 7 the lanes, 9 the shared pool, 16 + g a reduction group. -/
def State.allotment (s : State) (p no : Nat) : Nat :=
  match (s.port p).peer with
  | none => 0
  | some (_, _, _, ded, sh, red) =>
    if no ≤ 7 then ded else if no = 9 then sh else if 16 ≤ no then red / max 1 (s.upGroups p) else 0

/-- A ledger of a port. -/
def CrPort.ledger (c : CrPort) (no : Nat) : CrLedger := mget CrLedger.reset c.ledgers no

/-- Replaces a ledger. -/
def CrPort.setLedger (c : CrPort) (no : Nat) (v : CrLedger) : CrPort := { c with ledgers := mset CrLedger.reset c.ledgers no v }

/-- Cells of a waiting packet. -/
def EgPkt.cells (e : EgPkt) : Nat := pktCells e.h e.ext.isSome

/-- What a packet waits behind: the packets of its lane, or those of its reduction group, whose tickets are its own (R217). -/
def EgPkt.lane (e : EgPkt) : Nat := if e.vl = 8 then 16 + e.h.aux.toNat % 256 else e.vl

/-- The ledger that a packet's cells are taken from: its lane's, else the shared pool; its group's for RED. -/
def State.pickLedger (s : State) (p : Nat) (e : EgPkt) : Option (Nat × Bool) :=
  let c := s.port p
  let fits := fun no => decide ((c.ledger no).taken + e.cells ≤ s.allotment p no)
  if fits e.lane then some (e.lane, false) else if e.vl ≠ 8 ∧ fits 9 then some (9, true) else none

/-- The next packet to send: by class, then by age; one that finds no ticket lets none of its lane or group behind it pass. -/
def State.pickPkt (s : State) (p : Nat) : List EgPkt → List Nat → Option (EgPkt × Nat × Bool)
  | [], _ => none
  | e :: r, blocked =>
    if blocked.contains e.lane then s.pickPkt p r blocked
    else match s.pickLedger p e with
      | some x => some (e, x.1, x.2)
      | none => s.pickPkt p r (e.lane :: blocked)

/-- Waiting packets by traffic class, oldest first within one (07 R239). -/
def byClass (l : List EgPkt) : List EgPkt :=
  (List.range 8).flatMap (fun t => l.filter (fun e => e.h.tc.toNat == t))

/-- Closes a session: its keys are destroyed and its index names nothing (07 R244). -/
def State.dropSess (s : State) (k : Nat) : State := s.setSess k none

/-- The SEQ of a packet as its header is placed (07 R239). A direction that has sent 2^64 − 1 sends nothing more, and its
session closes with CR_SEQ_EXHAUST (07 R244). -/
def State.takeSeq (s : State) (p : Nat) (ski : Option Nat) : State × Nat :=
  match ski with
  | none => (s, 0)
  | some k =>
    match s.sessAt k with
    | none => (s, 0)
    | some x =>
      if x.txSeq = 2 ^ 64 - 1 then
        ((s.dropSess k).raise (unitPort p) 0x0CC 3 (some x.bolt) (x.peer + 2 ^ 12 * k) 0 x.bolt, x.txSeq)
      else (s.setSess k (some { x with txSeq := x.txSeq + 1 }), x.txSeq)

/-- Notes the SEQ of a request in its outstanding record. -/
def State.noteSeq (s : State) (e : EgPkt) (seq : Nat) : State :=
  match e.req with
  | none => s
  | some k =>
    (match mget none s.reqs k with
     | some r => { s with reqs := mset none s.reqs k (some { r with seq := seq }) }
     | none => s)

/-! ### Flits and codewords (07 R210, R211, R218, R228) -/

/-- The data flits of a packet, each with its four cells of a ledger. -/
def dataFlits (no : Nat) (data : List Byte) : List OutFlit :=
  (cutEvery 128 (data.length / 128 + 1) data).map (fun b => ⟨.data (padTo 128 b), [(no, 4)]⟩)

/-- Places a packet in the control flit in hand: its SEQ is assigned, its cells leave the sender's tickets, and in a sealed session its
EXT slot and data are enciphered and its tag made (R216, R239, R242). Gives its slots and its data flits. -/
def State.placePkt (s : State) (p : Nat) (e : EgPkt) (no : Nat) (sp : Bool) : State × List WSlot × List OutFlit :=
  let key := (e.ski.bind s.sessAt).map (fun x => x.txKey)
  let q := match e.ski with
    | some _ => s.takeSeq p e.ski
    | none => (s, e.h.seq.toNat)
  let h : PktHdr := { e.h with seq := BitVec.ofNat 64 q.2, sp := sp }
  let m := pktData h e.data
  let c : Option (List Byte) × List Byte × List Byte := match key with
    | some k => if h.sealed then
        let d := pktCrypt k h e.ext m
        (d.1, d.2, pktTag k h d.1 d.2)
      else (e.ext, m, [])
    | none => (e.ext, m, e.tag)
  let s := (q.1.noteSeq e q.2).updPort p (fun x =>
    let l := x.ledger no
    { x.setLedger no { l with taken := l.taken + e.cells } with
      egress := x.egress.erase e, blocked := mset none x.blocked e.lane none })
  let ext : List WSlot := match c.1 with
    | some b => [.ext b]
    | none => []
  (s, (.header h :: ext) ++ (if h.sealed then [.tag c.2.2] else []), dataFlits no c.2.1)

/-- Slots of a waiting packet. -/
def EgPkt.slots (e : EgPkt) : Nat := 1 + b2n e.ext.isSome + b2n e.h.sealed

/-- A filled control flit joins the flits to send, with the data flits of its packets behind it; an empty one does not (R211). -/
def State.closeControl (s : State) (p : Nat) (slots : List WSlot) (cells : List (Nat × Nat)) (data : List OutFlit) : State :=
  if slots.isEmpty then s else s.updPort p (fun c => { c with flitQ := c.flitQ ++ ⟨controlFlit slots, cells⟩ :: data })

/-- Fills a control flit with packets while their slots fit and tickets last, the next packet first (R211, R239). -/
def State.fillControl (s : State) (p : Nat) : Nat → List WSlot → List (Nat × Nat) → List OutFlit → State
  | 0, slots, cells, data => s.closeControl p slots cells data
  | n + 1, slots, cells, data =>
    match s.pickPkt p (byClass (s.port p).egress) [] with
    | some (e, no, sp) =>
      if slots.length + e.slots ≤ 4 then
        let r := s.placePkt p e no sp
        r.1.fillControl p n (slots ++ r.2.1) (cells ++ [(no, r.2.1.length)]) (data ++ r.2.2)
      else s.closeControl p slots cells data
    | none => s.closeControl p slots cells data

/-- Sends the next five flits as a sequenced codeword, filled up with idle flits; it stays in the replay buffer (R210, R218). -/
def State.sendCw (s : State) (p : Nat) : State :=
  let c := s.port p
  let l := c.flitQ.take 5
  let f := cwFill (l.map (fun x => x.flit))
  let s := s.updPort p (fun c => { c with
    flitQ := c.flitQ.drop 5
    replay := c.replay ++ [⟨c.txCseq, l.flatMap (fun x => x.cells), f⟩]
    ackAt := if c.replay.isEmpty then s.now else c.ackAt
    txCseq := (c.txCseq + 1) % 4095 })
  (s.bump (cru p 0x030) (busyFlits f)).emit (.codeword p c.txCseq f)

/-- May a port send sequenced codewords: in UP, or its PARAM slot in PARAM, with a place in the replay buffer (R218)? -/
def CrPort.maySend (c : CrPort) : Bool := (c.mode == .up || c.mode == .param) && decide (c.replay.length < 2048)

/-- Sends the flits formed. -/
def State.flushFlits (s : State) (p : Nat) : Nat → State
  | 0 => s
  | n + 1 => if !(s.port p).maySend || (s.port p).flitQ.isEmpty then s else (s.sendCw p).flushFlits p n

/-- Sends waiting packets while tickets, the replay buffer's 2,048 places and the port allow it (R216, R218). -/
def State.drainPort (s : State) (p : Nat) : Nat → State
  | 0 => s
  | n + 1 =>
    let c := s.port p
    if c.mode ≠ .up ∨ !c.maySend then s
    else
      let f := if c.flitQ.length < 5 then s.fillControl p 4 [] [] [] else s
      let q := (f.port p).flitQ
      if q.isEmpty then f
      else if q.length < 5 ∧ (f.port p).egress.length < c.egress.length then f.drainPort p n
      else (f.sendCw p).drainPort p n

/-- Which lanes have a packet waiting and no ticket, and since when (R248). -/
def State.noteBlocked (s : State) (p : Nat) : State :=
  s.updPort p (fun c =>
    let stuck := ((c.egress.filter (fun e => (s.pickLedger p e).isNone)).map EgPkt.lane).eraseDups
    { c with blocked := stuck.foldl (fun m k => mset none m k (some ((mget none c.blocked k).getD s.now))) [] })

/-- Sends what can be sent of a port. -/
def State.drain (s : State) (p : Nat) : State :=
  let c := s.port p
  (s.drainPort p (2 * c.egress.length + c.flitQ.length + (c.egress.foldl (fun n e => n + e.data.length / 128 + 2) 0) + 2)).noteBlocked p

/-- Puts a packet in a port's egress and sends what can be sent. -/
def State.sendPkt (s : State) (p : Nat) (e : EgPkt) : State :=
  (s.updPort p (fun c => { c with egress := c.egress ++ [e] })).drain p

/-- Sends a link-control slot: ACK, NAK and TIME in an unsequenced codeword, the others in a sequenced one (R212, R218). -/
def State.sendSlot (s : State) (p kind : Nat) (fields : List Nat) : State :=
  let f := controlFlit [.link kind fields]
  if kind = 0x81 ∨ kind = 0x82 ∨ kind = 0x83 then (s.bump (cru p 0x030) 1).emit (.codeword p 0xFFF (cwFill [f]))
  else
    let n := (s.port p).flitQ.length
    (s.updPort p (fun c => { c with flitQ := c.flitQ ++ [⟨f, []⟩] })).flushFlits p (n + 1)

/-- Cells leave the receive buffer and go back to the ledger's sender in a CREDIT or RED_CREDIT slot (R216, R217). -/
def State.returnCells (s : State) (p no cells : Nat) : State :=
  let v := (s.port p).ledger no
  let n := min v.occ cells
  if n = 0 then s
  else
    let s := s.updPort p (fun c => c.setLedger no { v with occ := v.occ - n, freed := v.freed + n })
    if 16 ≤ no then s.sendSlot p 0x86 [no - 16, n]
    else s.sendSlot p 0x80 (if no = 9 then List.replicate 8 0 ++ [n] else (List.replicate 8 0).set no n ++ [0])

/-! ### Originated packets -/

/-- Enters a request among the outstanding ones: it counts in its scene until it ends (R231; 08 R275). -/
def State.openReq (s : State) (key : Nat) (q : CrReq) : State :=
  ({ s with reqs := mset none s.reqs key (some q) }).flightAdd q.scene q.bolt 1

/-- A header of a packet from this module. -/
def State.header (s : State) (kind b dst tc : Nat) (k dl : Bool) (x : Sess) (addr : Nat) (bytes tag opx aux : Nat) : PktHdr where
  kind := BitVec.ofNat 8 kind
  tc := BitVec.ofNat 3 tc
  scene := k
  bolt := BitVec.ofNat 6 b
  src := BitVec.ofNat 12 s.modNum
  vs := dl
  sp := false
  dst := BitVec.ofNat 12 dst
  ski := BitVec.ofNat 14 x.peerSki
  sealed := x.sealed
  rsv1 := 0
  seq := 0
  addr := BitVec.ofNat 64 addr
  len := BitVec.ofNat 6 ((bytes + 63) / 64 - 1)
  rsv2 := 0
  tag := BitVec.ofNat 16 tag
  opx := BitVec.ofNat 8 opx
  aux := BitVec.ofNat 32 aux

/-- A request to send. -/
structure ReqSpec where
  kind : Nat
  bolt : Nat
  dst : Nat
  tc : Nat
  addr : Nat
  /-- bytes asked for by a read -/
  bytes : Nat
  data : List Byte
  ext : Option (DWord × DWord)
  opx : Nat
  aux : Nat
  owner : ReqOwner
  dstSide : Bool
  /-- address for fault reports -/
  fault : Nat
  pos : Nat
  scene : Word

/-- Sends a request: it is outstanding, with its completion timer, until its response (07 R231). The status is LINK_DOWN when
no port or no session serves it. -/
def State.sendReq (s : State) (r : ReqSpec) : State × Nat :=
  match s.egressPort (some (r.bolt, sceneBit r.scene)) r.dst, s.sessFor r.dst r.bolt with
  | some (p, dl), some (k, x) =>
    let t := s.newTag
    let n := if r.data.isEmpty then r.bytes else r.data.length
    let h := s.header r.kind r.bolt r.dst r.tc (sceneBit r.scene) dl x r.addr n t.2 r.opx r.aux
    let q : CrReq := {
      kind := r.kind, dst := r.dst, bolt := r.bolt, ski := k, seq := 0, tc := r.tc, port := p, scene := r.scene,
      owner := r.owner, addr := BitVec.ofNat 64 r.fault, dstSide := r.dstSide, pos := r.pos, len := n,
      due := s.now + s.reg 0x224004 * 1000 }
    ((t.1.openReq t.2 q).sendPkt p ⟨h, r.data, r.ext.map (fun x => extSlot x.1 x.2), [], pktVl r.kind dl, some k, some t.2⟩, 0)
  | _, _ => (s, stLinkDown)

/-! ### Accesses of firmware that leave the module (05 R142, R144, R149, R155) -/

/-- Limit of a bolt's outstanding transactions of a class (11 R348, R350, R351). -/
def State.limitOf (s : State) (b c : Nat) : Nat :=
  match s.loom.live.qos.find? (fun q => q.bolt == b) with
  | some q => q.limits.getD c 512
  | none => if c < 4 then 512 else 128

/-- Accesses under way of the same requester: of the class, and in all. The mover is one per module (11 R348). -/
def State.fwCount (s : State) (n : FwNeed) : Nat × Nat :=
  let l := s.fwGot.filter (fun g => g.st.isNone && g.need.who == n.who && (n.who == .mover || g.need.bolt == n.bolt))
  ((l.filter (fun g => g.need.cls == n.cls)).length, l.length)

/-- Does a limit hold the access? (11 R348) A walker's reads have none. -/
def State.fwAtLimit (s : State) (n : FwNeed) : Bool :=
  let k := s.fwCount n
  match n.who with
  | .op => decide (min (s.limitOf n.bolt n.cls) 64 ≤ k.1 ∨ 64 ≤ k.2)
  | .mover => decide (64 ≤ k.1 ∨ 64 ≤ k.2)
  | .walker => false

/-- Sends a read of host memory in a bolt's name; it counts toward its scene until its completion (08 R275). -/
def State.readHost (s : State) (h : HostRead) (off : Nat) : State :=
  let t := s.newTag
  (({ t.1 with hostReads := mset none t.1.hostReads t.2 (some h) }).flightAdd h.scene h.bolt 1).emit
    (.hostRead (s.hostFn h.bolt) h.bolt t.2 off h.len)

/-- Issues an access: a read of host memory through the link half of the bolt's function, or a request over Creust under the live
scene. One without a path has ended at once. -/
def State.fwIssue (s : State) (n : FwNeed) : State :=
  if faMod n.fa = s.modNum then
    if !s.hostPath n.bolt then { s with fwGot := s.fwGot ++ [(⟨n, 0, some stUe, []⟩ : FwGot)] }
    else
      let h : HostRead := {
        owner := .firmware n.bolt, bolt := n.bolt, addr := BitVec.ofNat 64 n.fa, pos := 0, scene := s.loom.live.num, len := n.len,
        cls := n.cls, at_ := s.now }
      { s with fwGot := s.fwGot ++ [(⟨n, s.nextTag, none, []⟩ : FwGot)] }.readHost h (faOff n.fa)
  else
    let r := s.sendReq {
      kind := if n.data.isSome then 2 else 1, bolt := n.bolt, dst := faMod n.fa, tc := n.cls, addr := n.fa, bytes := n.len,
      data := n.data.getD [], ext := none, opx := 0, aux := 0, owner := .firmware n.bolt, dstSide := n.data.isSome, fault := n.fa,
      pos := 0, scene := s.loom.live.num }
    let g : FwGot := if r.2 = 0 then ⟨n, s.nextTag, none, []⟩ else ⟨n, 0, some r.2, []⟩
    { r.1 with fwGot := r.1.fwGot ++ [g] }

/-- Issues an access unless a limit holds it; a held one counts once in QOS_HOLD_CNT of its class (11 R349). -/
def State.fwSend (s : State) (n : FwNeed) : State :=
  if s.fwAtLimit n then
    if s.fwHeld.contains n then s
    else ({ s with fwHeld := n :: s.fwHeld }).bump (blt n.bolt (0xC40 + 8 * n.cls)) 1
  else { s with fwHeld := s.fwHeld.erase n }.fwIssue n

/-- How an access outside the module has ended: its status and bytes. One not yet issued becomes the one that firmware needs
next. -/
def State.fwFar (s : State) (n : FwNeed) : State × Option (Nat × List Byte) :=
  match s.fwGot.find? (fun g => g.need == n) with
  | some g => (s, g.st.map (fun st => (st, g.bytes)))
  | none => ({ s with fwNeed := some n }, none)

/-- An operation of firmware that waits changes nothing (`s` is the state before it), but that what it has found to need next
(in `r`) is asked for. Its command, given again, finds it. -/
def State.fwAwait (s r : State) : State :=
  match r.fwNeed with
  | some n => s.fwSend n
  | none => s

/-- An operation of a bolt has ended: what it got from outside the module is forgotten. -/
def State.fwDone (s : State) (b : Nat) : State := { s with fwGot := s.fwGot.filter (fun g => g.need.bolt != b) }

/-- The request of an access has ended with a status and bytes. -/
def State.fwArrive (s : State) (tag st : Nat) (bytes : List Byte) : State :=
  { s with fwGot := s.fwGot.map (fun g => if g.tag = tag ∧ g.st.isNone then { g with st := some st, bytes := bytes } else g) }

/-- Sends a response to a packet: it copies the request's class, scene bit and TAG (07 R226, R230). -/
def State.sendRsp (s : State) (kind : Nat) (h : PktHdr) (status rval : Nat) (data : List Byte) : State :=
  match s.egressPort (some (h.bolt.toNat, h.scene)) h.src.toNat, s.sessAt h.ski.toNat with
  | some (p, dl), some x =>
    let g := s.header kind h.bolt.toNat h.src.toNat h.tc.toNat h.scene dl x rval (max 64 data.length) h.tag.toNat status 0
    s.sendPkt p ⟨g, data, none, [], pktVl kind dl, some h.ski.toNat, none⟩
  | _, _ => s

/-- Sends the fragments of a SESS message on a session, from number `i` on, each of up to 4 KiB and a request of its own (R227, R231):
OPX 1 OFFER, 2 ENCAPS, 3 CONFIRM, 4 CLOSE. `clear`: not sealed, and outside the session's SEQ, as OFFER and ENCAPS are (R242). -/
def State.sendFragments (s : State) (k opx n : Nat) (clear : Bool) : Nat → List (List Byte) → State
  | _, [] => s
  | i, d :: ds =>
    match s.sessAt k with
    | none => s
    | some x =>
      match s.egressPort (some (x.bolt, s.liveBit)) x.peer with
      | none => s
      | some (p, dl) =>
        let t := s.newTag
        let y : Sess := if clear then { x with sealed := false } else x
        let d := padTo ((d.length + 63) / 64 * 64) d
        let h := s.header 0x11 x.bolt x.peer 0 s.liveBit dl y 0 d.length t.2 opx (i + 2 ^ 8 * n)
        let q : CrReq := {
          kind := 0x11, dst := x.peer, bolt := x.bolt, ski := k, seq := 0, tc := 0, port := p, scene := s.loom.live.num,
          owner := .sess (opx == 4 && !clear), addr := 0, dstSide := false, pos := 0, len := d.length, due := s.now + s.reg 0x224004 * 1000 }
        (((t.1.openReq t.2 q).sendPkt p
          ⟨h, d, none, [], pktVl 0x11 dl, if clear then none else some k, some t.2⟩)).sendFragments k opx n clear (i + 1) ds

/-- Sends a SESS message (R241). -/
def State.sendSess (s : State) (k opx : Nat) (clear : Bool) (data : List Byte) : State :=
  let l := cutEvery 4096 5 data
  s.sendFragments k opx l.length clear 0 l

/-- Ends a session with SESS CLOSE and its cause; it stays closed until the peer's SESS_RSP, which frees its
index and destroys its keys (07 R244, R252): CLOSE and its answer are sealed too. One that is still in
set-up has no keys: its CLOSE goes clear (DESIGN CHOICE, log 118). -/
def State.closeSess (s : State) (k cause : Nat) : State :=
  match s.sessAt k with
  | none => s
  | some x =>
    if x.phase = .closed then s
    else
      let s := s.sendSess k 4 (x.phase != .opened) (leBytes 64 cause)
      let s := if x.phase = .opened then s
        else { s with sessIn := s.sessIn.filter (fun m => !(m.src == x.peer && m.bolt == x.bolt)) }
      match s.sessAt k with
      | some y => s.setSess k (some { y with phase := .closed })
      | none => s

/-- Closes every session of a bolt (07 R244). -/
def State.closeSessions (s : State) (b cause : Nat) : State :=
  (s.boltSess b).foldl (fun s e => s.closeSess e.1 cause) s

end Sys2Proof.Machine
end

