-- ==== Sys2Proof/Machine/XltOps.lean ====
section
/-! DEFINITION. The page table, its walk and its caches; the fault queue (05_memory_translation.md R143 to R167). -/

namespace Sys2Proof.Machine

/-! ### Pages -/

/-- Bytes of a page of a size code (05 R147). -/
def pageBytes (ps : Nat) : Nat :=
  match ps with
  | 0 => 2 ^ 12
  | 1 => 2 ^ 16
  | 2 => 2 ^ 21
  | _ => 2 ^ 30

/-- Does a leaf of a bolt and generation cover an address? -/
def Leaf.covers (l : Leaf) (b gen va : Nat) : Bool :=
  l.bolt == b && l.gen == gen && decide (l.va ≤ va ∧ va < l.va + pageBytes l.ps)

/-- Fabric address of an address under a leaf. -/
def Leaf.fa (l : Leaf) (va : Nat) : Nat := l.pte.toNat / 2 ^ 12 * 2 ^ 12 + (va - l.va)

/-- The PTE fields (05 R147). -/
def pteEnc (e : Nat) : Nat := bits e 5 4
def ptePs (e : Nat) : Nat := bits e 10 9
def pteTc (e : Nat) : Nat := bits e 8 6
def pteFrame (e : Nat) : Nat := e / 2 ^ 12 * 2 ^ 12

/-! ### One level of a walk (05 R146 to R148, R152) -/

/-- What a level read leads to. -/
inductive WalkRes
  /-- the table page of the next level -/
  | next (table : Nat)
  | leaf (l : Leaf)
  | fault (reason : XltReason) (level : Nat)
  /-- space 3 or a reserved space -/
  | space
  /-- an uncorrectable error in a table page: address of the entry, level (R170) -/
  | ue (fa level : Nat)
  /-- a line of a table on another module has not come yet (R144) -/
  | wait
  deriving DecidableEq, Repr

/-- What a peer told of its memory when a session was set up (05 R148). -/
def State.capacity (s : State) (m : Nat) : Option Sess :=
  s.sess.findSome? (fun e => match e.2 with
    | some x => if x.peer == m then some x else none
    | none => none)

/-- Does a range of a space of a module exist? -/
def State.inModule (s : State) (m sp off len : Nat) : Bool :=
  if m = s.modNum then s.inSpace sp off len
  else match s.capacity m with
    | none => false
    | some x =>
      match sp with
      | 0 => decide (off + len ≤ x.capHbm)
      | 1 => decide (off + len ≤ x.capCxl)
      | 2 => decide (off < 2 ^ 32 ∧ off % spoolBytes + len ≤ spoolBytes) && !x.capDark.contains (off / 2 ^ 24 % 256)
      | _ => false

/-- May a fabric address be a table page of a root on module `m`? -/
def State.tableOk (s : State) (m fa : Nat) : Bool :=
  faMod fa == m && faSpace fa == 0 && s.inModule m 0 (faOff fa) 4096

/-- Is a 64 KiB group consistent? `group` holds the sixteen entries from index 16j on (05 R148). -/
def groupOk (group : List Nat) : Bool :=
  let f := (group.getD 0 0) / 2 ^ 12
  f % 16 == 0
  && group.zipIdx.all (fun x => bit x.1 0 && !bit x.1 1 && ptePs x.1 == 1 && x.1 % 2 ^ 12 == (group.getD 0 0) % 2 ^ 12
      && x.1 / 2 ^ 12 == f + x.2)

/-- Does ENC agree with the SEC region table over a whole frame (R148; 12 R379)? What the table of another module says of a frame
of its own is not known here: a free value (log 111). -/
def State.encOk (s : State) (frame sz enc : Nat) : Bool :=
  let sp := faSpace frame
  if faMod frame ≠ s.modNum then enc == Config.freeNat s.freeCtr % 4
  else if sp ≤ 1 then s.allMode sp (faOff frame) sz enc
  else enc == 0

/-- Reads and checks the entry `e` of level `w.level` on a walk of bolt `b`; `group` is the 128-byte line of a level-0
entry. -/
def State.walkEntry (s : State) (b : Nat) (w : Walk) (e : Nat) (group : List Nat) : WalkRes :=
  let lv := w.level
  if !bit e 0 then .fault .unmapped lv
  else if bit e 1 then
    let m := faMod w.table
    let nx := mkFa m 0 (bits e 48 12 * 2 ^ 12)
    if lv = 0 ∨ bits e 11 2 ≠ 0 ∨ bits e 63 49 ≠ 0 ∨ !s.tableOk m nx then .fault .malformed lv else .next nx
  else
    let ps := ptePs e
    let fa := pteFrame e
    let sz := pageBytes ps
    let sp := faSpace fa
    if sp = 3 ∨ 5 ≤ sp then .space
    else if !((lv == 0 && decide (ps ≤ 1)) || (lv == 1 && ps == 2) || (lv == 2 && ps == 3)) then .fault .malformed lv
    else if pteEnc e = 3 ∨ bit e 11 ∨ (ps = 1 ∧ !groupOk group) then .fault .malformed lv
    else
      let base := w.va / sz * sz
      -- each entry of a group holds its own 4 KiB of the 64 KiB frame
      let frame := if ps = 1 then pteFrame (group.getD 0 0) else fa
      if frame % sz ≠ 0 ∨ (sp = 4 ∧ faMod frame ≠ s.modNum) ∨ (sp ≠ 4 ∧ !s.inModule (faMod frame) sp (faOff frame) sz) then
        .fault .malformed lv
      else if !w.writes ∧ !bit e 2 then .fault .noRead lv
      else if w.writes ∧ !bit e 3 then .fault .noWrite lv
      else if !s.encOk frame sz (pteEnc e) then .fault .enc lv
      else .leaf {
        bolt := b, gen := (s.ctx b).gen.toNat, va := base, ps := ps,
        pte := BitVec.ofNat 64 (frame + e % 2 ^ 12), prefetched := false, stale := false }

/-- Address of the entry that a walk reads next. -/
def Walk.entryFa (w : Walk) : Nat := w.table + 8 * (w.va / 2 ^ (12 + 9 * w.level) % 512)

/-- Start of the 128-byte line of the entry. -/
def Walk.lineFa (w : Walk) : Nat := w.entryFa / 128 * 128

/-- Reads the entry, and the line of sixteen entries around it (05 R150): from this module's memory, or out of the line that has
come over Creust. -/
def State.readEntry (s : State) (w : Walk) : State × Nat × List Nat :=
  let fa := w.entryFa
  let l := if faMod fa = s.modNum then s.peek 0 (faOff w.lineFa) 128 else w.line
  let es := (List.range 16).map (fun k => leNat ((l.drop (8 * k)).take 8))
  (s.draw.1, es.getD (fa % 128 / 8) 0, es)

/-- Does reading the entry meet an uncorrectable error, or a channel out of service? (05 R170, R174) -/
def State.entryUe (s : State) (w : Walk) : Bool :=
  let fa := w.entryFa
  decide (faMod fa = s.modNum) && (!s.rangeUp 0 (faOff fa) 8 || s.readsUe 0 (faOff fa) 8)

/-- The walk one level down, in a table page. -/
def Walk.down (w : Walk) (table : Nat) : Walk := { w with level := w.level - 1, table := table, asked := false, line := [] }

/-- The start of a walk: the root, checked (05 R144, R146). -/
def State.walkRoot (s : State) (b va : Nat) (writes dst : Bool) : Walk ⊕ (XltReason × Nat) :=
  let r := (s.ctx b).root.toNat
  let fa := r / 2 ^ 12 * 2 ^ 12
  if !bit r 0 then .inr (.unmapped, 4)
  else if !s.tableOk (faMod fa) fa then .inr (.malformed, 4)
  else .inl { va := va, level := 4, table := fa, writes := writes, dstSide := dst, asked := false, line := [] }

/-- Does the bolt's table lie on this module? -/
def State.tableHere (s : State) (b : Nat) : Bool := faMod (s.ctx b).root.toNat == s.modNum

/-! ### Caches (05 R151) -/

/-- A translation cache: panels 0 to 3, proscenium die 4. -/
def State.tc (s : State) (u : Nat) : List Leaf := mget [] s.tcache u

/-- Looks a bolt's address up in a translation cache. -/
def State.tcFind (s : State) (u b va : Nat) : Option Leaf :=
  (s.tc u).find? (fun l => l.covers b (s.ctx b).gen.toNat va)

/-- Entries of a translation cache. -/
def tcSize (u : Nat) : Nat := if u = 4 then 1024 else 4096

/-- The set of a leaf: eight ways each (05 R151). The spec gives no index function: a free value (log 111). -/
def tcSet (u : Nat) (l : Leaf) : Nat := Config.tcSet l.bolt l.va l.ps % (tcSize u / 8)

/-- Keeps the first `n` of the entries that satisfy `p`, and every other. -/
def keepWays (p : Leaf → Bool) : Nat → List Leaf → List Leaf
  | _, [] => []
  | n, x :: r =>
    if !p x then x :: keepWays p n r
    else match n with
      | 0 => keepWays p 0 r
      | m + 1 => x :: keepWays p m r

/-- Fills a translation cache; the oldest entry leaves a full set (the order of replacement is DESIGN CHOICE, log 111). -/
def State.tcFill (s : State) (u : Nat) (l : Leaf) : State :=
  let keep := (s.tc u).filter (fun x => !(x.bolt == l.bolt && x.gen == l.gen && x.va == l.va && x.ps == l.ps))
  { s with tcache := mset [] s.tcache u (l :: keepWays (fun x => tcSet u x == tcSet u l) 7 keep) }

/-- Fills a walk cache with a non-leaf entry. -/
def State.wcFill (s : State) (u b : Nat) (w : Walk) (next : Nat) : State :=
  let e : WalkEntry := {
    bolt := b, gen := (s.ctx b).gen.toNat, level := w.level, va := w.va / 2 ^ (12 + 9 * w.level), next := next }
  { s with wcache := mset [] s.wcache u ((e :: (mget [] s.wcache u).filter (fun x => x != e)).take 512) }

/-- Where a walk starts: at the lowest level whose parent entry the walk cache holds (05 R152). -/
def State.walkStart (s : State) (u b va : Nat) (writes dst : Bool) : Walk ⊕ (XltReason × Nat) :=
  match s.walkRoot b va writes dst with
  | .inr e => .inr e
  | .inl w =>
    let hit := fun (lv : Nat) => (mget [] s.wcache u).find? (fun x =>
      x.bolt == b && x.gen == (s.ctx b).gen.toNat && x.level == lv && x.va == va / 2 ^ (12 + 9 * lv))
    match hit 1, hit 2, hit 3, hit 4 with
    | some e, _, _, _ => .inl { w with level := 0, table := e.next }
    | none, some e, _, _ => .inl { w with level := 1, table := e.next }
    | none, none, some e, _ => .inl { w with level := 2, table := e.next }
    | none, none, none, some e => .inl { w with level := 3, table := e.next }
    | none, none, none, none => .inl w

/-! ### Walks in one go -/

/-- The line of the entry of a walk for firmware: read here, or got over Creust before (R144); its status. -/
def State.fwLine (s : State) (b : Nat) (w : Walk) : State × Option (Nat × List Byte) :=
  if faMod w.entryFa = s.modNum then (s, some (if s.entryUe w then stUe else 0, []))
  else s.fwFar ⟨.walker, b, w.lineFa, 128, 0, none⟩

/-- The rest of a walk of unit `u` in one go, for `n` levels; its non-leaf entries fill the walk cache. A table that its module
refuses to show maps nothing (log 111). -/
def State.walkOn (s : State) (u b : Nat) (w : Walk) : Nat → State × WalkRes
  | 0 => (s, .fault .malformed w.level)
  | n + 1 =>
    let g := s.fwLine b w
    match g.2 with
    | none => (g.1, .wait)
    | some (st, l) =>
      if st = stUe then (g.1, .ue w.entryFa w.level)
      else if st ≠ 0 then (g.1, .fault .unmapped w.level)
      else
        let w := { w with line := l }
        let r := g.1.readEntry w
        match r.1.walkEntry b w r.2.1 r.2.2 with
        | .next t => (r.1.wcFill u b w t).walkOn u b (w.down t) n
        | x => (r.1, x)

/-- A whole walk, from the root on. -/
def State.walkAll (s : State) (u b va : Nat) (writes : Bool) : State × WalkRes :=
  match s.walkRoot b va writes false with
  | .inl w => s.walkOn u b w 5
  | .inr e => (s, .fault e.1 e.2)

/-! ### The fault queue (05 R163 to R166) -/

/-- A bolt's fault queue. -/
def State.faults (s : State) (b : Nat) : FaultQueue := mget FaultQueue.reset s.fq b

/-- Replaces a fault queue. -/
def State.setFaults (s : State) (b : Nat) (v : FaultQueue) : State := { s with fq := mset FaultQueue.reset s.fq b v }

/-- The sequence number after `n`: from 65,535 to 1. -/
def nextSeqNo (n : Nat) : Nat := if n = 65535 then 1 else n + 1

/-- Puts an entry in the queue, which has room. -/
def FaultQueue.push (q : FaultQueue) (e : FqEntry) : FaultQueue :=
  { q with entries := q.entries ++ [{ e with seq := q.nextSeq }], nextSeq := nextSeqNo q.nextSeq }

/-- A detected fault enters the queue; a full queue makes it wait, sets the bolt's full flag and counts (05 R163, R164). -/
def State.faultEnter (s : State) (b : Nat) (e : FqEntry) : State :=
  let q := s.faults b
  if q.entries.length < 1024 ∧ q.waiting = [] then
    let s := s.setFaults b (q.push e)
    if q.entries = [] then s.msix 0 (64 + b) else s
  else
    let s := s.setFaults b { q with waiting := q.waiting ++ [e] }
    (s.orReg (0x50000 + 4 * (b / 32)) (2 ^ (b % 32))).bump (blt b 0x818) 1

/-- Takes the head entry; the first waiting fault takes the freed place. -/
def State.faultPop (s : State) (b : Nat) : State :=
  let q := s.faults b
  let q := { q with entries := q.entries.drop 1 }
  match q.waiting with
  | e :: r => s.setFaults b ({ q with waiting := r }.push e)
  | [] => s.setFaults b q

/-- Empties the queue and discards held faults (05 R167). -/
def State.faultClear (s : State) (b : Nat) : State :=
  s.setFaults b { s.faults b with entries := [], waiting := [] }

end Sys2Proof.Machine
end

