-- ==== Sys2Proof/Machine/FwMem.lean ====
section
/-! DEFINITION. How firmware reads and writes a bolt's memory by UVA (05_memory_translation.md R149, R151, R152; 09 R304):
through the translation unit of the proscenium die, page by page. -/

namespace Sys2Proof.Machine

/-- Is a UVA canonical? (05 R143) -/
def canonicalUva (va : Nat) : Bool := decide (va < 2 ^ 56 ∨ (2 ^ 64 - 2 ^ 56 ≤ va ∧ va < 2 ^ 64))

/-- Does a leaf allow a read, or a write? -/
def Leaf.allows (l : Leaf) (wr : Bool) : Bool := if wr then bit l.pte.toNat 3 else bit l.pte.toNat 2

/-- Raises WALK_UE against the context's bolt: an uncorrectable error in a table page (05 R170, R174). -/
def State.walkUe (s : State) (b fa va level : Nat) : State :=
  s.raise (unitChan (faOff fa / chanBytes)) 0x061 2 (some b) fa va level

/-- A walk by the proscenium unit; a leaf fills its translation cache. -/
def State.fwWalk (s : State) (b va : Nat) (wr : Bool) : State × WalkRes :=
  let s := s.bump (blt b 0x830) 1
  match s.walkStart 4 b va wr wr with
  | .inr e => (s, .fault e.1 e.2)
  | .inl w =>
    let r := s.walkOn 4 b w 5
    match r.2 with
    | .leaf l => (r.1.tcFill 4 l, .leaf l)
    | x => (r.1, x)

/-- Translates a UVA for firmware. A cached leaf that forbids the access causes one fresh walk (05 R152). -/
def State.fwXlt (s : State) (b va : Nat) (wr : Bool) : State × WalkRes :=
  if !canonicalUva va then (s, .fault .unmapped 4)
  else match s.tcFind 4 b va with
    | some l => if l.allows wr then (s, .leaf l) else s.fwWalk b va wr
    | none => s.fwWalk b va wr

/-- What a run of accesses comes to. -/
inductive Got (α : Type)
  | ok (v : α)
  /-- a page waits for a release or a key (08 R279, 12 R380), or an access outside the module has not ended -/
  | wait
  /-- a translation fault or a refusal at this UVA -/
  | fault (va : Nat)
  /-- an uncorrectable error at this fabric address -/
  | ue (va fa : Nat)
  /-- an uncorrectable error in the table page that holds the entry at this fabric address, of a level -/
  | walkUe (va fa level : Nat)
  deriving DecidableEq, Repr

/-- What a translation that gives no leaf comes to. -/
def WalkRes.got {α : Type} (va : Nat) : WalkRes → Got α
  | .wait => .wait
  | .ue fa level => .walkUe va fa level
  | _ => .fault va

/-- What an access that ends with a status other than OK comes to. -/
def gotOf {α : Type} (va fa st : Nat) : Got α := if st = stUe then .ue va fa else .fault va

/-- The bolt fault that an access comes to, if any (05 R170): raised on the bolt. -/
def Got.raise {α : Type} (g : Got α) (s : State) (b : Nat) : State :=
  match g with
  | .ue _ fa => s.raiseUe b fa 0xFFF 0
  | .walkUe va fa level => s.walkUe b fa va level
  | _ => s

/-- Does the address lie in this module's own memory? -/
def State.near (s : State) (fa : Nat) : Bool := faMod fa == s.modNum && decide (faSpace fa ≤ 2)

/-- Bytes of one access from `va` on of at most `len`: within a page, and outside the module within 4 KiB (07 R231). -/
def State.fwRun (s : State) (l : Leaf) (va len : Nat) : Nat :=
  let k := min len (l.va + pageBytes l.ps - va)
  if s.near (l.fa va) then k else min k (4096 - va % 4096)

/-- Reads a run under a leaf: its status and bytes; none while it waits. The access has the class of the PTE (05 R149). -/
def State.fwLoad (s : State) (who : FwWho) (b : Nat) (l : Leaf) (va k : Nat) : State × Option (Nat × List Byte) :=
  let fa := l.fa va
  if s.near fa then
    (match s.accessStatus b s.modNum s.liveBit (faSpace fa) (faOff fa) k true false false with
     | some 0 => (s.readMeta (faSpace fa) (faOff fa) k, some (0, s.peek (faSpace fa) (faOff fa) k))
     | st => (s, st.map (fun x => (x, []))))
  else s.fwFar ⟨who, b, fa, k, pteTc l.pte.toNat, none⟩

/-- Writes a run under a leaf: its status; none while it waits. A write to host memory is posted (09 R293). -/
def State.fwStore (s : State) (who : FwWho) (b : Nat) (l : Leaf) (va : Nat) (data : List Byte) : State × Option Nat :=
  let fa := l.fa va
  if s.near fa then
    match s.accessStatus b s.modNum s.liveBit (faSpace fa) (faOff fa) data.length false true false with
    | some 0 => (s.poke (faSpace fa) (faOff fa) data, some 0)
    | x => (s, x)
  else if faMod fa = s.modNum then
    if s.hostPath b then (s.hostWrite b (faOff fa) data, some 0) else (s, some stUe)
  else
    let r := s.fwFar ⟨who, b, fa, data.length, pteTc l.pte.toNat, some data⟩
    (r.1, r.2.map (fun x => x.1))

/-- Bytes `[va, va + len)` of a bolt; `n` bounds the runs. -/
def State.fwGather (s : State) (who : FwWho) (b : Nat) : Nat → Nat → Nat → State × Got (List Byte)
  | 0, _, len => (s, if len = 0 then .ok [] else .wait)
  | n + 1, va, len =>
    if len = 0 then (s, .ok [])
    else
      let x := s.fwXlt b va false
      match x.2 with
      | .leaf l =>
        let k := x.1.fwRun l va len
        let d := x.1.fwLoad who b l va k
        (match d.2 with
         | none => (d.1, .wait)
         | some (st, bytes) =>
           if st ≠ 0 then (d.1, gotOf va (l.fa va) st)
           else
             let r := d.1.fwGather who b n (va + k) (len - k)
             match r.2 with
             | .ok t => (r.1, .ok (bytes ++ t))
             | e => (r.1, e))
      | w => (x.1, w.got va)

/-- Pages that a range of `len` bytes can touch, at most. -/
def pagesIn (len : Nat) : Nat := len / 4096 + 2

/-- The bytes of several ranges `(va, len)`. -/
def State.fwRanges (s : State) (b : Nat) : List (Nat × Nat) → State × Got (List (List Byte))
  | [] => (s, .ok [])
  | r :: rs =>
    let x := s.fwGather .op b (pagesIn r.2) r.1 r.2
    match x.2 with
    | .ok l =>
      let y := x.1.fwRanges b rs
      (match y.2 with
       | .ok t => (y.1, .ok (l :: t))
       | .wait => (y.1, .wait)
       | .fault va => (y.1, .fault va)
       | .ue va fa => (y.1, .ue va fa)
       | .walkUe va fa lv => (y.1, .walkUe va fa lv))
    | .wait => (x.1, .wait)
    | .fault va => (x.1, .fault va)
    | .ue va fa => (x.1, .ue va fa)
    | .walkUe va fa lv => (x.1, .walkUe va fa lv)

/-- Writes bytes from a UVA on; `n` bounds the runs. Pages before a fault stay written. -/
def State.fwScatter (s : State) (who : FwWho) (b : Nat) : Nat → Nat → List Byte → State × Got Unit
  | 0, _, data => (s, if data.isEmpty then .ok () else .wait)
  | n + 1, va, data =>
    if data.isEmpty then (s, .ok ())
    else
      let x := s.fwXlt b va true
      match x.2 with
      | .leaf l =>
        let k := x.1.fwRun l va data.length
        let d := x.1.fwStore who b l va (data.take k)
        (match d.2 with
         | none => (d.1, .wait)
         | some st => if st ≠ 0 then (d.1, gotOf va (l.fa va) st) else d.1.fwScatter who b n (va + k) (data.drop k))
      | w => (x.1, w.got va)

/-- Leaves the contents of a range of this module undefined. -/
def State.forgetRange (s : State) (sp off len : Nat) : State :=
  let e := s.draw
  match sp with
  | 0 => { e.1 with hbm := e.1.hbm.forget off (off + len) e.2 }
  | 1 => { e.1 with cxl := e.1.cxl.forget off (off + len) e.2 }
  | 2 => e.1.updTile (off / 2 ^ 24 % 256) (fun t => { t with spool := t.spool.forget (off % spoolBytes) (off % spoolBytes + len) e.2 })
  | _ => s

/-- Firmware writes `len` bytes whose layout the spec does not give: their contents become undefined. -/
def State.fwForget (s : State) (b : Nat) : Nat → Nat → Nat → State
  | 0, _, _ => s
  | n + 1, va, len =>
    if len = 0 then s
    else
      let x := s.fwXlt b va true
      match x.2 with
      | .leaf l =>
        let k := min len (l.va + pageBytes l.ps - va)
        let fa := l.fa va
        let s := if s.near fa
            ∧ x.1.accessStatus b s.modNum x.1.liveBit (faSpace fa) (faOff fa) k false true false = some 0 then
            x.1.forgetRange (faSpace fa) (faOff fa) k
          else x.1
        s.fwForget b n (va + k) (len - k)
      | _ => x.1

/-- Is every page of a range writable and in space 0? (09 R305 SAVE_AREA) -/
def State.allHbm (s : State) (b : Nat) : Nat → Nat → Nat → State × Got Bool
  | 0, _, len => (s, .ok (len == 0))
  | n + 1, va, len =>
    if len = 0 then (s, .ok true)
    else
      let x := s.fwXlt b va true
      match x.2 with
      | .leaf l =>
        let k := min len (l.va + pageBytes l.ps - va)
        if faSpace (l.fa va) = 0 then x.1.allHbm b n (va + k) (len - k) else (x.1, .ok false)
      | .wait => (x.1, .wait)
      | .ue fa lv => (x.1, .walkUe va fa lv)
      | _ => (x.1, .ok false)

end Sys2Proof.Machine
end

