-- ==== Sys2Proof/Machine/PowerOps.lean ====
section
/-! DEFINITION. Operating points, shares and floors (11_budgets.md R354 to R361). -/

namespace Sys2Proof.Machine

/-- Nominal pace of an operating point, in Mbeat/s (11 R354). -/
def opPace (n : Nat) : Nat :=
  [2520, 2400, 2300, 2200, 2100, 2000, 1900, 1800, 1700, 1620, 1540, 1460, 1380, 1300, 1200, 1100].getD n 1100

/-- TILEW of an operating point, in tenths of a watt (11 R354). -/
def opTilew (n : Nat) : Nat := [124, 110, 101, 92, 83, 77, 70, 64, 58, 54, 50, 47, 43, 40, 35, 31].getD n 31

/-- A bolt's shares as assigned, in units of 10 W (11 R359). -/
def State.share (s : State) (b : Nat) : Shares := mget Shares.reset s.power.shares b

/-- A bolt's shares in force (11 R362). -/
def State.shareInForce (s : State) (b : Nat) : Shares := mget Shares.reset s.power.inForce b

/-- Tiles of a bolt on this module. -/
def State.tileCount (s : State) (b : Nat) : Nat := (s.boltTiles b).length

/-- Resets a bolt's shares at a context load or a scene cue (11 R359). -/
def State.resetShares (s : State) (b : Nat) : State :=
  match s.loom.live.bolt? b with
  | none => s
  | some r =>
    let need := (s.tileCount b * opTilew r.floorOp + 99) / 100
    let c := min r.pwrRes need
    let v : Shares := ⟨c, r.pwrRes - c, 0⟩
    { s with power := { s.power with
        shares := mset Shares.reset s.power.shares b v, inForce := mset Shares.reset s.power.inForce b v } }

/-- The fastest operating point at or slower than `j` that fits a compute share (11 R360); `k` bounds the search. -/
def fitOp (n compute : Nat) : Nat → Nat → Option Nat
  | 0, _ => none
  | k + 1, j => if 15 < j then none else if n * opTilew j ≤ compute * 100 then some j else fitOp n compute k (j + 1)

/-- A bolt's granted floor (11 R360). -/
def State.grantedFloor (s : State) (b : Nat) : Option Nat :=
  match s.loom.live.bolt? b with
  | none => none
  | some r => fitOp (s.tileCount b) (s.shareInForce b).compute 16 r.floorOp

/-- A panel. -/
def State.panel (s : State) (p : Nat) : PanelPwr := mget PanelPwr.reset s.power.panels p

/-- Replaces a panel. -/
def State.setPanel (s : State) (p : Nat) (v : PanelPwr) : State :=
  { s with power := { s.power with panels := mset PanelPwr.reset s.power.panels p v } }

/-- The panels that hold tiles of a bolt. -/
def State.boltPanels (s : State) (b : Nat) : List Nat := [0, 1, 2, 3].filter (fun p => (s.boltTiles b).any (fun t => t / 64 == p))

/-- GUAR_FLOOR: the nominal pace of the granted floor; 0 with none (11 R360), or while a panel of the bolt is in intermission
(11 R367). -/
def State.guarFloor (s : State) (b : Nat) : Nat :=
  if (s.boltPanels b).any (fun p => decide ((s.panel p).duty < 64)) then 0
  else match s.grantedFloor b with
    | some j => opPace j
    | none => 0

/-- A panel's ceiling: OP0 less the steps that heat and droop have taken (11 R362, R369, R370). -/
def PanelPwr.ceil (x : PanelPwr) : Nat := min 15 (x.therm + x.droops.length)

/-- Does the bolt hold a loaded context? -/
def State.loaded (s : State) (b : Nat) : Bool :=
  match (s.ctx b).mode with
  | .ready | .running | .draining => true
  | _ => false

/-- Bolts with a loaded context and tiles on a panel (11 R361). -/
def State.panelBolts (s : State) (p : Nat) : List Nat :=
  (s.loom.live.bolts.filter (fun r => s.loaded r.bolt && (s.boltTiles r.bolt).any (fun t => t / 64 == p))).map (fun r => r.bolt)

/-- A panel's floor: the fastest granted floor among its bolts (11 R361). -/
def State.panelFloor (s : State) (p : Nat) : Option Nat :=
  ((s.panelBolts p).filterMap (fun b => s.grantedFloor b)).foldl
    (fun a j => match a with
      | some x => some (min x j)
      | none => some j) none

/-- Writes each panel's floor into its state. -/
def State.updateFloors (s : State) : State :=
  [0, 1, 2, 3].foldl (fun s p =>
    let f := s.panelFloor p
    s.setPanel p { s.panel p with floor := f.getD 15, hasFloor := f.isSome }) s

end Sys2Proof.Machine
end

