-- ==== Sys2Proof/Machine/DrainOps.lean ====
section
/-! DEFINITION. How a context leaves its slot, and drains (09_host_objects.md R307, R311, R315, R316; 03 R103;
10 R341). -/

namespace Sys2Proof.Machine

/-- Bytes of a saved tile image with KEEP, and of the register image alone (03 R63). -/
def fullImage : Nat := 17926144
def regImage : Nat := 34816

/-! ### Serving state at the end of a job (10 R341) -/

/-- Global indices of a bolt's cast entries. -/
def State.castRange (s : State) (b : Nat) : Nat × Nat :=
  match s.bolt? b with
  | some r => (r.castBase, r.castBase + r.castCount)
  | none => (0, 0)

/-- A bolt's serving engine. -/
def State.serveOf (s : State) (b : Nat) : Serve := mget Serve.reset s.serve b

/-- Replaces it. -/
def State.setServe (s : State) (b : Nat) (v : Serve) : State := { s with serve := mset Serve.reset s.serve b v }

/-- A job ends without its STEPEND: no update is applied, and INRO clears. -/
def State.endServing (s : State) (b : Nat) : State :=
  let r := s.castRange b
  let s := s.setServe b { s.serveOf b with items := none }
  { s with casts := s.casts.map (fun e => if r.1 ≤ e.1 ∧ e.1 < r.2 then (e.1, { e.2 with inro := false }) else e) }

/-! ### Leaving the slot -/

/-- A tile that its context has left. -/
def Tile.leave (t : Tile) : Tile := { t with run := .idle, streams := [], utlb := [] }

/-- The context leaves the slot: its references are released, its sessions close and its tiles wait idle; CTX_STAT becomes
EMPTY (R311, R316; 07 R244). `cause` goes into SESS CLOSE. -/
def State.ctxLeave (s : State) (b cause : Nat) : State :=
  let c := s.ctx b
  let s := (s.dropRef c.objA.toNat).dropRef c.objB.toNat
  let s := s.closeSessions b cause
  let s := s.mapTiles (s.boltTiles b) Tile.leave
  let s := s.updCtx b (fun c => { c with
    blks := [], blk := 0, prod := 0, kem := 0, kemKey := none, root := 0, objA := 0, objB := 0, saveAt := 0, saveLen := 0, loadQ := none, resume := false,
    opening := [], local_ := [], steps := [], reserved := [], drain := none, refuseNext := false })
  (s.setCtxMode b .empty).updateFloors

/-! ### Drains (R315, R316) -/

/-- Answers those who asked for a drain: booth sessions with DRAIN_STAT, CTX_UNLOAD calls with a status. -/
def State.drainAnswer (s : State) (b : Nat) (d : DrainSt) (status : Nat) : State :=
  let st := s.reg (blt b 0x198)
  let s := d.ses.foldl (fun s k => s.lateReply k 0x80 b boothOk [st]) s
  d.calls.foldl (fun s c =>
    match (s.queue c.1).calls.find? (fun x => x.index == c.2) with
    | some x => s.complete c.1 x (Completion.plain status)
    | none => s) s

/-- A drain that finds no bow point, or a held fault with SAVE = 0: DRAIN_STAT.RESET, DRAIN_TIMEOUT, and the bolt is reset
or torn down (R316). -/
def State.drainFail (s : State) (b held : Nat) : State :=
  match (s.ctx b).drain with
  | none => s
  | some d =>
    let s := ((s.updCtx b (fun c => { c with drain := none })).clrReg (blt b 0x198) 1).orReg (blt b 0x198) 4
    let s := s.raise (unitSh 2) 0x102 2 (some b) (s.reg (blt b 0x194)) held 0
    s.drainAnswer b { d with calls := [] } 0

/-- A tensor tile is held under a drain with SAVE = 0 (R316). -/
def State.drainHeld (s : State) (b : Nat) : State :=
  match (s.ctx b).drain with
  | some d => if d.save ∨ d.stopped then s else s.drainFail b 1
  | none => s

/-- A step not started is withdrawn: its cues and slots go, and its completion shows ADMIT = 0. Its call waits to be admitted
afresh: once the saved context is back, or at any time when the context is discarded (R316). -/
def State.withdraw (s : State) (b : Nat) (save : Bool) (r : StepRec) : State :=
  let area := if save then some (s.ctx b).saveAt else none
  let s := (s.disarmStep b r.seq).removeStep b r.seq
  let s := s.writeCompletion r.queue r.index { Completion.plain 0 with done := false }
  let u := s.queue r.queue
  s.setQueue r.queue { u with calls := u.calls.map (fun c =>
    if c.index = r.index then { c with started := false, awaits := area } else c) }

/-- Has a bolt a fault in its queue, or waiting for it? -/
def State.hasFault (s : State) (b : Nat) : Bool := !(s.faults b).entries.isEmpty || !(s.faults b).waiting.isEmpty

/-- A drain begins (R315, R316): admission stops, the bolt's steps are void for cause 0xB, and steps not started are withdrawn.
A second request joins the first. -/
def State.drainStart (s : State) (b : Nat) (save : Bool) (calls : List (Nat × Nat)) (ses : List Nat) : State :=
  match (s.ctx b).drain with
  | some d => s.updCtx b (fun c => { c with drain := some { d with calls := d.calls ++ calls, ses := d.ses ++ ses } })
  | none =>
    let s := s.setCtxMode b .draining
    let s := s.updCtx b (fun c => { c with drain := some {
      save := save, due := s.now + 1000 * s.reg (blt b 0x194), calls := calls, ses := ses, stopped := false } })
    let s := (s.orReg (blt b 0x198) 1).voidSteps b 0xB (unitSh 2)
    let s := ((s.ctx b).steps.filter (fun r => r.start.isNone)).foldl (fun s r => s.withdraw b save r) s
    if !save ∧ s.hasFault b then s.drainFail b 1 else s

/-- A request to drain a bolt: one that holds no context has nothing to stop, and DONE is set at once. While its reset,
teardown or strike runs, or its context loads, the request acts on nothing. -/
def State.drainRequest (s : State) (b : Nat) (save : Bool) (ses : List Nat) : State :=
  match (s.ctx b).mode with
  | .ready | .running | .draining => s.drainStart b save [] ses
  | .empty =>
    let s := (s.orReg (blt b 0x198) 2).boltEvent b
    s.drainAnswer b ⟨save, s.now, [], ses, false⟩ 0
  | _ => s.drainAnswer b ⟨save, s.now, [], ses, false⟩ 0

/-- The image of a tile: what a resume restores (03 R63, R103); the instruction buffer and the streams come afresh with the
production. Without KEEP the spool and the accumulators are undefined and no
weight buffer holds a format. -/
def State.tileImage (s : State) (keep : Bool) (t : Nat) : State × Tile :=
  let x := s.tile t
  let x := { x with run := (if x.run = .halted then .halted else .running), streams := [], utlb := [] }
  if keep then (s, x)
  else
    let e := s.freeCtr
    ({ s with freeCtr := e + 2 },
      { x with spool := Mem.empty.forget 0 spoolBytes e, acc := Mem.empty.forget 0 (2 ^ 20) (e + 1), w0 := WBuf.reset, w1 := WBuf.reset })

/-- Saves the tiles, by the local numbers that `num` gives, and the bytes of the save area (03 R103). -/
def State.saveTiles (s : State) (b : Nat) (num : Nat → Nat) (keep : Nat → Bool) : State × List (Nat × Tile) :=
  let ts := s.activeTiles b
  let r := ts.foldl (fun (a : State × List (Nat × Tile)) t =>
    let x := a.1.tileImage (keep t) t
    (x.1, a.2 ++ [(num t, x.2)])) (s, [])
  let len := ts.foldl (fun n t => n + (if keep t then fullImage else regImage)) 0
  (r.1.fwForget b (pagesIn len) (s.ctx b).saveAt.toNat len, r.2)

/-- Unfired cues of a step. -/
def State.stepCues (s : State) (b sq : Nat) : List CueSlotSt :=
  s.cues.filterMap (fun e => match e.2 with
    | some c => if e.1 < 65280 ∧ c.record.bolt.toNat = b ∧ c.stepSeq = some sq then some c else none
    | none => none)

/-- The tiles of a draining bolt have stopped at a bow point: the context is saved, or its state discarded, and leaves the
slot (R316). A step stopped at a BOW waits with its saved context, or completes JOB_ENDED. -/
def State.drainFinish (s : State) (b : Nat) (num : Nat → Nat) (keep : Nat → Bool) : State :=
  match (s.ctx b).drain with
  | none => s
  | some d =>
    let head := (s.ctx b).steps.head?
    let cues := (head.map (fun r => s.stepCues b r.seq)).getD []
    let s := s.disarmBolt b
    let s := if d.save then
        let v := s.saveTiles b num keep
        let sv : SavedCtx := {
          area := (s.ctx b).saveAt, tiles := v.2, step := head, items := (s.serveOf b).items, cues := cues, at_ := s.now }
        let s := v.1.setServe b { v.1.serveOf b with items := none }
        s.updCtx b (fun c => { c with steps := [], saved := c.saved.filter (fun x => x.area != sv.area) ++ [sv] })
      else match head with
        | some r => (s.endServing b).endStep b r 0x11 0
        | none => s
    let s := ((s.clrReg (blt b 0x198) 1).orReg (blt b 0x198) 2).ctxLeave b 0
    s.drainAnswer b d 0

end Sys2Proof.Machine
end

