-- ==== Sys2Proof/Machine/Fp.lean ====
section
/-! DEFINITION. The arithmetic of the engines (02_arithmetic.md): values, formats, rounding, flags. Every finite value is an
exact dyadic number until the one rounding that a rule names. -/

namespace Sys2Proof.Machine

/-! ### Flags (02 R60) -/

def flNV : Nat := 1
def flOF : Nat := 2
def flSAT : Nat := 4
def flNANCV : Nat := 8
def flUF : Nat := 16
def flNANIN : Nat := 32
def flSRWRAP : Nat := 64
def flMXNAN : Nat := 128

/-! ### Values -/

/-- A value: NaN, an infinity, or plus or minus `m × 2^e` (a zero keeps its sign). -/
inductive Fv
  | nan
  | inf (neg : Bool)
  | fin (neg : Bool) (m : Nat) (e : Int)
  deriving DecidableEq, Repr

/-- Is the value a NaN? -/
def Fv.isNan : Fv → Bool
  | .nan => true
  | _ => false

/-- The signed mantissa. -/
def sgn (neg : Bool) (m : Nat) : Int := if neg then -(m : Int) else (m : Int)

/-- Exact value times a power of two. -/
def Fv.scale (v : Fv) (k : Int) : Fv :=
  match v with
  | .fin n m e => .fin n m (e + k)
  | x => x

/-- `2^k` for a non-negative exponent. -/
def pow2 (k : Int) : Nat := 2 ^ k.toNat

/-- The mantissa of a finite value at the smaller exponent `lo`. -/
def alignTo (neg : Bool) (m : Nat) (e lo : Int) : Int := sgn neg (m * pow2 (e - lo))

/-- Number of bits of a mantissa. -/
def bitLen (m : Nat) : Nat := if m = 0 then 0 else Nat.log2 m + 1

/-! ### Formats (02 R29, R33) -/

/-- How a format encodes what is not finite: IEEE, E4M3's two NaN codes, or not at all. -/
inductive FmtSpecial
  | ieee | e4m3 | none_
  deriving DecidableEq, Repr

/-- A floating-point layout: exponent and fraction widths, bias, special codes. -/
structure Fmt where
  eb : Nat
  mb : Nat
  bias : Nat
  special : FmtSpecial
  deriving DecidableEq, Repr

def fmtFp32 : Fmt := ⟨8, 23, 127, .ieee⟩
def fmtBf16 : Fmt := ⟨8, 7, 127, .ieee⟩
def fmtE5m2 : Fmt := ⟨5, 2, 15, .ieee⟩
def fmtE4m3 : Fmt := ⟨4, 3, 7, .e4m3⟩
def fmtE3m2 : Fmt := ⟨3, 2, 3, .none_⟩
def fmtE2m3 : Fmt := ⟨2, 3, 1, .none_⟩
def fmtE2m1 : Fmt := ⟨2, 1, 1, .none_⟩

/-- Bits of a code. -/
def Fmt.width (f : Fmt) : Nat := 1 + f.eb + f.mb

/-- The exponent of the subnormal unit. -/
def Fmt.emin (f : Fmt) : Int := 1 - (f.bias : Int) - (f.mb : Int)

/-- The largest finite code without its sign. -/
def Fmt.maxCode (f : Fmt) : Nat :=
  match f.special with
  | .ieee => (2 ^ f.eb - 1) * 2 ^ f.mb - 1
  | .e4m3 => 0x7E
  | .none_ => 2 ^ (f.eb + f.mb) - 1

/-- The largest exponent of an element type (02 R33 emax). -/
def Fmt.emax (f : Fmt) : Int := (f.maxCode / 2 ^ f.mb : Nat) - (f.bias : Int)

/-- The canonical NaN (02 R30). -/
def Fmt.nan (f : Fmt) : Nat :=
  match f.special with
  | .ieee => (2 ^ f.eb - 1) * 2 ^ f.mb + 2 ^ (f.mb - 1)
  | .e4m3 => 0x7F
  | .none_ => 0

/-- The value of a code (02 R29). -/
def Fmt.decode (f : Fmt) (c : Nat) : Fv :=
  let neg := c / 2 ^ (f.eb + f.mb) % 2 == 1
  let e := c / 2 ^ f.mb % 2 ^ f.eb
  let m := c % 2 ^ f.mb
  let top := 2 ^ f.eb - 1
  if f.special = .ieee ∧ e = top then (if m = 0 then .inf neg else .nan)
  else if f.special = .e4m3 ∧ e = top ∧ m = 7 then .nan
  else if e = 0 then .fin neg m f.emin
  else .fin neg (m + 2 ^ f.mb) (f.emin + (e : Int) - 1)

/-! ### Rounding (02 R48, R49) -/

/-- Rounding modes; stochastic rounding carries its 24-bit dither. -/
inductive Rnd
  | rne
  | rtz
  | sr (r : Nat)
  deriving DecidableEq, Repr

/-- `m ÷ 2^d` rounded to an integer: the integer and whether it is inexact. -/
def roundShift (md : Rnd) (m d : Nat) : Nat × Bool :=
  let k := m / 2 ^ d
  let rem := m % 2 ^ d
  let up := match md with
    | .rne => decide (2 ^ d < 2 * rem) || (2 * rem == 2 ^ d && k % 2 == 1)
    | .rtz => false
    | .sr r => decide (2 ^ d * 2 ^ 24 ≤ rem * 2 ^ 24 + r * 2 ^ d)
  (if up then k + 1 else k, rem != 0)

/-- A magnitude `m × 2^e` rounded to a precision of `mb + 1` bits with least unit `2^emin`, the exponent unbounded above:
the integer, its unit's exponent, and whether the result is inexact. -/
def roundMag (mb : Nat) (emin : Int) (md : Rnd) (m : Nat) (e : Int) : Nat × Int × Bool :=
  let q := max ((bitLen m : Int) - ((mb : Int) + 1) + e) emin
  if q ≤ e then (m * pow2 (e - q), q, false)
  else
    let r := roundShift md m (q - e).toNat
    (r.1, q, r.2)

/-- The code, without its sign, of `k × 2^q` with `k` at most `2^(mb+1)`; the exponent field is unbounded. -/
def Fmt.magCode (f : Fmt) (k : Nat) (q : Int) : Nat :=
  if k < 2 ^ f.mb then k
  else if k < 2 ^ (f.mb + 1) then (q - f.emin + 1).toNat * 2 ^ f.mb + (k - 2 ^ f.mb)
  else (q - f.emin + 2).toNat * 2 ^ f.mb

/-- Sign bit of a code. -/
def Fmt.signed (f : Fmt) (neg : Bool) (c : Nat) : Nat := if neg then c + 2 ^ (f.eb + f.mb) else c

/-- What a finite value beyond the largest finite becomes. -/
inductive Over
  /-- ±infinity and OF -/
  | toInf
  /-- ±largest finite and SAT -/
  | clamp
  deriving DecidableEq, Repr

/-- A finite value rounded into a format: code and flags OF, SAT, UF (02 R44, R52). -/
def Fmt.encode (f : Fmt) (md : Rnd) (ov : Over) (neg : Bool) (m : Nat) (e : Int) : Nat × Nat :=
  if m = 0 then (f.signed neg 0, 0)
  else
    let r := roundMag f.mb f.emin md m e
    let c := f.magCode r.1 r.2.1
    if f.maxCode < c then
      match ov with
      | .toInf => (f.signed neg ((2 ^ f.eb - 1) * 2 ^ f.mb), flOF)
      | .clamp => (f.signed neg f.maxCode, flSAT)
    else (f.signed neg c, if r.2.2 && decide (c < 2 ^ f.mb) then flUF else 0)

/-! ### FP32 arithmetic (02 R30) -/

/-- An FP32 word as a value. -/
def fv (w : Word) : Fv := fmtFp32.decode w.toNat

/-- The canonical FP32 NaN. -/
def fpNan : Word := 0x7FC00000

/-- A value as an FP32 word, rounded to nearest even, with flags OF and UF. -/
def toFp32 (v : Fv) : Word × Nat :=
  match v with
  | .nan => (fpNan, 0)
  | .inf n => (if n then 0xFF800000 else 0x7F800000, 0)
  | .fin n m e =>
    let r := fmtFp32.encode .rne .toInf n m e
    (BitVec.ofNat 32 r.1, r.2)

/-- NANIN when one of the words is a NaN (02 R500). -/
def nanIn (l : List Word) : Nat := if l.any (fun w => (fv w).isNan) then flNANIN else 0

/-- The exact sum of two finite values; a zero sum is +0 unless both are −0. -/
def exactAdd (n1 : Bool) (m1 : Nat) (e1 : Int) (n2 : Bool) (m2 : Nat) (e2 : Int) : Fv :=
  if m1 = 0 ∧ m2 = 0 then .fin (n1 && n2) 0 0
  else
    let lo := min e1 e2
    let t := alignTo n1 m1 e1 lo + alignTo n2 m2 e2 lo
    if t = 0 then .fin false 0 0 else .fin (decide (t < 0)) t.natAbs lo

/-- Sum of two values, exact; the flag is NV. -/
def fvAdd (a b : Fv) : Fv × Nat :=
  match a, b with
  | .nan, _ => (.nan, 0)
  | _, .nan => (.nan, 0)
  | .inf x, .inf y => if x = y then (.inf x, 0) else (.nan, flNV)
  | .inf x, _ => (.inf x, 0)
  | _, .inf y => (.inf y, 0)
  | .fin n1 m1 e1, .fin n2 m2 e2 => (exactAdd n1 m1 e1 n2 m2 e2, 0)

/-- Product of two values, exact; the flag is NV. -/
def fvMul (a b : Fv) : Fv × Nat :=
  match a, b with
  | .nan, _ => (.nan, 0)
  | _, .nan => (.nan, 0)
  | .inf x, .inf y => (.inf (x != y), 0)
  | .inf x, .fin n m _ => if m = 0 then (.nan, flNV) else (.inf (x != n), 0)
  | .fin n m _, .inf y => if m = 0 then (.nan, flNV) else (.inf (n != y), 0)
  | .fin n1 m1 e1, .fin n2 m2 e2 => (.fin (n1 != n2) (m1 * m2) (e1 + e2), 0)

/-- The negative. -/
def Fv.neg : Fv → Fv
  | .nan => .nan
  | .inf x => .inf (!x)
  | .fin n m e => .fin (!n) m e

/-- Rounds an exact result to FP32 and joins its flags with those of its making. -/
def finish (r : Fv × Nat) : Word × Nat := ((toFp32 r.1).1, r.2 ||| (toFp32 r.1).2)

/-- FP32 addition with the flags of its rounding (02 R30). -/
def fpAddRaw (a b : Word) : Word × Nat := finish (fvAdd (fv a) (fv b))

/-- VADD, VSUB, VMUL, VFMA on one lane: result and flags, NANIN included (02 R30, R500). -/
def fpAdd (a b : Word) : Word × Nat := ((fpAddRaw a b).1, (fpAddRaw a b).2 ||| nanIn [a, b])
def fpSub (a b : Word) : Word × Nat :=
  let r := finish (fvAdd (fv a) (fv b).neg)
  (r.1, r.2 ||| nanIn [a, b])
def fpMul (a b : Word) : Word × Nat :=
  let r := finish (fvMul (fv a) (fv b))
  (r.1, r.2 ||| nanIn [a, b])
/-- `a × b + c`, rounded once. NV marks a NaN made of operands none of which is one (02 R60). -/
def fpFma (a b c : Word) : Word × Nat :=
  let p := fvMul (fv a) (fv b)
  let t := fvAdd p.1 (fv c)
  let r := finish (t.1, if (fv c).isNan then 0 else p.2 ||| t.2)
  (r.1, r.2 ||| nanIn [a, b, c])

/-- Order of two values that are not NaN: −1, 0 or 1; −0 equals +0. -/
def fvCmp (a b : Fv) : Int :=
  match a, b with
  | .inf x, .inf y => if x = y then 0 else if x then -1 else 1
  | .inf x, _ => if x then -1 else 1
  | _, .inf y => if y then 1 else -1
  | .fin n1 m1 e1, .fin n2 m2 e2 =>
    let lo := min e1 e2
    let t := alignTo n1 m1 e1 lo - alignTo n2 m2 e2 lo
    if t < 0 then -1 else if t = 0 then 0 else 1
  | _, _ => 0

/-- The sign bit. -/
def signBit (a : Word) : Bool := a.toNat / 2 ^ 31 == 1

/-- Maximum and minimum (02 R55): a NaN operand gives the canonical NaN, and −0 orders below +0. -/
def fpMax (a b : Word) : Word × Nat :=
  if (fv a).isNan || (fv b).isNan then (fpNan, flNANIN)
  else
    let c := fvCmp (fv a) (fv b)
    (if c < 0 then b else if 0 < c then a else if signBit a then b else a, 0)
def fpMin (a b : Word) : Word × Nat :=
  if (fv a).isNan || (fv b).isNan then (fpNan, flNANIN)
  else
    let c := fvCmp (fv a) (fv b)
    (if c < 0 then a else if 0 < c then b else if signBit a then a else b, 0)

/-- VABS and VNEG (02 R500): a NaN gives the canonical NaN. -/
def fpAbs (a : Word) : Word × Nat := if (fv a).isNan then (fpNan, flNANIN) else (a &&& 0x7FFFFFFF, 0)
def fpNeg (a : Word) : Word × Nat := if (fv a).isNan then (fpNan, flNANIN) else (a ^^^ 0x80000000, 0)

/-- Comparisons (02 R500, 03 R75): a NaN operand gives 0. -/
def fpCmp (p : Int → Bool) (a b : Word) : Bool × Nat :=
  if (fv a).isNan || (fv b).isNan then (false, flNANIN) else (p (fvCmp (fv a) (fv b)), 0)

/-! ### Special functions (02 R57 to R59) -/

/-- The integer that a finite value is, if it is one. -/
def exactInt (m : Nat) (e : Int) : Option Nat :=
  if 0 ≤ e then some (m * pow2 e) else if m % pow2 (-e) = 0 then some (m / pow2 (-e)) else none

/-- The exponent of a value that is a power of two, if it is one. -/
def exactLog (m : Nat) (e : Int) : Option Int :=
  if m ≠ 0 ∧ 2 ^ Nat.log2 m = m then some ((Nat.log2 m : Int) + e) else none

/-- Flag UF for a result that is subnormal or zero where the exact one is no FP32 value: such a result is inexact (02 R58). -/
def ufOf (w : Word) : Nat := if w.toNat % 2 ^ 31 < 2 ^ 23 then flUF else 0

/-- The product of the roots `2^(2^-1), 2^(2^-2), …` that the `n` low bits of `f` select, highest bit first, in fixed point
with `p` fractional bits; `r` is the first root. -/
def rootProduct (p : Nat) : Nat → Nat → Nat → Nat → Nat
  | 0, _, _, acc => acc
  | n + 1, r, f, acc =>
    rootProduct p n (Nat.sqrt (r * 2 ^ p)) f (if f / 2 ^ n % 2 = 1 then acc * r / 2 ^ p else acc)

/-- `2^(f ÷ 2^n)` for `f < 2^n`, in fixed point with `p` fractional bits, rounded down at each step. -/
def exp2Frac (p n f : Nat) : Nat := rootProduct p n (Nat.sqrt (2 * 2 ^ (2 * p))) f (2 ^ p)

/-- The two results within 1 ULP of `2^x`, `x` no integer: which one is a free choice of the operand (02 R57). -/
def exp2Result (neg : Bool) (m : Nat) (e : Int) (a : Word) : Word × Nat :=
  let n := (-e).toNat
  let q := sgn neg m / (2 ^ n : Nat)
  let acc := exp2Frac 256 n (sgn neg m % (2 ^ n : Nat)).toNat
  let u := max (q - 23) (-149)
  let k := acc / pow2 (256 + u - q) + (Config.sfu 0 a).toNat % 2
  let r := toFp32 (.fin false (if q = 127 then min k (2 ^ 24 - 1) else k) u)
  (r.1, r.2 ||| ufOf r.1)

/-- `n` fractional bits of the logarithm of `z`, at least 1 and below 2, in fixed point with `p` fractional bits. -/
def log2Frac (p : Nat) : Nat → Nat → Nat
  | 0, _ => 0
  | n + 1, z =>
    let y := z * z / 2 ^ p
    if 2 * 2 ^ p ≤ y then 2 ^ n + log2Frac p n (y / 2) else log2Frac p n y

/-- A finite value in fixed point with 128 fractional bits, rounded towards zero. -/
def fixed128 (n : Bool) (m : Nat) (e : Int) : Int :=
  sgn n (if 0 ≤ e + 128 then m * pow2 (e + 128) else m / pow2 (-(e + 128)))

/-- A result within the bound of log2 (02 R57) for a positive `x` that is no power of two: from 0.75 to 1.5 any word at most
2^-22 away, else one of the four within 2 ULP; which one is a free choice of the operand. -/
def log2Result (m : Nat) (e : Int) (a : Word) : Word × Nat :=
  let l : Int := e + bitLen m - 1
  let y : Int := l * (2 ^ 128 : Nat) + log2Frac 256 128 (m * 2 ^ 256 / 2 ^ (bitLen m - 1))
  let size := y.natAbs
  let u : Int := (bitLen size : Int) - 24 - 128
  let k := size / 2 ^ (bitLen size - 24) + (Config.sfu 1 a).toNat % 4 - 1
  let near := decide (0 ≤ fvCmp (.fin false m e) (.fin false 3 (-2))) && decide (fvCmp (.fin false m e) (.fin false 3 (-1)) ≤ 0)
  let w := Config.sfu 1 a
  let ok := match fv w with
    | .fin n k x => decide ((fixed128 n k x - y).natAbs ≤ 2 ^ 106)
    | _ => false
  let r := if near && ok then w else (toFp32 (.fin (decide (y < 0)) k u)).1
  (r, ufOf r)

/-- `log2 e` in fixed point with 192 fractional bits. -/
def log2e : Nat := 9055943544797870567083544809312461607371518589544137143473

/-- One of the four results within 2 ULP of `tanh x`, `x` at least 2^-12 in magnitude: which one is a free choice of the
operand (02 R57). It is `(E − 1) ÷ (E + 1)` with `E = 2^(2 |x| log2 e)`. -/
def tanhResult (n : Bool) (m : Nat) (e : Int) (a : Word) : Word × Nat :=
  let y :=
    if 0 ≤ fvCmp (.fin false m e) (.fin false 64 0) then 2 ^ 160 - 1
    else
      let t := m * log2e * pow2 (e + 1 + 128) / 2 ^ 192
      let c := exp2Frac 256 128 (t % 2 ^ 128) * 2 ^ (t / 2 ^ 128)
      (c - 2 ^ 256) * 2 ^ 160 / (c + 2 ^ 256)
  let k := y / 2 ^ (bitLen y - 24) + (Config.sfu 4 a).toNat % 4 - 1
  toFp32 (.fin n k ((bitLen y : Int) - 24 - 160))

/-- The two results within 1 ULP of `1 ÷ (m × 2^e)`, `m` no power of two: which one is a free choice of the operand. -/
def rcpResult (n : Bool) (m : Nat) (e : Int) (a : Word) : Word × Nat :=
  let u := max (-(bitLen m : Int) - e - 23) (-149)
  let k := pow2 (-e - u) / m + (Config.sfu 2 a).toNat % 2
  let r := toFp32 (.fin n k u)
  (r.1, r.2 ||| ufOf r.1)

/-- The four results within 2 ULP of `1 ÷ √(m × 2^e)`, its square no power of four: which one is a free choice of the
operand. -/
def rsqrtResult (m : Nat) (e : Int) (a : Word) : Word × Nat :=
  let u := -(((bitLen m : Int) - 1 + e) / 2) - 24
  let k := Nat.sqrt (pow2 (-e - 2 * u) / m) + (Config.sfu 3 a).toNat % 4 - 1
  toFp32 (.fin false k u)

/-- exp2 (02 R57, R58). -/
def fpExp2 (a : Word) : Word × Nat :=
  match fv a with
  | .nan => (fpNan, flNANIN)
  | .inf n => (if n then 0 else 0x7F800000, 0)
  | .fin n m e =>
    if m = 0 then (0x3F800000, 0)
    else if !n && decide (0 ≤ fvCmp (.fin false m e) (.fin false 128 0)) then (0x7F800000, flOF)
    else if n && decide (0 ≤ fvCmp (.fin false m e) (.fin false 150 0)) then (0, flUF)
    else match exactInt m e with
      | some k => toFp32 (.fin false 1 (sgn n k))
      | none => exp2Result n m e a

/-- log2 (02 R57, R58). -/
def fpLog2 (a : Word) : Word × Nat :=
  match fv a with
  | .nan => (fpNan, flNANIN)
  | .inf n => if n then (fpNan, flNV) else (0x7F800000, 0)
  | .fin n m e =>
    if m = 0 then (0xFF800000, 0)
    else if n then (fpNan, flNV)
    else match exactLog m e with
      | some k => toFp32 (.fin (decide (k < 0)) k.natAbs 0)
      | none => log2Result m e a

/-- rcp (02 R57, R58). -/
def fpRcp (a : Word) : Word × Nat :=
  match fv a with
  | .nan => (fpNan, flNANIN)
  | .inf n => (if n then 0x80000000 else 0, 0)
  | .fin n m e =>
    if m = 0 then (if n then 0xFF800000 else 0x7F800000, 0)
    else match exactLog m e with
      | some k => toFp32 (.fin n 1 (-k))
      | none =>
        -- 1/x lies beyond the FP32 range for |x| below 2^-128
        if decide (fvCmp (.fin false m e) (.fin false 1 (-128)) < 0) then (if n then 0xFF800000 else 0x7F800000, flOF)
        else rcpResult n m e a

/-- rsqrt (02 R57, R58). -/
def fpRsqrt (a : Word) : Word × Nat :=
  match fv a with
  | .nan => (fpNan, flNANIN)
  | .inf n => if n then (fpNan, flNV) else (0, 0)
  | .fin n m e =>
    if m = 0 then (if n then 0xFF800000 else 0x7F800000, 0)
    else if n then (fpNan, flNV)
    else match exactLog m e with
      | some k => if k % 2 = 0 then toFp32 (.fin false 1 (-(k / 2))) else rsqrtResult m e a
      | none => rsqrtResult m e a

/-- tanh (02 R57, R58): below 2^-12 in magnitude the result is x. -/
def fpTanh (a : Word) : Word × Nat :=
  match fv a with
  | .nan => (fpNan, flNANIN)
  | .inf n => (if n then 0xBF800000 else 0x3F800000, 0)
  | .fin n m e =>
    if decide (fvCmp (.fin false m e) (.fin false 1 (-12)) < 0) then (a, if m = 0 then 0 else ufOf a)
    else tanhResult n m e a

/-! ### The dither generator (02 R50) -/

/-- The 24-bit dither of a seed, a bolt-local tile number and a counter. -/
def dither (seed : DWord) (t : BitVec 16) (c : BitVec 48) : Nat :=
  let x := seed ^^^ (t.setWidth 64 <<< 48) ^^^ c.setWidth 64
  let z := x + 0x9E3779B97F4A7C15#64
  let z := (z ^^^ (z >>> 30)) * 0xBF58476D1CE4E5B9#64
  let z := (z ^^^ (z >>> 27)) * 0x94D049BB133111EB#64
  let z := z ^^^ (z >>> 31)
  (z >>> 40).toNat

/-! ### Narrowing (02 R48 to R53) -/

/-- INT8 (02 R52): code and flags. -/
def toInt8 (md : Rnd) (v : Fv) : Nat × Nat :=
  match v with
  | .nan => (0, flNANCV)
  | .inf n => (if n then 0x80 else 0x7F, flSAT)
  | .fin n m e =>
    let k := if 0 ≤ e then m * pow2 e else (roundShift md m (-e).toNat).1
    let t := sgn n k
    if 127 < t then (0x7F, flSAT)
    else if t < -128 then (0x80, flSAT)
    else ((BitVec.ofInt 8 t).toNat, if k = 0 ∧ m ≠ 0 then flUF else 0)

/-- BF16, E5M2, E4M3 (02 R52): code and flags. -/
def toBf16 (md : Rnd) (v : Fv) : Nat × Nat :=
  match v with
  | .nan => (0x7FC0, flNANIN)
  | .inf n => (fmtBf16.signed n 0x7F80, 0)
  | .fin n m e => fmtBf16.encode md (if md = .rtz then .clamp else .toInf) n m e
def toE5m2 (md : Rnd) (v : Fv) : Nat × Nat :=
  match v with
  | .nan => (0x7E, flNANIN)
  | .inf n => (fmtE5m2.signed n 0x7C, 0)
  | .fin n m e => fmtE5m2.encode md .clamp n m e
def toE4m3 (md : Rnd) (v : Fv) : Nat × Nat :=
  match v with
  | .nan => (0x7F, flNANIN)
  | .inf n => (fmtE4m3.signed n 0x7E, flSAT)
  | .fin n m e => fmtE4m3.encode md .clamp n m e

/-- The scale byte of an MX block of finite values and whether its clamp applied (02 R53 steps 2 and 3). -/
def mxScale (f : Fmt) (vs : List Fv) : Nat × Bool :=
  let top := vs.foldl (fun a v => match v with
    | .fin _ m e => if m = 0 then a else
        (match a with
         | some x => some (max x ((bitLen m : Int) - 1 + e))
         | none => some ((bitLen m : Int) - 1 + e))
    | _ => a) (none : Option Int)
  match top with
  | none => (0, false)
  | some t =>
    let x := t - f.emax
    let c := max (-127) (min x 127)
    ((c + 127).toNat, c != x)

/-- An MX element of a value under a scale byte: code and flags (02 R53 step 4). -/
def mxElem (f : Fmt) (md : Rnd) (scale : Nat) (v : Fv) : Nat × Nat :=
  match v.scale (127 - (scale : Int)) with
  | .fin n m e => f.encode md .clamp n m e
  | _ => (0, 0)

/-! ### Twill-3 (02 R36 to R39) -/

/-- The codebook, in sixteenths. -/
def twillCode (c : Nat) : Int := [(-16 : Int), -10, -5, 0, 4, 8, 12, 16].getD c 0

/-- The value of a Twill-3 element from its code, its block's offset and its group's exponent. -/
def twillValue (c o g : Nat) : Fv :=
  if g = 0xFF then .nan
  else
    let v := twillCode c
    let base : Fv := .fin (decide (v < 0)) v.natAbs ((g : Int) - 127 - 4)
    if o % 2 = 0 then base.scale (-((o / 2 : Nat) : Int))
    else match base with
      | .fin n m e => .fin n (m * 3) (e - 2 - (((o - 1) / 2 : Nat) : Int))
      | x => x

/-! ### The exact sum of a beat (02 R42 to R45) -/

/-- The running exact sum of one column: NaN seen, NaN from a scale seen, NV seen, infinities seen, and the finite part. -/
structure Beat where
  nan : Bool
  mxnan : Bool
  nv : Bool
  pinf : Bool
  ninf : Bool
  /-- every term so far is −0 -/
  allNegZero : Bool
  sum : Int
  exp : Int

/-- Adds one exact term. -/
def Beat.add (b : Beat) (v : Fv) : Beat :=
  match v with
  | .nan => { b with nan := true }
  | .inf n => if n then { b with ninf := true, allNegZero := false } else { b with pinf := true, allNegZero := false }
  | .fin n m e =>
    if m = 0 then { b with allNegZero := b.allNegZero && n }
    else
      let lo := min b.exp e
      { b with
        allNegZero := false
        sum := b.sum * (pow2 (b.exp - lo) : Nat) + alignTo n m e lo
        exp := lo }

/-- An integer has one zero, +0 (02 R46). -/
def Fv.int (v : Fv) : Fv :=
  match v with
  | .fin _ 0 e => .fin false 0 e
  | _ => v

/-- Adds a product of an activation and a weight. `int` says that both are integers (02 R46); `scaleNan` marks a weight whose
scale is NaN. -/
def Beat.addProduct (b : Beat) (int : Bool) (a w : Fv) (scaleNan : Bool) : Beat :=
  if scaleNan then { b with nan := true, mxnan := true }
  else if a.isNan || w.isNan then { b with nan := true }
  else
    let p := fvMul a w
    if p.2 ≠ 0 then { b with nv := true } else b.add (if int then p.1.int else p.1)

/-- The beat with the accumulator alone. -/
def Beat.start (acc : Fv) : Beat := (⟨false, false, false, false, false, true, 0, 0⟩ : Beat).add acc

/-- The column's rounded result and flags (02 R44, R45). -/
def Beat.result (b : Beat) : Word × Nat :=
  if b.nan then (fpNan, flNANIN ||| (if b.mxnan then flMXNAN else 0))
  else if b.nv || (b.pinf && b.ninf) then (fpNan, flNV)
  else if b.pinf then (0x7F800000, 0)
  else if b.ninf then (0xFF800000, 0)
  else if b.sum = 0 then (if b.allNegZero then 0x80000000 else 0, 0)
  else toFp32 (.fin (decide (b.sum < 0)) b.sum.natAbs b.exp)

end Sys2Proof.Machine
end

