-- ==== Sys2Proof/Machine/Operands.lean ====
section
/-! DEFINITION. Operands of the tile's slots (03_engine_tile.md R66 to R69, R76; 02_arithmetic.md R28, R35, R39, R41):
format codes, rows of the spool, packed elements, vector lanes. -/

namespace Sys2Proof.Machine

/-! ### Format codes (03 R69) -/

/-- An MX format: codes 0x5 to 0x9. -/
def fmtIsMx (c : Nat) : Bool := decide (5 ≤ c ∧ c ≤ 9)

/-- A format of six bits or fewer, whose weights run in dual mode (02 R41). -/
def fmtDual (c : Nat) : Bool := decide (7 ≤ c ∧ c ≤ 10)

/-- Layout of the elements of a floating-point format. -/
def fmtElem (c : Nat) : Fmt :=
  match c with
  | 1 => fmtBf16
  | 2 | 5 => fmtE4m3
  | 3 | 6 => fmtE5m2
  | 7 => fmtE3m2
  | 8 => fmtE2m3
  | 9 => fmtE2m1
  | _ => fmtFp32

/-- Bits of an element. -/
def elemBits (c : Nat) : Nat :=
  match c with
  | 0 => 32
  | 1 => 16
  | 7 | 8 => 6
  | 9 => 4
  | 10 => 3
  | _ => 8

/-- Bytes of a row of `n` elements; a Twill-3 row is one group of 101 bytes (02 R39). -/
def rowBytes (c n : Nat) : Nat := if c = 10 then 101 else n * elemBits c / 8

/-- Alignment of a row (03 R68). -/
def fmtAlign (c : Nat) : Nat := if c = 10 then 1 else 16

/-- Elements of a weight column along the reduction dimension (03 R71). -/
def redLen (c : Nat) : Nat := if fmtDual c then 256 else 128

/-- Where R28 allows a format: weights, activations, write-back, vector store. -/
def fmtWeight (c : Nat) : Bool := decide (1 ≤ c ∧ c ≤ 10)
def fmtActivation (c : Nat) : Bool := decide (1 ≤ c ∧ c ≤ 4)
def fmtWriteBack (c : Nat) : Bool := decide (c ≤ 4)
def fmtStore (c : Nat) : Bool := decide (c ≤ 9)

/-- The weight and activation pairs of 02 R41. -/
def fmtPair (w a : Nat) : Bool :=
  match w with
  | 1 => a == 1
  | 4 => a == 4
  | 2 | 3 | 5 | 6 | 7 | 8 | 9 | 10 => a == 2 || a == 3
  | _ => false

/-! ### Registers of a tile -/

/-- Address register. -/
def Tile.a (t : Tile) (k : Nat) : Nat := (mget 0 t.aReg k).toNat
/-- Its signed step. -/
def Tile.stepOf (t : Tile) (k : Nat) : Int := (mget 0 t.aStep k).toInt
/-- Sets an address register, modulo 2^24. -/
def Tile.setA (t : Tile) (k : Nat) (v : Int) : Tile := { t with aReg := mset 0 t.aReg k (BitVec.ofInt 24 v) }
/-- Sets a step. -/
def Tile.setStep (t : Tile) (k : Nat) (v : BitVec 22) : Tile := { t with aStep := mset 0 t.aStep k v }
/-- Integer register. -/
def Tile.i (t : Tile) (k : Nat) : Nat := (mget 0 t.iReg k).toNat
/-- Sets an integer register. -/
def Tile.setI (t : Tile) (k v : Nat) : Tile := { t with iReg := mset 0 t.iReg k (BitVec.ofNat 32 v) }
/-- Lane of a vector register. -/
def Tile.lane (t : Tile) (v l : Nat) : Word := mget 0 t.vReg (v * 256 + l)
/-- The 256 lanes of a vector register. -/
def Tile.lanes (t : Tile) (v : Nat) : List Word := (List.range 256).map (t.lane v)
/-- A mask register; M0 reads as all ones (03 R63). -/
def Tile.mask (t : Tile) (m : Nat) : Nat := if m = 0 then 2 ^ 256 - 1 else (mget 0 t.mReg m).toNat
/-- Sets a mask register; M0 cannot be written. -/
def Tile.setMask (t : Tile) (m v : Nat) : Tile :=
  if m = 0 then t else { t with mReg := mset 0 t.mReg m (BitVec.ofNat 256 v) }
/-- Semaphore. -/
def Tile.sem (t : Tile) (k : Nat) : Nat := mget 0 t.sems k
/-- Sets a semaphore. -/
def Tile.setSem (t : Tile) (k v : Nat) : Tile := { t with sems := mset 0 t.sems k v }
/-- A shuttle stream. -/
def Tile.stream (t : Tile) (k : Nat) : StreamQ := mget StreamQ.reset t.streams k
/-- Replaces a stream. -/
def Tile.setStream (t : Tile) (k : Nat) (q : StreamQ) : Tile := { t with streams := mset StreamQ.reset t.streams k q }

/-- Writes the lanes of a vector register whose mask bit is 1, from lane `l` on. -/
def Tile.putLanes (t : Tile) (v mask : Nat) : Nat → List Word → Tile
  | _, [] => t
  | l, w :: ws =>
    (if bit mask l then { t with vReg := mset 0 t.vReg (v * 256 + l) w } else t).putLanes v mask (l + 1) ws

/-! ### Spool rows (03 R67) -/

/-- Address of row `r` of the operand at An. -/
def Tile.rowAddr (t : Tile) (k r : Nat) : Nat := (((t.a k : Int) + r * t.stepOf k) % 2 ^ 24).toNat

/-- The first row, of the `left` rows from `r` on, that is misaligned or runs past byte 0xFF_FFFF. -/
def Tile.badRow (t : Tile) (k w al : Nat) : Nat → Nat → Option Nat
  | _, 0 => none
  | r, left + 1 =>
    let x := t.rowAddr k r
    if x % al ≠ 0 ∨ spoolTop < x + w then some x else t.badRow k w al (r + 1) left
where
  /-- One past the last byte of the spool. -/
  spoolTop : Nat := 2 ^ 24

/-- An operand's register after issue: An + n × step(An), from its value before the bundle. -/
def Tile.advance (t t0 : Tile) (k n : Nat) : Tile := t.setA k ((t0.a k : Int) + n * t0.stepOf k)

/-- The bytes of row `r`. -/
def Tile.row (t : Tile) (k r w : Nat) : List Byte := t.spool.bytes (t.rowAddr k r) w

/-! ### Packed elements (02 R35, R39) -/

/-- `n` elements of `b` bits each, least significant first. -/
def unpackElems (b : Nat) : Nat → Nat → List Nat
  | 0, _ => []
  | n + 1, w => w % 2 ^ b :: unpackElems b n (w / 2 ^ b)

/-- Elements of `b` bits packed least significant first. -/
def packElems (b : Nat) : List Nat → Nat
  | [] => 0
  | c :: cs => c % 2 ^ b + 2 ^ b * packElems b cs

/-- A signed byte as a value. -/
def int8Value (c : Nat) : Fv := .fin (decide (128 ≤ c % 256)) (toSigned 8 c).natAbs 0

/-- Value of an element of a scalar format or of an MX element before its scale. -/
def elemValue (c code : Nat) : Fv := if c = 4 then int8Value code else (fmtElem c).decode code

/-- Element codes and scale codes of a weight column or of a vector operand: MX scale bytes, or a Twill-3 group's eight
block offsets and its exponent. -/
def readElems (c n : Nat) (row scale : List Byte) : List Nat × List Nat :=
  let w := leNat row
  if c = 10 then (unpackElems 3 256 w, unpackElems 4 8 (w / 2 ^ 768) ++ [w / 2 ^ 800 % 256])
  else (unpackElems (elemBits c) n w, if fmtIsMx c then scale.map (fun x => x.toNat) else [])

/-- Value of element `k` of such a row, and whether its scale is NaN (02 R34, R38). -/
def rowValue (c k code : Nat) (scales : List Nat) : Fv × Bool :=
  if c = 10 then (twillValue code (scales.getD (k / 32) 0) (scales.getD 8 0), scales.getD 8 0 == 0xFF)
  else if fmtIsMx c then
    let x := scales.getD (k / 32) 0
    if x = 0xFF then (.nan, true) else ((elemValue c code).scale ((x : Int) - 127), false)
  else (elemValue c code, false)

/-- Values of a whole row. -/
def rowValues (c : Nat) (codes scales : List Nat) : List (Fv × Bool) :=
  codes.zipIdx.map (fun x => rowValue c x.2 x.1 scales)

end Sys2Proof.Machine
end

