-- ==== Sys2Proof/Machine/Flags.lean ====
section
/-! DEFINITION. The arithmetic status word and the dither counter of a tile (02_arithmetic.md R50, R51, R60), and the
narrowing conversions of write-backs and stores with their flags (R48 to R53). -/

namespace Sys2Proof.Machine

/-- Sets flags; they are sticky (02 R60). -/
def Tile.flag (t : Tile) (f : Nat) : Tile := { t with status := t.status ||| BitVec.ofNat 32 f }

/-- CSTAT: clears the flags whose mask bit is 1. -/
def Tile.clearFlags (t : Tile) (mask : Nat) : Tile := { t with status := t.status &&& ~~~(BitVec.ofNat 32 mask) }

/-- Joins the flags of a list of results. -/
def joinFlags (l : List (Nat × Nat)) : Nat := l.foldl (fun a x => a ||| x.2) 0

/-- Draws `n` counter values: their dithers in order, and the tile with the counter advanced; a wrap sets SRWRAP (02 R51). -/
def Tile.drawDither (t : Tile) (lt n : Nat) : List Nat × Tile :=
  let ds := (List.range n).map (fun k => Machine.dither t.seed (BitVec.ofNat 16 lt) (t.dither + BitVec.ofNat 48 k))
  let u := { t with dither := t.dither + BitVec.ofNat 48 n }
  (ds, if 2 ^ 48 ≤ t.dither.toNat + n then u.flag flSRWRAP else u)

/-- The rounding mode of an encoding, with the dither that stochastic rounding uses. -/
def rndOf (code d : Nat) : Rnd :=
  match code with
  | 1 => .rtz
  | 2 => .sr d
  | _ => .rne

/-- The modes of `n` conversions under an encoding, in order; the counter advances once for each under SR, and FP32 draws
none (02 R51). -/
def Tile.roundings (t : Tile) (lt fmt rnd n : Nat) : List Rnd × Tile :=
  if rnd = 2 ∧ fmt ≠ 0 then
    let d := t.drawDither lt n
    (d.1.map (fun x => rndOf 2 x), d.2)
  else (List.replicate n (rndOf rnd 0), t)

/-- Converts an FP32 word to a scalar format: code and flags; FP32 converts nothing (02 R51, R52). -/
def narrow (fmt : Nat) (md : Rnd) (w : Word) : Nat × Nat :=
  match fmt with
  | 1 => toBf16 md (fv w)
  | 2 => toE4m3 md (fv w)
  | 3 => toE5m2 md (fv w)
  | 4 => toInt8 md (fv w)
  | _ => (w.toNat, 0)

/-- Stores an MX block of 32 words: scale byte, element codes, flags (02 R53). -/
def mxBlock (fmt : Nat) (ws : List Word) (mds : List Rnd) : Nat × List Nat × Nat :=
  let vs := ws.map fv
  if vs.any (fun v => match v with
      | .fin _ _ _ => false
      | _ => true) then (0xFF, List.replicate 32 0, flMXNAN)
  else
    let f := fmtElem fmt
    let sc := mxScale f vs
    if vs.all (fun v => match v with
        | .fin _ m _ => m == 0
        | _ => false) then (0, List.replicate 32 0, 0)
    else
      let es := (vs.zip mds).map (fun x => mxElem f x.2 sc.1 x.1)
      (sc.1, es.map (fun e => e.1), joinFlags es ||| (if sc.2 then flSAT else 0))

end Sys2Proof.Machine
end

