-- ==== Sys2Proof/Machine/TileMatrix.lean ====
section
/-! DEFINITION. The matrix slot (03_engine_tile.md R70 to R73): what its word may hold, and what it does. -/

namespace Sys2Proof.Machine

/-- A fault found at issue: code, and the arguments of 03 R106. -/
structure TFault where
  code : Nat
  a0 : Nat
  a1 : Nat
  a2 : Nat
  deriving DecidableEq, Repr

/-- PC and slot (03 R106). -/
def pcSlot (pc k : Nat) : Nat := pc % 2 ^ 13 + 2 ^ 16 * k

/-- TF_ILLEGAL of a slot. -/
def illegal (pc k w : Nat) (c : Bool) : List TFault := if c then [⟨1, pcSlot pc k, w, 0⟩] else []

/-- TF_SPOOL of an operand of `n` rows of `w` bytes. -/
def spoolFault (t : Tile) (pc k a n w al : Nat) : List TFault :=
  match t.badRow a w al 0 n with
  | some x => [⟨4, pcSlot pc k, x, w⟩]
  | none => []

/-- TF_FMT of an instruction other than MMUL: its format field. -/
def fmtFault (pc k f : Nat) (bad : Bool) : List TFault := if bad then [⟨2, pcSlot pc k, f, 0⟩] else []

/-- TF_ACC: rows beyond 2,047. -/
def accFault (pc acc n : Nat) : List TFault := if 2048 < acc + n then [⟨5, pcSlot pc 0, acc, n⟩] else []

/-- A weight buffer. -/
def Tile.wbuf (t : Tile) (k : Nat) : WBuf := if k = 0 then t.w0 else t.w1

/-- Bytes of an activation row for a buffer's format: 128 elements, or 256 in dual mode. -/
def actBytes (a : Nat) (w : WBuf) : Nat :=
  rowBytes a (match w.fmt with
    | some f => redLen f.toNat
    | none => 128)

/-- Faults of a matrix slot, in the order of their codes (03 R106). MWB's destination rows keep the alignment of the rows that
R68 lists, 16 bytes (DESIGN CHOICE, log 99). -/
def matrixFaults (t : Tile) (w : Nat) : List TFault :=
  match w / 2 ^ 27 with
  | 0 => illegal t.pc 0 w (w != 0)
  | 1 =>
    let f := bits w 25 22
    illegal t.pc 0 w (decide (11 ≤ f) || bits w 13 0 != 0 || (!fmtIsMx f && bits w 17 14 != 0))
    ++ fmtFault t.pc 0 f (!fmtWeight f)
    ++ spoolFault t t.pc 0 (bits w 21 18) 128 (rowBytes f (redLen f)) (fmtAlign f)
    ++ (if fmtIsMx f then spoolFault t t.pc 0 (bits w 17 14) 128 (redLen f / 32) 1 else [])
  | 2 =>
    let f := bits w 25 22
    let b := t.wbuf (bits w 26 26)
    let wf := match b.fmt with
      | some x => x.toNat
      | none => 15
    illegal t.pc 0 w (decide (11 ≤ f) || bit w 17)
    ++ (if fmtActivation f && fmtPair wf f then [] else [⟨2, pcSlot t.pc 0, f + 16 * wf, 0⟩])
    ++ spoolFault t t.pc 0 (bits w 21 18) (bits w 5 0 + 1) (actBytes f b) 16
    ++ accFault t.pc (bits w 16 6) (bits w 5 0 + 1)
  | 3 =>
    let f := bits w 26 23
    illegal t.pc 0 w (decide (11 ≤ f))
    ++ fmtFault t.pc 0 f (!fmtWriteBack f)
    ++ (if bits w 22 21 = 3 then [⟨3, pcSlot t.pc 0, w, 0⟩] else [])
    ++ spoolFault t t.pc 0 (bits w 20 17) (bits w 4 0 + 1) (rowBytes f 128) 16
    ++ accFault t.pc (bits w 15 5) (bits w 4 0 + 1)
  | 4 => illegal t.pc 0 w (bits w 4 0 != 0) ++ accFault t.pc (bits w 26 16) (bits w 15 5 + 1)
  | _ => illegal t.pc 0 w true

/-- Address registers that a matrix slot names (03 R66, R502). -/
def matrixRegs (w : Nat) : List Nat :=
  match w / 2 ^ 27 with
  | 1 => if fmtIsMx (bits w 25 22) then [bits w 21 18, bits w 17 14] else [bits w 21 18]
  | 2 => [bits w 21 18]
  | 3 => [bits w 20 17]
  | _ => []

/-! ### Effects. `t0` is the tile before the bundle, `t` the tile so far. -/

/-- MLDW: 128 columns into a weight buffer (03 R71). -/
def runMldw (t0 t : Tile) (w : Nat) : Tile :=
  let f := bits w 25 22
  let ae := bits w 21 18
  let ax := bits w 17 14
  let cols := (List.range 128).map (fun j =>
    readElems f (redLen f) (t0.row ae j (rowBytes f (redLen f)))
      (if fmtIsMx f then t0.row ax j (redLen f / 32) else []))
  let b : WBuf := ⟨some (BitVec.ofNat 4 f), cols.map (fun c => c.1), cols.map (fun c => c.2)⟩
  let t := if bits w 26 26 = 0 then { t with w0 := b } else { t with w1 := b }
  let t := t.advance t0 ae 128
  if fmtIsMx f then t.advance t0 ax 128 else t

/-- One beat of one column: the accumulator and the products, of integers where `int`, summed exactly and rounded once (02 R42
to R46). -/
def beatColumn (int : Bool) (acc : Word) (acts : List (Fv × Bool)) (weights : List (Fv × Bool)) : Word × Nat :=
  ((acts.zip weights).foldl (fun b p => b.addProduct int p.1.1 p.2.1 p.2.2) (Beat.start (fv acc))).result

/-- An accumulator. -/
def Tile.accAt (t : Tile) (row col : Nat) : Word := BitVec.ofNat 32 (t.acc.num (row * 512 + col * 4) 4)

/-- Sets an accumulator. -/
def Tile.setAcc (t : Tile) (row col : Nat) (v : Word) : Tile :=
  { t with acc := t.acc.setNum (row * 512 + col * 4) 4 v.toNat }

/-- One activation row against every column of the weight slice. -/
def mmulRow (int : Bool) (t : Tile) (row : Nat) (acts : List (Fv × Bool)) (cols : List (List (Fv × Bool))) : Tile :=
  cols.zipIdx.foldl (fun t c =>
    let r := beatColumn int (t.accAt row c.2) acts c.1
    (t.setAcc row c.2 r.1).flag r.2) t

/-- MMUL: CNT + 1 activation rows (03 R72). -/
def runMmul (t0 t : Tile) (w : Nat) : Tile :=
  let f := bits w 25 22
  let aa := bits w 21 18
  let b := t0.wbuf (bits w 26 26)
  let wf := match b.fmt with
    | some x => x.toNat
    | none => 15
  let cols := (b.elems.zip b.scales).map (fun c => rowValues wf c.1 c.2)
  let n := bits w 5 0 + 1
  let t := (List.range n).foldl (fun t r =>
    let acts := rowValues f (readElems f (redLen wf) (t0.row aa r (actBytes f b)) []).1 []
    mmulRow (f == 4) t (bits w 16 6 + r) acts cols) t
  t.advance t0 aa n

/-- Rows `row` to `row + n − 1` of the accumulator file become +0. -/
def Tile.zeroRows (t : Tile) (row n : Nat) : Tile :=
  { t with acc := t.acc.zero (row * 512) ((row + n) * 512) }

/-- MWB: CNT + 1 accumulator rows to the spool (03 R73). -/
def runMwb (lt : Nat) (t0 t : Tile) (w : Nat) : Tile :=
  let f := bits w 26 23
  let ad := bits w 20 17
  let n := bits w 4 0 + 1
  let row := bits w 15 5
  let m := t.roundings lt f (bits w 22 21) (n * 128)
  let t := (List.range n).foldl (fun t r =>
    let rs := (List.range 128).map (fun j => narrow f (m.1.getD (r * 128 + j) .rne) (t0.accAt (row + r) j))
    let data := rs.flatMap (fun x => leBytes (elemBits f / 8) x.1)
    { t.flag (joinFlags rs) with spool := t.spool.store (t0.rowAddr ad r) data }) m.2
  let t := t.advance t0 ad n
  if bit w 16 then t.zeroRows row n else t

/-- The matrix slot. -/
def runMatrix (lt : Nat) (t0 t : Tile) (w : Nat) : Tile :=
  match w / 2 ^ 27 with
  | 1 => runMldw t0 t w
  | 2 => runMmul t0 t w
  | 3 => runMwb lt t0 t w
  | 4 => t.zeroRows (bits w 26 16) (bits w 15 5 + 1)
  | _ => t

end Sys2Proof.Machine
end

