-- ==== Sys2Proof/Machine/TileVector.lean ====
section
/-! DEFINITION. The vector slot (03_engine_tile.md R74 to R76, R502, R503; 02_arithmetic.md R54, R55, R57, R500). -/

namespace Sys2Proof.Machine

/-- Register and mask fields of form R. -/
def vd (w : Nat) : Nat := bits w 25 21
def va (w : Nat) : Nat := bits w 20 16
def vb (w : Nat) : Nat := bits w 15 11
def vc (w : Nat) : Nat := bits w 10 6
def vmask (w : Nat) : Nat := bits w 5 4

/-- Are the fields that a form R operation does not use zero? (03 R502) -/
def formR (w : Nat) (useB useC : Bool) : Bool :=
  bits w 3 0 == 0 && (useB || vb w == 0) && (useC || vc w == 0)

/-- Is a vector slot that is no load or store well formed? -/
def vectorOk (w : Nat) : Bool :=
  match w / 2 ^ 26 with
  | 0 => w == 0
  | 0x08 | 0x09 | 0x0A | 0x0C | 0x0D | 0x10 => formR w true false
  | 0x0B => formR w true true
  | 0x0E | 0x0F | 0x18 | 0x19 | 0x1A | 0x1B | 0x1C | 0x20 | 0x21 | 0x22 => formR w false false
  | 0x11 => bits w 7 6 == 0 && bits w 3 0 == 0
  | 0x12 | 0x13 | 0x14 => formR w true false && bits w 25 23 == 0 && bits w 22 21 != 0
  | _ => false

/-- Faults of a vector slot, in the order of their codes. -/
def vectorFaults (t : Tile) (w : Nat) : List TFault :=
  let op := w / 2 ^ 26
  if op = 1 ∨ op = 2 then
    let f := bits w 20 17
    illegal t.pc 1 w (decide (11 ≤ f) || bits w 4 0 != 0 || (!fmtIsMx f && bits w 12 9 != 0)
      || (op == 1 && bits w 8 7 != 0))
    ++ fmtFault t.pc 1 f (op == 2 && !fmtStore f)
    ++ (if op = 2 ∧ bits w 8 7 = 3 then [⟨3, pcSlot t.pc 1, w, 0⟩] else [])
    ++ spoolFault t t.pc 1 (bits w 16 13) 1 (rowBytes f 256) (fmtAlign f)
    ++ (if fmtIsMx f then spoolFault t t.pc 1 (bits w 12 9) 1 8 1 else [])
  else illegal t.pc 1 w (!vectorOk w)

/-- Address registers that a vector slot names. -/
def vectorRegs (w : Nat) : List Nat :=
  match w / 2 ^ 26 with
  | 1 | 2 => if fmtIsMx (bits w 20 17) then [bits w 16 13, bits w 12 9] else [bits w 16 13]
  | _ => []

/-! ### Effects -/

/-- A loaded element as FP32: exact, or ±infinity with OF for an MX value beyond the range (02 R31, R34, R38). An FP32 NaN keeps its
payload (DESIGN CHOICE, log 97). -/
def loadWord (f : Nat) (code : Nat) (v : Fv) : Word × Nat :=
  if f = 0 then (BitVec.ofNat 32 code, 0) else toFp32 v

/-- VLD (03 R74, R76). Every lane's flags are joined, masked off or not (DESIGN CHOICE, log 98). -/
def runVld (t0 t : Tile) (w : Nat) : Tile :=
  let f := bits w 20 17
  let aa := bits w 16 13
  let ax := bits w 12 9
  let e := readElems f 256 (t0.row aa 0 (rowBytes f 256)) (if fmtIsMx f then t0.row ax 0 8 else [])
  let vs := e.1.zipIdx.map (fun x => (loadWord f x.1 (rowValue f x.2 x.1 e.2).1, (rowValue f x.2 x.1 e.2).2))
  let fl := vs.foldl (fun a x => a ||| (if x.2 then flMXNAN else x.1.2)) 0
  let t := (t.putLanes (vd w) (t0.mask (bits w 6 5)) 0 (vs.map (fun x => x.1.1))).flag fl
  let t := t.advance t0 aa 1
  if fmtIsMx f then t.advance t0 ax 1 else t

/-- A store of a format other than MX: a lane whose mask bit is 0 is not written and sets no flag (02 R500, 03 R74). -/
def runVstPlain (lt : Nat) (t0 t : Tile) (w : Nat) : Tile :=
  let f := bits w 20 17
  let aa := bits w 16 13
  let m := t.roundings lt f (bits w 8 7) 256
  let n := elemBits f / 8
  let mk := t0.mask (bits w 6 5)
  let t := ((t0.lanes (vd w)).zip m.1).zipIdx.foldl (fun t x =>
    if bit mk x.2 then
      let r := narrow f x.1.2 x.1.1
      { t.flag r.2 with spool := t.spool.setNum (t0.rowAddr aa 0 + n * x.2) n r.1 }
    else t) m.2
  t.advance t0 aa 1

/-- A store of an MX format, block by block (03 R503). -/
def runVstMx (lt : Nat) (t0 t : Tile) (w : Nat) : Tile :=
  let f := bits w 20 17
  let aa := bits w 16 13
  let ax := bits w 12 9
  let m := t.roundings lt f (bits w 8 7) 256
  let n := 32 * elemBits f / 8
  let mk := t0.mask (bits w 6 5)
  let ls := t0.lanes (vd w)
  let t := (List.range 8).foldl (fun t k =>
    if bits mk (32 * k + 31) (32 * k) = 0 then t
    else
      let b := mxBlock f ((ls.drop (32 * k)).take 32) ((m.1.drop (32 * k)).take 32)
      let sp := t.spool.store (t0.rowAddr aa 0 + n * k) (leBytes n (packElems (elemBits f) b.2.1))
      { t.flag b.2.2 with spool := sp.setNum (t0.rowAddr ax 0 + k) 1 b.1 }) m.2
  (t.advance t0 aa 1).advance t0 ax 1

/-- VST. -/
def runVst (lt : Nat) (t0 t : Tile) (w : Nat) : Tile :=
  if fmtIsMx (bits w 20 17) then runVstMx lt t0 t w else runVstPlain lt t0 t w

/-- An elementwise operation: the unmasked lanes take their results and set their flags (03 R74, 02 R500). -/
def elementwise (t0 t : Tile) (w : Nat) (f : Nat → Word × Nat) : Tile :=
  let mk := t0.mask (vmask w)
  let rs := (List.range 256).map f
  let fl := rs.zipIdx.foldl (fun a x => if bit mk x.2 then a ||| x.1.2 else a) 0
  (t.putLanes (vd w) mk 0 (rs.map (fun x => x.1))).flag fl

/-- An operation of one operand. -/
def unary (t0 t : Tile) (w : Nat) (f : Word → Word × Nat) : Tile :=
  elementwise t0 t w (fun l => f (t0.lane (va w) l))

/-- An operation of two operands. -/
def binary (t0 t : Tile) (w : Nat) (f : Word → Word → Word × Nat) : Tile :=
  elementwise t0 t w (fun l => f (t0.lane (va w) l) (t0.lane (vb w) l))

/-- VFMA. -/
def runVfma (t0 t : Tile) (w : Nat) : Tile :=
  elementwise t0 t w (fun l => fpFma (t0.lane (va w) l) (t0.lane (vb w) l) (t0.lane (vc w) l))

/-- VSEL: every lane is written, no flag set. -/
def runVsel (t0 t : Tile) (w : Nat) : Tile :=
  let mk := t0.mask (vmask w)
  t.putLanes (vd w) (2 ^ 256 - 1) 0
    ((List.range 256).map (fun l => if bit mk l then t0.lane (va w) l else t0.lane (vb w) l))

/-- VBCST. -/
def runVbcst (t0 t : Tile) (w : Nat) : Tile :=
  t.putLanes (vd w) (t0.mask (vmask w)) 0 (List.replicate 256 (t0.lane (va w) (bits w 15 8)))

/-- A comparison: a lane's bit of the destination mask is written where its mask bit is 1; the others keep their value. -/
def compare (t0 t : Tile) (w : Nat) (p : Int → Bool) : Tile :=
  let mk := t0.mask (vmask w)
  let m := bits w 22 21
  let rs := (List.range 256).map (fun l => fpCmp p (t0.lane (va w) l) (t0.lane (vb w) l))
  let v := rs.zipIdx.foldl (fun a x =>
    let old := bit (t0.mask m) x.2
    let new := if bit mk x.2 then x.1.1 else old
    a + (if new then 2 ^ x.2 else 0)) 0
  let fl := rs.zipIdx.foldl (fun a x => if bit mk x.2 then a ||| x.1.2 else a) 0
  (t.setMask m v).flag fl

/-- One level of the pairwise tree: neighbours combined, flags joined. -/
def treeLevel (f : Word → Word → Word × Nat) : List Word → List Word × Nat
  | a :: b :: r =>
    let x := f a b
    let y := treeLevel f r
    (x.1 :: y.1, x.2 ||| y.2)
  | l => (l, 0)

/-- `n` levels of the tree. -/
def tree (f : Word → Word → Word × Nat) : Nat → List Word → List Word × Nat
  | 0, l => (l, 0)
  | n + 1, l =>
    let x := treeLevel f l
    let y := tree f n x.1
    (y.1, x.2 ||| y.2)

/-- A cross-lane reduction (02 R54, R55; 03 R75): masked lanes take the identity; NANIN reflects the input lanes only. -/
def reduce (t0 t : Tile) (w : Nat) (f : Word → Word → Word × Nat) (ident : Word) : Tile :=
  let mk := t0.mask (vmask w)
  let ls := (List.range 256).map (fun l => if bit mk l then t0.lane (va w) l else ident)
  let r := tree f 8 ls
  let fl := r.2 &&& (255 - flNANIN) ||| nanIn ls
  (t.putLanes (vd w) mk 0 (List.replicate 256 (r.1.getD 0 0))).flag fl

/-- The vector slot. -/
def runVector (lt : Nat) (t0 t : Tile) (w : Nat) : Tile :=
  match w / 2 ^ 26 with
  | 0x01 => runVld t0 t w
  | 0x02 => runVst lt t0 t w
  | 0x08 => binary t0 t w fpAdd
  | 0x09 => binary t0 t w fpSub
  | 0x0A => binary t0 t w fpMul
  | 0x0B => runVfma t0 t w
  | 0x0C => binary t0 t w fpMax
  | 0x0D => binary t0 t w fpMin
  | 0x0E => unary t0 t w fpAbs
  | 0x0F => unary t0 t w fpNeg
  | 0x10 => runVsel t0 t w
  | 0x11 => runVbcst t0 t w
  | 0x12 => compare t0 t w (fun c => decide (c < 0))
  | 0x13 => compare t0 t w (fun c => decide (c = 0))
  | 0x14 => compare t0 t w (fun c => decide (c ≤ 0))
  | 0x18 => unary t0 t w fpExp2
  | 0x19 => unary t0 t w fpLog2
  | 0x1A => unary t0 t w fpRcp
  | 0x1B => unary t0 t w fpRsqrt
  | 0x1C => unary t0 t w fpTanh
  | 0x20 => reduce t0 t w fpAddRaw 0x80000000
  | 0x21 => reduce t0 t w fpMax 0xFF800000
  | 0x22 => reduce t0 t w fpMin 0x7F800000
  | _ => t

end Sys2Proof.Machine
end

