-- ==== Sys2Proof/Machine/TileShuttle.lean ====
section
/-! DEFINITION. The shuttle slot and the shuttle descriptor (03_engine_tile.md R77, R78, R88, R90; 05 R143). -/

namespace Sys2Proof.Machine

/-! ### Descriptors (03 R88) -/

/-- A descriptor from its 64 bytes, as a number. -/
def Desc.ofNat (w : Nat) : Desc where
  op := BitVec.ofNat 8 w
  esize := BitVec.ofNat 2 (bits w 9 8)
  cls := BitVec.ofNat 3 (bits w 12 10)
  sem := BitVec.ofNat 3 (bits w 15 13)
  semEn := bit w 16
  hold := bit w 17
  redFmt := bit w 18
  srcUva := bit w 19
  dstUva := bit w 20
  group := BitVec.ofNat 16 (bits w 47 32)
  semTile := BitVec.ofNat 16 (bits w 63 48)
  src := BitVec.ofNat 64 (bits w 127 64)
  dst := BitVec.ofNat 64 (bits w 191 128)
  dim0 := BitVec.ofNat 16 (bits w 207 192)
  dim1 := BitVec.ofNat 16 (bits w 223 208)
  dim2 := BitVec.ofNat 16 (bits w 239 224)
  dim3 := BitVec.ofNat 16 (bits w 255 240)
  srcStride1 := BitVec.ofNat 32 (bits w 287 256)
  srcStride2 := BitVec.ofNat 32 (bits w 319 288)
  srcStride3 := BitVec.ofNat 32 (bits w 351 320)
  dstStride1 := BitVec.ofNat 32 (bits w 383 352)
  dstStride2 := BitVec.ofNat 32 (bits w 415 384)
  dstStride3 := BitVec.ofNat 32 (bits w 447 416)
  tag := BitVec.ofNat 32 (bits w 479 448)

/-- Bytes of an element. -/
def Desc.esz (d : Desc) : Nat := 2 ^ d.esize.toNat

/-- Bytes of a row of dimension 0. -/
def Desc.rowLen (d : Desc) : Nat := d.dim0.toNat * d.esz

/-- Bytes of the tensor tile. -/
def Desc.total (d : Desc) : Nat := d.dim0.toNat * d.dim1.toNat * d.dim2.toNat * d.dim3.toNat * d.esz

/-- Address and strides of a side. -/
def Desc.base (d : Desc) (dst : Bool) : Nat := if dst then d.dst.toNat else d.src.toNat
def Desc.stride (d : Desc) (dst : Bool) (k : Nat) : Int :=
  match dst, k with
  | false, 1 => d.srcStride1.toInt
  | false, 2 => d.srcStride2.toInt
  | false, _ => d.srcStride3.toInt
  | true, 1 => d.dstStride1.toInt
  | true, 2 => d.dstStride2.toInt
  | true, _ => d.dstStride3.toInt

/-- Does a side name a UVA? -/
def Desc.uva (d : Desc) (dst : Bool) : Bool := if dst then d.dstUva else d.srcUva

/-- Lowest and highest byte offset that the strides reach from a side's address. -/
def Desc.extent (d : Desc) (dst : Bool) : Int × Int :=
  let span := fun (n : BitVec 16) (k : Nat) => ((n.toNat : Int) - 1) * d.stride dst k
  let ss := [span d.dim1 1, span d.dim2 2, span d.dim3 3]
  (ss.foldl (fun a x => a + min 0 x) 0, ss.foldl (fun a x => a + max 0 x) 0 + d.rowLen - 1)

/-- Is a UVA range canonical as a whole? (05 R143) -/
def canonicalRange (lo hi : Int) : Bool :=
  decide (0 ≤ lo ∧ hi < 2 ^ 56) || decide (2 ^ 64 - 2 ^ 56 ≤ lo ∧ hi < 2 ^ 64)

/-- Is a side's address and extent inside the local spool? (03 R90) -/
def Desc.spoolOk (d : Desc) (dst : Bool) : Bool :=
  decide (d.base dst < 2 ^ 24 ∧ 0 ≤ (d.base dst : Int) + (d.extent dst).1 ∧ (d.base dst : Int) + (d.extent dst).2 < 2 ^ 24)

/-- Is a side's UVA and extent canonical? -/
def Desc.uvaOk (d : Desc) (dst : Bool) : Bool :=
  canonicalRange ((d.base dst : Int) + (d.extent dst).1) ((d.base dst : Int) + (d.extent dst).2)

/-- REDUCE has no destination side. -/
def Desc.hasDst (d : Desc) : Bool := d.op != 2

/-- The first failing offset of a descriptor read as the number `w` (03 R9, R88, R90), if any. -/
def descFault (w : Nat) (aligned : Bool) : Option Nat :=
  let d := Desc.ofNat w
  let op := d.op.toNat
  if !aligned || op == 0 || decide (3 < op) || d.esize == 3 || bits w 31 21 != 0
     || (d.redFmt && op != 2) || (d.dstUva && op != 1)
     || (op == 2 && d.esize.toNat != (if d.redFmt then 1 else 2)) then some 0
  else if op = 1 ∧ d.group ≠ 0 then some 4
  else if !d.srcUva && !d.spoolOk false then some 8
  else if (op = 2 ∧ d.dst ≠ 0) ∨ (op ≠ 2 ∧ !d.dstUva ∧ !d.spoolOk true) then some 0x10
  else if d.dim0 = 0 ∨ d.dim1 = 0 ∨ d.dim2 = 0 ∨ d.dim3 = 0 ∨ 4 * 2 ^ 20 < d.total then some 0x18
  else if bits w 511 480 ≠ 0 then some 0x3C
  else none

/-- The fault with which a descriptor at spool address `addr` is refused, the lowest code first. `member` says which tile
numbers belong to the bolt. -/
def enqueueFault (t : Tile) (member : Nat → Bool) (addr : Nat) : Option TFault :=
  let w := t.spool.num addr 64
  let d := Desc.ofNat w
  let pc := t.pc % 2 ^ 13
  if d.semTile ≠ 0xFFFF ∧ !member d.semTile.toNat then some ⟨0x009, pc, d.semTile.toNat, 0⟩
  else match descFault w (addr % 64 == 0) with
    | some off => some ⟨0x010, pc, addr, off⟩
    | none =>
      if d.srcUva && !d.uvaOk false then some ⟨0x011, pc, d.src.toNat, 0⟩
      else if d.hasDst && d.dstUva && !d.uvaOk true then some ⟨0x011, pc, d.dst.toNat, 1⟩
      else none

/-- Descriptors in a stream. -/
def Tile.queued (t : Tile) (k : Nat) : Nat := (t.stream k).queue.length

/-- Puts a descriptor at the end of a stream. -/
def Tile.enqueue (t : Tile) (k : Nat) (d : Desc) : Tile :=
  let q := t.stream k
  t.setStream k { q with queue := q.queue ++ [⟨d, .queued, [], [], false, false, 0, 0, [], false⟩] }

/-- Copies descriptors, `left` at most, from `addr` on into a stream: the tile, how many are still to copy when the stream
is full, and the fault that ended it. The descriptors are read from `src` (03 R78, R504). -/
def Tile.copyDescs (t src : Tile) (member : Nat → Bool) (k : Nat) (step : Int) : Nat → Nat → Tile × Nat × Nat × Option TFault
  | addr, 0 => (t, addr, 0, none)
  | addr, left + 1 =>
    if 32 ≤ t.queued k then (t, addr, left + 1, none)
    else match enqueueFault src member addr with
      | some f => (t, addr, left + 1, some f)
      | none => (t.enqueue k (Desc.ofNat (src.spool.num addr 64))).copyDescs src member k step
          (((addr : Int) + step) % 2 ^ 24).toNat left

/-! ### The slot (03 R77) -/

/-- Fields of SQ. -/
def sqStream (w : Nat) : Nat := bits w 27 24
def sqReg (w : Nat) : Nat := bits w 23 20
def sqCount (w : Nat) : Nat := bits w 19 12 + 1

/-- Faults of a shuttle slot, in the order of their codes: SQ's first descriptor is checked at issue (03 R78). -/
def shuttleFaults (t : Tile) (member : Nat → Bool) (w : Nat) : List TFault :=
  match w / 2 ^ 28 with
  | 0 => illegal t.pc 2 w (w != 0)
  | 1 =>
    illegal t.pc 2 w (bits w 11 0 != 0) ++ spoolFault t t.pc 2 (sqReg w) (sqCount w) 64 1
    ++ (match enqueueFault t member (t.rowAddr (sqReg w) 0) with
        | some f => [f]
        | none => [])
  | 2 => illegal t.pc 2 w (bits w 19 0 != 0)
  | _ => illegal t.pc 2 w true

/-- Address registers that a shuttle slot names. -/
def shuttleRegs (w : Nat) : List Nat := if w / 2 ^ 28 = 1 then [sqReg w] else []

/-- The shuttle slot: SQ copies what its stream has room for and goes on copying afterwards; SCFG sets the depth. The fault
is one of a later descriptor. -/
def runShuttle (member : Nat → Bool) (t0 t : Tile) (w : Nat) : Tile × Option TFault :=
  match w / 2 ^ 28 with
  | 1 =>
    let r := t.copyDescs t0 member (sqStream w) (t0.stepOf (sqReg w)) (t0.rowAddr (sqReg w) 0) (sqCount w)
    let t := r.1.advance t0 (sqReg w) (sqCount w)
    match r.2.2.2 with
    | some f => (t, some f)
    | none =>
      (if r.2.2.1 = 0 then t
       else { t with run := .copying (sqStream w) r.2.1 (t0.stepOf (sqReg w)) r.2.2.1 t0.pc .running }, none)
  | 2 => (t.setStream (sqStream w) { t.stream (sqStream w) with depth := bits w 23 20 + 1 }, none)
  | _ => (t, none)

end Sys2Proof.Machine
end

