-- ==== Sys2Proof/Machine/TileOps.lean ====
section
/-! DEFINITION. A tile among the tiles of its bolt: numbers, faults, semaphores, trace marks (03 R99, R106; 13 R429). -/

namespace Sys2Proof.Machine

/-! ### Numbers (03 R105, 08 R262) -/

/-- Bolt-local number of a tile: as assigned by its context, else TILE_BASE + ORDER. -/
def State.localNo (s : State) (t : Nat) : Nat :=
  match s.member t with
  | none => 0
  | some e =>
    match mget none (s.ctx e.bolt).local_ t with
    | some n => n
    | none => ((s.bolt? e.bolt).map (fun r => r.tileBase)).getD 0 + e.order

/-- The site of a bolt-local tile of this module. -/
def State.siteOf (s : State) (b lt : Nat) : Option Nat := (s.boltTiles b).find? (fun t => s.localNo t == lt)

/-- Does the bolt have a tile of this number, here or on another module? -/
def State.boltHas (s : State) (b lt : Nat) : Bool :=
  (s.siteOf b lt).isSome || (s.spans b && decide (lt < s.wholeTiles b))

/-- The class of a bolt's running step (03 R89). -/
def State.stepClass (s : State) (b : Nat) : Nat :=
  match (s.ctx b).steps with
  | r :: _ => r.cls
  | [] => 0

/-! ### Faults (03 R106) -/

/-- A tile fault: issue stops, descriptors that have not started are discarded, and the incident of class 2 is raised. -/
def State.tileFault (s : State) (t : Nat) (f : TFault) : State :=
  let s := s.updTile t (fun x => { x with
    run := .stopped
    streams := x.streams.map (fun e => (e.1, { e.2 with queue := e.2.queue.filter (fun d => d.phase != .queued) })) })
  s.raise t f.code 2 (s.tileBolt t) f.a0 f.a1 f.a2

/-! ### Semaphores (03 R99, 07 R234) -/

/-- Adds to a semaphore of a tile of this module; past 65,535 it stays unchanged and the target tile faults. -/
def State.semAddAt (s : State) (t k n origin : Nat) : State :=
  let v := (s.tile t).sem k
  if 65535 < v + n then s.tileFault t ⟨0x008, origin, k, v⟩ else s.updTile t (fun x => x.setSem k (v + n))

/-- The module that holds a tile of a bolt that is not on this one: the peer of the bolt's binding; a free choice among
several, since no record names the module of a tile number. -/
def State.peerOf (s : State) (b : Nat) : State × Option Nat :=
  match (s.loom.live.bindings.filter (fun k => k.bolt == b)).map (fun k => k.peer) with
  | [] => (s, none)
  | [m] => (s, some m)
  | ms =>
    let d := s.draw
    (d.1, ms[Config.freeNat d.2 % ms.length]?)

/-- Signals `n` to a semaphore of a bolt-local tile on behalf of a tile, in class `tc` where the tile is on another module. -/
def State.semSignal (s : State) (b t tc lt k n : Nat) : State :=
  match s.siteOf b lt with
  | some x => s.semAddAt x k n (s.localNo t)
  | none =>
    let p := s.peerOf b
    match p.2 with
    | none => p.1
    | some m =>
      let r := p.1.sendReq {
        kind := 5, bolt := b, dst := m, tc := tc, addr := mkFa m 0 0, bytes := 0, data := [], ext := none,
        opx := 0, aux := lt + 2 ^ 16 * k + 2 ^ 19 * (n - 1), owner := .semsig t, dstSide := true, fault := lt, pos := 0,
        scene := p.1.loom.live.num }
      if r.2 = 0 then r.1 else r.1.tileFault t ⟨0x018, 0, lt, 1⟩

/-! ### Trace marks (13 R429) -/

/-- The 32-byte record of a trace mark. -/
def State.traceRecord (s : State) (b t mark : Nat) (x : Tile) (ix : Nat) : List Byte :=
  leBytes 8 s.time.toNat ++ leBytes 4 (mark + 2 ^ 12 * b + 2 ^ 18 * t)
  ++ leBytes 4 (x.pc % 2 ^ 13 + 2 ^ 16 * x.step.toNat) ++ leBytes 4 (x.crel.toNat + 2 ^ 16 * s.localNo t)
  ++ leBytes 4 (x.i 0) ++ leBytes 4 x.status.toNat ++ leBytes 4 ix

/-- TMARK: writes a record when the mark is enabled, or drops and counts it when the ring is full. -/
def State.traceMark (s : State) (t mark : Nat) (x : Tile) : State :=
  match s.tileBolt t with
  | none => s
  | some b =>
    let on := bit (s.reg (blt b 0xF08)) 0 && bit (mget 0 s.fw.trcMarks (b * 128 + mark / 32)).toNat (mark % 32)
    if !on then s
    else
      let head := s.reg (blt b 0xF0C)
      let tail := s.reg (blt b 0xF10)
      let n := 2 ^ mget 7 s.fw.trcOrder b
      if (head + 2 ^ 32 - tail) % 2 ^ 32 = n then s.bump (blt b 0xF20) 1
      else
        let s := s.hostWrite b ((mget 0 s.fw.trcBase b).toNat % 2 ^ 49 + 32 * (head % n)) (s.traceRecord b t mark x head)
        s.setReg (blt b 0xF0C) (head + 1)

end Sys2Proof.Machine
end

