-- ==== Sys2Proof/Machine/TensorOps.lean ====
section
/-! DEFINITION. Operations on tensor tiles: pages, pins, pieces of a transfer, faults (03_engine_tile.md R84 to R98, R505;
04_panel_mesh.md R125 to R128; 05_memory_translation.md R152, R163 to R169). -/

namespace Sys2Proof.Machine

/-! ### Traversal order (03 R88) -/

/-- Rows of a tensor tile. -/
def Desc.rows (d : Desc) : Nat := d.dim1.toNat * d.dim2.toNat * d.dim3.toNat

/-- Address of row `k` of a side, in traversal order. -/
def Desc.rowAt (d : Desc) (dst : Bool) (k : Nat) : Nat :=
  let k1 := k % d.dim1.toNat
  let k2 := k / d.dim1.toNat % d.dim2.toNat
  let k3 := k / (d.dim1.toNat * d.dim2.toNat)
  ((d.base dst : Int) + k1 * d.stride dst 1 + k2 * d.stride dst 2 + k3 * d.stride dst 3).toNat

/-- Does a leaf allow the access of a side: reads of the source, writes of the destination? -/
def Leaf.permits (l : Leaf) (dst : Bool) : Bool := if dst then bit l.pte.toNat 3 else bit l.pte.toNat 2

/-- The pin that serves an address of a side. -/
def pinFor (pins : List Leaf) (dst : Bool) (va : Nat) : Option Leaf :=
  pins.find? (fun l => decide (l.va ≤ va ∧ va < l.va + pageBytes l.ps) && l.permits dst)

/-- The first address of `[a, stop)` that no pin serves; `n` bounds the pages. -/
def missIn (pins : List Leaf) (dst : Bool) (stop : Nat) : Nat → Nat → Option Nat
  | 0, a => if a < stop then some a else none
  | n + 1, a =>
    if stop ≤ a then none
    else match pinFor pins dst a with
      | none => some a
      | some l => missIn pins dst stop n (l.va + pageBytes l.ps)

/-- The first address of a side, from row `k` on, that no pin serves. -/
def missRows (pins : List Leaf) (d : Desc) (dst : Bool) : Nat → Nat → Option Nat
  | 0, _ => none
  | n + 1, k =>
    let a := d.rowAt dst k
    match missIn pins dst (a + d.rowLen) (d.rowLen / 4096 + 2) a with
    | some x => some x
    | none => missRows pins d dst n (k + 1)

/-- The first address in traversal order that no pin serves, the source side before the destination side (03 R94). -/
def Desc.missing (d : Desc) (pins : List Leaf) : Option (Nat × Bool) :=
  match if d.srcUva then missRows pins d false d.rows 0 else none with
  | some x => some (x, false)
  | none => (if d.hasDst && d.dstUva then missRows pins d true d.rows 0 else none).map (fun x => (x, true))

/-- Adds a pin; a page is pinned once, whatever sides touch it (05 R168). -/
def addPin (pins : List Leaf) (l : Leaf) : List Leaf := pins.filter (fun x => !(x.va == l.va && x.ps == l.ps)) ++ [l]

/-- Pins what the micro-TLB already holds, for at most `n` pages. -/
def Desc.absorb (d : Desc) (utlb : List Leaf) (b gen : Nat) : Nat → List Leaf → List Leaf
  | 0, pins => pins
  | n + 1, pins =>
    match d.missing pins with
    | none => pins
    | some (va, dst) =>
      match utlb.find? (fun l => l.covers b gen va && l.permits dst) with
      | none => pins
      | some l => d.absorb utlb b gen n (addPin pins l)

/-! ### How many pages (03 R93) -/

/-- Finds a tensor tile's pages in the table as it stands, up to a page that faults: their number, and the first address and
side of the 65th. -/
def State.findPages (s : State) (b : Nat) (d : Desc) : Nat → List Leaf → Nat × Option (Nat × Bool)
  | 0, pins => (pins.length, none)
  | n + 1, pins =>
    match d.missing pins with
    | none => (pins.length, none)
    | some (va, dst) =>
      match (s.walkAll 4 b va dst).2 with
      | .leaf l =>
        let p := addPin pins l
        if 64 < p.length then (64, some (l.va, dst)) else s.findPages b d n p
      | _ => (pins.length, none)

/-- Most 4 KiB pages that a tensor tile's sides can touch, at most 64. -/
def Desc.pageBound (d : Desc) : Nat :=
  let side := d.rows * (d.rowLen / 4096 + 2)
  min 64 ((if d.srcUva then side else 0) + (if d.hasDst && d.dstUva then side else 0))

/-- The pages that a tensor tile needs: found in the table where it lies on this module, else their bound. The spec does not say
how the number is known before translation (DESIGN CHOICE, log 103). -/
def State.pagesOf (s : State) (b : Nat) (d : Desc) : Nat × Option (Nat × Bool) :=
  if s.tableHere b then s.findPages b d 129 [] else (d.pageBound, none)

/-- Leaves that the tensor tile at the head of a stream has pinned. -/
def StreamQ.pins (x : StreamQ) : List Leaf := ((x.queue.head?).map (fun q => q.pins)).getD []

/-- Leaves pinned in a tile's micro-TLB, each page once. -/
def Tile.pinned (t : Tile) : List Leaf := (t.streams.flatMap (fun e => e.2.pins)).eraseDups

/-- Every leaf that a tile's micro-TLB can use: pinned ones that no invalidation has removed, and the others (05 R151). -/
def Tile.leaves (t : Tile) : List Leaf := t.pinned.filter (fun l => !l.stale) ++ t.utlb

/-- The micro-TLB's 64 entries: those pinned, and of the others the newest that find a place (05 R151). -/
def Tile.trimUtlb (t : Tile) : Tile :=
  { t with utlb := (t.utlb.filter (fun l => !t.pinned.contains l)).take (64 - t.pinned.length) }

/-- Micro-TLB entries that the other streams' tensor tiles of a tile have pinned or will pin. -/
def State.pinnedBy (s : State) (t k b : Nat) : Nat :=
  (s.tile t).streams.foldl (fun n e =>
    if e.1 = k then n
    else match e.2.queue with
      | [] => n
      | q :: _ =>
        (match q.phase with
         | .committing => n + q.pins.length
         | .translating _ => n + (s.pagesOf b q.desc).1
         | _ => n)) 0

/-- Are enough micro-TLB entries unpinned for a tensor tile? -/
def State.tlbRoom (s : State) (t k b : Nat) (d : Desc) : Bool := decide ((s.pagesOf b d).1 + s.pinnedBy t k b ≤ 64)

/-! ### The head of a stream -/

/-- The descriptor at the head of a stream. -/
def State.tensorHead (s : State) (t k : Nat) : Option QDesc := ((s.tile t).stream k).queue.head?

/-- Replaces the head of a stream. -/
def State.setTensor (s : State) (t k : Nat) (q : QDesc) : State :=
  s.updTile t (fun x => (x.setStream k { x.stream k with queue := q :: (x.stream k).queue.drop 1 }).trimUtlb)

/-- A SHOOT of another module whose tensor tiles have all committed is acknowledged (07 R236). -/
def State.shootAcks (s : State) : State :=
  s.inv.foldl (fun (s : State) (e : Nat × Option InvActive) => match e.2 with
    | some (v : InvActive) =>
      (match v.reply with
       | some h => if v.pins = [] then ({ s with inv := mset none s.inv e.1 none }).sendRsp 0x30 h 0 0 [] else s
       | none => s)
    | none => s) s

/-- A tensor tile pins nothing any more: no invalidation waits for it (05 R161 condition 3). -/
def State.unpin (s : State) (t k : Nat) : State :=
  if s.inv.isEmpty then s
  else
    let f := fun (e : Nat × Option InvActive) => (e.1, e.2.map (fun v => { v with pins := v.pins.filter (fun p => p != (t, k)) }))
    ({ s with inv := s.inv.map f } : State).shootAcks

/-- Takes the head out of a stream; its pins stay in the micro-TLB as entries that may be evicted, but those that an invalidation
has removed (05 R161). -/
def State.popTensor (s : State) (t k : Nat) : State :=
  (s.unpin t k).updTile t (fun x =>
    let pins := (x.stream k).pins.filter (fun l => !l.stale)
    ({ x.setStream k { x.stream k with queue := (x.stream k).queue.drop 1 } with
      utlb := pins ++ x.utlb.filter (fun l => !pins.contains l) } : Tile).trimUtlb)

/-- Is the owner of a request the tensor tile at the head of a stream of a tile? -/
def ReqOwner.isTensor (o : ReqOwner) (t k : Nat) : Bool :=
  match o with
  | .tensor a b _ => a == t && b == k
  | _ => false

/-- The requests that a tensor tile waits for: bolt and scene of each. -/
def State.tensorWaits (s : State) (t k : Nat) : List (Nat × Word) :=
  s.reqs.filterMap (fun e => e.2.bind (fun r => if r.owner.isTensor t k then some (r.bolt, r.scene) else none))
  ++ s.hostReads.filterMap (fun e => e.2.bind (fun r => if r.owner.isTensor t k then some (r.bolt, r.scene) else none))

/-- Requests that a tensor tile waits for. -/
def State.tensorReqs (s : State) (t k : Nat) : Nat := (s.tensorWaits t k).length

/-- Forgets the outstanding requests of a tensor tile, which count no longer (08 R275). -/
def State.dropTensorReqs (s : State) (t k : Nat) : State :=
  let s := (s.tensorWaits t k).foldl (fun s x => s.flightSub x.2 x.1 1) s
  { s with
    reqs := s.reqs.filter (fun e => match e.2 with
      | some r => !r.owner.isTensor t k
      | none => false)
    hostReads := s.hostReads.filter (fun e => match e.2 with
      | some r => !r.owner.isTensor t k
      | none => false)
    mcFlits := s.mcFlits.filter (fun f => f.from_ != (t, k)) }

/-! ### Pieces of a transfer -/

/-- The pieces of `[a, a + len)`, cut at page ends and into at most 4 KiB. -/
def cutRow (pins : List Leaf) (dst uva : Bool) : Nat → Nat → Nat → Nat → List Piece
  | 0, _, _, _ => []
  | n + 1, pos, a, len =>
    if len = 0 then []
    else if !uva then [⟨pos, a, none, len⟩]
    else match pinFor pins dst a with
      | none => []
      | some l =>
        let m := min len (min 4096 (l.va + pageBytes l.ps - a))
        ⟨pos, a, some (l.fa a), m⟩ :: cutRow pins dst uva n (pos + m) (a + m) (len - m)

/-- The pieces of a side, in traversal order. -/
def QDesc.piecesFrom (q : QDesc) (dst : Bool) : Nat → Nat → List Piece
  | 0, _ => []
  | n + 1, k =>
    let d := q.desc
    cutRow q.pins dst (d.uva dst) (2 * (d.rowLen / 4096) + 3) (k * d.rowLen) (d.rowAt dst k) d.rowLen
      ++ q.piecesFrom dst n (k + 1)

/-- The pieces of a side. -/
def QDesc.pieces (q : QDesc) (dst : Bool) : List Piece :=
  if dst && q.desc.op != 1 then [] else q.piecesFrom dst q.desc.rows 0

/-- Bytes fetched so far. -/
def QDesc.have_ (q : QDesc) : Nat := q.data.foldl (fun n r => n + r.2.length) 0

/-- Puts a run among the runs in order of position. -/
def putRun (r : Nat × List Byte) : List (Nat × List Byte) → List (Nat × List Byte)
  | [] => [r]
  | x :: xs => if r.1 < x.1 then r :: x :: xs else x :: putRun r xs

/-- The bytes of a tensor tile, once all are there. -/
def QDesc.bytes (q : QDesc) : List Byte := q.data.flatMap (fun r => r.2)

/-- Requests of a tensor tile that has sent its data and that no table holds: a multicast counts one, and a copy one for each piece
that it writes on this module (08 R275). A reduction is counted by its round. -/
def QDesc.flight (q : QDesc) (me : Nat) : Nat :=
  if !q.sent then 0
  else if q.desc.op = 3 then 1
  else ((q.pieces true).filter (fun p => (p.fa.map (fun fa => faMod fa == me)).getD false)).length

/-- Class of a tensor tile's requests: the larger of the step's label and CLASS (03 R89). -/
def State.descClass (s : State) (b : Nat) (d : Desc) : Nat := max (s.stepClass b) d.cls.toNat

/-! ### Faults in a transfer (03 R97, R106) -/

/-- The destination of a tensor tile stopped in its commit is partly written: undefined (03 R97). -/
def State.forgetDst (s : State) (t : Nat) (q : QDesc) (b : Nat) : State :=
  (q.pieces true).foldl (fun s p =>
    match p.fa with
    | none => s.forgetRange 2 (t * 2 ^ 24 + p.va) p.len
    | some fa =>
      if faMod fa = s.modNum ∧ faSpace fa ≤ 2
        ∧ s.accessStatus b s.modNum (sceneBit q.scene) (faSpace fa) (faOff fa) p.len false true false = some 0 then
        s.forgetRange (faSpace fa) (faOff fa) p.len
      else s) s

/-- The tile fault of a status (07 R230): uncorrectable or no link, else revoked. -/
def faultOf (st : Nat) : Nat := if st = stUe ∨ st = stLinkDown then 0x018 else 0x017

/-- A tensor tile fails with a tile fault: it leaves its stream, with what it waits for. -/
def State.tensorFail (s : State) (t k : Nat) (q : QDesc) (code a1 a2 : Nat) : State :=
  let b := (s.tileBolt t).getD 0
  let s := if q.phase = .committing then (s.forgetDst t q b).flightSub q.scene b (q.flight s.modNum) else s
  ((s.dropTensorReqs t k).popTensor t k).tileFault t ⟨code, q.desc.tag.toNat, a1, a2⟩

/-- A tensor tile fails with a status at an address of a side; a local uncorrectable error raises HBM_UE first. -/
def State.tensorStatus (s : State) (t k : Nat) (q : QDesc) (st : Nat) (p : Piece) (dst : Bool) : State :=
  let b := (s.tileBolt t).getD 0
  let f := s.tensorFail t k q (faultOf st) p.va (b2n dst)
  match p.fa with
  | some fa => if st = stUe ∧ faMod fa = s.modNum then f.raiseUe b fa t q.desc.tag.toNat else f
  | none => f

/-- A tensor tile is held by a translation fault: nothing is written, what it fetched is discarded, and the fault enters the
bolt's queue (03 R94, 05 R163), which voids the bolt's steps for cause 6 (06 R206). -/
def State.tensorHold (s : State) (t k b : Nat) (q : QDesc) (va : Nat) (dst : Bool) (r : XltReason) (lv : Nat) : State :=
  let s := s.setTensor t k { q with phase := .held, pins := [], data := [] }
  let s := s.faultEnter b {
    seq := 0, stream := k, dstSide := dst, writes := dst, reason := r, level := lv, ltile := s.localNo t, site := t,
    addr := BitVec.ofNat 64 va, tag := q.desc.tag, scene := s.loom.live.num, time := s.time }
  (s.voidSteps b 6 (unitXlt (t / 64))).drainHeld b

/-- Pins a page for a tensor tile; the 65th is a fault (03 R93). -/
def State.tensorPin (s : State) (t k : Nat) (q : QDesc) (l : Leaf) (dst : Bool) : State :=
  let p := addPin q.pins l
  if 64 < p.length then s.tensorFail t k q 0x014 l.va (b2n dst)
  else s.setTensor t k { q with pins := p, phase := .translating none }

/-! ### The group check (03 R505) -/

/-- The node of a tile in a tree. -/
def nodeOf (l : List Node) (site : Nat) : Option Nat := l.findIdx? (fun n => !n.port && n.site == site)

/-- The live record of a reduction group. -/
def State.redRec (s : State) (g : Nat) : Option RedRec := s.loom.live.red.find? (fun r => r.group == g)

/-- The live record of a multicast group. -/
def State.mcRec (s : State) (g : Nat) : Option McastRec := s.loom.live.mcast.find? (fun r => r.group == g)

/-- A multicast record as a flit of a scene sees it (04 R130). -/
def State.mcRecAt (s : State) (g : Nat) (scene : Word) : Option McastRec :=
  if scene = s.loom.live.num then s.mcRec g
  else match s.loom.old.bind (fun c => c.mcast.find? (fun r => r.group == g)) with
    | some r => some r
    | none => s.mcRec g

/-- A reduction record as a round of a scene sees it (04 R130). -/
def State.redRecAt (s : State) (g : Nat) (scene : Word) : Option RedRec :=
  if scene = s.loom.live.num then s.redRec g
  else match s.loom.old.bind (fun c => c.red.find? (fun r => r.group == g)) with
    | some r => some r
    | none => s.redRec g

/-- The cause of a TF_GROUP fault of a descriptor, if any. -/
def State.groupCause (s : State) (b t : Nat) (d : Desc) : Option Nat :=
  match d.op.toNat with
  | 2 =>
    (match s.redRec d.group.toNat with
     | none => some 0
     | some r =>
       if r.bolt ≠ b then some 0
       else if d.redFmt ≠ r.bf16 then some 1
       else match nodeOf r.nodes t with
         | none => some 2
         | some n =>
           if !((r.nodes[n]?).map (fun x => x.member)).getD false then some 2
           else if !r.up && decide (2 ^ 24 < r.destOffset + d.total) then some 3
           else none)
  | 3 =>
    (match s.mcRec d.group.toNat with
     | none => some 0
     | some r => if r.bolt = b then none else some 0)
  | _ => none

/-! ### Injection (03 R92, R98; 04 R125, R127) -/

/-- Cuts bytes into elements of a reduction: FP32 or BF16 words, little-endian. -/
def redElems (bf16 : Bool) : Nat → List Byte → List Word
  | 0, _ => []
  | n + 1, l =>
    let w := if bf16 then 2 else 4
    if l.isEmpty then [] else BitVec.ofNat 32 (leNat (l.take w)) :: redElems bf16 n (l.drop w)

/-- The value −0 of a format, which fills a short chunk (04 R127). -/
def minusZero (bf16 : Bool) : Word := if bf16 then 0x8000 else 0x80000000

/-- A reduction group's run-time state. -/
def State.redRunOf (s : State) (g : Nat) : RedRun := mget RedRun.reset s.redRun g

/-- Replaces it. -/
def State.setRedRun (s : State) (g : Nat) (v : RedRun) : State := { s with redRun := mset RedRun.reset s.redRun g v }

/-- Chunks of 512 bytes of a contribution. -/
def Desc.chunks (d : Desc) : Nat := (d.total + 511) / 512

/-- Tree slots that a node has for an input: two for its own contribution, the edge's tickets for a child's (04 R131). -/
def inputSlots (l : List Node) (node rank : Nat) : Nat :=
  if rank = 0 then 2
  else ((l.zipIdx.find? (fun x => decide (0 < x.2) && x.1.parent == node && x.1.rank + 1 == rank)).map (fun x => x.1.tickets)).getD 0

/-- The Creust port whose leaf gives a node its input of a rank, if one does (04 R126). -/
def leafPort (l : List Node) (node rank : Nat) : Option Nat :=
  if rank = 0 then none
  else ((l.zipIdx.find? (fun x => decide (0 < x.2) && x.1.parent == node && x.1.rank + 1 == rank)).bind
    (fun x => if x.1.port then some x.1.site else none))

/-- A chunk from a port leaf leaves the receive buffer: its 16 cells go back to the sender (07 R216, R217). -/
def State.freeChunk (s : State) (p g : Nat) : State :=
  s.returnCells p (16 + g) 16

/-- The cells of the chunks that wait at a port leaf are free, for the chunks are dropped (04 R132; 07 R216). -/
def State.freeStaged (s : State) (drop : RedInput → Bool) : State :=
  (s.redStage.filter drop).foldl (fun s x => match (s.redRecAt x.group x.scene).bind (fun r => leafPort r.nodes x.node x.rank) with
    | some p => s.freeChunk p x.group
    | none => s) { s with redStage := s.redStage.filter (fun x => !drop x) }

/-- Chunks that wait for slots of a node enter those that are free, in order of their waiting; the timer of a chunk begins with
that (04 R131, R132). -/
def State.redRefill (s : State) (g node : Nat) : State :=
  s.redStage.foldl (fun s x =>
    if x.group ≠ g ∨ x.node ≠ node then s
    else match s.redRecAt g x.scene with
      | none => s
      | some r =>
        let full := (s.redIn.filter (fun i => i.group == g && i.node == node && i.rank == x.rank)).length
        if inputSlots r.nodes node x.rank ≤ full then s
        else
          let s := { s with redStage := s.redStage.erase x, redIn := s.redIn ++ [{ x with at_ := s.redNow r.bolt }] }
          match leafPort r.nodes node x.rank with
          | some p => s.freeChunk p g
          | none => s) s

/-- A member's contribution goes to its node, chunk by chunk as its slots there allow (04 R127, R131), under the record of its
own scene (04 R130). A failed group drops it (04 R132). -/
def State.injectRed (s : State) (t k : Nat) (q : QDesc) : State :=
  let d := q.desc
  let g := d.group.toNat
  match s.redRecAt g q.scene with
  | none => s.setTensor t k { q with sent := true }
  | some r =>
    let run := s.redRunOf g
    let node := (nodeOf r.nodes t).getD 0
    let rd := mget 0 run.next node
    let s := s.setTensor t k { q with sent := true, round := rd }
    if run.failed then s
    else
      let per := if d.redFmt then 256 else 128
      let es := redElems d.redFmt (d.total + 1) q.bytes
      let ins := (List.range d.chunks).map (fun c =>
        let x := (es.drop (c * per)).take per
        ({ group := g, scene := q.scene, node := node, round := rd, chunk := c, rank := 0,
           data := x ++ List.replicate (per - x.length) (minusZero d.redFmt), len := x.length, at_ := s.redNow r.bolt } : RedInput))
      let new := !run.begun.any (fun x => x.1 == rd)
      let s := if new then s.flightAdd q.scene r.bolt 1 else s
      let s := s.setRedRun g { run with
        next := mset 0 run.next node (rd + 1)
        size := mset 0 run.size rd d.chunks
        begun := if new then run.begun ++ [(rd, q.scene)] else run.begun
        sems := run.sems ++ (if d.semEn then [(rd, d.sem.toNat, s.localNo t)] else []) }
      { s with redStage := s.redStage ++ ins }.redRefill g node

/-- The flits of a multicast row: at most 512 bytes each. -/
def mcRow (g : Nat) (scene : Word) (from_ : Nat × Nat) : Nat → Nat → List Byte → List McFlit
  | 0, _, _ => []
  | n + 1, off, l =>
    if l.isEmpty then []
    else ⟨g, scene, 0, off, l.take 512, none, from_⟩ :: mcRow g scene from_ n (off + 512) (l.drop 512)

/-- The flits of a multicast tensor tile, in traversal order. -/
def mcRows (q : QDesc) (from_ : Nat × Nat) : Nat → Nat → List Byte → List McFlit
  | 0, _, _ => []
  | n + 1, k, l =>
    let d := q.desc
    mcRow d.group.toNat q.scene from_ (d.rowLen / 512 + 1) (d.rowAt true k) (l.take d.rowLen)
      ++ mcRows q from_ n (k + 1) (l.drop d.rowLen)

/-- Marks the last flit with the semaphore that each member signals. -/
def markLast (sem : Option Nat) : List McFlit → List McFlit
  | [] => []
  | [f] => [{ f with sem := sem }]
  | f :: fs => f :: markLast sem fs

/-- A multicast tensor tile travels to its group's root; flits beyond ROOT_SLOTS wait in the shuttle's staging buffer. -/
def State.injectMc (s : State) (t k : Nat) (q : QDesc) : State :=
  let d := q.desc
  let fs := markLast (if d.semEn then some d.sem.toNat else none) (mcRows q (t, k) d.rows 0 q.bytes)
  let s := s.setTensor t k { q with sent := true }
  { s with mcFlits := s.mcFlits ++ fs }.flightAdd q.scene ((s.tileBolt t).getD 0) 1

/-- Transactions outstanding of a tile's shuttle: of a class, and in all (11 R348). -/
def State.shuttleCount (s : State) (t c : Nat) : Nat × Nat :=
  let own := fun (o : ReqOwner) => match o with
    | .tensor a _ _ => a == t
    | _ => false
  let l := s.reqs.filterMap (fun e => e.2.bind (fun r => if own r.owner then some r.tc else none))
    ++ s.hostReads.filterMap (fun e => e.2.bind (fun r => if own r.owner then some r.cls else none))
  ((l.filter (fun x => x == c)).length, l.length)

/-- Does a limit hold the next transaction of a class of a tile's shuttle? (11 R348) -/
def State.shuttleFull (s : State) (t b c : Nat) : Bool :=
  let n := s.shuttleCount t c
  decide (s.limitOf b c ≤ n.1 ∨ 512 ≤ n.2)

/-- A limit holds the next transaction of a stream, which waits with those behind it; it counts once (11 R349). -/
def State.shuttleHold (s : State) (t k b : Nat) (q : QDesc) (rest : List Piece) : State :=
  let s := s.setTensor t k { q with todo := rest, limited := true }
  if q.limited then s else s.bump (blt b (0xC40 + 8 * s.descClass b q.desc)) 1

/-- Nothing of the side in hand is left to issue. -/
def State.issuedAll (s : State) (t k : Nat) : State :=
  match s.tensorHead t k with
  | some q => s.setTensor t k { q with todo := [], limited := false }
  | none => s

/-- Sends the remote pieces of a destination as BULK_WR fragments, LAST on each module's last (07 R232), as far as the limits allow
(11 R349). The first failure faults the tensor tile. -/
def State.sendPieces (s : State) (t k b : Nat) (q : QDesc) : List Piece → State × Bool
  | [] => (s.issuedAll t k, true)
  | p :: ps =>
    match p.fa with
    | none => s.sendPieces t k b q ps
    | some fa =>
      if faMod fa = s.modNum then s.sendPieces t k b q ps
      else if s.shuttleFull t b (s.descClass b q.desc) then (s.shuttleHold t k b q (p :: ps), false)
      else
        let q := { q with limited := false }
        let more := ps.any (fun x => match x.fa with
          | some y => faMod y == faMod fa
          | none => false)
        let r := s.sendReq {
          kind := 3, bolt := b, dst := faMod fa, tc := s.descClass b q.desc, addr := fa, bytes := 0,
          data := (q.bytes.drop p.pos).take p.len, ext := none, opx := if more then 0 else 1, aux := 0,
          owner := .tensor t k true, dstSide := true, fault := p.va, pos := p.pos, scene := s.loom.live.num }
        if r.2 = 0 then r.1.sendPieces t k b q ps
        else (r.1.tensorStatus t k q r.2 p true, false)

/-- When every source byte is there, the tensor tile sends what leaves its module, or enters its group's tree. -/
def State.tensorInject (s : State) (t k : Nat) : State :=
  match s.tensorHead t k with
  | none => s
  | some q =>
    if q.phase = .committing ∧ !q.sent ∧ q.have_ = q.desc.total then
      match q.desc.op.toNat with
      | 2 => s.injectRed t k q
      | 3 => s.injectMc t k q
      | _ =>
        -- its writes are issued under the scene now live (08 R272)
        let q := { q with sent := true, scene := s.loom.live.num }
        let b := (s.tileBolt t).getD 0
        (((s.setTensor t k q).flightAdd q.scene b (q.flight s.modNum)).sendPieces t k b q (q.pieces true)).1
    else s

/-- Source bytes have arrived. -/
def State.tensorData (s : State) (t k pos : Nat) (l : List Byte) : State :=
  match s.tensorHead t k with
  | none => s
  | some q => (s.setTensor t k { q with data := putRun (pos, l) q.data }).tensorInject t k

/-! ### Fetching the source (03 R92; 07: LD) -/

/-- Does a local source piece wait for a release or a key? -/
def State.pieceWaits (s : State) (b : Nat) (scene : Word) (wr : Bool) (p : Piece) : Bool :=
  match p.fa with
  | none => false
  | some fa =>
    faMod fa == s.modNum && decide (faSpace fa ≤ 2)
      && (s.accessStatus b s.modNum (sceneBit scene) (faSpace fa) (faOff fa) p.len (!wr) wr false).isNone

/-- Fetches the source pieces, as far as the limits allow (11 R349): local ones at once, host memory and other modules by requests.
The first failure faults the tensor tile. -/
def State.fetchPieces (s : State) (t k b : Nat) : List Piece → State × Bool
  | [] => (s.issuedAll t k, true)
  | p :: ps =>
    match s.tensorHead t k with
    | none => (s, false)
    | some q =>
      if p.fa.isSome && s.shuttleFull t b (s.descClass b q.desc) then (s.shuttleHold t k b q (p :: ps), false)
      else
      let q := { q with limited := false }
      let got := fun (s : State) (l : List Byte) => s.setTensor t k { q with data := putRun (p.pos, l) q.data }
      match p.fa with
      | none => (got s ((s.tile t).spool.bytes p.va p.len)).fetchPieces t k b ps
      | some fa =>
        if faMod fa = s.modNum then
          if faSpace fa = 4 then
            let h : HostRead := {
              owner := .tensor t k false, bolt := b, addr := BitVec.ofNat 64 p.va, pos := p.pos, scene := s.loom.live.num,
              len := p.len, cls := s.descClass b q.desc, at_ := s.now }
            if !s.hostPath b then (s.tensorStatus t k q stUe p false, false)
            else (s.readHost h (faOff fa)).fetchPieces t k b ps
          else match s.accessStatus b s.modNum s.liveBit (faSpace fa) (faOff fa) p.len true false false with
            | some 0 => (got (s.readMeta (faSpace fa) (faOff fa) p.len) (s.peek (faSpace fa) (faOff fa) p.len)).fetchPieces t k b ps
            | some st => (s.tensorStatus t k q st p false, false)
            | none => (s, false)
        else
          let r := s.sendReq {
            kind := 1, bolt := b, dst := faMod fa, tc := s.descClass b q.desc, addr := fa, bytes := p.len, data := [],
            ext := none, opx := 0, aux := 0, owner := .tensor t k false, dstSide := false, fault := p.va, pos := p.pos,
            scene := s.loom.live.num }
          if r.2 = 0 then r.1.fetchPieces t k b ps else (r.1.tensorStatus t k q r.2 p false, false)

/-- A stream whose next transaction a limit held goes on (11 R349). -/
def State.tensorMore (s : State) (t b k : Nat) : State :=
  match s.tensorHead t k with
  | none => s
  | some q =>
    if q.phase ≠ .committing ∨ q.todo = [] then s
    else if q.sent then (s.sendPieces t k b q q.todo).1
    else
      let r := s.fetchPieces t k b q.todo
      if r.2 then r.1.tensorInject t k else r.1

/-- A transaction of a tile's shuttle has ended: its streams that a limit holds go on. -/
def State.shuttleGo (s : State) (t : Nat) : State :=
  match s.tileBolt t with
  | none => s
  | some b => if s.stopping b then s else (s.tile t).streams.foldl (fun s e => s.tensorMore t b e.1) s

/-- The request of an owner has ended. -/
def State.ownerGo (s : State) (o : ReqOwner) : State :=
  match o with
  | .tensor t _ _ => s.shuttleGo t
  | _ => s

/-! ### Table reads over Creust (05 R144, R152) -/

/-- Changes the walks of a unit: the demand walks of its tiles and its prefetch walks. -/
def State.mapWalks (s : State) (u : Nat) (f : Walk → Walk) : State :=
  let head := fun (q : QDesc) => match q.phase with
    | .translating (some w) => { q with phase := .translating (some (f w)) }
    | _ => q
  { s with
    tiles := s.tiles.map (fun e => if e.1 / 64 = u then
        (e.1, { e.2 with streams := e.2.streams.map (fun k => (k.1, { k.2 with queue := match k.2.queue with
          | q :: r => head q :: r
          | [] => [] })) })
      else e)
    pfWalks := s.pfWalks.map (fun p => if p.site / 64 = u then { p with walk := f p.walk } else p) }

/-- Demand walks of a unit: site, stream, walk. -/
def State.demandWalks (s : State) (u : Nat) : List (Nat × Nat × Walk) :=
  s.tiles.flatMap (fun e => if e.1 / 64 ≠ u then [] else e.2.streams.filterMap (fun k => match k.2.queue with
    | q :: _ => (match q.phase with
      | .translating (some w) => some (e.1, k.1, w)
      | _ => none)
    | [] => none))

/-- Does a walk wait for the line at this address? -/
def Walk.awaits (w : Walk) (fa : Nat) : Bool := w.asked && w.line.isEmpty && w.lineFa == fa

/-- The line of a walk's next entry is asked for where the table lies on another module; walks of one unit share a read (R152). The
status is LINK_DOWN when no port leads there. -/
def State.walkAsk (s : State) (u b : Nat) (w : Walk) : State × Walk × Nat :=
  if faMod w.entryFa = s.modNum then (s, w, 0)
  else if (s.demandWalks u).any (fun x => x.2.2.awaits w.lineFa) || s.pfWalks.any (fun p => p.site / 64 == u && p.walk.awaits w.lineFa)
    then (s, { w with asked := true }, 0)
  else
    let r := s.sendReq {
      kind := 1, bolt := b, dst := faMod w.entryFa, tc := 0, addr := w.lineFa, bytes := 128, data := [], ext := none, opx := 0,
      aux := 0, owner := .walk u, dstSide := false, fault := w.lineFa, pos := 0, scene := s.loom.live.num }
    (r.1, { w with asked := true }, r.2)

/-- A line has come for the walks that wait for it. -/
def State.walkData (s : State) (u fa : Nat) (bytes : List Byte) : State :=
  s.mapWalks u (fun w => if w.awaits fa then { w with line := bytes } else w)

/-- A table read of a bolt has failed: an uncorrectable error raises WALK_UE against the bolt (R170); with another status the
tensor tiles that wait fault as of a refused page, and prefetch walks end (log 111). -/
def State.walkFail (s : State) (u b fa st : Nat) : State :=
  let ds := (s.demandWalks u).filter (fun x => x.2.2.awaits fa)
  let ps := s.pfWalks.filter (fun p => p.site / 64 == u && p.walk.awaits fa)
  let s := { s with pfWalks := s.pfWalks.filter (fun p => !ps.contains p) }
  if st = stUe then
    let w := ((ds.map (fun x => x.2.2)) ++ ps.map (fun p => p.walk)).head?
    s.raise (unitChan (faOff fa / chanBytes)) 0x061 2 (some b) ((w.map Walk.entryFa).getD fa) ((w.map Walk.va).getD 0)
      ((w.map Walk.level).getD 0)
  else ds.foldl (fun s x => match s.tensorHead x.1 x.2.1 with
    | some q => s.tensorFail x.1 x.2.1 { q with phase := .translating none } (faultOf st) x.2.2.va (b2n x.2.2.dstSide)
    | none => s) s

/-! ### Committing (03 R84, R98) -/

/-- Destination bytes of a transfer that overlaps its own source: each holds its old value or the copied one (03 R84). -/
def mixBytes (draw pos : Nat) : List Byte → List Byte → List Byte
  | o :: os, n :: ns => (if Config.freeBit draw pos then n else o) :: mixBytes draw (pos + 1) os ns
  | _, _ => []

/-- Fabric range of a piece, the own spool being space 2 of this module. -/
def State.pieceFa (s : State) (t : Nat) (p : Piece) : Nat := p.fa.getD (mkFa s.modNum 2 (t * 2 ^ 24 + p.va))

/-- Do two pieces share a byte? -/
def State.overlap (s : State) (t : Nat) (p q : Piece) : Bool :=
  decide (s.pieceFa t p < s.pieceFa t q + q.len ∧ s.pieceFa t q < s.pieceFa t p + p.len)

/-- Writes the local pieces of a destination; `mixed` says that the transfer's destination overlaps its own source. `s0` is the
state before the transfer's writes. -/
def State.writePieces (s s0 : State) (t b : Nat) (q : QDesc) (mixed : Bool) (draw : Nat) : List Piece → State
  | [] => s
  | p :: ps =>
    let new := (q.bytes.drop p.pos).take p.len
    let data := if mixed then
        (match p.fa with
         | none => mixBytes draw p.pos ((s0.tile t).spool.bytes p.va p.len) new
         | some fa => if faSpace fa ≤ 2 then mixBytes draw p.pos (s0.peek (faSpace fa) (faOff fa) p.len) new else new)
      else new
    let s := match p.fa with
      | none => s.poke 2 (t * 2 ^ 24 + p.va) data
      | some fa =>
        if faMod fa ≠ s.modNum then s
        else if faSpace fa = 4 then s.hostWrite b (faOff fa) data
        else s.poke (faSpace fa) (faOff fa) data
    s.writePieces s0 t b q mixed draw ps

/-- The first local destination piece that its target refuses, with the status. -/
def State.refusedPiece (s : State) (b : Nat) (scene : Word) : List Piece → Option (Piece × Nat)
  | [] => none
  | p :: ps =>
    match p.fa with
    | some fa =>
      if faMod fa = s.modNum ∧ faSpace fa ≤ 2 then
        (match s.accessStatus b s.modNum (sceneBit scene) (faSpace fa) (faOff fa) p.len false true false with
         | some 0 => s.refusedPiece b scene ps
         | some st => some (p, st)
         | none => s.refusedPiece b scene ps)
      else if faMod fa = s.modNum ∧ faSpace fa = 4 ∧ !s.hostPath b then some (p, stUe)
      else s.refusedPiece b scene ps
    | none => s.refusedPiece b scene ps

end Sys2Proof.Machine
end

