-- ==== Sys2Proof/Machine/CrDone.lean ====
section
/-! DEFINITION. How requests over Creust end: with a status, with their port, or with their session
(07_creust_fabric.md R222, R230, R231). -/

namespace Sys2Proof.Machine

/-- An outstanding request. -/
def State.reqAt (s : State) (tag : Nat) : Option CrReq := mget none s.reqs tag

/-! ### The mirror stream (14 R462 to R464) -/

/-- Sends a response that was owed. -/
def State.payOwed (s : State) (w : Owed) : State :=
  match w.rsp with
  | .mem who tag => s.emit (.memRsp who tag 0 [])
  | .packet kind h rval data => s.sendRsp kind h 0 rval data

/-- The mirrored writes that wait are sent, each once no earlier one of its lines is unacknowledged or waiting. -/
def State.mirrorResend (s : State) : List MirWrite → State
  | [] => s
  | w :: ws =>
    let s := if s.mirrorDue w.space w.off w.data.length
      then { s with twin := { s.twin with waiting := s.twin.waiting ++ [w] } } else s.emitMirror w
    s.mirrorResend ws

/-- Is a mirrored write of the bolt made before number `bound` unacknowledged or waiting? -/
def State.mirrorBefore (s : State) (b bound : Nat) : Bool :=
  s.reqs.any (fun (e : Nat × Option CrReq) => match e.2 with
    | some r => r.isMirror && r.bolt == b && decide (r.seq < bound)
    | none => false)
  || s.twin.waiting.any (fun w => w.bolt == b && decide (w.seq < bound))

/-- The port that carries the messages of the U-link session: U0, or U1 when U0 is down. -/
def State.twinPort (s : State) : Nat := if s.portUp 16 then 16 else 17

/-- A declared checkpoint goes to the twin once every mirrored write made before it is acknowledged (R463 steps 1 and 2). -/
def State.sendCkpt (s : State) (b : Nat) : State :=
  match mget none s.twin.ckpt b with
  | none => s
  | some k =>
    if k.sent || s.mirrorBefore b k.bound then s
    else { s with twin := { s.twin with ckpt := mset none s.twin.ckpt b (some { k with sent := true }) } }.emit
      (.twin s.twinPort b 0 k.value)

/-- A mirrored write has been acknowledged: what waited for it goes on. -/
def State.mirrorNext (s : State) : State :=
  let w := s.twin.waiting
  let s := ({ s with twin := { s.twin with waiting := [] } }).mirrorResend w
  let ready := s.twin.owed.filter (fun w => !s.mirrorDue w.space w.off w.len)
  let s := { s with twin := { s.twin with owed := s.twin.owed.filter (fun w => s.mirrorDue w.space w.off w.len) } }
  let s := ready.foldl (fun s w => s.payOwed w) s
  (List.range 64).foldl (fun s b => s.sendCkpt b) s

/-- Bytes of the regions that the pair mirrors. -/
def State.mirrorBytes (s : State) : Nat :=
  ((s.loom.live.regions.filter (fun r => r.redund == .mirrored && !s.twin.unmirrored.contains r.bolt)).map
    (fun r => r.size)).foldl (fun a n => a + n) 0

/-- The pair can be reached (again): the copy of R464 begins. -/
def State.startSync (s : State) : State :=
  let n := s.mirrorBytes
  { s with twin := { s.twin with mode := TwinMode.syncing, syncLeft := n, syncAll := n, syncAt := s.now } }

/-- The twin cannot be reached: mirrored writes are local from now on and complete; a checkpoint that waits is refused; the
incident of R475 with its cause. -/
def State.degrade (s : State) (u cause : Nat) : State :=
  let due := (List.range 64).filter (fun b => (mget none s.twin.ckpt b).isSome)
  let s := due.foldl (fun s b => s.orReg (blt b 0x1100) 0x10) s
  let owed := s.twin.owed
  let s := { s with
    reqs := s.reqs.filter (fun (e : Nat × Option CrReq) => match e.2 with
      | some r => !r.isMirror
      | none => false)
    twin := { s.twin with mode := TwinMode.degraded, syncLeft := 0, waiting := [], owed := [], ckpt := [] } }
  let s := owed.foldl (fun s w => s.payOwed w) s
  s.report u 0x1A7 1 none cause s.twin.twin 0

/-- Is a link of the pair up? -/
def State.uUp (s : State) : Bool := s.portUp 16 || s.portUp 17

/-- The U links have changed (R464, R465). With both out of UP the pair is DEGRADED: cause 2 when both ports are disabled, 0
otherwise; a paired understudy whose TWIN_OK_IN has fallen waits for the filter instead. With one up again the copy begins. -/
def State.uCheck (s : State) (p : Nat) : State :=
  let w := s.twin
  if p < 16 then s
  else if (w.mode = .paired ∨ w.mode = .syncing) ∧ !s.uUp then
    if w.mode = .paired ∧ w.roleEff = 2 ∧ !w.okIn then s
    else s.degrade (unitPort p) (if bit (s.reg (cru 16 0)) 0 || bit (s.reg (cru 17 0)) 0 then 0 else 2)
  else if w.mode = .degraded ∧ s.uUp ∧ w.okIn then s.startSync
  else s

/-! ### Ends of requests -/

/-- A request is no longer outstanding. Mirrored writes do not count toward a scene's in-flight count (08 R275). -/
def State.finishReq (s : State) (tag : Nat) (r : CrReq) : State :=
  let s := { s with reqs := mset none s.reqs tag none }
  if r.isMirror then s.mirrorNext else s.flightSub r.scene r.bolt 1

/-- An aperture access is refused: a read returns all ones, a write is dropped, and AP_DENIED is raised (09 R292). `read`: the
bytes that a read asks for. -/
def State.apRefused (s : State) (fn fa : Nat) (read : Option Nat) : State :=
  let s := s.report unitHost 0x105 0 none fn (fa % 2 ^ 32) (fa / 2 ^ 32)
  match read with
  | some n => s.emit (.apData fn (List.replicate n 0xFF))
  | none => s

/-- A request ends with a status other than OK: its tensor tile or tile faults (R230). A failed SEMSIG has no TAG and no address:
its fault gives TAG 0, the tile named as address, and side 1 (DESIGN CHOICE, log 104). -/
def State.reqFail (s : State) (tag : Nat) (r : CrReq) (st : Nat) : State :=
  let s := s.finishReq tag r
  let s := match r.owner with
    | .tensor t k dst =>
      (match s.tensorHead t k with
       | some q =>
         if q.phase = TensorPhase.committing ∧ !s.stopping r.bolt then s.tensorStatus t k q st ⟨r.pos, r.addr.toNat, none, r.len⟩ dst
         else s
       | none => s)
    | .semsig t => if s.stopping r.bolt then s else s.tileFault t ⟨faultOf st, 0, r.addr.toNat, 1⟩
    | .aperture fn => s.apRefused fn r.addr.toNat (if r.dstSide then none else some r.len)
    | .firmware _ => s.fwArrive tag st []
    | .walk u => s.walkFail u r.bolt r.addr.toNat st
    | _ => s
  s.ownerGo r.owner

/-- Bolts that own a port in the live scene or the draining one, or have a request outstanding through it (R222). -/
def State.portBolts (s : State) (p : Nat) : List Nat :=
  let owners := fun (c : Scene) => (c.bolts.filter (fun r => c.ownsPort r.bolt p)).map (fun r => r.bolt)
  let reqs := s.reqs.filterMap (fun e => match e.2 with
    | some r => if r.port == p && !r.isMirror then some r.bolt else none
    | none => none)
  (owners s.loom.live ++ (match s.loom.old with
    | some c => owners c
    | none => []) ++ reqs).eraseDups

/-- A port with everything of its old link discarded, in a new state (R222). -/
def CrPort.fresh (c : CrPort) (m : PortMode) : CrPort :=
  { CrPort.reset with mode := m, badTrain := c.badTrain, trainUs := c.trainUs, delay := c.delay, fecSec := c.fecSec,
                      fecRx := c.fecRx, fecCorr := c.fecCorr }

/-- Is a port's cage powered and does it hold a module within 15 W? (15 R482, R495) -/
def State.cageOk (s : State) (p : Nat) : Bool :=
  s.pins.p12v && (match (mget Cage.reset s.pins.cages p).plugged with
    | some w => decide (w ≤ 15)
    | none => false)

/-- An enabled port begins to train; without a usable cage it stays DOWN (07 R213; 15 R495). -/
def State.portTrain (s : State) (p : Nat) : State :=
  s.updPort p (fun c => { c.fresh (if s.cageOk p then .train else .down) with badTrain := 0 })

/-- The requests of this module that wait in an egress. -/
def CrPort.waitingReqs (c : CrPort) : List Nat := c.egress.filterMap (fun e => e.req)

/-- A port leaves RETRAIN after `ns`: CR_RETRAIN, which every entry to it raises, carries that time (R219, R254). -/
def State.retrainOver (s : State) (p ns : Nat) : State :=
  s.report (unitPort p) 0x0C2 1 none (s.port p).retrainCause (s.port p).nakCseq ns

/-- A link goes down: everything of it is discarded, waiting requests of this module end with LINK_DOWN, and CR_LINK_DOWN
is raised against each bolt of R222. Cause 0 FAILED, 1 EN cleared, 2 lane lost. -/
def State.linkDown (s : State) (p cause : Nat) (m : PortMode) : State :=
  let bs := s.portBolts p
  let tags := (s.port p).waitingReqs
  let s := if (s.port p).mode = .retrain then s.retrainOver p (s.now - (s.port p).retrainAt) else s
  let s := (s.updPort p (fun c => c.fresh m)).orReg (cru p 4) 0x20
  let w := boltBits bs
  let s := tags.foldl (fun s t => match s.reqAt t with
    | some r => s.reqFail t r stLinkDown
    | none => s) s
  (bs.foldl (fun s b => s.raise (unitPort p) 0x0C3 3 (some b) cause w.1 w.2) s).uCheck p

/-- Puts a port in a state other than UP; one that has been UP and keeps what it held then loses it by R222. -/
def State.portLeave (s : State) (p cause : Nat) (m : PortMode) : State :=
  if (s.port p).peerOk then s.linkDown p cause m else s.updPort p (fun c => c.fresh m)

end Sys2Proof.Machine
end

