-- ==== Sys2Proof/Machine/HbmOps.lean ====
section
/-! DEFINITION. Errors of an HBM3E channel (05_memory_translation.md R170, R174). -/

namespace Sys2Proof.Machine

/-- A corrected error on a channel is counted; every 2^16 corrections raise HBM_CE (R170). -/
def State.chanCorrect (s : State) (off : Nat) : State :=
  let c := off / chanBytes
  let n := mget 0 s.chanCe c + 1
  if n = 2 ^ 16 then
    ({ s with chanCe := mset 0 s.chanCe c 0 }).report (unitChan c) 0x070 1 none n (mkFa s.modNum 0 off) 0
  else { s with chanCe := mset 0 s.chanCe c n }

/-- Bolts that hold a channel in the live scene or the draining one. -/
def State.chanBolts (s : State) (c : Nat) : List Nat :=
  let of := fun (x : Scene) => (match mget none x.channels c with
    | some e => [e.bolt]
    | none => [])
  (of s.loom.live ++ (match s.loom.old with
    | some x => of x
    | none => [])).eraseDups

/-- Takes a channel out of service: its bit clears, HBM_CH_DOWN is raised and every bolt that holds it is reset (R174).
A channel already out of service raises nothing. Cause 0 no response, 1 retrain failure. -/
def State.chanDown (s : State) (c cause : Nat) : State :=
  if !s.chanUp c then s
  else
    let s := s.clrReg (0x200 + 4 * (c / 32)) (2 ^ (c % 32))
    let bs := s.chanBolts c
    let w := boltBits bs
    let s := s.report (unitChan c) 0x073 3 none cause w.1 w.2
    bs.foldl (fun s b => s.boltFail b (unitChan c) 3 0x073) s

end Sys2Proof.Machine
end

