-- ==== Sys2Proof/Machine/QosOps.lean ====
section
/-! DEFINITION. Latency monitors (11_budgets.md R352, R353). -/

namespace Sys2Proof.Machine

/-- Has a millisecond passed since a stage time, if any? -/
def msSince (l : Option Nat) (now : Nat) : Bool :=
  match l with
  | none => true
  | some t => decide (t + 1000000 ≤ now)

/-- A monitor miss of kind `k` and class `c` at the unit `u`: it is counted and recorded, the bolt's guarantee source is
signalled and QOS_MISS raised, each at most once per millisecond (R353). -/
def State.qosMiss (s : State) (k u c b ns : Nat) : State :=
  let s := (s.bump (blt b (0xC80 + 8 * c)) 1).orReg 0x90080 (2 ^ k)
  let s := if msSince (mget none s.power.sigAt b) s.now then
      ({ s with power := { s.power with sigAt := mset none s.power.sigAt b (some s.now) } }).guarEvent b
    else s
  let m := u * 8 + c
  if msSince (mget none s.power.missAt m) s.now then
    ({ s with power := { s.power with missAt := mset none s.power.missAt m (some s.now) } }).report u 0x140 0 (some b)
      (k + 16 * c) ns b
  else s

/-- A monitor of kind `k` measures an interval against its threshold for the class (R353). -/
def State.monitor (s : State) (k u c b ns : Nat) : State :=
  let r := s.reg (0x90000 + 4 * (8 * k + c))
  if bit r 31 ∧ bits r 19 0 < ns then s.qosMiss k u c b ns else s

end Sys2Proof.Machine
end

