-- ==== Sys2Proof/Machine/Hbm.lean ====
section
/-! DEFINITION. HBM3E as software sees it (05_memory_translation.md R170 to R174) with sealed memory's checks
(12_security.md R388 to R394). -/

namespace Sys2Proof.Machine

/-! ### Serving a request (R170; 12 R385, R388) -/

/-- Bytes of a request, at least one. -/
def reqSize (r : MemReq) : Nat := max 1 (if r.write then r.data.length else r.len)

/-- The module that a request comes from. -/
def State.reqSrc (s : State) (r : MemReq) : Nat :=
  match r.who with
  | .creust m => m.toNat
  | _ => s.modNum

/-- Tile site for a report, 0xFFF for any other requester. -/
def reqSite (r : MemReq) : Nat :=
  match r.who with
  | .tile t => t.val
  | _ => 0xFFF

/-- Has the address's group of a sealed region been written since the region was keyed? -/
def State.groupInit (s : State) (sp off : Nat) : Bool :=
  match s.region? sp off with
  | some (n, _) => (mget GroupRec.reset (s.regRun n).groups (off / 4096)).i
  | none => false

/-- Does the request read what it reaches: every read, and a write that covers part of a unit only: 64 bytes, or a block of
512 bytes of a sealed region? (R170, 12 R388) -/
def State.reads (s : State) (sp : Nat) (r : MemReq) : Bool :=
  let u := if s.sealedAt sp r.off then 512 else 64
  !r.write || r.off % u != 0 || (reqSize r) % u != 0

/-- The failed integrity check of an access, as kind and level (12 R385, R393). A whole-block write checks no block; a group
never written checks no MAC; a node that the metadata cache holds is trusted (R387). -/
def State.integrity (s : State) (sp : Nat) (r : MemReq) (mac : MacCheck) : Option (Nat × Nat) :=
  if !s.sealedAt sp r.off then none
  else match mac with
    | .good => none
    | .blockMac => if s.reads sp r && s.groupInit sp r.off then some (0, 0) else none
    | .treeMac l => if s.fetchesLevel sp r.off l.val then some (1, l.val) else none
    | .nodeUe l => if s.fetchesLevel sp r.off l.val then some (2, l.val) else none

/-- INTEGRITY_FAIL, on which the device halts (12 R393). -/
def State.integrityFail (s : State) (u fa kind level : Nat) : State :=
  s.raise u 0x160 4 none (kind + 2 ^ 8 * level) (fa % 2 ^ 32) (fa / 2 ^ 32)

/-- Answers a request. -/
def State.answer (s : State) (r : MemReq) (st : Nat) (data : List Byte) : State := s.emit (.memRsp r.who r.tag st data)

/-- Performs a request that every check accepts; a mirrored write is answered when both copies hold it (14 R462). -/
def State.perform (s : State) (sp : Nat) (r : MemReq) : State :=
  if r.write then
    let s := s.poke sp r.off r.data
    if s.mirrorDue sp r.off r.data.length then
      { s with twin := { s.twin with owed := s.twin.owed ++ [⟨sp, r.off, r.data.length, .mem r.who r.tag⟩] } }
    else s.answer r 0 []
  else (s.readMeta sp r.off r.len).answer r 0 (s.peek sp r.off r.len)

/-- HBM_ACCESS (R170): an edge stop serves a request; `ns` is what its latency monitor measures. A request that waits for a
release or a key is not served yet. -/
def execHbmAccess (r : MemReq) (ecc : Ecc) (mac : MacCheck) (ns : Nat) (s : State) : Host.Outcome State Fault Refusal :=
  .next (
    if !s.live then s
    else
      let b := r.bolt.val
      match s.accessStatus b (s.reqSrc r) r.scene 0 r.off (reqSize r) (!r.write) r.write false with
      | none => s
      | some st =>
        let u := unitChan (r.off / chanBytes)
        let fail := fun (s : State) => (s.raiseUe b (mkFa s.modNum 0 r.off) (reqSite r) r.tag.toNat).answer r stUe []
        let done := fun (s : State) => s.monitor 0 (unitChan (r.off / chanBytes / 8 * 8)) r.cls.val b ns
        if st = stUe then done (fail s)
        else if st ≠ 0 then done (s.answer r st [])
        else match s.integrity 0 r mac with
          | some (k, l) => s.integrityFail u (mkFa s.modNum 0 r.off) k l
          | none =>
            if s.reads 0 r ∧ ecc = .uncorrectable ∧ !(!r.write && s.twinServes 0 r.off) then done (fail (s.ueMark r.off))
            else
              let s := if s.reads 0 r ∧ ecc = .corrected then s.chanCorrect r.off else s
              done (s.perform 0 r))

/-- HBM_SCRUB (R171): the background scrub reaches a unit of a channel, at a byte of its 3 GiB. -/
def execHbmScrub (c : Chan) (off : Nat) (ecc : Ecc) (s : State) : Host.Outcome State Fault Refusal :=
  .next (
    let a := c.val * chanBytes + off % chanBytes
    if !s.live || !s.chanUp c.val then s
    else match ecc with
      | .clean => s
      | .corrected => s.chanCorrect a
      | .uncorrectable => (s.ueMark a).report (unitChan c.val) 0x072 1 none (mkFa s.modNum 0 a) 0 0)

/-- HBM_REFRESH_HOT (R172): a stack's temperature crosses 85 °C; the report names the stack's first channel. -/
def execHbmRefreshHot (stack : Fin 24) (temp : Nat) (s : State) : Host.Outcome State Fault Refusal :=
  .next (
    let u := unitChan (stack.val * 16)
    if !s.live then s
    else if 85 ≤ temp ∧ !s.hot.contains stack.val then
      ({ s with hot := stack.val :: s.hot }).report u 0x074 0 none 1 temp 0
    else if temp < 85 ∧ s.hot.contains stack.val then
      ({ s with hot := s.hot.erase stack.val }).report u 0x074 0 none 0 temp 0
    else s)

/-- HBM_CH_DOWN (R174): a channel stops responding, or its link fails to retrain. -/
def execHbmChDown (c : Chan) (retrain : Bool) (s : State) : Host.Outcome State Fault Refusal :=
  .next (if s.live then s.chanDown c.val (b2n retrain) else s)

end Sys2Proof.Machine
end

