-- ==== Sys2Proof/Machine/Aperture.lean ====
section
/-! DEFINITION. The apertures, and the completions of reads of host memory (09_host_objects.md R292, R293). -/

namespace Sys2Proof.Machine

/-- May the host principal access a range: of this module's memory, outside the reserved area, clear throughout, and not kept
for the twin when it writes? -/
def State.hostMay (s : State) (sp off len : Nat) (wr : Bool) : Bool :=
  decide (sp ≤ 2) && s.inSpace sp off len && !s.inReserved sp off len
    && !s.loom.live.regions.any (fun r => r.mode != .clear && faSpace r.base == sp
        && decide (faOff r.base < off + len ∧ off < faOff r.base + r.size))
    && !(decide (sp ≤ 1) && s.inSide sp off len) && !s.beyondCoded sp off len && !(wr && s.keptForTwin sp off)

/-- The bytes of a write, or those that a read asks for. -/
def apLen (len : Nat) (wdata : Option (List Byte)) : Nat :=
  match wdata with
  | some l => l.length
  | none => len

/-- What a read asks for, in bytes. -/
def apRead (len : Nat) (wdata : Option (List Byte)) : Option Nat :=
  match wdata with
  | some _ => none
  | none => some len

/-- An uncorrectable error answers an aperture access: all ones, HBM_UE with requester 0xFFF, and no bolt reset (R292). -/
def State.apUe (s : State) (fn sp off : Nat) (read : Option Nat) : State :=
  let s := if sp = 0 then s.report (unitChan (off / chanBytes)) 0x071 2 none (mkFa s.modNum sp off) 0xFFF 0 else s
  match read with
  | some n => s.emit (.apData fn (List.replicate n 0xFF))
  | none => s

/-- Does the access read memory that its ECC protects: a read, or a write of part of a unit? (05 R170) -/
def State.apReads (s : State) (sp off len : Nat) (wr : Bool) : Bool :=
  let u := if s.sealedAt sp off then 512 else 64
  sp ≤ 1 && (!wr || off % u != 0 || len % u != 0)

/-- Performs an access to this module's memory that every check has passed. -/
def State.apPerform (s : State) (fn sp off len : Nat) (wdata : Option (List Byte)) (ecc : Ecc) : State :=
  let rd := s.apReads sp off len wdata.isSome
  if !s.rangeUp sp off len ∨ rd ∧ ecc = .uncorrectable
      ∨ s.ueAt sp off len wdata.isNone wdata.isSome then
    let s := if rd ∧ ecc = .uncorrectable ∧ sp = 0 ∧ s.rangeUp sp off len then s.ueMark off else s
    (if wdata.isNone ∧ s.twinServes sp off then s.emit (.apData fn (s.peek sp off len))
     else s.apUe fn sp off (apRead len wdata))
  else
    let s := if rd ∧ ecc = .corrected ∧ sp = 0 then s.chanCorrect off else s
    match wdata with
    | some l => s.poke sp off l
    | none => (s.readMeta sp off len).emit (.apData fn (s.peek sp off len))

/-- The PF's access, as the host principal. -/
def State.pfAperture (s : State) (fa len : Nat) (wdata : Option (List Byte)) (ecc : Ecc) : State :=
  if faMod fa = s.modNum ∧ s.hostMay (faSpace fa) (faOff fa) len wdata.isSome then
    s.apPerform 0 (faSpace fa) (faOff fa) len wdata ecc
  else s.apRefused 0 fa (apRead len wdata)

/-- A VF's access to the memory of another module: a request of the bolt over Creust. -/
def State.vfRemote (s : State) (fn b fa len : Nat) (wdata : Option (List Byte)) : State :=
  let r := s.sendReq {
    kind := if wdata.isSome then 2 else 1, bolt := b, dst := faMod fa, tc := 1, addr := fa, bytes := len,
    data := wdata.getD [], ext := none, opx := 0, aux := 0, owner := .aperture fn, dstSide := wdata.isSome, fault := fa,
    pos := 0, scene := s.loom.live.num }
  if r.2 = 0 then r.1 else s.apRefused fn fa (apRead len wdata)

/-- A VF's access to host memory: a request of the bolt to space 4 of its own module. -/
def State.vfHost (s : State) (fn b fa len : Nat) (wdata : Option (List Byte)) : State :=
  match wdata with
  | some l => s.hostWrite b (faOff fa) l
  | none =>
    s.readHost {
      owner := .aperture fn, bolt := b, addr := BitVec.ofNat 64 fa, pos := 0, scene := s.loom.live.num, len := len, cls := 1,
      at_ := s.now } (faOff fa)

/-- A VF's access, as a request of its bolt. It waits for a release or a key as the bolt's requests do. -/
def State.vfAperture (s : State) (fn b fa len : Nat) (wdata : Option (List Byte)) (ecc : Ecc) : State :=
  let rd := apRead len wdata
  if faMod fa ≠ s.modNum then s.vfRemote fn b fa len wdata
  else if faSpace fa = 4 then s.vfHost fn b fa len wdata
  else match s.accessStatus b s.modNum s.liveBit (faSpace fa) (faOff fa) len wdata.isNone wdata.isSome false with
    | none => s
    | some st =>
      if st = stUe then s.apUe fn (faSpace fa) (faOff fa) rd
      else if st ≠ 0 then s.apRefused fn fa rd
      else s.apPerform fn (faSpace fa) (faOff fa) len wdata ecc

/-- APERTURE_ACCESS (R292): a read of `len` bytes, or a write of `wdata`, at an offset of a function's BAR2. On a halted device
a read returns all ones and a write is dropped (14 R457). An access beyond the BAR reaches no aperture (R290). -/
def execApertureAccess (fn : Fn) (off : Nat) (len : Nat) (wdata : Option (List Byte)) (ecc : Ecc) (s : State) :
    Host.Outcome State Fault Refusal :=
  .next (
    let n := apLen len wdata
    let size := if fn = 0 then 2 ^ s.pci.bar2Exp else 2 ^ 33
    if !s.pins.perst0N || s.pins.inReset.isSome || !s.pins.resetN || !s.pins.pwrGood || n = 0 || !s.fnOn fn.val
        || decide (size < off + n) then s
    else if s.inc.halted then
      (match apRead n wdata with
       | some k => s.emit (.apData fn.val (List.replicate k 0xFF))
       | none => s)
    else if fn = 0 then s.pfAperture ((s.reg64 0x10010 + off) % 2 ^ 64) n wdata ecc
    else match s.fnBolt fn.val with
      | some b => s.vfAperture fn.val b ((s.reg64 (blt b 0x10) + off) % 2 ^ 64) n wdata ecc
      | none => s.apRefused fn.val off (apRead n wdata))

/-! ### Reads of host memory (R293) -/

/-- An outstanding read of host memory, taken from the table: it counts no longer (08 R275). -/
def State.takeHostRead (s : State) (tag : Nat) : Option (State × HostRead) :=
  (mget none s.hostReads tag).map (fun h =>
    (({ s with hostReads := mset none s.hostReads tag none }).flightSub h.scene h.bolt 1, h))

/-- A read of host memory fails: an uncorrectable error at the target (R293; 03 R97). -/
def State.hostReadFail (s : State) (tag : Nat) (h : HostRead) : State :=
  match h.owner with
  | .tensor t k _ =>
    (match s.tensorHead t k with
     | some q => s.tensorStatus t k q stUe ⟨h.pos, h.addr.toNat, none, h.len⟩ false
     | none => s)
  | .aperture fn => s.emit (.apData fn (List.replicate h.len 0xFF))
  | .firmware _ => s.fwArrive tag stUe []
  | _ => s

/-- HOST_READ_COMPLETION (R293; 11 R352): the completion of a read of space 4; a poisoned one is an uncorrectable error. -/
def execHostReadCompletion (tag : BitVec 16) (data : List Byte) (poisoned : Bool) (s : State) :
    Host.Outcome State Fault Refusal :=
  .next (
    if !s.live then s
    else match s.takeHostRead tag.toNat with
      | none => s
      | some (s, h) =>
        let s := s.monitor 2 unitHost h.cls h.bolt (s.now - h.at_)
        if poisoned then (s.hostReadFail tag.toNat h).ownerGo h.owner
        else match h.owner with
          | .tensor t k _ => (s.tensorData t k h.pos (data.take h.len)).shuttleGo t
          | .aperture fn => s.emit (.apData fn (data.take h.len))
          | .firmware _ => s.fwArrive tag.toNat 0 (data.take h.len)
          | _ => s)

/-- SPACE4_COMPLETION_TIMEOUT (R293). -/
def execSpace4CompletionTimeout (tag : BitVec 16) (s : State) : Host.Outcome State Fault Refusal :=
  .next (
    if !s.live then s
    else match s.takeHostRead tag.toNat with
      | none => s
      | some (s, h) => (s.hostReadFail tag.toNat h).ownerGo h.owner)

end Sys2Proof.Machine
end

