-- ==== Sys2Proof/Machine/StuOps.lean ====
section
/-! DEFINITION. The stage time unit's states, alignment and corrections (06 R178 to R187). -/

namespace Sys2Proof.Machine

/-- The code of a state (06 STU_STATE). -/
def StuMode.code : StuMode → Nat
  | .free => 0
  | .acquire => 1
  | .locked => 2
  | .holdover => 3

/-- STU_CTL.SRC, PPS_OUT_EN and PARENT as stored. -/
def State.stuSrc (s : State) : Nat := bits (s.reg 0x20010) 1 0
def State.stuPpsOut (s : State) : Bool := bit (s.reg 0x20010) 2
def State.stuParent (s : State) : Nat := bits (s.reg 0x20010) 6 3

/-- ERR_BOUND as it reads: in HOLDOVER it grows by 25 ns for each second; it saturates at 255 (06 R185). -/
def State.errBound (s : State) : Nat :=
  match s.stu.mode with
  | .holdover => min 255 (s.stu.holdoverErr + 25 * ((s.now - s.stu.holdoverAt) / giga))
  | _ => s.stu.errBound

/-- What ALIGN_OK should be (06 R186): a root of a fabric domain is one whose source is no fabric port (06 R184). In ACQUIRE, where
stage time may be stepped, it is 0 (06 R178; DEDUCED, log 108). -/
def State.aligned (s : State) : Bool :=
  (s.stu.mode == .locked && decide (s.stu.errBound ≤ 5)) || (s.stu.child && s.stuSrc != 1 && s.stu.mode != .acquire)

/-- Sets ALIGN_OK by its rule; its fall sets ALIGN_LOST, raises STU_ALIGN_LOST and voids the steps of the bolts that span
modules for cause 8 (06 R186, R187, R206). -/
def State.updateAlign (s : State) : State :=
  let a := s.aligned
  let fell := s.stu.alignOk && !a
  let s := { s with stu := { s.stu with alignOk := a } }
  if fell then
    let s := s.orReg 0x20028 2
    let s := s.report unitStu 0x0A3 0 none s.errBound s.time.toNat 0
    (s.loom.live.bolts.filter (fun r => s.spans r.bolt)).foldl (fun s r => s.voidSteps r.bolt 8 unitStu) s
  else s

/-- ERR_BOUND on entering a state: 1 ns for a PPS root in LOCKED; in LOCKED from a fabric source 1 ns and 1.5 ns for each
link to the root, rounded up: no message tells the module how many, and `links` is free (06 R184); 0 for a free-running
fabric root; else 255. -/
def State.boundFor (s : State) (m : StuMode) (links : Nat) : Nat :=
  match m with
  | .locked => if s.stuSrc = 1 then min 255 (1 + (3 * (1 + links) + 1) / 2) else 1
  | .free => if s.stu.child then 0 else 255
  | .acquire => 255
  | .holdover => s.stu.errBound

/-- Changes the STU's state; a change raises STU_STATE_CHG, and entering HOLDOVER from a PPS source sets PPS_LOST
(06 R181). -/
def State.setStuMode (s : State) (m : StuMode) : State :=
  if s.stu.mode = m then s
  else
    let old := s.stu.mode
    let d := s.draw
    let e := s.boundFor m (Config.freeNat d.2)
    let s := if m = .locked ∧ s.stuSrc = 1 then d.1 else s
    let s := if m = .holdover ∧ s.stuSrc = 0 then s.orReg 0x20028 1 else s
    let s := { s with stu := { s.stu with
      mode := m, good := 0, holdoverAt := s.now, holdoverErr := s.stu.errBound, errBound := e } }
    let s := s.report unitStu 0x0A2 0 none (old.code + 4 * m.code) s.errBound (ofInt 32 s.stu.phase)
    s.updateAlign

/-- Enters ACQUIRE afresh. -/
def State.reacquire (s : State) : State :=
  let s := s.setStuMode .acquire
  { s with stu := { s.stu with good := 0, firstDone := false, stepMade := false } }

/-- The STU takes a new STU_CTL value, from a loom commit or a PF write (06 R179, R181). -/
def State.loadStuCtl (s : State) (v : Nat) : State :=
  let src := s.stuSrc
  let par := s.stuParent
  let s := s.setReg 0x20010 (v % 128)
  if s.stuSrc = src ∧ (s.stuParent = par ∨ s.stuSrc ≠ 1) then s
  else if s.stuSrc = 2 then s.setStuMode .free
  else s.reacquire

/-- Is any cue armed on the module? -/
def State.cueArmed (s : State) : Bool := !s.cues.isEmpty

/-- Steps stage time (06 R182): STEPPED is set and STU_STEP raised. `src` is 0 for PPS, 1 for fabric. -/
def State.stepTime (s : State) (t src : Nat) : State :=
  let old := s.time
  let s := { s with stu := { s.stu with time := t, firstDone := true, stepMade := true } }
  let s := s.orReg 0x20028 0x20
  s.report unitStu 0x0A6 0 none old.toNat s.time.toNat src

/-- The frequency correction after an accepted measurement: the loop's value, within ±50 ppm, is not stated (06 R178,
STU_FREQ). -/
def State.steer (s : State) : State :=
  let d := s.draw
  let v : Int := ((Config.freeNat d.2 % 429497 : Nat) : Int) - 214748
  { d.1 with stu := { d.1.stu with freq := BitVec.ofInt 32 v } }

/-- An accepted edge or completed exchange with a measured offset: the first one in ACQUIRE steps the time to `target` while
no cue is armed; enough good ones in a row lock the STU (06 R181, R182). `limit` is the criterion's offset and `need` its
count. -/
def State.measured (s : State) (off : Int) (target src limit need : Nat) : State :=
  let s := { s.steer with stu := { s.steer.stu with phase := off, lastRef := s.now } }
  let can := s.stu.mode == .acquire && !s.stu.firstDone && !s.cueArmed
  let s := if can then s.stepTime target src else { s with stu := { s.stu with firstDone := true } }
  let s := { s with stu := { s.stu with lastRef := s.now } }
  match s.stu.mode with
  | .acquire | .holdover =>
    let g := if off.natAbs ≤ limit then s.stu.good + 1 else 0
    let s := { s with stu := { s.stu with good := g } }
    if need ≤ g then s.setStuMode .locked else s
  | _ => s

end Sys2Proof.Machine
end

