-- ==== Sys2Proof/Machine/LoomOps.lean ====
section
/-! DEFINITION. A scene goes live, moves its resources and retires the old one (08_loom_bolts.md R273 to R283; 03 R105;
12_security.md R380). -/

namespace Sys2Proof.Machine


/-! ### Regions (12 R379, R380) -/

/-- A region's index in a list of records. -/
def regionIx (l : List Region) (r : Region) : Option Nat := l.findIdx? (fun x => x == r)

/-- State of a region that a scene creates: KEYLESS, or nothing for a clear one. -/
def freshRegion (r : Region) : RegRun := if r.mode = .clear then RegRun.reset else { RegRun.reset with st := .keyless }

/-- The contents of a region become undefined: its key has gone, or a key has come. Its metadata go with the key. -/
def State.forgetRegion (s : State) (r : Region) : State :=
  if r.mode = .clear then s else (s.forgetRange (faSpace r.base) (faOff r.base) r.size).dropMeta r.base

/-- A region's REKEY is abandoned (12 R392). -/
def State.abandonRekey (s : State) (n : Nat) (r : Region) : State :=
  let q := s.regRun n
  if q.st = .rekey then s.raise unitSec 0x162 0 (some r.bolt) n 2 (q.oldCount % 2 ^ 32) else s

/-- The region table follows a new scene: regions that stay keep their state, others start afresh, and the keys of those
that go are destroyed. `old` is the scene before. -/
def State.moveRegions (s : State) (old : Scene) : State :=
  let live := s.loom.live.regions
  let gone := old.regions.zipIdx.filter (fun x => !live.contains x.1)
  let new := live.filter (fun r => !old.regions.contains r)
  let s := gone.foldl (fun s x => (s.abandonRekey x.2 x.1).forgetRegion x.1) s
  let s := new.foldl (fun s r => s.forgetRegion r) s
  let keep := fun (j : Nat) (r : Region) => match regionIx old.regions r with
    | some n => (j, s.regRun n)
    | none => (j, freshRegion r)
  let lost := fun (j : Nat) (r : Region) => match regionIx old.regions r with
    | some n => (j, mget [] s.lost n)
    | none => (j, [])
  { s with
    sec := { s.sec with regions := (live.zipIdx.map (fun x => keep x.2 x.1)).filter (fun e => e.2 != RegRun.reset) }
    lost := (live.zipIdx.map (fun x => lost x.2 x.1)).filter (fun e => e.2 != []) }

/-! ### Tiles (R281, 03 R105) -/

/-- Bundles of a stream by index. -/
def imemOf (l : List (BitVec 128)) : Sparse (BitVec 128) := (l.zipIdx.map (fun x => (x.2, x.1))).filter (fun e => e.2 != 0)

/-- A tile under a new blocking: the stream loaded, the program counter at its entry, registers, seed and status cleared,
spool and accumulators undefined, no weights; STEP, CREL and NCREL stay (03 R105). -/
def Tile.reblock (t : Tile) (stream : List (BitVec 128)) (epoch : Nat) : Tile :=
  { Tile.reset with
    imem := imemOf stream, streamLen := stream.length, step := t.step, crel := t.crel, ncrel := t.ncrel,
    credits := t.credits, sems := t.sems, utlb := t.utlb, hold := t.hold, holdSince := t.holdSince, gated := t.gated,
    spool := Mem.empty.forget 0 spoolBytes epoch, acc := Mem.empty.forget 0 (2 ^ 20) (epoch + 1), run := .running }

/-- Tile count of a whole bolt after its tiles on this module have changed from `n` to `m`. -/
def State.newCount (s : State) (b n m : Nat) : Nat :=
  match s.blocking b with
  | some k => k.tiles - n + m
  | none => m

/-- Loads the streams of the selected blocking into a bolt's tiles, by new number (03 R105). -/
def State.reblockTiles (s : State) (b : Nat) (k : Blocking) : State :=
  (s.boltTiles b).foldl (fun s t =>
    let e := s.freeCtr
    let s := { s with freeCtr := s.freeCtr + 2 }
    s.updTile t (fun x => x.reblock ((k.streams[s.localNo t]?).getD []) e)) s

/-- Applies elastic blocking to a bolt whose tiles have changed, or refuses its next step (R281). -/
def State.reblock (s : State) (b n : Nat) : State :=
  if !s.loaded b then s
  else
    let m := s.tileCount b
    let cnt := s.newCount b n m
    let el := ((s.bolt? b).map (fun r => r.elastic)).getD false
    match (s.ctx b).blks.findIdx? (fun k => k.tiles == cnt) with
    | some j =>
      if el then
        let s := s.updCtx b (fun c => { c with blk := j, local_ := [] })
        (match (s.ctx b).blks[j]? with
         | some k => s.reblockTiles b k
         | none => s)
      else s.updCtx b (fun c => { c with refuseNext := true })
    | none => s.updCtx b (fun c => { c with refuseNext := true })

/-- A site takes its entry of the live scene; a tile that leaves a bolt is zeroed, and waits idle. -/
def State.moveSite (s : State) (t : Nat) : State :=
  let e := mget none s.loom.live.tiles t
  let old := s.member t
  let s := { s with loom := { s.loom with members := mset none s.loom.members t e } }
  if old.map (fun x => x.bolt) = e.map (fun x => x.bolt) then s
  else s.updTile t (fun x => { Tile.reset with hold := x.hold, holdSince := x.holdSince, gated := x.gated })

/-- Moves a bolt's tiles at its step boundary: those that leave it join their new bolts, idle, and those that no bolt holds join
it (R281). -/
def State.moveTiles (s : State) (b : Nat) : State :=
  let mine := s.boltTiles b
  let free := (s.loom.live.sites b).filter (fun t => (s.member t).isNone)
  let s := (mine ++ free).foldl (fun s t => s.moveSite t) s
  s.redTimers b

/-- Has a bolt no admitted step still undelivered? -/
def State.stepless (s : State) (b : Nat) : Bool := (s.ctx b).steps.isEmpty && (s.ctx b).saved.all (fun v => v.step.isNone)

/-- The tiles that a bolt has now take the place of those it worked with before, `before`: elastic blocking applies, or its next
step is refused. Its move is over when it has all that the live scene gives it (R281). -/
def State.enterTiles (s : State) (b : Nat) (before : List Nat) : State :=
  let s := if s.boltTiles b = before then s else s.reblock b before.length
  if s.boltTiles b == s.loom.live.sites b then { s with loom := { s.loom with movePend := s.loom.movePend.erase b } } else s

/-- A pending move of a bolt at a step boundary: the tiles move, and the new count takes effect. A bolt that gains tiles from it
takes them into its blocking at its own step boundary, or at once where it has no step undelivered (R281). -/
def State.boundary (s : State) (b : Nat) : State :=
  if !s.loom.movePend.contains b then s
  else
    let before := s.activeTiles b
    let s := (s.moveTiles b).enterTiles b before
    (s.loom.movePend.filter (fun g => g != b && s.stepless g)).foldl (fun s g => s.enterTiles g (s.activeTiles g)) s

/-! ### Going live (R274) -/

/-- The port registers of a scene: EN rises at the cue; a port whose EN falls follows at retirement. A FAILED port that the
scene changes trains again, and a port in UP with another peer than expected goes down (R274, 07 R213, R214). -/
def State.scenePorts (s : State) (old : Scene) : State :=
  match s.loom.live.ports with
  | none => s
  | some l =>
    l.zipIdx.foldl (fun s x =>
      let r := x.1
      let p := x.2
      let c := s.port p
      let changed : Bool := match old.ports with
        | none => true
        | some o => o[p]? != some r
      let s := if r.en then s.orReg (cru p 0) 1 else s
      let bad : Bool := match c.peer with
        | some (k, m, q, _) => !(k == r.peerSw && (r.peerSw || (m == r.peerMod && q == r.peerPort)))
        | none => false
      if c.mode = .down then (if bit (s.reg (cru p 0)) 0 then s.portTrain p else s)
      else if c.mode = .failed ∧ changed then s.portTrain p
      else if c.mode = .up ∧ bad ∧ r.en then s.linkDown p 2 .train
      else s) s

/-- Shares are reset for a bolt whose reservation, floor or tile count the scene changes (11 R359). -/
def State.sceneShares (s : State) (old : Scene) : State :=
  s.loom.live.bolts.foldl (fun s r =>
    match old.bolt? r.bolt with
    | some o => if o.pwrRes = r.pwrRes ∧ o.floorOp = r.floorOp ∧ o.tiles = r.tiles then s else s.resetShares r.bolt
    | none => s.resetShares r.bolt) s

/-- LOM_SCENE_LIVE for each bolt that the scene changes (R284). -/
def State.sceneReports (s : State) (old : Scene) : State :=
  (old.bothBolts s.loom.live).foldl (fun s b =>
    if old.changes s.loom.live b then
      s.report unitHouse 0x0E2 0 (some b) s.loom.live.num.toNat old.num.toNat (mget 0 s.loom.inflight (flightKey old.num b))
    else s) s

/-- The armed scene goes live (R273, R274). -/
def State.goLive (s : State) : State :=
  match s.loom.next with
  | none => s
  | some c =>
    let old := s.loom.live
    let moved := (old.bothBolts c).filter (fun b => old.tileEnts b != c.tileEnts b)
    let s := { s with loom := { s.loom with
      live := c, old := some old, next := none, cueSlot := none, mode := .draining, cueAt := s.now, committed := true,
      image := s.loom.nextImage, imageLen := s.loom.nextLen, nextImage := [], nextLen := 0,
      movePend := (s.loom.movePend ++ moved).eraseDups } }
    let s := (s.moveRegions old).setReg 0x224004 c.cplTmo
    let s := s.loadStuCtl c.stuCtl.toNat
    let now := moved.filter (fun b => s.stepless b)
    let before := now.map (fun b => (b, s.activeTiles b))
    let s := now.foldl (fun s b => s.moveTiles b) s
    let s := before.foldl (fun s x => s.enterTiles x.1 x.2) s
    let s := (s.sceneShares old).updateFloors
    (s.scenePorts old).sceneReports old

/-! ### Retirement (R276, R277, R280) -/

/-- Requests of the old scene in flight on the module. -/
def State.oldFlight (s : State) : Nat :=
  match s.loom.old with
  | none => 0
  | some c => c.bolts.foldl (fun n r => n + mget 0 s.loom.inflight (flightKey c.num r.bolt)) 0

/-- Channels of the live scene that are scrubbed before their new owner gains them (R280). -/
def scrubList (old live : Scene) (now : Nat) : List (Nat × Nat × Option Nat) :=
  live.channels.filterMap (fun e => e.2.bind (fun x =>
    if x.passes (mget none old.channels e.1) then some (e.1, x.bolt, some now) else none))

/-- A changed group's nodes go on from the highest round begun (04 R130). -/
def State.moveGroups (s : State) (old : Scene) : State :=
  s.loom.live.red.foldl (fun s r =>
    if old.red.contains r then s
    else
      let run := s.redRunOf r.group
      let top := run.next.foldl (fun n e => max n e.2) 0
      s.setRedRun r.group { run with next := if top = 0 then [] else (List.range r.nodes.length).map (fun k => (k, top)) }) s

/-- The sessions of bindings that the live scene no longer holds close (07 R244): at retirement, for the old scene's traffic needs them
until then (DEDUCED, log 121). -/
def State.closeUnbound (s : State) : State :=
  (s.sess.filterMap (fun e => match e.2 with
    | some x => if s.loom.live.bindings.any (fun k => k.bolt == x.bolt && k.peer == x.peer) then none else some e.1
    | none => none)).foldl (fun s k => s.closeSess k 0) s

/-- The old scene retires: departing resources pass to their new owners, scrubs begin, ports whose EN falls go down, and
LOM_RETIRED is raised (R276, R284); sessions whose peer the scene removed close. -/
def State.retireScene (s : State) (late : Bool) : State :=
  match s.loom.old with
  | none => s
  | some c =>
    let s := { s with loom := { s.loom with
      old := none, mode := .steady, retiredAt := s.now, scrubs := s.loom.scrubs ++ scrubList c s.loom.live s.now } }
    let s := (s.moveGroups c).closeUnbound
    let s := match s.loom.live.ports with
      | some l => l.zipIdx.foldl (fun (s : State) (x : PortRec × Nat) =>
          if x.1.en then s else (s.clrReg (cru x.2 0) 1).portLeave x.2 1 .down) s
      | none =>
        (List.range 18).foldl (fun (s : State) (p : Nat) => if bit (s.reg (cru p 0)) 0 then (s.clrReg (cru p 0) 1).portLeave p 1 .down else s) s
    s.report unitHouse 0x0E3 0 none c.num.toNat (min (s.now - s.loom.cueAt) 0xFFFFFFFF) (b2n late)

/-- DRAIN_MAX, or FORCE: every bolt whose old-scene count is not zero is reset, LOM_DRAIN_TIMEOUT raised against it, and the
old scene retires (R277). -/
def State.drainForce (s : State) (force : Bool) : State :=
  match s.loom.old with
  | none => s
  | some c =>
    let bs := c.bolts.filter (fun r => mget 0 s.loom.inflight (flightKey c.num r.bolt) != 0)
    let s := bs.foldl (fun s r =>
      s.raise unitHouse 0x0E4 2 (some r.bolt) c.num.toNat (mget 0 s.loom.inflight (flightKey c.num r.bolt)) (b2n force)) s
    s.retireScene true

end Sys2Proof.Machine
end

