-- ==== Sys2Proof/Machine/Calls.lean ====
section
/-! DEFINITION. Calls that need no translation, and steps (09 R300 to R309; 06 R194 to R207). A call command names a queue
and acts on the call of that queue that starts next, when it has the command's opcode. -/

namespace Sys2Proof.Machine

/-! ### Which call starts next (09 R300) -/

/-- The first call of a window that has not started, when every call before it is an admitted STEP. -/
def firstIdle : List FetchedCall → Option FetchedCall
  | [] => none
  | c :: r =>
    if c.started then (if callOp c.words = 1 then firstIdle r else none)
    else some c

/-- May the bolt take a step now? (06 R202) -/
def State.admissible (s : State) (b : Nat) : Bool :=
  let c := s.ctx b
  let n := ((s.blocking b).map (fun k => k.template.length)).getD 0
  s.boltsServed && decide (c.steps.length ≤ 1) && c.drain.isNone
  && (c.mode == .ready || c.mode == .running) && s.atHome b
  && (match s.bolt? b with
      | some r => (freeSlots s b r.cueCount r.cueBase n).length == n
      | none => false)

/-- Is no context loaded on the bolt? (09 R305 NO_CTX) -/
def State.noCtx (s : State) (b : Nat) : Bool := !s.loaded b

/-- Can the call start now? A BARRIER waits for every call before it; a STEP starts by being admitted or refused. -/
def State.canStart (s : State) (b q : Nat) (c : FetchedCall) : Bool :=
  match callOp c.words with
  | 0x0A => !(s.queue q).calls.any (fun x => x.started)
  | 1 =>
    (match c.awaits with
     | some a => s.admissible b && (s.ctx b).saveAt == a
     | none => s.noCtx b || (s.ctx b).refuseNext || s.admissible b)
  | _ => true

/-- The call of a queue that can start now. -/
def State.ready (s : State) (b q : Nat) : Option FetchedCall :=
  match firstIdle (s.queue q).calls with
  | some c => if s.canStart b q c then some c else none
  | none => none

/-- Queues of a bolt whose next call can start, with its class. -/
def State.readyQueues (s : State) (b : Nat) : List (Nat × Nat) :=
  s.queues.filterMap (fun e =>
    if s.queueBolt e.1 = some b then (s.ready b e.1).map (fun c => (e.1, callClass c.words)) else none)

/-- How far a queue number stands after the bolt's round-robin position. -/
def rrDist (pos q : Nat) : Nat := (q + 8192 - pos) % 8192

/-- Does firmware start queue `q` next? The lowest class first, ties by queue number in turn (09 R300). -/
def State.chosen (s : State) (b q cls : Nat) : Bool :=
  let pos := mget 0 s.queueRr b
  (s.readyQueues b).all (fun e =>
    decide (cls < e.2) || (decide (cls = e.2) && decide (rrDist pos q ≤ rrDist pos e.1)))

/-- The call with opcode `op` that queue `q` starts now: the device is live, the stagehand `core` serves, and the call is
chosen. Answers the bolt and the call. -/
def State.take (s : State) (q : Queue) (op core : Nat) : Option (Nat × FetchedCall) :=
  if !s.live || !s.serving core then none
  else match s.queueBolt q.val with
    | none => none
    | some b =>
      match s.ready b q.val with
      | none => none
      | some c => if callOp c.words = op ∧ s.chosen b q.val (callClass c.words) then some (b, c) else none

/-- Advances the round-robin position of a bolt past a queue (09 R300). -/
def State.turn (s : State) (b q : Nat) : State := { s with queueRr := mset 0 s.queueRr b ((q + 1) % 8192) }

/-- Marks a call of a queue started. -/
def State.markStarted (s : State) (q index : Nat) (wait : Bool) (due : Option Nat) : State :=
  let u := s.queue q
  s.setQueue q { u with calls := u.calls.map (fun c =>
    if c.index = index then { c with started := true, waiting := wait, due := due } else c) }

/-! ### Calls that complete at once -/

/-- NOP (R304): completes at once. -/
def execNop (q : Queue) (s : State) : Host.Outcome State Fault Refusal :=
  .next (match s.take q 0 0 with
    | none => s
    | some (b, c) => (s.turn b q.val).complete q.val c (Completion.plain 0))

/-- SIGNAL (R308): signals the call's fence. -/
def execSignal (q : Queue) (s : State) : Host.Outcome State Fault Refusal :=
  .next (match s.take q 6 1 with
    | none => s
    | some (b, c) => (s.turn b q.val).complete q.val c (Completion.plain 0))

/-- BARRIER (R304): completes when every earlier call of the queue has completed. -/
def execBarrier (q : Queue) (s : State) : Host.Outcome State Fault Refusal :=
  .next (match s.take q 0x0A 0 with
    | none => s
    | some (b, c) => (s.turn b q.val).complete q.val c (Completion.plain 0))

/-- WAIT (R309): completes when its fence is satisfied or abandoned; otherwise it waits, with its timeout. -/
def execWait (q : Queue) (s : State) : Host.Outcome State Fault Refusal :=
  .next (match s.take q 7 1 with
    | none => s
    | some (b, c) =>
      let s := s.turn b q.val
      match waitStatus (s.fence (waitFence c.words)) (waitValue c.words) with
      | some st => s.complete q.val c (Completion.plain st)
      | none =>
        let t := callBits c.words 0x30 31 0
        s.markStarted q.val c.index true (if t = 0 then none else some (s.now + 1000 * t)))

/-- WAIT_TIMEOUT (R309): a waiting WAIT whose timeout has passed completes TIMEOUT. -/
def execWaitTimeout (q : Queue) (s : State) : Host.Outcome State Fault Refusal :=
  .next (
    if !s.live || !s.serving 1 then s
    else match (s.queue q.val).calls.find? (fun c => c.waiting) with
      | some c =>
        (match c.due with
         | some t => if t ≤ s.now then s.complete q.val c (Completion.plain 0x0C) else s
         | none => s)
      | none => s)

/-- CUE_ARM (R194): arms the slot with the call's record, or completes with STATUS CUE and the code in CSTAT. -/
def execCueArm (q : Queue) (s : State) : Host.Outcome State Fault Refusal :=
  .next (match s.take q 8 1 with
    | none => s
    | some (b, c) =>
      let s := s.turn b q.val
      let rel := callBits c.words 0x18 15 0
      let r := CueRec.ofNat (c.words.toNat / 2 ^ 256)
      match s.bolt? b with
      | none => s
      | some x =>
        let st := if rel < x.cueCount then s.armStatus b (x.cueBase + rel) r none else 1
        if st = 0 then (s.armSlot (x.cueBase + rel) r none).complete q.val c (Completion.plain 0)
        else s.complete q.val c { Completion.plain 0x0F with cstat := st })

/-- CUE_CANCEL (R195): disarms a slot; AUX bit 0 says whether the next occurrence fired. -/
def execCueCancel (q : Queue) (s : State) : Host.Outcome State Fault Refusal :=
  .next (match s.take q 9 1 with
    | none => s
    | some (b, c) =>
      let s := s.turn b q.val
      match s.bolt? b with
      | none => s
      | some x =>
        let r := s.cancelCue (x.cueBase + callBits c.words 0x18 15 0)
        r.1.complete q.val c { Completion.plain 0 with aux := b2n r.2 })

/-! ### Steps (06 R202 to R207) -/

/-- The guarantee status of a step at admission: 0 with guarantee (06 R203). `others` says whether ALIGN_OK is 1 on every other
module of the bolt's binding. -/
def State.guarStatus (s : State) (b cls : Nat) (others : Bool) : Nat :=
  let k := s.blocking b
  match s.loom.live.bolt? b with
  | none => 1
  | some r =>
    if !bit r.guarClasses.toNat cls then 1
    else if s.guarFloor b < (k.map (fun x => x.floor)).getD 0 then 2
    else if s.spans b && !(s.stu.alignOk && others) then 3
    else if (s.ctx b).steps.any (fun x => !x.guar || x.voided) then 4
    else 0

/-- Admits a STEP: reserves the lowest free slots, sets S and D, or D_bound behind a step ahead, writes the completion with
ADMIT, and starts the step when none is ahead (06 R202, 09 R303, R307). Whether ALIGN_OK is 1 on the other modules of a binding
is a free value: the spec gives no message that tells it (log 107). -/
def State.admitStep (s : State) (b q : Nat) (c : FetchedCall) : State :=
  match s.blocking b, s.bolt? b with
  | some k, some x =>
    let d := s.draw
    let g := s.guarStatus b (callClass c.words) (Config.freeBit d.2 0)
    let s := d.1
    let sq := (s.ctx b).stepSeq
    let slots := freeSlots s b x.cueCount x.cueBase k.template.length
    let ahead := (s.ctx b).steps.getLast?
    let bound := match ahead with
      | some p => p.deadline + k.lead + k.wcs
      | none => 0
    let r : StepRec := {
      seq := sq, queue := q, index := c.index, call := c.words, cls := callClass c.words, admitted := s.now,
      start := none, deadline := bound, bound := if ahead.isSome then (packTime bound).toNat else 0,
      lead := k.lead, wcs := k.wcs, guar := g == 0, noguar := g, voided := false, missed := false,
      scene := BitVec.ofNat 32 (callScene c.words), serving := callBits c.words 0x20 0 0 == 1, ended := false, endAt := 0, held := false }
    let s := s.updCtx b (fun y => { y with
      steps := y.steps ++ [r], stepSeq := sq + 1, reserved := y.reserved ++ slots.map (fun n => (sq, n)) })
    let s := s.markStarted q c.index false none
    if ahead.isSome then
      let s := s.voidForScene b (fun x => x.seq == sq)
      s.writeCompletion q c.index ((s.stepOfSeq b r).completion false 0 0 s.now)
    else s.startNext b 1
  | _, _ => s

/-- Refuses the next step of a bolt whose context has no blocking for its tile count: LOM_BLOCKING and status BLOCKING
(08 R281). -/
def State.refuseStep (s : State) (b q : Nat) (c : FetchedCall) : State := (s.complete q c (Completion.plain 9)).raiseBlocking b

/-- What a STEP call comes to: NO_CTX, BLOCKING, or admission. -/
def State.runStep (s : State) (b q : Nat) (c : FetchedCall) : State :=
  let s := s.turn b q
  if s.noCtx b then s.complete q c (Completion.plain 6)
  else if (s.ctx b).refuseNext then s.refuseStep b q c
  else s.admitStep b q c

/-- STEP (R304): asks to run one step of the loaded production; without a context it completes NO_CTX; otherwise it is
admitted once R202 allows. -/
def execStep (q : Queue) (s : State) : Host.Outcome State Fault Refusal :=
  .next (match s.take q 1 1 with
    | none => s
    | some (b, c) => s.runStep b q.val c)

/-- STEP_ADMISSION (R202): firmware admits the queued STEP once its conditions hold. On another module of the bolt's binding the
start arrives from the home module, which has admitted the step (R204). -/
def execStepAdmission (at_ : AdmitAt) (s : State) : Host.Outcome State Fault Refusal :=
  .next (match at_ with
    | .queue q =>
      (match s.take q 1 1 with
       | none => s
       | some (b, c) => if s.admissible b ∧ !(s.ctx b).refuseNext then (s.turn b q.val).admitStep b q.val c else s)
    | .fromHome b start => if s.live ∧ s.serving 1 then s.farStart b.val start else s)

/-- Raises GUARANTEE_MISSED for the oldest step (06 R207); a guaranteed step behind it that is not void becomes void for
cause 0xC (06 R206). -/
def State.missStep (s : State) (b : Nat) (r : StepRec) : State :=
  let s := s.updCtx b (fun c => { c with
    steps := c.steps.map (fun x => if x.seq = r.seq then { x with missed := true } else x) })
  let s := s.report unitStu 0x0A9 0 (some b) (b + 2 ^ 8 * r.cls + 2 ^ 16 * b2n r.voided) (timeLo r.deadline)
    (timeLo (r.start.getD 0))
  let s := ((s.orReg (blt b 0x928) 2).bump (blt b 0x938) 1).guarEvent b
  s.voidWhere b 0xC unitStu (fun x => decide (r.seq < x.seq) && !x.voided)

/-- Has the oldest step of a bolt passed its deadline, guaranteed and not yet reported missed? -/
def StepRec.overdue (r : StepRec) (now : Nat) : Bool := r.guar && r.start.isSome && !r.missed && decide (r.deadline < now)

/-- GUARANTEE_MISSED (R207): stage time has passed D of the oldest undelivered step. -/
def execGuaranteeMissed (b : Bolt) (s : State) : Host.Outcome State Fault Refusal :=
  .next (
    if !s.live then s
    else match (s.ctx b.val).steps with
      | r :: _ => if r.overdue s.now then s.missStep b.val r else s
      | [] => s)

/-- The tiles of a draining bolt have stopped at a bow point: the context leaves, and a pending move of tiles follows. -/
def State.stopDrain (s : State) (b : Nat) (keep : Nat → Bool) : State :=
  (s.drainFinish b (fun t => s.localNo t) keep).boundary b

/-- Is a step's MSI-X message held, so that its completion does not yet deliver it (06 R201)? Before its completion the function
must hold the vector; after it the message is among those pending. -/
def State.messageHeld (s : State) (r : StepRec) : Bool :=
  let fn := s.boltFn ((s.queueBolt r.queue).getD 0)
  callIrq r.call && !s.inc.halted && s.pins.perst0N && s.fnOn fn
    && (if r.held then (s.fnSt fn).msixPend.contains (callVec r.call) else s.msixHeld fn (callVec r.call))

/-- Delivers the oldest step of a bolt and starts the next (06 R201, R202): a miss not yet reported is reported first; a
missed step's delivery time goes to GUAR_LAST_DELIV. A step whose message the function holds completes, and is delivered once
the message is sent. A drain that stopped the tiles at this step's STEPEND then ends (09 R316). -/
def State.deliver (s : State) (b : Nat) (r : StepRec) : State :=
  let s := if r.overdue s.now then s.missStep b r else s
  match (s.ctx b).steps with
  | x :: _ =>
    if s.messageHeld x then (if x.held then s else s.holdStep b x)
    else
    let s := if x.missed then s.setReg64 (blt b 0x948) s.time.toNat else s
    let s := s.endStep b x 0 0
    match (s.ctx b).drain with
    | some d => if d.stopped then s.stopDrain b (fun _ => false) else s
    | none =>
      let s := s.startNext b 2
      if (s.ctx b).steps.isEmpty ∧ (s.ctx b).mode = .running then s.setCtxMode b .ready else s
  | [] => s

/-- STEP_DELIVERY (R201): the oldest step, passed by every tile's STEPEND and with its post-step update done, is delivered,
and the step behind it starts. -/
def execStepDelivery (b : Bolt) (s : State) : Host.Outcome State Fault Refusal :=
  .next (
    if !s.live || !s.serving 1 then s
    else match (s.ctx b.val).steps with
      | r :: _ =>
        if r.ended && (!r.serving || (mget Serve.reset s.serve b.val).items.isNone) then s.deliver b.val r else s
      | [] => s)

end Sys2Proof.Machine
end

