-- ==== Sys2Proof/Machine/SessOps.lean ====
section
/-! DEFINITION. The set-up of Creust sessions (07_creust_fabric.md R240, R241). -/

namespace Sys2Proof.Machine

/-! ### Failures -/

/-- Takes a context out of its slot when its load fails: its call completes with a status (09 R305, R241). `cause` goes into SESS
CLOSE. -/
def State.loadFail (s : State) (b st cause : Nat) : State :=
  let c := s.ctx b
  if c.mode ≠ .loading then s
  else
    let s := match c.loadQ with
      | some q => (match (s.queue q.1).calls.find? (fun (x : FetchedCall) => x.index == q.2) with
          | some x => s.complete q.1 x (Completion.plain st)
          | none => s)
      | none => s
    s.ctxLeave b cause

/-- A session of a binding fails to open (R241): CR_SESS_FAIL against the bolt, whose load fails, and whose peers are told (R252).
Cause 0 signature, 1 CONFIRM, 2 timeout, 3 table full. -/
def State.sessFail (s : State) (p peer b cause : Nat) : State :=
  (s.loadFail b 0x13 (3 * 4096 + 0x0CB)).raise (unitPort p) 0x0CB 3 (some b) peer cause b

/-- Messages of set-up from a module for a bolt are forgotten. -/
def State.dropMessages (s : State) (peer b : Nat) : State :=
  { s with sessIn := s.sessIn.filter (fun m => !(m.src == peer && m.bolt == b)) }

/-- A session that fails in set-up is closed, and its load fails (R241). -/
def State.setupFail (s : State) (p k cause : Nat) : State :=
  match s.sessAt k with
  | none => s
  | some x => ((s.dropSess k).dropMessages x.peer x.bolt).sessFail p x.peer x.bolt cause

/-! ### Sessions -/

/-- The lowest free session index from `k` on; `n` bounds the search. -/
def State.freeSess (s : State) : Nat → Nat → Option Nat
  | 0, _ => none
  | n + 1, k => if 16384 ≤ k then none else if (s.sessAt k).isNone then some k else s.freeSess n (k + 1)

/-- Is a bolt's binding sealed? (R240) -/
def State.linkSealed (s : State) (b : Nat) : Bool := ((s.loom.live.bolt? b).map (fun r => r.linkSeal)).getD false

/-- The first port toward a module, for reports. -/
def State.routePort (s : State) (m : Nat) : Nat := ((s.loom.live.candidates m).head?.map (fun x => x.1)).getD 0

/-- Peers of a bolt's binding. -/
def State.peersOf (s : State) (b : Nat) : List Nat :=
  ((s.loom.live.bindings.filter (fun k => k.bolt == b)).map (fun k => k.peer)).eraseDups

/-- Our session with a peer for a bolt, in any phase but closed. -/
def State.setupSess (s : State) (peer b : Nat) : Option (Nat × Sess) :=
  s.sess.findSome? (fun e => match e.2 with
    | some x => if x.peer == peer && x.bolt == b && x.phase != .closed then some (e.1, x) else none
    | none => none)

/-- Changes a session. -/
def State.updSess (s : State) (k : Nat) (f : Sess → Sess) : State :=
  match s.sessAt k with
  | none => s
  | some x => s.setSess k (some (f x))

/-! ### Messages -/

/-- The encapsulation key of a job, by SEC's draw. -/
def jobKey (d : Nat) : List Byte := (List.range kemBytes).map (fun i => Config.kemKey d i)

/-- Our OFFER of a session: in a sealed binding with the job's key, signed once per job by the identity key (R241). The capacity record
holds HBM3E bytes, the end of the decoded CXL ranges and the dark map (05 R148). -/
def State.offerOf (s : State) (k b : Nat) (sealed : Bool) : List Byte :=
  let cxl := s.loom.live.decs.foldl (fun n d => max n (d.base + d.size)) 0
  let dark := s.fw.dark.foldl (fun n t => n + 2 ^ t) 0
  let key := if sealed then jobKey ((s.ctx b).kemKey.getD 0) else []
  let msg := offerSigned key b s.loom.live.num.toNat s.modNum
  offerBytes key k hbmBytes cxl dark (if sealed then (List.range offerSigLen).map (fun i => Config.signature msg i) else [])

/-- SESS_RSP with a status to a message of set-up: clear and outside the SEQ of the session, as OFFER and ENCAPS are (DESIGN CHOICE,
log 118). SKI is the peer's index, 0 while it is not known. -/
def State.setupRsp (s : State) (h : PktHdr) (ski status : Nat) : State :=
  match s.egressPort (some (h.bolt.toNat, h.scene)) h.src.toNat with
  | none => s
  | some (p, dl) =>
    let g : PktHdr := {
      kind := 0x31, tc := h.tc, scene := h.scene, bolt := h.bolt, src := BitVec.ofNat 12 s.modNum, vs := dl, sp := false,
      dst := h.src, ski := BitVec.ofNat 14 ski, sealed := false, rsv1 := 0, seq := 0, addr := 0, len := 0, rsv2 := 0, tag := h.tag,
      opx := BitVec.ofNat 8 status, aux := 0 }
    s.sendPkt p ⟨g, [], none, [], pktVl 0x31 dl, none, none⟩

/-- The messages of a sealed session's set-up in the order that both ends hash: OFFERs, then ENCAPSs, the lower-numbered module's
first (R241; DESIGN CHOICE, log 118). -/
def Sess.messages (x : Sess) (me : Nat) : List Byte :=
  if me < x.peer then x.offerOut ++ x.offerIn ++ x.encapsOut ++ x.encapsIn
  else x.offerIn ++ x.offerOut ++ x.encapsIn ++ x.encapsOut

/-- The keys of both directions, once both secrets are there (R241 step 4). -/
def Sess.derive (x : Sess) (me : Nat) : Sess :=
  let lo := decide (me < x.peer)
  let ssLo := if lo then x.secretIn else x.secretOut
  let ssHi := if lo then x.secretOut else x.secretIn
  let m := x.messages me
  { x with txKey := dirKey ssLo ssHi m lo, rxKey := dirKey ssLo ssHi m (!lo) }

/-- CONFIRM, the first packet of the session's own SEQ (R241 step 5). Its data are zeros: the spec gives none. -/
def State.sendConfirm (s : State) (k : Nat) : State := (s.updSess k (fun x => { x with phase := .confirmSent })).sendSess k 3 false (leBytes 64 0)

/-- A whole OFFER is taken (R241 step 3): verified, and answered with ENCAPS, or on a clear binding with CONFIRM. -/
def State.takeOffer (s : State) (k : Nat) (x : Sess) (data : List Byte) (sigOk : Bool) : State :=
  if x.sealed && !sigOk then s.setupFail (s.routePort x.peer) k 0
  else
    let n := if x.sealed then kemBytes else 0
    let w := fun (off m : Nat) => leNat ((data.drop (n + off)).take m)
    let caps : Sess := { x with
      peerSki := w 0 2 % 2 ^ 14, capHbm := w 2 8, capCxl := w 10 8
      capDark := (List.range 256).filter (fun t => bit (w 18 32) t)
      offerIn := data.take (n + 50 + (if x.sealed then offerSigLen else 0)) }
    if x.sealed then
      let d := s.draw
      let key := data.take kemBytes
      let ct := (List.range kemBytes).map (fun i => Config.kemCipher key d.2 i)
      (d.1.setSess k (some { caps with phase := .encapsSent, encapsOut := ct, secretOut := Config.kemSecret key d.2 })).sendSess k 2 true ct
    else (s.setSess k (some caps)).sendConfirm k

/-- A whole ENCAPS is taken (R241 steps 4 and 5): SEC decapsulates it, the keys of both directions are derived, and a sealed CONFIRM goes
out. -/
def State.takeEncaps (s : State) (k : Nat) (x : Sess) (data : List Byte) : State :=
  let ct := data.take kemBytes
  let y : Sess := { x with encapsIn := ct, secretIn := Config.kemOpen ((s.ctx x.bolt).kemKey.getD 0) ct }
  (s.setSess k (some (y.derive s.modNum))).sendConfirm k

/-- The first whole message of set-up from a module for a bolt with an OPX, taken out of those kept. -/
def State.popMsg (s : State) (peer b opx : Nat) : Option (State × SessMsg) :=
  (s.sessIn.find? (fun m => m.src == peer && m.bolt == b && m.opx == opx && m.whole.isSome)).map
    (fun m => ({ s with sessIn := s.sessIn.erase m }, m))

/-- Takes the messages of set-up that have come for a session, as far as its phase allows. -/
def State.runSetup (s : State) (peer b : Nat) : State :=
  let s := match s.setupSess peer b with
    | some (k, x) =>
      if x.phase = SessPhase.offerSent then
        (match s.popMsg peer b 1 with
         | some (s, m) => s.takeOffer k x m.data (m.whole.getD false)
         | none => s)
      else s
    | none => s
  match s.setupSess peer b with
  | some (k, x) =>
    if x.phase = SessPhase.encapsSent then
      (match s.popMsg peer b 2 with
       | some (s, m) => s.takeEncaps k x m.data
       | none => s)
    else s
  | none => s

/-- A fragment of a message of set-up: AUX gives its number and their count (R227). Number 0 begins a message; another one out of its
turn is dropped. -/
def State.keepFragment (s : State) (h : PktHdr) (data : List Byte) (sigOk : Bool) : State :=
  let mine := fun (m : SessMsg) => m.src == h.src.toNat && m.bolt == h.bolt.toNat && m.opx == h.opx.toNat && m.whole.isNone
  let i := bits h.aux.toNat 7 0
  let fresh : SessMsg := ⟨h.src.toNat, h.bolt.toNat, h.opx.toNat, 0, [], none⟩
  let m : SessMsg := if i = 0 then fresh else (s.sessIn.find? mine).getD fresh
  let n := bits h.aux.toNat 15 8
  if i ≠ m.next then s
  else { s with sessIn := s.sessIn.filter (fun x => !mine x)
          ++ [{ m with next := i + 1, data := m.data ++ data, whole := if n ≤ i + 1 then some sigOk else none }] }

/-- Begins the session of a binding with one peer: an OFFER goes out, and what the peer has sent already is taken (R241). A full table
fails the load. -/
def State.beginSess (s : State) (b peer : Nat) : State :=
  if (s.ctx b).mode ≠ .loading then s
  else match s.freeSess 16385 0 with
    | none => s.sessFail (s.routePort peer) peer b 3
    | some k =>
      let sealed := s.linkSealed b
      let offer := s.offerOf k b sealed
      let s := s.setSess k (some {
        phase := .offerSent, peer := peer, bolt := b, sealed := sealed, peerSki := 0, capHbm := 0, capCxl := 0,
        capDark := [], txSeq := 0, rx := [], openedAt := s.now, bulkOwed := [], bulkSeq := [], txKey := ⟨0, 0⟩, rxKey := ⟨0, 0⟩,
        offerOut := offer, offerIn := [], encapsOut := [], encapsIn := [], secretOut := 0, secretIn := 0, held := [] })
      let s := s.updCtx b (fun c => { c with opening := c.opening ++ [k] })
      (s.sendSess k 1 true offer).runSetup peer b

end Sys2Proof.Machine
end

