-- ==== Sys2Proof/Machine/Context.lean ====
section
/-! DEFINITION. Context loads and unloads, copies and fills (09_host_objects.md R304, R305, R307, R316; 03 R103, R501;
07 R241; 12 R380). -/

namespace Sys2Proof.Machine

/-! ### The production image (R307) -/

/-- A number of `n` bytes in a list. -/
def numAt (l : List Byte) (off n : Nat) : Nat := leNat ((l.drop off).take n)

/-- A directory entry of a production image. -/
structure BlkEnt where
  tiles : Nat
  floor : Nat
  lead : Nat
  wcs : Nat
  streams : Nat
  template : Nat
  cues : Nat
  rsv : Nat

/-- The entry at an offset of the directory. -/
def blkEnt (l : List Byte) (off : Nat) : BlkEnt where
  tiles := numAt l off 2
  floor := numAt l (off + 2) 2
  lead := numAt l (off + 4) 4
  wcs := numAt l (off + 8) 8
  streams := numAt l (off + 0x10) 4
  template := numAt l (off + 0x14) 4
  cues := numAt l (off + 0x18) 2
  rsv := numAt l (off + 0x1A) 6

/-- Blockings and length of an image. -/
def prodBlks (h : List Byte) : Nat := bits (numAt h 4 4) 19 16
def prodLen (h : List Byte) : Nat := numAt h 8 4

/-- Does the header break its layout? -/
def prodHeadBad (h : List Byte) : Bool :=
  numAt h 0 4 != 0x444F5250 || numAt h 4 2 != 1 || bits (numAt h 4 4) 31 20 != 0
  || prodBlks h == 0 || decide (8 < prodBlks h) || numAt h 0x0C 0x34 != 0
  || decide (prodLen h < 64 + 32 * prodBlks h)

/-- Does the directory of an image at `uva` break its layout, or place its cue records off 32 bytes (00 R11)? -/
def prodDirBad (uva len : Nat) (l : List BlkEnt) : Bool :=
  l.any (fun e => decide (e.lead < 4000) || e.rsv != 0 || decide (len < e.streams + 8 * e.tiles)
    || decide (len < e.template + 32 * e.cues) || (e.cues != 0 && (uva + e.template) % 32 != 0))
  || (l.map (fun e => e.tiles)).eraseDups.length != l.length

/-- Entries of a stream table: offset and bundle count, with what must be 0. -/
def streamEnts (t : List Byte) (n : Nat) : List (Nat × Nat × Nat) :=
  (List.range n).map (fun k =>
    let w := numAt t (8 * k) 8
    (bits w 31 0, bits w 45 32, bits w 63 46))

/-- Does a stream-table entry of an image at `uva` break its layout, or place its bundles off 16 bytes (00 R11)? -/
def streamBad (uva len : Nat) (e : Nat × Nat × Nat) : Bool :=
  e.1 % 16 != 0 || (uva + e.1) % 16 != 0 || e.2.1 == 0 || decide (8192 < e.2.1) || e.2.2 != 0 || decide (len < e.1 + 16 * e.2.1)

/-- Template cues. -/
def templateOf (t : List Byte) (n : Nat) : List CueRec := (List.range n).map (fun k => CueRec.ofNat (numAt t (32 * k) 32))

/-- May a template not hold this record? -/
def templateBad (r : CueRec) : Bool := r.bolt != 0 || r.kind == 5 || r.action == 6

/-- Bundles of a stream. -/
def bundlesOf (l : List Byte) : List (BitVec 128) := (List.range (l.length / 16)).map (fun k => BitVec.ofNat 128 (numAt l (16 * k) 16))

/-- Deals streams out to the blockings of a directory. -/
def dealBlks : List BlkEnt → List (List CueRec) → List (List (BitVec 128)) → List Blocking
  | e :: es, t :: ts, l => ⟨e.tiles, e.floor, e.lead, e.wcs, l.take e.tiles, t⟩ :: dealBlks es ts (l.drop e.tiles)
  | _, _, _ => []

/-- Every second element, from the first on; and from the second on. -/
def evens {α : Type} : List α → List α
  | a :: _ :: r => a :: evens r
  | l => l
def odds {α : Type} : List α → List α
  | _ :: b :: r => b :: odds r
  | _ => []

/-- Reads a production image through the bolt's page table: its blockings and its hash (12 R408), or `none` when it breaks
R307 or cannot be read. -/
def State.readProd (s : State) (b uva : Nat) : State × Got (Option (List Blocking × BitVec 256)) :=
  let fail := fun {α : Type} (x : State × Got α) => match x.2 with
    | .wait => (x.1, (Got.wait : Got (Option (List Blocking × BitVec 256))))
    | .ue va fa => (x.1, .ue va fa)
    | .walkUe va fa lv => (x.1, .walkUe va fa lv)
    | _ => (x.1, .ok none)
  let h := s.fwGather .op b 2 uva 64
  match h.2 with
  | .ok head =>
    if prodHeadBad head then (h.1, .ok none)
    else
      let d := h.1.fwGather .op b 2 (uva + 64) (32 * prodBlks head)
      (match d.2 with
       | .ok dir =>
         let es := (List.range (prodBlks head)).map (fun k => blkEnt dir (32 * k))
         if prodDirBad uva (prodLen head) es then (d.1, .ok none)
         else
           let t := d.1.fwRanges b (es.flatMap (fun e => [(uva + e.streams, 8 * e.tiles), (uva + e.template, 32 * e.cues)]))
           (match t.2 with
            | .ok tabs =>
              let ents := (es.zip (evens tabs)).flatMap (fun x => streamEnts x.2 x.1.tiles)
              let tmpl := (es.zip (odds tabs)).map (fun x => templateOf x.2 x.1.cues)
              if ents.any (streamBad uva (prodLen head)) || tmpl.any (fun l => l.any templateBad) then (t.1, .ok none)
              else
                let r := t.1.fwRanges b (ents.map (fun e => (uva + e.1, 16 * e.2.1)))
                (match r.2 with
                 | .ok l =>
                   let g := r.1.fwGather .op b (pagesIn (prodLen head)) uva (prodLen head)
                   (match g.2 with
                    | .ok all => (g.1, .ok (some (dealBlks es tmpl (l.map bundlesOf), sha256 all)))
                    | _ => fail g)
                 | _ => fail r)
            | _ => fail t)
       | _ => fail d)
  | _ => fail h

/-! ### Loading (R307) -/

/-- Keys the bolt's regions that have no key: a veiled one is READY, a sealed one INIT (12 R380). -/
def State.keyRegions (s : State) (b : Nat) : State :=
  s.loom.live.regions.zipIdx.foldl (fun s x =>
    if x.1.bolt = b ∧ (s.regRun x.2).st = .keyless then
      let k := s.newKey
      (k.1.setRegRun x.2 { RegRun.reset with st := (if x.1.mode = .sealed then .init else .ready), key := some k.2, tree := some k.2 }).forgetRegion x.1
    else s) s

/-- Clears the counters of a bolt window, CUE_LATE_MAX and SRV_STEP with them (R307). -/
def State.clearWindow (s : State) (b : Nat) : State :=
  let s := { s with ctrs := s.ctrs.filter (fun e => !decide (blt b 0 ≤ e.1 ∧ e.1 < blt b 0x4000)) }
  (s.setReg (blt b 0x918) 0).setReg (blt b 0xB28) 0

/-- A tile after a context load: R501. -/
def Tile.load (t : Tile) (stream : List (BitVec 128)) (epoch : Nat) : Tile :=
  { Tile.reset with
    imem := imemOf stream, streamLen := stream.length, hold := t.hold, holdSince := t.holdSince, gated := t.gated,
    spool := Mem.empty.forget 0 spoolBytes epoch, acc := Mem.empty.forget 0 (2 ^ 20) (epoch + 1) }

/-- Loads every tile of a bolt with its stream of a blocking. -/
def State.loadTiles (s : State) (b : Nat) (k : Blocking) : State :=
  (s.boltTiles b).foldl (fun s t =>
    let e := s.freeCtr
    let s := { s with freeCtr := s.freeCtr + 2 }
    s.updTile t (fun x => x.load ((k.streams[s.localNo t]?).getD []) e)) s

/-- Rounds of the bolt's reduction groups start again at 0 (04 R127); the failed state is left by a reset alone (R132). -/
def State.restartRounds (s : State) (b : Nat) : State :=
  { s with redRun := s.redRun.filterMap (fun e =>
      if s.loom.live.red.any (fun g => g.group == e.1 && g.bolt == b) then
        (if e.2.failed then some (e.1, { RedRun.reset with failed := true }) else none)
      else some e) }

/-- Is the save area bad? (R305) -/
def State.areaBad (s : State) (b at_ len n : Nat) : State × Got Bool :=
  if at_ % 4096 ≠ 0 ∨ len < n * fullImage then (s, .ok true)
  else
    let r := s.allHbm b (pagesIn len) at_ len
    (r.1, match r.2 with
      | .ok v => .ok !v
      | g => g)

/-- The context is loading: its tiles loaded, its sessions being opened (R307 steps 1 to 5); a sealed binding makes the job's
key pair (07 R241). -/
def State.ctxBegin (s : State) (b q : Nat) (c : FetchedCall) (blks : List Blocking) (hash : BitVec 256) (j : Nat)
    (k : Blocking) : State :=
  let w := c.words
  let d := s.draw
  let s := d.1
  let s := s.updCtx b (fun x => { x with
    blks := blks, blk := j, prod := hash,
    kem := if s.linkSealed b ∧ (s.peersOf b) ≠ [] then sha256 (jobKey d.2) else 0,
    kemKey := if s.linkSealed b ∧ (s.peersOf b) ≠ [] then some d.2 else none,
    saveAt := BitVec.ofNat 64 (callBits w 0x30 63 0), saveLen := BitVec.ofNat 64 (callBits w 0x38 63 0),
    loadQ := some (q, c.index), resume := callBits w 0x20 0 0 == 1, opening := [], local_ := [], refuseNext := false })
  let s := s.setCtxMode b .loading
  let s := (((s.clearWindow b).restartRounds b).resetShares b).loadTiles b k
  let s := s.markStarted q c.index false none
  (s.peersOf b).foldl (fun s p => s.beginSess b p) s

/-- The blocking for the bolt's tile count (R305, R307). No record of this module gives the whole count of a bolt that spans
modules: any blocking with room for this module's tiles may be the one. -/
def State.pickBlocking (s : State) (b : Nat) (l : List Blocking) : State × Option Nat :=
  let here := match s.bolt? b with
    | some r => r.tileBase + r.tiles
    | none => 0
  if s.spans b then
    let js := (l.zipIdx.filter (fun x => decide (here ≤ x.1.tiles))).map (fun x => x.2)
    let d := s.draw
    if js.isEmpty then (s, none) else (d.1, js[Config.freeNat d.2 % js.length]?)
  else (s, l.findIdx? (fun k => k.tiles == here))

/-- CTX_LOAD as its call runs (R305, R307). -/
def State.ctxLoad (s : State) (b q : Nat) (c : FetchedCall) : State :=
  let w := c.words
  let t := s.turn b q
  if (s.ctx b).mode ≠ .empty ∨ s.twinTarget b then t.complete q c (Completion.plain 7)
  else
    let s1 := t.keyRegions b
    let s1 := s1.updCtx b (fun x => { x with root := BitVec.ofNat 64 (s1.reg64 (blt b 0x800)), gen := x.gen + 1 })
    let r := s1.readProd b (callBits w 0x28 63 0)
    let refused := fun (f st : Nat) => ({ t.keyRegions b with freeCtr := f }.fwDone b).complete q c (Completion.plain st)
    let bad := fun {α : Type} (g : Got α) (f : Nat) =>
      g.raise ((({ t.keyRegions b with freeCtr := f }).fwDone b).markStarted q c.index false none) b
    match r.2 with
    | .wait => (t.keyRegions b).fwAwait r.1
    | .ue va fa => bad (Got.ue va fa : Got Unit) r.1.freeCtr
    | .walkUe va fa lv => bad (Got.walkUe va fa lv : Got Unit) r.1.freeCtr
    | .fault _ | .ok none => refused r.1.freeCtr 8
    | .ok (some (blks, hash)) =>
      let p := r.1.pickBlocking b blks
      match p.2 with
      | none => refused p.1.freeCtr 9
      | some j =>
        let a := p.1.areaBad b (callBits w 0x30 63 0) (callBits w 0x38 63 0) (((blks[j]?).map (fun k => k.tiles)).getD 0)
        match a.2, blks[j]? with
        | .wait, _ => (t.keyRegions b).fwAwait a.1
        | .walkUe va fa lv, _ => bad (Got.walkUe va fa lv : Got Unit) a.1.freeCtr
        | .ok false, some k => (a.1.fwDone b).ctxBegin b q c blks hash j k
        | .ok false, none => refused a.1.freeCtr 9
        | _, _ => refused a.1.freeCtr 0xA

/-- CTX_LOAD (R304, R307): starts a load; CONTEXT_READY or a failed session ends it. While a page or a key is awaited the
call does not start. -/
def execCtxLoad (q : Queue) (s : State) : Host.Outcome State Fault Refusal :=
  .next (match s.take q 2 2 with
    | none => s
    | some (b, c) => s.ctxLoad b q.val c)

/-! ### Ready (R307, 03 R103) -/

/-- A saved step as it goes on: S, D and its cues shift by the time stopped; it stays void. -/
def StepRec.shift (r : StepRec) (d : Nat) : StepRec :=
  { r with deadline := r.deadline + d }

/-- Re-arms the unfired occurrences of a stopped step in the lowest free slots, each shifted (R307). -/
def State.rearm (s : State) (b d sq : Nat) : List CueSlotSt → List Nat → State
  | c :: cs, k :: ks =>
    let c := { c with
      record := { c.record with fire := packTime (unpackTime c.record.fire + d) }, handed := false, lastAt := none, armedAt := s.now,
      stepSeq := some sq }
    (s.setCue k (some c)).rearm b d sq cs ks
  | _, _ => s

/-- Restores what a drain saved in the context's save area (R307; 03 R103; 10 R341). With nothing saved there the context
starts afresh. -/
def State.restore (s : State) (b : Nat) : State :=
  match (s.ctx b).saved.find? (fun v => v.area == (s.ctx b).saveAt) with
  | none => s
  | some v =>
    let s := (s.boltTiles b).foldl (fun s t =>
      match v.tiles.find? (fun x => x.1 == s.localNo t) with
      | some x => s.updTile t (fun o => { x.2 with
          imem := o.imem, streamLen := o.streamLen, hold := o.hold, holdSince := o.holdSince, gated := o.gated })
      | none => s) s
    let s := s.updCtx b (fun c => { c with saved := c.saved.filter (fun x => x.area != v.area) })
    let s := s.setServe b { s.serveOf b with items := v.items }
    match v.step, s.bolt? b with
    | some r, some x =>
      let s := s.updCtx b (fun c => { c with steps := [r.shift (s.now - v.at_)] })
      s.rearm b (s.now - v.at_) r.seq v.cues (freeSlots s b x.cueCount x.cueBase v.cues.length)
    | _, _ => s

/-- A loaded tile begins to issue; one saved after HALT stays halted. -/
def Tile.begin (t : Tile) : Tile := if t.run = .halted then t else { t with run := .running }

/-- Every session of a loading bolt has opened. -/
def State.sessionsOpen (s : State) (b : Nat) : Bool :=
  (s.ctx b).opening.all (fun k => match s.sessAt k with
    | some x => x.phase == .opened
    | none => false)

/-- A CTX_LOAD call completes, and its references pass to the context (R311). -/
def State.loadDone (s : State) (b q : Nat) (c : FetchedCall) : State :=
  let s := (s.takeRef (callObjA c.words)).takeRef (callObjB c.words)
  let s := s.updCtx b (fun x => { x with
    objA := BitVec.ofNat 32 (callObjA c.words), objB := BitVec.ofNat 32 (callObjB c.words) })
  s.complete q c (Completion.plain 0)

/-- The load is complete: the call completes, the tiles issue, and a stopped step goes on. -/
def State.ctxReady (s : State) (b : Nat) : State :=
  let c := s.ctx b
  let s := if c.resume then s.restore b else s
  let s := s.mapTiles (s.boltTiles b) Tile.begin
  let s := s.updCtx b (fun c => { c with loadQ := none, opening := [] })
  let s := (s.setCtxMode b (if (s.ctx b).steps.isEmpty then .ready else .running)).updateFloors
  match c.loadQ with
  | some q => (match (s.queue q.1).calls.find? (fun (x : FetchedCall) => x.index == q.2) with
      | some x => s.loadDone b q.1 x
      | none => s)
  | none => s

/-- CONTEXT_READY (R307): the load is done and every session of the binding is open. -/
def execContextReady (b : Bolt) (s : State) : Host.Outcome State Fault Refusal :=
  .next (
    if !s.live || !s.serving 2 || (s.ctx b.val).mode != .loading || !s.sessionsOpen b.val then s
    else s.ctxReady b.val)

/-- CTX_UNLOAD (R304, R315, R316): drains the bolt; it completes when the slot is EMPTY. -/
def execCtxUnload (q : Queue) (s : State) : Host.Outcome State Fault Refusal :=
  .next (match s.take q 3 2 with
    | none => s
    | some (b, c) =>
      let s := s.turn b q.val
      if s.noCtx b then s.complete q.val c (Completion.plain 6)
      else (s.markStarted q.val c.index false none).drainStart b (callBits c.words 0x20 0 0 == 1) [(q.val, c.index)] [])

/-! ### Copies and fills (R304, R305) -/

/-- A status word's completion with the UVA of a fault. -/
def xltCompletion (va pages : Nat) : Completion := { Completion.plain 0x0B with sVal := va, aux := pages }

/-- Does the range `[fa, fa + n)` meet one of a list? -/
def meets (fa n : Nat) (l : List (Nat × Nat)) : Bool := l.any (fun r => decide (fa < r.1 + r.2 ∧ r.1 < fa + n))

/-- Fabric ranges that a UVA range translates to; `n` bounds the pages. -/
def State.fwFabric (s : State) (b : Nat) (wr : Bool) : Nat → Nat → Nat → List (Nat × Nat)
  | 0, _, _ => []
  | n + 1, va, len =>
    if len = 0 then []
    else match (s.fwXlt b va wr).2 with
      | .leaf l =>
        let k := min len (l.va + pageBytes l.ps - va)
        (l.fa va, k) :: s.fwFabric b wr n (va + k) (len - k)
      | _ => []

/-- Writes a list of bytes to a UVA, page by page. Bytes that lie in the copy's own source are, each, the old or the new one
(03 R84). `pages` counts the pages of the destination completed. -/
def State.copyOut (s s0 : State) (b draw : Nat) (src : List (Nat × Nat)) : Nat → Nat → Nat → List Byte → Nat → State × Got Nat × Nat
  | 0, _, _, _, pages => (s, .ok pages, pages)
  | n + 1, va, pos, data, pages =>
    if data.isEmpty then (s, .ok pages, pages)
    else
      let x := s.fwXlt b va true
      match x.2 with
      | .leaf l =>
        let k := x.1.fwRun l va data.length
        let fa := l.fa va
        let new := data.take k
        let new := if s.near fa ∧ meets fa k src then mixBytes draw pos (s0.peek (faSpace fa) (faOff fa) k) new else new
        let d := x.1.fwStore .op b l va new
        (match d.2 with
         | none => (d.1, .wait, pages)
         | some st =>
           if st ≠ 0 then (d.1, gotOf va fa st, pages)
           else d.1.copyOut s0 b draw src n (va + k) (pos + k) (data.drop k) (pages + 1))
      | w => (x.1, w.got va, pages)

/-- The longest part from the start of a source that can be read, and what stopped it. -/
def State.copyIn (s : State) (b : Nat) : Nat → Nat → Nat → State × List Byte × Option (Got Nat)
  | 0, _, _ => (s, [], none)
  | n + 1, va, len =>
    if len = 0 then (s, [], none)
    else
      let x := s.fwXlt b va false
      match x.2 with
      | .leaf l =>
        let k := x.1.fwRun l va len
        let d := x.1.fwLoad .op b l va k
        (match d.2 with
         | none => (d.1, [], some .wait)
         | some (st, bytes) =>
           if st ≠ 0 then (d.1, [], some (gotOf va (l.fa va) st))
           else
             let r := d.1.copyIn b n (va + k) (len - k)
             (r.1, bytes ++ r.2.1, r.2.2))
      | w => (x.1, [], some (w.got va))

/-- How a copy or a fill ends: OK, XLT with the UVA and the pages written, or the reset of R170. While a page, a key or an access
outside the module is awaited nothing has happened yet here. -/
def State.copyEnd (s0 s : State) (b q : Nat) (c : FetchedCall) (g : Got Nat) (pages : Nat) : State :=
  match g with
  | .ok _ => ((s.turn b q).fwDone b).complete q c (Completion.plain 0)
  | .wait => s0.fwAwait s
  | .fault va => ((s.turn b q).fwDone b).complete q c (xltCompletion va pages)
  | g => g.raise (((s.turn b q).fwDone b).markStarted q c.index false none) b

/-- Whole pages of a destination that its first `n` bytes complete, of a transfer of `len` bytes. -/
def pagesWhole (va n len : Nat) : Nat := if n = len then (va % 4096 + n + 4095) / 4096 else (va % 4096 + n) / 4096

/-- A COPY in one step: pages are read and written in ascending order, and a fault leaves those before it written. -/
def State.copyCall (s : State) (b q : Nat) (c : FetchedCall) : State :=
  let from_ := callBits c.words 0x20 63 0
  let dst := callBits c.words 0x28 63 0
  let len := callBits c.words 0x30 63 0
  let i := s.copyIn b (pagesIn len) from_ len
  let d := i.1.draw
  let src := d.1.fwFabric b false (pagesIn len) from_ len
  let o := d.1.copyOut d.1 b d.2 src (pagesIn len) dst 0 i.2.1 0
  match o.2.1, i.2.2 with
  | .ok _, some g =>
    (match g with
     | .fault va => s.copyEnd o.1 b q c (.fault va) (pagesWhole dst i.2.1.length len)
     | g => s.copyEnd o.1 b q c g 0)
  | .fault va, _ => s.copyEnd o.1 b q c (.fault va) (pagesWhole dst (va - dst) len)
  | g, _ => s.copyEnd o.1 b q c g 0

/-- COPY (R304). -/
def execCopy (q : Queue) (s : State) : Host.Outcome State Fault Refusal :=
  .next (match s.take q 4 3 with
    | none => s
    | some (b, c) => s.copyCall b q.val c)

/-- The bytes of a fill. -/
def fillBytes (pat : Nat) (n : Nat) : List Byte := (List.range n).map (fun k => BitVec.ofNat 8 (pat / 2 ^ (8 * (k % 4))))

/-- A FILL in one step. -/
def State.fillCall (s : State) (b q : Nat) (c : FetchedCall) : State :=
  let dst := callBits c.words 0x28 63 0
  let len := callBits c.words 0x30 63 0
  let o := s.copyOut s b 0 [] (pagesIn len) dst 0 (fillBytes (callBits c.words 0x20 31 0) len) 0
  match o.2.1 with
  | .fault va => s.copyEnd o.1 b q c (.fault va) (pagesWhole dst (va - dst) len)
  | g => s.copyEnd o.1 b q c g 0

/-- FILL (R304). -/
def execFill (q : Queue) (s : State) : Host.Outcome State Fault Refusal :=
  .next (match s.take q 5 3 with
    | none => s
    | some (b, c) => s.fillCall b q.val c)

end Sys2Proof.Machine
end

