-- ==== Sys2Proof/Machine/XltInv.lean ====
section
/-! DEFINITION. The fault queue's responses and invalidation (05_memory_translation.md R158 to R167; 07 R236). -/

namespace Sys2Proof.Machine

/-! ### Fault-queue responses (R166) -/

/-- A tensor tile of a fault-queue entry, while it is held. -/
def State.heldAt (s : State) (e : FqEntry) : Option QDesc :=
  match s.tensorHead e.site e.stream with
  | some q => if q.phase = .held then some q else none
  | none => none

/-- RESUME: the tensor tile starts again from translation (R166). -/
def State.fqResume (s : State) (b : Nat) (e : FqEntry) : State :=
  let s := s.faultPop b
  match s.heldAt e with
  | some q => s.setTensor e.site e.stream { q with phase := .started, pins := [], data := [] }
  | none => s

/-- ABANDON: the fault becomes a tile fault (R166). -/
def State.fqAbandon (s : State) (b : Nat) (e : FqEntry) : State :=
  let s := s.faultPop b
  match s.heldAt e with
  | some q =>
    let code := match e.reason with
      | .unmapped | .malformed => 0x012
      | _ => 0x013
    s.tensorFail e.site e.stream q code e.addr.toNat (b2n e.dstSide)
  | none => s

/-- A write of XLT_FQ_RESP: only the PF's, with the head's SEQ; any other is dropped (R166). -/
def State.fqRespond (s : State) (fn : Fn) (b : Nat) (val : Word) (act : State → FqEntry → State) : State :=
  if !s.live then s
  else if fn ≠ 0 then s.setErr fn 0
  else match (s.faults b).entries with
    | [] => s.setErr fn 3
    | e :: _ => if bits val.toNat 31 16 = e.seq then act s e else s.setErr fn 3

/-- FQ_RESUME (R166): XLT_FQ_RESP written with the action RESUME; bits [31:16] of the value count. -/
def execFqResume (fn : Fn) (b : Bolt) (val : Word) (s : State) : Host.Outcome State Fault Refusal :=
  .next (s.fqRespond fn b.val val (fun s e => s.fqResume b.val e))

/-- FQ_ABANDON (R166): XLT_FQ_RESP written with the action ABANDON; bits [31:16] of the value count. -/
def execFqAbandon (fn : Fn) (b : Bolt) (val : Word) (s : State) : Host.Outcome State Fault Refusal :=
  .next (s.fqRespond fn b.val val (fun s e => s.fqAbandon b.val e))

/-! ### Removal (R161) -/

/-- What an invalidation removes: kind 1 a range of a bolt, 2 a bolt, 3 everything. -/
structure InvScope where
  kind : Nat
  bolt : Nat
  lo : Nat
  hi : Nat

/-- Does it remove an entry of a bolt that covers `[a, a + n)`? -/
def InvScope.hits (v : InvScope) (b a n : Nat) : Bool :=
  v.kind == 3 || (v.bolt == b && (v.kind == 2 || (decide (a < v.hi) && decide (v.lo < a + n))))

/-- Does it remove a leaf? -/
def InvScope.leaf (v : InvScope) (l : Leaf) : Bool := v.hits l.bolt l.va (pageBytes l.ps)

/-- Does it remove a walk-cache entry? -/
def InvScope.walk (v : InvScope) (e : WalkEntry) : Bool :=
  v.hits e.bolt (e.va * 2 ^ (12 + 9 * e.level)) (2 ^ (12 + 9 * e.level))

/-- Does it overlap a walk's range? The page that the walk leads to may be of 1 GiB. -/
def InvScope.overlaps (v : InvScope) (b : Nat) (w : Walk) : Bool := v.hits b (w.va / 2 ^ 30 * 2 ^ 30) (2 ^ 30)

/-- What it does to the head of a stream: a translating tensor tile drops the entries and the walk that overlap it, and
translates those pages again (03 R96); one that commits keeps its pins until its last byte, and none after (R161). -/
def InvScope.head (v : InvScope) (b : Nat) (q : QDesc) : QDesc :=
  match q.phase with
  | .translating w =>
    let keep := match w with
      | some x => if v.overlaps b x then none else some x
      | none => none
    { q with phase := .translating keep, pins := q.pins.filter (fun l => !v.leaf l) }
  | .committing => { q with pins := q.pins.map (fun l => if v.leaf l then { l with stale := true } else l) }
  | _ => q

/-- Removes what it covers from one tile: the micro-TLB and the heads of its streams. -/
def InvScope.tile (v : InvScope) (b : Nat) (t : Tile) : Tile :=
  { t with
    utlb := t.utlb.filter (fun l => !v.leaf l)
    streams := t.streams.map (fun e => (e.1, { e.2 with queue := match e.2.queue with
      | q :: r => v.head b q :: r
      | [] => [] })) }

/-- Tensor tiles that commit through an entry it removes (03 R96). -/
def State.invPins (s : State) (v : InvScope) : List (Nat × Nat) :=
  s.tiles.flatMap (fun e => e.2.streams.filterMap (fun k => match k.2.queue with
    | q :: _ => if q.phase == .committing && q.pins.any v.leaf then some (e.1, k.1) else none
    | [] => none))

/-- Removes every entry on this module. -/
def State.invRemove (s : State) (v : InvScope) : State :=
  { s with
    tiles := s.tiles.map (fun e => (e.1, match s.tileBolt e.1 with
      | some b => v.tile b e.2
      | none => e.2))
    pfWalks := s.pfWalks.filter (fun p => !v.overlaps p.bolt p.walk)
    tcache := [0, 1, 2, 3, 4].foldl (fun m u => mset [] m u ((mget [] m u).filter (fun l => !v.leaf l))) s.tcache
    wcache := [0, 1, 2, 3, 4].foldl (fun m u => mset [] m u ((mget [] m u).filter (fun e => !v.walk e))) s.wcache }

/-- Has every tensor tile that an invalidation waits for committed its last byte? -/
def State.invClear (s : State) (l : List (Nat × Nat)) : Bool :=
  l.all (fun p => match s.tensorHead p.1 p.2 with
    | some q => q.phase != .committing
    | none => true)

/-! ### Submission (R158, R159) -/

/-- Offset of word `w` of slot `n`, and of its status register (R158). -/
def invWord (n w : Nat) : Nat := 0x51000 + 32 * n + 4 * w
def invStat (n : Nat) : Nat := 0x50200 + 4 * n

/-- An invalidation descriptor as the slot's words give it. -/
def State.invDesc (s : State) (n : Nat) : InvActive :=
  let w0 := s.reg (invWord n 0)
  { kind := bits w0 3 0, bolt := bits w0 9 4, fen := bit w0 10, fence := bits (s.reg (invWord n 1)) 19 0,
    fval := BitVec.ofNat 64 (s.reg64 (invWord n 4)), start := s.reg64 (invWord n 2), pages := s.reg (invWord n 6),
    seq := bits (s.reg (invWord n 7)) 15 0, pins := [], unacked := [], at_ := s.now, reply := none }

/-- End of a RANGE. -/
def InvActive.stop (v : InvActive) : Nat := v.start + v.pages * 4096

/-- Is a descriptor rejected? (R159) -/
def State.invBad (s : State) (n : Nat) (v : InvActive) : Bool :=
  v.kind == 0 || decide (4 ≤ v.kind) || bits (s.reg (invWord n 0)) 31 11 != 0 || bits (s.reg (invWord n 1)) 31 20 != 0
  || bits (s.reg (invWord n 7)) 30 16 != 0 || (v.kind == 3 && v.bolt != 0)
  || (if v.kind = 1 then
        v.start % 4096 != 0 || v.pages == 0
        || !(decide (v.stop ≤ 2 ^ 56) || decide (2 ^ 64 - 2 ^ 56 ≤ v.start ∧ v.stop ≤ 2 ^ 64))
      else v.start != 0 || v.pages != 0)

/-- Bolts and peers that a shootdown goes to: each bound module once, with a bolt of its binding (R161). -/
def State.invPeers (s : State) (v : InvActive) : List (Nat × Nat) :=
  let l := if v.kind = 3 then s.loom.live.bindings else s.loom.live.bindings.filter (fun k => k.bolt == v.bolt)
  l.foldl (fun acc k => if acc.any (fun x => x.1 == k.peer) then acc else acc ++ [(k.peer, k.bolt)]) []

/-- Port toward a module, for the report when none is up: the route's first candidate. -/
def State.portToward (s : State) (b m : Nat) : Nat :=
  match s.egressPort (some (b, s.liveBit)) m with
  | some x => x.1
  | none => ((s.loom.live.candidates m).head?.map (fun x => x.1)).getD 0

/-- Where the outstanding SHOOT of a TAG to a module is kept: one invalidation sends one TAG to several modules. -/
def shootKey (m tag : Nat) : Nat := 2 ^ 16 * (m + 1) + tag

/-- Sends a shootdown, a request with its completion timer: TAG holds the slot in its low 6 bits and the low 10 bits of SEQ (07 R231,
R236). -/
def State.sendShoot (s : State) (n : Nat) (v : InvActive) (m b : Nat) : State :=
  match s.egressPort (some (b, s.liveBit)) m, s.sessFor m b with
  | some (p, dl), some (k, x) =>
    let tag := n + 64 * (v.seq % 1024)
    let h := s.header 0x10 b m 0 s.liveBit dl x v.start 64 tag v.kind v.pages
    let q : CrReq := {
      kind := 0x10, dst := m, bolt := b, ski := k, seq := 0, tc := 0, port := p, scene := s.loom.live.num, owner := .shoot n,
      addr := BitVec.ofNat 64 v.start, dstSide := false, pos := 0, len := 0, due := s.now + s.reg 0x224004 * 1000 }
    (s.openReq (shootKey m tag) q).sendPkt p ⟨h, [], none, [], pktVl 0x10 dl, some k, some (shootKey m tag)⟩
  | _, _ => s

/-- An accepted descriptor: entries go on this module, and shootdowns to the others (R161). -/
def State.invStart (s : State) (n : Nat) (v : InvActive) : State :=
  let sc : InvScope := ⟨v.kind, v.bolt, v.start, v.stop⟩
  let peers := s.invPeers v
  let act := { v with
    pins := s.invPins sc
    unacked := peers.map (fun x => (s.portToward x.2 x.1, x.1)) }
  let s := (s.invRemove sc).orReg (invStat n) 1
  let s := { s with inv := mset none s.inv n (some act) }
  peers.foldl (fun s x => s.sendShoot n act x.1 x.2) s

/-- A write of W7 of a slot; GO submits it (R158, R159). Only the PF reaches the slots. -/
def State.invWrite (s : State) (n : Nat) (w7 : Word) : State :=
  if !s.live then s
  else if !bit w7.toNat 31 then s.setReg (invWord n 7) w7.toNat
  else if bit (s.reg (invStat n)) 0 then s.orReg (invStat n) 8
  else
    let s := s.setReg (invWord n 7) (w7.toNat % 2 ^ 31)
    let v := s.invDesc n
    let s := s.setReg (invStat n) (s.reg (invStat n) % 2 ^ 16 + 2 ^ 16 * v.seq)
    if s.invBad n v then
      let s := s.orReg (invStat n) 4
      if v.fen then s.signal v.fence v.fval.toNat 1 false else s
    else s.invStart n v

/-- INV_RANGE (R161): a submission of a slot whose TYPE is 1. The slot's TYPE is what counts. -/
def execInvRange (slot : InvSlot) (w7 : Word) (s : State) : Host.Outcome State Fault Refusal := .next (s.invWrite slot.val w7)

/-- INV_CONTEXT (R161): a submission of a slot whose TYPE is 2. The slot's TYPE is what counts. -/
def execInvContext (slot : InvSlot) (w7 : Word) (s : State) : Host.Outcome State Fault Refusal := .next (s.invWrite slot.val w7)

/-- INV_ALL (R161): a submission of a slot whose TYPE is 3. The slot's TYPE is what counts. -/
def execInvAll (slot : InvSlot) (w7 : Word) (s : State) : Host.Outcome State Fault Refusal := .next (s.invWrite slot.val w7)

/-! ### Completion (R161, R162) -/

/-- Ends an invalidation: DONE and further bits, BUSY clear, the fence signalled with a status. -/
def State.invEnd (s : State) (n : Nat) (v : InvActive) (flags st : Nat) : State :=
  let s := (s.clrReg (invStat n) 1).orReg (invStat n) flags
  let s := { s with inv := mset none s.inv n none }
  if v.fen then s.signal v.fence v.fval.toNat st false else s

/-- An invalidation in progress in a slot. -/
def State.invAt (s : State) (n : Nat) : Option InvActive := mget none s.inv n

/-- INV_COMPLETE (R161): every module has acknowledged and every pinned tensor tile has committed. -/
def execInvComplete (slot : InvSlot) (s : State) : Host.Outcome State Fault Refusal :=
  .next (
    if !s.live then s
    else match s.invAt slot.val with
      | none => s
      | some v => if v.unacked = [] ∧ s.invClear v.pins then s.invEnd slot.val v 2 0 else s)

/-- Bolts that an invalidation and a silent module have in common. -/
def State.invBolts (s : State) (v : InvActive) (m : Nat) : List Nat :=
  if v.kind = 3 then (s.loom.live.bindings.filter (fun k => k.peer == m)).map (fun k => k.bolt) else [v.bolt]

/-- INV_TIMEOUT (R162): a module has not acknowledged within 500 µs: TMO and DONE, the fence with INV_TIMEOUT, and the bolt
is reset. -/
def execInvTimeout (slot : InvSlot) (p : Port) (m : ModNum) (s : State) : Host.Outcome State Fault Refusal :=
  .next (
    if !s.live then s
    else match s.invAt slot.val with
      | none => s
      | some v =>
        if v.unacked.contains (p.val, m.toNat) ∧ v.at_ + 500000 ≤ s.now then
          let bs := s.invBolts v m.toNat
          let s := s.invEnd slot.val v 18 0x14
          let s := s.raise (unitPort p.val) 0x060 3 bs.head? (slot.val + 2 ^ 16 * v.seq) m.toNat (bs.headD 0)
          (bs.drop 1).foldl (fun s b => s.boltFail b (unitPort p.val) 3 0x060) s
        else s)

end Sys2Proof.Machine
end

