-- ==== Sys2Proof/Machine/FailOps.lean ====
section
/-! DEFINITION. Bolt resets, context teardowns and strikes (14_incidents_understudy.md R454, R455; 12_security.md R401 to
R405; 10_serving.md R341). -/

namespace Sys2Proof.Machine

/-! ### Parts of R454 -/

/-- The destination of a tensor tile that the reset stopped in its commit is undefined (03 R97). -/
def State.stopCommit (s : State) (b t : Nat) : State :=
  (s.tile t).streams.foldl (fun s e => match e.2.queue with
    | q :: _ => if q.phase = .committing then (s.forgetDst t q b).unpin t e.1 else s
    | [] => s) s

/-- A tile zeroed as in step 4 of R402. Hold and gating are the panel's. -/
def Tile.wipe (t : Tile) : Tile := { Tile.reset with hold := t.hold, holdSince := t.holdSince, gated := t.gated }

/-- A tile after a teardown: registers, semaphores and micro-TLB zeroed, the rest kept (14 R455). -/
def Tile.wipeLegacy (t : Tile) : Tile :=
  { t with aReg := [], aStep := [], iReg := [], vReg := [], mReg := [], sems := [], utlb := [], streams := [] }

/-- Groups of the bolt leave the failed state and lose what they hold (R454 step 4). -/
def State.clearGroups (s : State) (b : Nat) : State :=
  let red := fun (g : Nat) => s.loom.live.red.any (fun r => r.group == g && r.bolt == b)
  let mc := fun (g : Nat) => s.loom.live.mcast.any (fun r => r.group == g && r.bolt == b)
  let s := s.freeStaged (fun x => red x.group)
  { s with
    redRun := s.redRun.filter (fun e => !red e.1)
    redIn := s.redIn.filter (fun e => !red e.group)
    redOpen := s.redOpen.filter (fun e => !red e.1)
    mcFlits := s.mcFlits.filter (fun e => !mc e.group) }

/-- Every entry of the bolt goes from every translation and walk cache (05 R161). -/
def State.dropEntries (s : State) (b : Nat) : State := s.invRemove ⟨2, b, 0, 0⟩

/-- The debug sessions of a path end: 0 JTAG, 1 the DBG block (12 R398). -/
def State.endDebug (s : State) (path : Nat) : State :=
  { s with sec := { s.sec with
      grants := s.sec.grants.map (fun (e : Nat × Option GrantSt) => (e.1, e.2.map (fun (g : GrantSt) =>
        if g.path = path then { g with authed := false } else g)))
      chal := mset none s.sec.chal path none } }

/-! ### The strike (12 R402) -/

/-- SEC destroys every key of the bolt: its veiled and sealed regions become KEYLESS, and their contents undefined. -/
def State.destroyKeys (s : State) (b : Nat) : State :=
  s.loom.live.regions.zipIdx.foldl (fun s x =>
    if x.1.bolt = b ∧ x.1.mode ≠ .clear then
      ((s.abandonRekey x.2 x.1).setRegRun x.2 { RegRun.reset with st := .keyless }).forgetRegion x.1
    else s) s

/-- The registers of a bolt window that a strike returns to their reset values: CMD_STAT and SEC_PB_STAT unless they are BUSY,
DRAIN_STAT, CUE_LATE_MAX, the guarantee's, serving's, the incident registers and MIR_STAT. -/
def struckReg (off : Nat) (v : Word) : Bool :=
  ((off == 0x11C || off == 0xE3C) && !bit v.toNat 0) || off == 0x198 || decide (0x918 ≤ off ∧ off < 0x950) || decide (0xB00 ≤ off ∧ off < 0xC00)
  || decide (0x1000 ≤ off ∧ off < 0x1018) || off == 0x1100

/-- Serving state and window registers at a strike (R402 step 5; 10 R341), a VF's ERR_STATUS among them. -/
def State.strikeRegs (s : State) (b : Nat) : State :=
  let r := s.castRange b
  let s := s.clearWindow b
  { s with
    regs := s.regs.filter (fun (e : Nat × Word) => !(decide (blt b 0 ≤ e.1 ∧ e.1 < blt b 0x4000) && struckReg (e.1 - blt b 0) e.2))
    vfErr := if s.boltFn b = 0 then s.vfErr else mset 0 s.vfErr (s.boltFn b) 0
    casts := s.casts.filter (fun (e : Nat × CastSt) => !decide (r.1 ≤ e.1 ∧ e.1 < r.2))
    serve := mset Serve.reset s.serve b Serve.reset }

/-- What a strike destroys of the contexts saved: all, when it overwrites or the bolt has veiled or sealed regions, since the
save area cannot then be read again (09 R307; 12 R405). A step saved there ends. -/
def State.strikeSaved (s : State) (b : Nat) (erase : Bool) : State :=
  if erase || s.loom.live.regions.any (fun r => r.bolt == b && r.mode != .clear) then
    let s := (s.ctx b).saved.foldl (fun s v => match v.step with
      | some r => s.endStep b r 0x11 0
      | none => s) s
    s.updCtx b (fun c => { c with saved := [] })
  else s

/-- Steps 1 to 5 of a strike. -/
def State.strikeStart (s : State) (b : Nat) (k : StrikeSt) : State :=
  let s := s.setCtxMode b .striking
  let s := s.updCtx b (fun c => { c with strike := some k, busySince := s.now })
  let s := s.report unitSec 0x163 0 (some b) 1 (b2n k.erase) 0
  let s := (s.disarmBolt b).closeSessions b 0
  let s := { s with sec := { s.sec with grants := s.sec.grants.map (fun (e : Nat × Option GrantSt) => (e.1, e.2.map (fun (g : GrantSt) =>
    { g with bolts := g.bolts &&& ~~~ BitVec.ofNat 64 (2 ^ b) }))) } }
  let s := (s.destroyKeys b).mapTiles (s.boltTiles b) Tile.wipe
  let s := (((s.dropEntries b).setReg64 (blt b 0x800) 0).faultClear b).updCtx b (fun c => { c with root := 0 })
  (s.strikeRegs b).strikeSaved b k.erase

/-- Zeros over a channel, side areas included (R402 step 6). -/
def State.zeroChan (s : State) (c : Nat) : State :=
  ({ s with hbm := s.hbm.zero (c * chanBytes) ((c + 1) * chanBytes) }).ueClear (c * chanBytes) ((c + 1) * chanBytes)

/-- The end of a strike: the overwrite, EMPTY, and STRIKE again; its call completes, or its booth request is answered. -/
def State.strikeEnd (s : State) (b : Nat) (k : StrikeSt) : State :=
  let s := if k.erase then (s.loom.live.chans b).foldl (fun s c => s.zeroChan c) s else s
  let us := (s.now - (s.ctx b).busySince) / 1000
  let s := s.updCtx b (fun c => { c with strike := none, busySince := 0 })
  let s := (s.setCtxMode b .empty).report unitSec 0x163 0 (some b) 0 (b2n k.erase) us
  let s := match k.call with
    | some q => (match (s.queue q.1).calls.find? (fun (x : FetchedCall) => x.index == q.2) with
        | some x => s.complete q.1 x (Completion.plain 0)
        | none => s)
    | none => s
  (match k.ses with
   | some n => s.lateReply n 0x82 b boothOk []
   | none => s).boundary b

/-! ### The end of a reset or teardown -/

/-- A drain that the reset overtook is over: RESET shows, and its booth requests are answered. -/
def State.dropDrain (s : State) (b : Nat) : State :=
  match (s.ctx b).drain with
  | none => s
  | some d =>
    let s := ((s.updCtx b (fun c => { c with drain := none })).clrReg (blt b 0x198) 1).orReg (blt b 0x198) 4
    (s.boltEvent b).drainAnswer b { d with calls := [] } 0

/-- Steps 2 to 6 of R454, or their part in a teardown (R455); a pending strike follows. -/
def State.resetEnd (s : State) (b : Nat) (legacy : Bool) : State :=
  let code := (s.ctx b).busyCode
  let since := (s.ctx b).busySince
  let s := s.endJob b
  let s := ((s.disarmBolt b).faultClear b).closeSessions b code
  let s := (s.clearGroups b).dropDrain b
  let s := (s.boltTiles b).foldl (fun s t => s.stopCommit b t) s
  let s := s.mapTiles (s.boltTiles b) (if legacy then Tile.wipeLegacy else Tile.wipe)
  let s := (s.dropEntries b).endServing b
  let s := if legacy then s else s.clrReg (blt b 0xB00) 1
  let s := s.ctxLeave b code
  let s := s.updCtx b (fun c => { c with busySince := 0, busyCode := 0 })
  let s := s.report (unitSh 7) (if legacy then 0x1A4 else 0x1A3) 0 (some b) code ((s.now - since) / 1000) 0
  let s := s.boundary b
  match (s.ctx b).strike with
  | some k => s.strikeStart b k
  | none => s

end Sys2Proof.Machine
end

