-- ==== Sys2Proof/Machine/MeshRoute.lean ====
section
/-! DEFINITION. Attachment points, routes and distances of a panel's mesh (04_panel_mesh.md R109 to R117). -/

namespace Sys2Proof.Machine

/-- Attachment points of a panel. -/
def meshPoints : Nat := 89

/-- Position of a point on panel 0 (R109). -/
def pointBase (n : Nat) : Nat × Nat :=
  if n < 64 then (n % 8, n / 8)
  else if n ≤ 69 then (n - 63, 0)
  else if n ≤ 75 then (0, n - 69)
  else if n = 76 ∨ n = 77 then (0, 0)
  else if n = 78 then (7, 0)
  else if n = 79 then (0, 7)
  else if n ≤ 83 then (7, n - 78)
  else if n ≤ 87 then (n - 82, 7)
  else (7, 7)

/-- Physical site of a point of a panel: points from 64 on are mirrored in x on panels 1 and 3, in y on 2 and 3 (R109). -/
def pointSite (p n : Nat) : Nat × Nat :=
  let b := pointBase n
  if n < 64 then b
  else (if p % 2 = 1 then 7 - b.1 else b.1, if 2 ≤ p then 7 - b.2 else b.2)

/-- Site number of a position on a panel. -/
def siteAt (p x y : Nat) : Nat := p * 64 + y * 8 + x

/-- Is a position's site live? -/
def State.liveXY (s : State) (p x y : Nat) : Bool := s.siteLive (siteAt p x y)

/-- Distance of two coordinates. -/
def gap (a b : Nat) : Nat := max a b - min a b

/-- Length that a detour through row `ym` adds (R112). -/
def detourCost (ys ye ym : Nat) : Nat :=
  if min ys ye < ym ∧ ym < max ys ye then 0 else 2 * min (gap ym ys) (gap ym ye)

/-- The best detour row among rows `y` to `y + n - 1`, with its cost, better than `best` (R112). -/
def State.detourFrom (s : State) (p xs xe ys ye : Nat) : Nat → Nat → Option (Nat × Nat) → Option (Nat × Nat)
  | 0, _, best => best
  | n + 1, y, best =>
    let c := detourCost ys ye y
    let better : Bool := match best with
      | none => true
      | some b => decide (c < b.2)
    let best := if y != ys && y != ye && s.liveXY p xs y && s.liveXY p xe y && better then some (y, c) else best
    s.detourFrom p xs xe ys ye n (y + 1) best

/-- A route's code, detour row and hops between two positions of a panel (R112). -/
def State.segment (s : State) (p xs ys xe ye : Nat) : Nat × Nat × Nat :=
  let d := gap xs xe + gap ys ye
  if xs = xe ∨ ys = ye ∨ s.liveXY p xe ys then (0, 0, d)
  else if s.liveXY p xs ye then (1, 0, d)
  else match s.detourFrom p xs xe ys ye 8 0 none with
    | some (ym, c) => (2, ym, d + c)
    | none => (3, 0, 0)

/-- Has a point a route: it is not a dark tile site? -/
def State.pointLive (s : State) (p n : Nat) : Bool := decide (64 ≤ n) || s.siteLive (p * 64 + n)

/-- Code, row and hops from point `a` to point `b` of a panel; code 3 for none (R116). -/
def State.meshRoute (s : State) (p a b : Nat) : Nat × Nat × Nat :=
  if a = b ∨ !s.pointLive p a ∨ !s.pointLive p b then (3, 0, 0)
  else
    let u := pointSite p a
    let v := pointSite p b
    s.segment p u.1 u.2 v.1 v.2

/-- Byte `k` of the route section (R116). -/
def State.routeByte (s : State) (k : Nat) : Nat :=
  let r := k % 8192
  if 7921 ≤ r then 0xFF
  else
    let m := s.meshRoute (k / 8192) (r / meshPoints) (r % meshPoints)
    m.1 + 4 * m.2.1

/-- Byte `k` of the distance section (R117). -/
def State.distByte (s : State) (k : Nat) : Nat :=
  let r := k % 8192
  if 7921 ≤ r then 0xFF
  else
    let m := s.meshRoute (k / 8192) (r / meshPoints) (r % meshPoints)
    if m.1 = 3 then 0xFF else m.2.2

end Sys2Proof.Machine
end

