-- ==== Sys2Proof/Machine/PowerArb.lean ====
section
/-! DEFINITION. The power arbiter's budget: shares in force, rate limits, operating points, intermission
(11_budgets.md R357, R359 to R367). Powers are in tenths of a watt unless a name says otherwise. -/

namespace Sys2Proof.Machine

/-! ### What the arbiter counts -/

/-- The fixed draw, in watts: control, stacks, mesh and bridges, PHYs, and 12 W a Creust port enabled (R357). -/
def State.fixedDraw (s : State) : Nat :=
  40 + 8 * 24 + 60 + 60 + 12 * ((List.range 18).filter (fun p => bit (s.reg (cru p 0)) 0)).length

/-- PWR_CAP, in units of 10 W. -/
def State.cap (s : State) : Nat := s.reg 0x30000

/-- The consumers from first served to last: 0 compute, 1 memory, 2 links (R358). -/
def State.order (s : State) : List Nat := let w := s.reg 0x30004; [bits w 1 0, bits w 3 2, bits w 5 4]

/-- The cap the arbiter uses, in watts: below 52 V the input allows no more than 80 A (15 R480). -/
def State.capNow (s : State) : Nat :=
  if s.pins.vin < 52000 then min (s.cap * 10) (80 * s.pins.vin / 1000) else s.cap * 10

/-- The budget before shares: 92 % of the cap less the fixed draw (R357, R362). -/
def State.budget (s : State) : Nat := s.capNow * 92 / 10 - s.fixedDraw * 10

/-- All three shares of a bolt together, in units of 10 W. -/
def Shares.total (x : Shares) : Nat := x.compute + x.memory + x.links

/-- A share scaled by `b / t` and rounded down to 10 W (R362). -/
def Shares.scale (x : Shares) (b t : Nat) : Shares := ⟨x.compute * b / t, x.memory * b / t, x.links * b / t⟩

/-- Voids a bolt's guaranteed steps for the arbiter: at a fresh event, and for a step admitted while an earlier one lasts (06
R206; 11 R362, R363). -/
def State.voidOnce (s : State) (b cause : Nat) (fresh : Bool) : State :=
  if fresh || (s.ctx b).steps.any (fun r => r.guar && !r.voided) then s.voidSteps b cause unitPwr else s

/-- Has the bolt a guaranteed step that is not delivered? -/
def State.guarActive (s : State) (b : Nat) : Bool := (s.ctx b).steps.any (fun r => r.guar)

/-- The bolts of the live scene. -/
def State.sceneBolts (s : State) : List Nat := s.loom.live.bolts.map (fun r => r.bolt)

/-- The bolts with a loaded context. -/
def State.loadedBolts (s : State) : List Nat := s.sceneBolts.filter (fun b => s.loaded b)

/-- Tiles of a bolt on a panel. -/
def State.boltOn (s : State) (b p : Nat) : Nat := ((s.boltTiles b).filter (fun t => t / 64 == p)).length

/-- Powered tiles of a panel: those of bolts with a loaded context (R354). -/
def State.poweredOn (s : State) (p : Nat) : Nat := ((s.panelBolts p).map (fun b => s.boltOn b p)).sum

/-- Panels with powered tiles. -/
def State.poweredPanels (s : State) : List Nat := [0, 1, 2, 3].filter (fun p => decide (0 < s.poweredOn p))

/-! ### Shares in force (R359, R362) -/

/-- The first part of the interval: shares fall by one factor when they exceed the budget, with GUARANTEE_VOID cause 1 first
and PWR_RES_SCALED when the factor changes; the floors follow. -/
def State.applyShares (s : State) : State :=
  let bolts := s.sceneBolts
  let cap := s.budget
  let sum := (bolts.map (fun b => (s.share b).total)).sum * 100
  if cap < sum then
    let low := bolts.filter (fun b => (s.share b).scale cap sum != s.share b)
    let s := low.foldl (fun s b => s.voidOnce b 1 ((s.share b).scale cap sum != s.shareInForce b)) s
    let f := cap * 2 ^ 16 / sum
    let s := if s.power.factor = f ∧ s.power.scaled then s
      else s.report unitPwr 0x143 0 none f (sum / 100) (cap / 10)
    ({ s with power := { s.power with
        scaled := true, factor := f
        inForce := bolts.foldl (fun m b => mset Shares.reset m b ((s.share b).scale cap sum)) s.power.inForce } }).updateFloors
  else
    ({ s with power := { s.power with
        scaled := false, factor := 0
        inForce := bolts.foldl (fun m b => mset Shares.reset m b (s.share b)) s.power.inForce } }).updateFloors

/-- The unreserved budget U at the start of the interval. -/
def State.unreserved (s : State) : Nat :=
  s.budget - (s.sceneBolts.map (fun b => (s.shareInForce b).total)).sum * 100

/-! ### Memory and links (R362 to R364) -/

/-- The draw measured for a bolt: memory (1) or links (2). -/
def demandOf (l : List Sys2Proof.Demand) (b k : Nat) : Nat :=
  match l.find? (fun d => d.bolt.val == b) with
  | some d => 10 * (if k = 1 then d.memory else d.links)
  | none => 0

/-- A bolt's share in force of consumer 1 or 2. -/
def State.shareOf (s : State) (b k : Nat) : Nat :=
  100 * (if k = 1 then (s.shareInForce b).memory else (s.shareInForce b).links)

/-- The part of a bolt's 1 % that its share does not cover: taken ahead of the order (R364). -/
def State.leastOf (s : State) (l : List Sys2Proof.Demand) (b k : Nat) : Nat := (demandOf l b k + 99) / 100 - s.shareOf b k

/-- What a bolt asks of the unreserved budget beyond that. -/
def State.wantOf (s : State) (l : List Sys2Proof.Demand) (b k : Nat) : Nat :=
  (demandOf l b k - s.shareOf b k) - s.leastOf l b k

/-- A list turned by `n`. -/
def turnedBy {α : Type} (l : List α) (n : Nat) : List α := l.drop (n % l.length) ++ l.take (n % l.length)

/-- Gives `rest` out in the order of a list; the bolts that do not get all they want. -/
def giveOut (want : Nat → Nat) : Nat → List Nat → List Nat
  | _, [] => []
  | rest, b :: l => if rest < want b then b :: giveOut want 0 l else giveOut want (rest - want b) l

/-- One of memory and links takes its turn: `u` is what is left. Bolts with an ACTIVE guaranteed step are served first, so the
others are cut first (R363); among equals the order is free. A cut bolt's guaranteed steps are void for cause 1. `was` are the
bolts cut in the interval before. -/
def State.takeTraffic (s : State) (was : List Nat) (l : List Sys2Proof.Demand) (k u : Nat) : State × Nat :=
  let d := s.draw
  let s := d.1
  let bolts := turnedBy s.sceneBolts (Config.freeNat d.2)
  let want := fun b => s.wantOf l b k
  let g := min u (bolts.map want).sum
  let cut := giveOut want g (bolts.filter (fun b => s.guarActive b) ++ bolts.filter (fun b => !s.guarActive b))
  let s := cut.foldl (fun s b => s.voidOnce b 1 (!was.contains b)) s
  ({ s with power := { s.power with cut := s.power.cut ++ cut.filter (fun b => !s.power.cut.contains b) } }, u - g)

/-! ### Compute (R360 to R366) -/

/-- The cost of a bolt's tiles at given operating points. -/
def State.tileCost (s : State) (b : Nat) (ops : List Nat) : Nat :=
  ([0, 1, 2, 3].map (fun p => s.boltOn b p * opTilew (ops.getD p 15))).sum

/-- The cost of all tiles beyond their bolts' compute shares. -/
def State.beyond (s : State) (ops : List Nat) : Nat :=
  (s.loadedBolts.map (fun b => s.tileCost b ops - (s.shareInForce b).compute * 100)).sum

/-- The first of a list for which `better` holds against every earlier one. -/
def best (better : Nat → Nat → Bool) (l : List Nat) : Option Nat :=
  l.foldl (fun a p => match a with
    | some q => if better p q then some p else a
    | none => some p) none

/-- Moves the fastest panel one step slower until the cost fits; `k` bounds the steps. -/
def State.slowDown (s : State) (u : Nat) : Nat → List Nat → List Nat
  | 0, ops => ops
  | k + 1, ops =>
    if s.beyond ops ≤ u then ops
    else match best (fun p q => decide (ops.getD p 15 < ops.getD q 15)) (s.poweredPanels.filter (fun p => decide (ops.getD p 15 < 15))) with
      | none => ops
      | some p => s.slowDown u k (ops.set p (ops.getD p 15 + 1))

/-- Moves the slowest panel below its ceiling one step faster while it costs at most what is left; a panel that the 110 °C response
holds at OP15 is not raised (R370). -/
def State.speedUp (s : State) : Nat → Nat → List Nat → List Nat × Nat
  | 0, u, ops => (ops, u)
  | k + 1, u, ops =>
    match best (fun p q => decide (ops.getD q 15 < ops.getD p 15))
        (s.poweredPanels.filter (fun p => !(s.panel p).hw && decide ((s.panel p).ceil < ops.getD p 15))) with
    | none => (ops, u)
    | some p =>
      let j := ops.getD p 15
      let c := s.poweredOn p * (opTilew (j - 1) - opTilew j)
      if u < c then (ops, u) else s.speedUp k (u - c) (ops.set p (j - 1))

/-- A panel's part of the budget: its bolts' compute shares by tile count, and its part of U (R366). -/
def State.panelPart (s : State) (p u : Nat) : Nat :=
  ((s.panelBolts p).map (fun b => (s.shareInForce b).compute * 100 * s.boltOn b p / max 1 (s.tileCount b))).sum
    + u * s.poweredOn p / max 1 ((s.poweredPanels.map (fun q => s.poweredOn q)).sum)

/-- The largest duty of at most `k` that fits a part, 4 at least (R366). -/
def dutyFor (part : Nat) : Nat → Nat
  | 0 => 4
  | k + 1 => if k + 1 ≤ 4 then 4
    else if 60 * (opTilew 15 * 10 * (k + 1) + 65 * (64 - (k + 1))) ≤ part * 640 then k + 1 else dutyFor part k

/-- The duty the arbiter chooses for a panel: all slots while the budget covers it at OP15. -/
def State.dutyOf (s : State) (p u : Nat) : Nat :=
  if s.poweredOn p * opTilew 15 ≤ s.panelPart p u then 64 else dutyFor (s.panelPart p u) 63

/-- The duty with the responses to heat (R370): d = 16 in hardware, d = 32 at most by firmware. -/
def PanelPwr.heatDuty (x : PanelPwr) (d : Nat) : Nat := if x.hw then 16 else if x.thermOff then min d 32 else d

/-- Gives a panel its next duty; entering intermission voids every bolt of the panel for cause 3 first (R367). -/
def State.setDuty (s : State) (p d : Nat) : State :=
  let d := (s.panel p).heatDuty d
  let s := if d < 64 ∧ (s.panel p).duty = 64 then (s.panelBolts p).foldl (fun s b => s.voidOnce b 3 ((s.panel p).nextDuty == 64)) s else s
  s.setPanel p { s.panel p with nextDuty := d }

/-- Gives a panel its operating point to move to; a bolt of the panel whose floor is faster is void for cause 2 first (R363). -/
def State.setTarget (s : State) (p op : Nat) : State :=
  let slow := (s.panelBolts p).filter (fun b => match s.grantedFloor b with
    | some j => decide (j < op)
    | none => false)
  let s := slow.foldl (fun s b => s.voidOnce b 2 ((s.panel p).target != op)) s
  s.setPanel p { s.panel p with target := op }

/-- Compute takes its turn (R362): every panel to its floor or ceiling, slower while it does not fit, else faster while it
does; intermission when OP15 does not fit. -/
def State.takeCompute (s : State) (u : Nat) : State × Nat :=
  let ops := [0, 1, 2, 3].map (fun p => if (s.panel p).hw then 15 else max (s.panel p).floor (s.panel p).ceil)
  let ops := s.slowDown u 64 ops
  let x := s.beyond ops
  let fits := decide (x ≤ u)
  let r := if fits then s.speedUp 64 (u - x) ops else (ops, 0)
  let duty := fun p => if fits ∨ s.poweredOn p = 0 then 64 else s.dutyOf p u
  let ds := [0, 1, 2, 3].map (fun p => (p, (if (s.panel p).hw then 15 else r.1.getD p 15), duty p))
  (ds.foldl (fun s (e : Nat × Nat × Nat) => (s.setTarget e.1 e.2.1).setDuty e.1 e.2.2) s, r.2)

/-- The consumers take their turns in the priority order. -/
def State.takeTurns (s : State) (was : List Nat) (l : List Sys2Proof.Demand) : List Nat → Nat → State × Nat
  | [], u => (s, u)
  | k :: ks, u =>
    let r := if k = 0 then s.takeCompute u else s.takeTraffic was l k u
    r.1.takeTurns was l ks r.2

/-! ### Gating (R366, R367) -/

/-- A slot number with its six bits reversed. -/
def rev6 (k : Nat) : Nat :=
  32 * (k % 2) + 16 * (k / 2 % 2) + 8 * (k / 4 % 2) + 4 * (k / 8 % 2) + 2 * (k / 16 % 2) + k / 32 % 2

/-- Is the slot that begins now gated on a panel? -/
def State.slotShut (s : State) (p : Nat) : Bool := decide ((s.panel p).duty ≤ rev6 (s.now / 1000 % 64))

/-- Opens or gates the slot of a panel's tiles; the member timers of the bolts concerned follow (05 R133). -/
def State.gatePanel (s : State) (p : Nat) (shut : Bool) : State :=
  let ts := ((List.range 64).map (fun k => 64 * p + k)).filter (fun t => s.siteLive t)
  let s := s.mapTiles ts (fun t => { t with gated := shut })
  (s.sceneBolts.filter (fun b => (s.boltPanels b).contains p)).foldl (fun s b => s.redTimers b) s

/-- A duty comes into force; PWR_INTERM when the panel enters or leaves intermission (R366). -/
def State.beginDuty (s : State) (p d : Nat) : State :=
  let old := (s.panel p).duty
  let s := s.setPanel p { s.panel p with duty := d, nextDuty := d }
  if decide (old < 64) = decide (d < 64) then s else s.report unitPwr 0x144 0 none p (b2n (decide (d < 64))) d

end Sys2Proof.Machine
end

