-- ==== Sys2Proof/Machine/Records.lean ====
section
/-! DEFINITION. Records that software reads as bytes: incidents and the prompt book (14_incidents_understudy.md R441;
13_firmware_booth.md R426). -/

namespace Sys2Proof.Machine

/-- CODE, bolt and BV of a report as INC_SRC_FIRST and INC_SRC_LAST show it (14 R449). -/
def viewWord (v : Nat × Option Nat × DWord) : Nat :=
  v.1 + (match v.2.1 with
    | some b => 2 ^ 16 * b + 2 ^ 22
    | none => 0)

/-- The 64 bytes of an incident record (14 R441). -/
def Incident.bytes (r : Incident) : List Byte :=
  leBytes 4 (r.cls * 4096 + r.code + 2 ^ 16 * r.unit_)
    ++ leBytes 4 ((match r.bolt with
        | some b => b + 64
        | none => 0) + 128 * b2n r.fatal)
    ++ leBytes 4 r.scene.toNat ++ leBytes 4 r.seq.toNat ++ leBytes 8 r.time.toNat
    ++ leBytes 8 r.arg0.toNat ++ leBytes 8 r.arg1.toNat ++ leBytes 8 r.arg2.toNat
    ++ leBytes 4 r.module_ ++ leBytes 4 r.drops ++ leBytes 8 0

/-- The 64 bytes of slot `k` of INC: of the ring, or from 4,032 on of the fatal slots (14 R446); an unwritten slot reads 0. -/
def State.slotBytes (s : State) (k : Nat) : List Byte :=
  match (if k < 4032 then mget none s.inc.ring k else s.inc.fatal[k - 4032]?) with
  | some r => r.bytes
  | none => leBytes 64 0

/-- The 32 bytes of a prompt-book record (13 R426). -/
def PbRec.bytes (r : PbRec) : List Byte :=
  leBytes 8 r.time.toNat ++ leBytes 4 r.seq
    ++ leBytes 4 (r.comp + 16 * r.level + 128 * b2n r.trace + 256 * r.code + (match r.bolt with
        | some b => 2 ^ 20 * b + 2 ^ 26
        | none => 0))
    ++ (List.range 4).flatMap (fun k => leBytes 4 (r.args.getD k 0).toNat)

/-- The record of the prompt book at a position, if it has been written. -/
def State.bookAt (s : State) (pos : Nat) : Option PbRec := s.fw.book.find? (fun r => r.seq % 32768 == pos)

/-- Firmware records a message or a trace mark in the prompt book, over the oldest record (13 R426). -/
def State.book (s : State) (comp level : Nat) (trace : Bool) (code : Nat) (b : Option Nat) (args : List Word) : State :=
  if !trace && decide (bits (s.reg 0x78008) 1 0 < level) then s
  else
    let r : PbRec := ⟨s.time, s.fw.bookSeq, comp, level, trace, code, b, args⟩
    { s with fw := { s.fw with
        book := (s.fw.book ++ [r]).drop (s.fw.book.length + 1 - 32768)
        bookSeq := (s.fw.bookSeq + 1) % 2 ^ 32 } }

/-- A word of a list of bytes. -/
def wordAt (l : List Byte) (k : Nat) : Nat := leNat ((l.drop (4 * k)).take 4)

end Sys2Proof.Machine
end

