-- ==== Sys2Proof/Machine/Registers.lean ====
section
/-! DEFINITION. Host accesses to registers (00 R5 to R8): which register an offset of a function names, writes under the
type codes, pairs and their latches, and the accesses that no register takes. -/

namespace Sys2Proof.Machine

/-- What an offset of a function's BAR0 names. -/
inductive RegPlace
  /-- a register of the map, by PF BAR0 offset -/
  | map (off : Nat)
  /-- the error status of a VF (00 R6, 09 BLT window 0x0040) -/
  | vfStatus (vf : Nat)
  /-- a word of an MSI-X table, by its key (09 R290, R294) -/
  | msixWord (key : Nat)
  /-- the mailbox of a VF, from the PF's side or the VF's: word offset in it (09 R313) -/
  | mailbox (vf : Nat) (pfSide : Bool) (off : Nat)
  /-- implemented, read-only here: pending-bit arrays, the VF's STU mirror -/
  | readOnly
  /-- a doorbell or the debug block: these have commands of their own -/
  | own
  /-- a register of the function's configuration space (09 R286, R287), by its place in `cfgWord` -/
  | cfg (off : Nat)
  /-- GLB_ID, or a configuration register, of the companion function of half 1 (09 R288) -/
  | companion (off : Nat)
  /-- nothing -/
  | absent
  deriving DecidableEq, Repr

/-- The place of an offset in a bolt window. -/
def windowPlace (s : State) (b off : Nat) : RegPlace :=
  if off = 0x40 then (if s.boltFn b = 0 then .readOnly else .vfStatus (s.boltFn b))
  else if (regDef (blt b off)).isSome then .map (blt b off) else .absent

/-- Offsets from which a command names the configuration space of its function, and, for the PF's command, BAR0 and the
configuration space of the companion function. They lie beyond every BAR0 (09 R290). -/
def cfgBase : Nat := 2 ^ 28
def compBase : Nat := 2 ^ 29

/-- Does the companion function answer: the port is x8/x8 and half 1 is up? (09 R288) -/
def State.compUp (s : State) : Bool := bit s.pins.strap.toNat 2 && s.pins.perst1N

/-- The place of an offset of a function (00 block map, 09 R290). -/
def regPlace (s : State) (fn : Fn) (off : Nat) : RegPlace :=
  if cfgBase ≤ off then
    if off < cfgBase + 0x1000 then .cfg (off - cfgBase)
    else if fn = 0 ∧ s.compUp = true ∧ (off = compBase ∨ compBase + 0x1000 ≤ off ∧ off < compBase + 0x2000) then
      .companion (off - compBase)
    else .absent
  else if fn = 0 then
    if 0x7F00 ≤ off ∧ off < 0x8000 then .readOnly
    else if 0x8000 ≤ off ∧ off < 0x10000 then .msixWord off
    else if 0x18000 ≤ off ∧ off < 0x20000 then .own
    else if 0x71100 ≤ off ∧ off < 0x75000 then
      (if off % 0x100 ≤ 0x80 then .mailbox ((off - 0x71000) / 0x100) true (off % 0x100) else .absent)
    else if 0x100000 ≤ off ∧ off < 0x200000 then windowPlace s ((off - 0x100000) / 0x4000) (off % 0x4000)
    else if off = 0x300000 ∨ off = 0x300100 then .own
    else if (regDef off).isSome then .map off else .absent
  else if off < 0x4000 then
    match s.fnBolt fn.val with
    | some b => windowPlace s b off
    | none => .absent
  else if off ≤ 0x4080 then .mailbox fn.val false (off - 0x4000)
  else if 0x10000 ≤ off ∧ off < 0x18000 then .own
  else if off = 0x20000 ∨ off = 0x20004 ∨ off = 0x20014 then .readOnly
  else if 0x30000 ≤ off ∧ off < 0x30400 then .msixWord (2 ^ 26 + 0x1000 * fn.val + (off - 0x30000))
  else if off = 0x30800 ∨ off = 0x30804 then .readOnly
  else .absent

/-- Registers written by a command of their own: STU_CTL, STU_REACQ, both DRV_VER, INC_TAIL, INC_SRC_FIRST, word 7 of an
invalidation slot, XLT_FQ_RESP, FREE_POP, the pool PUSH and CTL registers, TRC_CTL, BLT_INC_FIRST and CRU_PORT_CTL. -/
def ownRow (off : Nat) : Bool :=
  off == 0x20010 || off == 0x2001C || off == 0xC || off == 0x40008 || off == 0x40024
  || (decide (0x51000 ≤ off ∧ off < 0x51800) && (off - 0x51000) % 32 == 28)
  || (decide (0x100000 ≤ off ∧ off < 0x200000) &&
      [0x8, 0x80C, 0x140, 0xB40, 0xB60, 0xB80, 0xBA0, 0xB58, 0xB78, 0xB98, 0xBB8, 0xB5C, 0xB7C, 0xB9C, 0xBBC, 0xF08,
        0x1000, 0x110C].contains (off % 0x4000))
  || (decide (0x200000 ≤ off ∧ off < 0x224000) && off % 0x2000 == 0)

/-- Is an encoding of a field legal? (00 R8) -/
def FieldDef.ok (f : FieldDef) (v : Nat) : Bool := f.legal.isEmpty || f.legal.any (fun r => decide (r.1 ≤ v ∧ v ≤ r.2))

/-- What a write of `v` makes of a field's part of the stored word `w` (00 R5, R8). -/
def FieldDef.write (f : FieldDef) (locked : Bool) (w v : Nat) : Nat :=
  match f.kind with
  | .rw => if f.ok (f.get v) then f.put w (f.get v) else w
  | .rwl => if !locked && f.ok (f.get v) then f.put w (f.get v) else w
  | .w1c => f.put w (f.get w - (f.get w &&& f.get v))
  | .ro | .wo => w

/-- Does the write hold a reserved encoding of a field it would set? (00 R8) -/
def FieldDef.bad (f : FieldDef) (locked : Bool) (v : Nat) : Bool :=
  match f.kind with
  | .rw => !f.ok (f.get v)
  | .rwl => !locked && !f.ok (f.get v)
  | _ => false

/-! ### The command interface's ends (09 R295 to R297) -/

/-- Records a command's end at an interface: STATUS, DONE and results. -/
def State.cmdEndAt (s : State) (base op st : Nat) (res : List Nat) : State :=
  let s := s.setReg (base + 0x118) op
  let old := s.reg (base + 0x11C)
  let s := s.setReg (base + 0x11C) ((old % 256 / 2 * 2) ||| 2 ||| (st * 256))
  if st = 0 then res.zipIdx.foldl (fun s x => s.setReg (base + 0x120 + 4 * x.2) x.1) s else s

/-- Runs a command at an interface: the reserved area first (R291), a reserved bit next, then `body`, which answers a status,
results and the new state; any status but OK has no effect (09 R297). While stagehand 0 restarts the command is held: BUSY
shows, a further GO sets OVR and is dropped, and the command given again after the restart is the held one's execution
(13 R418). -/
def State.cmdGo (s : State) (base op : Nat) (rsv : Bool) (body : State → Nat × List Nat × State) : State :=
  if !s.serving 0 then
    (if bit (s.reg (base + 0x11C)) 0 then s.orReg (base + 0x11C) 4
     else (s.setReg (base + 0x118) op).orReg (base + 0x11C) 1)
  else if !bit (s.reg 0x10000) 0 then s.cmdEndAt base op 0x0A []
  else if rsv then s.cmdEndAt base op 1 []
  else
    let r := body s
    if r.1 = 0 then r.2.2.cmdEndAt base op 0 r.2.1 else s.cmdEndAt base op r.1 []

/-- Operations of R296. -/
def cmdOps : List Nat := [1, 2, 3, 4, 5, 0x10, 0x11, 0x12, 0x13, 0x20, 0x21, 0x22, 0x23, 0x30, 0x31]

/-- Is this the CMD register of a command interface? -/
def isCmd (off : Nat) : Bool :=
  off == 0x10118 || (decide (0x100000 ≤ off ∧ off < 0x200000) && off % 0x4000 == 0x118)

/-- A write of a word to a register of the map under its type codes (00 R5, R8). -/
def State.writeFields (s : State) (fn : Fn) (off : Nat) (r : RegDef) (v : Nat) : State :=
  let lk := s.loom.committed
  let s1 := s.setReg off (r.fields.foldl (fun w f => f.write lk w v) (s.reg off))
  let s2 := if lk && r.fields.any (fun f => f.kind == .rwl) then s1.setErr fn 2 else s1
  if r.fields.any (fun f => f.bad lk v) then s2.setErr fn 3 else s2

/-- The conditions on a pair's 64-bit value: HIF_RSV_BASE names space 0 of this module, VF_AP_BASE is 8 GiB aligned,
HIF_AP_BASE is aligned to the size of BAR2 (09 R290 to R292). DESIGN CHOICE, log entry 93: the spec states no response to a value
that breaks one; the model takes it as a reserved encoding of the pair (00 R8): RSV_ENC is set and the whole pair stays. -/
def State.pairOk (s : State) (off v : Nat) : Bool :=
  if off = 0x10000 then v / 2 ^ 52 == s.modNum && v / 2 ^ 49 % 8 == 0
  else if off = 0x10010 then v % 2 ^ s.pci.bar2Exp == 0
  else if 0x100000 ≤ off ∧ off < 0x200000 ∧ off % 0x4000 = 0x10 then v % 2 ^ 33 == 0
  else true

/-- A write to both registers of a pair at once (00 R7). HIF_RSV_BASE ignores writes once VALID reads 1 (09). -/
def State.writePair (s : State) (fn : Fn) (off lo hi : Nat) : State :=
  if off = 0x10000 ∧ bit (s.reg 0x10000) 0 then s.setErr fn 2
  else if !s.pairOk off (lo + 2 ^ 32 * hi) then s.setErr fn 3
  else match regDef off, regDef (off + 4) with
    | some r, some q => (s.writeFields fn off r lo).writeFields fn (off + 4) q hi
    | _, _ => s

/-- Does the map have a pair whose `_LO` register is here? Counter rows list their pairs 8 bytes apart. -/
def isPairLo (off : Nat) : Bool :=
  match regDef off with
  | some r => r.pair && ((regBlock off).2 - r.off) % 8 == 0
  | none => false

/-- Is this the `_HI` register of a pair? -/
def isPairHi (off : Nat) : Bool := decide (4 ≤ off) && isPairLo (off - 4)

/-- The key of a held `_LO` write. -/
def heldKey (fn : Fn) (off : Nat) : Nat := fn.val * 2 ^ 26 + off

/-- What a write of the `_LO` register must hold to leave its fields as they are: each RW field's stored value, and 0 for every
W1C field. -/
def State.loIdle (s : State) (off : Nat) : Nat :=
  match regDef off with
  | some r => if r.fields.any (fun f => f.kind == .w1c) then 0 else s.reg off
  | none => s.reg off

/-- Takes the held `_LO` half of a pair. DESIGN CHOICE, log entry 94: with none held, the spec does not say what the low half is
then; the model leaves the low register as it is (00 R7 makes only a written `_LO` take effect). -/
def State.takeLo (s : State) (fn : Fn) (off : Nat) : State × Nat :=
  match mget none s.loHeld (heldKey fn off) with
  | some w => ({ s with loHeld := mset none s.loHeld (heldKey fn off) none }, w.toNat)
  | none => (s, s.loIdle off)

/-- May the function write the register? A VF may not write what only the PF writes, nor a counter (05 R145, 14 R452). -/
def mayWrite (fn : Fn) (r : RegDef) : Bool := fn = 0 || (r.attr != .pf && r.attr != .counter)

/-- The trace-enable word that FWM_TM_EN shows (13 R428). -/
def State.tmKey (s : State) : Nat := bits (s.reg 0x78010) 3 0 * 128 + bits (s.reg 0x78010) 10 4

/-- A write of one word to a register of the map. -/
def State.writeWord (s : State) (fn : Fn) (off v : Nat) : State :=
  match regDef off with
  | none => s.setErr fn 0
  | some r =>
    if ownRow off then s
    else if !mayWrite fn r then s.setErr fn 0
    else if off = 0x10000 ∧ bit (s.reg 0x10000) 0 then s.setErr fn 2
    else if isPairLo off ∧ (r.attr = .pf ∨ r.attr = .kernel) then
      { s with loHeld := mset none s.loHeld (heldKey fn off) (some (BitVec.ofNat 32 v)) }
    else if isPairHi off ∧ (r.attr = .pf ∨ r.attr = .kernel) then
      let h := s.takeLo fn (off - 4)
      h.1.writePair fn (off - 4) h.2 v
    else if off = 0x78014 then
      (if 1 ≤ bits (s.reg 0x78010) 3 0 then { s with fw := { s.fw with tm := mset 0 s.fw.tm s.tmKey (BitVec.ofNat 32 v) } }
       else s)
    else if 0x100000 ≤ off ∧ off < 0x200000 ∧ off % 0x4000 = 0xF18 then
      let k := (off - 0x100000) / 0x4000 * 128 + bits (s.reg (off - 4)) 6 0
      { s with fw := { s.fw with trcMarks := mset 0 s.fw.trcMarks k (BitVec.ofNat 32 v) } }
    else if isCmd off ∧ bit v 31 ∧ !cmdOps.contains (v % 256) then
      s.cmdGo (off - 0x118) (v % 256) false (fun s => (1, [], s))
    else s.writeFields fn off r v

/-- A write of one word to a mailbox: the outbound buffer is RW, the inbound RO; of MBX_CTL, OVR is W1C and READY RW
(09 R313). -/
def State.writeMailbox (s : State) (vf : Nat) (pfSide : Bool) (off v : Nat) : State :=
  let m := mget Mailbox.reset s.mbx vf
  let put := fun (x : Mailbox) => { s with mbx := mset Mailbox.reset s.mbx vf x }
  if pfSide then
    if 0x40 ≤ off ∧ off < 0x80 then put { m with pfTx := mset 0 m.pfTx ((off - 0x40) / 4) (BitVec.ofNat 32 v) }
    else if off = 0x80 then put { m with pfOvr := m.pfOvr && !bit v 4, pfReady := bit v 5 }
    else s
  else
    if off < 0x40 then put { m with vfTx := mset 0 m.vfTx (off / 4) (BitVec.ofNat 32 v) }
    else if off = 0x80 then put { m with vfOvr := m.vfOvr && !bit v 4, vfReady := bit v 5 }
    else s

/-- Sends the held message of a vector that a write has unmasked (09 R294). -/
def State.unmask (s : State) (key : Nat) : State :=
  let fn := if key < 2 ^ 26 then 0 else (key - 2 ^ 26) / 0x1000
  let v := (if key < 2 ^ 26 then key - 0x8000 else (key - 2 ^ 26) % 0x1000) / 16
  let f := s.fnSt fn
  if f.msixPend.contains v && !s.msixMasked fn v && !f.d3hot then
    ({ s with fns := mset FnSt.reset s.fns fn { f with msixPend := f.msixPend.erase v } }).msix fn v
  else s

/-- Sends every held message of a function that nothing holds any more. -/
def State.sendHeld (s : State) (fn : Nat) : State :=
  let f := s.fnSt fn
  let go := f.msixPend.filter (fun v => !s.msixHeld fn v)
  go.reverse.foldl (fun s v => s.msix fn v)
    { s with fns := mset FnSt.reset s.fns fn { f with msixPend := f.msixPend.filter (fun v => s.msixHeld fn v) } }

/-- A configuration write: power state apart, which has a command of its own. Offsets are those of `cfgWord`. -/
def State.writeCfg (s : State) (fn : Fn) (off v : Nat) : State :=
  let f := s.fnSt fn.val
  let put := fun (x : FnSt) => { s with fns := mset FnSt.reset s.fns fn.val x }
  match off with
  | 0x10 => put { f with bar0 := f.bar0 / 2 ^ 32 * 2 ^ 32 + v }
  | 0x14 => put { f with bar0 := f.bar0 % 2 ^ 32 + 2 ^ 32 * v }
  | 0x18 => put { f with bar2 := f.bar2 / 2 ^ 32 * 2 ^ 32 + v }
  | 0x1C => put { f with bar2 := f.bar2 % 2 ^ 32 + 2 ^ 32 * v }
  | 0x104 => (put { f with msixMask := bit v 30, msixEn := bit v 31 }).sendHeld fn.val
  | 0x108 =>
      put { f with mps := (if bits v 7 5 ≤ 2 then bits v 7 5 else f.mps), mrrs := (if bits v 14 12 ≤ 5 then bits v 14 12 else f.mrrs) }
  | 0x10C => put { f with aer := f.aer && !bit v 22 }
  | 0x110 => if fn = 0 then { s with pci := { s.pci with vfEnable := bit v 0 } } else s
  | 0x11C =>
      if fn = 0 ∧ 10 ≤ bits v 13 8 ∧ bits v 13 8 ≤ 21 then { s with pci := { s.pci with bar2Exp := bits v 13 8 + 20 } } else s
  | _ => s

/-- A write of one word to a place. -/
def State.writePlace (s : State) (fn : Fn) (p : RegPlace) (v : Nat) : State :=
  match p with
  | .map o => s.writeWord fn o v
  | .vfStatus vf =>
      { s with vfErr := mset 0 s.vfErr vf (mget 0 s.vfErr vf &&& ~~~ BitVec.ofNat 32 v) }
  | .msixWord k => (s.setReg k v).unmask k
  | .mailbox vf pfSide o => s.writeMailbox vf pfSide o v
  | .cfg o => s.writeCfg fn o v
  | .readOnly | .own | .companion _ => s
  | .absent => s.setErr fn 0

/-- Does the function have the window of a bolt: the PF every one, a VF that of its bolt in the live scene? (09 R290) -/
def State.ownsWindow (s : State) (fn : Fn) (b : Nat) : Bool := fn = 0 || s.fnBolt fn.val == some b

/-- Does a halted device take a write here? Only the GLB and INC blocks answer (14 R457). -/
def haltTakes (fn : Fn) (off : Nat) : Bool :=
  fn = 0 && (decide (off < 0x7F00) || decide (0x40000 ≤ off ∧ off < 0x50000))

/-- Can the function's registers be accessed now? Not while PERST0_n holds the host link down (15 R486). -/
def State.regsUp (s : State) (fn : Fn) (off : Nat) : Bool :=
  s.pins.perst0N && s.pins.inReset.isNone && s.pins.resetN && s.pins.pwrGood && (!s.inc.halted || haltTakes fn off)
    && (s.fnOn fn.val || decide (cfgBase ≤ off))

/-- Are two words of an invalidation slot written together by an aligned 64-bit write here? (05 R158) -/
def invPair (off : Nat) : Bool := decide (0x51000 ≤ off ∧ off < 0x51800) && off % 8 == 0

/-- Does an aligned 64-bit access at a register of the map find a pair? (00 R6, 05 R158) -/
def takes64 (off : Nat) : Bool := isPairLo off || invPair off

/-- REGISTER_WRITE (R5 to R8). `wide` is an aligned 64-bit write, which only a register pair takes: word 7 of an invalidation slot
is submitted by the command of its kind. -/
def execRegisterWrite (fn : Fn) (off : Nat) (wide : Bool) (val : BitVec 64) (s : State) :
    Host.Outcome State Fault Refusal :=
  .next (
    if !s.regsUp fn off then s
    else if off % 4 ≠ 0 ∨ (wide ∧ off % 8 ≠ 0) then s.setErr fn 1
    else if wide then
      match regPlace s fn off with
      | .map o =>
          if !takes64 o then s.setErr fn 1
          else if invPair o then (s.writeWord fn o (val.toNat % 2 ^ 32)).writeWord fn (o + 4) (val.toNat / 2 ^ 32)
          else if ownRow o || ownRow (o + 4) then s
          else match regDef o with
            | some r => if mayWrite fn r then s.writePair fn o (val.toNat % 2 ^ 32) (val.toNat / 2 ^ 32) else s.setErr fn 0
            | none => s
      | .absent => s.setErr fn 0
      | .readOnly => if fn ≠ 0 ∧ off = 0x20000 then s else s.setErr fn 1
      | _ => s.setErr fn 1
    else s.writePlace fn (regPlace s fn off) (val.toNat % 2 ^ 32))

/-- UNIMPLEMENTED_ACCESS (R6): a read returns 0, a write is dropped; either sets UNIMPL. At an implemented offset the
command names no event, and nothing changes. -/
def execUnimplementedAccess (fn : Fn) (off : Nat) (write : Bool) (s : State) : Host.Outcome State Fault Refusal :=
  .next (
    if !s.regsUp fn off then s
    else match regPlace s fn off with
      | .absent => if write then s.setErr fn 0 else (s.setErr fn 0).emit (.readData fn.val off 0)
      | _ => s)

/-- UNSUPPORTED_WIDTH_ACCESS (R6): an access of another width or alignment reads 0 or is dropped, and sets WIDTH. -/
def execUnsupportedWidthAccess (fn : Fn) (off : Nat) (write : Bool) (s : State) : Host.Outcome State Fault Refusal :=
  .next (
    if !s.regsUp fn off then s
    else if write then s.setErr fn 1 else (s.setErr fn 1).emit (.readData fn.val off 0))

end Sys2Proof.Machine
end

