-- ==== Sys2Proof/Machine/ReadRegs.lean ====
section
/-! DEFINITION. What registers read (00 R5 to R7): fields that show the state of a unit, beside those stored. -/

namespace Sys2Proof.Machine

/-- GLB_BOOT (13 R413). -/
def State.bootWord (s : State) : Nat :=
  s.fw.stage + 8 * b2n s.fw.ready + 16 * b2n s.fw.slot + 32 * b2n s.fw.trial + 64 * b2n s.fw.fallback + 256 * s.fw.fail

/-- Is part of a bit map set for the sites of word `w`? -/
def bitmap (l : List Nat) (w : Nat) : Nat := ((List.range 32).map (fun k => if l.contains (32 * w + k) then 2 ^ k else 0)).sum

/-- GLB block: identity, boot, straps, dark map, channels (00; 04 R110; 05 R173; 13 R413; 15 R479). -/
def State.glbWord (s : State) (off : Nat) : Nat :=
  if off = 0x10 then s.bootWord
  else if off = 8 ∨ off = 0x14 then (if off = 8 then s.runImg.ifVer.toNat else s.runImg.imgVer.toNat)
  else if off = 0x20 then s.pins.strap.toNat
  else if off = 0x24 then s.pins.rstCause
  else if 0x100 ≤ off ∧ off < 0x120 then bitmap s.fw.dark ((off - 0x100) / 4)
  else s.reg off

/-- STU_STATE (06). -/
def State.stuWord (s : State) : Nat := s.stu.mode.code + 4 * b2n s.stu.alignOk + 256 * s.errBound

/-- STU block (06). -/
def State.stuReg (s : State) (off : Nat) : Nat :=
  if off = 0 then s.time.toNat % 2 ^ 32
  else if off = 4 then s.time.toNat / 2 ^ 32
  else if off = 0x14 then s.stuWord
  else if off = 0x20 then s.stu.freq.toNat
  else if off = 0x24 then ofInt 32 s.stu.phase
  else s.reg (0x20000 + off)

/-- PWR block (11). VADJ is free: a signed adjustment of at most 25 mV. -/
def State.pwrReg (s : State) (off : Nat) : Nat :=
  if off = 8 then
    s.reg 0x30008 + b2n s.power.scaled + 2 * b2n s.power.limited
      + 4 * b2n ([0, 1, 2, 3].any (fun p => decide ((s.panel p).duty < 64)))
  else if off = 0xC then (s.loom.live.bolts.map (fun r => r.pwrRes)).sum
  else if off = 0x10 then s.power.input
  else if off = 0x14 then s.pins.vin
  else if off = 0x18 then s.power.fixed
  else if off = 0x1C then s.power.unres
  else if 0x40 ≤ off ∧ off < 0xC0 then
    let x := s.panel ((off - 0x40) / 0x20)
    if off % 0x20 = 0 then x.op + 16 * x.floor + 256 * x.ceil + 4096 * x.duty
    else if off % 0x20 = 4 then x.pace
    else x.tj + 256 * ofInt 8 ((Config.freeNat s.freeCtr % 51 : Nat) - 25)
  else if 0xC0 ≤ off ∧ off < 0x100 then
    let n := (off - 0xC0) / 4
    opPace n + 4096 * s.fw.optMv.getD n 0 + 2 ^ 22 * opTilew n
  else s.reg (0x30000 + off)

/-- INC block (14 R446 to R449). -/
def State.incReg (s : State) (off : Nat) : Nat :=
  let u := s.src (s.reg 0x40020)
  let time := fun (v : Option (Nat × Option Nat × DWord)) => (v.map (fun x => x.2.2.toNat)).getD 0
  if off = 0 then s.reg 0x40000 + 4 * b2n s.inc.halted + 8 * b2n (!s.inc.fatal.isEmpty)
  else if off = 4 then s.inc.head
  else if off = 8 then (s.inc.head + 4032 - s.inc.cnt) % 4032
  else if off = 0xC then s.inc.cnt
  else if off = 0x10 then s.inc.fatal.length
  else if off = 0x24 then (u.first.map (fun v => viewWord v + 2 ^ 31)).getD 0
  else if off = 0x28 then time u.first % 2 ^ 32
  else if off = 0x2C then time u.first / 2 ^ 32
  else if off = 0x30 then (u.last.map viewWord).getD 0
  else if off = 0x38 then time u.last % 2 ^ 32
  else if off = 0x3C then time u.last / 2 ^ 32
  else if off = 0x40 then u.dropCnt.val % 2 ^ 32
  else if off = 0x44 then u.dropCnt.val / 2 ^ 32 + 2 ^ 31 * b2n u.dropCnt.sat
  else if 0x1000 ≤ off ∧ off < 0x2000 then
    wordAt (s.slotBytes (64 * s.reg 0x40048 + (off - 0x1000) / 64)) (off % 64 / 4)
  else s.reg (0x40000 + off)

/-- The code of a region's state in SEC_REG_INFO (12). -/
def RegionSt.code : RegionSt → Nat
  | .clear => 0
  | .keyless => 1
  | .init => 2
  | .ready => 3
  | .rekey => 4

/-- Is a debug session open? (12 R398, R400) -/
def State.dbgOpen (s : State) : Bool :=
  s.sec.grants.any (fun (e : Nat × Option GrantSt) => (e.2.map (fun (g : GrantSt) => g.authed)).getD false)

/-- Is this an engineering part with DBG_ALLOW asserted? (12 R400) -/
def State.engOn (s : State) : Bool := s.fw.eng && bit s.pins.strap.toNat 17

/-- SEC block (12). -/
def State.secReg (s : State) (off : Nat) : Nat :=
  let k := s.reg 0x60004
  let q := s.regRun k
  if off = 0 then
    b2n s.sec.rngOk + 2 * b2n (s.dbgOpen || s.engOn) + 4 * b2n s.engOn
      + 256 * (s.sec.regions.filter (fun e => e.2.st == .rekey)).length
  else if off = 8 then
    match s.loom.live.regions[k]? with
    | none => 0
    | some r => r.bolt + 64 * (match r.mode with
        | .clear => 0
        | .veiled => 1
        | .sealed => 2) + 256 * q.st.code + 2 ^ 16 * (q.gen % 2 ^ 16)
  else if off = 0x10 then q.sealedCount % 2 ^ 32
  else if off = 0x14 then q.sealedCount / 2 ^ 32 % 2 ^ 16
  else if off = 0x18 then q.moved % 2 ^ 32
  else if off = 0x1C then q.moved / 2 ^ 32 % 2 ^ 16
  else s.reg (0x60000 + off)

/-- Stagehand restarts of the last 10 s (13 R423). -/
def State.shWindow (s : State) : List (Nat × Nat) := s.fw.shTimes.filter (fun e => decide (s.now < e.1 + 10 * giga))

/-- FWM block (13 R428). -/
def State.fwmReg (s : State) (off : Nat) : Nat :=
  if 0x40 ≤ off ∧ off < 0x60 then
    let c := mget FwCore.reset s.fw.cores ((off - 0x40) / 4)
    (match c.mode with
     | .running => 0
     | .restarting => 1
     | .cpStopped => 2) + 256 * c.restarts
  else if off = 0x60 then min 7 s.shWindow.length + 256 * s.fw.cpResets + 2 ^ 16 * b2n s.fw.hpUp
  else if off = 0x8000 then s.fw.bookSeq
  else if off = 0x8014 then (mget 0 s.fw.tm s.tmKey).toNat
  else if 0x9000 ≤ off ∧ off < 0xA000 then
    match s.bookAt (128 * s.reg 0x78004 + (off - 0x9000) / 32) with
    | some r => wordAt r.bytes (off % 32 / 4)
    | none => 0
  else s.reg (0x70000 + off)

/-- LOM_STATE (08). -/
def State.loomWord (s : State) : Nat :=
  (match s.loom.mode with
   | .steady => 0
   | .armed => 1
   | .draining => 2) + 4 * b2n s.liveBit + 8 * b2n (!s.loom.movePend.isEmpty)

/-- LOM block (08). -/
def State.lomReg (s : State) (off : Nat) : Nat :=
  let fire := (packTime ((s.loom.next.map (fun c => c.fire)).getD s.loom.cueAt)).toNat
  let gone := (packTime s.loom.retiredAt).toNat
  if off = 0 then s.loom.live.num.toNat
  else if off = 4 then ((s.loom.old.map (fun c => c.num)).getD s.loom.live.num).toNat
  else if off = 8 then s.loomWord
  else if off = 0xC then ((s.loom.next.map (fun (c : Scene) => c.num)).getD 0).toNat
  else if off = 0x10 then fire % 2 ^ 32
  else if off = 0x14 then fire / 2 ^ 32
  else if off = 0x18 then gone % 2 ^ 32
  else if off = 0x1C then gone / 2 ^ 32
  else if 0x30 ≤ off ∧ off < 0x60 then
    bitmap ((s.loom.scrubs.filter (fun e => e.2.2.isSome)).map (fun e => e.1)) ((off - 0x30) / 4)
  else if 0x8000 ≤ off then leNat ((List.range 4).map (fun k => BitVec.ofNat 8 (s.distByte (off - 0x8000 + k))))
  else s.reg (0x80000 + off)

/-- The code of a context's state in CTX_STAT (09). -/
def CtxMode.code : CtxMode → Nat
  | .empty => 0
  | .loading => 1
  | .ready => 2
  | .running => 3
  | .draining => 4
  | .resetting => 5
  | .striking => 6
  | .teardown => 7

/-- Flags of a bolt record, PRIV first (08 LOM_BLT_FLAGS, 12 R408). -/
def BoltRec.flags (r : BoltRec) : Nat :=
  b2n r.priv + 2 * b2n r.mirror + 4 * b2n r.legacy + 8 * b2n r.elastic + 16 * b2n r.linkSeal

/-- Words of the head entry of a fault queue (05 R165). -/
def FqEntry.words (e : FqEntry) : List Nat :=
  let why := match e.reason with
    | .unmapped => 0
    | .noRead => 1
    | .noWrite => 2
    | .malformed => 3
    | .enc => 4
  [e.seq + 2 ^ 16 * e.stream + 2 ^ 20 * b2n e.dstSide + 2 ^ 21 * b2n e.writes + 2 ^ 22 * why + 2 ^ 26 * e.level,
   e.ltile + 2 ^ 16 * e.site, e.addr.toNat % 2 ^ 32, e.addr.toNat / 2 ^ 32, e.tag.toNat, e.scene.toNat,
   e.time.toNat % 2 ^ 32, e.time.toNat / 2 ^ 32]

/-- Does a debug grant in force cover a bolt? (12 R400, SEC_BLT_STAT) -/
def State.dbgCovers (s : State) (b : Nat) : Bool :=
  s.engOn || s.sec.grants.any (fun (e : Nat × Option GrantSt) => (e.2.map (fun (g : GrantSt) => bit g.bolts.toNat b)).getD false)

/-- Regions of a bolt with their keying state. -/
def State.regsOf (s : State) (b : Nat) : List (Region × RegRun) :=
  (s.loom.live.regions.zipIdx.filter (fun x => x.1.bolt == b)).map (fun x => (x.1, s.regRun x.2))

/-- Is the bolt's mirrored data on the twin? (14 R461, R464, MIR_STAT) -/
def State.mirrorOn (s : State) (b : Nat) : Bool :=
  s.twin.mode == .paired && !s.twin.unmirrored.contains b && ((s.loom.live.bolt? b).map (fun r => r.mirror)).getD false

/-- MIR_STAT (14): its live bits over the stored ones. -/
def State.mirWord (s : State) (b : Nat) : Nat :=
  let mir := ((s.loom.live.bolt? b).map (fun r => r.mirror)).getD false
  let alone := s.twin.mode != .paired && s.twin.mode != .syncing && s.twin.mode != .promoted
  s.reg (blt b 0x1100) + b2n (s.mirrorOn b) + 2 * b2n (mir && (alone || s.twin.unmirrored.contains b))
    + 4 * b2n (mget none s.twin.ckpt b).isSome + 32 * b2n (s.twin.alias_.contains b)

/-- The power view of a bolt (11). -/
def State.pwrBlt (s : State) (b off : Nat) : Nat :=
  let r := s.loom.live.bolt? b
  let x := s.shareInForce b
  if off = 0xD00 then
    (r.map (fun r => r.pwrRes + 2 ^ 12 * r.floorOp)).getD 0 + 2 ^ 16 * min x.total 511
  else if off = 0xD04 then x.compute + 2 ^ 12 * x.memory
  else
    x.links + 2 ^ 12 * b2n (s.power.cut.contains b)
      + 2 ^ 13 * b2n ((r.map (fun r => s.grantedFloor b != some r.floorOp)).getD false)

/-- Word of a bolt window (05 to 14) that shows a unit's state. SRV_STAT shows a build from its step's start on, and an update from
its step's end on (10 R325, R334, R340). -/
def State.bltReg (s : State) (b off : Nat) : Nat :=
  let r := s.loom.live.bolt? b
  let of := fun (f : BoltRec → Nat) => (r.map f).getD 0
  let fq := (mget FaultQueue.reset s.fq b).entries
  let st := (s.ctx b).steps
  let due := (st.head?.map (fun x => (packTime x.deadline).toNat)).getD 0
  if off = 0 then b + 2 ^ 8 * of (fun r => r.vf)
  else if off = 4 then s.runImg.ifVer.toNat
  else if off = 0x40 then (if s.boltFn b = 0 then 0 else (mget 0 s.vfErr (s.boltFn b)).toNat)
  else if off = 0x144 then s.reg (blt b 0x144) / 512 * 512 + min 256 (s.freedOf b).length
  else if off = 0x180 then (s.ctx b).mode.code + 2 ^ 8 * (s.ctx b).gen.toNat
  else if off = 0x808 then fq.length
  else if 0x840 ≤ off ∧ off < 0x860 then ((fq.head?.map FqEntry.words).getD []).getD ((off - 0x840) / 4) 0
  else if off = 0x900 then of (fun r => r.cueBase)
  else if off = 0x904 then of (fun r => r.cueCount)
  else if off = 0x908 then s.armedCount b
  else if off = 0x920 then of (fun r => r.guarClasses.toNat)
  else if off = 0x924 then s.guarFloor b
  else if off = 0x928 then
    s.reg (blt b 0x928) + 4 * b2n (st.any (fun x => x.guar)) + 8 * b2n (decide (2 ≤ st.length))
  else if off = 0x930 then due % 2 ^ 32
  else if off = 0x934 then due / 2 ^ 32
  else if off = 0xA00 then s.loom.live.num.toNat
  else if off = 0xA04 then of BoltRec.flags + 32 * b2n r.isSome + 64 * b2n (s.loom.movePend.contains b)
  else if off = 0xA08 then s.tileCount b + 2 ^ 8 * of (fun r => r.tiles) + 2 ^ 16 * (s.loom.live.chans b).length
  else if off = 0xA0C then
    min (2 ^ 24 - 1) ((s.loom.old.map (fun c => mget 0 s.loom.inflight (flightKey c.num b))).getD 0)
  else if off = 0xB2C then
    let at_ := fun (ended : Bool) => match st.head? with
      | some x => x.serving && x.start.isSome && x.ended == ended
      | none => false
    let items := (mget Serve.reset s.serve b).items
    s.reg (blt b 0xB2C) + b2n (bit (s.reg (blt b 0xB00)) 0 && at_ false && items.isNone) + 2 * b2n (at_ true && items.isSome)
  else if 0xB40 ≤ off ∧ off < 0xBC0 ∧ off % 0x20 = 4 then
    (mget Pool.reset (mget Serve.reset s.serve b).pools ((off - 0xB40) / 0x20)).count
  else if 0xC00 ≤ off ∧ off < 0xC10 then
    let k := (off - 0xC00) / 4
    s.limitOf b (2 * k) + 2 ^ 16 * s.limitOf b (2 * k + 1)
  else if 0xD00 ≤ off ∧ off < 0xD0C then s.pwrBlt b off
  else if off = 0xE00 then
    let l := s.regsOf b
    b2n (l.any (fun x => x.2.st == .ready || x.2.st == .rekey)) + 2 * b2n (l.any (fun x => x.2.st == .rekey))
      + 4 * b2n (s.dbgCovers b) + 8 * b2n (l.any (fun x => x.2.st == .init))
  else if off = 0xE04 then
    let l := s.regsOf b
    (l.filter (fun x => x.1.mode == .veiled)).length + 2 ^ 16 * (l.filter (fun x => x.1.mode == .sealed)).length
  else if off = 0xF18 then (mget 0 s.fw.trcMarks (b * 128 + bits (s.reg (blt b 0xF14)) 6 0)).toNat
  else if off = 0x1100 then s.mirWord b
  else s.reg (blt b off)

/-- The code of a port's state (07 R213). -/
def PortMode.code : PortMode → Nat
  | .down => 0
  | .train => 1
  | .align => 2
  | .param => 3
  | .up => 4
  | .retrain => 5
  | .failed => 6

/-- The code of the understudy's state (14 US_STAT). -/
def TwinMode.code : TwinMode → Nat
  | .solo => 0
  | .unpaired => 1
  | .syncing => 2
  | .paired => 3
  | .degraded => 4
  | .promoted => 5

/-- A Creust port's registers (07). -/
def State.cruReg (s : State) (p off : Nat) : Nat :=
  let x := s.port p
  if off = 4 then s.reg (cru p 4) + x.mode.code + 8 * b2n x.peerOk
  else if off = 8 then
    (match x.peer with
     | some (sw, m, q, _) => m + 2 ^ 12 * q + 2 ^ 17 * b2n sw
     | none => 0)
  else if off = 0xC then min x.delay 65535
  else s.reg (cru p off)

/-- Common Creust registers and the understudy's (07, 14). -/
def State.crucReg (s : State) (off : Nat) : Nat :=
  if off = 0 then s.modNum
  else if off = 8 then s.sessUsed
  else if off = 0x100 then
    s.twin.role + 4 * s.twin.roleEff + 16 * s.twin.mode.code + 128 * b2n s.twin.okIn + 256 * s.twin.twin
  else if off = 0x108 then s.twin.syncLeft % 2 ^ 32
  else if off = 0x10C then s.twin.syncLeft / 2 ^ 32
  else s.reg (0x224000 + off)

/-- What a register of the map reads, by PF BAR0 offset; a counter pair shows its count and SAT (14 R452), and WO fields
read 0 (00 R5). -/
def State.readWord (s : State) (off : Nat) : Nat :=
  match regDef off with
  | none => 0
  | some r =>
    if r.attr = .counter then
      let lo : Bool := ((regBlock off).2 - r.off) % 8 == 0
      let c := s.ctr (if lo then off else off - 4)
      if lo then c.val % 2 ^ 32 else c.val / 2 ^ 32 + 2 ^ 31 * b2n c.sat
    else if off < 0x10000 then s.glbWord off
    else if off < 0x20000 then s.reg off
    else if off < 0x30000 then s.stuReg (off - 0x20000)
    else if off < 0x40000 then s.pwrReg (off - 0x30000)
    else if off < 0x50000 then s.incReg (off - 0x40000)
    else if off < 0x60000 then s.reg off
    else if off < 0x70000 then s.secReg (off - 0x60000)
    else if off < 0x80000 then s.fwmReg (off - 0x70000)
    else if off < 0x90000 then s.lomReg (off - 0x80000)
    else if off < 0x100000 then s.reg off
    else if off < 0x200000 then s.bltReg ((off - 0x100000) / 0x4000) (off % 0x4000)
    else if off < 0x224000 then s.cruReg ((off - 0x200000) / 0x2000) (off % 0x2000)
    else s.crucReg (off - 0x224000)

end Sys2Proof.Machine
end

