-- ==== Sys2Proof/Machine/ResetOps.lean ====
section
/-! DEFINITION. Resets of the module, straps and the start of boot (13_firmware_booth.md R410, R413, R417, R439;
15_module_electrical.md R478, R479, R483 to R485). -/

namespace Sys2Proof.Machine

/-! ### What a reset leaves -/

/-- What the flash and the fuses keep (13 R414 to R417, R437; 12 R376). -/
def Fw.kept (f : Fw) : Fw :=
  { Fw.reset with
    imgA := f.imgA, imgB := f.imgB, prefer := f.prefer, trialSlot := f.trialSlot, trialRan := f.trialRan, prefSeq := f.prefSeq,
    fuseSvn := f.fuseSvn, enrolCnt := f.enrolCnt, loomKey := f.loomKey, caKey := f.caKey, staged := f.staged,
    serial := f.serial, subsys := f.subsys, eng := f.eng, dark := f.dark, optMv := f.optMv }

/-- Every unit stops and every register, key, cue, context and ledger is lost; the contents of memory become undefined
(15 R484, R485). The pins, the flash and the fuses stay. -/
def State.cleared (s : State) : State :=
  let d := s.draw
  { State.reset with
    hbm := Mem.empty.forget 0 hbmBytes d.2
    hbmUe := []
    cxl := Mem.empty.forget 0 (2 ^ 49) d.2
    fw := s.fw.kept
    twin := { Twin.reset with okIn := s.twin.okIn }
    pins := { s.pins with
      faultN := true, twinOkOut := false, cxlPerstN := false, boothPhyRstN := false, inReset := none, dbgReg := 0,
      dbgPending := false }
    freeCtr := d.1.freeCtr
    out := s.out
    pending := s.pending }

/-- An internal reset, or one by RESET_N, begins (15 R485): 1 RESET_N, 2 MODULE_RESET, 3 FW_ACTIVATE. -/
def State.beginReset (s : State) (cause : Nat) : State :=
  let s := s.cleared
  { s with pins := { s.pins with inReset := some cause } }

/-- The main rails go off (15 R484): THERMTRIP_n is released with them, and RESET_N counts as asserted until the sequence of
R483 ends. -/
def State.powerLoss (s : State) : State :=
  if !s.pins.pwrGood then s
  else
    let s := s.cleared
    { s with pins := { s.pins with pwrGood := false, thermTripN := true, resetN := false, ir := 2 } }

/-- The main rails come up (15 R483), if PWR_EN is asserted, has been deasserted since a loss of power, and the input is there.
-/
def State.powerUp (s : State) : State :=
  let p := s.pins
  if p.pwrEn ∧ !p.needCycle ∧ !p.pwrGood ∧ 52000 ≤ p.vin ∧ p.vin ≤ 60000 then
    { s with pins := { p with pwrGood := true, resetN := false, inReset := none } }
  else s

/-! ### Straps (15 R478, R479) -/

/-- A strap whose encoding 3 is reserved, as taken. -/
def strapTaken (v insteadOf3 : Nat) : Nat := if v = 3 then insteadOf3 else v

/-- GLB_STRAP for the straps sampled. -/
def strapWord (k : Sys2Proof.Straps) : Nat :=
  let bad := k.role.toNat = 3 ∨ k.bootsel.toNat = 3 ∨ k.tsrc.toNat = 3
  strapTaken k.role.toNat 0 + 4 * b2n k.hostw + 8 * strapTaken k.bootsel.toNat 0 + 32 * strapTaken k.tsrc.toNat 2
    + 128 * k.modnumLo.toNat + 8192 * k.boothAddr.toNat + 2 ^ 17 * b2n k.dbgAllow + 2 ^ 18 * b2n (decide bad)

/-- BOOTSEL as taken: 0 automatic, 1 slot A, 2 slot B. -/
def State.bootsel (s : State) : Nat := bits s.pins.strap.toNat 4 3

/-- ROLE and TSRC take effect: US_STAT.ROLE, STU_CTL.SRC and the state the STU starts in, at stage time 0 (06 R180). -/
def State.applyStraps (s : State) : State :=
  let w := s.pins.strap.toNat
  let role := bits w 1 0
  let src := bits w 6 5
  let s := s.setReg 0x20010 (4 + src)
  { s with
    twin := { s.twin with role := role, roleEff := role, mode := if role = 0 then .solo else .unpaired }
    stu := { Stu.reset with mode := if src = 2 then StuMode.free else StuMode.acquire } }

/-! ### The start of boot (13 R410, R417, R439) -/

/-- BOOT_FALLBACK: failing slot, FAIL code or 0x10 for an unconfirmed trial, failing stage (13 R440). -/
def State.fallbackReport (s : State) (slot : Bool) (code stage : Nat) : State :=
  s.raise unitHp 0x185 1 none (b2n slot) code stage

/-- Chooses the slot: BOOTSEL's, or the trial slot of a trial not yet begun, or the preferred slot; a trial that a reset has
ended falls back to it. -/
def State.chooseSlot (s : State) : State :=
  let f := s.fw
  if s.bootsel ≠ 0 then { s with fw := { f with slot := s.bootsel == 2 } }
  else match f.trialSlot with
    | none => { s with fw := { f with slot := f.prefer } }
    | some t =>
      if f.trialRan then
        let s := { s with fw := { f with slot := f.prefer, fallback := true, trialSlot := none, trialRan := false } }
        s.fallbackReport t 0x10 0
      else { s with fw := { f with slot := t, trial := true, trialRan := true } }

/-- RESET_N is deasserted, or an internal reset ends: the straps are sampled and the boot ROM runs. -/
def State.startBoot (s : State) (k : Sys2Proof.Straps) (cause : Nat) : State :=
  let s := { s with pins := { s.pins with
    inReset := none, resetN := true, strap := BitVec.ofNat 32 (strapWord k), rstCause := cause } }
  let s := s.applyStraps.chooseSlot
  { s with fw := { s.fw with bootAt := s.now } }

/-- The other slot is booted from stage 1: a trial ends there (13 R413, R439). -/
def State.fallBack (s : State) (code stage : Nat) : State :=
  let f := s.fw
  let s := { s with
    fw := { f with
      slot := !f.slot, fallback := true, trial := false, trialSlot := none, trialRan := false, stage := 0, fail := 0,
      hashes := [], hpUp := false, sess := [], bootAt := s.now }
    pins := { s.pins with boothPhyRstN := false } }
  s.fallbackReport f.slot code stage

/-- A stage fails (13 R413): the other slot is booted, once and with BOOTSEL automatic, unless SEC's self-test, its entropy or
stage 1 failed; else the module stops in the stage with FAIL set. -/
def State.stageFails (s : State) (stage code : Nat) : State :=
  if s.bootsel = 0 ∧ !s.fw.fallback ∧ stage ≠ 1 ∧ code < 6 then s.fallBack code stage
  else { s with fw := { s.fw with stage := stage, fail := code, bootStopped := true } }

end Sys2Proof.Machine
end

