-- ==== Sys2Proof/Machine/Firmware.lean ====
section
/-! DEFINITION. Boot, the stage door and control-plane resets (13_firmware_booth.md R410 to R425). -/

namespace Sys2Proof.Machine

/-! ### Boot (R410 to R417, R439) -/

/-- RESET_N_DEASSERT (R410; 15 R479, R483): with the rails up, the straps are sampled and the boot ROM runs. -/
def execResetNDeassert (straps : Straps) (s : State) : Host.Outcome State Fault Refusal :=
  .next (
    if !s.pins.pwrGood ∨ s.pins.resetN then s
    else s.startBoot straps (s.pins.inReset.getD 0))

/-- GLB_ID (00). -/
def glbId : Nat := 0x02A12160

/-- The failure that a slot's image brings to any stage: unverified, a broken manifest, another part, an SVN below the fuse
(R413, R415, R416). -/
def State.imgFault (s : State) (x : SlotImg) : Nat :=
  if !x.bootable then 1 else if !x.magicOk then 4 else if x.id.toNat ≠ glbId then 3 else if x.svn < s.fw.fuseSvn then 2 else 0

/-- A stage has been verified and has done its work (R410): SEC and its entropy, the CXL ports; the booth; the channels that
trained; the stagehands, READY and TWIN_OK_OUT. -/
def State.stageDone (s : State) (n : Nat) (hash : BitVec 256) (hbmOk : List Word) : State :=
  let s := { s with fw := { s.fw with stage := n, hashes := s.fw.hashes ++ [hash] } }
  match n with
  | 1 => { s with sec := { s.sec with rngOk := true, rngFails := 0 }, pins := { s.pins with cxlPerstN := true } }
  | 2 => { s with fw := { s.fw with hpUp := true }, pins := { s.pins with boothPhyRstN := true } }
  | 3 => (List.range 12).foldl (fun s k => s.setReg (0x200 + 4 * k) (hbmOk.getD k 0).toNat) s
  | _ => { s with fw := { s.fw with ready := true }, pins := { s.pins with twinOkOut := true } }

/-- BOOT_STAGE (R410, R413): the next stage is loaded and verified, and runs or fails. -/
def execBootStage (r : StageResult) (s : State) : Host.Outcome State Fault Refusal :=
  .next (
    let n := s.fw.stage + 1
    if !s.live ∨ s.fw.bootStopped ∨ s.fw.ready ∨ 4 < n then s
    else if s.imgFault s.runImg ≠ 0 then s.stageFails n (s.imgFault s.runImg)
    else match r with
      | .good hash hbmOk => s.stageDone n hash hbmOk
      | .fail code => if code.val = 0 then s else s.stageFails n code.val)

/-- TRIAL_TIMEOUT (R439): a trial boot that has not reached READY within 10 s falls back. -/
def execTrialTimeout (s : State) : Host.Outcome State Fault Refusal :=
  .next (
    if !s.live ∨ !s.fw.trial ∨ s.fw.ready ∨ s.now < s.fw.bootAt + 10 * giga then s
    else
      let s := s.fallBack 0x10 s.fw.stage
      { s with fw := { s.fw with bootStopped := false } })

/-! ### The message-queue unit (R420) -/

/-- How the unit answers a core. -/
inductive MqAnswer
  | ok
  /-- all 256 slots of the queue hold a message -/
  | full
  /-- the core is not the queue's -/
  | refused
  deriving DecidableEq, Repr

/-- Messages in a queue of the unit, oldest first. -/
def State.mqueue (s : State) (q : Nat) : List (BitVec 512) := mget [] s.fw.mq q

/-- Replaces them. -/
def State.setMqueue (s : State) (q : Nat) (l : List (BitVec 512)) : State := { s with fw := { s.fw with mq := mset [] s.fw.mq q l } }

/-- Is the core the one that stage 4 has fixed for an end of a queue? -/
def State.mqOwner (s : State) (q core owner : Nat) : Bool := decide (q < 64) && decide (4 ≤ s.fw.stage) && core == owner

/-- A core sends a message of 64 bytes to a queue: its producer alone may, and a full queue is left as it is. -/
def State.mqSend (s : State) (core q : Nat) (m : BitVec 512) : State × MqAnswer :=
  if !s.mqOwner q core (Config.mqProducer q) then (s, .refused)
  else if 256 ≤ (s.mqueue q).length then (s, .full)
  else (s.setMqueue q (s.mqueue q ++ [m]), .ok)

/-- A core takes the oldest message of a queue: its consumer alone may. -/
def State.mqTake (s : State) (core q : Nat) : State × MqAnswer × Option (BitVec 512) :=
  if !s.mqOwner q core (Config.mqConsumer q) then (s, .refused, none)
  else match s.mqueue q with
    | [] => (s, .ok, none)
    | m :: l => (s.setMqueue q l, .ok, some m)

/-! ### The stage door (R421, R423 to R425) -/

/-- A core's record. -/
def State.core (s : State) (n : Nat) : FwCore := mget FwCore.reset s.fw.cores n

/-- Changes a core's state. -/
def State.setCore (s : State) (n : Nat) (v : FwCore) : State :=
  { s with fw := { s.fw with cores := mset FwCore.reset s.fw.cores n v } }

/-- Does a stagehand serve bolts? (R418) -/
def servesBolts (n : Nat) : Bool := n != 5 && n != 6

/-- Steps 2 and 4 of a control-plane reset: every started call completes JOB_ENDED, every queue enters STOPPED, the eight
stagehands stop to reload, and the restart count clears (R423). -/
def State.cpQueues (s : State) : State :=
  let s := s.sceneBolts.foldl (fun s b => s.endJob b) s
  let s := (List.range 8).foldl (fun s n => s.setCore n { s.core n with mode := .cpStopped }) s
  { s with fw := { s.fw with shTimes := [], cpResets := min 255 (s.fw.cpResets + 1), cpAt := some s.now } }

/-- Step 3: a lead with a twin tells it in the U-link session (R423; 14 R467). -/
def State.cpTell (s : State) : State :=
  if s.twin.mode = .paired ∨ s.twin.mode = .syncing then
    match [16, 17].find? (fun p => s.portUp p) with
    | some p => s.emit (.twin p 0 2 0)
    | none => s
  else s

/-- Every bolt is reset, or torn down when LEGACY, with CP_RESET once for each that held a context; the bolts that held none
halt as well (R423; 01 R22). -/
def State.cpBolts (s : State) (n causes : Nat) : State :=
  let held := s.sceneBolts.filter (fun b => (s.ctx b).mode != .empty)
  let s := held.foldl (fun s b => s.raise (unitSh n) 0x181 3 (some b) causes 0 0) s
  s.sceneBolts.foldl (fun s b => s.boltStop b 0x3181) s

/-- A control-plane reset begun by stagehand `n` (R423); a second within 60 s halts the device (R424). `causes` packs the causes of
the four restarts. -/
def State.cpReset (s : State) (n causes : Nat) : State :=
  match s.fw.cpAt with
  | some t =>
    if s.now < t + 60 * giga then s.raise (unitSh n) 0x182 4 none ((s.now - t) / giga) 0 0
    else
      (s.cpBolts n causes).cpQueues.cpTell
  | none =>
    (s.cpBolts n causes).cpQueues.cpTell

/-- The stage door restarts a stagehand (R421): guaranteed steps of every bolt are void for cause 9 when it serves bolts; the
fourth restart in 10 s is a control-plane reset instead (R423). -/
def State.shRestart (s : State) (n cause mcause : Nat) : State :=
  let w := s.shWindow
  if 3 ≤ w.length then
    let cs := (w.drop (w.length - 3)).map (fun e => e.2) ++ [cause]
    s.cpReset n (((cs.zipIdx).map (fun x => x.1 * 4 ^ x.2)).sum)
  else
    let c := s.core n
    let s := s.setCore n ⟨.restarting, min 255 (c.restarts + 1)⟩
    let s := { s with fw := { s.fw with shTimes := w ++ [(s.now, cause)] } }
    let s := s.raise (unitSh n) 0x180 1 none cause mcause (w.length + 1)
    if servesBolts n then s.sceneBolts.foldl (fun s b => s.voidSteps b 9 (unitSh n)) s else s

/-- Both house processor cores restart (R425): sessions drop and staging buffers go; the fourth restart in 10 s leaves them
stopped until module reset. -/
def State.hpRestart (s : State) (cause mcause : Nat) : State :=
  let w := s.fw.hpTimes.filter (fun t => decide (s.now < t + 10 * giga))
  let s := (List.range 4).foldl (fun s k => s.closeBooth k) s
  let s := { s with fw := { s.fw with
      hpUp := false, hpTimes := w ++ [s.now], loomOwner := none, loomBuf := [], loomLen := 0, stageOwner := none, stageLen := 0 } }
  let s := [8, 9].foldl (fun s n => s.setCore n ⟨.restarting, min 255 ((s.core n).restarts + 1)⟩) s
  if 3 ≤ w.length then ({ s with fw := { s.fw with hpDown := true } }).raise unitHp 0x184 1 none 0 0 0
  else s.raise unitHp 0x183 1 none cause mcause (w.length + 1)

/-- Does the stage door watch a core: has it been started by boot, and not stopped? (R421, R425) -/
def State.watched (s : State) (n : Nat) : Bool :=
  s.live && (s.core n).mode != .cpStopped && (if n < 8 then s.fw.ready else decide (2 ≤ s.fw.stage) && !s.fw.hpDown)

/-- HEARTBEAT_LAPSE (R421): a serving core has written no heartbeat for 4 ms. -/
def execHeartbeatLapse (core : Fin 10) (s : State) : Host.Outcome State Fault Refusal :=
  .next (
    if !s.watched core.val ∨ (s.core core.val).mode ≠ .running then s
    else if core.val < 8 then s.shRestart core.val 0 0
    else s.hpRestart 0 0)

/-- CORE_TRAP (R419, R421): a trap, or an access outside the PMP entries, restarts the core; during its own restart it begins
a further one. -/
def execCoreTrap (core : Fin 10) (pmp : Bool) (mcause : BitVec 64) (s : State) : Host.Outcome State Fault Refusal :=
  .next (
    if !s.watched core.val then s
    else
      let cause := if pmp then 2 else 1
      if core.val < 8 then s.shRestart core.val cause mcause.toNat else s.hpRestart cause mcause.toNat)

/-- A call leaves the drain or the strike of a bolt, which goes on without it. -/
def Ctx.loseCall (c : Ctx) (q index : Nat) : Ctx :=
  { c with
    drain := c.drain.map (fun d => { d with calls := d.calls.filter (fun k => k != (q, index)) })
    strike := c.strike.map (fun k => if k.call = some (q, index) then { k with call := none } else k) }

/-- Has firmware accepted a call that starts next, and found what it needs of another module or of the host? -/
def State.underWay (s : State) (b q : Nat) (c : FetchedCall) : Bool :=
  s.ready b q == some c && (s.fwGot.any (fun g => g.need.bolt == b) || s.fwHeld.any (fun n => n.bolt == b))

/-- The journal record of a call fails: the call completes JOB_ENDED, when stagehand `n` has accepted it and not finished it
(13 R418, R422). A load leaves its slot; a drain or a strike goes on without its call (DESIGN CHOICE, log 126). -/
def State.loseCall (s : State) (n q index : Nat) : State :=
  match s.queueBolt q, (s.queue q).calls.find? (fun (x : FetchedCall) => x.index == index) with
  | some b, some c =>
    let done := ((s.updCtx b (fun x => x.loseCall q index)).fwDone b).complete q c (Completion.plain 0x11)
    (match n, callOp c.words with
     | 1, 7 => if c.waiting then done else s
     | 2, 2 =>
       if (s.ctx b).mode = .loading ∧ (s.ctx b).loadQ = some (q, index) then s.loadFail b 0x11 0
       else if s.underWay b q c then done else s
     | 2, 3 => if (s.ctx b).drain.any (fun d => d.calls.contains (q, index)) then done else s
     | 2, 0xC => if (s.ctx b).strike.any (fun k => k.call == some (q, index)) then done else s
     | 3, 4 | 3, 5 | 3, 0xB => if s.underWay b q c then done else s
     | _, _ => s)
  | _, _ => s

/-- A journal record that fails its CRC ends its operation with an error: a call JOB_ENDED, a command STATE, a booth request STATE
(13 R422). -/
def State.journalLost (s : State) (n : Nat) (r : JournalRec) : State :=
  match r with
  | .call q i => s.loseCall n q.val i.toNat
  | .command hif b =>
    let base := if hif then 0x10000 else blt b.val 0
    if n = 0 ∧ bit (s.reg (base + 0x11C)) 0 then s.cmdEndAt base (s.reg (base + 0x118)) 3 [] else s
  | .request ses b strike => if n = 2 then s.lateReply ses.val (if strike then 0x82 else 0x80) b.val boothState [] else s

/-- RESTART_COMPLETE (R422, R423, R425): a component serves again and replays its journal, but for the records that fail their
CRC-32; a control-plane reset leaves empty journals. The two house processor cores return together. -/
def execRestartComplete (r : CoreRestart) (s : State) : Host.Outcome State Fault Refusal :=
  .next (
    let c := s.core r.core.val
    if !s.live ∨ c.mode = .running ∨ (8 ≤ r.core.val ∧ s.fw.hpDown) then s
    else if r.core.val < 8 then
      let u := s.setCore r.core.val { c with mode := .running }
      if c.mode = .cpStopped then u else r.lost.foldl (fun s x => s.journalLost r.core.val x) u
    else
      let s := [8, 9].foldl (fun s n => s.setCore n { s.core n with mode := .running }) s
      { s with fw := { s.fw with hpUp := true } })

end Sys2Proof.Machine
end

