-- ==== Sys2Proof/Machine/LoomParse.lean ====
section
/-! DEFINITION. Reading and checking a loom image (08_loom_bolts.md R257 to R266; 04 R122 to R126, R131; 07 R245;
12 R383). -/

namespace Sys2Proof.Machine

/-! ### Bytes of an image -/

/-- An image as an array of bytes. -/
abbrev Image := Array Byte

/-- A staged buffer of `n` bytes as an image; bytes not written are 0. -/
def imageOf (buf : Sparse Byte) (n : Nat) : Image :=
  buf.foldl (fun a e => a.setIfInBounds e.1 e.2) (Array.replicate n 0)

/-- The little-endian number of `n` bytes at an offset. -/
def Image.num (m : Image) (off n : Nat) : Nat := leNat ((List.range n).map (fun k => m.getD (off + k) 0))

/-- Bytes of the signature at an image's end (R260). -/
def sigBytes : Nat := 29792

/-! ### Header and directory (R257 to R259) -/

/-- A directory entry. -/
structure Sect where
  type : Nat
  rsv : Nat
  off : Nat
  size : Nat
  count : Nat
  deriving DecidableEq, Repr

/-- The outcome of a commit: status, failing check, section, record index (R269). -/
structure LoomRes where
  status : Nat
  check : Nat
  sect : Nat
  rec_ : Nat
  deriving DecidableEq, Repr

/-- Directory entries of an image. -/
def Image.nsect (m : Image) : Nat := bits (m.num 4 4) 20 16

/-- Directory entry `k`. -/
def Image.entry (m : Image) (k : Nat) : Sect :=
  let o := 0x40 + 16 * k
  ⟨m.num o 2, m.num (o + 2) 2, m.num (o + 4) 4, m.num (o + 8) 4, m.num (o + 12) 4⟩

/-- The directory. -/
def Image.dir (m : Image) : List Sect := (List.range m.nsect).map (fun k => m.entry k)

/-- Record size, least and greatest count of a section type (R259). -/
def sectShape (ty : Nat) : Option (Nat × Nat × Nat) :=
  match ty with
  | 0x01 => some (64, 0, 64)
  | 0x02 => some (2, 256, 256)
  | 0x03 => some (2, 384, 384)
  | 0x04 => some (32, 0, 16)
  | 0x05 => some (32, 0, 256)
  | 0x06 => some (16, 0, 18)
  | 0x07 => some (4, 0, 4096)
  | 0x08 => some (64, 0, 4096)
  | 0x09 | 0x0A => some (32768, 1, 1)
  | 0x0B => some (264, 0, 256)
  | 0x0C => some (272, 0, 256)
  | 0x0D => some (32, 0, 1024)
  | 0x0E => some (32, 0, 64)
  | 0x0F => some (32, 0, 4096)
  | 0x10 => some (16, 1, 1)
  | _ => none

/-- Is a count allowed for a type? PORT and CR_ROUTE are whole or empty. -/
def countOk (ty n lo hi : Nat) : Bool :=
  if ty = 6 ∨ ty = 7 then n == 0 || n == hi else decide (lo ≤ n ∧ n ≤ hi)

/-- Does the header break R257, apart from MODULE, SCENE, FIRE and DRAIN_MAX? -/
def Image.headerBad (m : Image) : Bool :=
  let len := m.num 8 4
  m.size == 0 || m.num 0 4 != 0x4D4F4F4C || m.num 4 2 != 1 || decide (m.nsect < 6 ∨ 16 < m.nsect)
  || bits (m.num 4 4) 31 21 != 0 || len != m.size || decide (4 * 2 ^ 20 < len) || decide (len < sigBytes + 64)
  || (len - sigBytes) % 64 != 0 || bits (m.num 0x10 4) 31 13 != 0 || m.num 0x20 32 != 0
  || decide (giga ≤ bits (m.num 0x18 8) 29 0)

/-- Is a directory entry malformed in itself or against the entries before it? (R258, R259) -/
def sectBad (m : Image) (before : List Sect) (e : Sect) : Bool :=
  let ends := m.size - sigBytes
  e.rsv != 0 || e.off % 64 != 0 || decide (e.off < 0x40 + 16 * m.nsect) || decide (ends < e.off + e.size)
  || before.any (fun x => decide (e.type ≤ x.type) || (decide (e.off < x.off + x.size) && decide (x.off < e.off + e.size)))
  || (match sectShape e.type with
      | none => true
      | some (z, lo, hi) => e.size != e.count * z || !countOk e.type e.count lo hi)

/-- The first malformed directory entry. -/
def firstBadSect (m : Image) : List Sect → List Sect → Nat → Option Nat
  | _, [], _ => none
  | before, e :: r, k => if sectBad m before e then some k else firstBadSect m (before ++ [e]) r (k + 1)

/-- Required section types, ascending. -/
def requiredSects : List Nat := [1, 2, 3, 9, 0xA, 0x10]

/-- LOM_FORMAT, if it applies (R269). -/
def Image.format (m : Image) : Option LoomRes :=
  if m.headerBad then some ⟨1, 0, 0, 0⟩
  else match firstBadSect m [] m.dir 0 with
    | some k => some ⟨1, 0, 0, 1 + k⟩
    | none => (requiredSects.find? (fun ty => !m.dir.any (fun e => e.type == ty))).map (fun ty => ⟨1, 0, ty, 0⟩)

/-! ### Records -/

/-- The records of a section as numbers; an absent section is empty (R258). -/
def Image.recs (m : Image) (ty : Nat) : List Nat :=
  match m.dir.find? (fun e => e.type == ty), sectShape ty with
  | some e, some (z, _, _) => (List.range e.count).map (fun k => m.num (e.off + k * z) z)
  | _, _ => []

/-- Bits of a record's word at a byte offset. -/
def rf (w off hi lo : Nat) : Nat := bits w (8 * off + hi) (8 * off + lo)

/-- A bolt record (R261). -/
def BoltRec.ofNat (w : Nat) : BoltRec where
  bolt := rf w 0 5 0
  priv := bit w 6
  mirror := bit w 7
  legacy := bit w 8
  elastic := bit w 9
  linkSeal := bit w 10
  vf := rf w 0 21 16
  tileBase := rf w 4 15 0
  tiles := rf w 4 23 16
  cueBase := rf w 8 15 0
  cueCount := rf w 0xC 16 0
  castBase := rf w 0x10 15 0
  castCount := rf w 0x14 16 0
  queueBase := rf w 0x18 12 0
  queueCount := rf w 0x18 29 16
  qwinMin := rf w 0x1C 5 0
  qwinMax := rf w 0x1C 13 8
  guarClasses := BitVec.ofNat 8 (rf w 0x20 7 0)
  pwrRes := rf w 0x20 27 16
  floorOp := rf w 0x20 31 28
  home := rf w 0x24 11 0

/-- A tree's node (04 R123). -/
def Node.ofNat (w : Nat) : Node where
  site := bits w 7 0
  parent := bits w 13 8
  port := bit w 14
  member := bit w 15
  tickets := bits w 19 16
  rank := bits w 23 20

/-- The node words of a record, from byte `off`. -/
def nodeWords (w off : Nat) : List Nat := (List.range 64).map (fun k => rf w (off + 4 * k) 31 0)

/-- A multicast record (04 R122). -/
def McastRec.ofNat (w : Nat) : McastRec where
  group := rf w 0 7 0
  bolt := rf w 0 13 8
  rootSlots := rf w 0 27 24
  nodes := ((nodeWords w 8).take (rf w 0 22 16)).map Node.ofNat

/-- A reduction record (04 R126). -/
def RedRec.ofNat (w : Nat) : RedRec where
  group := rf w 0 7 0
  bolt := rf w 0 13 8
  bf16 := bit w 14
  up := bit w 23
  upPort := rf w 0 27 24
  timeout := rf w 4 15 0
  upGroup := rf w 4 23 16
  destOffset := rf w 8 23 0
  nodes := ((nodeWords w 0x10).take (rf w 0 22 16)).map Node.ofNat

/-- A decoder record (R263). -/
def CxlDec.ofNat (w : Nat) : CxlDec :=
  ⟨rf w 0 0 0, rf w 0 3 1, bit w 4, rf w 0 7 5, rf w 0 11 8, rf w 8 63 0, rf w 0x10 63 0⟩

/-- A region record (R264). -/
def Region.ofNat (w : Nat) : Region where
  bolt := rf w 0 5 0
  mode := match rf w 0 7 6 with
    | 0 => .clear
    | 1 => .veiled
    | _ => .sealed
  redund := match rf w 0 9 8 with
    | 0 => .none
    | 1 => .mirrored
    | _ => .coded
  base := rf w 8 63 0
  size := rf w 0x10 63 0

/-- A grant record (R264). -/
def Grant.ofNat (w : Nat) : Grant :=
  ⟨rf w 0 5 0, bit w 6, bit w 7, bit w 8, rf w 0 20 9, rf w 8 63 0, rf w 0x10 63 0⟩

/-- A port record (R265). -/
def PortRec.ofNat (w : Nat) : PortRec :=
  ⟨bit w 5, bit w 6, rf w 0 27 16, rf w 4 4 0, BitVec.ofNat 64 (rf w 8 63 0)⟩

/-- The entries with V = 1 of a tile or channel section. -/
def tileEntsOf (l : List Nat) : Sparse (Option TileEnt) :=
  (l.zipIdx.filter (fun x => bit x.1 6)).map (fun x => (x.2, some ⟨bits x.1 5 0, bits x.1 15 8⟩))
def chanEntsOf (l : List Nat) : Sparse (Option ChanEnt) :=
  (l.zipIdx.filter (fun x => bit x.1 6)).map (fun x => (x.2, some ⟨bits x.1 5 0, bit x.1 7⟩))

/-- The scene of an image, with its fire time in nanoseconds. -/
def Image.scene (m : Image) (fire : Nat) : Scene where
  num := BitVec.ofNat 32 (m.num 0xC 4)
  strict := bit (m.num 0x10 4) 12
  drainMax := m.num 0x14 4
  fire := fire
  bolts := (m.recs 1).map BoltRec.ofNat
  tiles := tileEntsOf (m.recs 2)
  channels := chanEntsOf (m.recs 3)
  decs := (m.recs 4).map CxlDec.ofNat
  wins := (m.recs 5).map (fun w => ⟨rf w 0 5 0, faOff (rf w 8 63 0), rf w 0x10 63 0⟩)
  ports := let l := m.recs 6
    if l.isEmpty then none else some (l.map PortRec.ofNat)
  routes := ((m.recs 7).zipIdx.map (fun x => (x.2, (BitVec.ofNat 32 x.1 : Word)))).filter (fun e => e.2 != 0)
  bindings := (m.recs 8).map (fun w => ⟨rf w 0 5 0, rf w 0 17 6, BitVec.ofNat 256 (rf w 0x20 255 0)⟩)
  mcast := (m.recs 0xB).map McastRec.ofNat
  red := (m.recs 0xC).map RedRec.ofNat
  grants := (m.recs 0xD).map Grant.ofNat
  qos := (m.recs 0xE).map (fun w => ⟨rf w 0 5 0, (List.range 8).map (fun c => rf w (2 + 2 * c) 15 0)⟩)
  regions := (m.recs 0xF).map Region.ofNat
  stuCtl := BitVec.ofNat 7 (rf ((m.recs 0x10).headD 0) 0 6 0)
  cplTmo := rf ((m.recs 0x10).headD 0) 4 16 0

/-! ### Check 1: reserved encodings and fields (R266) -/

/-- Does a node word hold a reserved field? `red` for a reduction record. -/
def nodeWordBad (k : Nat) (red : Bool) (w : Nat) : Bool :=
  bits w 31 24 != 0 || (k == 0) != (bits w 19 16 == 0) || (!red && bits w 23 20 != 0)

/-- Node words of a record that are reserved or used beyond NODES. -/
def nodesBad (w off n : Nat) (red : Bool) : Bool :=
  n == 0 || decide (64 < n)
  || (nodeWords w off).zipIdx.any (fun x => if x.2 < n then nodeWordBad x.2 red x.1 else x.1 != 0)

/-- Does a record of a section hold a reserved encoding or a non-zero reserved field? -/
def recReserved (ty w : Nat) : Bool :=
  match ty with
  | 1 =>
    rf w 0 15 11 != 0 || rf w 0 31 22 != 0 || rf w 4 31 24 != 0 || rf w 8 31 16 != 0 || rf w 0xC 31 17 != 0
    || rf w 0x10 31 16 != 0 || rf w 0x14 31 17 != 0 || rf w 0x18 15 13 != 0 || rf w 0x18 31 30 != 0
    || rf w 0x1C 7 6 != 0 || rf w 0x1C 31 14 != 0 || rf w 0x20 15 8 != 0 || rf w 0x24 31 12 != 0 || rf w 0x28 191 0 != 0
    || rf w 4 23 16 == 0 || decide (240 < rf w 4 23 16) || decide (65280 < rf w 0xC 16 0) || decide (65536 < rf w 0x14 16 0)
    || decide (8192 < rf w 0x18 29 16) || decide (48 < rf w 0x1C 5 0) || decide (48 < rf w 0x1C 13 8)
    || decide (rf w 0x1C 13 8 < rf w 0x1C 5 0) || decide (420 < rf w 0x20 27 16)
  | 2 => bit w 7
  | 3 => bits w 15 8 != 0
  | 4 =>
    rf w 0 31 12 != 0 || rf w 4 31 0 != 0 || rf w 0x18 63 0 != 0 || decide (4 < rf w 0 7 5)
    || rf w 8 27 0 != 0 || rf w 0x10 27 0 != 0 || rf w 0x10 63 0 == 0
  | 5 => rf w 0 31 6 != 0 || rf w 4 31 0 != 0 || rf w 0x18 63 0 != 0 || rf w 8 15 0 != 0 || rf w 0x10 15 0 != 0
  | 6 => rf w 0 15 7 != 0 || rf w 0 31 28 != 0 || rf w 4 31 5 != 0 || (bit w 6 && (rf w 0 27 16 != 0 || rf w 4 4 0 != 0))
  | 7 => (List.range 4).any (fun c => bit w (8 * c + 7) || decide (17 < bits w (8 * c + 4) (8 * c)))
  | 8 => rf w 0 31 18 != 0 || rf w 4 223 0 != 0
  | 0xB =>
    rf w 0 15 14 != 0 || bit w 23 || rf w 0 31 28 != 0 || rf w 4 31 0 != 0 || rf w 0 27 24 == 0
    || nodesBad w 8 (rf w 0 22 16) false
  | 0xC =>
    bit w 15 || rf w 0 31 28 != 0 || rf w 4 31 24 != 0 || rf w 8 31 24 != 0 || rf w 0xC 31 0 != 0
    || decide (rf w 4 15 0 < 10) || rf w 8 6 0 != 0
    || (if bit w 23 then rf w 8 23 0 != 0 else rf w 0 27 24 != 0 || rf w 4 23 16 != 0)
    || nodesBad w 0x10 (rf w 0 22 16) true
  | 0xD =>
    rf w 0 31 21 != 0 || rf w 4 31 0 != 0 || rf w 0x18 63 0 != 0 || rf w 8 11 0 != 0 || rf w 0x10 11 0 != 0
    || (bit w 8 && !(bit w 6 && bit w 7))
  | 0xE =>
    rf w 0 15 6 != 0 || rf w 0x12 111 0 != 0
    || (List.range 8).any (fun c => rf w (2 + 2 * c) 15 0 == 0 || decide (512 < rf w (2 + 2 * c) 15 0))
  | 0xF =>
    rf w 0 31 10 != 0 || rf w 4 31 0 != 0 || rf w 0x18 63 0 != 0 || rf w 0 7 6 == 3 || rf w 0 9 8 == 3
    || rf w 8 11 0 != 0 || rf w 0x10 11 0 != 0
  | 0x10 => rf w 0 31 7 != 0 || rf w 4 31 17 != 0 || rf w 8 63 0 != 0 || decide (rf w 4 16 0 < 100)
  | _ => false

/-- The first record of a list that fails a test. -/
def firstBad {α : Type} (l : List α) (p : Nat → α → Bool) : Option Nat := (l.zipIdx.find? (fun x => p x.2 x.1)).map (fun x => x.2)

/-- A failing check, if a record fails. -/
def failAt (check sect : Nat) (r : Option Nat) : Option LoomRes := r.map (fun k => ⟨if check = 12 then 8 else 7, check, sect, k⟩)

/-- The first failure of a list of checks. -/
def firstFail : List (Option LoomRes) → Option LoomRes
  | [] => none
  | some r :: _ => some r
  | none :: t => firstFail t

/-- Does byte `k` of a mesh section have a reserved bit: in a route entry (04 R116), or in a distance entry other than 0xFF (04
R117)? The bytes behind a panel's entries are none. -/
def meshReserved (ty k v : Nat) : Bool :=
  decide (k % 8192 < 7921) && (if ty = 9 then bits v 7 5 != 0 else v != 0xFF && bits v 7 6 != 0)

/-- Does record `k` of a section hold a reserved encoding or a non-zero reserved field? A mesh section is one record. -/
def Image.reserved (m : Image) (e : Sect) (w : Nat) : Bool :=
  if e.type = 9 ∨ e.type = 0xA then (List.range 32768).any (fun k => meshReserved e.type k (m.getD (e.off + k) 0).toNat)
  else recReserved e.type w

/-- Check 1. -/
def Image.check1 (m : Image) : Option LoomRes :=
  firstFail (m.dir.map (fun e => failAt 1 e.type (firstBad (m.recs e.type) (fun _ w => m.reserved e w))))

/-! ### The other checks of R266 -/

/-- Do two ranges share an element? An empty one shares none. -/
def meet (a n b k : Nat) : Bool := decide (a < b + k) && decide (b < a + n) && decide (0 < n) && decide (0 < k)

/-- Does record `k` break a rule against an earlier record? -/
def clash {α : Type} (l : List α) (p : α → α → Bool) : Option Nat :=
  (l.zipIdx.find? (fun x => (l.take x.2).any (fun y => p y x.1))).map (fun x => x.2)

/-- Are bolts in ascending order? -/
def notAscending (l : List Nat) : Option Nat := firstBad l (fun k x => decide (0 < k) && decide (x ≤ l.getD (k - 1) 0))

/-- Does the scene hold a bolt? -/
def Scene.has (c : Scene) (b : Nat) : Bool := (c.bolt? b).isSome

/-- Check 2: bolt records. -/
def check2 (me : Nat) (c : Scene) : Option LoomRes :=
  let l := c.bolts
  firstFail [
    failAt 2 1 (notAscending (l.map (fun r => r.bolt))),
    failAt 2 1 (firstBad l (fun k r => r.priv && decide (8 < ((l.take (k + 1)).filter (fun x => x.priv)).length))),
    failAt 2 1 (firstBad l (fun _ r => r.mirror && !r.priv)),
    failAt 2 1 (clash l (fun x y => x.vf != 0 && x.vf == y.vf)),
    failAt 2 1 (firstBad l (fun _ r => r.home != me && !c.bindings.any (fun b => b.bolt == r.bolt && b.peer == r.home)))]

/-- Check 3: tile entries. The record index of a bolt's missing ORDER is the bolt record's. -/
def State.check3 (s : State) (c : Scene) : Option LoomRes :=
  let bad := c.tiles.find? (fun e => match e.2 with
    | some t => !s.siteLive e.1 || !c.has t.bolt
    | none => false)
  firstFail [
    failAt 3 2 (bad.map (fun e => e.1)),
    failAt 3 1 (firstBad c.bolts (fun _ r =>
      let os := (c.tileEnts r.bolt).map (fun e => e.2)
      os.length != r.tiles || !(List.range r.tiles).all (fun k => os.contains k) || decide (0xFFFF < r.tileBase + r.tiles)))]

/-- Check 4: channel entries. -/
def State.check4 (s : State) (c : Scene) : Option LoomRes :=
  failAt 4 3 ((c.channels.find? (fun e => match e.2 with
    | some t => !s.chanUp e.1 || !c.has t.bolt
    | none => false)).map (fun e => e.1))

/-- Check 5: every bolt holds a tile and a channel. -/
def check5 (c : Scene) : Option LoomRes :=
  failAt 5 1 (firstBad c.bolts (fun _ r => (c.sites r.bolt).isEmpty || (c.chans r.bolt).isEmpty))

/-- Check 6: ranges. -/
def check6 (c : Scene) : Option LoomRes :=
  let l := c.bolts
  firstFail [
    failAt 6 1 (firstBad l (fun _ r => decide (65280 < r.cueBase + r.cueCount) || decide (65536 < r.castBase + r.castCount)
      || decide (8192 < r.queueBase + r.queueCount))),
    failAt 6 1 (clash l (fun x y => meet x.cueBase x.cueCount y.cueBase y.cueCount
      || meet x.castBase x.castCount y.castBase y.castCount || meet x.queueBase x.queueCount y.queueBase y.queueCount)),
    failAt 6 1 (firstBad l (fun k _ => decide (48 < (l.take (k + 1)).foldl (fun n r => n + r.qwinMin) 0)))]

/-- Check 7: power reservations. -/
def check7 (c : Scene) : Option LoomRes :=
  failAt 7 1 (firstBad c.bolts (fun k _ => decide (420 < (c.bolts.take (k + 1)).foldl (fun n r => n + r.pwrRes) 0)))

/-- Largest size of space 1 (05 R141). -/
def cxlBytes : Nat := 8 * 2 ^ 40

/-- Check 8: decoders and windows. -/
def Image.check8 (m : Image) (me : Nat) (c : Scene) : Option LoomRes :=
  let ds := c.decs
  let twin := fun (x y : CxlDec) => x.twoWay && y.twoWay && x.port != y.port && { x with port := 0 } == { y with port := 0 }
  firstFail [
    failAt 8 4 (firstBad ds (fun _ d => decide (cxlBytes < d.base + d.size))),
    failAt 8 4 (clash ds (fun x y => (x.port == y.port && x.index == y.index) || (meet x.base x.size y.base y.size && !twin x y))),
    failAt 8 4 (firstBad ds (fun _ d => d.twoWay && !ds.any (fun x => twin d x))),
    failAt 8 5 (firstBad (m.recs 5) (fun _ w => faMod (rf w 8 63 0) != me || faSpace (rf w 8 63 0) != 1)),
    failAt 8 5 (firstBad c.wins (fun _ w => w.size == 0 || !c.decoded w.base w.size)),
    failAt 8 5 (clash c.wins (fun x y => meet x.base x.size y.base y.size))]

/-- Check 9: ports. U0 and U1 run only under a lead or understudy ROLE strap. -/
def Image.check9 (m : Image) (role : Nat) (c : Scene) : Option LoomRes :=
  let owners := fun (r : PortRec) => (List.range 64).filter (fun b => bit r.owners.toNat b)
  let ps := c.ports.getD []
  firstFail [
    failAt 9 6 (firstBad (m.recs 6) (fun k w => rf w 0 4 0 != k)),
    failAt 9 6 (firstBad ps (fun _ r => (owners r).any (fun b => !c.has b))),
    failAt 9 6 (firstBad ps (fun k r => decide (16 ≤ k) &&
      ((owners r).any (fun b => !((c.bolt? b).map (fun x => x.priv)).getD false) || (r.en && role != 1 && role != 2))))]

/-- Check 10: routes (07 R245). U0 and U1 appear only toward the module that the twin ports expect. -/
def check10 (me : Nat) (c : Scene) : Option LoomRes :=
  let us := fun (m : Nat) => (c.candidates m).any (fun p => decide (16 ≤ p.1))
  let twins := match c.ports with
    | some l => [16, 17].filterMap (fun p => (l[p]?).bind (fun (r : PortRec) => if r.en && !r.peerSw then some r.peerMod else none))
    | none => []
  failAt 10 7 ((c.routes.find? (fun e => (e.1 == me && !(c.candidates me).isEmpty) || (us e.1 && !twins.contains e.1))).map
    (fun e => e.1))

/-- Check 11: bindings. -/
def check11 (me : Nat) (c : Scene) : Option LoomRes :=
  let l := c.bindings
  firstFail [
    failAt 11 8 (firstBad l (fun _ r => !c.has r.bolt || r.peer == me)),
    failAt 11 8 (clash l (fun x y => x.bolt == y.bolt && x.peer == y.peer)),
    failAt 11 8 (firstBad l (fun _ r => (c.portsOf r.bolt).isEmpty))]

/-- Check 12: the mesh tables equal the canonical ones (04 R118). -/
def State.check12 (s : State) (m : Image) : Option LoomRes :=
  let same := fun (ty : Nat) (f : Nat → Nat) => match m.dir.find? (fun e => e.type == ty) with
    | some e => (List.range 32768).all (fun k => (m.getD (e.off + k) 0).toNat == f k)
    | none => true
  if !same 9 (fun k => s.routeByte k) then some ⟨8, 12, 9, 0⟩
  else if !same 0xA (fun k => s.distByte k) then some ⟨8, 12, 0xA, 0⟩
  else none

/-- Children of a node. -/
def childrenOf (l : List Node) (k : Nat) : List (Nat × Node) :=
  (l.zipIdx.map (fun x => (x.2, x.1))).filter (fun x => decide (0 < x.1) && x.2.parent == k)

/-- Is a tree malformed? (04 R124) -/
def State.treeBad (s : State) (c : Scene) (b : Nat) (l : List Node) (red : Bool) : Bool :=
  l.zipIdx.any (fun x =>
    let n := x.1
    let k := x.2
    let ch := childrenOf l k
    (decide (0 < k) && decide (k ≤ n.parent))
    || (if n.port then !red || !(c.portsOf b).contains (n.site % 16) || decide (16 ≤ n.site) || !ch.isEmpty || k == 0
        else !s.siteLive n.site || !(c.sites b).contains n.site
          || (l.take k).any (fun y => !y.port && y.site == n.site))
    || decide (16 < ch.length)
    || (red && !(List.range ch.length).all (fun r => ch.any (fun y => y.2.rank == r)))
    || (!red && !n.member)
    || (red && ch.isEmpty && !n.port && !n.member))

/-- Tree slots that a scene's groups reserve at a router (04 R131). -/
def Scene.slotsAt (c : Scene) (site : Nat) : Nat :=
  let red := c.red.foldl (fun n r => r.nodes.zipIdx.foldl (fun n x =>
    if !x.1.port && x.1.site == site then
      n + 1 + (if x.1.member then 2 else 0) + (childrenOf r.nodes x.2).foldl (fun a y => a + y.2.tickets) 0
    else n) n) 0
  c.mcast.foldl (fun n r => r.nodes.zipIdx.foldl (fun n x =>
    if x.1.site == site then n + x.1.tickets + (if x.2 = 0 then r.rootSlots else 0) else n) n) red

/-- Groups with a port leaf on a port (07 R217). -/
def Scene.leafGroups (c : Scene) (p : Nat) : Nat :=
  (c.red.filter (fun r => r.nodes.any (fun n => n.port && n.site == p))).length

/-- Check 13: groups. A router over its 64 slots, or a port over 63 groups, fails at the last record that adds to it. -/
def State.check13 (s : State) (c : Scene) : Option LoomRes :=
  let tooMany := fun (c : Scene) => (List.range 256).any (fun t => decide (64 < c.slotsAt t))
  firstFail [
    failAt 13 0xB (notAscending (c.mcast.map (fun r => r.group))),
    failAt 13 0xB (firstBad c.mcast (fun _ r => !c.has r.bolt || s.treeBad c r.bolt r.nodes false)),
    failAt 13 0xB (firstBad c.mcast (fun k _ => tooMany { c with red := [], mcast := c.mcast.take (k + 1) })),
    failAt 13 0xC (notAscending (c.red.map (fun r => r.group))),
    failAt 13 0xC (firstBad c.red (fun _ r => !c.has r.bolt || s.treeBad c r.bolt r.nodes true
      || (r.up && !(c.portsOf r.bolt).contains r.upPort))),
    failAt 13 0xC (firstBad c.red (fun k _ =>
      tooMany { c with red := c.red.take (k + 1) }
      || (List.range 16).any (fun p => decide (63 < ({ c with red := c.red.take (k + 1) }).leafGroups p))))]

/-- Check 14: grants. -/
def State.check14 (s : State) (c : Scene) : Option LoomRes :=
  failAt 14 0xD (firstBad c.grants (fun _ g => !c.has g.bolt || g.size == 0 || faMod g.base != s.modNum || decide (2 < faSpace g.base)
    || (match faSpace g.base with
        | 0 => decide (hbmBytes < faOff g.base + g.size)
        | 1 => decide (cxlBytes < faOff g.base + g.size)
        | _ => decide (2 ^ 32 < faOff g.base + g.size))))

/-- Check 15: QOS records. -/
def check15 (c : Scene) : Option LoomRes :=
  firstFail [
    failAt 15 0xE (clash c.qos (fun x y => x.bolt == y.bolt)),
    failAt 15 0xE (firstBad c.qos (fun _ r => !c.has r.bolt))]

/-- Does a region lie within its bolt's channels or windows? -/
def Scene.regionIn (c : Scene) (r : Region) : Bool :=
  match faSpace r.base with
  | 0 =>
    let lo := faOff r.base / chanBytes
    let hi := (faOff r.base + (r.size - 1)) / chanBytes
    decide (hi < 384) && (List.range (hi + 1 - lo)).all (fun k => match mget none c.channels (lo + k) with
      | some e => e.bolt == r.bolt
      | none => false)
  | 1 => spansAll ((c.wins.filter (fun w => w.bolt == r.bolt)).map (fun w => (w.base, w.size))) (faOff r.base) r.size
  | _ => false

/-- Sealed units of a region (12 R383). -/
def Region.units (r : Region) : Nat :=
  if r.mode != .sealed then 0
  else if faSpace r.base = 0 then (faOff r.base + (r.size - 1)) / chanBytes + 1 - faOff r.base / chanBytes else 1

/-- The logical device that a one-way decoder gives the whole of a range of space 1. -/
def Scene.deviceOf (c : Scene) (off len : Nat) : Option (Nat × Nat) :=
  (c.decs.find? (fun d => !d.twoWay && decide (d.base ≤ off ∧ off + len ≤ d.base + d.size))).map (fun d => (d.port, d.ld))

/-- The devices of the six parts of a coded region. -/
def Scene.partDevices (c : Scene) (r : Region) : List (Option (Nat × Nat)) :=
  (List.range 6).map (fun k => c.deviceOf (faOff r.base + k * (r.size / 6)) (r.size / 6))

/-- A coded region (14 R474): in space 1, not sealed, of a multiple of 384 KiB, its six parts on six different devices. -/
def Scene.codedOk (c : Scene) (r : Region) : Bool :=
  let l := c.partDevices r
  faSpace r.base == 1 && r.mode != .sealed && r.size % 393216 == 0 && l.all Option.isSome && decide (l.eraseDups.length = 6)

/-- Check 16: regions (and 12 R383; 14 R474). -/
def State.check16 (s : State) (c : Scene) : Option LoomRes :=
  let l := c.regions
  let rec_ := fun (r : Region) => c.bolt? r.bolt
  firstFail [
    failAt 16 0xF (firstBad l (fun _ r => r.size == 0 || faMod r.base != s.modNum || !c.regionIn r)),
    failAt 16 0xF (clash l (fun x y => faSpace x.base == faSpace y.base && meet (faOff x.base) x.size (faOff y.base) y.size)),
    failAt 16 0xF (firstBad l (fun _ r => r.redund != .none && !((rec_ r).map (fun x => x.priv)).getD false)),
    failAt 16 0xF (firstBad l (fun _ r => r.redund == .mirrored && !((rec_ r).map (fun x => x.mirror)).getD false)),
    failAt 16 0xF (firstBad l (fun _ r => r.mode == .sealed && (faOff r.base % 2 ^ 17 != 0 || r.size % 2 ^ 17 != 0
      || (faSpace r.base == 1 && c.decs.any (fun d => d.twoWay && meet d.base d.size (faOff r.base) r.size))))),
    failAt 16 0xF (firstBad l (fun _ r => r.redund == .coded && !c.codedOk r)),
    failAt 16 0xF (firstBad l (fun k _ => decide (8192 < (l.take (k + 1)).foldl (fun n r => n + r.units) 0)))]

/-- Check 17: the time record. -/
def check17 (c : Scene) : Option LoomRes :=
  let v := c.stuCtl.toNat
  let en := match c.ports with
    | some l => ((l[bits v 6 3]?).map (fun r => r.en)).getD false
    | none => false
  if bits v 1 0 = 3 ∨ (bits v 1 0 = 1 ∧ !en) then some ⟨7, 17, 0x10, 0⟩ else none

/-- The first failing check of R266. -/
def State.validity (s : State) (m : Image) (c : Scene) : Option LoomRes :=
  firstFail [
    m.check1, check2 s.modNum c, s.check3 c, s.check4 c, check5 c, check6 c, check7 c, m.check8 s.modNum c,
    m.check9 s.twin.role c, check10 s.modNum c, check11 s.modNum c, s.check12 m, s.check13 c, s.check14 c, check15 c,
    s.check16 c, check17 c]

end Sys2Proof.Machine
end

