-- ==== Sys2Proof/Machine/PlayOps.lean ====
section
/-! DEFINITION. The playbill (12_security.md R406 to R408): its contents at the snapshot, its requests and their answers. -/

namespace Sys2Proof.Machine

/-- Writes fields at their offsets over `n` zero bytes. -/
def layBytes (n : Nat) (fields : List (Nat × List Byte)) : List Byte :=
  fields.foldl (fun l f => l.take f.1 ++ f.2 ++ l.drop (f.1 + f.2.length)) (List.replicate n 0)

/-- Does a record of a section of a loom image name a bolt? A port record names its owners. -/
def recNames (ty w b : Nat) : Bool :=
  match ty with
  | 0x01 | 0x05 | 0x08 | 0x0D | 0x0E | 0x0F => rf w 0 5 0 == b
  | 0x02 | 0x03 => bit w 6 && bits w 5 0 == b
  | 0x06 => bit (rf w 8 63 0) b
  | 0x0B | 0x0C => rf w 0 13 8 == b
  | _ => false

/-- POLICY_HASH (R408): over every record of the live image that names the bolt, each after its section type and index. -/
def State.policyHash (s : State) (b : Nat) : BitVec 256 :=
  let m := imageOf s.loom.image s.loom.imageLen
  sha256 (m.dir.flatMap (fun e =>
    let z := ((sectShape e.type).map (fun x => x.1)).getD 0
    (((m.recs e.type).zipIdx).filter (fun x => recNames e.type x.1 b)).flatMap
      (fun x => leBytes 2 e.type ++ leBytes 2 x.2 ++ leBytes z x.1)))

/-- LOOM_HASH (R408): of the live image, its signature included; 0 in scene 0. -/
def State.loomHash (s : State) : BitVec 256 :=
  if s.loom.live.num = 0 then 0
  else sha256 ((List.range s.loom.imageLen).map (fun k => mget 0 s.loom.image k))

/-- Is an image staged for update, or the preferred one during a trial? (13 R438, R439) -/
def State.stagedNow (s : State) : Bool := s.fw.staged || s.fw.trial

/-- The rights of the grants that cover a bolt (R400, R408). -/
def State.dbgRights (s : State) (b : Nat) : Nat :=
  if s.engOn then 127
  else (s.sec.grants.foldl (fun (a : BitVec 7) (e : Nat × Option GrantSt) => match e.2 with
    | some g => if bit g.bolts.toNat b then a ||| g.rights else a
    | none => a) 0).toNat

/-- Is a grant active: any, for a device playbill; one that covers the bolt, for a bolt playbill? (R408 DEBUG) -/
def State.dbgActive (s : State) (bolt : Option Nat) : Bool :=
  match bolt with
  | some b => s.dbgCovers b
  | none => s.engOn || s.sec.grants.any (fun (e : Nat × Option GrantSt) => e.2.isSome)

/-- The bolt part of a playbill (R408). -/
def State.boltPart (s : State) (b : Nat) : List (Nat × List Byte) :=
  let r := s.loom.live.bolt? b
  let c := s.ctx b
  [ (0x480, leBytes 4 (b + 2 ^ 8 * ((r.map BoltRec.flags).getD 0) + 2 ^ 16 * ((r.map (fun r => r.vf)).getD 0)
      + 2 ^ 24 * c.mode.code)),
    (0x484, leBytes 4 ((s.boltTiles b).length + 2 ^ 16 * (s.loom.live.chans b).length)),
    (0x488, leBytes 4 c.gen.toNat),
    (0x48C, leBytes 4 (s.dbgRights b)),
    (0x490, leBytes 48 ((s.loom.live.chans b).map (fun k => 2 ^ k)).sum),
    (0x4C0, leBytes 32 (s.policyHash b).toNat),
    (0x4E0, leBytes 32 c.prod.toNat),
    (0x500, leBytes 32 c.kem.toNat) ]

/-- Bytes 0x000 to 0x51F of a playbill, as of now (R406, R408). -/
def State.playbillBody (s : State) (bolt : Option Nat) (nonce : Nat) : List Byte :=
  let run := s.runImg
  let stg := s.otherImg
  let on := s.stagedNow
  layBytes 0x520 (
    [ (0x000, leBytes 4 0x59414C50),
      (0x004, leBytes 4 (1 + 2 ^ 16 * b2n bolt.isSome + 2 ^ 17 * b2n on + 2 ^ 18 * b2n s.engOn
        + 2 ^ 19 * b2n (s.dbgActive bolt))),
      (0x008, leBytes 4 18400),
      (0x010, leBytes 4 (s.glbWord 0)),
      (0x014, leBytes 4 s.modNum),
      (0x018, leBytes 8 s.fw.serial.toNat),
      (0x020, leBytes 8 s.time.toNat),
      (0x028, leBytes 4 s.stuWord),
      (0x030, leBytes 32 nonce),
      (0x050, leBytes 4 s.loom.live.num.toNat),
      (0x058, leBytes 32 s.loomHash.toNat),
      (0x080, leBytes 32 Config.romHash.toNat),
      (0x0A0, (List.range 4).flatMap (fun k => leBytes 32 (s.fw.hashes.getD k 0).toNat)),
      (0x120, leBytes 4 run.imgVer.toNat),
      (0x124, leBytes 4 (b2n s.fw.slot)),
      (0x128, leBytes 32 run.hash.toNat),
      (0x148, leBytes 4 (if on then stg.imgVer.toNat else 0)),
      (0x14C, leBytes 4 (if on then b2n (!s.fw.slot) else 0)),
      (0x150, leBytes 32 (if on then stg.hash.toNat else 0)),
      (0x170, leBytes 4 10),
      (0x180, (List.range 10).flatMap (fun k =>
        leBytes 4 (k + 1) ++ (List.range 44).map (fun j => Config.component run.hash (k + 1) j))) ]
    ++ (match bolt with
        | some b => s.boltPart b
        | none => []))

/-- A message with its signature under the identity key: 17,088 bytes (R408, 13 R432). -/
def signed (body : List Byte) : List Byte := body ++ (List.range 17088).map (fun k => Config.signature body k)

/-- The status that refuses a request for a playbill at GO (R407); none: it is queued. -/
def State.pbStatus (s : State) (bolt : Option Nat) (dest : Nat) : Option Nat :=
  if dest % 4096 ≠ 0 ∨ 2 ^ 49 ≤ dest then some 3
  else match bolt with
    | none => none
    | some b =>
      if !s.loom.live.has b then some 4
      else if (s.ctx b).mode.stops then some 1
      else none

/-- Queues a request with the snapshot of its contents (R406). -/
def State.pbQueue (s : State) (who : Nat) (bolt : Option Nat) (dest nonce : Nat) : State :=
  { s with sec := { s.sec with
      pb := s.sec.pb ++ [⟨who, bolt, false, BitVec.ofNat 64 dest, s.playbillBody bolt nonce⟩] } }

/-- SEC_PB_STAT after a request has ended: DONE and STATUS. -/
def pbDone (st : Nat) : Nat := 2 + 16 * st

/-- GO at an interface (R406, R407): `who`'s registers stand at `base`. Over a request in progress it is dropped with PB_BUSY. -/
def State.pbGo (s : State) (who base : Nat) (bolt : Option Nat) : State :=
  let stat := pbStat who
  if bit (s.reg stat) 0 then s.setReg stat (1 + pbDone 2)
  else
    let dest := s.reg64 (base + 0x20)
    match s.pbStatus bolt dest with
    | some st => s.setReg stat (pbDone st)
    | none =>
      let nonce := ((List.range 8).map (fun k => 2 ^ (32 * k) * s.reg (base + 4 * k))).sum
      (s.setReg stat 1).pbQueue who bolt dest nonce

end Sys2Proof.Machine
end

