-- ==== Sys2Proof/Machine/Booth.lean ====
section
/-! DEFINITION. The booth: sessions, identity, updates and reads (13_firmware_booth.md R426 to R439). -/

namespace Sys2Proof.Machine

/-! ### Sessions (R431 to R433) -/

/-- The role of a client certificate, or the cause of its failure (R433). -/
def State.roleOf (s : State) (c : Sys2Proof.ClientCert) : Role ⊕ Nat :=
  if s.fw.enrolCnt = 0 then (if c.selfSigned then .inl .unenrolled else .inr 0)
  else if !c.caSigned then .inr 0
  else match c.ous with
    | [x] => if x = 0 then .inl .admin else if x = 1 then .inl .operator else if x = 2 then .inl .audit else .inr 1
    | _ => .inr 1

/-- TLS_CONNECT (R431, R433): a connection opens a session; a fifth is refused; a certificate that fails is counted. -/
def execTlsConnect (cert : ClientCert) (s : State) : Host.Outcome State Fault Refusal :=
  .next (
    if !s.boothUp then s
    else match [0, 1, 2, 3].find? (fun k => (s.boothSess k).isNone) with
      | none => s
      | some k =>
        match s.roleOf cert with
        | .inl r => s.setBoothSess k (some ⟨r, false, s.now, none, []⟩)
        | .inr cause => s.authFail cause)

/-- SESSION_IDLE (R431): a session idle for 300 s is closed. -/
def execSessionIdle (ses : SessId) (s : State) : Host.Outcome State Fault Refusal :=
  .next (match s.boothSess ses.val with
    | some x => if s.now < x.at_ + 300 * giga then s else s.closeBooth ses.val
    | none => s)

/-- BOOTH_SESSION_CLOSE (R435): the client closes its session; what it had staged is discarded. -/
def execBoothSessionClose (ses : SessId) (s : State) : Host.Outcome State Fault Refusal :=
  .next (match s.boothSess ses.val with
    | some _ => s.closeBooth ses.val
    | none => s)

/-- HELLO (R432): the binding of the session waits for its signature in the queue of playbills. -/
def execHello (ses : SessId) (nonce : BitVec 256) (s : State) : Host.Outcome State Fault Refusal :=
  .next (s.message ses ⟨1, 0, true, true⟩ (fun s =>
    let d := s.draw
    let e := d.1.draw
    let s := e.1
    let body := leBytes 32 (Config.random d.2).toNat ++ leBytes 32 nonce.toNat ++ leBytes 32 (Config.random e.2).toNat
      ++ leBytes 8 s.fw.serial.toNat
    let s := { s with sec := { s.sec with pb := s.sec.pb ++ [(⟨65 + ses.val, none, true, 0, body⟩ : PbReq)] } }
    (s.deferReply ses.val 1 64, none)))

/-- STATUS (R435). -/
def execStatus (ses : SessId) (s : State) : Host.Outcome State Fault Refusal :=
  .next (s.message ses ⟨2, 0, true, true⟩ (fun s =>
    (s, some (boothOk, [glbId, s.fw.serial.toNat, s.modNum, s.bootWord, s.loom.live.num.toNat, s.loomWord, s.cap, s.power.input,
      s.fw.enrolCnt]))))

/-! ### Settings (R430, R435) -/

/-- SET_MODNUM: the high six bits of the module number; STATE unless the live scene is 0. -/
def execSetModnum (ses : SessId) (hi : BitVec 6) (s : State) : Host.Outcome State Fault Refusal :=
  .next (s.message ses ⟨3, 2, false, false⟩ (fun s =>
    if s.loom.live.num ≠ 0 then (s, some (boothState, []))
    else ({ s with fw := { s.fw with modHi := hi } }, some (boothOk, []))))

/-- SET_ADDR (R430): one global address. -/
def execSetAddr (ses : SessId) (addr : BitVec 128) (plen : Nat) (gw : BitVec 128) (s : State) :
    Host.Outcome State Fault Refusal :=
  .next (s.message ses ⟨4, 2, false, false⟩ (fun s =>
    if 128 < plen then (s, some (boothFormat, []))
    else ({ s with fw := { s.fw with addr := some (addr, plen, gw) } }, some (boothOk, []))))

/-- ENROLL (R437): accepted when GEN is the counter + 1, the counter is below 32, and it is 0 or the current loom key signed. -/
def execEnroll (ses : SessId) (r : EnrolRec) (sigOk : Bool) (s : State) : Host.Outcome State Fault Refusal :=
  .next (s.message ses ⟨0x10, 2, false, true⟩ (fun s =>
    let n := s.fw.enrolCnt
    if !r.magicOk then (s, some (boothFormat, []))
    else if r.gen.toNat ≠ n + 1 ∨ 32 ≤ n ∨ (n ≠ 0 ∧ !sigOk) then (s, some (boothState, []))
    else
      let s := { s with fw := { s.fw with enrolCnt := n + 1, loomKey := r.loomKey, caKey := r.caKey } }
      (s.report unitHp 0x189 0 none (n + 1) 0 0, some (boothOk, []))))

/-! ### Updates (R438, R439) -/

/-- Replaces the image of the slot that does not run. -/
def State.setOther (s : State) (x : SlotImg) : State :=
  if s.fw.slot then { s with fw := { s.fw with imgA := x } } else { s with fw := { s.fw with imgB := x } }

/-- The status of a complete image (R438); an SVN above 64 is no manifest's (R415). -/
def State.fwVerify (s : State) (k : Sys2Proof.FwCheck) : Nat :=
  if !k.sigOk ∨ !k.manifestOk ∨ 64 < k.svn.val then 1
  else if k.svn.val < s.fw.fuseSvn then 2
  else if k.id.toNat ≠ glbId then 3
  else 0

/-- A fragment is programmed into the slot that does not run, which cannot boot meanwhile; the last one is verified. -/
def State.fwProgram (s : State) (ses off n : Nat) (last : Bool) (k : Sys2Proof.FwCheck) : State × Nat :=
  let s := s.setOther { s.otherImg with bootable := false }
  let s := { s with fw := { s.fw with staged := false, stageOwner := some ses, stageLen := max s.fw.stageLen (off + n) } }
  if !k.flashOk then (s, 5)
  else if !last then (s, 0)
  else
    let st := s.fwVerify k
    let s := { s with fw := { s.fw with stageOwner := none, stageLen := 0 } }
    if st ≠ 0 then (s, st)
    else
      let s := s.setOther ⟨true, k.svn.val, k.id, k.imgVer, k.ifVer, true, k.hash⟩
      let s := { s with fw := { s.fw with staged := true } }
      (s.report unitHp 0x186 0 none (b2n (!s.fw.slot)) k.imgVer.toNat k.svn.val, 0)

/-- FW_STAGE (R435, R438): a fragment of an image; the staging area belongs to the first session that writes it. -/
def execFwStage (ses : SessId) (off : Nat) (last : Bool) (data : List Byte) (check : FwCheck) (s : State) :
    Host.Outcome State Fault Refusal :=
  .next (s.message ses ⟨0x40, 2, false, false⟩ (fun s =>
    if 65532 < data.length then (s, some (boothFormat, []))
    else if s.fw.stageOwner.isSome ∧ s.fw.stageOwner ≠ some ses.val then (s, some (boothBusy, []))
    else if s.fw.trial then (s, some (boothOk, [9]))
    else if 96 * 2 ^ 20 < off + data.length then (s, some (boothOk, [4]))
    else
      let r := s.fwProgram ses.val off data.length last check
      (r.1, some (boothOk, [r.2]))))

/-- The status of FW_ACTIVATE (R438). -/
def State.activateStatus (s : State) (force : Bool) : Nat :=
  if s.fw.trial then 9
  else if s.bootsel ≠ 0 then 6
  else if !s.fw.staged then 8
  else if !force ∧ s.sceneBolts.any (fun b => s.loaded b) then 7
  else 0

/-- FW_ACTIVATE (R439): the staged slot becomes the trial slot, and the module resets. The answer goes out first. -/
def execFwActivate (ses : SessId) (force : Bool) (s : State) : Host.Outcome State Fault Refusal :=
  .next (s.message ses ⟨0x41, 2, false, false⟩ (fun s =>
    let st := s.activateStatus force
    if st ≠ 0 then (s, some (boothOk, [st]))
    else
      let s := s.replyNow ses.val 0x41 boothOk [0]
      let s := { s with fw := { s.fw with
          trialSlot := some (!s.fw.slot), trialRan := false, prefSeq := s.fw.prefSeq + 1, staged := false } }
      (s.beginReset 3, none)))

/-- FW_CONFIRM (R439): the trial slot becomes preferred, the trial ends, and the fused counter rises to its SVN. -/
def execFwConfirm (ses : SessId) (s : State) : Host.Outcome State Fault Refusal :=
  .next (s.message ses ⟨0x42, 2, false, false⟩ (fun s =>
    if s.bootsel ≠ 0 then (s, some (boothOk, [6]))
    else if !s.fw.trial then (s, some (boothOk, [8]))
    else
      let x := s.runImg
      let s := { s with fw := { s.fw with
          prefer := s.fw.slot, trial := false, trialSlot := none, trialRan := false, prefSeq := s.fw.prefSeq + 1,
          fuseSvn := max s.fw.fuseSvn x.svn } }
      (s.report unitHp 0x187 0 none (b2n s.fw.slot) x.imgVer.toNat s.fw.fuseSvn, some (boothOk, [0]))))

/-- FW_DISCARD (R435, R438): what is staged, or being staged, is discarded; its slot cannot boot. -/
def execFwDiscard (ses : SessId) (s : State) : Host.Outcome State Fault Refusal :=
  .next (s.message ses ⟨0x43, 2, false, false⟩ (fun s =>
    if s.fw.stageOwner.isSome ∧ s.fw.stageOwner ≠ some ses.val then (s, some (boothBusy, []))
    else if s.fw.trial then (s, some (boothOk, [9]))
    else
      let s := if s.fw.staged then s.setOther { s.otherImg with bootable := false } else s
      ({ s with fw := { s.fw with staged := false, stageOwner := none, stageLen := 0 } }, some (boothOk, [0]))))

/-! ### Reads and marks (R426 to R429, R435; 14 R447, R448) -/

/-- INC_READ: up to 1,024 incident records from a slot on, without consuming them. -/
def execIncRead (ses : SessId) (first : Nat) (s : State) : Host.Outcome State Fault Refusal :=
  .next (s.message ses ⟨0x70, 0, true, false⟩ (fun s =>
    if 4096 ≤ first then (s, some (boothFormat, []))
    else
      let n := min 1024 (4096 - first)
      (s, some (boothOk, ((List.range n).flatMap (fun k => s.slotBytes (first + k))).map (fun x => x.toNat)))))

/-- INC_SUBSCRIBE: accepted records of the class and above are sent to the session from now on. -/
def execIncSubscribe (ses : SessId) (cls : Nat) (s : State) : Host.Outcome State Fault Refusal :=
  .next (s.message ses ⟨0x71, 0, false, false⟩ (fun s =>
    if 4 < cls then (s, some (boothFormat, []))
    else match s.boothSess ses.val with
      | some x => (s.setBoothSess ses.val (some { x with sub := some cls }), some (boothOk, []))
      | none => (s, none)))

/-- PB_READ (R427): records of the prompt book from a SEQ on, those still held. -/
def execPbRead (ses : SessId) (first : Word) (count : Nat) (s : State) : Host.Outcome State Fault Refusal :=
  .next (s.message ses ⟨0x72, 0, true, false⟩ (fun s =>
    if 2048 < count then (s, some (boothFormat, []))
    else
      let l := s.fw.book.filter (fun r => decide ((r.seq + 2 ^ 32 - first.toNat) % 2 ^ 32 < count))
      (s, some (boothOk, (l.flatMap PbRec.bytes).map (fun x => x.toNat)))))

/-- TRACE_SET (R428): a word of a component's table of trace marks. -/
def execTraceSet (ses : SessId) (comp : Nat) (word : Nat) (mask : Word) (s : State) : Host.Outcome State Fault Refusal :=
  .next (s.message ses ⟨0x73, 1, false, false⟩ (fun s =>
    if comp = 0 ∨ 10 < comp ∨ 128 ≤ word then (s, some (boothFormat, []))
    else ({ s with fw := { s.fw with tm := mset 0 s.fw.tm (comp * 128 + word) mask } }, some (boothOk, []))))

/-- MODULE_RESET (15 R485): the answer is sent, and the module resets. -/
def execModuleReset (ses : SessId) (s : State) : Host.Outcome State Fault Refusal :=
  .next (s.message ses ⟨0x90, 2, true, false⟩ (fun s =>
    ((s.replyNow ses.val 0x90 boothOk []).beginReset 2, none)))

/-- TRC_ENABLE (R429): a write of TRC_CTL by the bolt's kernel driver; EN from 0 to 1 samples BASE and ORDER and clears HEAD
and TAIL. -/
def execTrcEnable (fn : Fn) (b : Bolt) (val : Word) (s : State) : Host.Outcome State Fault Refusal :=
  .next (
    let at_ := blt b.val 0xF08
    let v := val.toNat
    let order := bits v 5 1
    let ok : Bool := decide (7 ≤ order ∧ order ≤ 20)
    if !s.live then s
    else if fn ≠ 0 ∧ s.fnBolt fn.val ≠ some b.val then s.setErr fn 0
    else
      let s := if ok then s else s.setErr fn 3
      let was := bit (s.reg at_) 0
      let s := s.setReg at_ (b2n (bit v 0) + 2 * (if ok then order else bits (s.reg at_) 5 1))
      if bit v 0 ∧ !was then
        let s := { s with fw := { s.fw with
            trcBase := mset 0 s.fw.trcBase b.val (BitVec.ofNat 64 (s.reg64 (blt b.val 0xF00)))
            trcOrder := mset 0 s.fw.trcOrder b.val (bits (s.reg at_) 5 1) } }
        (s.setReg (blt b.val 0xF0C) 0).setReg (blt b.val 0xF10) 0
      else s)

end Sys2Proof.Machine
end

