-- ==== Sys2Proof/Machine/TileControl.lean ====
section
/-! DEFINITION. The control slot, and the issue of a bundle (03_engine_tile.md R64 to R66, R79 to R82, R103, R106, R504). -/

namespace Sys2Proof.Machine

/-! ### Control flow (03 R80) -/

/-- What follows the bundle at `pc`: the next bundle, or the start of a loop's body whose last bundle it is. -/
def nextOf (pc : Nat) : List LoopFrame → Nat × List LoopFrame
  | [] => (pc + 1, [])
  | f :: r =>
    if pc = f.last then (if 1 < f.left then (f.start, { f with left := f.left - 1 } :: r) else nextOf pc r)
    else (pc + 1, f :: r)

/-- The loops that a branch to `target` leaves active: a branch out of a body ends that loop and all nested inside it. -/
def loopsAt (target : Nat) : List LoopFrame → List LoopFrame
  | [] => []
  | f :: r =>
    let k := loopsAt target r
    if k.length < r.length then k else if f.start ≤ target ∧ target ≤ f.last then f :: k else k

/-- Sequential issue after the bundle at `pc`. -/
def Tile.after (t : Tile) (pc : Nat) : Tile :=
  let n := nextOf pc t.loops
  { t with pc := n.1, loops := n.2 }

/-- A taken branch. -/
def Tile.goto (t : Tile) (target : Nat) : Tile := { t with pc := target, loops := loopsAt target t.loops }

/-- Target of a branch word. -/
def branchTarget (pc w : Nat) : Int :=
  (pc : Int) + (if w / 2 ^ 26 = 1 then toSigned 26 (w % 2 ^ 26) else toSigned 22 (w % 2 ^ 22))

/-- Is a branch taken? -/
def branchTaken (t : Tile) (w : Nat) : Bool :=
  match w / 2 ^ 26 with
  | 1 => true
  | 2 => t.i (bits w 25 22) == 0
  | 3 => t.i (bits w 25 22) != 0
  | _ => false

/-- Last bundle of a LOOP's body. -/
def loopLast (pc w : Nat) : Nat := pc + 1 + bits w 24 12

/-- Count of a LOOP. -/
def loopCount (t : Tile) (w : Nat) : Nat := if bit w 25 then t.i (bits w 3 0) else bits w 11 0

/-- Number of a bow point. -/
def bowNum (w : Nat) : Nat := if w / 2 ^ 26 = 0x15 then 0xFFFF else bits w 24 9

/-! ### Faults -/

/-- Unused bits of a control slot are zero and its fields hold no reserved value (03 R81, R502). -/
def controlOk (w : Nat) : Bool :=
  match w / 2 ^ 26 with
  | 0 | 0x15 | 0x16 => w % 2 ^ 26 == 0
  | 1 | 2 | 3 | 4 | 0x0D | 0x0E | 0x0F | 0x10 | 0x11 => true
  | 5 => bits w 14 0 == 0 && bits w 22 15 != 0
  | 6 => bits w 1 0 == 0
  | 7 => bits w 9 0 == 0 && bits w 25 10 != 0
  | 8 => bits w 22 0 == 0
  | 9 => bits w 13 0 == 0
  | 0x0A | 0x0B => bits w 21 0 == 0
  | 0x0C | 0x12 => bits w 17 0 == 0
  | 0x13 => bits w 19 0 == 0 && bits w 21 20 != 3
  | 0x14 => bits w 8 0 == 0 && bits w 24 9 != 0xFFFF
  | _ => false

/-- Faults of a control slot, in the order of their codes. A branch that is not taken goes nowhere, so its target is not
checked (DESIGN CHOICE, log 100). `awaited` is the bow number at which other tiles of the bolt
wait. -/
def controlFaults (t : Tile) (member : Nat → Bool) (awaited : Option Nat) (w : Nat) : List TFault :=
  let pc := t.pc % 2 ^ 13
  illegal t.pc 3 w (!controlOk w)
  ++ (match w / 2 ^ 26 with
      | 1 | 2 | 3 =>
        let x := branchTarget t.pc w
        if branchTaken t w && !(decide (0 ≤ x ∧ x < t.streamLen)) then [⟨6, pc, ofInt 64 x, 0⟩] else []
      | 4 =>
        (if t.streamLen ≤ loopLast t.pc w then [⟨6, pc, loopLast t.pc w, 0⟩] else [])
        ++ (if 4 ≤ t.loops.length then [⟨7, pc, 0, 0⟩] else [])
      | 6 => if bits w 25 10 = 0xFFFF || member (bits w 25 10) then [] else [⟨9, pc, bits w 25 10, 0⟩]
      | 0x0A => spoolFault t t.pc 3 (bits w 25 22) 1 8 8
      | 0x12 => spoolFault t t.pc 3 (bits w 21 18) 1 4 4
      | 0x14 | 0x15 =>
        (match awaited with
         | some n => if n = bowNum w then [] else [⟨0x00A, pc, bowNum w, n⟩]
         | none => [])
      | _ => [])

/-- Address registers that a control slot names. -/
def controlRegs (w : Nat) : List Nat :=
  match w / 2 ^ 26 with
  | 0x0A | 0x0D | 0x0E | 0x0F => [bits w 25 22]
  | 0x12 => [bits w 21 18]
  | _ => []

/-! ### Bundles -/

/-- The four slot words of a bundle (03 R64). -/
structure Bundle where
  m : Nat
  v : Nat
  s : Nat
  c : Nat
  deriving DecidableEq, Repr

/-- A bundle from its 128 bits. -/
def Bundle.ofBits (w : BitVec 128) : Bundle :=
  ⟨bits w.toNat 31 0, bits w.toNat 63 32, bits w.toNat 95 64, bits w.toNat 127 96⟩

/-- The bundle at the program counter. -/
def Tile.bundle (t : Tile) : Bundle := Bundle.ofBits (mget 0 t.imem t.pc)

/-- Do two lists of registers share one? -/
def shares (a b : List Nat) : Bool := a.any (fun x => b.contains x)

/-- Faults of a bundle at issue: the lowest slot's first, and within a slot the lowest code (03 R66, R106). -/
def bundleFaults (t : Tile) (member : Nat → Bool) (awaited : Option Nat) (b : Bundle) : List TFault :=
  let rm := matrixRegs b.m
  let rv := vectorRegs b.v
  let rs := shuttleRegs b.s
  let rc := controlRegs b.c
  illegal t.pc 0 b.m (shares rm (rv ++ rs ++ rc)) ++ matrixFaults t b.m
  ++ illegal t.pc 1 b.v (shares rv (rs ++ rc)) ++ vectorFaults t b.v
  ++ illegal t.pc 2 b.s (shares rs rc) ++ shuttleFaults t member b.s
  ++ controlFaults t member awaited b.c

/-- Is every stream empty: has every descriptor completed? (03 R100) -/
def Tile.streamsEmpty (t : Tile) : Bool := t.streams.all (fun e => e.2.queue.isEmpty)

/-- Does a slot hold the bundle at issue? (03 R65, R78, R79, R99, R100). Engine results land before the next bundle issues,
so a fence waits on descriptors only. -/
def heldBy (t : Tile) (b : Bundle) : Bool :=
  (b.s / 2 ^ 28 == 1 && decide (32 ≤ t.queued (sqStream b.s)))
  || (match b.c / 2 ^ 26 with
      | 5 => decide (t.sem (bits b.c 25 23) < bits b.c 22 15)
      | 6 => bit b.c 2 && !t.streamsEmpty
      | 7 => decide (t.crel.toNat < bits b.c 25 10)
      | 8 => bit b.c 25 && !t.streamsEmpty
      | _ => false)

/-- Sets what a tile does next; a copying SQ comes first. -/
def Tile.andThen (t : Tile) (r : TileRun) : Tile :=
  match t.run with
  | .copying st a step left pc _ => { t with run := .copying st a step left pc r }
  | _ => { t with run := r }

/-- The control slot's effect on its own tile: registers first, then where issue goes on. `info` answers TINFO. SEED takes
effect after the bundle's conversions, which draw from the old seed and counter (DESIGN CHOICE, log 101). -/
def runControl (info : Nat → Nat) (t0 t : Tile) (w : Nat) : Tile :=
  let a := bits w 25 22
  let t := match w / 2 ^ 26 with
    | 5 => t.setSem (bits w 25 23) (t0.sem (bits w 25 23) - bits w 22 15)
    | 0x0A => { t.advance t0 a 1 with seed := BitVec.ofNat 64 (t0.spool.num (t0.rowAddr a 0) 8), dither := 0 }
    | 0x0B => t.setI a t0.status.toNat
    | 0x0D => t.setA a (bits w 21 0 * 4)
    | 0x0E => t.setStep a (BitVec.ofNat 22 (bits w 21 0))
    | 0x0F => t.setA a ((t0.a a : Int) + toSigned 22 (bits w 21 0))
    | 0x10 => t.setI a (bits w 21 0)
    | 0x11 => t.setI a (ofInt 32 ((t0.i a : Int) + toSigned 22 (bits w 21 0)))
    | 0x12 => (t.advance t0 (bits w 21 18) 1).setI a (t0.spool.num (t0.rowAddr (bits w 21 18) 0) 4)
    | 0x13 => t.setI a (info (bits w 21 20))
    | _ => t
  match w / 2 ^ 26 with
  | 1 | 2 | 3 => if branchTaken t0 w then t.goto (branchTarget t0.pc w).toNat else t.after t0.pc
  | 4 =>
    if loopCount t0 w = 0 then t.after (loopLast t0.pc w)
    else { t with pc := t0.pc + 1, loops := ⟨t0.pc + 1, loopLast t0.pc w, loopCount t0 w⟩ :: t.loops }
  | 0x14 => t.andThen (.atBow (bowNum w) (bit w 25) false)
  | 0x15 => t.andThen (.atBow 0xFFFF false true)
  | 0x16 => t.andThen .halted
  | _ => t.after t0.pc

/-- The bow number at which other tiles of the bolt wait (03 R103). -/
def State.awaited (s : State) (b t : Nat) : Option Nat :=
  (s.boltTiles b).findSome? (fun x =>
    if x = t then none
    else match (s.tile x).run with
      | .atBow n _ _ => some n
      | _ => none)

/-- TINFO's answers (03 R79). -/
def State.tinfo (s : State) (b t sel : Nat) : Nat :=
  match sel with
  | 0 => s.localNo t
  | 1 => s.wholeTiles b
  | _ => (s.ctx b).blk

/-- Issue past the stream's last bundle is a TF_PC fault (03 R80). `last` is the bundle issued last. -/
def State.settle (s : State) (t last : Nat) : State :=
  let x := s.tile t
  if x.run = .running ∧ x.streamLen ≤ x.pc then s.tileFault t ⟨6, last % 2 ^ 13, x.pc, 0⟩ else s

/-- Effects of the control slot beyond its own tile: SEMSIG and TMARK. -/
def State.controlOut (s : State) (b t : Nat) (t0 : Tile) (w : Nat) : State :=
  match w / 2 ^ 26 with
  | 6 =>
    let lt := if bits w 25 10 = 0xFFFF then s.localNo t else bits w 25 10
    s.semSignal b t (s.stepClass b) lt (bits w 9 7) (bits w 6 3 + 1)
  | 9 => s.traceMark t (bits w 25 14) t0
  | _ => s

/-- A tile after its bundle has issued, and the fault of a later descriptor of its SQ. -/
def bundleRun (lt : Nat) (info : Nat → Nat) (member : Nat → Bool) (t0 : Tile) (b : Bundle) : Tile × Option TFault :=
  let t := { (if b.c / 2 ^ 26 = 0x0C then t0.clearFlags (bits b.c 25 18) else t0) with run := .running }
  let t := runMatrix lt t0 t b.m
  let t := runVector lt t0 t b.v
  let q := runShuttle member t0 t b.s
  (runControl info t0 q.1 b.c, q.2)

/-- Issues the bundle at a tile's program counter: a fault takes effect before any slot; a slot that cannot issue holds the
bundle; else all four slots run. -/
def State.issue (s : State) (t : Nat) : State :=
  let t0 := s.tile t
  let b := t0.bundle
  match s.tileBolt t with
  | none => s
  | some k =>
    match bundleFaults t0 (s.boltHas k) (s.awaited k t) b with
    | f :: _ => s.tileFault t f
    | [] =>
      if heldBy t0 b then s.setTile t { t0 with run := .heldIssue }
      else
        let r := bundleRun (s.localNo t) (s.tinfo k t) (s.boltHas k) t0 b
        let s := (s.setTile t r.1).controlOut k t t0 b.c
        match r.2 with
        | some f => s.tileFault t f
        | none => s.settle t t0.pc

/-- May the tile issue at all: its site live, not in hold, its slot not gated, the device running? (03 R65; 11 R366, R368) -/
def State.mayIssue (s : State) (t : Nat) : Bool := s.live && s.siteLive t && !(s.tile t).hold && !(s.tile t).gated

/-- The issue of a bundle of the words given: it takes place when the tile is issuing and they are the bundle at its program
counter. -/
def State.issueWords (s : State) (t : Nat) (b : Bundle) : State :=
  if s.mayIssue t ∧ (s.tile t).run = .running ∧ (s.tile t).bundle = b then s.issue t else s

/-- A held bundle whose control slot has the opcode `op` is tried again. -/
def State.reissue (s : State) (t op : Nat) : State :=
  if s.mayIssue t ∧ (s.tile t).run = .heldIssue ∧ (s.tile t).bundle.c / 2 ^ 26 = op then s.issue t else s

/-- A bundle whose SQ has copied its last descriptor ends, and the tile does what comes next. One that arrives so at a bow point
where others wait at another number faults (03 R103). -/
def State.arrive (s : State) (b t pc : Nat) (next : TileRun) (x : Tile) : State :=
  let u := s.setTile t x
  match next, s.awaited b t with
  | .atBow n _ _, some m => if n = m then u else u.tileFault t ⟨0x00A, pc % 2 ^ 13, n, m⟩
  | _, _ => u.settle t pc

/-- A slot has freed in a full stream: a held SQ issues, and a copying one goes on (03 R78). -/
def State.streamRoom (s : State) (t k : Nat) : State :=
  let x := s.tile t
  match s.tileBolt t with
  | none => s
  | some b =>
    if !s.mayIssue t || decide (32 ≤ x.queued k) then s
    else match x.run with
      | .heldIssue => if x.bundle.s / 2 ^ 28 = 1 ∧ sqStream x.bundle.s = k then s.issue t else s
      | .copying st a step left pc next =>
        if st ≠ k then s
        else
          let r := x.copyDescs { x with pc := pc } (s.boltHas b) st step a left
          match r.2.2.2 with
          | some f => (s.setTile t r.1).tileFault t f
          | none =>
            if r.2.2.1 = 0 then s.arrive b t pc next { r.1 with run := next }
            else s.setTile t { r.1 with run := .copying st r.2.1 step r.2.2.1 pc next }
      | _ => s

end Sys2Proof.Machine
end

