-- ==== Sys2Proof/Machine/Bow.lean ====
section
/-! DEFINITION. Bow points and drains (03_engine_tile.md R101, R103 to R105; 09_host_objects.md R315, R316). -/

namespace Sys2Proof.Machine

/-- Does the tile wait at a bow point? -/
def Tile.bowing (t : Tile) : Bool :=
  match t.run with
  | .atBow _ _ _ => true
  | _ => false

/-- Is the bow point that the tile waits at a step end? -/
def Tile.atStepEnd (t : Tile) : Bool :=
  match t.run with
  | .atBow _ _ e => e
  | _ => false

/-- KEEP of the bow point. -/
def Tile.bowKeep (t : Tile) : Bool :=
  match t.run with
  | .atBow _ k _ => k
  | _ => false

/-- A tile passes its bow point: issue goes on at the next bundle, and a STEPEND advances STEP, CREL and NCREL (R101,
R104). -/
def Tile.passBow (t : Tile) : Tile :=
  let u := { t.after t.pc with run := .running }
  if t.atStepEnd then { u with step := u.step + 1, crel := u.ncrel, ncrel := 0 } else u

/-- Semaphores of a tile that are not 0, as bits. -/
def Tile.semBits (t : Tile) : Nat := (List.range 8).foldl (fun n k => if t.sem k = 0 then n else n + 2 ^ k) 0

/-- Has every tile of the bolt on this module reached the bow point, or HALT? One that has just joined the bolt waits for its
step boundary and is not awaited. -/
def State.bowReady (s : State) (b : Nat) : Bool :=
  let l := s.activeTiles b
  let d := (s.ctx b).drain
  s.loaded b && !l.isEmpty && l.all (fun t => (s.tile t).bowing || (s.tile t).run == .halted)
  && (l.any (fun t => (s.tile t).bowing) || d.isSome) && !((d.map (fun x => x.stopped)).getD false)

/-- Are the streams of every tile of the bolt empty, and no signal of it on its way to another module? -/
def State.bowQuiet (s : State) (b : Nat) : Bool :=
  (s.boltTiles b).all (fun t => (s.tile t).streamsEmpty)
  && !s.reqs.any (fun e => match e.2 with
    | some r => r.bolt == b && (match r.owner with
        | .semsig _ => true
        | _ => false)
    | none => false)

/-- Marks the oldest started step ended now. -/
def Ctx.endHead (c : Ctx) (now : Nat) : Ctx :=
  match c.steps with
  | r :: rs => if r.start.isSome && !r.ended then { c with steps := { r with ended := true, endAt := now } :: rs } else c
  | [] => c

/-- The bow point is passed; a tile in HALT has issued its last bundle, and a STEPEND leaves its STEP, CREL and NCREL as they are
(DESIGN CHOICE, log 105). Without a drain the tiles go on, at a STEPEND after the pending moves of their bolt. With one
they stop: the context leaves, or, at the STEPEND of a step not yet delivered, after its delivery. -/
def State.bowPass (s : State) (b : Nat) : State :=
  let at_ := (s.boltTiles b).filter (fun t => (s.tile t).bowing)
  let pcs := at_.map (fun t => (t, (s.tile t).pc))
  let ended := at_.any (fun t => (s.tile t).atStepEnd)
  let keep := (at_.filter (fun t => (s.tile t).bowKeep))
  let s := s.mapTiles at_ Tile.passBow
  let s := if ended then s.updCtx b (fun c => c.endHead s.now) else s
  match (s.ctx b).drain with
  | some d =>
    let waits := ended && (match (s.ctx b).steps with
      | r :: _ => r.ended
      | [] => false)
    if waits then
      let s := s.mapTiles at_ (fun t => { t with run := .stopped })
      s.updCtx b (fun c => { c with drain := some { d with stopped := true } })
    else s.stopDrain b (fun t => keep.contains t)
  | none =>
    let s := if ended then s.boundary b else s
    pcs.foldl (fun s x => if s.tileBolt x.1 = some b then s.settle x.1 x.2 else s) s

/-- BOW_PASS (R103): every tile of the bolt has arrived. A semaphore that is not 0 is a TF_BOW_SEM fault of every arriving
tile; while streams drain the bolt waits.
A stop there, and a switch of blocking, is stagehand 2's work (13 R418). -/
def execBowPass (b : Bolt) (s : State) : Host.Outcome State Fault Refusal :=
  .next (
    if !s.live || !s.bowReady b.val then s
    else
      let at_ := (s.boltTiles b.val).filter (fun t => (s.tile t).bowing)
      if (s.boltTiles b.val).any (fun t => (s.tile t).semBits != 0) then
        at_.foldl (fun s t => s.tileFault t ⟨0x00B, (s.tile t).pc % 2 ^ 13, (s.tile t).semBits, 0⟩) s
      else if s.bowQuiet b.val ∧ (s.serving 2 ∨ (s.ctx b.val).drain.isNone ∧ !s.loom.movePend.contains b.val) then s.bowPass b.val
      else s)

/-- DRAIN (R315, R316): a write of DRAIN_CTL with GO; the PF's only. -/
def execDrain (fn : Fn) (b : Bolt) (val : Word) (s : State) : Host.Outcome State Fault Refusal :=
  .next (
    if !s.live then s
    else if fn ≠ 0 then s.setErr fn 0
    else
      let s := s.setReg (blt b.val 0x190) (val.toNat &&& 2)
      if bit val.toNat 0 then s.drainRequest b.val (bit val.toNat 1) [] else s)

/-- DRAIN_TIMEOUT (R316): no bow point was reached within the timeout. -/
def execDrainTimeout (b : Bolt) (s : State) : Host.Outcome State Fault Refusal :=
  .next (
    if !s.live then s
    else match (s.ctx b.val).drain with
      | some d => if !d.stopped ∧ d.due ≤ s.now then s.drainFail b.val 0 else s
      | none => s)

end Sys2Proof.Machine
end

