-- ==== Sys2Proof/Machine/Cue.lean ====
section
/-! DEFINITION. Cues: the handover to the comparators, firing, late cues, and what each action does
(06_stage_time_cues.md R189 to R200; 03 R101, R102). A cue command names a slot. -/

namespace Sys2Proof.Machine

/-! ### Targets (R190) -/

/-- Sites of this module that a cue record names. -/
def State.cueSites (s : State) (r : CueRec) : List Nat :=
  let all := s.boltTiles r.bolt.toNat
  if r.kind = 1 then all.filter (fun t => decide (r.first ≤ s.localNo t ∧ s.localNo t < r.first + r.num)) else all

/-- Is a slot one of the management plane's? (R188) -/
def mgmtSlot (n : Nat) : Bool := decide (65280 ≤ n)

/-- Argument 0 of CUE_LATE and CUE_REFUSED: slot and bolt. -/
def cueArg0 (n : Nat) (r : CueRec) : Nat := n + 2 ^ 16 * r.bolt.toNat

/-- The bolt of a slot for reports. -/
def cueBolt (n : Nat) (r : CueRec) : Option Nat := if mgmtSlot n then none else some r.bolt.toNat

/-! ### Actions (R191, 03 R101, R102) -/

/-- A tile reads a start-phase argument (03 R101). -/
def State.startPhaseAt (s : State) (arg t : Nat) : State :=
  let x := s.tile t
  let step := bits arg 31 16
  let ph : BitVec 16 := BitVec.ofNat 16 arg
  if step = x.step.toNat then s.setTile t { x with crel := if x.crel.toNat < ph.toNat then ph else x.crel }
  else if step = (x.step + 1).toNat then s.setTile t { x with ncrel := if x.ncrel.toNat < ph.toNat then ph else x.ncrel }
  else s.report t 0x020 0 (s.tileBolt t) arg 0 0

/-- A release credit for a stream of a tile (03 R102). -/
def State.releaseAt (s : State) (arg t : Nat) : State :=
  let k := arg % 16
  let n := mget 0 (s.tile t).credits k
  if n = 255 then s.report t 0x021 0 (s.tileBolt t) arg 0 0
  else s.updTile t (fun x => { x with credits := mset 0 x.credits k (n + 1) })

/-- The oldest round whose number is `want` modulo 256 and for which `open_` holds, from `r` on; `n` bounds the search. -/
def oldestRound (open_ : Nat → Bool) (want : Nat) : Nat → Nat → Nat
  | 0, r => r
  | n + 1, r => if open_ r && r % 256 == want then r else oldestRound open_ want n (r + 1)

/-- Has a node not yet committed or forwarded a round? Where no member of this module contributes, the round's chunks are not
known here: it is over once the node has forwarded a chunk of it and holds no input of it (DESIGN CHOICE, log 109). -/
def State.roundOpen (s : State) (g node r : Nat) : Bool :=
  let u := s.redRunOf g
  let done := mget 0 u.committed (node + 64 * r)
  if mget 0 u.size r = 0 then
    done == 0 || (s.redIn ++ s.redStage).any (fun x => x.group == g && x.node == node && x.round == r)
  else decide (done < mget 0 u.size r)

/-- A node starts its member timer for chunk 0 of a round, unless it runs or the chunk has left (R191). -/
def State.openRedAt (s : State) (b g node round : Nat) : State :=
  if mget 0 (s.redRunOf g).committed (node + 64 * round) ≠ 0 then s
  else if s.redIn.any (fun x => x.group == g && x.node == node && x.round == round && x.chunk == 0)
    || s.redOpen.any (fun x => x.1 == g && x.2.1 == node && x.2.2.1 == round) then s
  else { s with redOpen := s.redOpen ++ [(g, node, round, s.redNow b)] }

/-- OPEN_RED at every node of a group (R191). -/
def State.openRedAll (s : State) (g arg : Nat) : State :=
  match s.redRec g with
  | none => s
  | some r =>
    let u := s.redRunOf g
    let top := u.next.foldl (fun n e => max n e.2) 0
    (List.range r.nodes.length).foldl (fun s n =>
      if ((r.nodes[n]?).map (fun x => x.port)).getD true then s
      else s.openRedAt r.bolt g n (oldestRound (s.roundOpen g n) (arg % 256) (top + 512) 0)) s

/-- SHIFT_POWER: the shares move when their sum is the reservation; else CUE_REFUSED (R192). -/
def State.shiftPowerTo (s : State) (n : Nat) (r : CueRec) (arg : Nat) : State :=
  let b := r.bolt.toNat
  let v : Shares := ⟨bits arg 11 0, bits arg 23 12, bits arg 35 24⟩
  let res := ((s.loom.live.bolt? b).map (fun x => x.pwrRes)).getD 0
  if v.compute + v.memory + v.links = res then
    ({ s with power := { s.power with
        shares := mset Shares.reset s.power.shares b v, inForce := mset Shares.reset s.power.inForce b v } }).updateFloors
  else s.report unitStu 0x0A1 0 (some b) (cueArg0 n r) (arg % 2 ^ 32) res

/-- What occurrence `k` of a slot does (R191). -/
def State.cueEffect (s : State) (n k : Nat) (r : CueRec) : State :=
  let arg := r.argOf k
  match r.action.toNat with
  | 1 => (s.cueSites r).foldl (fun s t => s.startPhaseAt arg t) s
  | 2 => (s.cueSites r).foldl (fun s t => s.releaseAt arg t) s
  | 3 => s.openRedAll r.group arg
  | 4 => s.signal r.fenceNo arg 0 false
  | 5 => s.shiftPowerTo n r arg
  | 6 => s.goLive
  | _ => s

/-! ### Order (R197) -/

/-- Rank of an action among cues of one stage time. -/
def cueRank (a : Nat) : Nat :=
  match a with
  | 6 => 0
  | 5 => 1
  | 3 => 2
  | 2 => 3
  | 1 => 4
  | _ => 5

/-- Stage time at which an occurrence fires that fires now or later: a late one, not handed over, fires now. -/
def CueSlotSt.firesAt (c : CueSlotSt) (now : Nat) : Nat := if c.handed then c.fireAt else now

/-- Does an occurrence come before another: by the stage time at which it fires, then by action, then by slot? -/
def cueBefore (now : Nat) (x y : Nat × CueSlotSt) : Bool :=
  let a := (x.2.firesAt now, cueRank x.2.record.action.toNat, x.1)
  let b := (y.2.firesAt now, cueRank y.2.record.action.toNat, y.1)
  decide (a.1 < b.1 ∨ (a.1 = b.1 ∧ (a.2.1 < b.2.1 ∨ (a.2.1 = b.2.1 ∧ a.2.2 < b.2.2))))

/-- Handed slots. -/
def State.handedCues (s : State) : List (Nat × CueSlotSt) :=
  s.cues.filterMap (fun e => match e.2 with
    | some c => if c.handed then some (e.1, c) else none
    | none => none)

/-- Slots whose occurrence waits in a comparator of a tile, or of the unit of a target kind. -/
def State.tilePending (s : State) (t : Nat) : Nat :=
  (s.handedCues.filter (fun x => decide (x.2.record.kind ≤ 1) && (s.cueSites x.2.record).contains t)).length
def State.unitPending (s : State) (r : CueRec) : Nat :=
  (s.handedCues.filter (fun x => x.2.record.kind == r.kind && (r.kind != 2 || x.2.record.group == r.group))).length

/-- Has every target a comparator free: eight at a tile, 32 elsewhere? (R196) -/
def State.comparatorsFree (s : State) (r : CueRec) : Bool :=
  if r.kind ≤ 1 then (s.cueSites r).all (fun t => decide (s.tilePending t < 8)) else decide (s.unitPending r < 32)

/-- Does firmware hold the cue: a start-phase cue of a serving step whose running order is not complete? (01 R27) R27 speaks of the
step's first; the others that fall due meanwhile are held too (DESIGN CHOICE, log 96). -/
def State.heldForBuild (s : State) (c : CueSlotSt) : Bool :=
  match c.stepSeq with
  | none => false
  | some sq =>
    let b := c.record.bolt.toNat
    c.record.action == 1 && (s.ctx b).steps.any (fun r => r.seq == sq && r.serving)
      && (mget Serve.reset s.serve b).items.isNone

/-- Can a slot fire late now: every target can take it, and nothing holds it? (R198, R199) -/
def State.lateNow (s : State) (c : CueSlotSt) : Bool :=
  !c.handed && decide (c.fireAt ≤ s.now) && !s.heldForBuild c && s.comparatorsFree c.record
    && (match c.lastAt with
        | some t => decide (t + 100 ≤ s.now)
        | none => true)

/-- Slots with an occurrence that fires at this stage time, in time or late. -/
def State.dueCues (s : State) : List (Nat × CueSlotSt) :=
  s.cues.filterMap (fun e => match e.2 with
    | some c => if (c.handed && decide (c.fireAt ≤ s.now)) || s.lateNow c then some (e.1, c) else none
    | none => none)

/-- Is a slot's occurrence next in the order of R197 among those that fire at this stage time? -/
def State.nextDue (s : State) (n : Nat) (c : CueSlotSt) : Bool := !s.dueCues.any (fun x => cueBefore s.now x (n, c))

/-- The slot whose comparators fire now, if it holds an occurrence with an action that is next in order (R196, R197). -/
def State.firing (s : State) (n a : Nat) : Option CueSlotSt :=
  if !s.live then none
  else match s.cue n with
    | none => none
    | some c =>
      if c.handed ∧ c.record.action.toNat = a ∧ c.fireAt ≤ s.now ∧ s.nextDue n c then
        some c
      else none

/-- Fires the next occurrence of a slot. -/
def State.fire (s : State) (n a : Nat) : State :=
  match s.firing n a with
  | none => s
  | some c => (s.afterFire n c.occ c).cueEffect n c.occ c.record

/-- START_PHASE (03 R101): advances CREL or NCREL of each target tile. -/
def execStartPhase (slot : CueSlot) (s : State) : Host.Outcome State Fault Refusal := .next (s.fire slot.toNat 1)

/-- RELEASE_STREAM (03 R102): adds a release credit to a stream of each target tile. -/
def execReleaseStream (slot : CueSlot) (s : State) : Host.Outcome State Fault Refusal := .next (s.fire slot.toNat 2)

/-- OPEN_RED (R191): starts the member timers of a group's nodes. -/
def execOpenRed (slot : CueSlot) (s : State) : Host.Outcome State Fault Refusal := .next (s.fire slot.toNat 3)

/-- SIGNAL_FENCE (R191): signals a fence. -/
def execSignalFence (slot : CueSlot) (s : State) : Host.Outcome State Fault Refusal := .next (s.fire slot.toNat 4)

/-- SHIFT_POWER (R192): moves a bolt's reservation between its shares. -/
def execShiftPower (slot : CueSlot) (s : State) : Host.Outcome State Fault Refusal := .next (s.fire slot.toNat 5)

/-- SCENE_CHANGE (08 R274): the armed scene goes live. -/
def execSceneChange (slot : CueSlot) (s : State) : Host.Outcome State Fault Refusal := .next (s.fire slot.toNat 6)

/-! ### Handover (R196) -/

/-- CUE_HANDOVER (R196): the dispatcher hands the next occurrence to every target's comparator, within the 4 µs before its
fire time and at least 2 ns before it. -/
def execCueHandover (slot : CueSlot) (s : State) : Host.Outcome State Fault Refusal :=
  .next (match s.cue slot.toNat with
    | none => s
    | some c =>
      if s.live ∧ !c.handed ∧ c.fireAt ≤ s.now + 4000 ∧ s.now + 2 ≤ c.fireAt ∧ s.comparatorsFree c.record
        ∧ !s.heldForBuild c then
        s.setCue slot.toNat (some { c with handed := true })
      else s)

/-! ### Late cues (R198, R199) -/

/-- Codes of R198. -/
def lateCode : LateCause → Nat
  | .armedLate => 1
  | .comparatorsFull => 2
  | .heldForBuild => 3
  | .slewed => 4

/-- Can an occurrence be late for a cause? One armed 4 µs or more ahead is never late for the first, and only a start-phase cue of a
step is held for its running order (R198, 01 R27). -/
def CueSlotSt.lateFor (c : CueSlotSt) (cause : LateCause) : Bool :=
  match cause with
  | .armedLate => decide (c.fireAt < c.armedAt + 4000)
  | .heldForBuild => c.record.action == 1 && c.stepSeq.isSome
  | _ => true

/-- The occurrence that a late slot fires: the next, or under COAL the last one due (R199). -/
def CueSlotSt.lateOcc (c : CueSlotSt) (now : Nat) : Nat :=
  if !c.record.coal || c.record.period == 0 || c.lastOne then c.occ
  else
    let due := c.occ + (now - c.fireAt) / c.record.period.toNat
    if c.record.count = 0xFFFF then due else min due c.record.count.toNat

/-- The records of a late firing: CUE_LATE, the bolt's counter and maximum, and cause 0x7 for the steps that have started
before its fire time and are not delivered (R198, R206). -/
def State.reportLate (s : State) (n cause k : Nat) (c : CueSlotSt) : State :=
  let at_ := unpackTime c.record.fire + k * c.record.period.toNat
  let late := min (s.now - at_) 0xFFFFFFFF
  let s := s.report unitStu 0x0A0 0 (cueBolt n c.record) (cueArg0 n c.record + 2 ^ 24 * cause) late (k - c.occ)
  match cueBolt n c.record with
  | none => s
  | some b =>
    let s := s.bump (blt b 0x910) 1
    let s := if s.reg (blt b 0x918) < late then s.setReg (blt b 0x918) late else s
    s.voidWhere b 7 unitStu (fun r => match r.start with
      | some t => decide (t ≤ at_)
      | none => false)

/-- The slot after a late occurrence `k`: later occurrences already due keep 100 ns from it (R199). -/
def State.afterLate (s : State) (n k : Nat) (c : CueSlotSt) : State :=
  if c.isLast k then s.setCue n none
  else s.setCue n (some { c with occ := k + 1, handed := false, lastAt := some s.now })

/-- CUE_LATE (R198): an occurrence that was not handed over in time fires late on all its targets, with its cause, in the
order of R197. -/
def execCueLate (slot : CueSlot) (cause : LateCause) (s : State) : Host.Outcome State Fault Refusal :=
  .next (match s.cue slot.toNat with
    | none => s
    | some c =>
      if s.live && s.lateNow c && c.lateFor cause && s.nextDue slot.toNat c then
        let k := c.lateOcc s.now
        ((s.afterLate slot.toNat k c).cueEffect slot.toNat k c.record).reportLate slot.toNat (lateCode cause) k c
      else s)

end Sys2Proof.Machine
end

