-- ==== Sys2Proof/Machine/Incident.lean ====
section
/-! DEFINITION. INC: the intake of reports, the ring and the fatal slots, the halt, and the registers that software writes
there (14_incidents_understudy.md R441 to R452, R457; 12 R394; 13 R435). -/

namespace Sys2Proof.Machine

/-! ### Accepting a record -/

/-- Slots of the general ring (R446). -/
def ringSlots : Nat := 4032

/-- INC_TAIL: the oldest slot waiting (R448). -/
def Inc.tail (i : Inc) : Nat := (i.head + ringSlots - i.cnt) % ringSlots

/-- INC_STAT as it reads (R449). -/
def State.incStat (s : State) : Nat := s.reg 0x40000 + 4 * b2n s.inc.halted + 8 * b2n (!s.inc.fatal.isEmpty)

/-- PF vector 0, when none was sent in the last 10 µs (R448). -/
def State.incSignal (s : State) : State :=
  let due : Bool := match s.inc.sigAt with
    | some t => decide (t + 10000 ≤ s.now)
    | none => true
  if due && !s.inc.halted then { s.msix 0 0 with inc := { s.inc with sigAt := some s.now } } else s

/-- A record enters the general ring (R446, R448), or finds it full and is dropped (R447). -/
def State.incWrite (s : State) (r : Incident) : State :=
  if s.inc.cnt < ringSlots then
    { s with inc := { s.inc with
        ring := mset none s.inc.ring s.inc.head (some r)
        head := (s.inc.head + 1) % ringSlots
        cnt := s.inc.cnt + 1 } }.incSignal
  else s.dropReport r.unit_

/-- A class 4 record enters the next fatal slot, or finds them full (R446). -/
def State.fatalWrite (s : State) (r : Incident) : State :=
  if r.cls = 4 then
    if r.fatal then { s with inc := { s.inc with fatal := s.inc.fatal ++ [r] } } else s.orReg 0x40000 2
  else s

/-- The bolt's view of a record that names it (R450). -/
def State.boltView (s : State) (r : Incident) : State :=
  match r.bolt with
  | none => s
  | some b =>
    let w := r.cls * 4096 + r.code + 2 ^ 16 * r.unit_
    let s := (s.setReg (blt b 0x1004) w).bump (blt b 0x1010) 1
    if bit (s.reg (blt b 0x1000)) 31 then s
    else (s.setReg (blt b 0x1000) (w + 2 ^ 31)).setReg64 (blt b 0x1008) r.time.toNat

/-- A record as the words of a booth notification (13 R435). -/
def Incident.words (r : Incident) : List Nat := (List.range 16).map (fun k => wordAt r.bytes k)

/-- Every booth session. -/
def State.sessions (s : State) : List (Nat × BoothSess) :=
  s.fw.sess.filterMap (fun (e : Nat × Option BoothSess) => e.2.map (fun x => (e.1, x)))

/-- The booth tells the sessions that subscribed to the record's class (13 R435 INC_SUBSCRIBE). -/
def State.tellIncident (s : State) (r : Incident) : State :=
  if !s.boothUp || s.inc.halted then s
  else (s.sessions.filter (fun x => match x.2.sub with
      | some c => decide (c ≤ r.cls)
      | none => false)).foldl (fun s x => s.emit (.notify x.1 0xC001 r.words)) s

/-- INC accepts a report: it takes the next SEQ and its source's DROPS, and goes to the fatal slots, the ring, the
subscribers and the bolt's view (R441, R446, R447, R450). Answers the record too. -/
def State.accept (s : State) (r : Incident) : State × Incident :=
  let c := s.src r.unit_
  let r := { r with
    seq := s.inc.seq, drops := c.drops, fatal := decide (r.cls = 4) && decide (s.inc.fatal.length < 64) }
  let s := s.setSrc r.unit_ { c with drops := 0 }
  let s := { s with inc := { s.inc with seq := s.inc.seq + 1 } }
  (((s.fatalWrite r).incWrite r).boltView r |>.tellIncident r, r)

/-- A report of INC itself, which it accepts as it makes it: its first and last registers take it (R449). -/
def State.incReport (s : State) (code cls a0 a1 a2 : Nat) : State :=
  let c := s.src unitInc
  let view : Nat × Option Nat × DWord := (cls * 4096 + code, none, s.time)
  let s := s.setSrc unitInc { c with
    last := some view
    first := match c.first with
      | some x => some x
      | none => some view }
  (s.accept {
    cls := cls, code := code, unit_ := unitInc, bolt := none, fatal := false, scene := s.loom.live.num, seq := 0,
    time := s.time, arg0 := BitVec.ofNat 64 a0, arg1 := BitVec.ofNat 64 a1, arg2 := BitVec.ofNat 64 a2,
    module_ := s.modNum, drops := 0 }).1

/-- INC_OVERFLOW, as soon as the ring has room after a drop (R447). -/
def State.flushOverflow (s : State) : State :=
  if 0 < s.inc.ovCount ∧ s.inc.cnt < ringSlots then
    let n := s.inc.ovCount
    let u := s.inc.ovUnit.getD 0
    { s with inc := { s.inc with ovCount := 0, ovUnit := none } }.incReport 0x1A0 0 n u s.incStat
  else s

/-- A halted device serves HELLO, STATUS, INC_READ, PB_READ and MODULE_RESET alone: what else waits is answered STATE (R457). -/
def State.haltLines (s : State) : State :=
  s.sessions.foldl (fun s e => s.advanceLine e.1 e.2 (e.2.waiting.map (fun w =>
    if w.1 ≠ 1 ∧ w.2.2.isNone then (w.1, w.2.1, some (boothState, [])) else w))) s

/-! ### The halt (R457; 12 R394) -/

/-- The keys of a region are erased. -/
def RegRun.erase (q : RegRun) : RegRun :=
  if q.st = .clear then q else { q with st := .keyless, key := none, oldKey := none }

/-- A class 4 record of another's was accepted: DEVICE_HALT goes to the next fatal slot; the tiles stop; every region and
session key is erased, so no port sends and no memory is written any more; the playbills not of HELLO are dropped;
TWIN_OK_OUT falls; the host learns it by AER and the booth sessions by HALT; requests that a halted device does not serve are
answered. -/
def State.halt (s : State) (r : Incident) : State :=
  let s := s.incReport 0x1A5 4 (r.cls * 4096 + r.code) r.unit_ r.seq.toNat
  let s := { s with
    tiles := s.tiles.map (fun (e : Nat × Tile) => (e.1, { e.2 with run := TileRun.stopped }))
    sess := []
    sec := { s.sec with
      erased := true
      regions := s.sec.regions.map (fun (e : Nat × RegRun) => (e.1, e.2.erase))
      pb := s.sec.pb.filter (fun p => p.hello) }
    pins := { s.pins with twinOkOut := false }
    inc := { s.inc with halted := true, haltAt := s.now } }
  let s := if s.pins.perst0N then s.emit .aer else s
  let s := { s with fns := mset FnSt.reset s.fns 0 { s.fnSt 0 with aer := true } }
  if s.boothUp then
    (s.sessions.foldl (fun s x => s.emit (.notify x.1 0xC002 ((r.cls * 4096 + r.code) :: r.words))) s).haltLines
  else s

/-! ### The commands -/

/-- The unit served next among those of `l`: the first after the one served last (R445). -/
def State.nextUnit (s : State) (l : List Nat) : Option Nat :=
  let pick := fun (l : List Nat) => l.foldl (fun (m : Option Nat) u => match m with
    | some x => some (min x u)
    | none => some u) none
  match pick (l.filter (fun u => decide (s.inc.rr < u))) with
  | some u => some u
  | none => pick l

/-- The pending report that INC takes next: class 4 first, otherwise by turn of the units (R445), and the state without it. -/
def State.takeReport (s : State) : Option (State × Incident) :=
  let four := (s.inc.src.filter (fun (e : Nat × IncSrc) => !e.2.pend4.isEmpty)).map (fun e => e.1)
  match s.nextUnit four with
  | some u =>
    let c := s.src u
    match c.pend4 with
    | r :: rest => some ({ s.setSrc u { c with pend4 := rest } with inc := { (s.setSrc u { c with pend4 := rest }).inc with rr := u } }, r)
    | [] => none
  | none =>
    let any := (s.inc.src.filter (fun (e : Nat × IncSrc) => e.2.pend.isSome)).map (fun e => e.1)
    match s.nextUnit any with
    | some u =>
      let c := s.src u
      match c.pend with
      | some r => some ({ s.setSrc u { c with pend := none } with inc := { (s.setSrc u { c with pend := none }).inc with rr := u } }, r)
      | none => none
    | none => none

/-- INC runs whenever the rails are up and no reset is in progress. -/
def State.incUp (s : State) : Bool := s.pins.inReset.isNone && s.pins.resetN && s.pins.pwrGood

/-- INC_INTAKE (R445, R447, R457): INC accepts one pending report, behind INC_OVERFLOW if one is due. The first class 4
record halts the device. -/
def execIncIntake (s : State) : Host.Outcome State Fault Refusal :=
  .next (
    if !s.incUp then s
    else match s.takeReport with
      | none => s.flushOverflow
      | some x =>
        let a := x.1.flushOverflow.accept x.2
        if x.2.cls = 4 ∧ !s.inc.halted then a.1.halt a.2 else a.1)

/-- FAULT_N_ASSERT (R457, 15 R487): 100 ms after the halt. -/
def execFaultNAssert (s : State) : Host.Outcome State Fault Refusal :=
  .next (
    if s.inc.halted ∧ s.inc.haltAt + 100000000 ≤ s.now then { s with pins := { s.pins with faultN := false } } else s)

/-- INC_TAIL_WRITE (R448): the PF releases the slots from the old tail up to `val`. -/
def execIncTailWrite (fn : Fn) (val : Word) (s : State) : Host.Outcome State Fault Refusal :=
  .next (
    if !s.regsUp fn 0x40008 then s
    else if fn ≠ 0 then s.setErr fn 0
    else
      let v := val.toNat % 4096
      let n := if v = s.inc.tail ∧ s.inc.cnt = ringSlots then ringSlots else (v + ringSlots - s.inc.tail) % ringSlots
      if ringSlots ≤ v ∨ s.inc.cnt < n then s.setErr 0 3
      else { s with inc := { s.inc with cnt := s.inc.cnt - n } }.flushOverflow)

/-- INC_SRC_CLEAR (R449): writing 1 to FIRST.VALID clears FIRST and LAST of the selected source. -/
def execIncSrcClear (fn : Fn) (val : Word) (s : State) : Host.Outcome State Fault Refusal :=
  .next (
    if !s.regsUp fn 0x40024 then s
    else if fn ≠ 0 then s.setErr fn 0
    else if bit val.toNat 31 then
      let u := bits (s.reg 0x40020) 11 0
      s.setSrc u { s.src u with first := none, last := none }
    else s)

/-- BLT_INC_CLEAR (R450): the PF or the bolt's VF writes 1 to VALID. -/
def execBltIncClear (fn : Fn) (b : Bolt) (val : Word) (s : State) : Host.Outcome State Fault Refusal :=
  .next (
    if !s.regsUp fn (blt b.val 0x1000) || !s.ownsWindow fn b.val then s
    else if bit val.toNat 31 then ((s.setReg (blt b.val 0x1000) 0).setReg (blt b.val 0x1004) 0).setReg64 (blt b.val 0x1008) 0
    else s)

/-- COUNTER_SAT_CLEAR (R452): writing 1 to SAT of a counter's `_HI` register clears SAT and the counter. Only the PF may; a
VF's write is ignored and sets UNIMPL. -/
def execCounterSatClear (fn : Fn) (off : Nat) (val : Word) (s : State) : Host.Outcome State Fault Refusal :=
  .next (
    if !s.regsUp fn off then s
    else match regPlace s fn off with
      | .map o =>
        let counter : Bool := o = 0x40044 || match regDef o with
          | some r => r.attr == .counter
          | none => false
        if !counter then s
        else if fn ≠ 0 then s.setErr fn 0
        else if !isPairHi o || !bit val.toNat 31 then s
        else if o = 0x40044 then
          let u := bits (s.reg 0x40020) 11 0
          s.setSrc u { s.src u with dropCnt := Ctr.reset }
        else { s with ctrs := mset Ctr.reset s.ctrs (o - 4) Ctr.reset }
      | _ => s)

end Sys2Proof.Machine
end

