-- ==== Sys2Proof/Machine/Understudy.lean ====
section
/-! DEFINITION. The understudy: pairing, the mirror stream at the twin, mirrored checkpoints, degradation and promotion
(14_incidents_understudy.md R461 to R468). -/

namespace Sys2Proof.Machine

/-! ### Pairing (R461, R468) -/

/-- MODE as a region record codes it (08 R264). -/
def modeCode (m : RegionMode) : Nat :=
  match m with
  | .clear => 0
  | .veiled => 1
  | .sealed => 2

/-- This module's mirrored regions of a bolt, with their region indices. -/
def State.mirrorRegions (s : State) (b : Nat) : List (Nat × Region) :=
  (s.loom.live.regions.zipIdx.filter (fun x => x.1.redund == .mirrored && x.1.bolt == b)).map (fun x => (x.2, x.1))

/-- How two descriptions of one mirrored region differ: the field of US_CFG_MISMATCH, if any: 2 space or offset, 3 size,
4 mode, 5 placement. -/
def regionDiff (r : Region) (q : Nat × Nat × Nat × Bool) : Option Nat :=
  if r.base % 2 ^ 52 ≠ q.1 % 2 ^ 52 then some 2
  else if r.size ≠ q.2.1 then some 3
  else if modeCode r.mode ≠ q.2.2.1 then some 4
  else if !q.2.2.2 then some 5
  else none

/-- The first region that differs: its index and the field; a region that one side lacks differs in existence. -/
def regionsDiff (k : Nat) : List (Nat × Region) → List (Nat × Nat × Nat × Bool) → Option (Nat × Nat)
  | [], [] => none
  | x :: _, [] => some (x.1, 0)
  | [], _ :: _ => some (k, 0)
  | x :: xs, q :: qs =>
    match regionDiff x.2 q with
    | some f => some (x.1, f)
    | none => regionsDiff (k + 1) xs qs

/-- How a bolt that has MIRROR on the lead differs between the two modules: region index and field: 0 existence, 1 flags. -/
def State.boltDiff (s : State) (b : Nat) (peer : Sys2Proof.PairInfo) : Option (Nat × Nat) :=
  match s.loom.live.bolt? b, peer.bolts.find? (fun x => x.bolt.val == b) with
  | some r, some q =>
    if r.priv && r.mirror && q.priv && q.mirror then regionsDiff 0 (s.mirrorRegions b) q.regions else some (0, 1)
  | _, _ => some (0, 0)

/-- The bolts that have MIRROR on the lead: this module, or the peer. -/
def State.leadBolts (s : State) (peer : Sys2Proof.PairInfo) : List Nat :=
  if s.twin.role = 1 then (s.loom.live.bolts.filter (fun r => r.mirror)).map (fun r => r.bolt)
  else (peer.bolts.filter (fun q => q.mirror)).map (fun q => q.bolt.val)

/-- Compares the bolts: each mismatch raises US_CFG_MISMATCH and leaves its bolt unmirrored. -/
def State.compareBolts (s : State) (u : Nat) (peer : Sys2Proof.PairInfo) : List Nat → State
  | [] => s
  | b :: bs =>
    match s.boltDiff b peer with
    | none => s.compareBolts u peer bs
    | some (k, f) =>
      let s := { s with twin := { s.twin with unmirrored := s.twin.unmirrored ++ [b] } }
      (s.report u 0x1AA 1 (some b) b k f).compareBolts u peer bs

/-- The roles do not make a pair: US_CFG_MISMATCH once. No field of the table stands for roles: a free one. -/
def State.rolesDiffer (s : State) (u : Nat) : State :=
  if s.twin.told then s
  else
    let d := s.draw
    { d.1 with twin := { d.1.twin with told := true } }.report u 0x1AA 1 none 0xFF 0 (Config.freeNat d.2)

/-- U_LINK_PAIRING (R461, R468): the first link-up of U0 or U1 with a twin. A lead that finds its twin PROMOTED takes the role
of understudy. The copy of R464 then makes the pair PAIRED. -/
def execULinkPairing (p : Port) (peer : PairInfo) (s : State) : Host.Outcome State Fault Refusal :=
  .next (
    let w := s.twin
    let u := unitPort p.val
    let first : Bool := match w.mode with
      | .unpaired | .degraded | .promoted => true
      | _ => false
    if !s.live || decide (p.val < 16) || !s.portUp p.val || !first then s
    else if !((w.role == 1 && peer.role == 2) || (w.role == 2 && peer.role == 1)) then s.rolesDiffer u
    else
      let eff := if w.mode = .promoted then 1 else if peer.promoted then 2 else if w.mode = .degraded then w.roleEff else w.role
      let s := { s with twin := { w with twin := peer.module_.toNat, roleEff := eff, unmirrored := [] } }
      let s := (s.compareBolts u peer (s.leadBolts peer)).report u 0x1A6 0 none peer.module_.toNat eff 0
      if w.okIn then s.startSync else s.degrade u 1)

/-- SYNC_COMPLETE (R464): the copy of every mirrored region has reached the twin. The module that holds the live data sends
it; the other receives it in the mirror stream. -/
def execSyncComplete (p : Port) (s : State) : Host.Outcome State Fault Refusal :=
  .next (
    let w := s.twin
    if !s.live || decide (p.val < 16) || !s.portUp p.val || w.mode != .syncing then s
    else
      let bs := (s.loom.live.regions.filter (fun r => r.redund == .mirrored && !w.unmirrored.contains r.bolt)).map (fun r => r.bolt)
      let s := if w.roleEff = 1 then bs.eraseDups.foldl (fun s b => s.emit (.twin p.val b 4 (BitVec.ofNat 64 w.syncAll))) s else s
      let s := { s with twin := { w with mode := TwinMode.paired, syncLeft := 0 } }
      s.report (unitPort p.val) 0x1A8 0 none (w.syncAll % 2 ^ 32) ((s.now - w.syncAt) / 1000000) 0)

/-! ### The mirror stream and the messages of the U-link session at the twin (R462, R463, R467) -/

/-- Is a range inside one mirrored region of the bolt? -/
def State.mirrorRange (s : State) (b sp off len : Nat) : Bool :=
  match s.region? sp off with
  | some (_, r) => r.redund == .mirrored && r.bolt == b && decide (off + len ≤ faOff r.base + r.size)
  | none => false

/-- A message of the U-link session, in the stream under the space code 7, which no memory has: at offset 0 a checkpoint,
which is stored and acknowledged; at 8 the lead's control-plane reset. -/
def State.twinMessage (s : State) (p b off : Nat) (v : Nat) : State :=
  if off = 0 then (s.setReg64 (blt b 0x1110) v).emit (.twin p b 1 (BitVec.ofNat 64 v))
  else if off = 8 then s.report (unitPort p) 0x1AB 0 none s.twin.twin 0 0
  else s

/-- MIRROR_WRITE (R462): the twin performs a mirrored write at the same space and offset, and acknowledges it. A promoted
module accepts none. -/
def execMirrorWrite (p : Port) (b : Bolt) (space : BitVec 3) (off : Nat) (data : List Byte) (s : State) :
    Host.Outcome State Fault Refusal :=
  .next (
    let w := s.twin
    let sp := space.toNat
    if !s.live || decide (p.val < 16) || !s.portUp p.val || w.roleEff != 2 || !(w.mode == .paired || w.mode == .syncing) then s
    else if sp = 7 then s.twinMessage p.val b.val off (leNat (data.take 8))
    else if data.isEmpty || w.unmirrored.contains b.val || !s.mirrorRange b.val sp off data.length then s
    else (s.poke sp off data).emit (.twin p.val b.val 3 (BitVec.ofNat 64 (mkFa s.modNum sp off))))

/-! ### Mirrored checkpoints (R463) -/

/-- Is the bolt mirrored now, with the pair PAIRED? -/
def State.boltPaired (s : State) (b : Nat) : Bool :=
  s.twin.mode == .paired && s.twin.roleEff == 1 && !s.twin.unmirrored.contains b &&
    ((s.loom.live.bolt? b).map (fun r => r.mirror)).getD false

/-- The offset of a register of a bolt window in a function's BAR0. -/
def winOff (fn : Fn) (b off : Nat) : Nat := if fn = 0 then blt b off else off

/-- MIR_CKPT (R463): the write of MIR_CKPT_HI declares the checkpoint that both halves make. -/
def execMirCkpt (fn : Fn) (b : Bolt) (hi : Word) (s : State) : Host.Outcome State Fault Refusal :=
  .next (
    if !s.regsUp fn (winOff fn b.val 0x110C) || !s.ownsWindow fn b.val || s.inc.halted then s
    else
      let h := s.takeLo fn (blt b.val 0x1108)
      let s := h.1
      let v := h.2 + 2 ^ 32 * hi.toNat
      if (mget none s.twin.ckpt b.val).isSome then s.orReg (blt b.val 0x1100) 8
      else if !s.boltPaired b.val then s.orReg (blt b.val 0x1100) 0x10
      else
        let s := s.setReg64 (blt b.val 0x1108) v
        ({ s with twin := { s.twin with
          ckpt := mset none s.twin.ckpt b.val (some ⟨BitVec.ofNat 64 v, s.twin.mirSeq, false⟩) } }).sendCkpt b.val)

/-- MIR_CKPT_ACK (R463 step 3): the twin holds the checkpoint. -/
def execMirCkptAck (b : Bolt) (s : State) : Host.Outcome State Fault Refusal :=
  .next (
    if !s.live then s
    else match mget none s.twin.ckpt b.val with
      | some k =>
        if k.sent then
          { s with twin := { s.twin with ckpt := mset none s.twin.ckpt b.val none } }.setReg64 (blt b.val 0x1110) k.value.toNat
        else s
      | none => s)

/-! ### TWIN_OK_IN and promotion (R464 to R466) -/

/-- TWIN_OK_IN_CHANGE (R464, R465): its fall makes the pair DEGRADED, but for a paired understudy, whose filter of 1 ms
starts; its rise, with a link up, starts the copy of a degraded pair. -/
def execTwinOkInChange (level : Bool) (s : State) : Host.Outcome State Fault Refusal :=
  .next (
    let w := s.twin
    let s := { s with twin := { w with
      okIn := level, okFell := if level then none else if w.okIn then some s.now else w.okFell } }
    if !s.live then s
    else if !level ∧ w.okIn then
      (if w.mode = .syncing ∨ w.mode = .paired ∧ w.roleEff ≠ 2 then s.degrade (unitPort 16) 1 else s)
    else if level ∧ w.mode = .degraded ∧ s.uUp then s.startSync
    else s)

/-- PROMOTION (R465, R466): a paired understudy whose TWIN_OK_IN has been deasserted for 1 ms takes the mirrored bolts. -/
def execPromotion (s : State) : Host.Outcome State Fault Refusal :=
  .next (
    let w := s.twin
    let due : Bool := match w.okFell with
      | some t => decide (t + 1000000 ≤ s.now)
      | none => false
    if !s.live || w.mode != .paired || w.roleEff != 2 || w.okIn || !due then s
    else
      let bs := (s.loom.live.bolts.filter (fun r => r.mirror && !w.unmirrored.contains r.bolt)).map (fun r => r.bolt)
      let s := { s with twin := { w with mode := TwinMode.promoted, roleEff := 1, alias_ := bs, okFell := none } }
      let v := boltBits bs
      bs.foldl (fun s b => s.boltEvent b) (s.report (unitPort 16) 0x1A9 0 none w.twin v.1 v.2))

end Sys2Proof.Machine
end

