-- ==== Sys2Proof/Machine/Cxl.lean ====
section
/-! DEFINITION. The CXL ports: completions, logical devices that are lost, and coded regions (05 R141, R142; 11 R352;
14_incidents_understudy.md R469, R473, R474). -/

namespace Sys2Proof.Machine

/-! ### Devices -/

/-- The live scene's coded regions with their indices. -/
def State.codedRegions (s : State) : List (Nat × Region) :=
  (s.loom.live.regions.zipIdx.filter (fun x => x.1.redund == .coded)).map (fun x => (x.2, x.1))

/-- The part of a coded region that holds a data offset (R474 Placement). -/
def Region.partAt (r : Region) (off : Nat) : Nat :=
  let d := off - faOff r.base
  (d / 16384 + d % 16384 / 4096) % 6

/-- Does the CXL port serve an address of space 1: by a decoder of its own, or in a coded region by its part's decoder or, with
that part lost, by any? -/
def State.portServes (s : State) (cp off : Nat) : Bool :=
  match s.region? 1 off with
  | some (i, r) =>
    if r.redund = .coded then
      (mget [] s.lost i).any (fun x => x.1 == r.partAt off)
        || ((s.loom.live.partDevices r)[r.partAt off]?.bind id).any (fun d => d.1 == cp)
    else s.loom.live.decs.any (fun d => d.port == cp && d.maps off 1)
  | none => s.loom.live.decs.any (fun d => d.port == cp && d.maps off 1)

/-! ### Completions -/

/-- CXL_COMPLETION (11 R347, R352; 14 R474): the response of a device to a request returns at a port after `ns`; without one
within CRU_CPL_TMO the request ends as an uncorrectable error does, unless the twin (R462) or the other parts of a coded
region answer for the device. A failed integrity check of sealed memory halts the device (12 R393). A request that waits for a
release or a key is not served yet. -/
def execCxlCompletion (cp : Fin 2) (r : MemReq) (x : CxlAnswer) (ns : Nat) (s : State) : Host.Outcome State Fault Refusal :=
  .next (
    if !s.live || !s.portServes cp.val r.off then s
    else
      let b := r.bolt.val
      match s.accessStatus b (s.reqSrc r) r.scene 1 r.off (reqSize r) (!r.write) r.write false with
      | none => s
      | some st =>
        let coded : Bool := match s.region? 1 r.off with
          | some (_, y) => y.redund == .coded
          | none => false
        let done := fun (s : State) => if x.answered then s.monitor 1 (unitCxl cp.val) r.cls.val b ns else s
        if st ≠ 0 then done (s.answer r st [])
        else if !x.answered && !coded && !(!r.write && s.twinServes 1 r.off) then s.answer r stUe []
        else match s.integrity 1 r x.mac with
          | some (k, l) => s.integrityFail (unitCxl cp.val) (mkFa s.modNum 1 r.off) k l
          | none => done (s.perform 1 r))

/-! ### Loss of a logical device (R473, R474) -/

/-- Does the bolt hold a window on the device, outside the coded regions? -/
def State.windowOn (s : State) (b cp ld : Nat) : Bool :=
  s.loom.live.wins.any (fun w => w.bolt == b && s.loom.live.decs.any (fun d =>
    d.port == cp && d.ld == ld
      && (let lo := max d.base w.base
          let hi := min (d.base + d.size) (w.base + w.size)
          decide (lo < hi) && !s.codedRegions.any (fun x =>
            decide (faOff x.2.base ≤ lo ∧ hi ≤ faOff x.2.base + x.2.size)))))

/-- A bitmap of parts. -/
def partBits (l : List (Nat × Option Nat)) : Nat := l.foldl (fun a x => a + 2 ^ x.1) 0

/-- A coded region loses the parts that lie on a device: with one or two lost CXL_CODED_DEGRADED, with more CXL_CODED_LOST. -/
def State.loseParts (s : State) (cp ld : Nat) (x : Nat × Region) : State :=
  let old := mget [] s.lost x.1
  let hit := ((s.loom.live.partDevices x.2).zipIdx.filter (fun d =>
    d.1 == some (cp, ld) && !old.any (fun y => y.1 == d.2))).map (fun d => d.2)
  if hit.isEmpty then s
  else
    let l : List (Nat × Option Nat) := old ++ hit.map (fun k => (k, none))
    let s := { s with lost := mset [] s.lost x.1 l }
    if l.length ≤ 2 then s.report (unitCxl cp) 0x1B1 1 (some x.2.bolt) x.1 (partBits l) 0
    else s.raise (unitCxl cp) 0x1B2 3 (some x.2.bolt) x.1 (partBits l) 0

/-- CXL_MEMBER_LOST (R473, R474): a logical device's port leaves link-up, or the device answers no request for CRU_CPL_TMO. -/
def execCxlMemberLost (cp : Fin 2) (decoder : Fin 8) (ld : BitVec 4) (s : State) : Host.Outcome State Fault Refusal :=
  .next (
    let m := (cp.val, ld.toNat)
    if !s.live || s.cxlGone.contains m
        || !s.loom.live.decs.any (fun d => d.port == cp.val && d.index == decoder.val && d.ld == ld.toNat) then s
    else
      let u := unitCxl cp.val
      let bs := (s.loom.live.bolts.filter (fun r => s.windowOn r.bolt cp.val ld.toNat)).map (fun r => r.bolt)
      let w := boltBits bs
      let s := { s with cxlGone := m :: s.cxlGone }
      let s := s.report u 0x1B0 3 none (decoder.val + 2 ^ 8 * ld.toNat) w.1 w.2
      let s := bs.foldl (fun s b => s.boltFail b u 3 0x1B0) s
      s.codedRegions.foldl (fun s x => s.loseParts cp.val ld.toNat x) s)

/-- The device of a part of a coded region. -/
def State.partDevice (s : State) (r part : Nat) : Option (Nat × Nat) :=
  (s.loom.live.regions[r]?).bind (fun x => (s.loom.live.partDevices x)[part]?.bind id)

/-- CXL_MEMBER_RETURN (R474): a lost part's device is back, and the device begins to rebuild the part's chunks. A region that
has lost three parts is lost. -/
def execCxlMemberReturn (r : RegionIx) (part : Fin 6) (s : State) : Host.Outcome State Fault Refusal :=
  .next (
    let l := mget [] s.lost r.val
    if !s.live || 2 < l.length then s
    else match s.partDevice r.val part.val with
      | none => s
      | some d =>
        if !l.contains (part.val, none) then s
        else
          let l' := l.map (fun x => if x.1 = part.val then (x.1, some s.now) else x)
          { s with lost := mset [] s.lost r.val l', cxlGone := s.cxlGone.erase d })

/-- CXL_REBUILT (R474): the part's chunks are rebuilt. -/
def execCxlRebuilt (r : RegionIx) (part : Fin 6) (s : State) : Host.Outcome State Fault Refusal :=
  .next (
    let l := mget [] s.lost r.val
    if !s.live || 2 < l.length then s
    else match l.find? (fun x => x.1 == part.val && x.2.isSome), s.partDevice r.val part.val, s.loom.live.regions[r.val]? with
      | some x, some d, some g =>
        ({ s with lost := mset [] s.lost r.val (l.erase x) }).report (unitCxl d.1) 0x1B3 0 (some g.bolt) r.val part.val
          ((s.now - x.2.getD s.now) / 1000000)
      | _, _, _ => s)

end Sys2Proof.Machine
end

