-- ==== Sys2Proof/Machine/Host.lean ====
section
/-! DEFINITION. The host port: doorbells, windows, call fetch, the command interface, the free FIFO, mailboxes and power
states (09_host_objects.md). -/

namespace Sys2Proof.Machine

/-! ### Doorbells and windows (09 R298, R299) -/

/-- The global queue that a doorbell of a function names. -/
def State.ringQueue (s : State) (fn : Fn) (q : Nat) : Option Nat :=
  if fn = 0 then
    match s.queueBolt q with
    | some b => if s.boltFn b = 0 then some q else none
    | none => none
  else
    match s.fnBolt fn.val with
    | some b =>
      (match s.loom.live.bolt? b with
       | some r => if q < r.queueCount then some (r.queueBase + q) else none
       | none => none)
    | none => none

/-- Pending calls of a queue (09 R298). -/
def QueueSt.pendingCalls (u : QueueSt) : Nat := (u.last + 1 + 65536 - u.head) % 65536

/-- Windows held by all bolts, and by one. -/
def State.windows (s : State) : Nat := (s.queues.filter (fun e => e.2.resident)).length
def State.windowsOf (s : State) (b : Nat) : Nat :=
  (s.queues.filter (fun e => e.2.resident && s.queueBolt e.1 == some b)).length

/-- The window range of a queue's bolt. -/
def State.qwin (s : State) (b : Nat) : Nat × Nat :=
  match s.bolt? b with
  | some r => (r.qwinMin, r.qwinMax)
  | none => (0, 0)

/-- Windows still to be kept free for bolts below their minimum, other than `b` (09 R299). -/
def State.windowsOwed (s : State) (b : Nat) : Nat :=
  s.loom.live.bolts.foldl (fun a r => if r.bolt = b then a else a + (r.qwinMin - s.windowsOf r.bolt)) 0

/-- The window to evict for a queue of bolt `b`: the least recently rung that holds no fetched call, of a bolt above its minimum;
a bolt that holds its QWIN_MAX windows can give up only one of its own (09 R299). -/
def State.victim (s : State) (b : Nat) : Option Nat :=
  (s.queues.foldl (fun (a : Option (Nat × Nat)) e =>
    let ok := e.2.resident && e.2.calls.isEmpty &&
      (match s.queueBolt e.1 with
       | some x => decide ((s.qwin x).1 < s.windowsOf x) && (x == b || decide (s.windowsOf b < (s.qwin b).2))
       | none => decide (s.windowsOf b < (s.qwin b).2))
    if ok then
      match a with
      | some (_, t) => if e.2.rung < t then some (e.1, e.2.rung) else a
      | none => some (e.1, e.2.rung)
    else a) none).map (fun x => x.1)

/-- May queue `q` take a free window? Its bolt stays within QWIN_MAX, and 48 windows cover it and what other bolts are owed. -/
def State.canTake (s : State) (b : Nat) : Bool :=
  decide (s.windowsOf b < (s.qwin b).2) &&
    (if s.windowsOf b < (s.qwin b).1 then decide (s.windows < 48) else decide (s.windows + s.windowsOwed b < 48))

/-- DOORBELL (R298): records LAST and marks the queue pending. More calls than the ring holds put the queue in ERROR. -/
def execDoorbell (fn : Fn) (q : Nat) (val : Word) (s : State) : Host.Outcome State Fault Refusal :=
  .next (
    if !s.live then s
    else match s.ringQueue fn q with
      | none => s.setErr fn 0
      | some g =>
        if !bit (s.reg 0x10000) 0 then s
        else
          let u := { s.queue g with last := val.toNat % 65536, rung := s.now }
          match u.mode with
          | .free => s
          | .stopped | .error => s.setQueue g u
          | .running =>
            if 2 ^ u.order < u.pendingCalls then
              (s.setQueue g { u with mode := .error }).raise unitHost 0x104 0 (s.queueBolt g) g
                (u.head + 2 ^ 16 * u.last) (2 ^ u.order)
            else s.setQueue g { u with pend := true })

/-- QUEUE_WINDOW_SWAP (R299): a waiting queue takes a free window, or the least recently rung window that may be evicted. -/
def execQueueWindowSwap (q : Queue) (s : State) : Host.Outcome State Fault Refusal :=
  .next (
    let u := s.queue q.val
    match s.queueBolt q.val with
    | none => s
    | some b =>
      if !s.live || !s.serving 0 || u.resident || !u.pend || u.mode != .running then s
      else if s.canTake b then s.setQueue q.val { u with resident := true }
      else match s.victim b with
        | none => s
        | some v => (s.setQueue v { s.queue v with resident := false }).setQueue q.val { u with resident := true })

/-! ### Fetching a call (09 R302, R305, R306) -/

/-- Operand bytes 0x20 to 0x3F that an opcode names, as a mask of 256 bits (09 R304). -/
def operandMask (op : Nat) : Nat :=
  let f := fun (byte hi lo : Nat) => (2 ^ (hi + 1 - lo) - 1) * 2 ^ (8 * byte + lo)
  match op with
  | 1 => f 0 0 0 + f 4 31 0
  | 2 => f 0 0 0 + f 8 63 0 + f 16 63 0 + f 24 63 0
  | 3 => f 0 0 0
  | 4 => f 0 63 0 + f 8 63 0 + f 16 63 0
  | 5 => f 0 31 0 + f 8 63 0 + f 16 63 0
  | 7 => f 0 19 0 + f 8 63 0 + f 16 31 0
  | 8 => 2 ^ 256 - 1
  | 0xB => f 0 19 0 + f 8 63 0
  | 0xC => f 0 0 0
  | _ => 0

/-- Does the call break its layout, or name a cast-entry image off 64 bytes (00 R11)? (09 R302, R304, R305 FORMAT) `fn` is the function
of its bolt. -/
def callMalformed (w : BitVec 512) (fn : Nat) : Bool :=
  let o := w.toNat / 2 ^ 256
  decide (0xC < callOp w) || callBits w 0 15 13 != 0 || callBits w 0 31 27 != 0 || callBits w 8 31 20 != 0
  || (if callIrq w then
        (if fn = 0 then decide (callVec w < 256) else decide (callVec w < 3 ∨ 63 < callVec w))
      else callVec w != 0)
  || (!callFen w && (callFence w != 0 || callFval w != 0))
  || (o &&& operandMask (callOp w)) != o
  || (match callOp w with
      | 4 => callBits w 0x30 63 0 == 0 || decide (2 ^ 40 < callBits w 0x30 63 0)
      | 5 => callBits w 0x28 1 0 != 0 || callBits w 0x30 1 0 != 0 || callBits w 0x30 63 0 == 0
      | 6 => !callFen w
      | 8 | 9 => callBits w 0x18 31 16 != 0
      | 0xB => decide (7 < callBits w 0x20 19 16) || (decide (2 < callBits w 0x20 19 16) && callBits w 0x28 63 0 != 0)
          || callBits w 0x28 5 0 != 0
      | _ => false)

/-- Does the call's scene stand? (09 R305 SCENE) -/
def State.sceneLive (s : State) (n : Nat) : Bool :=
  n == s.loom.live.num.toNat || (match s.loom.old with
    | some c => n == c.num.toNat
    | none => false)

/-- Does a fence, cue slot or cast entry that the call names belong to the bolt? (09 R305 OWNER) -/
def State.callOwns (s : State) (b : Nat) (w : BitVec 512) : Bool :=
  (!callFen w || (match s.fence (callFence w) with
    | some f => f.owner == b
    | none => false))
  && (callOp w != 7 || (match s.fence (waitFence w) with
    | some f => f.mayWait b
    | none => false))
  && (callOp w != 9 || (match s.bolt? b with
    | some r => decide (callBits w 0x18 15 0 < r.cueCount)
    | none => false))
  && (callOp w != 0xB || (match s.bolt? b with
    | some r => decide (callBits w 0x20 15 0 < r.castCount)
    | none => false))

/-- The status of a fetched call: none when it may run, else the lowest status code that applies (09 R305). -/
def State.callStatus (s : State) (b : Nat) (w : BitVec 512) : Option Nat :=
  if callMalformed w (s.boltFn b) then some 1
  else if !s.sceneLive (callScene w) then some 2
  else if !s.callOwns b w then some 3
  else
    let a := s.handleStatus b (callObjA w)
    let c := s.handleStatus b (callHandleB w)
    if a = some 3 ∨ c = some 3 then some 3
    else if a = some 4 ∨ c = some 4 then some 4
    else if a = some 5 ∨ c = some 5
      ∨ (callObjA w ≠ 0 ∧ callObjA w = callHandleB w ∧ (s.obj (hIndex (callObjA w))).dev = 65534) then some 5
    else if callOp w = 0xC ∧ s.boltFn b ≠ 0 then some 0x12
    else none

/-- A rejected call: CALL_REJECTED, its completion, and its fence, when the bolt owns it (09 R306). -/
def State.rejectCall (s : State) (b q : Nat) (c : FetchedCall) (st : Nat) : State :=
  let w := c.words
  let s := s.raise unitHost 0x103 0 (some b) (q + 2 ^ 16 * st) (callTag w) (callOp w)
  let s := s.writeCompletion q c.index (Completion.plain st)
  let s := if callFen w && (match s.fence (callFence w) with
      | some f => f.owner == b
      | none => false)
    then s.signal (callFence w) (callFval w) st false else s
  if st = 1 then s else s.callIrqSend q w

/-- The 64 bytes of the call at the head of a queue of bolt `b`: of a ring in host memory `hostData`, which holds 64 bytes unless
the completion was poisoned or timed out, or its link half is down (R288, R293); none for an uncorrectable error (05 R170). -/
def State.callBytes (s : State) (b : Nat) (u : QueueSt) (hostData : List Byte) : Option (List Byte) :=
  let fa := u.slotFa u.head
  if faSpace u.base = 4 then (if s.hostPath b && hostData.length == 64 then some hostData else none)
  else if !s.rangeUp (faSpace fa) (faOff fa) 64 || s.readsUe (faSpace fa) (faOff fa) 64 then none
  else some (s.peek (faSpace fa) (faOff fa) 64)

/-- The read that a call fetch sends to host memory. -/
def State.fetchSend (s : State) (b : Nat) (u : QueueSt) : State :=
  if faSpace u.base = 4 && s.hostPath b then s.emit (.hostRead (s.hostFn b) b (2 ^ 16) (faOff (u.slotFa u.head)) 64) else s

/-- CALL_FETCH (R302): the next call of a resident, running queue is fetched whole into its window and checked; a call that
fails is not executed. A fetch that meets an uncorrectable error takes no call: HBM_UE is raised against the bolt, which is reset
(05 R170; 09 R293). -/
def execCallFetch (q : Queue) (hostData : List Byte) (s : State) : Host.Outcome State Fault Refusal :=
  .next (
    let u := s.queue q.val
    match s.queueBolt q.val with
    | none => s
    | some b =>
      if !s.live || !s.serving 0 || !u.resident || u.mode != .running || u.pendingCalls == 0 || !u.pend
          || decide (8 ≤ u.calls.length) || (s.fnSt (s.boltFn b)).d3hot then s
      else
        match s.callBytes b u hostData with
        | none => (s.fetchSend b u).raiseUe b (u.slotFa u.head) 0xFFF 0
        | some data =>
          let c : FetchedCall := ⟨u.head, BitVec.ofNat 512 (leNat data), false, false, none, none⟩
          let head := (u.head + 1) % 65536
          let s := (s.fetchSend b u).setQueue q.val { u with head := head, pend := head != (u.last + 1) % 65536 }
          match s.callStatus b c.words with
          | some st => s.rejectCall b q.val c st
          | none =>
            let s := (s.takeRef (callObjA c.words)).takeRef (callHandleB c.words)
            s.setQueue q.val { s.queue q.val with calls := (s.queue q.val).calls ++ [c] })

/-! ### The command interface (09 R295 to R297) -/

/-- The base of a command interface: HIF's, or a bolt window's. -/
def cmdBase (hif : Bool) (b : Bolt) : Nat := if hif then 0x10000 else blt b.val 0

/-- May the function write this interface? -/
def State.mayCommand (s : State) (fn : Fn) (hif : Bool) (b : Bolt) : Bool :=
  fn = 0 || (!hif && s.fnBolt fn.val == some b.val)

/-- The bolt that a command acts on: CMD_ARG5 at HIF, else the window's. -/
def State.cmdBolt (s : State) (hif : Bool) (b : Bolt) : Nat := if hif then bits (s.reg 0x10114) 5 0 else b.val

/-- Argument `k` of the interface. -/
def State.cmdArg (s : State) (hif : Bool) (b : Bolt) (k : Nat) : Nat := s.reg (cmdBase hif b + 0x100 + 4 * k)

/-- Records a command's end: STATUS, DONE and results. -/
def State.cmdEnd (s : State) (hif : Bool) (b : Bolt) (op st : Nat) (res : List Nat) : State :=
  s.cmdEndAt (cmdBase hif b) op st res

/-- Runs a command of a function that may write the interface (09 R285, R295). -/
def State.command (s : State) (fn : Fn) (hif : Bool) (b : Bolt) (rsv : BitVec 23) (op : Nat)
    (body : State → Nat → Nat × List Nat × State) : State :=
  if !s.live then s
  else if !s.mayCommand fn hif b then s.setErr fn 0
  else s.cmdGo (cmdBase hif b) op (rsv != 0) (fun s => body s (s.cmdBolt hif b))

/-- A refusal of a command. -/
def refuse (s : State) (st : Nat) : Nat × List Nat × State := (st, [], s)

/-- The global queue of a bolt-relative one, when the bolt has it. -/
def State.relQueue (s : State) (x q : Nat) : Option Nat :=
  match s.loom.live.bolt? x with
  | some r => if q < r.queueCount then some (r.queueBase + q) else none
  | none => none

/-- Q_CREATE (R296). -/
def execQCreate (fn : Fn) (hif : Bool) (b : Bolt) (rsv : BitVec 23) (s : State) : Host.Outcome State Fault Refusal :=
  .next (s.command fn hif b rsv 1 (fun s x =>
    let a0 := s.cmdArg hif b 0
    let base := s.cmdArg hif b 1 + 2 ^ 32 * s.cmdArg hif b 2
    let order := bits a0 19 16
    if bits a0 15 13 ≠ 0 ∨ bits a0 31 20 ≠ 0 ∨ order < 6 then refuse s 1
    else if faMod base ≠ s.modNum ∨ (faSpace base ≠ 0 ∧ faSpace base ≠ 4) ∨ base % (64 * 2 ^ order) ≠ 0
        ∨ !s.inSpace (faSpace base) (faOff base) (64 * 2 ^ order) then refuse s 1
    else match s.relQueue x (bits a0 12 0) with
      | none => refuse s 2
      | some q =>
        if (s.queue q).mode ≠ .free then refuse s 3
        else (0, [], s.setQueue q { QueueSt.reset with mode := .running, order := order, base := base })))

/-- Has a queue a started call outstanding? (09 R300) -/
def QueueSt.hasStarted (u : QueueSt) : Bool := u.calls.any (fun c => c.started)

/-- Q_DESTROY (R296). -/
def execQDestroy (fn : Fn) (hif : Bool) (b : Bolt) (rsv : BitVec 23) (s : State) : Host.Outcome State Fault Refusal :=
  .next (s.command fn hif b rsv 2 (fun s x =>
    if bits (s.cmdArg hif b 0) 31 13 ≠ 0 then refuse s 1
    else match s.relQueue x (bits (s.cmdArg hif b 0) 12 0) with
      | none => refuse s 2
      | some q =>
        if (s.queue q).mode ≠ .stopped ∨ (s.queue q).hasStarted then refuse s 3
        else (0, [], s.setQueue q QueueSt.reset)))

/-- Is a fetched call of a queue started for good? A STEP admitted but not started, and a WAIT, can still be discarded
(09 R301). -/
def State.stays (s : State) (b q : Nat) (c : FetchedCall) : Bool :=
  c.started && !c.waiting && !((s.ctx b).steps.any (fun r => r.queue == q && r.index == c.index && r.start.isNone))

/-- Writes DISCARDED into `n` unfetched ring slots from `index` on. -/
def State.discardRing (s : State) (q index : Nat) : Nat → State
  | 0 => s
  | n + 1 => (s.writeCompletion q index (Completion.plain 0x10)).discardRing q ((index + 1) % 65536) n

/-- Discards every call of a queue that has not started, fetched or not, and sets HEAD to LAST + 1 (09 R301). Answers how
many. -/
def State.discardQueue (s : State) (b q : Nat) : State × Nat :=
  let gone := (s.queue q).calls.filter (fun c => !s.stays b q c)
  let unfetched := if (s.queue q).mode = .running ∨ (s.queue q).mode = .stopped then (s.queue q).pendingCalls else 0
  let s := gone.foldl (fun s c =>
    let sq := (s.ctx b).steps.find? (fun r => r.queue == q && r.index == c.index)
    let s := match sq with
      | some r => (s.disarmStep b r.seq).removeStep b r.seq
      | none => s
    s.discard q c) s
  let s := s.discardRing q (s.queue q).head (min unfetched (2 ^ (s.queue q).order))
  (s.setQueue q { s.queue q with head := ((s.queue q).last + 1) % 65536, pend := false }, gone.length + unfetched)

/-- Q_STOP (R301): fetching stops, every call not started is discarded, HEAD is set to LAST + 1. -/
def execQStop (fn : Fn) (hif : Bool) (b : Bolt) (rsv : BitVec 23) (s : State) : Host.Outcome State Fault Refusal :=
  .next (s.command fn hif b rsv 3 (fun s x =>
    if bits (s.cmdArg hif b 0) 31 13 ≠ 0 then refuse s 1
    else match s.relQueue x (bits (s.cmdArg hif b 0) 12 0) with
      | none => refuse s 2
      | some q =>
        if (s.queue q).mode = .free then refuse s 3
        else
          let d := s.discardQueue x q
          (0, [d.2], d.1.setQueue q { d.1.queue q with mode := .stopped })))

/-- Q_START (R296): fetch resumes from HEAD. -/
def execQStart (fn : Fn) (hif : Bool) (b : Bolt) (rsv : BitVec 23) (s : State) : Host.Outcome State Fault Refusal :=
  .next (s.command fn hif b rsv 4 (fun s x =>
    if bits (s.cmdArg hif b 0) 31 13 ≠ 0 then refuse s 1
    else match s.relQueue x (bits (s.cmdArg hif b 0) 12 0) with
      | none => refuse s 2
      | some q =>
        let u := s.queue q
        if u.mode ≠ .stopped ∧ u.mode ≠ .error then refuse s 3
        else (0, [], s.setQueue q { u with mode := .running, pend := u.pendingCalls != 0 })))

/-- Q_READ (R296). -/
def execQRead (fn : Fn) (hif : Bool) (b : Bolt) (rsv : BitVec 23) (s : State) : Host.Outcome State Fault Refusal :=
  .next (s.command fn hif b rsv 5 (fun s x =>
    if bits (s.cmdArg hif b 0) 31 13 ≠ 0 then refuse s 1
    else match s.relQueue x (bits (s.cmdArg hif b 0) 12 0) with
      | none => refuse s 2
      | some q =>
        let u := s.queue q
        let m := match u.mode with
          | .free => 0
          | .running => 1
          | .stopped => 2
          | .error => 3
        (0, [u.head + 2 ^ 16 * u.last, m + 4 * b2n u.resident], s)))

/-- Fences that a bolt holds. -/
def State.fencesOf (s : State) (b : Nat) : Nat :=
  (s.fences.filter (fun e => match e.2 with
    | some f => f.owner == b
    | none => false)).length

/-- The lowest key at or above `k` that a map does not list; `n` bounds the search. -/
def freeKey {α : Type} (l : Sparse α) : Nat → Nat → Nat
  | 0, k => k
  | n + 1, k => if l.any (fun e => e.1 == k) then freeKey l n (k + 1) else k

/-- FENCE_CREATE (R296): the lowest free number, with the initial value; an initial value of 2^64 − 1 is exhausted. -/
def execFenceCreate (fn : Fn) (hif : Bool) (b : Bolt) (rsv : BitVec 23) (s : State) :
    Host.Outcome State Fault Refusal :=
  .next (s.command fn hif b rsv 0x10 (fun s x =>
    let v := s.cmdArg hif b 0 + 2 ^ 32 * s.cmdArg hif b 1
    let m := s.cmdArg hif b 2 + 2 ^ 32 * s.cmdArg hif b 3
    if m ≠ 0 ∧ (faMod m ≠ s.modNum ∨ faSpace m ≠ 4 ∨ m % 8 ≠ 0) then refuse s 1
    else
      let k := freeKey s.fences s.fences.length 0
      if s.reg (blt x 0x1A0) ≤ s.fencesOf x ∨ 2 ^ 20 ≤ k then refuse s 4
      else
        (0, [k], s.setFence k (some {
          value := BitVec.ofNat 64 v, mode := if v = 2 ^ 64 - 1 then .exhausted else .live, status := 0, late := false,
          owner := x, mask := 0, mirror := BitVec.ofNat 64 m }))))

/-- A fence that the bolt owns, or the status that says why not: 2 RANGE, 3 STATE, 5 OWNER. The PF commands any bolt's. -/
def State.ownFence (s : State) (f x : Nat) : Nat ⊕ FenceSt :=
  if 2 ^ 20 ≤ f then .inl 2
  else match s.fence f with
    | none => .inl 3
    | some y => if y.owner = x then .inr y else .inl 5

/-- FENCE_DESTROY (R296): waiters wake abandoned, and the number returns to the pool. -/
def execFenceDestroy (fn : Fn) (hif : Bool) (b : Bolt) (rsv : BitVec 23) (s : State) :
    Host.Outcome State Fault Refusal :=
  .next (s.command fn hif b rsv 0x11 (fun s x =>
    let f := s.cmdArg hif b 0
    match s.ownFence f x with
    | .inl st => refuse s st
    | .inr _ => (0, [], (s.setFence f none).wake maxWaits)))

/-- FENCE_ABANDON (R310): the fence is abandoned, and every unsatisfied waiter wakes with FENCE_ABANDONED. -/
def execFenceAbandon (fn : Fn) (hif : Bool) (b : Bolt) (rsv : BitVec 23) (s : State) :
    Host.Outcome State Fault Refusal :=
  .next (s.command fn hif b rsv 0x12 (fun s x =>
    let f := s.cmdArg hif b 0
    match s.ownFence f x with
    | .inl st => refuse s st
    | .inr y => (0, [], (s.setFence f (some { y with mode := .abandoned })).wake maxWaits)))

/-- FENCE_READ (R296): for the owner, or a bolt in the share mask. -/
def execFenceRead (fn : Fn) (hif : Bool) (b : Bolt) (rsv : BitVec 23) (s : State) :
    Host.Outcome State Fault Refusal :=
  .next (s.command fn hif b rsv 0x13 (fun s x =>
    let f := s.cmdArg hif b 0
    if 2 ^ 20 ≤ f then refuse s 2
    else match s.fence f with
      | none => refuse s 3
      | some y =>
        if !y.mayWait x then refuse s 5
        else
          let m := match y.mode with
            | .live => 0
            | .abandoned => 1
            | .exhausted => 2
          (0, [y.value.toNat % 2 ^ 32, y.value.toNat / 2 ^ 32, y.status + 2 ^ 8 * m + 2 ^ 10 * b2n y.late], s)))

/-- Entries that a bolt holds: not yet free. -/
def State.objsOf (s : State) (b : Nat) : Nat := (s.objs.filter (fun e => e.2.used && e.2.owner == b)).length

/-- The lowest ledger index at or above `k` that no entry uses; `n` bounds the search. -/
def freeIndex (s : State) : Nat → Nat → Nat
  | 0, k => k
  | n + 1, k => if (s.obj k).used then freeIndex s n (k + 1) else k

/-- OBJ_CREATE (R296): the lowest free index, HOST 1 and DEV 0. -/
def execObjCreate (fn : Fn) (hif : Bool) (b : Bolt) (rsv : BitVec 23) (s : State) :
    Host.Outcome State Fault Refusal :=
  .next (s.command fn hif b rsv 0x20 (fun s x =>
    let k := freeIndex s s.objs.length 1
    if s.reg (blt x 0x1A4) ≤ s.objsOf x ∨ 2 ^ 24 ≤ k then refuse s 4
    else
      let o := s.obj k
      (0, [k + 2 ^ 24 * o.gen.toNat], s.setObj k { owner := x, gen := o.gen, host := 1, dev := 0, used := true })))

/-- A live entry of the bolt, or the status that says why not: 2 RANGE, 5 OWNER, 6 HANDLE. -/
def State.ownObj (s : State) (h x : Nat) : Nat ⊕ ObjSt :=
  if hIndex h = 0 then .inl 2
  else
    let o := s.obj (hIndex h)
    if !o.used then .inl 6
    else if o.owner ≠ x then .inl 5
    else if o.gen.toNat ≠ hGen h ∨ (o.host = 0 ∧ o.dev = 0) then .inl 6
    else .inr o

/-- Counts as a result word. -/
def State.counts (s : State) (h : Nat) : Nat := (s.obj (hIndex h)).host + 2 ^ 16 * (s.obj (hIndex h)).dev

/-- OBJ_HOST_INC (R311). -/
def execObjHostInc (fn : Fn) (hif : Bool) (b : Bolt) (rsv : BitVec 23) (s : State) :
    Host.Outcome State Fault Refusal :=
  .next (s.command fn hif b rsv 0x21 (fun s x =>
    let h := s.cmdArg hif b 0
    match s.ownObj h x with
    | .inl st => refuse s st
    | .inr o =>
      if o.host = 65535 then refuse s 8
      else
        let s := s.setCounts (hIndex h) (o.host + 1) o.dev
        (0, [s.counts h], s)))

/-- OBJ_HOST_DEC (R311): at HOST 0 it changes nothing, completes UNDERFLOW and raises LEDGER_UNDERFLOW. -/
def execObjHostDec (fn : Fn) (hif : Bool) (b : Bolt) (rsv : BitVec 23) (s : State) :
    Host.Outcome State Fault Refusal :=
  .next (
    let h := s.cmdArg hif b 0
    let x := s.cmdBolt hif b
    let under := match s.ownObj h x with
      | .inr o => o.host == 0
      | .inl _ => false
    if s.live && s.mayCommand fn hif b && s.serving 0 && rsv == 0 && bit (s.reg 0x10000) 0 && under then
      (s.raise unitHost 0x108 0 (some x) h fn.val 0).cmdEnd hif b 0x22 7 []
    else s.command fn hif b rsv 0x22 (fun s x =>
      match s.ownObj h x with
      | .inl st => refuse s st
      | .inr o =>
        let s := s.setCounts (hIndex h) (o.host - 1) o.dev
        (0, [s.counts h], s)))

/-- OBJ_READ (R296). -/
def execObjRead (fn : Fn) (hif : Bool) (b : Bolt) (rsv : BitVec 23) (s : State) :
    Host.Outcome State Fault Refusal :=
  .next (s.command fn hif b rsv 0x23 (fun s x =>
    let h := s.cmdArg hif b 0
    match s.ownObj h x with
    | .inl st => refuse s st
    | .inr _ => (0, [s.counts h], s)))

/-- FENCE_SHARE (R309): the PF sets a fence's share mask, at HIF only. -/
def execFenceShare (fn : Fn) (hif : Bool) (b : Bolt) (rsv : BitVec 23) (s : State) :
    Host.Outcome State Fault Refusal :=
  .next (s.command fn hif b rsv 0x30 (fun s _ =>
    let f := s.cmdArg hif b 0
    if !hif then refuse s 9
    else if 2 ^ 20 ≤ f then refuse s 2
    else match s.fence f with
      | none => refuse s 3
      | some y =>
        (0, [], s.setFence f (some { y with
          mask := BitVec.ofNat 64 (s.cmdArg hif b 1 + 2 ^ 32 * s.cmdArg hif b 2) }))))

/-- QUOTA (R296): the PF sets the quotas of bolt ARG5, at HIF only. -/
def execQuota (fn : Fn) (hif : Bool) (b : Bolt) (rsv : BitVec 23) (s : State) : Host.Outcome State Fault Refusal :=
  .next (s.command fn hif b rsv 0x31 (fun s x =>
    let f := s.cmdArg hif b 1
    let o := s.cmdArg hif b 2
    if !hif then refuse s 9
    else if 2 ^ 21 ≤ f ∨ 2 ^ 25 ≤ o then refuse s 1
    else (0, [], (s.setReg (blt x 0x1A0) f).setReg (blt x 0x1A4) o)))

/-! ### The free FIFO (09 R312) -/

/-- FREE_POP (R312): a read pops the oldest freed handle, and its index becomes reusable; 0 when the FIFO is empty. -/
def execFreePop (fn : Fn) (b : Bolt) (s : State) : Host.Outcome State Fault Refusal :=
  .next (
    if !s.live || !s.ownsWindow fn b.val then s
    else match s.freedOf b.val with
      | [] => s.emit (.readData fn.val 0x140 0)
      | h :: r =>
        let i := hIndex h.toNat
        let s := { s with freed := mset [] s.freed b.val r }
        let s := s.setObj i { s.obj i with used := false, owner := 0 }
        s.emit (.readData fn.val 0x140 (BitVec.ofNat 64 h.toNat)))

/-! ### Mailboxes (09 R313, R314) -/

/-- MBX_SEND (R314): a side sends its 64-byte outbound buffer; while the last message is not acknowledged the message is
dropped and OVR is set. -/
def execMbxSend (fn vf : Fn) (val : Word) (s : State) : Host.Outcome State Fault Refusal :=
  .next (
    if !s.live || vf = 0 || !(fn = 0 || fn == vf) || !bit val.toNat 0 then s
    else
      let m := mget Mailbox.reset s.mbx vf.val
      let put := fun (x : Mailbox) => { s with mbx := mset Mailbox.reset s.mbx vf.val x }
      if fn = 0 then
        if m.pfBusy then put { m with pfOvr := true }
        else (put { m with pfBusy := true, vfRx := m.pfTx, vfFull := true }).msix vf.val 0
      else
        if m.vfBusy then put { m with vfOvr := true }
        else
          let s := put { m with vfBusy := true, pfRx := m.vfTx, pfFull := true }
          let s := if vf.val < 32 then s.orReg 0x70000 (2 ^ vf.val) else s.orReg 0x70004 (2 ^ (vf.val - 32))
          s.msix 0 1)

/-- MBX_ACK (R314): a side releases its inbound buffer: its RX_FULL and the sender's TX_BUSY clear. -/
def execMbxAck (fn vf : Fn) (val : Word) (s : State) : Host.Outcome State Fault Refusal :=
  .next (
    if !s.live || vf = 0 || !(fn = 0 || fn == vf) || !bit val.toNat 3 then s
    else
      let m := mget Mailbox.reset s.mbx vf.val
      let put := fun (x : Mailbox) => { s with mbx := mset Mailbox.reset s.mbx vf.val x }
      if fn = 0 then put { m with pfFull := false, vfBusy := false }
      else put { m with vfFull := false, pfBusy := false })

/-! ### Versions and power states (09 R287, R319) -/

/-- DRV_VER_WRITE (R319): GLB_DRV_VER for the PF at `b` = 0 with `fn` = 0 and the bolt windows' copies; a pair of versions
that is not supported raises IF_MISMATCH, and the function is served on. The interface's version is the running image's (13
R415). -/
def execDrvVerWrite (fn : Fn) (b : Bolt) (val : Word) (s : State) : Host.Outcome State Fault Refusal :=
  .next (
    if !s.live || !s.ownsWindow fn b.val then s
    else
      let s := s.setReg (blt b.val 8) val.toNat
      let s := if fn = 0 ∧ s.boltFn b.val = 0 then s.setReg 0xC val.toNat else s
      let v := s.runImg.ifVer.toNat
      if val.toNat / 2 ^ 16 = v / 2 ^ 16 ∧ val.toNat % 2 ^ 16 ≤ v % 2 ^ 16 then s
      else s.raise unitHost 0x106 0 none v val.toNat fn.val)

/-- POWER_STATE_D3HOT (R287): in D3hot a function fetches no calls and holds its MSI-X messages pending; on its return to D0
they are sent. -/
def execPowerStateD3hot (fn : Fn) (enter : Bool) (s : State) : Host.Outcome State Fault Refusal :=
  .next (
    if !s.live then s
    else
      let f := s.fnSt fn.val
      if enter then { s with fns := mset FnSt.reset s.fns fn.val { f with d3hot := true } }
      else
        let s := { s with fns := mset FnSt.reset s.fns fn.val { f with d3hot := false, msixPend := [] } }
        f.msixPend.reverse.foldl (fun s v => s.msix fn.val v) s)

end Sys2Proof.Machine
end

