-- ==== Sys2Proof/Machine/Failure.lean ====
section
/-! DEFINITION. Resets, teardowns, strikes and function resets as commands (14_incidents_understudy.md R454, R455;
12_security.md R401, R402; 09_host_objects.md R289; 13_firmware_booth.md R435). -/

namespace Sys2Proof.Machine

/-- Can a reset or teardown end: the recovery manager serves, or the stage door carries it out by its own fixed sequence, with
no firmware, in a control-plane reset (14 R454, R456)? -/
def State.resetServed (s : State) : Bool :=
  s.serving 7 || (mget FwCore.reset s.fw.cores 7).mode == CoreMode.cpStopped

/-- BOLT_RESET_COMPLETE (14 R454, R456): a bolt reset ends. -/
def execBoltResetComplete (b : Bolt) (s : State) : Host.Outcome State Fault Refusal :=
  .next (if s.live && s.resetServed && (s.ctx b.val).mode == .resetting then s.resetEnd b.val false else s)

/-- CTX_TEARDOWN (14 R455, R456): a context teardown of a LEGACY bolt ends. -/
def execCtxTeardown (b : Bolt) (s : State) : Host.Outcome State Fault Refusal :=
  .next (if s.live && s.resetServed && (s.ctx b.val).mode == .teardown then s.resetEnd b.val true else s)

/-- STRIKE (12 R401, R402; 09 R304): the PF's call, on an EMPTY context. -/
def execStrike (q : Queue) (s : State) : Host.Outcome State Fault Refusal :=
  .next (match s.take q 0xC 2 with
    | none => s
    | some (b, c) =>
      let s := s.turn b q.val
      if (s.ctx b).mode ≠ .empty then s.complete q.val c (Completion.plain 7)
      else (s.markStarted q.val c.index false none).strikeStart b
        { erase := callBits c.words 0x20 0 0 == 1, call := some (q.val, c.index), ses := none })

/-- STRIKE_COMPLETE (12 R402 steps 6 and 7). -/
def execStrikeComplete (b : Bolt) (s : State) : Host.Outcome State Fault Refusal :=
  .next (
    if s.live && s.serving 2 && (s.ctx b.val).mode == .striking then
      match (s.ctx b.val).strike with
      | some k => s.strikeEnd b.val k
      | none => s
    else s)

/-! ### Function resets (09 R289) -/

/-- Discards the calls of a bolt that have not started, and stops its queues. -/
def State.flrQueues (s : State) (b : Nat) : State :=
  ((s.queues.filter (fun e => s.queueBolt e.1 == some b)).map (fun e => e.1)).foldl (fun s q =>
    if (s.queue q).mode = .free then s
    else
      let d := s.discardQueue b q
      d.1.setQueue q { d.1.queue q with mode := .stopped }) s

/-- Abandons every fence of a bolt; their waiters wake (R310). -/
def State.flrFences (s : State) (b : Nat) : State :=
  let s := { s with fences := s.fences.map (fun (e : Nat × Option FenceSt) => (e.1, e.2.map (fun (f : FenceSt) =>
    if f.owner = b then { f with mode := .abandoned } else f))) }
  s.wake maxWaits

/-- Sets HOST of every entry of a bolt to 0; an entry without device references is freed (R312). -/
def State.flrObjs (s : State) (b : Nat) : State :=
  ((s.objs.filter (fun e => e.2.used && e.2.owner == b)).map (fun e => e.1)).foldl (fun s k => s.setCounts k 0 (s.obj k).dev) s

/-- The bolt's part of a function reset. -/
def State.flrBolt (s : State) (b : Nat) : State := ((s.flrQueues b).flrFences b).flrObjs b

/-- Every register and counter of a bolt's window returns to its reset value (09 R289 step 5). -/
def State.flrWindow (s : State) (b : Nat) : State :=
  let gone := fun (off : Nat) => decide (blt b 0 ≤ off ∧ off < blt b 0x4000)
  { s with
    regs := s.regs.filter (fun (e : Nat × Word) => !gone e.1)
    ctrs := s.ctrs.filter (fun (e : Nat × Ctr) => !gone e.1) }

/-- The other registers of a VF return to their reset values: its MSI-X table, its configuration space, its error status and its
latches. Its mailbox empties on both sides (09 R289 step 5). -/
def State.flrRegs (s : State) (fn : Nat) : State :=
  { s with
    regs := s.regs.filter (fun (e : Nat × Word) => !decide (2 ^ 26 + 0x1000 * fn ≤ e.1 ∧ e.1 < 2 ^ 26 + 0x1000 * fn + 0x1000))
    vfErr := mset 0 s.vfErr fn 0
    latch := mset none s.latch fn none
    loHeld := s.loHeld.filter (fun e => e.1 / 2 ^ 26 != fn)
    mbx := mset Mailbox.reset s.mbx fn Mailbox.reset
    fns := mset FnSt.reset s.fns fn FnSt.reset }

/-- FLR_RESET, against each bolt. -/
def State.flrReport (s : State) (fn : Nat) (bs : List Nat) : State :=
  let w := boltBits bs
  match bs with
  | [b] => s.raise unitHost 0x107 2 (some b) fn w.1 w.2
  | _ => bs.foldl (fun s b => s.boltFail b unitHost 2 0x107) (s.report unitHost 0x107 2 none fn w.1 w.2)

/-- What an FLR does: of a VF, on its bolt; of the PF, on every VF and on every bolt that the PF serves, and VF Enable clears
(09 R289). -/
def State.flrWork (s : State) (fn : Nat) : State :=
  let bs := (s.loom.live.bolts.filter (fun r => fn = 0 || r.vf == fn)).map (fun r => r.bolt)
  let fs := if fn = 0 then (List.range 64).drop 1 else [fn]
  let s := bs.foldl (fun s b => s.flrBolt b) s
  let s := s.flrReport fn bs
  let s := bs.foldl (fun s b => s.flrWindow b) s
  let s := if fn = 0 then { s.endDebug 1 with pci := { s.pci with vfEnable := false } } else s
  fs.foldl (fun s f => s.flrRegs f) s

/-- FLR (09 R289). -/
def execFlr (fn : Fn) (s : State) : Host.Outcome State Fault Refusal :=
  .next (if !s.live || !s.fnOn fn.val then s else s.flrWork fn.val)

/-! ### The house manager's requests (13 R435) -/

/-- Does the live scene, or the draining one, have the bolt? -/
def State.hasBolt (s : State) (b : Nat) : Bool := (s.bolt? b).isSome

/-- BOLT_DRAIN (13 R435; 09 R316): answered with DRAIN_STAT after the drain. -/
def execBoltDrain (ses : SessId) (b : Bolt) (save : Bool) (s : State) : Host.Outcome State Fault Refusal :=
  .next (s.message ses ⟨0x80, 1, false, false⟩ (fun s =>
    if !s.hasBolt b.val then (s, some (boothState, []))
    else ((s.deferReply ses.val 0x80 b.val).drainRequest b.val save [ses.val], none)))

/-- BOLT_RESET (13 R435; 14 R454, R455): resets the bolt, or tears its context down; no incident caused it. -/
def execBoltReset (ses : SessId) (b : Bolt) (s : State) : Host.Outcome State Fault Refusal :=
  .next (s.message ses ⟨0x81, 1, false, false⟩ (fun s =>
    if !s.hasBolt b.val then (s, some (boothState, []))
    else (s.boltStop b.val 0, some (boothOk, []))))

/-- BOLT_STRIKE (12 R401): answered after completion. A loaded context is first reset, or torn down. -/
def execBoltStrike (ses : SessId) (b : Bolt) (overwrite : Bool) (s : State) : Host.Outcome State Fault Refusal :=
  .next (s.message ses ⟨0x82, 2, false, false⟩ (fun s =>
    let k : StrikeSt := { erase := overwrite, call := none, ses := some ses.val }
    if !s.hasBolt b.val || (s.ctx b.val).strike.isSome then (s, some (boothState, []))
    else
      let s := s.deferReply ses.val 0x82 b.val
      match (s.ctx b.val).mode with
      | .empty => (s.strikeStart b.val k, none)
      | _ => ((s.updCtx b.val (fun c => { c with strike := some k })).boltStop b.val 0, none)))

end Sys2Proof.Machine
end

