-- ==== Sys2Proof/Machine/Electrical.lean ====
section
/-! DEFINITION. Pins, power, resets, cages and PMBus (15_module_electrical.md R480 to R491, R495). -/

namespace Sys2Proof.Machine

/-! ### Power (R480, R483, R484) -/

/-- A loss of the main rails: they come back only after PWR_EN has been deasserted (R484). -/
def State.railsFall (s : State) : State :=
  if !s.pins.pwrGood then s
  else
    let s := s.powerLoss
    { s with pins := { s.pins with needCycle := s.pins.pwrEn } }

/-- PWR_EN_ASSERT (R483). -/
def execPwrEnAssert (s : State) : Host.Outcome State Fault Refusal :=
  .next (if s.pins.pwrEn then s else { s with pins := { s.pins with pwrEn := true } }.powerUp)

/-- PWR_EN_DEASSERT (R483, R484). -/
def execPwrEnDeassert (s : State) : Host.Outcome State Fault Refusal :=
  .next (
    let s := { s with pins := { s.pins with pwrEn := false } }.powerLoss
    { s with pins := { s.pins with needCycle := false } })

/-- PWR_GOOD_FALL (R484). -/
def execPwrGoodFall (s : State) : Host.Outcome State Fault Refusal := .next s.railsFall

/-- The warnings of a regulator: the 56 V converter holds one while the input is outside 52.0 to 58.8 V (R480). The bits are
those of STATUS_WORD: INPUT [13], CML [1]. -/
def State.pmbWarning (s : State) (addr : Nat) : Nat :=
  if addr = 0x40 ∧ (s.pins.vin < 52000 ∨ 58800 < s.pins.vin) then 0x2000 else 0

/-- The status word of a regulator. -/
def State.pmbStatus (s : State) (addr : Nat) : Nat := (mget 0 s.pins.pmb addr).toNat

/-- Sets the status word of a regulator. -/
def State.setPmb (s : State) (addr v : Nat) : State :=
  { s with pins := { s.pins with pmb := mset 0 s.pins.pmb addr (BitVec.ofNat 32 v) } }

/-- Level of PMB_ALERT_n: low while a regulator holds a warning or fault status (R491). -/
def State.pmbAlertN (s : State) : Bool := s.pins.pmb.all (fun (e : Nat × Word) => e.2 == 0)

/-- The input voltage changes; the converter latches the warning (R480). -/
def State.inputVoltage (s : State) (mv : Nat) : State :=
  let s := { s with pins := { s.pins with vin := mv } }
  s.setPmb 0x40 (s.pmbStatus 0x40 ||| s.pmbWarning 0x40)

/-- VIN_OUT_OF_RANGE (R480): below 48.0 V or above 60.0 V for more than 100 µs the main rails are switched off; outside 52.0
to 58.8 V a warning is reported. An input inside that range changes nothing. -/
def execVinOutOfRange (mv : Nat) (s : State) : Host.Outcome State Fault Refusal :=
  .next (
    if mv < 48000 ∨ 60000 < mv then (s.inputVoltage mv).railsFall
    else if mv < 52000 ∨ 58800 < mv then s.inputVoltage mv
    else s)

/-- VIN56_RISE (R480, R483): the input rises to a voltage; from 52.0 V on an asserted PWR_EN takes effect. -/
def execVin56Rise (mv : Nat) (s : State) : Host.Outcome State Fault Refusal :=
  .next (if mv < s.pins.vin ∨ mv < 52000 ∨ 60000 < mv then s else (s.inputVoltage mv).powerUp)

/-! ### Resets (R485, R486) -/

/-- RESET_N_ASSERT (R485): with the rails up, the module resets. -/
def execResetNAssert (s : State) : Host.Outcome State Fault Refusal :=
  .next (
    if !s.pins.pwrGood || !s.pins.resetN then s
    else
      let s := s.beginReset 1
      { s with pins := { s.pins with resetN := false } })

/-- INTERNAL_RESET_END (R479, R485): a MODULE_RESET or FW_ACTIVATE ends; the straps are sampled and boot runs. -/
def execInternalResetEnd (straps : Straps) (s : State) : Host.Outcome State Fault Refusal :=
  .next (
    if !s.pins.pwrGood || !s.pins.resetN then s
    else match s.pins.inReset with
      | some c => s.startBoot straps c
      | none => s)

/-- The PF returns to its reset configuration: D0, no message held, its MSI-X table as at reset (R486). -/
def State.pfConfig (s : State) : State :=
  { s with
    regs := s.regs.filter (fun (e : Nat × Word) => !decide (0x8000 ≤ e.1 ∧ e.1 < 0x10000))
    latch := mset none s.latch 0 none
    fns := mset FnSt.reset s.fns 0 FnSt.reset
    pci := Pci.reset }

/-- PERST0_N (R486): while asserted, the host link is down; on deassertion every function returns to its reset
configuration, with a PF FLR's effect on the bolts. -/
def execPerst0N (level : Bool) (s : State) : Host.Outcome State Fault Refusal :=
  .next (
    let rise := level && !s.pins.perst0N
    let s := { s with pins := { s.pins with perst0N := level } }
    if rise && s.live then (s.flrWork 0).pfConfig else s)

/-- PERST1_N (R486): acts on the companion function of half 1, and on no bolt. -/
def execPerst1N (level : Bool) (s : State) : Host.Outcome State Fault Refusal :=
  .next { s with pins := { s.pins with perst1N := level } }

/-! ### Cages (R482, R495) -/

/-- An enabled port that is DOWN begins to train, if its cage allows it. -/
def State.cageReady (s : State) (p : Nat) : State :=
  if bit (s.reg (cru p 0)) 0 ∧ (s.port p).mode = .down then s.portTrain p else s

/-- A port loses its cage: the link goes down with cause 2 (R495, R482). -/
def State.cageGone (s : State) (p : Nat) : State := if (s.port p).mode = .down then s else s.portLeave p 2 .down

/-- P12V_CAGE_LOSS (R482): every port goes down. -/
def execP12vCageLoss (s : State) : Host.Outcome State Fault Refusal :=
  .next (
    let s := { s with pins := { s.pins with p12v := false } }
    if !s.live then s else (List.range 18).foldl (fun s p => s.cageGone p) s)

/-- P12V_CAGE_APPLY (R482). -/
def execP12vCageApply (s : State) : Host.Outcome State Fault Refusal :=
  .next (
    let s := { s with pins := { s.pins with p12v := true } }
    if !s.live then s else (List.range 18).foldl (fun s p => s.cageReady p) s)

/-- Replaces what a cage holds. -/
def State.setCage (s : State) (p : Nat) (v : Option Nat) : State :=
  { s with pins := { s.pins with cages := mset Cage.reset s.pins.cages p ⟨v⟩ } }

/-- What a cage holds. -/
def State.cage (s : State) (p : Nat) : Option Nat := (mget Cage.reset s.pins.cages p).plugged

/-- CAGE_INSERT (R495): a module above 15 W is held in low power and firmware records a message that names the port; the
port trains with any other. FAB records it, as a warning; the message code is free. -/
def execCageInsert (p : Port) (watts : Nat) (s : State) : Host.Outcome State Fault Refusal :=
  .next (
    if (s.cage p.val).isSome then s
    else
      let s := s.setCage p.val (some watts)
      if !s.live || !s.pins.p12v then s
      else if 15 < watts then
        let d := s.draw
        d.1.book 5 1 false (Config.freeNat d.2 % 2 ^ 12) none [BitVec.ofNat 32 p.val]
      else s.cageReady p.val)

/-- CAGE_REMOVE (R495). -/
def execCageRemove (p : Port) (s : State) : Host.Outcome State Fault Refusal :=
  .next (
    let s := s.setCage p.val none
    if !s.live then s else s.cageGone p.val)

/-! ### PMBus (R491) -/

/-- Does a regulator answer at the address? -/
def State.pmbAnswers (s : State) (addr : Nat) : Bool := decide (48000 ≤ s.pins.vin) && decide (0x40 ≤ addr ∧ addr ≤ 0x46)

/-- PMBUS_WRITE (R491): every write except CLEAR_FAULTS is refused, with the CML status bit. -/
def execPmbusWrite (addr : BitVec 7) (cmd : Byte) (s : State) : Host.Outcome State Fault Refusal :=
  .next (
    let a := addr.toNat
    if !s.pmbAnswers a || cmd == 0x03 then s else s.setPmb a (s.pmbStatus a ||| 2))

/-- CLEAR_FAULTS (R491): a warning whose cause persists comes back at once. -/
def execClearFaults (addr : BitVec 7) (s : State) : Host.Outcome State Fault Refusal :=
  .next (
    let a := addr.toNat
    if !s.pmbAnswers a then s else s.setPmb a (s.pmbWarning a))

end Sys2Proof.Machine
end

