-- ==== Sys2Proof/Machine/Link.lean ====
section
/-! DEFINITION. The link layer of a Creust port: training, codewords, retry, tickets, audits and the time exchange
(07_creust_fabric.md R213 to R224). -/

namespace Sys2Proof.Machine

/-! ### States of a port (R213, R214) -/

/-- A write of CRU_PORT_CTL (R253): EN is RWL; RETRAIN leaves FAILED or forces a full training. -/
def State.writePortCtl (s : State) (fn : Fn) (p v : Nat) : State :=
  if !s.live then s
  else if fn ≠ 0 then s.setErr fn 0
  else
    let en := bit (s.reg (cru p 0)) 0
    let s :=
      if s.loom.committed then s.setErr fn 2
      else if bit v 0 ∧ !en then (s.orReg (cru p 0) 1).portTrain p
      else if !bit v 0 ∧ en then (s.clrReg (cru p 0) 1).portLeave p 1 .down
      else s
    if bit v 1 ∧ (s.port p).mode ≠ .down then
      let s := match (s.port p).mode with
        | .retrain => s.retrainOver p (s.now - (s.port p).retrainAt)
        | .up => s.orReg (cru p 4) 0x20
        | _ => s
      (s.updPort p (fun c => { c with mode := .train, badTrain := 0 })).uCheck p
    else s

/-- A training has failed: three in a row lead to FAILED (R219). -/
def State.trainFailed (s : State) (p : Nat) : State :=
  let n := (s.port p).badTrain + 1
  let s := s.updPort p (fun c => { c with mode := .train, badTrain := n })
  if n < 3 then s else s.portLeave p 0 .failed

/-- The cells that a receiver gives a ledger of its own (R215, R217). -/
def State.ownAllot (s : State) (p no : Nat) : Nat :=
  if no ≤ 7 then 160
  else if no = 9 then 23296
  else if 16 ≤ no ∧ no < 272 then 8192 / max 1 (s.loom.live.leafGroups p)
  else 0

/-- Sends a PARAM slot: kind, module and port, cells, version (R212, R214). -/
def State.sendParam (s : State) (p : Nat) : State :=
  s.sendSlot p 0x87 [0, s.modNum + 2 ^ 12 * p, 160 + 2 ^ 16 * 23296, 8192 + 2 ^ 16]

/-- Does a peer match what the port section expects? A switch must offer 160 dedicated cells per lane (R214). -/
def PortRec.accepts (r : PortRec) (w : Sys2Proof.ParamSlot) : Bool :=
  w.isSwitch == r.peerSw &&
    (if w.isSwitch then decide (160 ≤ w.dedicated.toNat)
     else w.module_.toNat == r.peerMod && w.port.toNat == r.peerPort)

/-- The record that the live scene's port section has for a port; none while the scene has no such section. -/
def State.portRec (s : State) (p : Nat) : Option PortRec := s.loom.live.ports.bind (fun l => l[p]?)

/-- A peer that does not match is reported once, against every bolt of the port; the port stays in PARAM (R214, R254). -/
def State.peerMismatch (s : State) (p : Nat) (w : Sys2Proof.ParamSlot) (r : PortRec) : State :=
  let bs := s.portBolts p
  let a0 := w.module_.toNat + 2 ^ 12 * w.port.toNat
  let a1 := r.peerMod + 2 ^ 12 * r.peerPort
  let s := s.updPort p (fun c => { c.fresh .param with
    peer := some (w.isSwitch, w.module_.toNat, w.port.toNat, w.dedicated.toNat, w.shared.toNat, w.redCells.toNat) })
  match bs with
  | [] => s.raise (unitPort p) 0x0CA 3 none a0 a1 0
  | _ => bs.foldl (fun s b => s.raise (unitPort p) 0x0CA 3 (some b) a0 a1 0) s

/-- Reduction groups of the live scene with a port leaf on a port, whose VL8 cells this module gives out (R217). -/
def Scene.leavesOn (c : Scene) (p : Nat) : List Nat :=
  (c.red.filter (fun r => r.nodes.any (fun n => n.port && n.site == p))).map (fun r => r.group)

/-- RESYNC slots for the ledgers of a port: each lane, the shared pool and each reduction group, with the CSEQ expected and the cells
occupied (R220). They are sequenced, as every slot that R218 does not name for unsequenced codewords. -/
def State.sendResync (s : State) (p : Nat) : State :=
  let c := s.port p
  let nos := List.range 8 ++ [9] ++ (s.loom.live.leavesOn p).map (fun g => 16 + g)
  nos.foldl (fun s no => s.sendSlot p 0x85 [c.rxCseq, no, (c.ledger no).occ]) s

/-- After a retrain: RESYNC slots go out, the audit counters are reset, and the peer's RESYNC slots are awaited (R220). -/
def State.beginResync (s : State) (p : Nat) : State :=
  (s.sendResync p).updPort p (fun c => { c with
    resync := true, ledgers := c.ledgers.map (fun e => (e.1, { e.2 with sret := 0, freed := 0, owed := 0 })) })

/-- A port whose peer has been accepted is UP; what it kept from an earlier retrain resumes (R213, R220). -/
def State.portGoesUp (s : State) (p : Nat) (w : Sys2Proof.ParamSlot) : State :=
  let kept := (s.port p).peerOk
  let s := s.updPort p (fun c => { c with
    mode := .up, peerOk := true, badTrain := 0, ackAt := s.now, nakCount := 0, nakSent := false, t1 := none, missed := 0
    peer := some (w.isSwitch, w.module_.toNat, w.port.toNat, w.dedicated.toNat, w.shared.toNat, w.redCells.toNat) })
  let s := s.report (unitPort p) 0x0C0 0 none w.module_.toNat (w.port.toNat + 256 * b2n w.isSwitch) (s.port p).trainUs
  (if kept then s.beginResync p else s.drain p).uCheck p

/-- PORT_ENABLE (R213): a write of CRU_PORT_CTL.EN. -/
def execPortEnable (fn : Fn) (p : Port) (val : Word) (s : State) : Host.Outcome State Fault Refusal :=
  .next (s.writePortCtl fn p.val val.toNat)

/-- RETRAIN (R213): a write of CRU_PORT_CTL.RETRAIN. -/
def execRetrain (fn : Fn) (p : Port) (val : Word) (s : State) : Host.Outcome State Fault Refusal :=
  .next (s.writePortCtl fn p.val val.toNat)

/-- LINK_TRAINING_END (R213, R219). -/
def execLinkTrainingEnd (p : Port) (ok : Bool) (us : Nat) (s : State) : Host.Outcome State Fault Refusal :=
  .next (
    if !s.live || (s.port p.val).mode != .train then s
    else if ok then s.updPort p.val (fun c => { c with mode := .align, trainUs := us })
    else s.trainFailed p.val)

/-- CODEWORD_LOCK (R213): the port locks onto codewords and sends its PARAM slot; skew above 16 ns fails (R209). -/
def execCodewordLock (p : Port) (ok : Bool) (s : State) : Host.Outcome State Fault Refusal :=
  .next (
    if !s.live || (s.port p.val).mode != .align then s
    else if ok then (s.updPort p.val (fun c => { c with mode := .param, badTrain := 0 })).sendParam p.val
    else s.trainFailed p.val)

/-- PARAM (R214). -/
def execParam (p : Port) (w : ParamSlot) (s : State) : Host.Outcome State Fault Refusal :=
  .next (
    let c := s.port p.val
    let seen := c.peer == some (w.isSwitch, w.module_.toNat, w.port.toNat, w.dedicated.toNat, w.shared.toNat, w.redCells.toNat)
    if !s.live || c.mode != .param then s
    else match s.portRec p.val with
      | none => s.portGoesUp p.val w
      | some r =>
        if r.accepts w then s.portGoesUp p.val w
        else if seen && !c.peerOk then s
        else (if c.peerOk then s.linkDown p.val 2 .param else s).peerMismatch p.val w r)

/-! ### Codewords (R218, R219) -/

/-- The FEC window of R254: codewords and corrections of the present second; the second before is judged as it ends. -/
def State.fecCount (s : State) (p : Nat) (corr : Bool) : State :=
  let c := s.port p
  let sec := s.now / giga
  let bad := c.fecSec != sec && decide (c.fecRx < 10000 * c.fecCorr)
  let n := c.fecCorr
  let s := s.updPort p (fun c => { c with
    fecSec := sec
    fecRx := (if c.fecSec = sec then c.fecRx else 0) + 1
    fecCorr := (if c.fecSec = sec then c.fecCorr else 0) + b2n corr })
  let s := if corr then s.bump (cru p 0x10) 1 else s
  if bad then (s.orReg (cru p 4) 0x10).report (unitPort p) 0x0C1 1 none n 0 0 else s

/-- A codeword is rejected: one NAK for the episode (R218). -/
def State.rejectCw (s : State) (p : Nat) : State :=
  let s := s.bump (cru p 0x18) 1
  let c := s.port p
  if c.nakSent then s
  else ((s.updPort p (fun c => { c with nakSent := true })).bump (cru p 0x20) 1).sendSlot p 0x82 [c.rxCseq]

/-- Cells that enter the receive buffer. -/
def CrPort.fill (c : CrPort) (l : List (Nat × Nat)) : CrPort :=
  l.foldl (fun c x => let v := c.ledger x.1; c.setLedger x.1 { v with occ := v.occ + x.2 }) c

/-- CSEQ of a received codeword. -/
def cwSeq (cw : Codeword) : Nat := cw.tag.toNat % 2 ^ 12

/-- Does the receiver accept a sequenced codeword: decoded, its CRC-8 right, its CSEQ the one expected, and no reserved kind in a control
flit (R212, R218)? -/
def CrPort.takes (c : CrPort) (cw : Codeword) : Bool :=
  cw.fec != .failed && cw.tag == cwTag (cwSeq cw) cw.data && cwSeq cw == c.rxCseq && !(scanCw c.rxDue cw.data).bad

/-- CODEWORD_RECEIVE (R218): the model acknowledges each codeword it accepts. An unsequenced one is accepted whenever it decodes, and
its slots, as those of the others, have commands of their own. -/
def execCodewordReceive (p : Port) (cw : Codeword) (s : State) : Host.Outcome State Fault Refusal :=
  .next (
    if !s.live || ((s.port p.val).mode != .up && (s.port p.val).mode != .param) then s
    else
      let s := s.fecCount p.val (cw.fec == .corrected)
      let c := s.port p.val
      if cwSeq cw = 0xFFF ∧ cw.fec ≠ .failed then s.bump (cru p.val 0x38) (scanCw [] cw.data).busy
      else if c.takes cw then
        let r := scanCw c.rxDue cw.data
        let s := s.updPort p.val (fun c => { c.fill r.cells with rxDue := r.due, rxCseq := (c.rxCseq + 1) % 4095, nakSent := false })
        (s.bump (cru p.val 0x38) r.busy).sendSlot p.val 0x81 [cwSeq cw]
      else s.rejectCw p.val)

/-- ACK (R218): every codeword up to the one named is acknowledged. -/
def execAck (p : Port) (cseq : BitVec 12) (s : State) : Host.Outcome State Fault Refusal :=
  .next (
    let c := s.port p.val
    if !s.live || c.mode != .up || !c.replay.any (fun r => r.cseq == cseq.toNat) then s
    else
      let s := s.updPort p.val (fun c => { c with
        replay := (c.replay.dropWhile (fun r => r.cseq != cseq.toNat)).drop 1, ackAt := s.now, nakCount := 0 })
      s.drain p.val)

/-- Sends codewords of the replay buffer again. -/
def State.replayCws (s : State) (p : Nat) (l : List ReplayCw) : State :=
  l.foldl (fun s r => (s.bump (cru p 0x030) (busyFlits r.flits)).emit (.codeword p r.cseq r.flits)) s

/-- The replay buffer from a CSEQ on; all of it, or nothing after the last, where the CSEQ is not in it. -/
def CrPort.replayFrom (c : CrPort) (cseq : Nat) : List ReplayCw :=
  if c.replay.any (fun r => r.cseq == cseq) then c.replay.dropWhile (fun r => r.cseq != cseq)
  else if cseq = c.txCseq then [] else c.replay

/-- NAK (R218): the sender replays from the codeword named; the NAKs of one CSEQ in a row are counted (R219). -/
def execNak (p : Port) (cseq : BitVec 12) (s : State) : Host.Outcome State Fault Refusal :=
  .next (
    if !s.live || (s.port p.val).mode != .up then s
    else
      let s := s.updPort p.val (fun c => { c with
        nakCseq := cseq.toNat, nakCount := if c.nakCseq = cseq.toNat then c.nakCount + 1 else 1 })
      s.replayCws p.val ((s.port p.val).replayFrom cseq.toNat))

/-- A port enters RETRAIN for a cause, 0 NAK bound or 1 ACK stall, at a CSEQ (R219). -/
def State.enterRetrain (s : State) (p cause cseq : Nat) : State :=
  (((s.updPort p (fun c => { c with mode := .retrain, retrainCause := cause, nakCseq := cseq, retrainAt := s.now })).bump (cru p 0x28)
    1).orReg (cru p 4) 0x20).uCheck p

/-- NAK_BOUND (R219). -/
def execNakBound (p : Port) (s : State) : Host.Outcome State Fault Refusal :=
  .next (
    let c := s.port p.val
    if s.live && c.mode == .up && decide (8 ≤ c.nakCount) then s.enterRetrain p.val 0 c.nakCseq else s)

/-- ACK_STALL (R219): sequenced codewords have waited 20 µs. -/
def execAckStall (p : Port) (s : State) : Host.Outcome State Fault Refusal :=
  .next (
    let c := s.port p.val
    match c.replay with
    | [] => s
    | r :: _ =>
      if s.live && c.mode == .up && decide (c.ackAt + 20000 ≤ s.now) then s.enterRetrain p.val 1 r.cseq else s)

/-- FAST_RETRAIN_END (R213, R219, R220): CR_RETRAIN carries the time the retrain took, and is raised when it ends. -/
def execFastRetrainEnd (p : Port) (ok : Bool) (ns : Nat) (s : State) : Host.Outcome State Fault Refusal :=
  .next (
    let c := s.port p.val
    if !s.live || c.mode != .retrain then s
    else
      let s := s.retrainOver p.val ns
      if ok then
        ((s.updPort p.val (fun c => { c with mode := .up, nakCount := 0, nakSent := false, ackAt := s.now })).beginResync p.val).uCheck p.val
      else s.updPort p.val (fun c => { c with mode := .train, badTrain := 0 }))

/-! ### Tickets (R216, R217, R220, R221) -/

/-- Cells of a ledger that replay entries carry. -/
def replayCells (l : List ReplayCw) (no : Nat) : Nat :=
  l.foldl (fun n r => n + (r.cells.filter (fun x => x.1 == no)).foldl (fun a x => a + x.2) 0) 0

/-- Cells of a ledger that flits formed and not yet sent carry. -/
def queueCells (l : List OutFlit) (no : Nat) : Nat :=
  l.foldl (fun n x => n + (x.cells.filter (fun y => y.1 == no)).foldl (fun a y => a + y.2) 0) 0

/-- RESYNC (R220): the sender drops what the peer has accepted, replays the rest, once, with its link-control slots NULL, and holds the
tickets that neither the receiver's buffer nor the replayed cells take. -/
def execResync (p : Port) (cseq : BitVec 12) (ledger : LedgerNo) (occupied : Nat) (s : State) :
    Host.Outcome State Fault Refusal :=
  .next (
    let c := s.port p.val
    if !s.live || c.mode != .up then s
    else
      let rest := (c.replayFrom cseq.toNat).map (fun r => if c.resync then { r with flits := r.flits.map WFlit.noLink } else r)
      let v := c.ledger ledger
      let s := s.updPort p.val (fun c => { c.setLedger ledger { v with
        taken := occupied + replayCells rest ledger + queueCells c.flitQ ledger, sret := 0 } with replay := rest, resync := false })
      (if c.resync then s.replayCws p.val rest else s).drain p.val)

/-- Cells that come back to the sender of a ledger. -/
def CrPort.giveBack (c : CrPort) (no n : Nat) : CrPort :=
  let v := c.ledger no
  if n = 0 then c else c.setLedger no { v with taken := v.taken - n, sret := v.sret + n }

/-- CREDIT (R216): cells of VL0 to VL7 and of the shared pool. -/
def execCredit (p : Port) (cells : List Nat) (shared : Nat) (s : State) : Host.Outcome State Fault Refusal :=
  .next (
    if !s.live || (s.port p.val).mode != .up then s
    else
      let s := s.updPort p.val (fun c => ((cells.take 8).zipIdx.foldl (fun c x => c.giveBack x.2 x.1) c).giveBack 9 shared)
      s.drain p.val)

/-- RED_CREDIT (R217): cells of reduction groups. -/
def execRedCredit (p : Port) (pairs : List (Group × Nat)) (s : State) : Host.Outcome State Fault Refusal :=
  .next (
    if !s.live || (s.port p.val).mode != .up then s
    else
      let s := s.updPort p.val (fun c => (pairs.take 7).foldl (fun c x => c.giveBack (16 + x.1.val) x.2) c)
      s.drain p.val)

/-- AUDIT (R221): held + occupied + (freed − returned) must be the allotment. -/
def execAudit (p : Port) (ledger : LedgerNo) (held ret : Nat) (s : State) : Host.Outcome State Fault Refusal :=
  .next (
    let c := s.port p.val
    let v := c.ledger ledger
    let want := s.ownAllot p.val ledger
    let sum : Int := (held : Int) + v.occ + ((v.freed : Int) + v.owed - ret)
    if !s.live || c.mode != .up || want == 0 then s
    else if sum = want then s
    else s.raise (unitPort p.val) 0x0C4 4 none ledger want (ofInt 64 sum))

/-! ### The time exchange (R223) -/

/-- TIME_EXCHANGE (R223): the port sends its request of the 125 µs; one unanswered is missed. -/
def execTimeExchange (p : Port) (s : State) : Host.Outcome State Fault Refusal :=
  .next (
    if !s.live || (s.port p.val).mode != .up then s
    else
      let s := s.updPort p.val (fun c => { c with t1 := some s.now, missed := if c.t1.isSome then c.missed + 1 else c.missed })
      s.sendSlot p.val 0x83 [0, s.time.toNat])

/-- A TIME request (R223): answered with the time of sending, the time of receipt and the request's own. A module that is
not fed by the fabric and answers one takes itself for the root of a fabric domain. -/
def State.timeRequest (s : State) (p : Nat) (t1 : DWord) : State :=
  let s := s.sendSlot p 0x83 [1, s.time.toNat, s.time.toNat, t1.toNat]
  if s.stuSrc = 1 ∨ s.stu.child then s
  else
    let s := { s with stu := { s.stu with child := true, errBound := if s.stu.mode == StuMode.free then 0 else s.stu.errBound } }
    s.updateAlign

/-- A TIME reply (R223): one-way delay and offset; the STU takes the offset of port PARENT. -/
def State.timeReply (s : State) (p : Nat) (t3 t2 t1 : Int) : State :=
  let t4 : Int := s.now
  let delay := ((t4 - t1) - (t3 - t2)) / 2
  let off := ((t2 - t1) + (t3 - t4)) / 2
  let s := s.updPort p (fun c => { c with delay := min 0xFFFF delay.toNat, t1 := none, missed := 0 })
  if s.stuSrc = 1 ∧ p = s.stuParent then s.measured off (t4 + off).toNat 1 3 64 else s

/-- TIME (R223). -/
def execTime (p : Port) (reply : Bool) (ta tb tc : BitVec 64) (s : State) : Host.Outcome State Fault Refusal :=
  .next (
    let c := s.port p.val
    if !s.live || c.mode != .up then s
    else if !reply then s.timeRequest p.val ta
    else if c.t1 = some (unpackTime tc) then
      s.timeReply p.val (unpackTime ta) (unpackTime tb) (unpackTime tc)
    else s)

end Sys2Proof.Machine
end

