-- ==== Sys2Proof/Machine/Loom.lean ====
section
/-! DEFINITION. The loom commands: staging, commit, cancel, read, retirement, drain limit, scrub (08_loom_bolts.md R267 to
R280; 13_firmware_booth.md R435). -/

namespace Sys2Proof.Machine

/-! ### Staging (13 R435) -/

/-- A buffer with bytes written from an offset on. -/
def storeBuf (buf : Sparse Byte) (off : Nat) (data : List Byte) : Sparse Byte :=
  buf.filter (fun e => decide (e.1 < off))
    ++ (data.zipIdx.map (fun x => (off + x.2, x.1))).filter (fun e => e.2 != 0)
    ++ buf.filter (fun e => decide (off + data.length ≤ e.1))

/-- LOOM_PUT (13 R435): writes bytes of the staged image; the buffer belongs to the first session that writes it. -/
def execLoomPut (ses : SessId) (off : Nat) (data : List Byte) (s : State) : Host.Outcome State Fault Refusal :=
  .next (s.message ses ⟨0x20, 2, false, false⟩ (fun s =>
    if s.fw.loomOwner.isSome ∧ s.fw.loomOwner ≠ some ses.val then (s, some (boothBusy, []))
    else if 65528 < data.length ∨ 4 * 2 ^ 20 < off + data.length then (s, some (boothFormat, []))
    else
      ({ s with fw := { s.fw with
          loomOwner := some ses.val
          loomBuf := storeBuf s.fw.loomBuf off data
          loomLen := max s.fw.loomLen (off + data.length) } }, some (boothOk, []))))

/-! ### Deciding a commit (R268 to R272) -/

/-- Is a bolt's context loaded, loading, or being struck, reset or drained? (R270) -/
def State.frozen (s : State) (b : Nat) : Bool := (s.ctx b).mode != .empty

/-- Does an image change what R270 freezes of a bolt? -/
def frozenBroken (live new : Scene) (b : Nat) : Bool :=
  let view := fun (r : BoltRec) => ([r.priv, r.mirror, r.legacy, r.linkSeal],
    [r.vf, r.tileBase, r.home, r.cueBase, r.cueCount, r.castBase, r.castCount, r.queueBase, r.queueCount])
  (live.bolt? b).map view != (new.bolt? b).map view
    || live.regions.filter (fun r => r.bolt == b) != new.regions.filter (fun r => r.bolt == b)

/-- Does an image change a decoder that maps a range covered by a window of either scene? (R270) -/
def decoderBroken (live new : Scene) : Bool :=
  let wins := live.wins ++ new.wins
  let gone := live.decs.filter (fun d => !new.decs.contains d) ++ new.decs.filter (fun d => !live.decs.contains d)
  gone.any (fun d => wins.any (fun w => meet d.base d.size w.base w.size))

/-- Bolts of either scene whose tiles an image changes. -/
def tilesChanged (live new : Scene) : List Nat := (live.bothBolts new).filter (fun b => live.tileEnts b != new.tileEnts b)

/-- Is a bolt ELASTIC in a scene? -/
def Scene.elastic (c : Scene) (b : Nat) : Bool := ((c.bolt? b).map (fun r => r.elastic)).getD false

/-- The check against the live state (R268 step 3, R269). -/
def State.liveCheck (s : State) (c : Scene) : Option LoomRes :=
  let live := s.loom.live
  let moved := tilesChanged live c
  if s.loom.mode ≠ .steady ∨ moved.any (fun b => s.loom.movePend.contains b) then some ⟨9, 0, 0, 0⟩
  else if (live.bothBolts c).any (fun b => s.frozen b && frozenBroken live c b) || decoderBroken live c then some ⟨0xA, 0, 0, 0⟩
  else if moved.any (fun b => s.frozen b && !(live.elastic b && c.elastic b)) then some ⟨0xB, 0, 0, 0⟩
  else none

/-- Fire time of an image accepted now, in nanoseconds (R257). -/
def State.imageFire (s : State) (m : Image) : Nat :=
  let f := m.num 0x18 8
  if f = 0 then s.now + 1000000 else unpackTime (BitVec.ofNat 64 f)

/-- Is FIRE or DRAIN_MAX out of bounds? (R257, R269) -/
def State.timeBad (s : State) (m : Image) (c : Scene) : Bool :=
  (m.num 0x18 8 != 0 && decide (s.imageFire m < s.now + 100000 ∨ s.now + 3600 * giga < s.imageFire m))
  || decide (c.drainMax < 1000 ∨ 1000000 < c.drainMax ∨ c.drainMax < c.cplTmo + 100)

/-- The decision on a staged image (R268, R269): the scene, or the first status that applies. -/
def State.loomVerdict (s : State) (m : Image) (sigOk : Bool) : LoomRes ⊕ Scene :=
  if s.loom.live.num = 0xFFFFFFFF then .inl ⟨5, 0, 0, 0⟩
  else match m.format with
    | some r => .inl r
    | none =>
      let c := m.scene (s.imageFire m)
      if !sigOk ∨ s.fw.enrolCnt = 0 then .inl ⟨2, 0, 0, 0⟩
      else if bits (m.num 0x10 4) 11 0 ≠ s.modNum then .inl ⟨3, 0, 0, 0⟩
      else if c.num.toNat ≤ s.loom.maxScene ∨ sceneBit c.num = s.liveBit then .inl ⟨4, 0, 0, 0⟩
      else if s.timeBad m c then .inl ⟨6, 0, 0, 0⟩
      else match s.validity m c with
        | some r => .inl r
        | none =>
          match s.liveCheck c with
          | some r => .inl r
          | none => .inr c

/-! ### Commit (R268, R282) -/

/-- Fills LOM_REPORT (R269). -/
def State.setReport (s : State) (r : LoomRes) : State :=
  (s.setReg 0x80020 (r.status + 2 ^ 8 * r.check + 2 ^ 16 * r.sect)).setReg 0x80024 r.rec_

/-- A refused image: its report and LOM_REFUSED (R269, R284). -/
def State.refuseScene (s : State) (m : Image) (r : LoomRes) : State :=
  (s.setReport r).report unitHouse 0x0E0 0 none (r.status + 2 ^ 8 * r.check + 2 ^ 16 * r.sect) r.rec_ (m.num 0xC 4)

/-- The lowest free management slot. -/
def State.mgmtFree (s : State) : Nat := ((List.range 256).find? (fun k => (s.cue (65280 + k)).isNone)).getD 0 + 65280

/-- The SCENE_CHANGE cue of a scene (R193, R191). -/
def sceneCue (c : Scene) : CueRec where
  fire := packTime c.fire
  action := 6
  coal := false
  inc := false
  rsv1 := 0
  target := 5
  arg := BitVec.ofNat 64 c.num.toNat
  period := 0
  count := 0
  bolt := 0
  rsv2 := 0

/-- An accepted scene is armed: its cue, LOM_ARMED for each bolt it changes, and the steps that its cue voids (R268, R282,
R284). -/
def State.armScene (s : State) (c : Scene) : State :=
  let k := s.mgmtFree
  let s := s.armSlot k (sceneCue c) none
  let s := { s with loom := { s.loom with
    mode := .armed, next := some c, cueSlot := some k, maxScene := c.num.toNat
    nextImage := s.fw.loomBuf, nextLen := s.fw.loomLen } }
  let bs := (s.loom.live.bothBolts c).filter (fun b => s.loom.live.changes c b)
  let s := bs.foldl (fun s b => s.report unitHouse 0x0E1 0 (some b) c.num.toNat (timeLo c.fire) (b2n c.strict)) s
  bs.foldl (fun s b => s.voidForScene b (fun _ => true)) s

/-- Decides the staged image and arms or refuses it. -/
def State.commitScene (s : State) (sigOk : Bool) : State × LoomRes :=
  let m := imageOf s.fw.loomBuf s.fw.loomLen
  match s.loomVerdict m sigOk with
  | .inl r => (s.refuseScene m r, r)
  | .inr c => ((s.armScene c).setReport ⟨0, 0, 0, 0⟩, ⟨0, 0, 0, 0⟩)

/-- LOOM_COMMIT (R268): with FORCE while DRAINING the old scene is drained first (R277); then the staged image is verified,
checked and armed or refused, and the staging buffer is released. -/
def execLoomCommit (ses : SessId) (force sigOk : Bool) (s : State) : Host.Outcome State Fault Refusal :=
  .next (s.message ses ⟨0x21, 2, false, false⟩ (fun s =>
    if s.fw.loomOwner.isSome ∧ s.fw.loomOwner ≠ some ses.val then (s, some (boothBusy, []))
    else
      let s := if force ∧ s.loom.mode = .draining then s.drainForce true else s
      let r := s.commitScene sigOk
      ({ r.1 with fw := { r.1.fw with loomOwner := none, loomBuf := [], loomLen := 0 } },
        some (boothOk, [r.2.status, r.2.check, r.2.sect, r.2.rec_]))))

/-! ### Cancel and read (R273, 13 R435) -/

/-- LOOM_CANCEL (R273): at least 4 µs before its cue an armed scene is disarmed; the answer says whether it was. -/
def execLoomCancel (ses : SessId) (scene : Word) (s : State) : Host.Outcome State Fault Refusal :=
  .next (s.message ses ⟨0x22, 2, false, false⟩ (fun s =>
    match s.loom.next, s.loom.cueSlot with
    | some c, some k =>
      if c.num = scene ∧ s.now + 4000 ≤ c.fire then
        let s := s.setCue k none
        ({ s with loom := { s.loom with mode := .steady, next := none, cueSlot := none, nextImage := [], nextLen := 0 } },
          some (boothOk, [1]))
      else (s, some (boothOk, [0]))
    | _, _ => (s, some (boothOk, [0]))))

/-- LOOM_READ (13 R435): up to 65,536 bytes of the live image. -/
def execLoomRead (ses : SessId) (off : Nat) (s : State) : Host.Outcome State Fault Refusal :=
  .next (s.message ses ⟨0x23, 0, false, false⟩ (fun s =>
    let n := min 65536 (s.loom.imageLen - off)
    (s, some (boothOk, (List.range n).map (fun k => (mget 0 s.loom.image (off + k)).toNat)))))

/-! ### Retirement (R276, R277, R280) -/

/-- Does a bolt of the draining scene span modules? -/
def State.oldSpans (s : State) : Bool :=
  match s.loom.old with
  | none => false
  | some c => !c.bindings.isEmpty

/-- SCENE_RETIRE (R276): the old scene's count is zero, and no bolt of it spans modules. -/
def execSceneRetire (s : State) : Host.Outcome State Fault Refusal :=
  .next (
    if s.live ∧ s.loom.mode = .draining ∧ s.oldFlight = 0 ∧ !s.oldSpans then s.retireScene false else s)

/-- SCENE_RETIRE_CPL_TMO (R276): the old scene's count is zero, a bolt of it spans modules, and stage time has passed the
cue by CRU_CPL_TMO. -/
def execSceneRetireCplTmo (s : State) : Host.Outcome State Fault Refusal :=
  .next (
    if s.live ∧ s.loom.mode = .draining ∧ s.oldFlight = 0 ∧ s.oldSpans ∧ s.loom.cueAt + 1000 * s.reg 0x224004 ≤ s.now then
      s.retireScene false
    else s)

/-- LOM_DRAIN_TIMEOUT (R277): DRAIN_MAX has passed since the cue and the old scene has not retired. -/
def execLomDrainTimeout (s : State) : Host.Outcome State Fault Refusal :=
  .next (
    if s.live ∧ s.loom.mode = .draining ∧ s.loom.cueAt + 1000 * s.loom.live.drainMax ≤ s.now then s.drainForce false
    else s)

/-- LOM_SCRUB_DONE (R280): the overwrite of a channel ends: its bytes are 0 and its new owner gains it. -/
def execLomScrubDone (c : Chan) (s : State) : Host.Outcome State Fault Refusal :=
  .next (
    if !s.live then s
    else match s.loom.scrubs.find? (fun x => x.1 == c.val && x.2.2.isSome) with
      | none => s
      | some x =>
        let s := { s with
          hbm := s.hbm.zero (c.val * chanBytes) ((c.val + 1) * chanBytes)
          hbmUe := (s.ueClear (c.val * chanBytes) ((c.val + 1) * chanBytes)).hbmUe
          loom := { s.loom with scrubs := s.loom.scrubs.filter (fun y => y.1 != c.val) } }
        s.report (unitChan c.val) 0x0E6 0 (some x.2.1) c.val x.2.1 ((s.now - x.2.2.getD s.now) / 1000))

end Sys2Proof.Machine
end

