-- ==== Sys2Proof/Machine/MeshOps.lean ====
section
/-! DEFINITION. Routers, trees and ledgers of the mesh: the next hop of a flit, the inputs and results of reduction nodes,
the ledgers that the audit engine checks (04_panel_mesh.md R109 to R138; 14_incidents_understudy.md R458 to R460). -/

namespace Sys2Proof.Machine

/-! ### Routers (04 R109 to R114) -/

/-- A coordinate confined to the rows and columns of bridge stops (R111). -/
def clampStop (y : Nat) : Nat := max 2 (min y 5)

/-- Column and row of a panel in the package. -/
def panelCol (p : Nat) : Nat := p % 2
def panelRow (p : Nat) : Nat := p / 2

/-- The horizontal stop point of a panel in a row, and the vertical one in a column (R109). -/
def hStop (p y : Nat) : Nat := if p < 2 then 78 + y else 85 - y
def vStop (p x : Nat) : Nat := if panelCol p = 0 then 82 + x else 89 - x

/-- Can a flit be on the mesh at all? A panel reaches the proscenium die over its own bridge only (01 R15), and no route begins or
ends at a dark site (R112, R116). -/
def State.flitOk (s : State) (f : Flit) : Bool :=
  s.pointLive f.srcPanel.val f.srcPoint.val && s.pointLive f.dstPanel.val f.dstPoint.val
    && ((f.srcPoint.val != 88 && f.dstPoint.val != 88) || f.srcPanel == f.dstPanel)

/-- Physical site of a flit's final point. -/
def flitEnd (f : Flit) : Nat × Nat := pointSite f.dstPanel.val f.dstPoint.val

/-- The point at which a flit leaves the mesh of a panel: its destination, or the bridge stop of R111. -/
def flitExit (f : Flit) (p : Nat) : Nat :=
  if p = f.dstPanel.val then f.dstPoint.val
  else if panelCol p = panelCol f.dstPanel.val then vStop p (clampStop (flitEnd f).1)
  else hStop p (clampStop (flitEnd f).2)

/-- The point at which a flit enters the mesh of a panel on its route. -/
def flitEntry (f : Flit) (p : Nat) : Nat :=
  if p = f.srcPanel.val then f.srcPoint.val
  else if panelRow p = panelRow f.srcPanel.val then hStop p (clampStop (flitEnd f).2)
  else vStop p (clampStop (flitEnd f).1)

/-- Output ports: 0 N, 1 E, 2 S, 3 W. -/
def stepX (x xe : Nat) : Nat := if x < xe then 1 else 3
def stepY (y ye : Nat) : Nat := if y < ye then 2 else 0

/-- The port of an attachment point at its router: 4 the tile, 5 and 6 the site's points in ascending number. -/
def attachPort (p n : Nat) : Nat :=
  if n < 64 then 4
  else 5 + ((List.range (n - 64)).filter (fun k => pointSite p (64 + k) == pointSite p n)).length

/-- Class base and lane of a virtual channel below 18 (R114). -/
def vcLane (vc : Nat) : Nat := vc % 9 % 3

/-- A virtual channel of the same class and crossings in another lane. -/
def vcWithLane (vc lane : Nat) : Nat := if 18 ≤ vc then vc else vc - vcLane vc + lane

/-- Lane in which a segment starts: 0 for XY, 1 for YX and the detour. -/
def segLane (code : Nat) : Nat := if code = 0 then 0 else 1

/-- Output port and virtual channel of a flit at a router (R112, R114). -/
def State.nextHop (s : State) (site : Nat) (f : Flit) : Nat × Nat :=
  let p := site / 64
  let x := site % 8
  let y := site % 64 / 8
  let u := pointSite p (flitEntry f p)
  let e := pointSite p (flitExit f p)
  let r := s.segment p u.1 u.2 e.1 e.2
  let vc := f.vc.val
  let out := (attachPort p (flitExit f p), vc)
  if x = e.1 ∧ y = e.2 then out
  else if r.1 = 0 then (if x = e.1 then stepY y e.2 else stepX x e.1, vc)
  else if r.1 = 1 then (if y = e.2 then stepX x e.1 else stepY y e.2, vc)
  else if x = u.1 ∧ y ≠ r.2.1 ∧ vcLane vc ≠ 2 then (stepY y r.2.1, vc)
  else if x = e.1 then (stepY y e.2, vcWithLane vc 2)
  else (stepX x e.1, vc)

/-- A flit leaves a router; a dark site's router delivers nothing to its local port (R113). -/
def State.flitOut (s : State) (site : Nat) (f : Flit) : State :=
  let h := s.nextHop site f
  if h.1 = 4 ∧ !s.siteLive site then s else s.emit (.flit site h.1 h.2)

/-! ### Bridges (01 R13; 04 R109, R137) -/

/-- Does a bridge join a panel to another panel? -/
def bridgeOf (br p : Nat) : Bool :=
  match br with
  | 0 => p == 0 || p == 1
  | 1 => p == 2 || p == 3
  | 2 => p == 0 || p == 2
  | 3 => p == 1 || p == 3
  | _ => p == br - 4

/-- The panel whose mesh a flit enters over a bridge: the one of its route that it has not left. -/
def bridgeInto (br : Nat) (f : Flit) : Nat :=
  let d := f.dstPanel.val
  if 4 ≤ br then br - 4
  else if bridgeOf br d && f.srcPanel.val != d then d
  else 2 * panelRow f.srcPanel.val + panelCol d

/-- The attachment point of a bridge stop on a panel. -/
def bridgePoint (br stop : Nat) : Nat := if br < 2 then 80 + stop else if br < 4 then 84 + stop else 88

/-- The channel of a flit after a panel bridge: its class one crossing further, in the lane of the new segment (R114). -/
def State.crossVc (s : State) (p : Nat) (f : Flit) : Nat :=
  let u := pointSite p (flitEntry f p)
  let e := pointSite p (flitExit f p)
  let vc := f.vc.val
  if 18 ≤ vc then vc else vcWithLane (vc / 9 * 9 + min 6 (vc % 9 / 3 * 3 + 3)) (segLane (s.segment p u.1 u.2 e.1 e.2).1)

/-- A stop of a bridge. -/
def State.bridge (s : State) (br stop : Nat) : BridgeStop := mget BridgeStop.reset s.bridges (br * 4 + stop)

/-- Replaces it. -/
def State.setBridge (s : State) (br stop : Nat) (v : BridgeStop) : State :=
  { s with bridges := mset BridgeStop.reset s.bridges (br * 4 + stop) v }

/-! ### Ticket ledgers (04 R134, R135) -/

/-- Number of a ledger, by which it is kept and audited. -/
def ledgerKey : LedgerId → Nat
  | .mesh l vc => (l.site.val * 8 + l.inPort.val) * 32 + vc.val
  | .edge p st up vc => 2 ^ 17 + ((p.val * 12 + st.val) * 2 + b2n up) * 32 + vc.val
  | .bridge br st back vc => 2 ^ 18 + ((br.val * 4 + st.val) * 2 + b2n back) * 32 + vc.val
  | .creust p no => 2 ^ 19 + p.val * 1024 + no % 1024
  | .tree red g n => 2 ^ 20 + (b2n red * 256 + g.val) * 64 + n.val
  | .queueWindows => 2 ^ 21
  | .windowSlots q => 2 ^ 21 + 2 ^ 14 + q.val
  | .castEntries b => 2 ^ 21 + 2 ^ 15 + b.val

/-- Channel of a ledger, 20 for a shared pool. -/
def ledgerVc : LedgerId → Vc
  | .mesh _ vc | .edge _ _ _ vc | .bridge _ _ _ vc => vc
  | _ => 20

/-- Tickets of a mesh, edge-stop or bridge ledger (R134). -/
def ledgerTickets : LedgerId → Nat
  | .mesh _ vc => if vc.val = 20 then 16 else 2
  | .edge _ _ _ vc => if vc.val = 20 then 32 else 2
  | .bridge br _ _ vc => if br.val < 4 then (if vc.val = 20 then 96 else 4) else if vc.val = 20 then 128 else 4
  | _ => 0

/-- A mesh, edge-stop or bridge ledger. -/
def State.ledger (s : State) (l : LedgerId) : Ledger := mget Ledger.reset s.ledgers (ledgerKey l)

/-- Replaces it. -/
def State.setMeshLedger (s : State) (l : LedgerId) (v : Ledger) : State :=
  { s with ledgers := mset Ledger.reset s.ledgers (ledgerKey l) v }

/-- The attachment point whose stop feeds a router input, if one does: inputs 5 and 6 are the site's points (04 R109, R138). -/
def inputPoint (l : MeshLink) : Option Nat :=
  ((List.range 25).map (fun k => 64 + k)).find? (fun n =>
    decide (5 ≤ l.inPort.val) && siteAt (l.site.val / 64) (pointSite (l.site.val / 64) n).1 (pointSite (l.site.val / 64) n).2 == l.site.val
      && attachPort (l.site.val / 64) n == l.inPort.val)

/-- The ledger of a router input for a channel, or 20 for the shared pool: a mesh link's, or that of the edge stop behind it. The
other attachments are bridge stops, whose flits have a command of their own. -/
def inputLedger (l : MeshLink) (vc : Vc) : LedgerId :=
  match inputPoint l with
  | some n => if n < 76 then .edge (Fin.ofNat 4 (l.site.val / 64)) (Fin.ofNat 12 (n - 64)) false vc else .mesh l vc
  | none => .mesh l vc

/-- The ledger that a flit takes its ticket from: its channel's, else the shared pool of the input. -/
def State.freeLedger (s : State) (of : Vc → LedgerId) (vc : Fin 20) : Option LedgerId :=
  let own := of ⟨vc.val, by omega⟩
  let pool := of ⟨20, by omega⟩
  if (s.ledger own).taken < ledgerTickets own then some own
  else if (s.ledger pool).taken < ledgerTickets pool then some pool
  else none

/-- Does a flit cross a bridge towards the lower-numbered of its panels, or from the proscenium die? -/
def crossesBack (br : Nat) (f : Flit) : Bool :=
  match br with
  | 0 => bridgeInto br f == 0
  | 1 => bridgeInto br f == 2
  | 2 => bridgeInto br f == 0
  | 3 => bridgeInto br f == 1
  | _ => f.dstPoint.val != 88

/-- A flit leaves a receiver's slot at once, its ticket on the way back (R134). -/
def Ledger.passed (v : Ledger) : Ledger := { v with taken := v.taken + 1, back := v.back + 1 }

/-- A flit that was in flight arrives and leaves its slot. -/
def Ledger.landed (v : Ledger) : Ledger := { v with flight := v.flight - 1, back := v.back + 1 }

/-- A flit stays in flight: its transfer has failed. -/
def Ledger.kept (v : Ledger) : Ledger := { v with taken := v.taken + 1, flight := v.flight + 1 }

/-! ### Trees (04 R123 to R130) -/

/-- Flits waiting in a multicast node's slots. -/
def State.mcAt (s : State) (g n : Nat) : List McFlit := s.mcFlits.filter (fun f => f.group == g && f.node == n)

/-- A flit is written to a node's spool; the last one of a tensor tile signals the member's semaphore (R125, 03 R98). -/
def State.mcCommit (s : State) (site : Nat) (f : McFlit) : State :=
  let s := s.poke 2 (site * spoolBytes + f.dst) f.data
  match f.sem with
  | some k => s.semAddAt site k 1 (s.localNo f.from_.1)
  | none => s

/-- The inputs that a reduction node waits for, in their order of addition (R129). -/
def redOrder (l : List Node) (n : Nat) : List Nat :=
  (if ((l[n]?).map (fun x => x.member)).getD false then [0] else [])
    ++ (List.range (childrenOf l n).length).map (fun k => k + 1)

/-- An input of a chunk at a node. -/
def State.redInput (s : State) (g n round chunk rank : Nat) : Option RedInput :=
  s.redIn.find? (fun x => x.group == g && x.node == n && x.round == round && x.chunk == chunk && x.rank == rank)

/-- The inputs of a chunk that a node holds. -/
def State.redHeld (s : State) (g n round chunk : Nat) : List RedInput :=
  s.redIn.filter (fun x => x.group == g && x.node == n && x.round == round && x.chunk == chunk)

/-- One addition of a reduction node: exact, rounded once by RNE in the group's format (R129, 02 R56). -/
def redAdd (bf16 : Bool) (a b : Word) : Word :=
  if bf16 then BitVec.ofNat 32 (toBf16 .rne (fvAdd (fmtBf16.decode a.toNat) (fmtBf16.decode b.toNat)).1).1
  else (fpAdd a b).1

/-- The combination of a node's inputs, first to last: one input goes on unchanged. -/
def redFold (bf16 : Bool) : List (List Word) → List Word
  | [] => []
  | x :: xs => xs.foldl (fun acc y => acc.zipWith (redAdd bf16) y) x

/-- The bytes of a chunk's first `len` elements. -/
def redBytes (bf16 : Bool) (len : Nat) (l : List Word) : List Byte :=
  (l.take len).flatMap (fun w => leBytes (if bf16 then 2 else 4) w.toNat)

/-- A chunk leaves a node: its inputs' slots are free for chunks that wait, and the node has dealt with one chunk more of the round.
-/
def State.redLeave (s : State) (g n round chunk : Nat) : State :=
  let run := s.redRunOf g
  let k := n + 64 * round
  let s := s.setRedRun g { run with committed := mset 0 run.committed k (mget 0 run.committed k + 1) }
  { s with
    redIn := s.redIn.filter (fun x => !(x.group == g && x.node == n && x.round == round && x.chunk == chunk))
    redOpen := s.redOpen.filter (fun x => !(x.1 == g && x.2.1 == n && x.2.2.1 == round && chunk == 0)) }.redRefill g n

/-- A round all of whose chunks its root has dealt with is over: it counts no longer (08 R275). -/
def State.redClose (s : State) (g b round : Nat) : State :=
  let run := s.redRunOf g
  if mget 0 run.committed (64 * round) < mget 0 run.size round then s
  else
    let gone := run.begun.filter (fun (x : Nat × Word) => x.1 == round)
    let s := s.setRedRun g { run with begun := run.begun.filter (fun (x : Nat × Word) => x.1 != round) }
    gone.foldl (fun s x => s.flightSub x.2 b 1) s

/-- The semaphore signals of a round, once its last chunk is committed at the root (03 R98). -/
def State.redSignal (s : State) (g site round : Nat) : State :=
  let run := s.redRunOf g
  if mget 0 run.committed (64 * round) < mget 0 run.size round then s
  else
    let due := run.sems.filter (fun (x : Nat × Nat × Nat) => x.1 == round)
    let s := s.setRedRun g { run with sems := run.sems.filter (fun (x : Nat × Nat × Nat) => x.1 != round) }
    due.foldl (fun s x => s.semAddAt site x.2.1 1 x.2.2) s

/-- The module behind an UP port, and the session with it: the port's peer, or behind a switch the bolt's peer that the port
leads to (07 R237). -/
def State.redPeer (s : State) (b p : Nat) : Option Nat :=
  match (s.port p).peer with
  | some (false, m, _) => some m
  | _ => ((s.loom.live.bindings.filter (fun x => x.bolt == b)).map (fun x => x.peer)).find? (fun m =>
      (s.loom.live.candidates m).any (fun c => c.1 == p))

/-- A root's chunk goes up to the parent module by UP_PORT, one chunk to a packet, under the scene of its round (07 R227, R237; 08
R272). It leaves only by a port that is UP and that the bolt may inject through, and VS is set where the route to the parent crosses the
dateline at that port (07 R246, R247). -/
def State.redUp (s : State) (r : RedRec) (scene : Word) (round chunk : Nat) (l : List Word) : State :=
  match s.redPeer r.bolt r.upPort with
  | none => s
  | some m =>
    match s.sessFor m r.bolt with
    | none => s
    | some (k, x) =>
      if !s.portUp r.upPort || !s.mayInject r.bolt (sceneBit scene) r.upPort then s
      else
        let dl := ((s.loom.live.candidates m).find? (fun c => c.1 == r.upPort)).map (fun c => c.2)
        let h := s.header 8 r.bolt m (s.stepClass r.bolt) (sceneBit scene) (dl.getD false) x 0 512 0 (round % 256)
          (r.upGroup + 2 ^ 8 * (chunk % 8192) + 2 ^ 24 * b2n r.bf16)
        s.sendPkt r.upPort ⟨h, redBytes r.bf16 l.length l, none, [], 8, some k, none⟩

/-- A group fails: what it holds is dropped, its tickets return, its members' tensor tiles complete locally (R132), and its rounds
count no longer (08 R275). -/
def State.redFail (s : State) (g b : Nat) : State :=
  let run := s.redRunOf g
  let s := run.begun.foldl (fun s x => s.flightSub x.2 b 1) (s.setRedRun g { run with failed := true, sems := [], begun := [] })
  let s := s.freeStaged (fun x => x.group == g)
  { s with
    redIn := s.redIn.filter (fun x => x.group != g)
    redOpen := s.redOpen.filter (fun x => x.1 != g) }

/-! ### Audits (14 R458 to R460) -/

/-- A ledger has been audited. -/
def State.noteAudit (s : State) (l : LedgerId) : State :=
  { s with audited := mset none s.audited (ledgerKey l) (some s.now), auditFirst := s.auditFirst.erase (ledgerKey l) }

/-- Audits of a link pause from its RETRAIN to its resynchronisation (R459). -/
def State.auditPaused (s : State) : LedgerId → Bool
  | .bridge br st _ _ => (s.bridge br.val st.val).retraining
  | .creust p _ => (s.port p.val).mode != .up
  | _ => false

/-- The unit, input port and channel that LEDGER_MISMATCH names (04 R138): the port in [7:0], the channel, or 0xFF for the
shared pool, in [15:8]. -/
def ledgerPlace : LedgerId → Nat × Nat
  | .mesh l vc => (l.site.val, l.inPort.val + 256 * (if vc.val = 20 then 0xFF else vc.val))
  | .edge p st _ vc =>
    (siteAt p.val (pointSite p.val (64 + st.val)).1 (pointSite p.val (64 + st.val)).2,
     attachPort p.val (64 + st.val) + 256 * (if vc.val = 20 then 0xFF else vc.val))
  | .bridge br st _ vc => (unitBridge br.val, st.val + 256 * (if vc.val = 20 then 0xFF else vc.val))
  | _ => (unitAudit, 0)

/-- R135 of a mesh, edge-stop or bridge ledger. -/
def State.auditMesh (s : State) (l : LedgerId) : State :=
  let v := s.ledger l
  let sum := ledgerTickets l - v.taken + v.flight + v.back + v.occ
  if sum = ledgerTickets l then s
  else s.raise (ledgerPlace l).1 0x043 4 none (ledgerPlace l).2 (ledgerTickets l) sum

/-- An AUDIT slot for a ledger of a Creust port: held tickets and cells returned to this sender (07 R221). -/
def State.sendAudit (s : State) (p no : Nat) : State :=
  let v := (s.port p).ledger no
  s.sendSlot p 0x84 [no, s.allotment p no - v.taken, v.sret]

/-- A balance that must hold: expected and found (R460). Kind 0 tree edge, 1 queue windows, 2 window slots, 3 cast entries. -/
def State.consCheck (s : State) (kind want found : Nat) : State :=
  if want = found then s else s.raise unitAudit 0x1A1 4 none kind want found

/-- Tickets of a tree edge, and those at home (R131). -/
def State.treeEdge (s : State) (red : Bool) (g n : Nat) : Option (Nat × Nat × Nat) :=
  if red then (s.redRec g).bind (fun r => (r.nodes[n]?).map (fun x =>
    (r.bolt, x.tickets, x.tickets - (s.redIn.filter (fun y => y.group == g && y.node == x.parent && y.rank == x.rank + 1)).length)))
  else (s.mcRec g).bind (fun r => (r.nodes[n]?).map (fun x => (r.bolt, x.tickets, x.tickets - (s.mcAt g n).length)))

/-- Is a bolt's tree quiet: at a bow point, or with no job? -/
def State.treeQuiet (s : State) (b : Nat) : Bool :=
  s.bowReady b || (s.ctx b).mode == .empty || (s.ctx b).mode == .ready

end Sys2Proof.Machine
end

