-- ==== Sys2Proof/Machine/Mesh.lean ====
section
/-! DEFINITION. Commands of the mesh, its bridges and trees, and of the ledger audit (04_panel_mesh.md,
14_incidents_understudy.md R458 to R460). -/

namespace Sys2Proof.Machine

/-- A single-bit error on a link is corrected; each 2^16 corrections are reported (R136). -/
def State.meshCorrect (s : State) (l : MeshLink) : State :=
  let k := l.site.val * 8 + l.inPort.val
  let n := mget 0 s.meshCe k + 1
  if n = 2 ^ 16 then
    ({ s with meshCe := mset 0 s.meshCe k 0 }).report l.site.val 0x041 1 none l.inPort.val n 0
  else { s with meshCe := mset 0 s.meshCe k n }

/-- MESH_FLIT_RECEIVE (R136): the flit takes a ticket of its input and leaves the slot at once, its ticket on the way back. -/
def execMeshFlitReceive (l : MeshLink) (flit : Flit) (ecc : Ecc) (s : State) : Host.Outcome State Fault Refusal :=
  .next (match s.live && s.flitOk flit, s.freeLedger (inputLedger l) flit.vc with
    | true, some d =>
      let s := s.setMeshLedger d (s.ledger d).passed
      (match ecc with
       | .clean => s.flitOut l.site.val flit
       | .corrected => (s.meshCorrect l).flitOut l.site.val flit
       | .uncorrectable =>
         s.raise l.site.val 0x042 2 (some flit.bolt.val) l.inPort.val flit.vc.val
           (flit.srcPoint.val + 2 ^ 8 * flit.srcPanel.val))
    | _, _ => s)

/-- The ledger of a link for a virtual channel (R134). -/
def ticketLedger (l : TicketLink) (vc : Vc) : LedgerId :=
  match l with
  | .mesh m => .mesh m vc
  | .edge p k d => .edge p k d vc
  | .bridge b k d => .bridge b k d vc

/-- TICKET_RETURN (R134): a ticket of a mesh link, edge stop or bridge on its way back reaches the sender. -/
def execTicketReturn (l : TicketLink) (vc : Vc) (s : State) : Host.Outcome State Fault Refusal :=
  .next (
    let d := ticketLedger l vc
    let v := s.ledger d
    if s.live ∧ 0 < ledgerTickets d ∧ 0 < v.back ∧ 0 < v.taken then s.setMeshLedger d { v with taken := v.taken - 1, back := v.back - 1 } else s)

/-- MCAST_FLIT_FORWARD (R125): the oldest flit of a node goes to every child that has a slot for it, and to the node's spool. -/
def execMcastFlitForward (g : Group) (node : NodeIx) (s : State) : Host.Outcome State Fault Refusal :=
  .next (match s.mcAt g.val node.val with
    | [] => s
    | f :: _ =>
      match s.mcRecAt g.val f.scene with
      | none => s
      | some r =>
        match r.nodes[node.val]? with
        | none => s
        | some x =>
          let kids := childrenOf r.nodes node.val
          if !s.live || kids.any (fun c => decide (c.2.tickets ≤ (s.mcAt g.val c.1).length)) then s
          else
            let s := s.mcCommit x.site f
            { s with mcFlits := s.mcFlits.erase f ++ kids.map (fun c => { f with node := c.1 }) })

/-- RED_CHUNK_COMBINE (R129): a node with every input of a chunk adds them in order and forwards or commits the sum. -/
def execRedChunkCombine (g : Group) (node : NodeIx) (round chunk : Nat) (s : State) : Host.Outcome State Fault Refusal :=
  .next (match s.redHeld g.val node.val round chunk with
    | [] => s
    | x :: _ =>
      match s.redRecAt g.val x.scene with
      | none => s
      | some r =>
        match r.nodes[node.val]? with
        | none => s
        | some me =>
          let order := redOrder r.nodes node.val
          let ins := order.filterMap (fun k => s.redInput g.val node.val round chunk k)
          if !s.live || (s.redRunOf g.val).failed || ins.length != order.length then s
          else
            let sum := redFold r.bf16 (ins.map (fun i => i.data))
            let len := ins.foldl (fun n i => min n i.len) 256
            if node.val ≠ 0 then
              let full := (s.redIn.filter (fun i => i.group == g.val && i.node == me.parent && i.rank == me.rank + 1)).length
              if me.tickets ≤ full then s
              else
                let s := s.redLeave g.val node.val round chunk
                { s with redIn := s.redIn ++ [{ x with
                    node := me.parent, rank := me.rank + 1, data := sum, len := len, at_ := s.redNow r.bolt }] }
            else
              let s := (s.redLeave g.val 0 round chunk).redClose g.val r.bolt round
              let s := if r.up then s.redUp r x.scene round chunk sum
                else s.poke 2 (me.site * spoolBytes + r.destOffset + 512 * chunk) (redBytes r.bf16 len sum)
              if r.up then s else s.redSignal g.val me.site round)

/-- RED_TIMEOUT (R132, R133): a chunk's timer, begun at its first input or by OPEN_RED, has run out with an input missing. -/
def execRedTimeout (g : Group) (node : NodeIx) (round chunk : Nat) (s : State) : Host.Outcome State Fault Refusal :=
  .next (
    let held := s.redHeld g.val node.val round chunk
    let scene := (held.head?.map (fun x => x.scene)).getD s.loom.live.num
    match s.redRecAt g.val scene with
    | none => s
    | some r =>
      match r.nodes[node.val]? with
      | none => s
      | some me =>
        let opened := (s.redOpen.filter (fun x => x.1 == g.val && x.2.1 == node.val && x.2.2.1 == round && chunk == 0)).map
          (fun x => x.2.2.2)
        let order := redOrder r.nodes node.val
        let missing := order.any (fun k => (s.redInput g.val node.val round chunk k).isNone)
        let begun := (held.map (fun x => x.at_) ++ opened).min?
        let late : Bool := match begun with
          | some t => decide (t + 1000 * r.timeout ≤ s.redNow r.bolt)
          | none => false
        if !s.live || (s.redRunOf g.val).failed || !missing || !late || me.port then s
        else
          let map := held.foldl (fun n x => n ||| 2 ^ x.rank) 0
          (s.redFail g.val r.bolt).raise me.site 0x040 3 (some r.bolt) g.val (round % 256 + 2 ^ 16 * (chunk % 2 ^ 13)) map)

/-- A flit that has crossed a bridge goes on: into the mesh of the panel, or to the proscenium die. -/
def State.bridgeOut (s : State) (br stop : Nat) (f : Flit) : State :=
  let p := bridgeInto br f
  let at_ := pointSite p (bridgePoint br stop)
  let vc := if br < 4 then s.crossVc p f else f.vc.val
  -- a flit for a port of the proscenium die leaves the mesh there
  if 4 ≤ br ∧ f.dstPoint.val = 88 then s else s.flitOut (siteAt p at_.1 at_.2) { f with vc := Fin.ofNat 20 vc }

/-- BRIDGE_FLIT_RECEIVE (R134, R137): a flit takes a ticket of its direction; one that passes its CRC leaves its slot and goes on,
one that fails stays in the replay buffer, in flight, and is replayed. A flit of the replay buffer holds its ticket. -/
def execBridgeFlitReceive (br : Bridge) (stop : Fin 4) (flit : Flit) (crcOk : Bool) (s : State) :
    Host.Outcome State Fault Refusal :=
  .next (
    let v := s.bridge br.val stop.val
    let back := crossesBack br.val flit
    if !s.live || v.retraining || !s.flitOk flit then s
    else match v.replay.find? (fun x => x.back == back && x.flit == flit) with
      | some x =>
        if crcOk then
          let d : LedgerId := .bridge br stop back x.pool
          ((s.setBridge br.val stop.val { v with replay := v.replay.erase x, failed := 0 }).setMeshLedger d (s.ledger d).landed).bridgeOut
            br.val stop.val flit
        else s.setBridge br.val stop.val { v with failed := min 8 (v.failed + 1), replays := v.replays + 1 }
      | none =>
        match s.freeLedger (fun c => .bridge br stop back c) flit.vc with
        | none => s
        | some d =>
          if crcOk then (s.setMeshLedger d (s.ledger d).passed).bridgeOut br.val stop.val flit
          else
            (s.setMeshLedger d (s.ledger d).kept).setBridge br.val stop.val { v with
              replay := v.replay ++ [⟨back, ledgerVc d, flit⟩], replays := v.replays + 1 })

/-- BRG_RETRAIN (R137): eight failed replays in a row. -/
def execBrgRetrain (br : Bridge) (stop : Fin 4) (s : State) : Host.Outcome State Fault Refusal :=
  .next (
    let v := s.bridge br.val stop.val
    if s.live && decide (8 ≤ v.failed) && !v.retraining then s.setBridge br.val stop.val { v with retraining := true } else s)

/-- Both directions' ledgers of a bridge stop after a retrain: the receiver's occupied slots, and the flits that the sender will
replay, in flight; the sender holds the rest (R137). -/
def State.bridgeTickets (s : State) (br : Bridge) (stop : Fin 4) (occ : List BridgeOcc) : State :=
  ([false, true].flatMap (fun k => (List.finRange 21).map (fun c => (k, c)))).foldl (fun s x =>
    let d : LedgerId := .bridge br stop x.1 x.2
    let n := ((s.bridge br.val stop.val).replay.filter (fun f => f.back == x.1 && f.pool == x.2)).length
    let o := min (((occ.find? (fun e => e.back == x.1 && e.pool == x.2)).map (fun e => e.slots)).getD 0) (ledgerTickets d - n)
    s.setMeshLedger d ⟨o + n, n, 0, o⟩) s

/-- BRIDGE_RETRAIN_END (R137): the tickets are set from the receivers' occupied slots and the flits to replay, or after three
failures in a row the bridge is down. -/
def execBridgeRetrainEnd (br : Bridge) (stop : Fin 4) (ok : Bool) (occupied : List BridgeOcc) (ns : Nat) (s : State) :
    Host.Outcome State Fault Refusal :=
  .next (
    let v := s.bridge br.val stop.val
    let st := if br.val < 4 then stop.val else 0
    if !s.live || !v.retraining then s
    else if ok then
      let s := (s.setBridge br.val stop.val { BridgeStop.reset with replay := v.replay }).bridgeTickets br stop occupied
      s.report (unitBridge br.val) 0x050 1 none st v.replays ns
    else
      let n := v.badRetrains + 1
      let s := s.setBridge br.val stop.val { v with badRetrains := n }
      if n < 3 then s else s.raise (unitBridge br.val) 0x051 4 none st n 0)

/-- LEDGER_AUDIT (14 R458, R460). -/
def execLedgerAudit (l : LedgerId) (s : State) : Host.Outcome State Fault Refusal :=
  .next (
    if !s.live || s.auditPaused l then s
    else match l with
      | .creust p no => (s.sendAudit p.val no).noteAudit l
      | .tree red g n =>
        (match s.treeEdge red g.val n.val with
         | some (b, want, found) => if s.treeQuiet b then (s.consCheck 0 want found).noteAudit l else s
         | none => s)
      | .queueWindows => (s.consCheck 1 48 (s.windows + (48 - s.windows))).noteAudit l
      | .windowSlots q =>
        let u := s.queue q.val
        if u.resident then (s.consCheck 2 8 (u.calls.length + (8 - u.calls.length))).noteAudit l else s
      | .castEntries b =>
        let r := s.castRange b.val
        let want := ((s.loom.live.bolt? b.val).map (fun x => x.castCount)).getD 0
        (s.consCheck 3 want (r.2 - r.1)).noteAudit l
      | _ => (s.auditMesh l).noteAudit l)

/-- AUDIT_LATE (14 R459): no audit of a ledger within 10 ms. -/
def execAuditLate (l : LedgerId) (s : State) : Host.Outcome State Fault Refusal :=
  .next (
    let k := ledgerKey l
    let last := (mget none s.audited k).getD s.fw.bootAt
    if s.live && !s.auditPaused l && !s.auditFirst.contains k && decide (last + 10000000 ≤ s.now) then
      ({ s with auditFirst := s.auditFirst ++ [k] }).report unitAudit 0x1A2 1 none k ((s.now - last) / 1000000) 0
    else s)

end Sys2Proof.Machine
end

