-- ==== Sys2Proof/Machine/PktOps.lean ====
section
/-! DEFINITION. What a module does with every packet that it receives: buffer cells, the checks of R229, the order of requests, the
crossing of the mesh in transit (07_creust_fabric.md R216, R217, R226 to R230, R235, R238, R242, R243, R247). -/

namespace Sys2Proof.Machine

/-- Does the module answer to a packet's destination: its own number, or its lost twin's for a bolt it took over? (R229,
14 R466) -/
def State.isLocal (s : State) (h : PktHdr) : Bool :=
  h.dst.toNat == s.modNum || (h.dst.toNat == s.twin.twin && s.twin.alias_.contains h.bolt.toNat)

/-- Can a port deliver a packet of a kind now? A port carries packets in UP, under a scene with a port section (R214). -/
def State.carries (s : State) (p : Nat) (h : PktHdr) (kind : Nat) : Bool :=
  s.live && (s.port p).mode == .up && s.loom.live.ports.isSome && h.kind.toNat == kind

/-- Is this packet one that the module delivers here? -/
def State.arrives (s : State) (p : Nat) (h : PktHdr) (kind : Nat) : Bool := s.carries p h kind && s.isLocal h

/-- A packet leaves the receive buffer (R216, R217). -/
def State.freeCells (s : State) (p : Nat) (h : PktHdr) (ext : Bool) : State := s.returnCells p (pktLedger h) (pktCells h ext)

/-! ### Checks 1 to 3 (R229) -/

/-- SRC and SKI as R254 packs them: the model puts SRC in [11:0]. -/
def srcSki (h : PktHdr) : Nat := h.src.toNat + 2 ^ 12 * h.ski.toNat

/-- Where the highest SEQ accepted is kept: by message class and TC (R243). -/
def seqKey (h : PktHdr) : Nat := ((pktClass h.kind.toNat).getD 7) * 8 + h.tc.toNat

/-- A packet that has passed checks 1 to 3: its session, its EXT slot and its data, deciphered. -/
structure RxPkt where
  sess : Sess
  ext : Option (List Byte)
  data : List Byte

/-- Does the tag of a sealed packet verify under a key (R242)? -/
def tagOk (k : DirKey) (h : PktHdr) (ext : Option (List Byte)) (data : List Byte) (tag : GcmTag) : Bool :=
  leBytes 16 tag.toNat == pktTag k h ext data

/-- Does a session meet check 1 for a packet, its phase apart: its peer, its bolt and its mode (R229)? -/
def Sess.fits (x : Sess) (h : PktHdr) : Bool := x.peer == h.src.toNat && x.bolt == h.bolt.toNat && x.sealed == h.sealed

/-- Checks 2 and 3 of a packet on a session: its tag verifies, and its SEQ is higher than those accepted for its class and TC, which it
then becomes (R242, R243). -/
def State.rxSess (s : State) (p : Nat) (h : PktHdr) (ext : Option (List Byte)) (data : List Byte) (tag : GcmTag) (x : Sess) :
    State × Option RxPkt :=
  let b := h.bolt.toNat
  let seen := mget 0 x.rx (seqKey h)
  if x.sealed && !tagOk x.rxKey h ext data tag then
    (s.raise (unitPort p) 0x0C5 3 (some b) (srcSki h) (h.seq.toNat % 2 ^ 32) b, none)
  else if h.seq.toNat < seen then
    (s.raise (unitPort p) 0x0C6 3 (some b) (srcSki h) (h.seq.toNat % 2 ^ 32) ((seen - 1) % 2 ^ 32), none)
  else
    let y : Sess := { x with rx := mset 0 x.rx (seqKey h) (h.seq.toNat + 1) }
    let c := if x.sealed then pktCrypt x.rxKey h ext data else (ext, data)
    (s.setSess h.ski.toNat (some y), some ⟨y, c.1, c.2⟩)

/-- Checks 1 to 3: the packet in clear, once it is accepted. -/
def State.rxCheck (s : State) (p : Nat) (h : PktHdr) (ext : Option (List Byte)) (data : List Byte) (tag : GcmTag) :
    State × Option RxPkt :=
  match s.sessAt h.ski.toNat with
  | none => (s.report (unitPort p) 0x0CD 0 none (srcSki h) h.kind.toNat 0, none)
  | some x =>
    if x.phase = .opened ∧ x.fits h then s.rxSess p h ext data tag x
    else (s.report (unitPort p) 0x0CD 0 none (srcSki h) h.kind.toNat 0, none)

/-! ### The order of requests (R235, R238) -/

/-- Class mask of a FENCE. -/
def fenceMask (h : PktHdr) : Option Nat := if h.kind.toNat = 6 then some h.opx.toNat else none

/-- Does a request wait for another of its session that was sent before it: of its own TC, as a FENCE for those of its classes, or as
one of the classes that a FENCE holds? -/
def HeldReq.stops (e : HeldReq) (h : PktHdr) : Bool :=
  decide (e.seq < h.seq.toNat)
    && (e.tc == h.tc.toNat || bit ((fenceMask h).getD 0) e.tc || bit (e.mask.getD 0) h.tc.toNat)

/-- A request waits in the receive buffer: its session keeps its place in the order. -/
def State.holdReq (s : State) (h : PktHdr) : State :=
  let e : HeldReq := ⟨h.seq.toNat, h.tc.toNat, fenceMask h⟩
  s.updSess h.ski.toNat (fun x => if x.held.contains e then x else { x with held := x.held ++ [e] })

/-- A request that waited, or did not, is performed or refused. -/
def State.unholdReq (s : State) (h : PktHdr) : State :=
  s.updSess h.ski.toNat (fun x => { x with held := x.held.filter (fun e => !(e.seq == h.seq.toNat && e.tc == h.tc.toNat)) })

/-! ### Checks 4 to 6 (R229, R230) -/

/-- Are the reserved fields 0? (R9, R226) -/
def pktRsv (h : PktHdr) : Bool := h.rsv1 == 0 && h.rsv2 == 0

/-- The fields that a request with an address holds to: reserved fields 0, AUX 0 but for SEM, and the address's module its destination
(R9, R226, R227). -/
def pktFields (h : PktHdr) : Bool := pktRsv h && faMod h.addr.toNat == h.dst.toNat

/-- The fields of a request with neither an address nor data: ADDR names the destination's first byte alone (R226, R227). -/
def pktBare (h : PktHdr) : Bool := pktRsv h && h.addr.toNat == mkFa h.dst.toNat 0 0 && h.len == 0

/-- The status of a memory request of a packet; none while it waits for a release or a key. `shape` says that its fields are
legal, `ops` that space 0, 1 or 2 takes the operation. The tables give a remote request no other space (08 R256). -/
def State.pktStatus (s : State) (h : PktHdr) (len : Nat) (rd wr at_ shape : Bool) (ops : Nat → Bool) : Option Nat :=
  let fa := h.addr.toNat
  match s.sceneFor h.bolt.toNat h.scene with
  | none => some stScene
  | some _ =>
    if !shape then some stMalformed
    else if 2 < faSpace fa then some stDenied
    else match s.accessStatus h.bolt.toNat h.src.toNat h.scene (faSpace fa) (faOff fa) len rd wr at_ with
      | some 0 => if ops (faSpace fa) then some 0 else some stUnsupported
      | r => r

/-- UE is raised against the bolt of the request (05 R170). -/
def State.pktUe (s : State) (h : PktHdr) (st : Nat) : State :=
  if st = stUe then s.raiseUe h.bolt.toNat h.addr.toNat 0xFFF h.tag.toNat else s

/-- The response to a write or an atomic: sent, or owed until both copies hold a mirrored write (14 R462). -/
def State.ackWrite (s : State) (kind : Nat) (h : PktHdr) (rval : Nat) (data : List Byte) : State :=
  let sp := faSpace h.addr.toNat
  let off := faOff h.addr.toNat
  let n := if kind = 0x24 then 8 else pktBytes h
  if s.mirrorDue sp off n then
    { s with twin := { s.twin with owed := s.twin.owed ++ [⟨sp, off, n, .packet kind h rval data⟩] } }
  else s.sendRsp kind h 0 rval data

/-- A request at its target: `good` performs and answers it once every check holds, `bad` answers it with its status. A request that
must wait stays in the receive buffer, and its session notes that it does. -/
def State.serve_ (s : State) (p : Nat) (h : PktHdr) (ext : Option (List Byte)) (data : List Byte) (tag : GcmTag)
    (status : State → RxPkt → Option Nat) (good : State → RxPkt → State) (bad : State → Nat → State) : State :=
  let c := (s.freeCells p h ext.isSome).rxCheck p h ext data tag
  match c.2 with
  | none => c.1
  | some x =>
    if x.sess.held.any (fun e => e.stops h) then s.holdReq h
    else match status c.1 x with
      | none => s.holdReq h
      | some 0 => good (c.1.unholdReq h) x
      | some st => bad (c.1.unholdReq h) st

/-- The answer to a memory request that is refused, with UE raised for it (R230). -/
def State.refuseReq (s : State) (kind : Nat) (h : PktHdr) (rval st : Nat) : State := (s.pktUe h st).sendRsp kind h st rval []

/-! ### Responses (R230 to R236) -/

/-- The request that a response answers: outstanding under a key, of the kind it answers, to its source for its bolt. -/
def State.answered (s : State) (h : PktHdr) (key : Nat) (kinds : List Nat) : Option CrReq :=
  (s.reqAt key).bind (fun r =>
    if kinds.contains r.kind && r.dst == h.src.toNat && r.bolt == h.bolt.toNat then some r else none)

/-- Are the fields of a response those that R227 gives it: RVAL on RSP alone, LEN on RD_DATA alone? -/
def rspFields (h : PktHdr) : Bool :=
  pktRsv h && h.aux == 0 && decide (h.opx.toNat < 16) && (h.kind == 0x21 || h.len == 0) && (pktClass h.kind.toNat == some 1 || h.addr == 0)

/-- A response passes the checks and `act` takes it. One with a field that must be 0 is discarded: the spec gives it no answer
(DESIGN CHOICE, log 119). -/
def State.takeRsp (s : State) (p : Nat) (h : PktHdr) (data : List Byte) (tag : GcmTag) (kind : Nat) (act : State → RxPkt → State) :
    State :=
  if !s.arrives p h kind then s
  else
    let c := (s.freeCells p h false).rxCheck p h none data tag
    match c.2 with
    | none => c.1
    | some x => if rspFields h then act c.1 x else c.1

/-- A response ends its request: completed when its status is OK, else the request fails. One whose request was abandoned is discarded
(R231). -/
def State.endReq (s : State) (h : PktHdr) (kinds : List Nat) (good : State → CrReq → State) : State :=
  match s.answered h h.tag.toNat kinds with
  | none => s
  | some r =>
    let st := h.opx.toNat % 16
    if st = 0 then ((good s r).finishReq h.tag.toNat r).ownerGo r.owner else s.reqFail h.tag.toNat r st

/-! ### Transit through the mesh (R247; 04 R114; 01 R14) -/

/-- The attachment points of the two ports of a transit packet: 76 to 79 of a panel for F ports, the proscenium die's 88 of the other
port's panel for U ports; none between the U ports, whose packet stays on that die. -/
def transitPoints (p q : Nat) : Option ((Nat × Nat) × Nat × Nat) :=
  if 16 ≤ p ∧ 16 ≤ q then none
  else
    let at_ := fun (x other : Nat) => if x < 16 then (x / 4, 76 + x % 4) else (other / 4, 88)
    some (at_ p q, at_ q p)

/-- The flit of a transit packet at its ingress point: class REQ for REQ and MREQ, RSP for RSP and MRSP, no bridge crossed yet, in the
lane of its first segment (R247; 04 R114). -/
def State.transitFlit (s : State) (h : PktHdr) (a b : Nat × Nat) : Flit :=
  let f : Flit := ⟨0, Fin.ofNat 64 h.bolt.toNat, h.scene, Fin.ofNat 4 a.1, Fin.ofNat 89 a.2, Fin.ofNat 4 b.1, Fin.ofNat 89 b.2⟩
  let u := pointSite a.1 a.2
  let e := pointSite a.1 (flitExit f a.1)
  let rsp := (pktClass h.kind.toNat).getD 0 % 2
  { f with vc := Fin.ofNat 20 (9 * rsp + segLane (s.segment a.1 u.1 u.2 e.1 e.2).1) }

/-- The router input behind an attachment point. -/
def pointInput (a : Nat × Nat) : MeshLink :=
  let u := pointSite a.1 a.2
  ⟨Fin.ofNat 256 (siteAt a.1 u.1 u.2), Fin.ofNat 7 (attachPort a.1 a.2)⟩

/-- Flits of a transit packet on the mesh, of up to 512 bytes as 04 R127's are (DEDUCED, log 120). -/
def transitFlits (h : PktHdr) (ext : Bool) : Nat := (32 * pktCells h ext + 511) / 512

/-- A transit packet's flits enter the mesh, each with a ticket of the ingress router's input; none while one finds no ticket. -/
def State.crossFlits (s : State) (a : Nat × Nat) (f : Flit) : Nat → Option State
  | 0 => some s
  | n + 1 => match s.freeLedger (inputLedger (pointInput a)) f.vc with
    | none => none
    | some d => ((s.setMeshLedger d (s.ledger d).passed).flitOut (pointInput a).site.val f).crossFlits a f n

/-- A transit packet crosses from port `p` to port `q`; none while it waits for tickets. -/
def State.crossMesh (s : State) (p q : Nat) (h : PktHdr) (ext : Bool) : Option State :=
  match transitPoints p q with
  | none => some s
  | some x => s.crossFlits x.1 (s.transitFlit h x.1 x.2) (transitFlits h ext)

end Sys2Proof.Machine
end

