-- ==== Sys2Proof/Machine/Packets.lean ====
section
/-! DEFINITION. Creust packets as the module receives them (07_creust_fabric.md R226 to R248, R252). -/

namespace Sys2Proof.Machine

/-! ### Requests (R229, R232 to R235) -/

/-- LD (R229): answered with the bytes. -/
def execLd (p : Port) (h : PktHdr) (tag : GcmTag) (s : State) : Host.Outcome State Fault Refusal :=
  .next (
    if !s.arrives p.val h 1 then s
    else
      let n := pktBytes h
      s.serve_ p.val h none [] tag
        (fun s _ => s.pktStatus h n true false false (pktFields h && h.opx == 0 && h.aux == 0) (fun _ => true))
        (fun s _ => (s.readMeta (faSpace h.addr.toNat) (faOff h.addr.toNat) n).sendRsp 0x21 h 0 0
          (s.peek (faSpace h.addr.toNat) (faOff h.addr.toNat) n))
        (fun s st => s.refuseReq 0x21 h 0 st))

/-- ST (R229). -/
def execSt (p : Port) (h : PktHdr) (data : List Byte) (tag : GcmTag) (s : State) : Host.Outcome State Fault Refusal :=
  .next (
    if !s.arrives p.val h 2 then s
    else
      let n := pktBytes h
      s.serve_ p.val h none data tag
        (fun s _ => s.pktStatus h n false true false
          (pktFields h && h.opx == 0 && h.aux == 0 && data.length == n) (fun _ => true))
        (fun s x => (s.poke (faSpace h.addr.toNat) (faOff h.addr.toNat) x.data).ackWrite 0x22 h 0 [])
        (fun s st => s.refuseReq 0x22 h 0 st))

/-- Bulk fragments performed and not acknowledged (R232). -/
def State.owe (s : State) (h : PktHdr) (n : Nat) : State :=
  s.updSess h.ski.toNat (fun x => { x with
    bulkOwed := mset 0 x.bulkOwed h.tc.toNat n, bulkSeq := mset 0 x.bulkSeq h.tc.toNat h.seq.toNat })

/-- BULK_WR (R232): acknowledged after LAST and at the sixteenth unacknowledged fragment; a failing one at once. -/
def execBulkWr (p : Port) (h : PktHdr) (data : List Byte) (tag : GcmTag) (s : State) : Host.Outcome State Fault Refusal :=
  .next (
    if !s.arrives p.val h 3 then s
    else
      let n := pktBytes h
      s.serve_ p.val h none data tag
        (fun s _ => s.pktStatus h n false true false
          (pktFields h && decide (h.opx.toNat < 2) && h.aux == 0 && data.length == n) (fun _ => true))
        (fun s x =>
          let s := s.poke (faSpace h.addr.toNat) (faOff h.addr.toNat) x.data
          let owed := mget 0 x.sess.bulkOwed h.tc.toNat + 1
          if h.opx.toNat = 1 ∨ 16 ≤ owed then (s.owe h 0).ackWrite 0x23 h h.seq.toNat [] else s.owe h owed)
        (fun s st => s.refuseReq 0x23 h h.seq.toNat st))

/-- The new value of an atomic's word of `w` bits (R233). -/
def atomNew (op w old a b : Nat) : Nat :=
  match op with
  | 0 => (old + a) % 2 ^ w
  | 1 => if old = a then b else old
  | 2 => max old a
  | _ => if toSigned w old < toSigned w a then a else old

/-- An operand of an EXT slot, of a word's bytes: A at 0x08, B at 0x10 (R233). -/
def extWord (l : List Byte) (off n : Nat) : Nat := leNat ((l.drop off).take n)

/-- ATOM (R233). Its EXT slot comes as it stands in the packet, in two halves. -/
def execAtom (p : Port) (h : PktHdr) (extLo extHi : BitVec 128) (tag : GcmTag) (s : State) : Host.Outcome State Fault Refusal :=
  .next (
    if !s.arrives p.val h 4 then s
    else
      let n := if bit h.opx.toNat 2 then 8 else 4
      let sp := faSpace h.addr.toNat
      let off := faOff h.addr.toNat
      s.serve_ p.val h (some (leBytes 16 extLo.toNat ++ leBytes 16 extHi.toNat)) [] tag
        (fun s x => s.pktStatus h n false false true
          (pktFields h && decide (h.opx.toNat < 8) && h.aux == 0 && h.len == 0 && off % n == 0 && extWord (x.ext.getD []) 0 1 == 0x40)
          (fun k => decide (k < 2)))
        (fun s x =>
          let e := x.ext.getD []
          let old := leNat (s.peek sp off n)
          let new := atomNew (h.opx.toNat % 4) (8 * n) old (extWord e 8 n) (extWord e 0x10 n)
          (s.poke sp off (leBytes n new)).ackWrite 0x24 h old [])
        (fun s st => s.refuseReq 0x24 h 0 st))

/-- SEM (R234): a signal to a tile that the bolt does not have here is refused. The origin that a fault names is 0xFFFF:
the packet names no tile. -/
def execSem (p : Port) (h : PktHdr) (tag : GcmTag) (s : State) : Host.Outcome State Fault Refusal :=
  .next (
    if !s.arrives p.val h 5 then s
    else
      let w := h.aux.toNat
      let b := h.bolt.toNat
      s.serve_ p.val h none [] tag
        (fun s _ =>
          if (s.sceneFor b h.scene).isNone then some stScene
          else if !(pktBare h && h.opx == 0 && decide (w < 2 ^ 23)) then some stMalformed
          else if (s.siteOf b (bits w 15 0)).isNone then some stDenied
          else some 0)
        (fun s _ => match s.siteOf b (bits w 15 0) with
          | some t => (s.semAddAt t (bits w 18 16) (bits w 22 19 + 1) 0xFFFF).sendRsp 0x26 h 0 0 []
          | none => s)
        (fun s st => s.sendRsp 0x26 h st 0 []))

/-- CREUST_FENCE (R235): answered once no earlier request of its classes waits; the module performs every other as it takes it. -/
def execCreustFence (p : Port) (h : PktHdr) (tag : GcmTag) (s : State) : Host.Outcome State Fault Refusal :=
  .next (
    if !s.arrives p.val h 6 then s
    else s.serve_ p.val h none [] tag
      (fun s _ =>
        if (s.sceneFor h.bolt.toNat h.scene).isNone then some stScene
        else if !(pktBare h && h.opx != 0 && h.aux == 0) then some stMalformed
        else some 0)
      (fun s _ => s.sendRsp 0x25 h 0 0 [])
      (fun s st => s.sendRsp 0x25 h st 0 []))

/-! ### Reductions (R237) -/

/-- The inputs of the chunks of a RED packet at the node above a port leaf. -/
def redInputs (g : Nat) (scene : Word) (node rank round chunk per now : Nat) : Nat → List Word → List RedInput
  | 0, _ => []
  | n + 1, l =>
    { group := g, scene := scene, node := node, round := round, chunk := chunk, rank := rank, data := l.take per, len := per,
      at_ := now } :: redInputs g scene node rank round (chunk + 1) per now n (l.drop per)

/-- The group's record and port leaf that a RED packet meets, if it is one of the group's: its scene, bolt, FMT and LEN are right and
every other field is 0 (R227, R229, R237). -/
def State.redTarget (s : State) (p : Nat) (h : PktHdr) : Option (Word × RedRec × Node) :=
  let w := h.aux.toNat
  match (s.sceneFor h.bolt.toNat h.scene).bind
      (fun x => (x.1.red.find? (fun r => r.group == bits w 7 0)).map (fun r => (x.1.num, r))) with
  | none => none
  | some (scene, r) =>
    match r.nodes.find? (fun x => x.port && x.site == p) with
    | none => none
    | some leaf =>
      if r.bolt = h.bolt.toNat ∧ r.bf16 = bit w 24 ∧ h.len.toNat = 8 * (bits w 23 21 + 1) - 1 ∧ w < 2 ^ 25 ∧ pktRsv h ∧ h.addr = 0
          ∧ h.tag = 0 then some (scene, r, leaf) else none

/-- RED (R237): its chunks wait at the port leaf for slots of the node above, each holding its cells until then; a packet that does not
match its group, or whose group has failed, is dropped (04 R132). -/
def execRed (p : Port) (h : PktHdr) (data : List Byte) (tag : GcmTag) (s : State) : Host.Outcome State Fault Refusal :=
  .next (
    if !s.arrives p.val h 8 then s
    else
      let w := h.aux.toNat
      let g := bits w 7 0
      let n := bits w 23 21 + 1
      let c := s.rxCheck p.val h none data tag
      match c.2 with
      | none => c.1.freeCells p.val h false
      | some x =>
        match c.1.redTarget p.val h with
        | none => c.1.freeCells p.val h false
        | some (scene, r, leaf) =>
          let run := c.1.redRunOf g
          if run.failed ∨ data.length ≠ 512 * n then c.1.freeCells p.val h false
          else
            let per := if r.bf16 then 256 else 128
            let top := run.next.foldl (fun a e => max a e.2) 0
            let due := fun k => decide (mget 0 run.committed (leaf.parent + 64 * k) ≤ bits w 20 8)
            let round := oldestRound due h.opx.toNat (top + 512) 0
            let ins := redInputs g scene leaf.parent (leaf.rank + 1) round (bits w 20 8) per (c.1.redNow r.bolt) n
              (redElems r.bf16 (512 * n) x.data)
            let s := c.1.returnCells p.val (pktLedger h) (1 + b2n h.sealed)
            { s with redStage := s.redStage ++ ins }.redRefill g leaf.parent)

/-! ### Shootdowns (R236) -/

/-- Is a SHOOT well-formed: reserved fields and LEN 0, a type of R158, and as 05 R159 has it no range but for RANGE (R227)? -/
def shootFields (h : PktHdr) : Bool :=
  pktRsv h && h.len == 0
    && (h.opx.toNat == 1 || ((h.opx.toNat == 2 || h.opx.toNat == 3) && h.addr == 0 && h.aux == 0))

/-- SHOOT (R236): the removal is performed; the acknowledgement waits for the tensor tiles pinned against it. -/
def execShoot (p : Port) (h : PktHdr) (tag : GcmTag) (s : State) : Host.Outcome State Fault Refusal :=
  .next (
    if !s.arrives p.val h 0x10 then s
    else
      let b := h.bolt.toNat
      let c := (s.freeCells p.val h false).rxCheck p.val h none [] tag
      match c.2 with
      | none => c.1
      | some _ =>
        let s := c.1
        if (s.sceneFor b h.scene).isNone then s.sendRsp 0x30 h stScene 0 []
        else if !shootFields h then s.sendRsp 0x30 h stMalformed 0 []
        else
          let v : InvScope := ⟨h.opx.toNat, b, h.addr.toNat, h.addr.toNat + h.aux.toNat * 4096⟩
          let pins := s.invPins v
          let s := s.invRemove v
          if pins = [] then s.sendRsp 0x30 h 0 0 []
          else
            let k := freeKey s.inv (s.inv.length + 1) 64
            { s with inv := mset none s.inv k (some {
                kind := h.opx.toNat, bolt := b, fen := false, fence := 0, fval := 0, start := h.addr.toNat, pages := h.aux.toNat,
                seq := 0, pins := pins, unacked := [], at_ := s.now, reply := some h }) })

/-! ### Sessions (R241 to R244, R252) -/

/-- The status of a message of set-up, which no session carries yet: a live scene has its bolt, the bolt's binding lists its source, and
its fields are those of R227 (R229, R241). -/
def State.setupStatus (s : State) (h : PktHdr) (data : List Byte) : Nat :=
  let b := h.bolt.toNat
  if (s.sceneFor b h.scene).isNone then stScene
  else if !(pktRsv h && !h.sealed && h.addr == 0 && decide (h.aux.toNat < 2 ^ 16) && data.length == pktBytes h) then stMalformed
  else if !(s.peersOf b).contains h.src.toNat then stDenied
  else 0

/-- A fragment of OFFER or ENCAPS: answered, and kept until its message is whole and this module's own set-up has come to it (R241). -/
def State.setupFragment (s : State) (p : Nat) (h : PktHdr) (data : List Byte) (sigOk : Bool) : State :=
  let s := s.freeCells p h false
  let st := s.setupStatus h data
  let ski := ((s.setupSess h.src.toNat h.bolt.toNat).map (fun x => x.2.peerSki)).getD 0
  let s := s.setupRsp h ski st
  if st ≠ 0 then s else (s.keepFragment h data sigOk).runSetup h.src.toNat h.bolt.toNat

/-- SESS_OFFER (R241): verified when whole, and answered with ENCAPS, or on a clear binding with CONFIRM. One that comes before this
module has begun its own load is kept for it. `sigOk` is SEC's verdict on the signature of the whole OFFER. -/
def execSessOffer (p : Port) (h : PktHdr) (data : List Byte) (sigOk : Bool) (s : State) : Host.Outcome State Fault Refusal :=
  .next (if !s.arrives p.val h 0x11 || h.opx != 1 then s else s.setupFragment p.val h data sigOk)

/-- SESS_ENCAPS (R241): the keys of both directions are derived, and a sealed CONFIRM goes out. -/
def execSessEncaps (p : Port) (f : SetupFragment) (s : State) : Host.Outcome State Fault Refusal :=
  .next (if !s.arrives p.val f.h 0x11 || f.h.opx != 2 then s else s.setupFragment p.val f.h f.data true)

/-- SESS_CONFIRM (R241): one that verifies, with SEQ 0, opens the session; a bad one leaves it closed. -/
def execSessConfirm (p : Port) (h : PktHdr) (body : SealedBody) (s : State) : Host.Outcome State Fault Refusal :=
  .next (
    if !s.arrives p.val h 0x11 || h.opx != 3 then s
    else match s.sessAt h.ski.toNat with
      | none => ((s.freeCells p.val h false).rxCheck p.val h none body.data body.tag).1
      | some x =>
        if x.phase = .opened then ((s.freeCells p.val h false).rxCheck p.val h none body.data body.tag).1
        else if x.phase ≠ .confirmSent ∨ x.peer ≠ h.src.toNat ∨ x.bolt ≠ h.bolt.toNat then s
        else
          let s := s.freeCells p.val h false
          if x.sealed != h.sealed || h.seq != 0 || (x.sealed && !tagOk x.rxKey h none body.data body.tag) then s.setupFail p.val h.ski.toNat 1
          else (s.setSess h.ski.toNat (some { x with phase := .opened, rx := mset 0 x.rx (seqKey h) 1 })).setupRsp h x.peerSki 0)

/-- The cause of a CLOSE resets this module's part of the bolt (R252). -/
def State.closedBy (s : State) (b cause : Nat) : State :=
  if cause = 0 ∨ (s.ctx b).mode = .empty then s else s.boltStop b cause

/-- SESS_CLOSE (R244, R252): the session ends; with an incident code as its cause, this module's part of the bolt is reset. The cause is
the first 16 bits of the data (DESIGN CHOICE, log 118). A CLOSE in set-up is clear, and forgets what the peer has sent; the set-up then
fails by its cause or by its time. -/
def execSessClose (p : Port) (h : PktHdr) (data : List Byte) (tag : GcmTag) (s : State) : Host.Outcome State Fault Refusal :=
  .next (
    if !s.arrives p.val h 0x11 || h.opx != 4 then s
    else
      let s := s.freeCells p.val h false
      let peer := h.src.toNat
      let b := h.bolt.toNat
      match s.setupSess peer b with
      | some (k, x) =>
        if x.phase = .opened then
          let c := s.rxCheck p.val h none data tag
          (match c.2 with
           | none => c.1
           | some y => ((c.1.sendRsp 0x31 h 0 0 []).dropSess h.ski.toNat).closedBy b (leNat (y.data.take 2)))
        else if h.sealed ∨ s.setupStatus h data ≠ 0 then (s.rxCheck p.val h none data tag).1
        else
          let s := (s.setupRsp h x.peerSki 0).dropMessages peer b
          let cause := leNat (data.take 2)
          if cause = 0 then s else (s.dropSess k).closedBy b cause
      | none =>
        let s := (s.rxCheck p.val h none data tag).1
        if h.sealed then s else s.dropMessages peer b)

/-- SESSION_TIMEOUT (R241): no answer within 1 s. -/
def execSessionTimeout (ski : SessIx) (s : State) : Host.Outcome State Fault Refusal :=
  .next (match s.sessAt ski.toNat with
    | none => s
    | some x =>
      if !s.live || decide (s.now < x.openedAt + giga) then s
      else match x.phase with
        | .opened => s
        | .closed => s.dropSess ski.toNat
        | _ => s.setupFail (s.routePort x.peer) ski.toNat 2)

/-! ### Responses -/

/-- RD_DATA (R230): the data reach the tensor tile that asked for them. -/
def execRdData (p : Port) (h : PktHdr) (data : List Byte) (tag : GcmTag) (s : State) : Host.Outcome State Fault Refusal :=
  .next (s.takeRsp p.val h data tag 0x21 (fun s x => s.endReq h [1] (fun s r =>
    match r.owner with
    | .tensor t k _ => s.tensorData t k r.pos (x.data.take r.len)
    | .aperture fn => s.emit (.apData fn (x.data.take r.len))
    | .firmware _ => s.fwArrive h.tag.toNat 0 (x.data.take r.len)
    | .walk u => s.walkData u r.addr.toNat (x.data.take r.len)
    | _ => s)))

/-- The mirrored write that an acknowledgement on a U port answers: from the twin, in the U-link session (14 R462; 12 R395). -/
def State.mirrorAck (s : State) (p : Nat) (h : PktHdr) : Option CrReq :=
  if 16 ≤ p then (s.answered h h.tag.toNat [2]).bind (fun r => if r.isMirror then some r else none) else none

/-- The key of the twin's direction of the U-link session, which is always sealed (12 R395). -/
def twinKey (h : PktHdr) : DirKey := ⟨Config.twinKey h.src.toNat, 0⟩

/-- WR_ACK (R230). The acknowledgement of a mirrored write is checked in the U-link session, whose SEQ are its own. -/
def execWrAck (p : Port) (h : PktHdr) (tag : GcmTag) (s : State) : Host.Outcome State Fault Refusal :=
  .next (match s.mirrorAck p.val h with
    | some r =>
      if !s.arrives p.val h 0x22 then s
      else
        let s := s.freeCells p.val h false
        let seq := h.seq.toNat
        if !h.sealed then s.report (unitPort p.val) 0x0CD 0 none (srcSki h) h.kind.toNat 0
        else if !tagOk (twinKey h) h none [] tag then
          s.raise (unitPort p.val) 0x0C5 3 (some r.bolt) (srcSki h) (seq % 2 ^ 32) r.bolt
        else if seq < s.twin.rxSeq then
          s.raise (unitPort p.val) 0x0C6 3 (some r.bolt) (srcSki h) (seq % 2 ^ 32) ((s.twin.rxSeq - 1) % 2 ^ 32)
        else
          let s := { s with twin := { s.twin with rxSeq := seq + 1 } }
          if !rspFields h || h.opx.toNat % 16 != 0 then s else s.finishReq h.tag.toNat r
    | none => s.takeRsp p.val h [] tag 0x22 (fun s _ => s.endReq h [2] (fun s r => match r.owner with
        | .firmware _ => s.fwArrive h.tag.toNat 0 []
        | _ => s)))

/-- The bulk fragments of a session and TC that an acknowledgement covers: sent, with a SEQ up to `seq`. -/
def State.bulkCovered (s : State) (h : PktHdr) (seq : Nat) : List (Nat × CrReq) :=
  s.reqs.filterMap (fun e => match e.2 with
    | some r =>
      if r.kind == 3 && r.dst == h.src.toNat && r.bolt == h.bolt.toNat && r.tc == h.tc.toNat && decide (0 < r.seq ∧ r.seq ≤ seq)
      then some (e.1, r) else none
    | none => none)

/-- BULK_ACK (R232): covers every fragment up to RVAL; with another status the one whose SEQ it gives has failed. -/
def execBulkAck (p : Port) (h : PktHdr) (tag : GcmTag) (s : State) : Host.Outcome State Fault Refusal :=
  .next (s.takeRsp p.val h [] tag 0x23 (fun s _ =>
    let st := h.opx.toNat % 16
    let seq := h.addr.toNat
    (s.bulkCovered h seq).foldl (fun s x =>
      if st ≠ 0 ∧ x.2.seq = seq then s.reqFail x.1 x.2 st else (s.finishReq x.1 x.2).ownerGo x.2.owner) s))

/-- ATOM_RSP (R233): the old value is in RVAL. No unit of this module asks for one: only firmware may. -/
def execAtomRsp (p : Port) (h : PktHdr) (tag : GcmTag) (s : State) : Host.Outcome State Fault Refusal :=
  .next (s.takeRsp p.val h [] tag 0x24 (fun s _ => s.endReq h [4] (fun s _ => s)))

/-- FENCE_ACK (R235). -/
def execFenceAck (p : Port) (h : PktHdr) (tag : GcmTag) (s : State) : Host.Outcome State Fault Refusal :=
  .next (s.takeRsp p.val h [] tag 0x25 (fun s _ => s.endReq h [6] (fun s _ => s)))

/-- SEM_ACK (R234). -/
def execSemAck (p : Port) (h : PktHdr) (tag : GcmTag) (s : State) : Host.Outcome State Fault Refusal :=
  .next (s.takeRsp p.val h [] tag 0x26 (fun s _ => s.endReq h [5] (fun s _ => s)))

/-- A module has acknowledged the invalidation of a slot whose SEQ ends in `seq`. -/
def State.shootAcked (s : State) (n seq m : Nat) : State :=
  match mget none s.inv n with
  | none => s
  | some v =>
    match v.unacked.find? (fun x => x.2 == m) with
    | some x => if v.seq % 1024 = seq then { s with inv := mset none s.inv n (some { v with unacked := v.unacked.erase x }) } else s
    | none => s

/-- SHOOT_ACK (R236): the module has made the removal of the slot and SEQ in TAG. With another status it has not, and the invalidation
runs into its time limit (05 R162). -/
def execShootAck (p : Port) (h : PktHdr) (tag : GcmTag) (s : State) : Host.Outcome State Fault Refusal :=
  .next (s.takeRsp p.val h [] tag 0x30 (fun s _ =>
    let key := shootKey h.src.toNat h.tag.toNat
    match s.answered h key [0x10] with
    | none => s
    | some r =>
      let s := s.finishReq key r
      if h.opx.toNat = 0 then s.shootAcked (h.tag.toNat % 64) (h.tag.toNat / 64) h.src.toNat else s))

/-- SESS_RSP (R227, R244): the answer to the CLOSE of an open session comes in that session, and frees its index and destroys its keys;
one to a message of set-up is clear. -/
def execSessRsp (p : Port) (h : PktHdr) (tag : GcmTag) (s : State) : Host.Outcome State Fault Refusal :=
  .next (
    if !s.arrives p.val h 0x31 then s
    else
      let s := s.freeCells p.val h false
      match s.answered h h.tag.toNat [0x11] with
      | none => (s.rxCheck p.val h none [] tag).1
      | some r =>
        if r.owner = .sess true then
          (match s.sessAt r.ski with
           | none => s.finishReq h.tag.toNat r
           | some x =>
             if r.ski ≠ h.ski.toNat ∨ x.phase ≠ .closed ∨ !x.fits h then (s.rxCheck p.val h none [] tag).1
             else
               let c := s.rxSess p.val h none [] tag x
               match c.2 with
               | none => c.1
               | some _ => if rspFields h then (c.1.finishReq h.tag.toNat r).dropSess r.ski else c.1)
        else if h.sealed ∨ h.seq ≠ 0 ∨ !rspFields h then s
        else s.finishReq h.tag.toNat r)

/-! ### Transit and timers (R231, R246 to R248) -/

/-- The bolt that CR_NO_ROUTE names: the packet's, when this module holds it bound to one of the packet's ends. -/
def State.transitBolt (s : State) (h : PktHdr) : Option Nat :=
  if s.loom.live.bindings.any (fun k => k.bolt == h.bolt.toNat && (k.peer == h.src.toNat || k.peer == h.dst.toNat))
  then some h.bolt.toNat else none

/-- TRANSIT_PACKET (R246, R247): forwarded, as it came, across the mesh and by the first candidate that is UP, VS set at a dateline; it
waits while the mesh has no tickets for it. RED is never forwarded (R237). -/
def execTransitPacket (p : Port) (x : WholePkt) (s : State) : Host.Outcome State Fault Refusal :=
  .next (
    if !s.carries p.val x.h x.h.kind.toNat || s.isLocal x.h then s
    else match pktClass x.h.kind.toNat with
      | none => s
      | some cl =>
        let atom := x.h.kind.toNat == 4
        let free := s.freeCells p.val x.h atom
        if cl = 4 then free
        else match free.egressPort none x.h.dst.toNat with
          | none => free.raise (unitPort p.val) 0x0C9 2 (s.transitBolt x.h) x.h.dst.toNat x.h.src.toNat x.h.bolt.toNat
          | some (q, dl) =>
            match free.crossMesh p.val q x.h atom with
            | none => s
            | some t =>
              let g : PktHdr := { x.h with vs := x.h.vs || dl, sp := false }
              t.sendPkt q ⟨g, x.data, if atom then some (leBytes 32 x.ext.toNat) else none, leBytes 16 x.tag.toNat,
                pktVl x.h.kind.toNat (x.h.vs || dl), none, none⟩)

/-- An outstanding request of a TAG whose completion timer has expired. -/
def State.expired (s : State) (tag : Nat) : Option (Nat × CrReq) :=
  s.reqs.findSome? (fun e => match e.2 with
    | some r => if e.1 % 2 ^ 16 = tag ∧ r.due ≤ s.now then some (e.1, r) else none
    | none => none)

/-- CR_CPL_TIMEOUT (R231). -/
def execCrCplTimeout (tag : BitVec 16) (s : State) : Host.Outcome State Fault Refusal :=
  .next (match s.expired tag.toNat with
    | none => s
    | some (k, r) =>
      if !s.live then s
      else
        let u := unitPort r.port
        let s := s.report u 0x0C7 3 (some r.bolt) (r.dst + 2 ^ 12 * r.kind) tag.toNat r.bolt
        (s.reqFail k r stLinkDown).boltFail r.bolt u 3 0x0C7)

/-- Has a packet of a lane, or of one of the reduction groups for VL 8, waited 10 ms for a ticket (R248)? -/
def State.stalled (s : State) (p vl : Nat) : Bool :=
  (s.port p).blocked.any (fun e => (if vl = 8 then decide (16 ≤ e.1) else e.1 == vl) && (match e.2 with
    | some t => decide (t + 10000000 ≤ s.now)
    | none => false))

/-- CR_STALL (R248): the guarantee of the bolts with traffic on the lane lapses; they are not reset. -/
def execCrStall (p : Port) (vl : Fin 9) (waiting : Nat) (s : State) : Host.Outcome State Fault Refusal :=
  .next (
    let c := s.port p.val
    let l := c.egress.filter (fun e => e.vl == vl.val)
    if !s.live || c.mode != .up || l.length != waiting || !s.stalled p.val vl.val then s
    else
      (l.map (fun e => e.h.bolt.toNat)).eraseDups.foldl (fun s b =>
        ((s.report (unitPort p.val) 0x0C8 3 (some b) vl.val waiting 0).boltEvent b).voidSteps b 5 (unitPort p.val)) s)

end Sys2Proof.Machine
end

