-- ==== Sys2Proof/Machine/Power.lean ====
section
/-! DEFINITION. The power, droop and heat commands (11_budgets.md R355 to R371). -/

namespace Sys2Proof.Machine

/-- BUDGET_INTERVAL (R362 to R365): at a multiple of 10 µs the arbiter recomputes the budget from the draw measured. -/
def execBudgetInterval (demand : List Demand) (s : State) : Host.Outcome State Fault Refusal :=
  .next (
    if !s.live ∨ s.now % 10000 ≠ 0 then s
    else
      let d := s.draw
      let s := d.1.applyShares
      let u := s.unreserved
      let was := s.power.cut
      let s := { s with power := { s.power with
          cut := []
          fixed := s.fixedDraw
          unres := if s.power.scaled then 0 else u / 10
          input := Config.freeNat d.2 % 4243 } }
      let floor := (s.sceneBolts.map (fun b => s.leastOf demand b 1 + s.leastOf demand b 2)).sum
      let spill := if s.now < s.power.excessUntil then s.power.excess * 10 else 0
      let s := (s.takeTurns was demand s.order (u - spill - floor)).1
      { s with power := { s.power with limited := !s.power.cut.isEmpty } })

/-- OP_STEP_DONE (R356): a panel reaches the next operating point, one step at a time. -/
def execOpStepDone (p : Panel) (s : State) : Host.Outcome State Fault Refusal :=
  .next (
    let x := s.panel p.val
    if !s.live ∨ x.op = x.target then s
    else s.setPanel p.val { x with op := if x.op < x.target then x.op + 1 else x.op - 1 })

/-- INTERMISSION_FRAME (R366): at a multiple of 64 µs the duty changes, or intermission ends; slot 0 begins. -/
def execIntermissionFrame (p : Panel) (s : State) : Host.Outcome State Fault Refusal :=
  .next (
    if !s.live ∨ s.now % 64000 ≠ 0 then s
    else
      let s := s.beginDuty p.val (s.panel p.val).nextDuty
      s.gatePanel p.val (s.slotShut p.val))

/-- INTERMISSION_SLOT (R366): at a multiple of 1 µs the next slot of a panel opens, or is gated. -/
def execIntermissionSlot (p : Panel) (s : State) : Host.Outcome State Fault Refusal :=
  .next (if !s.live ∨ s.now % 1000 ≠ 0 then s else s.gatePanel p.val (s.slotShut p.val))

/-- PACE_WINDOW (R355; 06 R206): the pace measured over a 10 µs window; more than 1 % below a bolt's floor voids its steps. -/
def execPaceWindow (p : Panel) (pace : Nat) (s : State) : Host.Outcome State Fault Refusal :=
  .next (
    if !s.live then s
    else
      let s := s.setPanel p.val { s.panel p.val with pace := min pace 65535 }
      let short := (s.panelBolts p.val).filter (fun b => match s.grantedFloor b with
        | some j => decide (pace * 100 < opPace j * 99)
        | none => false)
      short.foldl (fun s b => s.voidSteps b 4 unitPwr) s)

/-- PWR_OVERCAP (R365): the 1 ms average of the input power exceeds the cap by more than 1 %. -/
def execPwrOvercap (avg : Nat) (s : State) : Host.Outcome State Fault Refusal :=
  .next (
    let cap := s.cap * 10
    if !s.live ∨ avg * 100 ≤ cap * 101 ∨ 4242 < avg then s
    else
      let s := s.orReg 0x30008 0x10
      let s := { s with power := { s.power with input := avg, excess := avg - cap, excessUntil := s.now + 1000000 } }
      s.raise unitPwr 0x145 1 none avg cap 0)

/-! ### The cap and the order (R358) -/

/-- The status of a requested cap, in watts. -/
def capStatus (watts : Nat) : Nat :=
  if watts % 10 ≠ 0 then 1 else if watts < 1200 then 2 else if 4200 < watts then 3 else 0

/-- A cap or an order is refused: CAP_REFUSED and PWR_CAP_REFUSED. -/
def State.refuseCap (s : State) (asked st : Nat) : State :=
  (s.orReg 0x30008 8).report unitPwr 0x142 0 none asked st 0

/-- PWR_CAP (R358): the house manager sets the cap; it applies from the next interval boundary. -/
def execPwrCap (ses : SessId) (watts : Nat) (s : State) : Host.Outcome State Fault Refusal :=
  .next (s.message ses ⟨0x30, 1, false, false⟩ (fun s =>
    let st := capStatus watts
    if st = 0 then ((s.setReg 0x30000 (watts / 10)).report unitPwr 0x141 0 none (watts / 10) s.cap 0, some (boothOk, [0]))
    else (s.refuseCap watts st, some (boothOk, [st]))))

/-- PWR_ORDER (R358): the house manager sets the priority order; any permutation of the consumers is accepted. -/
def execPwrOrder (ses : SessId) (first second third : BitVec 2) (s : State) : Host.Outcome State Fault Refusal :=
  .next (s.message ses ⟨0x31, 1, false, false⟩ (fun s =>
    let l := [first.toNat, second.toNat, third.toNat]
    let w := first.toNat + 4 * second.toNat + 16 * third.toNat
    if [0, 1, 2].all (fun k => l.contains k) then (s.setReg 0x30004 w, some (boothOk, [0]))
    else (s.refuseCap w 1, some (boothOk, [1]))))

/-! ### Droop and hold (R368, R369) -/

/-- The bolt of a tile follows a change of its hold (05 R133). -/
def State.holdChanged (s : State) (t : Nat) : State :=
  match s.tileBolt t with
  | some b => s.redTimers b
  | none => s

/-- HOLD_ASSERT (R368): a droop detector holds its tile; the panel counts it. -/
def execHoldAssert (t : Site) (s : State) : Host.Outcome State Fault Refusal :=
  .next (
    if !s.live ∨ !s.siteLive t.val ∨ (s.tile t.val).hold then s
    else ((s.updTile t.val (fun x => { x with hold := true, holdSince := s.now })).bump (0x30050 + 0x20 * (t.val / 64)) 1).holdChanged t.val)

/-- HOLD_RELEASE (R368): the rail has been above the threshold; the tile issues again, and its time in hold is counted. -/
def execHoldRelease (t : Site) (s : State) : Host.Outcome State Fault Refusal :=
  .next (
    if !s.live ∨ !(s.tile t.val).hold then s
    else
      let n := s.now - (s.tile t.val).holdSince
      ((s.updTile t.val (fun x => { x with hold := false })).bump (0x30058 + 0x20 * (t.val / 64)) n).holdChanged t.val)

/-- DROOP_LONG (R369): a hold has lasted longer than 10 µs. -/
def execDroopLong (t : Site) (s : State) : Host.Outcome State Fault Refusal :=
  .next (
    let n := s.now - (s.tile t.val).holdSince
    if !s.live ∨ !s.serving 6 ∨ !(s.tile t.val).hold ∨ n ≤ 10000 then s
    else s.report t.val 0x14A 0 none n (s.panel (t.val / 64)).op 0)

/-- A ceiling moves the panel at once where it is slower than the point the arbiter has chosen (R363, R370). -/
def State.ceilingFell (s : State) (p : Nat) : State :=
  if (s.panel p).target < (s.panel p).ceil then s.setTarget p (s.panel p).ceil else s

/-- DROOP_STORM (R369): a tile of the panel was held for more than 2 % of a 1 ms window: `frac`, in units of 0.01 %. The
ceiling falls by one step for 100 ms, but not below the panel's floor. -/
def execDroopStorm (p : Panel) (frac : Nat) (s : State) : Host.Outcome State Fault Refusal :=
  .next (
    if !s.live ∨ !s.serving 6 ∨ frac ≤ 200 ∨ 10000 < frac then s
    else
      let x := s.panel p.val
      if x.floor ≤ x.ceil then s.report unitPwr 0x14B 0 none p.val frac 0xF
      else
        let s := (s.setPanel p.val { x with droops := x.droops ++ [s.now + 100000000] }).ceilingFell p.val
        s.report unitPwr 0x14B 0 none p.val frac (x.ceil + 1))

/-- CEILING_RESTORE (R369): 100 ms after a droop step of the ceiling, the step lapses. -/
def execCeilingRestore (p : Panel) (s : State) : Host.Outcome State Fault Refusal :=
  .next (
    let x := s.panel p.val
    if !s.live ∨ !s.serving 6 then s
    else match x.droops with
      | t :: l => if t ≤ s.now then s.setPanel p.val { x with droops := l } else s
      | [] => s)

/-! ### Heat (R370, R371) -/

/-- THERM_WARN (R370): a sensor of a die (0–3 a panel, 4 the proscenium) reads 100 °C or more, reported once a crossing; a
reading below 100 °C ends the crossing. -/
def execThermWarn (die : Fin 5) (sensor : Fin 16) (temp : Nat) (s : State) : Host.Outcome State Fault Refusal :=
  .next (
    let k := die.val * 16 + sensor.val
    if !s.live ∨ (die.val = 4 ∧ 4 ≤ sensor.val) then s
    else if temp < 100 then { s with power := { s.power with warm := s.power.warm.erase k } }
    else if s.power.warm.contains k then s
    else
      let s := { s with power := { s.power with warm := k :: s.power.warm } }
      s.report unitPwr 0x146 0 none die.val sensor.val temp)

/-- A panel's reading as PWR_TEMP holds it. -/
def State.readTemp (s : State) (p temp : Nat) : State := s.setPanel p { s.panel p with tj := min temp 255 }

/-- THERM_THROTTLE (R370): firmware lowers the panel's ceiling by one step every 1 ms, from 105 °C until it reads below 103 °C;
at OP15 it starts intermission at d = 32. -/
def execThermThrottle (p : Panel) (temp : Nat) (s : State) : Host.Outcome State Fault Refusal :=
  .next (
    if !s.live then s
    else
      let s := s.readTemp p.val temp
      let x := s.panel p.val
      if temp < 103 then s.setPanel p.val { x with throttled := false }
      else if !s.serving 6 ∨ (temp < 105 ∧ !x.throttled) ∨ x.thermAt.any (fun t => decide (s.now < t + 1000000)) then s
      else
        let x := { x with throttled := true, thermAt := some s.now }
        let s := if x.ceil < 15 then (s.setPanel p.val { x with therm := x.therm + 1 }).ceilingFell p.val
          else
            let s := s.setPanel p.val { x with thermOff := true }
            s.setDuty p.val (s.panel p.val).nextDuty
        s.report unitPwr 0x147 0 none p.val (s.panel p.val).ceil temp)

/-- THERM_HW (R370): at 110 °C the arbiter itself puts the panel at OP15 with d = 16. -/
def execThermHw (p : Panel) (temp : Nat) (s : State) : Host.Outcome State Fault Refusal :=
  .next (
    if !s.live ∨ temp < 110 then s
    else
      let s := s.readTemp p.val temp
      if (s.panel p.val).hw then s
      else
        let s := s.setPanel p.val { s.panel p.val with hw := true }
        let s := ((s.setTarget p.val 15).setDuty p.val 16).beginDuty p.val 16
        (s.orReg 0x30008 0x20).raise unitPwr 0x148 1 none p.val temp 0)

/-- THERM_TRIP (R370, R371): a die at 115 °C, or a stack (0x10 + n) at 105 °C: THERMTRIP_n falls and stays low. -/
def execThermTrip (die sensor temp : Nat) (s : State) : Host.Outcome State Fault Refusal :=
  .next (
    let hot := if die ≤ 4 then 115 ≤ temp else 0x10 ≤ die ∧ die < 0x28 ∧ 105 ≤ temp
    if !s.pins.pwrGood ∨ !hot ∨ !s.pins.thermTripN then s
    else
      let s := { s with pins := { s.pins with thermTripN := false } }
      s.raise unitPwr 0x149 4 none die sensor temp)

/-- THERM_RECOVER (R370): the panel reads below 100 °C: firmware releases the 110 °C response, and every 10 ms ends its
intermission and raises the ceiling by one step. -/
def execThermRecover (p : Panel) (temp : Nat) (s : State) : Host.Outcome State Fault Refusal :=
  .next (
    if !s.live ∨ 100 ≤ temp then s
    else
      let s := s.readTemp p.val temp
      if !s.serving 6 then s
      else
        let x := { s.panel p.val with throttled := false, hw := false }
        let s := s.setPanel p.val x
        if (x.therm = 0 ∧ !x.thermOff) ∨ x.thermAt.any (fun t => decide (s.now < t + 10000000)) then s
        else s.setPanel p.val { x with thermOff := false, therm := x.therm - 1, thermAt := some s.now })

end Sys2Proof.Machine
end

