-- ==== Sys2Proof/Machine/Reads.lean ====
section
/-! DEFINITION. Reads of registers, and writes of the low half of a register pair (00 R5 to R8). The table of commands has one row
for a register read, PAIR_LO_READ: it reads every register that no command of its own reads (log entry 20). -/

namespace Sys2Proof.Machine

/-- The map offset of a pair's `_LO` register that an offset of a function names; a VF's STU mirror shows STU_TIME. -/
def State.pairAt (s : State) (fn : Fn) (off : Nat) : Option Nat :=
  match regPlace s fn off with
  | .map o => if isPairLo o then some o else none
  | .readOnly => if fn ≠ 0 ∧ off = 0x20000 then some 0x20000 else none
  | _ => none

/-- The map offset of a pair's `_HI` register that an offset of a function names. -/
def State.hiAt (s : State) (fn : Fn) (off : Nat) : Option Nat :=
  match regPlace s fn off with
  | .map o => if isPairHi o then some o else none
  | .readOnly => if fn ≠ 0 ∧ off = 0x20004 then some 0x20004 else none
  | _ => none

/-- A word of a mailbox as one side reads it (09 R313): its own buffer, the inbound one, MBX_CTL. -/
def Mailbox.word (m : Mailbox) (pfSide : Bool) (off : Nat) : Nat :=
  if off < 0x40 then (mget 0 (if pfSide then m.pfRx else m.vfTx) (off / 4)).toNat
  else if off < 0x80 then (mget 0 (if pfSide then m.pfTx else m.vfRx) ((off - 0x40) / 4)).toNat
  else if pfSide then 2 * b2n m.pfBusy + 4 * b2n m.pfFull + 16 * b2n m.pfOvr + 32 * b2n m.pfReady + 64 * b2n m.vfReady
  else 2 * b2n m.vfBusy + 4 * b2n m.vfFull + 16 * b2n m.vfOvr + 32 * b2n m.vfReady + 64 * b2n m.pfReady

/-- Word `k` of a function's MSI-X pending-bit array. -/
def FnSt.pba (f : FnSt) (k : Nat) : Nat := bitmap f.msixPend k

/-- A register of a function's configuration space. Identity: 0x00 device and vendor ID, 0x08 class code and revision, 0x2C
subsystem ID and subsystem vendor ID (09 R286), in the places of the PCI header. 0x10 to 0x1C: the BARs. The capabilities of 09
R287 stand from 0x100 on, in places of the model's own: DESIGN CHOICE, log entry 92. 0x100 power state; 0x104 MSI-X control (last
vector, function mask, enable); 0x108 device control (MPS, MRRS) with the largest MPS code it takes; 0x10C AER status; 0x110 SR-IOV
VF Enable; 0x114 TotalVFs and InitialVFs; 0x118 First VF Offset and VF Stride; 0x11C size of BAR2; 0x120, 0x124 serial number. -/
def State.cfgWord (s : State) (fn off : Nat) : Nat :=
  let f := s.fnSt fn
  match off with
  | 0x00 => 0x1F2C + 2 ^ 16 * (if fn = companion then 0x2162 else if fn = 0 then 0x2160 else 0x2161)
  | 0x08 => 0xA1 + 2 ^ 8 * 0x120000
  | 0x2C => s.fw.subsys.toNat
  | 0x10 => f.bar0 % 2 ^ 32
  | 0x14 => f.bar0 / 2 ^ 32 % 2 ^ 32
  | 0x18 => f.bar2 % 2 ^ 32
  | 0x1C => f.bar2 / 2 ^ 32 % 2 ^ 32
  | 0x100 => if f.d3hot then 3 else 0
  | 0x104 =>
      if fn = companion then 0 else (if fn = 0 then 2047 else 63) + 2 ^ 30 * b2n f.msixMask + 2 ^ 31 * b2n f.msixEn
  | 0x108 => 2 + 2 ^ 5 * f.mps + 2 ^ 12 * f.mrrs
  | 0x10C => 2 ^ 22 * b2n f.aer
  | 0x110 => if fn = 0 then b2n s.pci.vfEnable else 0
  | 0x114 => if fn = 0 then 63 + 2 ^ 16 * 63 else 0
  | 0x118 => if fn = 0 then 1 + 2 ^ 16 * 1 else 0
  | 0x11C => if fn = 0 then 2 ^ 8 * (s.pci.bar2Exp - 20) else 0
  | 0x120 => if fn = 0 then s.fw.serial.toNat % 2 ^ 32 else 0
  | 0x124 => if fn = 0 then s.fw.serial.toNat / 2 ^ 32 else 0
  | _ => 0

/-- What a 32-bit read of an implemented place returns, pairs apart; none where a command of its own reads the place: FREE_POP and
the debug block. WO registers read 0 (00 R5). -/
def State.readPlace (s : State) (fn : Fn) (off : Nat) (p : RegPlace) : Option Nat :=
  match p with
  | .map o => if 0x100000 ≤ o ∧ o < 0x200000 ∧ o % 0x4000 = 0x140 then none else some (s.readWord o)
  | .vfStatus vf => some (mget 0 s.vfErr vf).toNat
  | .msixWord k => some (s.reg k)
  | .mailbox vf pfSide o => some ((mget Mailbox.reset s.mbx vf).word pfSide o)
  | .readOnly =>
      if fn = 0 then some (if 0x7F00 ≤ off ∧ off < 0x8000 then (s.fnSt 0).pba ((off - 0x7F00) / 4) else 0)
      else if off < 0x4000 then some 0
      else if off < 0x30000 then some (s.readWord off)
      else some ((s.fnSt fn.val).pba ((off - 0x30800) / 4))
  | .own => if off = 0x300000 ∨ off = 0x300100 then none else some 0
  | .cfg o => some (s.cfgWord fn.val o)
  | .companion o => some (if o = 0 then s.readWord 0 else s.cfgWord companion (o - 0x1000))
  | .absent => some 0

/-- A read of a `_HI` register: the function's shadow when it holds this pair's high half, else the live high half (00 R7). -/
def State.readHi (s : State) (fn : Fn) (off o : Nat) : State :=
  let live := s.emit (.readData fn.val off (BitVec.ofNat 64 (s.readWord o)))
  match mget none s.latch fn.val with
  | some l =>
    if l.off + 4 = off then
      ({ s with latch := mset none s.latch fn.val none }).emit (.readData fn.val off (BitVec.ofNat 64 l.hi.toNat))
    else live
  | none => live

/-- A read of a register that is no half of a pair. An unimplemented offset reads 0 and sets UNIMPL (00 R6). -/
def State.readOne (s : State) (fn : Fn) (off : Nat) : State :=
  let s' := if regPlace s fn off = .absent then s.setErr fn 0 else s
  match s.readPlace fn off (regPlace s fn off) with
  | some v => s'.emit (.readData fn.val off (BitVec.ofNat 64 v))
  | none => s

/-- Does an aligned 64-bit read here find two words that are read together: a pair, or two words of an invalidation slot? -/
def State.wideAt (s : State) (fn : Fn) (off : Nat) : Option Nat :=
  match s.pairAt fn off with
  | some o => some o
  | none => match regPlace s fn off with
    | .map o => if invPair o then some o else none
    | _ => none

/-- PAIR_LO_READ (R5 to R7). The low half of a pair is returned, and its high half goes into the function's shadow, which the next
read of that `_HI` register returns; an aligned 64-bit read returns both halves of the same instant. Any other register answers
with its value. -/
def execPairLoRead (fn : Fn) (off : Nat) (wide : Bool) (s : State) : Host.Outcome State Fault Refusal :=
  .next (
    if !s.regsUp fn off then s
    else if wide then
      if off % 8 ≠ 0 then (s.setErr fn 1).emit (.readData fn.val off 0)
      else match s.wideAt fn off with
        | some o => s.emit (.readData fn.val off (BitVec.ofNat 64 (s.readWord o + 2 ^ 32 * s.readWord (o + 4))))
        | none => (if regPlace s fn off = .absent then s.setErr fn 0 else s.setErr fn 1).emit (.readData fn.val off 0)
    else match s.pairAt fn off with
      | some o =>
        ({ s with latch := mset none s.latch fn.val (some ⟨off, BitVec.ofNat 32 (s.readWord (o + 4))⟩) }).emit
          (.readData fn.val off (BitVec.ofNat 64 (s.readWord o)))
      | none =>
        if off % 4 ≠ 0 then (s.setErr fn 1).emit (.readData fn.val off 0)
        else match s.hiAt fn off with
          | some o => s.readHi fn off o
          | none => s.readOne fn off)

/-- PAIR_LO_WRITE (R7): the `_LO` half of a writable pair is held until the write of `_HI`. -/
def execPairLoWrite (fn : Fn) (off : Nat) (val : Word) (s : State) : Host.Outcome State Fault Refusal :=
  .next (
    if !s.regsUp fn off then s
    else match regPlace s fn off with
      | .map o => if isPairLo o then s.writeWord fn o val.toNat else s
      | _ => s)

end Sys2Proof.Machine
end

