-- ==== Sys2Proof/Machine/Debug.lean ====
section
/-! DEFINITION. Debug masters: grants, authentication, JTAG and debug requests (12_security.md R396 to R400;
15_module_electrical.md R492, R493). -/

namespace Sys2Proof.Machine

/-! ### Grants (12 R396, R397) -/

/-- A grant's slot. -/
def State.grantAt (s : State) (k : Nat) : Option GrantSt := mget none s.sec.grants k

/-- Replaces a grant's slot. -/
def State.setGrant (s : State) (k : Nat) (v : Option GrantSt) : State :=
  { s with sec := { s.sec with grants := mset none s.sec.grants k v } }

/-- DBG_GRANT, the incident: 0 accepted, 1 authenticated, 2 expired, 3 revoked, 4 failed three times (12 R409). -/
def State.grantReport (s : State) (k : Nat) (g : GrantSt) (event : Nat) : State :=
  s.report unitSec 0x164 0 none k (g.rights.toNat + 2 ^ 8 * g.path) event

/-- A grant ends. -/
def State.endGrant (s : State) (k event : Nat) : State :=
  match s.grantAt k with
  | some g => (s.setGrant k none).grantReport k g event
  | none => s

/-- The path code of a debug path. -/
def pathCode : Sys2Proof.DbgPath → Nat
  | .jtag => 0
  | .dbgBlock => 1

/-- The grants with an open session on a path. -/
def State.openGrants (s : State) (p : Nat) : List GrantSt :=
  s.sec.grants.filterMap (fun (e : Nat × Option GrantSt) => match e.2 with
    | some g => if g.authed && g.path == p then some g else none
    | none => none)

/-- Is a debug session open on a path? An engineering part with DBG_ALLOW acts as one on JTAG (12 R400). -/
def State.pathOpen (s : State) (p : Nat) : Bool := !(s.openGrants p).isEmpty || (p == 0 && s.engOn)

/-- Has a path a right; rights 2 to 4 for a bolt (12 R397). -/
def State.hasRight (s : State) (p k b : Nat) : Bool :=
  (p == 0 && s.engOn)
    || (s.openGrants p).any (fun g => bit g.rights.toNat k && (k < 2 || 4 < k || bit g.bolts.toNat b))

/-! ### The TAP (15 R492) -/

/-- The instruction that a loaded code selects: BYPASS but for those that act (12 R399; 15 R492). -/
def State.tapCode (s : State) (code : Nat) : Nat :=
  if [0x01, 0x02, 0x20, 0x21].contains code then code
  else if code = 0x22 ∧ s.pathOpen 0 then code
  else if code = 0 ∧ s.hasRight 0 6 0 ∧ (List.range 64).all (fun b => (s.ctx b).mode == .empty) then code
  else 0xFF

/-- Can a path be reached: JTAG with main power; the DBG block as PF registers are? -/
def State.pathUp (s : State) (p : Nat) : Bool :=
  if p = 0 then s.pins.pwrGood else s.live && decide (2 ≤ s.fw.stage)

/-! ### Requests (15 R493) -/

/-- The fields of a debug request. -/
structure DbgReq where
  addr : Nat
  data : Nat
  op : Nat
  uva : Bool
  bolt : Nat
  rsv : Nat
  deriving DecidableEq, Repr

/-- The request in the 128 bits of the DBG_ACCESS register. -/
def DbgReq.ofNat (w : Nat) : DbgReq :=
  ⟨bits w 63 0, bits w 95 64, bits w 98 96, bit w 99, bits w 105 100, bits w 119 106⟩

/-- Statuses on capture. -/
def dbgOk : Nat := 0
def dbgDenied : Nat := 1
def dbgPending : Nat := 2
def dbgError : Nat := 3

/-- A right that the path has not: DENIED, and DBG_DENIED (12 R397, R409). -/
def State.dbgDeny (s : State) (p addr right : Nat) : State × Nat × Nat :=
  (s.report unitSec 0x165 0 none p (addr % 2 ^ 32) right, dbgDenied, 0)

/-- A debug DMA request at a fabric address for a bolt (12 R397): read or write of 4 bytes, with the status and the data
read. -/
def State.dbgDma (s : State) (p : Nat) (r : DbgReq) (fa : Nat) (ecc : Ecc) : State × Nat × Nat :=
  let sp := faSpace fa
  let off := faOff fa
  let mode := s.modeAt sp off
  let right := if mode = 0 then 2 else 3
  let wr : Bool := r.op == 4
  if faMod fa ≠ s.modNum ∨ 3 ≤ sp ∨ fa % 4 ≠ 0 then (s, dbgError, 0)
  else if !s.hasRight p right r.bolt then s.dbgDeny p fa right
  else match s.accessStatus r.bolt s.modNum s.liveBit sp off 4 (!wr) wr false with
    | none => (s, dbgPending, 0)
    | some st =>
      if st = stDenied ∨ st = stRevoked then (s, dbgDenied, 0)
      else if st ≠ 0 then (s, dbgError, 0)
      else if ecc = .uncorrectable then
        ((if sp = 0 then s.ueMark off else s).raiseUe r.bolt (mkFa s.modNum sp off) 0xFFF 0, dbgError, 0)
      else
        let s := if ecc = .corrected ∧ sp = 0 then s.chanCorrect off else s
        if wr then (s.poke sp off (leBytes 4 r.data), dbgOk, r.data) else (s.readMeta sp off 4, dbgOk, leNat (s.peek sp off 4))

/-- Performs a debug request (12 R397; 15 R493). The map of space 3 is not given: a read of it returns a free value, and a
write changes nothing that the manual names. -/
def State.dbgPerform (s : State) (p : Nat) (r : DbgReq) (ecc : Ecc) : State × Nat × Nat :=
  if r.rsv ≠ 0 ∨ 5 ≤ r.op then (s, dbgError, 0)
  else if r.op = 0 then (s, dbgOk, 0)
  else if r.op ≤ 2 then
    let right := r.op - 1
    if r.addr % 4 ≠ 0 then (s, dbgError, 0)
    else if !s.hasRight p right 0 then s.dbgDeny p r.addr right
    else if r.op = 1 then
      let d := s.draw
      (d.1, dbgOk, (Config.freeWord d.2).toNat)
    else (s, dbgOk, r.data)
  else if r.uva then
    if !s.loaded r.bolt ∨ r.addr % 4 ≠ 0 then (s, dbgError, 0)
    else if !s.hasRight p 2 r.bolt ∧ !s.hasRight p 3 r.bolt then s.dbgDeny p r.addr 2
    else
      let x := s.fwXlt r.bolt r.addr (r.op == 4)
      match x.2 with
      | .leaf l =>
        let d := x.1.dbgDma p r (l.fa r.addr) ecc
        if d.2.1 = dbgPending then d else (d.1.fwDone r.bolt, d.2)
      | .wait => (s.fwAwait x.1, dbgPending, 0)
      | .ue fa lv => ((x.1.fwDone r.bolt).walkUe r.bolt fa r.addr lv, dbgError, 0)
      | _ => (x.1.fwDone r.bolt, dbgError, 0)
  else s.dbgDma p r r.addr ecc

/-- The register as the next capture shows it: the request with the data read and the status. -/
def dbgShown (w st data : Nat) : Nat := bits w 63 0 + 2 ^ 64 * data + 2 ^ 96 * bits w 119 96 + 2 ^ 120 * st

/-- Runs a request and shows its outcome; one that waits stays PENDING. -/
def State.dbgRun (s : State) (p w : Nat) (ecc : Ecc) : State :=
  let r := s.dbgPerform p (DbgReq.ofNat w) ecc
  let v := dbgShown w r.2.1 r.2.2
  ({ r.1 with pins := { r.1.pins with dbgReg := BitVec.ofNat 128 v, dbgPending := decide (r.2.1 = dbgPending) } }).emit (.debug v)

end Sys2Proof.Machine
end

