-- ==== Sys2Proof/Machine/Security.lean ====
section
/-! DEFINITION. The commands of SEC, the playbill, grants and debug (12_security.md R378 to R408; 15_module_electrical.md
R492, R493). -/

namespace Sys2Proof.Machine

/-! ### Keys and regions (R378, R380, R392) -/

/-- REGION_INIT_DONE (R380): the side areas of a sealed region are written; it is READY. -/
def execRegionInitDone (r : RegionIx) (s : State) : Host.Outcome State Fault Refusal :=
  .next (
    let q := s.regRun r.val
    if !s.live ∨ q.st ≠ .init then s else s.setRegRun r.val { q with st := .ready })

/-- Every group of a region moves to the new key, in ascending order, and its metadata with it (R387, R392). -/
def State.moveAll (s : State) (i : Nat) : State :=
  match s.loom.live.regions[i]? with
  | none => s
  | some r => ((s.regRun i).groups.map (fun e => e.1)).foldl (fun s g =>
      (s.setRegRun i ((s.regRun i).moveGroup g)).sealGroup i r (faSpace r.base) (4096 * g)) s

/-- REKEY_DONE (R392): every group has moved; the old key is destroyed and SEC_REKEY marks completion. -/
def execRekeyDone (r : RegionIx) (s : State) : Host.Outcome State Fault Refusal :=
  .next (
    let q := s.regRun r.val
    if !s.live ∨ q.st ≠ .rekey then s
    else
      let b := (s.loom.live.regions[r.val]?).map (fun x => x.bolt)
      let s := s.moveAll r.val
      let s := s.setRegRun r.val { s.regRun r.val with st := .ready, oldKey := none }
      s.report unitSec 0x162 0 b r.val 0 (q.oldCount % 2 ^ 32))

/-- SEC_RNG_FAIL (R378): the third health failure in a row; SEC can make no key it could vouch for, and the device halts. -/
def execSecRngFail (test : Nat) (s : State) : Host.Outcome State Fault Refusal :=
  .next (
    if !s.live then s
    else ({ s with sec := { s.sec with rngOk := false, rngFails := 3 } }).raise unitSec 0x161 4 none test 3 0)

/-! ### The playbill (R406, R407) -/

/-- SEC_PB_CTL_GO (R406): a write of SEC_PB_CTL with GO in the SEC block, or in a bolt's window by its kernel driver. -/
def execSecPbCtlGo (fn : Fn) (bltWin : Option Bolt) (val : Word) (s : State) : Host.Outcome State Fault Refusal :=
  .next (
    let v := val.toNat
    let kind := bit v 1
    if !s.live ∨ !bit v 0 then s
    else match bltWin with
      | none =>
        if fn ≠ 0 then s.setErr fn 0
        else (s.setReg 0x60138 (v % 2 ^ 10 / 2 * 2)).pbGo 0 0x60110 (if kind then some (bits v 9 4) else none)
      | some b =>
        if fn ≠ 0 ∧ s.fnBolt fn.val ≠ some b.val then s.setErr fn 0
        else (s.setReg (blt b.val 0xE38) (2 * b2n kind)).pbGo (1 + b.val) (blt b.val 0xE10) (if kind then some b.val else none))

/-- The bolt in whose name an interface writes to the host: 64 for the PF itself. -/
def pbBolt (who : Nat) : Nat := if who = 0 then 64 else who - 1

/-- PLAYBILL_SIGNED (R406, R407; 13 R432): the signature at the head of the queue is made, and the result goes to its
requester. Signing waits for the house processor; a halted device signs a HELLO only. `writeOk`: the write to DEST got no error. -/
def execPlaybillSigned (writeOk : Bool) (s : State) : Host.Outcome State Fault Refusal :=
  .next (
    if !s.boothUp then s
    else match s.sec.pb with
      | [] => s
      | p :: l =>
        let s := { s with sec := { s.sec with pb := l } }
        let out := signed p.body
        if s.inc.halted ∧ !p.hello then s
        else if p.hello then
          let s := (match s.boothSess (p.who - 65) with
            | some x => s.setBoothSess (p.who - 65) (some { x with hello := true })
            | none => s)
          s.lateReply (p.who - 65) 1 64 boothOk
            ((leBytes 2 1 ++ leBytes 2 s.modNum ++ leBytes 8 s.fw.serial.toNat ++ p.body.take 32 ++ out.drop p.body.length).map
              (fun x => x.toNat))
        else if 65 ≤ p.who then s.lateReply (p.who - 65) 0x60 (p.bolt.getD 64) boothOk (0 :: out.map (fun x => x.toNat))
        else if writeOk then
          (s.hostWrite (pbBolt p.who) p.dest.toNat out).setReg (pbStat p.who) (pbDone 0)
        else s.setReg (pbStat p.who) (pbDone 5))

/-- PLAYBILL (R406, R407): the house manager asks for a playbill over the booth. -/
def execPlaybill (ses : SessId) (kind : Bool) (b : Bolt) (nonce : BitVec 256) (s : State) : Host.Outcome State Fault Refusal :=
  .next (s.message ses ⟨0x60, 0, false, true⟩ (fun s =>
    let bolt := if kind then some b.val else none
    match s.pbStatus bolt 0 with
    | some st => (s, some (boothOk, [st]))
    | none => ((s.pbQueue (65 + ses.val) bolt 0 nonce.toNat).deferReply ses.val 0x60 (bolt.getD 64), none)))

/-! ### Grants (R396) -/

/-- Is a grant record refused as it stands: reserved encodings, a malformed expiry, or one more than 24 h away? -/
def State.grantBad (s : State) (g : Sys2Proof.GrantRec) : Bool :=
  2 ≤ g.path.toNat || !g.rsvZero || !timeOk g.expiry || s.now + 86400 * giga < unpackTime g.expiry

/-- DBG_GRANT (R396): the lowest free of four slots takes the grant; 0xFF when all are held. -/
def execDbgGrant (ses : SessId) (g : GrantRec) (s : State) : Host.Outcome State Fault Refusal :=
  .next (s.message ses ⟨0x50, 2, false, false⟩ (fun s =>
    if s.grantBad g then (s, some (boothFormat, []))
    else match [0, 1, 2, 3].find? (fun k => (s.grantAt k).isNone) with
      | none => (s, some (boothOk, [0xFF]))
      | some k =>
        let v : GrantSt := ⟨g.rights, g.path.toNat, g.bolts, unpackTime g.expiry, g.key, false, 0⟩
        ((s.setGrant k (some v)).grantReport k v 0, some (boothOk, [k]))))

/-- DBG_REVOKE (R396): the grant ends. -/
def execDbgRevoke (ses : SessId) (grant : Nat) (s : State) : Host.Outcome State Fault Refusal :=
  .next (s.message ses ⟨0x51, 2, false, false⟩ (fun s =>
    match s.grantAt grant with
    | none => (s, some (boothState, []))
    | some _ => (s.endGrant grant 3, some (boothOk, []))))

/-- GRANT_EXPIRY (R396): a grant reaches its expiry time and ends. -/
def execGrantExpiry (grant : Fin 4) (s : State) : Host.Outcome State Fault Refusal :=
  .next (match s.grantAt grant.val with
    | none => s
    | some g => if !s.live ∨ s.now < g.expiry then s else s.endGrant grant.val 2)

/-! ### Authentication (R398) and debug requests -/

/-- DBG_CHAL (R398): each read draws a fresh challenge of 32 bytes. -/
def execDbgChal (path : DbgPath) (s : State) : Host.Outcome State Fault Refusal :=
  .next (
    let p := pathCode path
    if !s.pathUp p ∨ s.inc.halted ∨ (p = 0 ∧ s.pins.ir.toNat ≠ 0x20) then s
    else
      let d := s.draw
      let s := { d.1 with sec := { d.1.sec with chal := mset none d.1.sec.chal p (some d.2) } }
      s.emit (.debug (Config.random d.2).toNat))

/-- DBG_RESP (R398): a signature over the path's challenge opens the session of a grant of that path; the third failed
attempt revokes the grant. -/
def execDbgResp (path : DbgPath) (grant : Nat) (sigOk : Bool) (s : State) : Host.Outcome State Fault Refusal :=
  .next (
    let p := pathCode path
    if !s.pathUp p ∨ s.inc.halted ∨ (p = 0 ∧ s.pins.ir.toNat ≠ 0x21) then s
    else match s.grantAt grant with
      | none => s
      | some g =>
        if g.path ≠ p then s
        else if sigOk ∧ (mget none s.sec.chal p).isSome then
          (s.setGrant grant (some { g with authed := true })).grantReport grant g 1
        else if 2 ≤ g.failed then s.endGrant grant 4
        else s.setGrant grant (some { g with failed := g.failed + 1 }))

/-- DBG_ACCESS (15 R493): Update-DR starts a request of the debug principal; while one is PENDING another is dropped. Without
a session JTAG bypasses, and the DBG block reads 0 and drops writes with UNIMPL (R398, R399). -/
def execDbgAccess (path : DbgPath) (req : BitVec 128) (ecc : Ecc) (s : State) : Host.Outcome State Fault Refusal :=
  .next (
    let p := pathCode path
    if !s.pathUp p ∨ s.inc.halted ∨ (p = 0 ∧ s.pins.ir.toNat ≠ 0x22) then s
    else if !s.pathOpen p then (if p = 1 then s.setErr 0 0 else s)
    else
      let s := if s.pins.dbgPending then s.dbgRun p s.pins.dbgReg.toNat ecc else s
      if s.pins.dbgPending then s else s.dbgRun p req.toNat ecc)

/-- JTAG_TRST (R398; 15 R492): the TAP selects IDCODE, and the debug sessions of JTAG end. -/
def execJtagTrst (s : State) : Host.Outcome State Fault Refusal :=
  .next (
    if !s.pins.pwrGood then s
    else
      let s := s.endDebug 0
      { s with pins := { s.pins with ir := 2, dbgReg := 0, dbgPending := false } })

/-- TAP_INSTRUCTION_LOAD (R399; 15 R492): a code that does not act selects BYPASS. -/
def execTapInstructionLoad (code : Byte) (s : State) : Host.Outcome State Fault Refusal :=
  .next (
    if !s.pins.pwrGood then s
    else { s with pins := { s.pins with ir := BitVec.ofNat 8 (s.tapCode code.toNat) } })

end Sys2Proof.Machine
end

