-- ==== Sys2Proof/Machine/ServeOps.lean ====
section
/-! DEFINITION. The cast-list engine: cast entries and images, KV maps, page pools, the build of a running order, the update
after a step, and the mover (10_serving.md R322 to R343). -/

namespace Sys2Proof.Machine

/-! ### Registers of a bolt (R325) -/

/-- A serving register of a bolt. -/
def State.srv (s : State) (b off : Nat) : Nat := s.reg (blt b off)

/-- Layer groups of a row, and bytes of a page (SRV_CFG). -/
def State.srvGroups (s : State) (b : Nat) : Nat := bits (s.srv b 0xB00) 15 8 + 1
def State.srvPage (s : State) (b : Nat) : Nat := (bits (s.srv b 0xB00) 25 16 + 1) * 4096

/-- Is serving enabled? -/
def State.srvOn (s : State) (b : Nat) : Bool := bit (s.srv b 0xB00) 0

/-- Items per running order (SRV_ITEMS_MAX). -/
def State.srvItems (s : State) (b : Nat) : Nat := bits (s.srv b 0xB04) 16 0

/-- The unit that reports for the engine: stagehand 3 (13 R418, R345). -/
def unitServe : Nat := unitSh 3

/-! ### Cast entries (R322 to R324) -/

/-- An entry of the module, by its index on it. -/
def State.cast (s : State) (k : Nat) : CastSt := mget CastSt.reset s.casts k

/-- Replaces an entry. -/
def State.setCast (s : State) (k : Nat) (v : CastSt) : State := { s with casts := mset CastSt.reset s.casts k v }

/-- Code of a state (R324). -/
def CastMode.code : CastMode → Nat
  | .free => 0
  | .queued => 1
  | .prefill => 2
  | .decode => 3
  | .parked => 4
  | .done => 5
  | .faulted => 6

/-- The image of an entry (R323), 64 bytes. -/
def CastSt.image (e : CastSt) : List Byte :=
  leBytes 4 e.seqid.toNat
  ++ leBytes 4 (e.mode.code + 2 ^ 4 * e.cls + 2 ^ 7 * b2n e.promo + 2 ^ 8 * e.misses + 2 ^ 16 * e.spill + 2 ^ 30 * b2n e.inro)
  ++ leBytes 4 e.pos ++ leBytes 4 e.promptLen ++ leBytes 4 e.maxPos ++ leBytes 4 e.period
  ++ leBytes 8 e.deadline.toNat ++ leBytes 8 e.kvmap.toNat ++ leBytes 8 e.io.toNat
  ++ leBytes 4 e.temp.toNat ++ leBytes 4 e.topP.toNat ++ leBytes 4 e.topK.toNat ++ leBytes 4 e.rseed.toNat

/-- The fields that ADMIT takes from an image. -/
def castOf (l : List Byte) : CastSt :=
  { CastSt.reset with
    seqid := BitVec.ofNat 32 (numAt l 0 4), cls := bits (numAt l 4 4) 6 4, pos := numAt l 8 4, promptLen := numAt l 12 4,
    maxPos := numAt l 16 4, period := numAt l 20 4, deadline := BitVec.ofNat 64 (numAt l 24 8),
    kvmap := BitVec.ofNat 64 (numAt l 32 8), io := BitVec.ofNat 64 (numAt l 40 8), temp := BitVec.ofNat 32 (numAt l 48 4),
    topP := BitVec.ofNat 32 (numAt l 52 4), topK := BitVec.ofNat 16 (numAt l 56 2), rseed := BitVec.ofNat 32 (numAt l 60 4) }

/-- Does an image of ADMIT break a range of R323: a non-zero STATE, PROMO, MISSES, SPILL, INRO or RSV, a length or position
out of its range, an illegal time, a KV map off its alignment? -/
def castBad (l : List Byte) : Bool :=
  let e := castOf l
  numAt l 4 4 / 2 ^ 7 != 0 || numAt l 4 4 % 16 != 0 || numAt l 58 2 != 0
  || e.promptLen == 0 || decide (2097151 < e.promptLen) || decide (e.maxPos ≤ e.promptLen) || decide (2097152 < e.maxPos)
  || decide (e.promptLen < e.pos) || !timeOk e.deadline || e.kvmap.toNat % 64 != 0 || !canonicalUva e.kvmap.toNat

/-- The state that POS gives (R330). -/
def CastSt.byPos (e : CastSt) : CastSt :=
  { e with mode := if e.pos = 0 then .queued else if e.pos < e.promptLen then .prefill else .decode }

/-- Entries of a class of a bolt that are not FREE. -/
def State.classCount (s : State) (b c : Nat) : Nat :=
  let r := s.castRange b
  (s.casts.filter (fun e => decide (r.1 ≤ e.1 ∧ e.1 < r.2) && e.2.mode != .free && e.2.cls == c)).length

/-- Is a class of a bolt at its cap (SRV_CLASS_CAP)? -/
def State.atCap (s : State) (b c : Nat) : Bool :=
  let w := s.srv b (0xB30 + 4 * (c / 2))
  let cap := if c % 2 = 0 then bits w 15 0 else bits w 31 16
  cap != 0xFFFF && decide (cap ≤ s.classCount b c)

/-! ### KV maps (R326) -/

/-- Rows that cover a number of positions. -/
def rowsOf (pos : Nat) : Nat := (pos + 255) / 256

/-- UVA of row `j` of a map. -/
def rowUva (kv groups j : Nat) : Nat := kv + 0x40 + 8 * groups * j

/-- Does a map header break R326? -/
def mapHeadBad (l : List Byte) (groups maxPos : Nat) : Bool :=
  let w := numAt l 0 4
  bits w 13 0 == 0 || decide (8192 < bits w 13 0) || decide (bits w 13 0 < rowsOf maxPos) || bits w 15 14 != 0
  || bits w 23 16 + 1 != groups || bits w 31 24 != 0 || (l.drop 4).any (fun x => x != 0)

/-- Map entries of a row. -/
def rowEntries (l : List Byte) (groups : Nat) : List Nat := (List.range groups).map (fun g => numAt l (8 * g) 8)

/-- Is a map entry or pool value malformed? -/
def entryBad (e : Nat) : Bool := bits e 11 3 != 0 || (bit e 0 && !canonicalUva (e / 4096 * 4096))

/-- The pool that a map entry's page returns to. -/
def entryPool (e : Nat) : Nat := bits e 2 1

/-- Reads bytes of a bolt's memory by UVA. -/
def State.srvRead (s : State) (b va n : Nat) : State × Got (List Byte) := s.fwGather .op b (pagesIn n) va n

/-- Writes bytes of a bolt's memory by UVA. -/
def State.srvWrite (s : State) (b va : Nat) (l : List Byte) : State × Got Unit := s.fwScatter .op b (pagesIn l.length) va l

/-- How a part of the engine's work ends: done; waiting for a release or a key; the entry's map at fault, by UVA and reason;
or the bolt at fault, by source and UVA (R340, R345) or by an uncorrectable error in its memory or its page table (05 R170). -/
inductive SrvEnd
  | ok | wait
  | entry (va reason : Nat)
  | fatal (source va : Nat)
  | ue (fa : Nat)
  | walkUe (va fa level : Nat)
  deriving DecidableEq, Repr

/-- The end that a read or write of a map comes to, and of a buffer, ring or page. -/
def Got.mapEnd {α : Type} : Got α → SrvEnd
  | .ok _ => .ok
  | .wait => .wait
  | .fault va => .entry va 1
  | .ue _ fa => .ue fa
  | .walkUe va fa level => .walkUe va fa level
def Got.srcEnd {α : Type} (source : Nat) : Got α → SrvEnd
  | .ok _ => .ok
  | .wait => .wait
  | .fault va => .fatal source va
  | .ue _ fa => .ue fa
  | .walkUe va fa level => .walkUe va fa level

/-- The map header of an entry: checked before its map is read. -/
def State.checkHead (s : State) (b : Nat) (e : CastSt) : State × SrvEnd :=
  let r := s.srvRead b e.kvmap.toNat 64
  match r.2 with
  | .ok l => (r.1, if mapHeadBad l (s.srvGroups b) e.maxPos then .entry e.kvmap.toNat 0 else .ok)
  | g => (r.1, g.mapEnd)

/-- The entries of row `j` of an entry's map. -/
def State.readRow (s : State) (b : Nat) (e : CastSt) (j : Nat) : State × SrvEnd × List Nat :=
  let n := s.srvGroups b
  let va := rowUva e.kvmap.toNat n j
  let r := s.srvRead b va (8 * n)
  match r.2 with
  | .ok l =>
    let es := rowEntries l n
    (r.1, if es.any entryBad then .entry va 2 else .ok, es)
  | g => (r.1, g.mapEnd, [])

/-! ### Pools (R327, R328) -/

/-- A pool of a bolt. -/
def State.pool (s : State) (b p : Nat) : Pool := mget Pool.reset (s.serveOf b).pools p

/-- Replaces a pool. -/
def State.setPool (s : State) (b p : Nat) (v : Pool) : State :=
  let x := s.serveOf b
  s.setServe b { x with pools := mset Pool.reset x.pools p v }

/-- Places of a ring: none before its first enable. -/
def Pool.size (p : Pool) : Nat := if p.order < 4 then 0 else 2 ^ p.order

/-- Is a pool enabled? -/
def State.poolOn (s : State) (b p : Nat) : Bool := bit (s.srv b (0xB40 + 0x20 * p)) 0

/-- Pages that a pool can give. -/
def State.poolFree (s : State) (b p : Nat) : Nat := if s.poolOn b p then (s.pool b p).count else 0

/-- Takes the page at the head of a pool. -/
def State.popPage (s : State) (b p : Nat) : State × SrvEnd × Nat :=
  let x := s.pool b p
  let r := s.srvRead b (x.base + 8 * x.head) 8
  match r.2 with
  | .ok l => (r.1.setPool b p { x with head := (x.head + 1) % max 1 x.size, count := x.count - 1 }, .ok, leNat l)
  | g => (r.1, g.srcEnd 1, 0)

/-- Puts a value at the tail of a pool; one that would overfill the ring is dropped and reported. -/
def State.pushPage (s : State) (b p v : Nat) : State × SrvEnd :=
  let x := s.pool b p
  if x.size ≤ x.count then (s.report unitServe 0x123 0 (some b) p 0 (v % 2 ^ 32), .ok)
  else
    let r := s.srvWrite b (x.base + 8 * ((x.head + x.count) % x.size)) (leBytes 8 v)
    match r.2 with
    | .ok _ => (r.1.setPool b p { x with count := x.count + 1 }, .ok)
    | g => (r.1, g.srcEnd 1)

/-- The lowest-numbered enabled pool from `from_` on that holds a row's pages, `used p` of them being spoken for. -/
def State.rowPool (s : State) (b from_ : Nat) (used : Nat → Nat) : Option Nat :=
  ([0, 1, 2, 3].filter (fun p => decide (from_ ≤ p))).find? (fun p => decide (used p + s.srvGroups b ≤ s.poolFree b p))

/-- A map entry for a page of a pool. -/
def mapEntry (v p : Nat) : Nat := v / 4096 * 4096 + 2 * p + 1

/-- Gives a row its pages from pool `p`: each entry with V = 0 takes one (R328). -/
def State.fillRow (s : State) (b kv j p : Nat) : Nat → List Nat → State × SrvEnd
  | _, [] => (s, .ok)
  | g, e :: es =>
    if bit e 0 then s.fillRow b kv j p (g + 1) es
    else
      let x := s.popPage b p
      match x.2.1 with
      | .ok =>
        let w := x.1.srvWrite b (rowUva kv (s.srvGroups b) j + 8 * g) (leBytes 8 (mapEntry x.2.2 p))
        (match w.2 with
         | .ok _ => w.1.fillRow b kv j p (g + 1) es
         | r => (w.1, r.mapEnd))
      | r => (x.1, r)

/-! ### The build (R334 to R337) -/

/-- An item taken: entry's index in the bolt's range, tokens, rows allocated. -/
structure Taken where
  entry : Nat
  ntok : Nat
  news : Nat
  deriving DecidableEq, Repr

/-- The build as it goes: what is left of the budget, the items, the rows allocated, near and far, prefill tokens, and the
candidates skipped for pages, for limits, urgent. -/
structure BuildSt where
  left : Nat
  taken : List Taken
  rows : Nat
  near : Nat
  far : Nat
  prefill : Nat
  skipPage : Nat
  skipLimit : Nat
  skipUrgent : Nat
  deriving DecidableEq, Repr

/-- Candidates in the order of CLASS, DEADLINE with 0 last, index. -/
def candBefore (x y : Nat × CastSt) : Bool :=
  let d := fun (e : CastSt) => if e.deadline = 0 then 2 ^ 64 else e.deadline.toNat
  if x.2.cls ≠ y.2.cls then decide (x.2.cls < y.2.cls)
  else if d x.2 ≠ d y.2 then decide (d x.2 < d y.2)
  else decide (x.1 ≤ y.1)

/-- Insertion by an order. -/
def insertBy {α : Type} (le : α → α → Bool) (x : α) : List α → List α
  | [] => [x]
  | y :: ys => if le x y then x :: y :: ys else y :: insertBy le x ys

/-- A list in an order. -/
def sortBy {α : Type} (le : α → α → Bool) (l : List α) : List α := l.foldr (insertBy le) []

/-- The candidates of a bolt's snapshot: index in its range, and entry. -/
def State.candidates (s : State) (b : Nat) : List (Nat × CastSt) :=
  let r := s.castRange b
  sortBy candBefore (s.casts.filterMap (fun e =>
    if r.1 ≤ e.1 ∧ e.1 < r.2 ∧ !e.2.promo ∧ (e.2.mode = .queued ∨ e.2.mode = .prefill ∨ e.2.mode = .decode)
    then some (e.1 - r.1, e.2) else none))

/-- Is a candidate urgent by a limit D + L + W? -/
def CastSt.urgent (e : CastSt) (limit : Nat) : Bool := e.deadline != 0 && decide (unpackTime e.deadline < limit)

/-- The rows of an entry that need pages for `n` tokens, with their entries. -/
def State.needRows (s : State) (b : Nat) (e : CastSt) : List Nat → State × SrvEnd × List (Nat × List Nat)
  | [] => (s, .ok, [])
  | j :: js =>
    let r := s.readRow b e j
    match r.2.1 with
    | .ok =>
      let t := r.1.needRows b e js
      if r.2.2.all (fun x => bit x 0) then t else (t.1, t.2.1, (j, r.2.2) :: t.2.2)
    | x => (r.1, x, [])

/-- The pools of `n` rows to come, in order; and whether every row finds one. -/
def State.planRows (s : State) (b : Nat) : Nat → List Nat → List Nat × Bool
  | 0, acc => (acc, true)
  | n + 1, acc =>
    match s.rowPool b 0 (fun p => (acc.filter (fun q => q == p)).length * s.srvGroups b) with
    | some p => s.planRows b n (acc ++ [p])
    | none => (acc, false)

/-- Allocates rows from their pools. -/
def State.allocRows (s : State) (b kv : Nat) : List (Nat × List Nat) → List Nat → State × SrvEnd
  | r :: rs, p :: ps =>
    let x := s.fillRow b kv r.1 p 0 r.2
    match x.2 with
    | .ok => x.1.allocRows b kv rs ps
    | e => (x.1, e)
  | _, _ => (s, .ok)

/-- One candidate of a pass (R334): `n` tokens. -/
def State.buildOne (s : State) (b n limit : Nat) (k : Nat) (e : CastSt) (a : BuildSt) : State × BuildSt × SrvEnd :=
  let r1 := rowsOf (e.pos + n)
  let news := (List.range (r1 - rowsOf e.pos)).map (fun x => rowsOf e.pos + x)
  let h := if news = [] then (s, SrvEnd.ok) else s.checkHead b e
  let m := match h.2 with
    | .ok => h.1.needRows b e news
    | x => (h.1, x, [])
  let idx := (s.castRange b).1 + k
  match m.2.1 with
  | .entry va reason =>
    ((m.1.setCast idx { e with mode := .faulted }).report unitServe 0x124 0 (some b) k (va % 2 ^ 32) reason, a, .ok)
  | .ok =>
    let s := m.1
    let want := m.2.2.length
    let plan := s.planRows b want []
    let far := e.spill + (plan.1.filter (fun p => p != 0)).length
    let near := r1 - far
    let u := b2n (e.urgent limit)
    if a.left < n ∨ bits (s.srv b 0xB10) 15 0 < a.rows + want ∨ s.srv b 0xB14 < a.near + near ∨ s.srv b 0xB18 < a.far + far then
      (s, { a with skipLimit := a.skipLimit + 1, skipUrgent := a.skipUrgent + u }, .ok)
    else if !plan.2 then (s, { a with skipPage := a.skipPage + 1, skipUrgent := a.skipUrgent + u }, .ok)
    else
      let x := s.allocRows b e.kvmap.toNat m.2.2 plan.1
      (match x.2 with
       | .ok =>
         (x.1.setCast idx { e with inro := true, spill := far },
          { a with
            left := a.left - n, taken := a.taken ++ [⟨k, n, want⟩], rows := a.rows + want, near := a.near + near, far := a.far + far,
            prefill := if e.mode = .decode then a.prefill else a.prefill + n }, .ok)
       | .entry va reason =>
         ((x.1.setCast idx { e with mode := .faulted }).report unitServe 0x124 0 (some b) k (va % 2 ^ 32) reason, a, .ok)
       | r => (x.1, a, r))
  | r => (m.1, a, r)

/-- Which candidates a pass considers: 1 urgent, 2 prefill up to the reserve, 3 decode, 4 prefill. -/
def inPass (pass limit : Nat) (e : CastSt) : Bool :=
  match pass with
  | 1 => e.urgent limit
  | 3 => e.mode == .decode
  | _ => e.mode != .decode

/-- One pass over the candidates. -/
def State.buildPass (s : State) (b pass limit : Nat) : List (Nat × CastSt) → BuildSt → State × BuildSt × SrvEnd
  | [], a => (s, a, .ok)
  | c :: cs, a =>
    let res := bits (s.srv b 0xB1C) 23 0
    let faulted := (s.cast ((s.castRange b).1 + c.1)).mode == .faulted
    if a.left = 0 ∨ s.srvItems b ≤ a.taken.length then (s, a, .ok)
    else if !inPass pass limit c.2 || faulted || a.taken.any (fun t => t.entry == c.1) then s.buildPass b pass limit cs a
    else if pass = 2 ∧ res ≤ a.prefill then (s, a, .ok)
    else
      let n := if c.2.mode = .decode then 1 else min (min (bits (s.srv b 0xB0C) 21 0) (c.2.promptLen - c.2.pos)) a.left
      let n := if pass = 2 then min n (res - a.prefill) else n
      let r := s.buildOne b n limit c.1 c.2 a
      match r.2.2 with
      | .ok => r.1.buildPass b pass limit cs r.2.1
      | e => (r.1, r.2.1, e)

/-- The four passes. -/
def State.buildPasses (s : State) (b limit : Nat) (l : List (Nat × CastSt)) : List Nat → BuildSt → State × BuildSt × SrvEnd
  | [], a => (s, a, .ok)
  | p :: ps, a =>
    let r := s.buildPass b p limit l a
    match r.2.2 with
    | .ok => r.1.buildPasses b limit l ps r.2.1
    | e => (r.1, r.2.1, e)

/-- The bucket of a length in rows (R335). -/
def bucketOf (rows : Nat) : Nat := ((List.range 14).find? (fun k => decide (rows ≤ 2 ^ k))).getD 13

/-- The key of an item's group: phase, bucket, class (R335). -/
def groupKey (e : CastSt) (n : Nat) : Nat :=
  ((if e.mode = .decode then 0 else 1) * 16 + bucketOf (rowsOf (e.pos + n))) * 8 + e.cls

/-- A group-table entry (R336). -/
def groupEntry (key first count : Nat) : Nat :=
  key / 128 + 2 ^ 1 * (key / 8 % 16) + 2 ^ 5 * (key % 8) + 2 ^ 8 * first + 2 ^ 25 * count

/-- Groups of a list of keys in order: key, first index, count. -/
def groupRuns : List Nat → Nat → List (Nat × Nat × Nat)
  | [], _ => []
  | k :: ks, i =>
    match groupRuns ks (i + 1) with
    | (k', _, n) :: r => if k = k' then (k, i, n + 1) :: r else (k, i, 1) :: (k', i + 1, n) :: r
    | [] => [(k, i, 1)]

/-- An item's bytes (R336). -/
def itemBytes (t : Taken) (e : CastSt) : List Byte :=
  let key := groupKey e t.ntok
  leBytes 4 (t.entry + 2 ^ 16 * (key / 128) + 2 ^ 17 * (key / 8 % 16) + 2 ^ 21 * (key % 8))
  ++ leBytes 4 e.seqid.toNat ++ leBytes 4 e.pos ++ leBytes 4 t.ntok ++ leBytes 8 e.kvmap.toNat ++ leBytes 8 e.io.toNat
  ++ leBytes 4 t.news ++ leBytes 4 0 ++ leBytes 4 e.promptLen ++ leBytes 4 0 ++ (e.image.drop 48)

/-- UVA of the running-order buffer of build `k` (R337). -/
def State.roBuffer (s : State) (b k : Nat) : Nat :=
  s.reg64 (blt b 0xB20) + (if k % 2 = 1 then 0x800 + 64 * s.srvItems b else 0)

/-- The items in their order, each with its entry as the snapshot had it (R335). -/
def orderItems (l : List (Nat × CastSt)) (t : List Taken) : List (Taken × CastSt) :=
  let withE := t.filterMap (fun x => (l.find? (fun c => c.1 == x.entry)).map (fun c => (x, c.2)))
  let key := fun (x : Taken × CastSt) => groupKey x.2 x.1.ntok * 2 ^ 16 + x.1.entry
  sortBy (fun x y => decide (key x ≤ key y)) withE

/-- SRV_FAULT: the bolt is reset (R345). -/
def State.srvFault (s : State) (b source va : Nat) : State :=
  s.raise unitServe 0x125 2 (some b) source (va % 2 ^ 32) (va / 2 ^ 32)

/-- What an end other than success makes of the engine's work: `s` is the state before it, `r` the state it has reached. Work that
waits changes nothing but that it asks for what it needs outside the module. -/
def State.srvEnd (s r : State) (b : Nat) (e : SrvEnd) : State :=
  match e with
  | .wait => s.fwAwait r
  | .fatal source va => (r.fwDone b).srvFault b source va
  | .ue fa => (r.fwDone b).raiseUe b fa 0xFFF 0
  | .walkUe va fa level => (r.fwDone b).walkUe b fa va level
  | .ok | .entry _ _ => r.fwDone b

/-- Pool 0 has fallen below its watermark (R342). -/
def State.poolLow (s : State) (b : Nat) : State :=
  if s.poolOn b 0 && decide ((s.pool b 0).count < bits (s.srv b 0xB48) 26 0) then s.orReg (blt b 0xB2C) 8 else s

/-- Writes the running order: header, group table, items (R336). -/
def State.writeOrder (s : State) (b k : Nat) (r : StepRec) (items : List (Taken × CastSt)) (a : BuildSt) : State × Got Unit :=
  let at_ := s.roBuffer b k
  let gs := groupRuns (items.map (fun x => groupKey x.2 x.1.ntok)) 0
  let toks := a.taken.foldl (fun n t => n + t.ntok) 0
  let head := leBytes 4 k ++ leBytes 4 items.length ++ leBytes 4 (toks + 2 ^ 24 * gs.length) ++ leBytes 4 a.rows
    ++ leBytes 8 (packTime (r.start.getD 0)).toNat ++ leBytes 8 (packTime r.deadline).toNat ++ List.replicate 32 0
  let table := gs.flatMap (fun g => leBytes 8 (groupEntry g.1 g.2.1 g.2.2)) ++ List.replicate (8 * (224 - gs.length)) 0
  let w := s.srvWrite b at_ (head ++ table)
  match w.2 with
  | .ok _ => w.1.srvWrite b (at_ + 0x800) (items.flatMap (fun x => itemBytes x.1 x.2))
  | g => (w.1, g)

/-- A build for a started serving step (R334 to R337). -/
def State.build (s : State) (b : Nat) (r : StepRec) : State :=
  let k := s.srv b 0xB28
  if !s.srvOn b then
    ((s.orReg (blt b 0xB2C) 0x10).report unitServe 0x120 0 (some b) k 0 0).setServe b { s.serveOf b with items := some [] }
  else
    let w := bits (s.srv b 0xB08) 23 0
    let tok := callBits r.call 0x24 31 0
    let budget := if tok = 0 then w else min tok w
    let limit := r.deadline + r.lead + r.wcs
    let l := s.candidates b
    let x := s.buildPasses b limit l [1, 2, 3, 4] ⟨budget, [], 0, 0, 0, 0, 0, 0, 0⟩
    match x.2.2 with
    | .ok =>
      let a := x.2.1
      let items := orderItems l a.taken
      let o := x.1.writeOrder b k r items a
      (match o.2.srcEnd 0 with
       | .ok =>
         let at_ := s.roBuffer b k + 0x800
         let s := ((o.1.fwDone b).setReg (blt b 0xB28) ((k + 1) % 2 ^ 32)).poolLow b
         let s := (s.bump (blt b 0xBC8) a.skipPage).bump (blt b 0xBD0) a.skipLimit
         let s := if a.skipPage + a.skipLimit = 0 then s
           else s.report unitServe 0x121 0 (some b) a.skipPage a.skipLimit a.skipUrgent
         let s := if a.skipPage = 0 then s else s.report unitServe 0x122 0 (some b) 0xF (s.srvGroups b) 0
         s.setServe b { s.serveOf b with items := some (items.zipIdx.map (fun y =>
           ⟨y.1.1.entry, y.1.1.ntok, y.1.2.mode == .decode, at_ + 64 * y.2⟩)) }
       | e => s.srvEnd o.1 b e)
    | e => s.srvEnd x.1 b e

/-! ### After the step (R340) -/

/-- The update of one item's entry at stage time `c`. -/
def CastSt.update (e : CastSt) (i : RoItem) (stop : Bool) (c : Nat) : CastSt × Bool :=
  let pos := e.pos + i.ntok
  let token := i.decode || pos == e.promptLen
  let miss := token && e.deadline != 0 && decide (unpackTime e.deadline < c)
  let e := { e with pos := pos, inro := false, misses := if miss then min 255 (e.misses + 1) else e.misses }
  let e := if token then { e with deadline := if e.period = 0 then 0 else packTime (c + e.period) } else e
  ({ e with mode :=
      if token && (stop || pos == e.maxPos) then .done else if e.promptLen ≤ pos then .decode else .prefill }, miss)

/-- The updates of a step's items. -/
def State.updateItems (s : State) (b c : Nat) : List RoItem → State × SrvEnd
  | [] => (s, .ok)
  | i :: is =>
    let r := s.srvRead b (i.at_ + 0x24) 4
    match r.2 with
    | .ok l =>
      let k := (s.castRange b).1 + i.entry
      let u := (r.1.cast k).update i (bit (leNat l) 0) c
      let s := r.1.setCast k u.1
      (if u.2 then s.bump (blt b 0xBC0) 1 else s).updateItems b c is
    | g => (r.1, g.srcEnd 0)

/-! ### The mover (R342, R343) -/

/-- Moves the pages of a row to pool `p`, each old page going back to its own pool; groups from `g` on. -/
def State.movePages (s : State) (b kv j p : Nat) : Nat → List Nat → State × SrvEnd
  | _, [] => (s, .ok)
  | g, e :: es =>
    if !bit e 0 || entryPool e == p then s.movePages b kv j p (g + 1) es
    else
      let x := s.popPage b p
      match x.2.1 with
      | .ok =>
        let n := s.srvPage b
        let d := x.1.fwGather .mover b (pagesIn n) (e / 4096 * 4096) n
        (match d.2 with
         | .ok l =>
           let w := d.1.fwScatter .mover b (pagesIn l.length) (x.2.2 / 4096 * 4096) l
           (match w.2 with
            | .ok _ =>
              let m := w.1.srvWrite b (rowUva kv (s.srvGroups b) j + 8 * g) (leBytes 8 (mapEntry x.2.2 p))
              (match m.2 with
               | .ok _ =>
                 let q := m.1.pushPage b (entryPool e) e
                 (match q.2 with
                  | .ok => (q.1.bump (blt b 0xBD8) 1).movePages b kv j p (g + 1) es
                  | r => (q.1, r))
               | r => (m.1, r.srcEnd 2))
            | r => (w.1, r.srcEnd 2))
         | r => (d.1, r.srcEnd 2))
      | r => (x.1, r)

/-- Is a row in pool 0: its valid pages return there? -/
def rowNear (es : List Nat) : Bool := es.any (fun e => bit e 0 && entryPool e == 0)

/-- Is a row outside pool 0? -/
def rowFar (es : List Nat) : Bool := es.any (fun e => bit e 0) && !rowNear es

/-- Spills rows of entry `idx`, in the order given, while `go` holds: the rows moved, how it ended, and whether a row found
no pool. -/
def State.spillRows (s : State) (b idx : Nat) (go : State → Bool) : List Nat → Nat → State × SrvEnd × Nat × Bool
  | [], n => (s, .ok, n, false)
  | j :: js, n =>
    if !go s then (s, .ok, n, false)
    else
      let e := s.cast idx
      let r := s.readRow b e j
      match r.2.1 with
      | .ok =>
        if !rowNear r.2.2 then r.1.spillRows b idx go js n
        else match r.1.rowPool b 1 (fun _ => 0) with
          | none => (r.1.report unitServe 0x122 0 (some b) 0xF (s.srvGroups b) 1, .ok, n, true)
          | some p =>
            let m := r.1.movePages b e.kvmap.toNat j p 0 r.2.2
            (match m.2 with
             | .ok => (m.1.setCast idx { e with spill := e.spill + 1 }).spillRows b idx go js (n + 1)
             | x => (m.1, x, n, false))
      | x => (r.1, x, n, false)

/-- Moves rows of entry `idx` back into pool 0, ascending, until it would hold fewer than LOW + LGROUPS pages. -/
def State.promoteRows (s : State) (b idx : Nat) : List Nat → State × SrvEnd
  | [] => (s, .ok)
  | j :: js =>
    let e := s.cast idx
    let r := s.readRow b e j
    match r.2.1 with
    | .ok =>
      if !rowFar r.2.2 then r.1.promoteRows b idx js
      else if s.poolFree b 0 < bits (s.srv b 0xB48) 26 0 + 2 * s.srvGroups b then (r.1, .ok)
      else
        let m := r.1.movePages b e.kvmap.toNat j 0 0 r.2.2
        (match m.2 with
         | .ok => (m.1.setCast idx { e with spill := e.spill - 1 }).promoteRows b idx js
         | x => (m.1, x))
    | x => (r.1, x)

/-- Rows that an entry can hold, ascending. -/
def CastSt.rows (e : CastSt) : List Nat := List.range (rowsOf e.maxPos)

/-- Entries that the mover takes when pool 0 is low: PARKED, DEADLINE descending with 0 first, then index descending. -/
def State.spillList (s : State) (b : Nat) : List Nat :=
  let r := s.castRange b
  let d := fun (e : CastSt) => if e.deadline = 0 then 2 ^ 64 else e.deadline.toNat
  let l := s.casts.filter (fun e => decide (r.1 ≤ e.1 ∧ e.1 < r.2) && e.2.mode == .parked && !e.2.promo)
  (sortBy (fun x y => if d x.2 ≠ d y.2 then decide (d y.2 < d x.2) else decide (y.1 ≤ x.1)) l).map (fun e => e.1)

/-- Spills entry after entry until pool 0 holds 2 × LOW pages or no pool takes a row (R342). -/
def State.spillAll (s : State) (b : Nat) : List Nat → State × SrvEnd
  | [] => (s, .ok)
  | k :: ks =>
    let go := fun (s : State) => decide ((s.pool b 0).count < 2 * bits (s.srv b 0xB48) 26 0)
    let r := s.spillRows b k go (s.cast k).rows.reverse 0
    match r.2.1, r.2.2.2 with
    | .ok, false => r.1.spillAll b ks
    | .entry va _, _ => (r.1, .fatal 2 va)
    | e, _ => (r.1, e)

/-- Returns the valid pages of a row to their pools and clears its entries. -/
def State.freeRow (s : State) (b kv j : Nat) : Nat → List Nat → State × SrvEnd
  | _, [] => (s, .ok)
  | g, e :: es =>
    if !bit e 0 then s.freeRow b kv j (g + 1) es
    else
      let q := s.pushPage b (entryPool e) e
      match q.2 with
      | .ok =>
        let w := q.1.srvWrite b (rowUva kv (s.srvGroups b) j + 8 * g) (leBytes 8 0)
        (match w.2 with
         | .ok _ => w.1.freeRow b kv j (g + 1) es
         | r => (w.1, r.mapEnd))
      | r => (q.1, r)

/-- Returns every valid page of an entry (R330 RELEASE). -/
def State.freeRows (s : State) (b : Nat) (e : CastSt) : List Nat → State × SrvEnd
  | [] => (s, .ok)
  | j :: js =>
    let r := s.readRow b e j
    match r.2.1 with
    | .ok =>
      let f := r.1.freeRow b e.kvmap.toNat j 0 r.2.2
      (match f.2 with
       | .ok => f.1.freeRows b e js
       | x => (f.1, x))
    | x => (r.1, x)

end Sys2Proof.Machine
end

