-- ==== Sys2Proof/Machine/Serve.lean ====
section
/-! DEFINITION. Commands of the cast-list engine: the eight actions of CAST, the build and the update of a serving step, pool
writes, and the mover (10_serving.md R327 to R343). -/

namespace Sys2Proof.Machine

/-! ### CAST (R330, R331) -/

/-- Completion of a CAST with a cast status. -/
def castDone (st : Nat) : Completion := { Completion.plain 0 with cstat := st }

/-- How an action ends: with a status and cast status; with a translation fault on its image; waiting; with the bolt at
fault. -/
inductive CastEnd
  | done (st : Nat)
  | xlt (va : Nat)
  | wait
  | fatal (source va : Nat)
  | ue (fa : Nat)
  | walkUe (va fa level : Nat)
  deriving DecidableEq, Repr

/-- A CAST of one action: `act` gets the bolt, the entry's index on the module, the entry and the image UVA. An action that is
refused changes nothing; one that waits has no effect yet. -/
def State.castCall (s : State) (q : Queue) (action : Nat) (act : State → Nat → Nat → CastSt → Nat → State × CastEnd) :
    State :=
  match s.take q 0xB 3 with
  | none => s
  | some (b, c) =>
    if callBits c.words 0x20 19 16 ≠ action then s
    else
      let r := s.castRange b
      let k := callBits c.words 0x20 15 0
      let t := s.turn b q.val
      if r.2 ≤ r.1 + k then t.complete q.val c (Completion.plain 3)
      else
        let e := s.cast (r.1 + k)
        if action ≠ 2 ∧ e.inro then s
        else if !s.srvOn b then t.complete q.val c (castDone 6)
        else
          let x := act t b (r.1 + k) e (callBits c.words 0x28 63 0)
          match x.2 with
          | .done 0 => ((x.1.fwDone b).poolLow b).complete q.val c (castDone 0)
          | .done st => (t.fwDone b).complete q.val c (castDone st)
          | .xlt va => (t.fwDone b).complete q.val c (xltCompletion va 0)
          | .wait => s.fwAwait x.1
          | .fatal source va => ((x.1.fwDone b).markStarted q.val c.index false none).srvFault b source va
          | .ue fa => ((t.fwDone b).markStarted q.val c.index false none).raiseUe b fa 0xFFF 0
          | .walkUe va fa level => ((t.fwDone b).markStarted q.val c.index false none).walkUe b fa va level

/-- How an image access ends when it does not succeed. -/
def Got.castEnd {α : Type} : Got α → CastEnd
  | .ok _ => .done 0
  | .wait => .wait
  | .fault va => .xlt va
  | .ue _ fa => .ue fa
  | .walkUe va fa level => .walkUe va fa level

/-- How an action ends when the engine's work does: a map it cannot read is CAST_MAP. -/
def SrvEnd.castEnd : SrvEnd → CastEnd
  | .ok => .done 0
  | .wait => .wait
  | .entry _ _ => .done 3
  | .fatal source va => .fatal source va
  | .ue fa => .ue fa
  | .walkUe va fa level => .walkUe va fa level

/-- Does every row of a list hold a page in every group? Their number outside pool 0. -/
def State.checkRows (s : State) (b : Nat) (e : CastSt) : List Nat → State × SrvEnd × Nat
  | [] => (s, .ok, 0)
  | j :: js =>
    let r := s.readRow b e j
    match r.2.1 with
    | .ok =>
      if r.2.2.all (fun x => bit x 0) then
        let t := r.1.checkRows b e js
        (t.1, t.2.1, t.2.2 + b2n (!rowNear r.2.2))
      else (r.1, .entry 0 2, 0)
    | x => (r.1, x, 0)

/-- CAST_ADMIT (R332). -/
def execCastAdmit (q : Queue) (s : State) : Host.Outcome State Fault Refusal :=
  .next (s.castCall q 0 (fun s b k old uva =>
    if old.mode ≠ .free then (s, .done 1)
    else
      let i := s.srvRead b uva 64
      match i.2 with
      | .ok l =>
        if castBad l then (i.1, .done 2)
        else
          let e := castOf l
          let h := i.1.checkHead b e
          (match h.2 with
           | .ok =>
             let c := h.1.checkRows b e (List.range (rowsOf e.pos))
             (match c.2.1 with
              | .ok =>
                if c.1.atCap b e.cls then (c.1, .done 4)
                else (c.1.setCast k { e.byPos with spill := c.2.2 }, .done 0)
              | x => (c.1, x.castEnd))
           | x => (h.1, x.castEnd))
      | g => (i.1, g.castEnd)))

/-- CAST_UPDATE (R330). An image with a non-zero RSV field is CAST_FIELD (00 R9). -/
def execCastUpdate (q : Queue) (s : State) : Host.Outcome State Fault Refusal :=
  .next (s.castCall q 1 (fun s b k e uva =>
    if e.mode = .free then (s, .done 1)
    else
      let i := s.srvRead b uva 64
      match i.2 with
      | .ok l =>
        let n := castOf l
        if numAt l 4 4 / 2 ^ 31 ≠ 0 ∨ numAt l 58 2 ≠ 0 then (i.1, .done 2)
        else if (n.maxPos ≤ e.pos ∧ e.mode ≠ .done) ∨ n.maxPos ≤ e.promptLen ∨ 2097152 < n.maxPos ∨ !timeOk n.deadline then (i.1, .done 2)
        else if n.cls ≠ e.cls ∧ i.1.atCap b n.cls then (i.1, .done 4)
        else
          (i.1.setCast k { e with
            cls := n.cls, period := n.period, deadline := n.deadline, maxPos := n.maxPos, temp := n.temp, topP := n.topP,
            topK := n.topK, rseed := n.rseed }, .done 0)
      | g => (i.1, g.castEnd)))

/-- CAST_READ (R330): the entry's 64 bytes go to the image. -/
def execCastRead (q : Queue) (s : State) : Host.Outcome State Fault Refusal :=
  .next (s.castCall q 2 (fun s b _ e uva =>
    let w := s.srvWrite b uva e.image
    (w.1, w.2.castEnd)))

/-- CAST_PARK (R330). -/
def execCastPark (q : Queue) (s : State) : Host.Outcome State Fault Refusal :=
  .next (s.castCall q 3 (fun s _ k e _ =>
    match e.mode with
    | .queued | .prefill | .decode => (s.setCast k { e with mode := .parked }, .done 0)
    | _ => (s, .done 1)))

/-- CAST_RESUME (R330). -/
def execCastResume (q : Queue) (s : State) : Host.Outcome State Fault Refusal :=
  .next (s.castCall q 4 (fun s _ k e _ => if e.mode = .parked then (s.setCast k e.byPos, .done 0) else (s, .done 1)))

/-- CAST_RESUME_PROMOTE (R343): the rows move back into pool 0, and the entry resumes. -/
def execCastResumePromote (q : Queue) (s : State) : Host.Outcome State Fault Refusal :=
  .next (s.castCall q 5 (fun s b k e _ =>
    if e.mode ≠ .parked then (s, .done 1)
    else
      let h := s.checkHead b e
      match h.2 with
      | .ok =>
        let m := h.1.promoteRows b k e.rows
        (match m.2 with
         | .ok => (m.1.setCast k ((m.1.cast k).byPos), .done 0)
         | .entry va _ => (m.1, .fatal 2 va)
         | x => (m.1, x.castEnd))
      | x => (h.1, x.castEnd)))

/-- CAST_EVICT (R342): every row in pool 0 moves out; CAST_NOPAGE when the first finds no page. -/
def execCastEvict (q : Queue) (s : State) : Host.Outcome State Fault Refusal :=
  .next (s.castCall q 6 (fun s b k e _ =>
    if e.mode ≠ .parked then (s, .done 1)
    else
      let h := s.checkHead b e
      match h.2 with
      | .ok =>
        let m := h.1.spillRows b k (fun _ => true) e.rows.reverse 0
        (match m.2.1 with
         | .ok => if m.2.2.2 ∧ m.2.2.1 = 0 then (m.1, .done 5) else (m.1, .done 0)
         | .entry va _ => if m.2.2.1 = 0 then (m.1, .done 3) else (m.1, .fatal 2 va)
         | x => (m.1, x.castEnd))
      | x => (h.1, x.castEnd)))

/-- CAST_RELEASE (R330): every valid page returns to its pool, and the entry is FREE. -/
def execCastRelease (q : Queue) (s : State) : Host.Outcome State Fault Refusal :=
  .next (s.castCall q 7 (fun s b k e _ =>
    if e.mode = .free then (s, .done 1)
    else
      let h := s.checkHead b e
      match h.2 with
      | .ok =>
        let f := h.1.freeRows b e e.rows
        (match f.2 with
         | .ok => (f.1.setCast k { e with mode := .free, spill := 0 }, .done 0)
         | x => (f.1, x.castEnd))
      | x => (h.1, x.castEnd)))

/-! ### Steps (R334, R340) -/

/-- The started step of a bolt that the engine serves: `ended` says whether it has passed its STEPEND. -/
def State.servedStep (s : State) (b : Nat) (ended : Bool) : Option StepRec :=
  match (s.ctx b).steps with
  | r :: _ => if r.serving && r.start.isSome && r.ended == ended then some r else none
  | [] => none

/-- RUNNING_ORDER_BUILD (R334 to R337): at most one build for a step. -/
def execRunningOrderBuild (b : Bolt) (s : State) : Host.Outcome State Fault Refusal :=
  .next (
    if !s.live || !s.serving 3 || (s.serveOf b.val).items.isSome then s
    else match s.servedStep b.val false with
      | some r => s.build b.val r
      | none => s)

/-- POST_STEP_UPDATE (R340). -/
def execPostStepUpdate (b : Bolt) (s : State) : Host.Outcome State Fault Refusal :=
  .next (
    if !s.live || !s.serving 3 then s
    else match s.servedStep b.val true, (s.serveOf b.val).items with
      | some r, some l =>
        let u := s.updateItems b.val r.endAt l
        (match u.2 with
         | .ok => (u.1.fwDone b.val).setServe b.val { u.1.serveOf b.val with items := none }
         | e => s.srvEnd u.1 b.val e)
      | _, _ => s)

/-! ### Pools and the mover (R327, R342) -/

/-- SRV_POOL_PUSH (R327): the write of a pair's _HI register appends its value. -/
def execSrvPoolPush (fn : Fn) (b : Bolt) (pool : Fin 4) (hi : Word) (s : State) : Host.Outcome State Fault Refusal :=
  .next (
    if !s.live || !s.ownsWindow fn b.val then s
    else
      let t := s.takeLo fn (blt b.val (0xB58 + 0x20 * pool.val))
      let v := t.2 + 2 ^ 32 * hi.toNat
      let u := t.1
      if !bit v 0 || !canonicalUva (v / 4096 * 4096) then
        u.report unitServe 0x123 0 (some b.val) pool.val 1 (v % 2 ^ 32)
      else
        let r := u.pushPage b.val pool.val v
        s.srvEnd r.1 b.val r.2)

/-- SRV_POOL_ENABLE (R327): a write of SRV_POOLn_CTL; EN from 0 to 1 samples BASE and ORDER and empties the ring. An ORDER
outside 4 to 26 is reserved and leaves the field. -/
def execSrvPoolEnable (fn : Fn) (b : Bolt) (pool : Fin 4) (val : Word) (s : State) : Host.Outcome State Fault Refusal :=
  .next (
    if !s.live || !s.ownsWindow fn b.val then s
    else
      let off := blt b.val (0xB40 + 0x20 * pool.val)
      let was := bit (s.reg off) 0
      let o := bits val.toNat 5 1
      let bad := decide (o < 4 ∨ 26 < o)
      let o := if bad then bits (s.reg off) 5 1 else o
      let s := s.setReg off (b2n (bit val.toNat 0) + 2 * o)
      let s := if bad then s.setErr fn 3 else s
      if bit val.toNat 0 && !was then
        s.setPool b.val pool.val ⟨s.reg64 (blt b.val (0xB50 + 0x20 * pool.val)), o, 0, 0⟩
      else s)

/-- SPILL (R342): pool 0 is below its watermark, and the mover makes room in it. -/
def execSpill (b : Bolt) (s : State) : Host.Outcome State Fault Refusal :=
  .next (
    let low := bits (s.srv b.val 0xB48) 26 0
    if !s.live || !s.serving 3 || !s.srvOn b.val || !s.poolOn b.val 0 || decide (low ≤ (s.pool b.val 0).count) then s
    else
      let r := (s.orReg (blt b.val 0xB2C) 8).spillAll b.val (s.spillList b.val)
      s.srvEnd r.1 b.val r.2)

end Sys2Proof.Machine
end

