-- ==== Sys2Proof/Machine/Stu.lean ====
section
/-! DEFINITION. The stage time unit's commands (06_stage_time_cues.md R177 to R187). -/

namespace Sys2Proof.Machine

/-- The offset of a time from the nearest whole second, in ns. -/
def secondOffset (t : Int) : Int :=
  let r := t % (giga : Int)
  if r ≤ (giga : Int) / 2 then r else r - (giga : Int)

/-- PPS_EDGE (R183): a rising edge on PPS_IN now, of a pulse `width` ns wide. -/
def execPpsEdge (width : Nat) (s : State) : Host.Outcome State Fault Refusal :=
  .next (
    if !s.live || s.stuSrc != 0 || decide (width < 100) then s
    else
      let t : Int := (s.now : Int) - toSigned 16 (s.reg 0x2002C)
      let off := secondOffset t
      if (s.stu.mode = .acquire ∧ !s.stu.stepMade) ∨ off.natAbs ≤ 1000 then
        s.measured off (s.reg 0x20018 * giga) 0 5 4
      else
        (s.orReg 0x20028 8).report unitStu 0x0A4 0 none (ofInt 64 off) 0 0)

/-- PPS_LOSS (R181): no accepted edge for two consecutive seconds. -/
def execPpsLoss (s : State) : Host.Outcome State Fault Refusal :=
  .next (
    if s.live && s.stuSrc == 0 && s.stu.mode == .locked && decide (s.stu.lastRef + 2 * giga ≤ s.now) then
      s.setStuMode .holdover
    else s)

/-- FABRIC_TIME_LOSS (R181): no completed exchange for 1 ms. -/
def execFabricTimeLoss (s : State) : Host.Outcome State Fault Refusal :=
  .next (
    if s.live && s.stuSrc == 1 && s.stu.mode == .locked && decide (s.stu.lastRef + 1000000 ≤ s.now) then
      s.setStuMode .holdover
    else s)

/-- STU_REACQ (R182): a write of GO by the PF; refused while a cue is armed or SRC = 2. -/
def execStuReacq (fn : Fn) (val : Word) (s : State) : Host.Outcome State Fault Refusal :=
  .next (
    if !s.live then s
    else if fn ≠ 0 then s.setErr fn 0
    else if !bit val.toNat 0 then s
    else if s.cueArmed || s.stuSrc == 2 then s.orReg 0x20028 4
    else s.reacquire)

/-- STU_CTL_WRITE (R179): before the first loom commit a PF write takes effect at once; afterwards it is ignored and sets
LOCKED_WR. SRC = 3 is a reserved encoding, which leaves SRC and lets the other fields take effect. -/
def execStuCtlWrite (fn : Fn) (val : Word) (s : State) : Host.Outcome State Fault Refusal :=
  .next (
    if !s.live then s
    else if fn ≠ 0 then s.setErr fn 0
    else if s.loom.committed then s.setErr fn 2
    else if bits val.toNat 1 0 = 3 then
      (s.loadStuCtl (val.toNat % 128 - 3 + s.stuSrc)).setErr fn 3
    else s.loadStuCtl val.toNat)

/-- STU_END (R177): stage time has reached its last value, and counting ends. -/
def execStuEnd (s : State) : Host.Outcome State Fault Refusal :=
  .next (
    if !s.stu.ended && s.now == 2 ^ 34 * giga - 1 then
      ({ s with stu := { s.stu with ended := true } }.orReg 0x20028 0x10).report unitStu 0x0A5 0 none 0 0 0
    else s)

/-- PPS_OUT_PULSE (R183): PPS_OUT rises at a whole second of stage time while PPS_OUT_EN is 1, and falls 100 ms later; the
tolerances are the table's. -/
def execPpsOutPulse (rise : Bool) (s : State) : Host.Outcome State Fault Refusal :=
  .next (
    let r := s.now % giga
    if rise then
      (if s.live && s.stuPpsOut && !s.stu.ppsOut && (decide (r ≤ 2) || decide (giga ≤ r + 2)) then
        { s with stu := { s.stu with ppsOut := true } } else s)
    else
      (if s.stu.ppsOut && decide (99999000 ≤ r ∧ r ≤ 100001000) then { s with stu := { s.stu with ppsOut := false } } else s))

end Sys2Proof.Machine
end

