-- ==== Sys2Proof/Machine/Tensor.lean ====
section
/-! DEFINITION. The commands of a tensor tile: start, translation, commit (03_engine_tile.md R91 to R98, R505;
05_memory_translation.md R152 to R157). A command names a stream and acts on the tensor tile at its head. -/

namespace Sys2Proof.Machine

/-- The bolt and head of a stream whose tensor tile stands in a phase that `p` accepts. -/
def State.tensorAt (s : State) (t k : Nat) (p : TensorPhase → Bool) : Option (Nat × QDesc) :=
  if !s.live then none
  else match s.tileBolt t, s.tensorHead t k with
    | some b, some q => if p q.phase && !s.stopping b then some (b, q) else none
    | _, _ => none

/-! ### Start (R505, R91, R93) -/

/-- Begins translation when the micro-TLB has room; the 65th page found faults (R93). -/
def State.tensorRoom (s : State) (t k b : Nat) (q : QDesc) : State :=
  match (s.pagesOf b q.desc).2 with
  | some (a, dst) => s.tensorFail t k q 0x014 a (b2n dst)
  | none =>
    if s.tlbRoom t k b q.desc then
      { s with walkWait := s.walkWait.erase (t, k) }.setTensor t k { q with phase := .translating none }
    else s.setTensor t k { q with phase := .started }

/-- Starts a tensor tile: the group check first (R505). -/
def State.tensorStart (s : State) (t k b : Nat) (q : QDesc) : State :=
  match s.groupCause b t q.desc with
  | some c => s.tensorFail t k q 0x016 q.desc.group.toNat c
  | none => s.tensorRoom t k b q

/-- A group whose record a scene change has altered waits until the old scene has drained (04 R130). -/
def State.groupWaits (s : State) (d : Desc) : Bool :=
  match s.loom.old with
  | none => false
  | some c =>
    match d.op.toNat with
    | 2 => c.red.find? (fun r => r.group == d.group.toNat) != s.redRec d.group.toNat
    | 3 => c.mcast.find? (fun r => r.group == d.group.toNat) != s.mcRec d.group.toNat
    | _ => false

/-- Takes the release credit that HOLD asks for (R91); none while the stream holds none. -/
def State.takeCredit (s : State) (t k : Nat) (d : Desc) : Option State :=
  if !d.hold then some s
  else
    let n := mget 0 (s.tile t).credits k
    if n = 0 then none else some (s.updTile t (fun x => { x with credits := mset 0 x.credits k (n - 1) }))

/-- TENSOR_TILE_START (R505): the head of a stream starts, after any wait for a release credit; none starts in a gated slot
(11 R367). -/
def execTensorTileStart (t : Site) (stream : Stream) (s : State) : Host.Outcome State Fault Refusal :=
  .next (match s.tensorAt t.val stream.val (fun p => p == .queued) with
    | none => s
    | some (b, q) =>
      if (s.tile t.val).gated || s.groupWaits q.desc then s
      else match s.takeCredit t.val stream.val q.desc with
        | none => s
        | some s' => s'.tensorStart t.val stream.val b q)

/-- MICRO_TLB_ROOM (R93): a started tensor tile begins translation once the micro-TLB has room for it. -/
def execMicroTlbRoom (t : Site) (stream : Stream) (s : State) : Host.Outcome State Fault Refusal :=
  .next (match s.tensorAt t.val stream.val (fun p => p == .started) with
    | none => s
    | some (b, q) => s.tensorRoom t.val stream.val b q)

/-! ### Translation (05 R152) -/

/-- Walkers of a panel at work (R153). -/
def State.walkersBusy (s : State) (u : Nat) : Nat :=
  (s.demandWalks u).length + (s.pfWalks.filter (fun p => p.site / 64 == u)).length

/-- Streams of a panel whose demand walk waits for a walker, oldest first. -/
def State.walkersWanted (s : State) (u : Nat) : List (Nat × Nat) :=
  s.walkWait.filter (fun x => x.1 / 64 == u && ((s.tensorHead x.1 x.2).map (fun q => q.phase == .translating none)).getD false)

/-- Does a walker take the demand walk of a stream now? One of the 32 must be free, and those that have waited longer come first
(R153; their order among themselves is DESIGN CHOICE, log 111). -/
def State.walkerFor (s : State) (t k : Nat) : Bool :=
  decide (s.walkersBusy (t / 64) < 32)
  && (match s.walkersWanted (t / 64) with
      | [] => true
      | x :: _ => x == (t, k))

/-- A walk takes its place at a level; a table on another module is read over Creust, and a failure of that faults the tensor tile.
-/
def State.walkAt (s : State) (t k b : Nat) (q : QDesc) (w : Walk) : State :=
  let a := s.walkAsk (t / 64) b w
  if a.2.2 = 0 then a.1.setTensor t k { q with phase := .translating (some a.2.1) }
  else a.1.tensorFail t k { q with phase := .translating none } (faultOf a.2.2) w.va (b2n w.dstSide)

/-- Starts a walk for a page of a tensor tile (05 R152, R157), or makes it wait for a walker (R153). -/
def State.tensorWalk (s : State) (t k b : Nat) (q : QDesc) (va : Nat) (dst : Bool) : State :=
  if !s.walkerFor t k then (if s.walkWait.contains (t, k) then s else { s with walkWait := s.walkWait ++ [(t, k)] })
  else
    let s := { s with walkWait := s.walkWait.erase (t, k) }.bump (blt b 0x830) 1
    match s.walkStart (t / 64) b va dst dst with
    | .inl w => s.walkAt t k b q w
    | .inr e => s.tensorHold t k b q va dst e.1 e.2

/-- Is a prefetch walk of the bolt for the page still running on a panel? (R157) The page's size is not known before the walk ends:
a page of 4 KiB is meant (log 111). -/
def State.pfRunning (s : State) (u b va : Nat) : Bool :=
  s.pfWalks.any (fun p => p.site / 64 == u && p.bolt == b && p.walk.va / 4096 == va / 4096)

/-- The next page: the micro-TLB (only a 65th page is left to find there), the panel's translation cache, else a walk. A
cached leaf that forbids the access causes one fresh walk (05 R152). Misses that a prefetched leaf serves are counted, and those
that find the prefetch walk still running (R157). -/
def State.tensorMiss (s : State) (t k b : Nat) (q : QDesc) (va : Nat) (dst : Bool) : State :=
  match (s.tile t).leaves.find? (fun l => l.covers b (s.ctx b).gen.toNat va && l.permits dst), s.tcFind (t / 64) b va with
  | some l, _ => s.tensorPin t k q l dst
  | none, some l =>
    if l.permits dst then
      (if l.prefetched then s.bump (blt b 0x820) 1 else s).tensorPin t k q { l with prefetched := false } dst
    else s.tensorWalk t k b q va dst
  | none, none =>
    (if s.pfRunning (t / 64) b va && !s.walkWait.contains (t, k) then s.bump (blt b 0x828) 1 else s).tensorWalk t k b q va dst

/-- MICRO_TLB_MISS (05 R152): the next page of a translating tensor tile: what the micro-TLB holds is pinned, and the first
page it does not hold is looked up. -/
def execMicroTlbMiss (t : Site) (stream : Stream) (s : State) : Host.Outcome State Fault Refusal :=
  .next (match s.tensorAt t.val stream.val (fun p => p == .translating none) with
    | none => s
    | some (b, q) =>
      let pins := q.desc.absorb (s.tile t.val).leaves b (s.ctx b).gen.toNat (64 - q.pins.length) q.pins
      let q := { q with pins := pins }
      let s := s.setTensor t.val stream.val q
      match q.desc.missing q.pins with
      | none => s
      | some (va, dst) => s.tensorMiss t.val stream.val b q va dst)

/-- The entry of a walk is read (05 R152): the walk goes on, fills the caches or faults. -/
def State.walkLevel (s : State) (t k b : Nat) (q : QDesc) (w : Walk) : State :=
  let r := s.readEntry w
  let s := r.1
  match s.walkEntry b w r.2.1 r.2.2 with
  | .next n => (s.wcFill (t / 64) b w n).walkAt t k b q (w.down n)
  | .leaf l => (s.tcFill (t / 64) l).tensorPin t k { q with phase := .translating none } l w.dstSide
  | .fault e lv => s.tensorHold t k b q w.va w.dstSide e lv
  | .space => s.tensorFail t k { q with phase := .translating none } 0x015 w.va (b2n w.dstSide)
  | .ue _ _ | .wait => s

/-- The entry of a prefetch walk is read: the walk goes on, leaves its leaf in the panel's translation cache, or ends with nothing
recorded (03 R95). One of an earlier context leaves nothing. -/
def State.prefetchLevel (s : State) (p : PfWalk) : State :=
  let u := p.site / 64
  let r := s.readEntry p.walk
  let s := { r.1 with pfWalks := r.1.pfWalks.erase p }
  if p.gen ≠ (s.ctx p.bolt).gen.toNat then s
  else match s.walkEntry p.bolt p.walk r.2.1 r.2.2 with
    | .next n =>
      let a := (s.wcFill u p.bolt p.walk n).walkAsk u p.bolt (p.walk.down n)
      if a.2.2 = 0 then { a.1 with pfWalks := a.1.pfWalks ++ [{ p with walk := a.2.1 }] } else a.1
    | .leaf l => s.tcFill u { l with prefetched := true }
    | _ => s

/-- The walk that a level read belongs to: bolt and walk. -/
def State.walkOf (s : State) (t k : Nat) (which : WalkSel) : Option (Nat × Walk) :=
  match which with
  | .demand =>
    (s.tensorAt t k (fun p => match p with
      | .translating (some _) => true
      | _ => false)).bind (fun x => match x.2.phase with
        | .translating (some w) => some (x.1, w)
        | _ => none)
  | .prefetch va =>
    if !s.live then none
    else (s.pfWalks.find? (fun p => p.site == t && p.stream == k && p.walk.va == va.toNat)).map (fun p => (p.bolt, p.walk))

/-- WALK_LEVEL_READ (05 R152, R170): an uncorrectable error in a table page raises WALK_UE against the context's bolt; a
channel out of service reads as one (05 R174). -/
def execWalkLevelRead (t : Site) (stream : Stream) (r : WalkRead) (s : State) : Host.Outcome State Fault Refusal :=
  .next (match s.walkOf t.val stream.val r.which with
    | none => s
    | some (b, w) =>
      let fa := w.entryFa
      let here := decide (faMod fa = s.modNum)
      if !here && w.line.isEmpty then s
      else if (here ∧ r.ecc = .uncorrectable) ∨ s.entryUe w then
        let s := if s.rangeUp 0 (faOff fa) 8 then s.ueMark (faOff fa) else s
        s.raise (unitChan (faOff fa / chanBytes)) 0x061 2 (some b) fa w.va w.level
      else
        let s := if r.ecc = .corrected ∧ here then s.chanCorrect (faOff fa) else s
        match r.which with
        | .demand =>
          (match s.tensorHead t.val stream.val with
           | some q => s.walkLevel t.val stream.val b q w
           | none => s)
        | .prefetch _ =>
          (match s.pfWalks.find? (fun p => p.site == t.val && p.stream == stream.val && p.walk == w) with
           | some p => s.prefetchLevel p
           | none => s))

/-- A page that prefetch passes over, kept only to go on to the next one. -/
def skipLeaf (va : Nat) : Leaf := ⟨0, 0, va / 4096 * 4096, 0, 0xC, false, false⟩

/-- May a prefetch walk of a bolt start on a panel? At most 16 of its 32 walkers, at most MAXW of them for the bolt, and none
while a demand walk waits for a walker (R153, R156). -/
def State.prefetchMay (s : State) (u b : Nat) : Bool :=
  let l := s.pfWalks.filter (fun p => p.site / 64 == u)
  decide (s.walkersBusy u < 32) && (s.walkersWanted u).isEmpty && decide (l.length < 16)
  && decide ((l.filter (fun p => p.bolt == b)).length < bits (s.reg (blt b 0x810)) 5 1)

/-- Starts walks for the pages of one queued descriptor that the translation unit of its panel neither holds nor walks for, as far
as walkers are free. `known` are the leaves held and the pages passed over. -/
def State.prefetchDesc (s : State) (t k b : Nat) (d : Desc) : Nat → List Leaf → State
  | 0, _ => s
  | n + 1, known =>
    match d.missing known with
    | none => s
    | some (va, dst) =>
      if !s.prefetchMay (t / 64) b then s
      else if s.pfRunning (t / 64) b va then s.prefetchDesc t k b d n (known ++ [skipLeaf va])
      else
        let s := s.bump (blt b 0x830) 1
        match s.walkStart (t / 64) b va dst dst with
        | .inr _ => s.prefetchDesc t k b d n (known ++ [skipLeaf va])
        | .inl w =>
          let a := s.walkAsk (t / 64) b w
          let s := if a.2.2 = 0 then { a.1 with pfWalks := a.1.pfWalks ++ [⟨t, k, b, (s.ctx b).gen.toNat, a.2.1⟩] } else a.1
          s.prefetchDesc t k b d n (known ++ [skipLeaf va])

/-- PREFETCH_WALK (R95, 05 R153, R156): walks for the pages of the tensor tiles queued behind the head, as many as the stream's
depth, start ahead of need while walkers are free for them. -/
def execPrefetchWalk (t : Site) (stream : Stream) (s : State) : Host.Outcome State Fault Refusal :=
  .next (
    if !s.live then s
    else match s.tileBolt t.val with
      | none => s
      | some b =>
        if !bit (s.reg (blt b 0x810)) 0 then s
        else
          let q := (s.tile t.val).stream stream.val
          ((q.queue.drop 1).take q.depth).foldl (fun s d =>
            s.prefetchDesc t.val stream.val b d.desc 64
              ((s.tc (t.val / 64)).filter (fun l => l.bolt == b && l.gen == (s.ctx b).gen.toNat))) s)

/-! ### Commit (R92, R98) -/

/-- TENSOR_TILE_TRANSLATED (R92): every page is translated and pinned; the tensor tile fetches its source and begins to
commit. It waits while its source waits for a release (08 R279) or a key (12 R380), and while its group's record has changed and
the old scene drains (04 R130). A record that the change has made unfit for it is a fault then (DEDUCED from R505, log 110). -/
def execTensorTileTranslated (t : Site) (stream : Stream) (s : State) : Host.Outcome State Fault Refusal :=
  .next (match s.tensorAt t.val stream.val (fun p => p == .translating none) with
    | none => s
    | some (b, q) =>
      if (q.desc.missing q.pins).isSome || s.groupWaits q.desc then s
      else match s.groupCause b t.val q.desc with
      | some c => s.tensorFail t.val stream.val q 0x016 q.desc.group.toNat c
      | none =>
        let q := { q with phase := .committing, scene := s.loom.live.num }
        let src := q.pieces false
        if src.any (s.pieceWaits b q.scene false) then s
        else
          let s := s.setTensor t.val stream.val q
          let r := s.fetchPieces t.val stream.val b src
          if r.2 then r.1.tensorInject t.val stream.val else r.1)

/-- A COPY has completed: the stream goes on, and the semaphore is signalled (R98). -/
def State.tensorCopyEnd (s : State) (t k b : Nat) (q : QDesc) : State :=
  let s := (s.popTensor t k).flightSub q.scene b (q.flight s.modNum)
  if !q.desc.semEn then s
  else if q.desc.semTile = 0xFFFF then s.semAddAt t q.desc.sem.toNat 1 (s.localNo t)
  else s.semSignal b t (s.descClass b q.desc) q.desc.semTile.toNat q.desc.sem.toNat 1

/-- Is a mirrored write of the destination unacknowledged? (14 R462) -/
def State.copiesDue (s : State) (q : QDesc) : Bool :=
  (q.pieces true).any (fun p => match p.fa with
    | some fa => faMod fa == s.modNum && s.mirrorDue (faSpace fa) (faOff fa) p.len
    | none => false)

/-- A COPY commits: the local destination is written; it completes when the mirrored copies are written too (R98; 14 R462).
-/
def State.copyDone (s : State) (t k b : Nat) (q : QDesc) : State :=
  let dst := q.pieces true
  match s.refusedPiece b q.scene dst with
  | some (p, st) => s.tensorStatus t k q st p true
  | none =>
    let d := s.draw
    let mixed := (q.pieces false).any (fun x => dst.any (fun y => s.overlap t x y))
    let s := d.1.writePieces d.1 t b q mixed d.2 dst
    if s.copiesDue q then s.setTensor t k { q with written := true } else s.tensorCopyEnd t k b q

/-- Has every chunk of a contribution's round been committed, or the group failed? (R98, 04 R132) -/
def State.redDone (s : State) (q : QDesc) : Bool :=
  let run := s.redRunOf q.desc.group.toNat
  run.failed || decide (q.desc.chunks ≤ mget 0 run.committed (64 * q.round))

/-- TENSOR_TILE_COMPLETE (R98): the last byte is committed at the destination. -/
def execTensorTileComplete (t : Site) (stream : Stream) (s : State) : Host.Outcome State Fault Refusal :=
  .next (match s.tensorAt t.val stream.val (fun p => p == .committing) with
    | none => s
    | some (b, q) =>
      if !q.sent || q.todo != [] || s.tensorReqs t.val stream.val != 0 then s
      else match q.desc.op.toNat with
        | 2 => if s.redDone q then s.popTensor t.val stream.val else s
        | 3 =>
          if s.mcFlits.any (fun f => f.from_ == (t.val, stream.val)) then s
          else (s.popTensor t.val stream.val).flightSub q.scene b (q.flight s.modNum)
        | _ =>
          if q.written then (if s.copiesDue q then s else s.tensorCopyEnd t.val stream.val b q)
          else if (q.pieces true).any (s.pieceWaits b q.scene true) then s else s.copyDone t.val stream.val b q)

end Sys2Proof.Machine
end

