-- ==== Sys2Proof/Machine/Tile.lean ====
section
/-! DEFINITION. The commands of an engine tile: the issue of the bundle whose slots the command spells, named after one of its
slot operations (03_engine_tile.md R64, R65), and the events that let a held bundle go on. A command of a bundle that the tile
does not hold at its program counter, or that the tile cannot issue now, changes nothing. -/

namespace Sys2Proof.Machine

/-- Bundle with MNOP: the matrix slot does nothing (03 R70). -/
def execMnop (t : Site) (f : BitVec 27) (vs ss cs : Word) (s : State) : Host.Outcome State Fault Refusal :=
  .next (s.issueWords t.val ⟨f.toNat, vs.toNat, ss.toNat, cs.toNat⟩)

/-- Bundle with MLDW: loads 128 weight columns (03 R71). -/
def execMldw (t : Site) (f : BitVec 27) (vs ss cs : Word) (s : State) : Host.Outcome State Fault Refusal :=
  .next (s.issueWords t.val ⟨0x1 * 2 ^ 27 + f.toNat, vs.toNat, ss.toNat, cs.toNat⟩)

/-- Bundle with MMUL: multiplies and accumulates rows (03 R72). -/
def execMmul (t : Site) (f : BitVec 27) (vs ss cs : Word) (s : State) : Host.Outcome State Fault Refusal :=
  .next (s.issueWords t.val ⟨0x2 * 2 ^ 27 + f.toNat, vs.toNat, ss.toNat, cs.toNat⟩)

/-- Bundle with MWB: writes accumulator rows back (03 R73). -/
def execMwb (t : Site) (f : BitVec 27) (vs ss cs : Word) (s : State) : Host.Outcome State Fault Refusal :=
  .next (s.issueWords t.val ⟨0x3 * 2 ^ 27 + f.toNat, vs.toNat, ss.toNat, cs.toNat⟩)

/-- Bundle with MZERO: clears accumulator rows (03 R70). -/
def execMzero (t : Site) (f : BitVec 27) (vs ss cs : Word) (s : State) : Host.Outcome State Fault Refusal :=
  .next (s.issueWords t.val ⟨0x4 * 2 ^ 27 + f.toNat, vs.toNat, ss.toNat, cs.toNat⟩)

/-- Bundle with VNOP: the vector slot does nothing (03 R74). -/
def execVnop (t : Site) (f : BitVec 26) (ms ss cs : Word) (s : State) : Host.Outcome State Fault Refusal :=
  .next (s.issueWords t.val ⟨ms.toNat, f.toNat, ss.toNat, cs.toNat⟩)

/-- Bundle with VLD: loads 256 lanes (03 R74, R76). -/
def execVld (t : Site) (f : BitVec 26) (ms ss cs : Word) (s : State) : Host.Outcome State Fault Refusal :=
  .next (s.issueWords t.val ⟨ms.toNat, 0x1 * 2 ^ 26 + f.toNat, ss.toNat, cs.toNat⟩)

/-- Bundle with VST: stores 256 lanes (03 R74, R503). -/
def execVst (t : Site) (f : BitVec 26) (ms ss cs : Word) (s : State) : Host.Outcome State Fault Refusal :=
  .next (s.issueWords t.val ⟨ms.toNat, 0x2 * 2 ^ 26 + f.toNat, ss.toNat, cs.toNat⟩)

/-- Bundle with VADD: lanes added (03 R74). -/
def execVadd (t : Site) (f : BitVec 26) (ms ss cs : Word) (s : State) : Host.Outcome State Fault Refusal :=
  .next (s.issueWords t.val ⟨ms.toNat, 0x8 * 2 ^ 26 + f.toNat, ss.toNat, cs.toNat⟩)

/-- Bundle with VSUB: lanes subtracted (03 R74). -/
def execVsub (t : Site) (f : BitVec 26) (ms ss cs : Word) (s : State) : Host.Outcome State Fault Refusal :=
  .next (s.issueWords t.val ⟨ms.toNat, 0x9 * 2 ^ 26 + f.toNat, ss.toNat, cs.toNat⟩)

/-- Bundle with VMUL: lanes multiplied (03 R74). -/
def execVmul (t : Site) (f : BitVec 26) (ms ss cs : Word) (s : State) : Host.Outcome State Fault Refusal :=
  .next (s.issueWords t.val ⟨ms.toNat, 0xa * 2 ^ 26 + f.toNat, ss.toNat, cs.toNat⟩)

/-- Bundle with VFMA: fused multiply-add (03 R74). -/
def execVfma (t : Site) (f : BitVec 26) (ms ss cs : Word) (s : State) : Host.Outcome State Fault Refusal :=
  .next (s.issueWords t.val ⟨ms.toNat, 0xb * 2 ^ 26 + f.toNat, ss.toNat, cs.toNat⟩)

/-- Bundle with VMAX: lane maximum (02 R55). -/
def execVmax (t : Site) (f : BitVec 26) (ms ss cs : Word) (s : State) : Host.Outcome State Fault Refusal :=
  .next (s.issueWords t.val ⟨ms.toNat, 0xc * 2 ^ 26 + f.toNat, ss.toNat, cs.toNat⟩)

/-- Bundle with VMIN: lane minimum (02 R55). -/
def execVmin (t : Site) (f : BitVec 26) (ms ss cs : Word) (s : State) : Host.Outcome State Fault Refusal :=
  .next (s.issueWords t.val ⟨ms.toNat, 0xd * 2 ^ 26 + f.toNat, ss.toNat, cs.toNat⟩)

/-- Bundle with VABS: absolute value (02 R500). -/
def execVabs (t : Site) (f : BitVec 26) (ms ss cs : Word) (s : State) : Host.Outcome State Fault Refusal :=
  .next (s.issueWords t.val ⟨ms.toNat, 0xe * 2 ^ 26 + f.toNat, ss.toNat, cs.toNat⟩)

/-- Bundle with VNEG: negation (02 R500). -/
def execVneg (t : Site) (f : BitVec 26) (ms ss cs : Word) (s : State) : Host.Outcome State Fault Refusal :=
  .next (s.issueWords t.val ⟨ms.toNat, 0xf * 2 ^ 26 + f.toNat, ss.toNat, cs.toNat⟩)

/-- Bundle with VSEL: lanes chosen by the mask (03 R74). -/
def execVsel (t : Site) (f : BitVec 26) (ms ss cs : Word) (s : State) : Host.Outcome State Fault Refusal :=
  .next (s.issueWords t.val ⟨ms.toNat, 0x10 * 2 ^ 26 + f.toNat, ss.toNat, cs.toNat⟩)

/-- Bundle with VBCST: one lane broadcast (03 R74). -/
def execVbcst (t : Site) (f : BitVec 26) (ms ss cs : Word) (s : State) : Host.Outcome State Fault Refusal :=
  .next (s.issueWords t.val ⟨ms.toNat, 0x11 * 2 ^ 26 + f.toNat, ss.toNat, cs.toNat⟩)

/-- Bundle with VCMPLT: less-than mask (03 R75). -/
def execVcmplt (t : Site) (f : BitVec 26) (ms ss cs : Word) (s : State) : Host.Outcome State Fault Refusal :=
  .next (s.issueWords t.val ⟨ms.toNat, 0x12 * 2 ^ 26 + f.toNat, ss.toNat, cs.toNat⟩)

/-- Bundle with VCMPEQ: equality mask (03 R75). -/
def execVcmpeq (t : Site) (f : BitVec 26) (ms ss cs : Word) (s : State) : Host.Outcome State Fault Refusal :=
  .next (s.issueWords t.val ⟨ms.toNat, 0x13 * 2 ^ 26 + f.toNat, ss.toNat, cs.toNat⟩)

/-- Bundle with VCMPLE: less-or-equal mask (03 R75). -/
def execVcmple (t : Site) (f : BitVec 26) (ms ss cs : Word) (s : State) : Host.Outcome State Fault Refusal :=
  .next (s.issueWords t.val ⟨ms.toNat, 0x14 * 2 ^ 26 + f.toNat, ss.toNat, cs.toNat⟩)

/-- Bundle with VEXP2: exp2 (02 R57). -/
def execVexp2 (t : Site) (f : BitVec 26) (ms ss cs : Word) (s : State) : Host.Outcome State Fault Refusal :=
  .next (s.issueWords t.val ⟨ms.toNat, 0x18 * 2 ^ 26 + f.toNat, ss.toNat, cs.toNat⟩)

/-- Bundle with VLOG2: log2 (02 R57). -/
def execVlog2 (t : Site) (f : BitVec 26) (ms ss cs : Word) (s : State) : Host.Outcome State Fault Refusal :=
  .next (s.issueWords t.val ⟨ms.toNat, 0x19 * 2 ^ 26 + f.toNat, ss.toNat, cs.toNat⟩)

/-- Bundle with VRCP: reciprocal (02 R57). -/
def execVrcp (t : Site) (f : BitVec 26) (ms ss cs : Word) (s : State) : Host.Outcome State Fault Refusal :=
  .next (s.issueWords t.val ⟨ms.toNat, 0x1a * 2 ^ 26 + f.toNat, ss.toNat, cs.toNat⟩)

/-- Bundle with VRSQ: reciprocal square root (02 R57). -/
def execVrsq (t : Site) (f : BitVec 26) (ms ss cs : Word) (s : State) : Host.Outcome State Fault Refusal :=
  .next (s.issueWords t.val ⟨ms.toNat, 0x1b * 2 ^ 26 + f.toNat, ss.toNat, cs.toNat⟩)

/-- Bundle with VTANH: tanh (02 R57). -/
def execVtanh (t : Site) (f : BitVec 26) (ms ss cs : Word) (s : State) : Host.Outcome State Fault Refusal :=
  .next (s.issueWords t.val ⟨ms.toNat, 0x1c * 2 ^ 26 + f.toNat, ss.toNat, cs.toNat⟩)

/-- Bundle with VRSUM: pairwise sum (02 R54). -/
def execVrsum (t : Site) (f : BitVec 26) (ms ss cs : Word) (s : State) : Host.Outcome State Fault Refusal :=
  .next (s.issueWords t.val ⟨ms.toNat, 0x20 * 2 ^ 26 + f.toNat, ss.toNat, cs.toNat⟩)

/-- Bundle with VRMAX: maximum by the tree (02 R54). -/
def execVrmax (t : Site) (f : BitVec 26) (ms ss cs : Word) (s : State) : Host.Outcome State Fault Refusal :=
  .next (s.issueWords t.val ⟨ms.toNat, 0x21 * 2 ^ 26 + f.toNat, ss.toNat, cs.toNat⟩)

/-- Bundle with VRMIN: minimum by the tree (02 R54). -/
def execVrmin (t : Site) (f : BitVec 26) (ms ss cs : Word) (s : State) : Host.Outcome State Fault Refusal :=
  .next (s.issueWords t.val ⟨ms.toNat, 0x22 * 2 ^ 26 + f.toNat, ss.toNat, cs.toNat⟩)

/-- Bundle with SNOP: the shuttle slot does nothing (03 R77). -/
def execSnop (t : Site) (f : BitVec 28) (ms vs cs : Word) (s : State) : Host.Outcome State Fault Refusal :=
  .next (s.issueWords t.val ⟨ms.toNat, vs.toNat, f.toNat, cs.toNat⟩)

/-- Bundle with SQ: descriptors enter a stream (03 R77, R78). -/
def execSq (t : Site) (f : BitVec 28) (ms vs cs : Word) (s : State) : Host.Outcome State Fault Refusal :=
  .next (s.issueWords t.val ⟨ms.toNat, vs.toNat, 0x1 * 2 ^ 28 + f.toNat, cs.toNat⟩)

/-- Bundle with SCFG: prefetch depth set (03 R77). -/
def execScfg (t : Site) (f : BitVec 28) (ms vs cs : Word) (s : State) : Host.Outcome State Fault Refusal :=
  .next (s.issueWords t.val ⟨ms.toNat, vs.toNat, 0x2 * 2 ^ 28 + f.toNat, cs.toNat⟩)

/-- Bundle with CNOP: the control slot does nothing (03 R79). -/
def execCnop (t : Site) (f : BitVec 26) (ms vs ss : Word) (s : State) : Host.Outcome State Fault Refusal :=
  .next (s.issueWords t.val ⟨ms.toNat, vs.toNat, ss.toNat, f.toNat⟩)

/-- Bundle with BR: branch (03 R80). -/
def execBr (t : Site) (f : BitVec 26) (ms vs ss : Word) (s : State) : Host.Outcome State Fault Refusal :=
  .next (s.issueWords t.val ⟨ms.toNat, vs.toNat, ss.toNat, 0x1 * 2 ^ 26 + f.toNat⟩)

/-- Bundle with BRZ: branch if zero (03 R80). -/
def execBrz (t : Site) (f : BitVec 26) (ms vs ss : Word) (s : State) : Host.Outcome State Fault Refusal :=
  .next (s.issueWords t.val ⟨ms.toNat, vs.toNat, ss.toNat, 0x2 * 2 ^ 26 + f.toNat⟩)

/-- Bundle with BRNZ: branch if not zero (03 R80). -/
def execBrnz (t : Site) (f : BitVec 26) (ms vs ss : Word) (s : State) : Host.Outcome State Fault Refusal :=
  .next (s.issueWords t.val ⟨ms.toNat, vs.toNat, ss.toNat, 0x3 * 2 ^ 26 + f.toNat⟩)

/-- Bundle with LOOP: loop (03 R80). -/
def execLoop (t : Site) (f : BitVec 26) (ms vs ss : Word) (s : State) : Host.Outcome State Fault Refusal :=
  .next (s.issueWords t.val ⟨ms.toNat, vs.toNat, ss.toNat, 0x4 * 2 ^ 26 + f.toNat⟩)

/-- Bundle with WAITSEM: waits on a semaphore (03 R79). -/
def execWaitsem (t : Site) (f : BitVec 26) (ms vs ss : Word) (s : State) : Host.Outcome State Fault Refusal :=
  .next (s.issueWords t.val ⟨ms.toNat, vs.toNat, ss.toNat, 0x5 * 2 ^ 26 + f.toNat⟩)

/-- Bundle with SEMSIG: signals a semaphore (03 R99). -/
def execSemsig (t : Site) (f : BitVec 26) (ms vs ss : Word) (s : State) : Host.Outcome State Fault Refusal :=
  .next (s.issueWords t.val ⟨ms.toNat, vs.toNat, ss.toNat, 0x6 * 2 ^ 26 + f.toNat⟩)

/-- Bundle with WAITCUE: waits on CREL (03 R79). -/
def execWaitcue (t : Site) (f : BitVec 26) (ms vs ss : Word) (s : State) : Host.Outcome State Fault Refusal :=
  .next (s.issueWords t.val ⟨ms.toNat, vs.toNat, ss.toNat, 0x7 * 2 ^ 26 + f.toNat⟩)

/-- Bundle with FENCE: waits for earlier operations (03 R100). -/
def execFence (t : Site) (f : BitVec 26) (ms vs ss : Word) (s : State) : Host.Outcome State Fault Refusal :=
  .next (s.issueWords t.val ⟨ms.toNat, vs.toNat, ss.toNat, 0x8 * 2 ^ 26 + f.toNat⟩)

/-- Bundle with TMARK: trace mark (13 R429). -/
def execTmark (t : Site) (f : BitVec 26) (ms vs ss : Word) (s : State) : Host.Outcome State Fault Refusal :=
  .next (s.issueWords t.val ⟨ms.toNat, vs.toNat, ss.toNat, 0x9 * 2 ^ 26 + f.toNat⟩)

/-- Bundle with SEED: dither seed (02 R50). -/
def execSeed (t : Site) (f : BitVec 26) (ms vs ss : Word) (s : State) : Host.Outcome State Fault Refusal :=
  .next (s.issueWords t.val ⟨ms.toNat, vs.toNat, ss.toNat, 0xa * 2 ^ 26 + f.toNat⟩)

/-- Bundle with RSTAT: status word read (03 R79). -/
def execRstat (t : Site) (f : BitVec 26) (ms vs ss : Word) (s : State) : Host.Outcome State Fault Refusal :=
  .next (s.issueWords t.val ⟨ms.toNat, vs.toNat, ss.toNat, 0xb * 2 ^ 26 + f.toNat⟩)

/-- Bundle with CSTAT: status flags cleared (03 R79). -/
def execCstat (t : Site) (f : BitVec 26) (ms vs ss : Word) (s : State) : Host.Outcome State Fault Refusal :=
  .next (s.issueWords t.val ⟨ms.toNat, vs.toNat, ss.toNat, 0xc * 2 ^ 26 + f.toNat⟩)

/-- Bundle with SETA: address register set (03 R79). -/
def execSeta (t : Site) (f : BitVec 26) (ms vs ss : Word) (s : State) : Host.Outcome State Fault Refusal :=
  .next (s.issueWords t.val ⟨ms.toNat, vs.toNat, ss.toNat, 0xd * 2 ^ 26 + f.toNat⟩)

/-- Bundle with SETST: step set (03 R79). -/
def execSetst (t : Site) (f : BitVec 26) (ms vs ss : Word) (s : State) : Host.Outcome State Fault Refusal :=
  .next (s.issueWords t.val ⟨ms.toNat, vs.toNat, ss.toNat, 0xe * 2 ^ 26 + f.toNat⟩)

/-- Bundle with ADDA: address register advanced (03 R79). -/
def execAdda (t : Site) (f : BitVec 26) (ms vs ss : Word) (s : State) : Host.Outcome State Fault Refusal :=
  .next (s.issueWords t.val ⟨ms.toNat, vs.toNat, ss.toNat, 0xf * 2 ^ 26 + f.toNat⟩)

/-- Bundle with SETI: integer register set (03 R79). -/
def execSeti (t : Site) (f : BitVec 26) (ms vs ss : Word) (s : State) : Host.Outcome State Fault Refusal :=
  .next (s.issueWords t.val ⟨ms.toNat, vs.toNat, ss.toNat, 0x10 * 2 ^ 26 + f.toNat⟩)

/-- Bundle with ADDI: integer register advanced (03 R79). -/
def execAddi (t : Site) (f : BitVec 26) (ms vs ss : Word) (s : State) : Host.Outcome State Fault Refusal :=
  .next (s.issueWords t.val ⟨ms.toNat, vs.toNat, ss.toNat, 0x11 * 2 ^ 26 + f.toNat⟩)

/-- Bundle with LDI: integer register loaded (03 R79). -/
def execLdi (t : Site) (f : BitVec 26) (ms vs ss : Word) (s : State) : Host.Outcome State Fault Refusal :=
  .next (s.issueWords t.val ⟨ms.toNat, vs.toNat, ss.toNat, 0x12 * 2 ^ 26 + f.toNat⟩)

/-- Bundle with TINFO: tile numbers (03 R79). -/
def execTinfo (t : Site) (f : BitVec 26) (ms vs ss : Word) (s : State) : Host.Outcome State Fault Refusal :=
  .next (s.issueWords t.val ⟨ms.toNat, vs.toNat, ss.toNat, 0x13 * 2 ^ 26 + f.toNat⟩)

/-- Bundle with BOW: bow point reached (03 R103). -/
def execBow (t : Site) (f : BitVec 26) (ms vs ss : Word) (s : State) : Host.Outcome State Fault Refusal :=
  .next (s.issueWords t.val ⟨ms.toNat, vs.toNat, ss.toNat, 0x14 * 2 ^ 26 + f.toNat⟩)

/-- Bundle with STEPEND: step boundary reached (03 R104). -/
def execStepend (t : Site) (f : BitVec 26) (ms vs ss : Word) (s : State) : Host.Outcome State Fault Refusal :=
  .next (s.issueWords t.val ⟨ms.toNat, vs.toNat, ss.toNat, 0x15 * 2 ^ 26 + f.toNat⟩)

/-- Bundle with HALT: tile halts (03 R79). -/
def execHalt (t : Site) (f : BitVec 26) (ms vs ss : Word) (s : State) : Host.Outcome State Fault Refusal :=
  .next (s.issueWords t.val ⟨ms.toNat, vs.toNat, ss.toNat, 0x16 * 2 ^ 26 + f.toNat⟩)

/-- DITHER_WRAP: the conversion that uses counter value 2^48 − 1 leaves the counter at 0 and sets SRWRAP (02 R51). -/
def execDitherWrap (t : Site) (s : State) : Host.Outcome State Fault Refusal :=
  .next (if s.live ∧ (s.tile t.val).dither = BitVec.ofNat 48 (2 ^ 48 - 1) then
      s.updTile t.val (fun x => (x.drawDither (s.localNo t.val) 1).2)
    else s)

/-- STREAM_SLOT_FREE: a held SQ goes on enqueueing (03 R78). -/
def execStreamSlotFree (t : Site) (stream : Stream) (s : State) : Host.Outcome State Fault Refusal :=
  .next (s.streamRoom t.val stream.val)

/-- WAITSEM_SATISFIED: the semaphore has reached its count and issue resumes (03 R100). -/
def execWaitsemSatisfied (t : Site) (s : State) : Host.Outcome State Fault Refusal := .next (s.reissue t.val 5)

/-- WAITCUE_SATISFIED: CREL has reached the phase and issue resumes (06 R196). -/
def execWaitcueSatisfied (t : Site) (s : State) : Host.Outcome State Fault Refusal := .next (s.reissue t.val 7)

/-- FENCE_SATISFIED: the operations that a FENCE, or a SEMSIG with REL = 1, waits for are complete (03 R100). -/
def execFenceSatisfied (t : Site) (s : State) : Host.Outcome State Fault Refusal :=
  .next ((s.reissue t.val 8).reissue t.val 6)

end Sys2Proof.Machine
end

