-- ==== Sys2Proof/Machine/Dispatch.lean ====
section
/-! DEFINITION. The meaning of every command: one arm per constructor of `Instr`. -/

namespace Sys2Proof.Machine

def exec (i : Instr) (s : State) : Host.Outcome State Fault Refusal :=
  match i with
  | .registerWrite fn off wide val => Sys2Proof.Machine.execRegisterWrite fn off wide val s
  | .unimplementedAccess fn off write => Sys2Proof.Machine.execUnimplementedAccess fn off write s
  | .unsupportedWidthAccess fn off write => Sys2Proof.Machine.execUnsupportedWidthAccess fn off write s
  | .pairLoRead fn off wide => Sys2Proof.Machine.execPairLoRead fn off wide s
  | .pairLoWrite fn off val => Sys2Proof.Machine.execPairLoWrite fn off val s
  | .mnop t f vs ss cs => Sys2Proof.Machine.execMnop t f vs ss cs s
  | .mldw t f vs ss cs => Sys2Proof.Machine.execMldw t f vs ss cs s
  | .mmul t f vs ss cs => Sys2Proof.Machine.execMmul t f vs ss cs s
  | .mwb t f vs ss cs => Sys2Proof.Machine.execMwb t f vs ss cs s
  | .mzero t f vs ss cs => Sys2Proof.Machine.execMzero t f vs ss cs s
  | .ditherWrap t => Sys2Proof.Machine.execDitherWrap t s
  | .vnop t f ms ss cs => Sys2Proof.Machine.execVnop t f ms ss cs s
  | .vld t f ms ss cs => Sys2Proof.Machine.execVld t f ms ss cs s
  | .vst t f ms ss cs => Sys2Proof.Machine.execVst t f ms ss cs s
  | .vadd t f ms ss cs => Sys2Proof.Machine.execVadd t f ms ss cs s
  | .vsub t f ms ss cs => Sys2Proof.Machine.execVsub t f ms ss cs s
  | .vmul t f ms ss cs => Sys2Proof.Machine.execVmul t f ms ss cs s
  | .vfma t f ms ss cs => Sys2Proof.Machine.execVfma t f ms ss cs s
  | .vmax t f ms ss cs => Sys2Proof.Machine.execVmax t f ms ss cs s
  | .vmin t f ms ss cs => Sys2Proof.Machine.execVmin t f ms ss cs s
  | .vabs t f ms ss cs => Sys2Proof.Machine.execVabs t f ms ss cs s
  | .vneg t f ms ss cs => Sys2Proof.Machine.execVneg t f ms ss cs s
  | .vsel t f ms ss cs => Sys2Proof.Machine.execVsel t f ms ss cs s
  | .vbcst t f ms ss cs => Sys2Proof.Machine.execVbcst t f ms ss cs s
  | .vcmplt t f ms ss cs => Sys2Proof.Machine.execVcmplt t f ms ss cs s
  | .vcmpeq t f ms ss cs => Sys2Proof.Machine.execVcmpeq t f ms ss cs s
  | .vcmple t f ms ss cs => Sys2Proof.Machine.execVcmple t f ms ss cs s
  | .vexp2 t f ms ss cs => Sys2Proof.Machine.execVexp2 t f ms ss cs s
  | .vlog2 t f ms ss cs => Sys2Proof.Machine.execVlog2 t f ms ss cs s
  | .vrcp t f ms ss cs => Sys2Proof.Machine.execVrcp t f ms ss cs s
  | .vrsq t f ms ss cs => Sys2Proof.Machine.execVrsq t f ms ss cs s
  | .vtanh t f ms ss cs => Sys2Proof.Machine.execVtanh t f ms ss cs s
  | .vrsum t f ms ss cs => Sys2Proof.Machine.execVrsum t f ms ss cs s
  | .vrmax t f ms ss cs => Sys2Proof.Machine.execVrmax t f ms ss cs s
  | .vrmin t f ms ss cs => Sys2Proof.Machine.execVrmin t f ms ss cs s
  | .snop t f ms vs cs => Sys2Proof.Machine.execSnop t f ms vs cs s
  | .sq t f ms vs cs => Sys2Proof.Machine.execSq t f ms vs cs s
  | .streamSlotFree t stream => Sys2Proof.Machine.execStreamSlotFree t stream s
  | .scfg t f ms vs cs => Sys2Proof.Machine.execScfg t f ms vs cs s
  | .cnop t f ms vs ss => Sys2Proof.Machine.execCnop t f ms vs ss s
  | .br t f ms vs ss => Sys2Proof.Machine.execBr t f ms vs ss s
  | .brz t f ms vs ss => Sys2Proof.Machine.execBrz t f ms vs ss s
  | .brnz t f ms vs ss => Sys2Proof.Machine.execBrnz t f ms vs ss s
  | .loop t f ms vs ss => Sys2Proof.Machine.execLoop t f ms vs ss s
  | .waitsem t f ms vs ss => Sys2Proof.Machine.execWaitsem t f ms vs ss s
  | .waitsemSatisfied t => Sys2Proof.Machine.execWaitsemSatisfied t s
  | .semsig t f ms vs ss => Sys2Proof.Machine.execSemsig t f ms vs ss s
  | .waitcue t f ms vs ss => Sys2Proof.Machine.execWaitcue t f ms vs ss s
  | .waitcueSatisfied t => Sys2Proof.Machine.execWaitcueSatisfied t s
  | .fence t f ms vs ss => Sys2Proof.Machine.execFence t f ms vs ss s
  | .fenceSatisfied t => Sys2Proof.Machine.execFenceSatisfied t s
  | .tmark t f ms vs ss => Sys2Proof.Machine.execTmark t f ms vs ss s
  | .seed t f ms vs ss => Sys2Proof.Machine.execSeed t f ms vs ss s
  | .rstat t f ms vs ss => Sys2Proof.Machine.execRstat t f ms vs ss s
  | .cstat t f ms vs ss => Sys2Proof.Machine.execCstat t f ms vs ss s
  | .seta t f ms vs ss => Sys2Proof.Machine.execSeta t f ms vs ss s
  | .setst t f ms vs ss => Sys2Proof.Machine.execSetst t f ms vs ss s
  | .adda t f ms vs ss => Sys2Proof.Machine.execAdda t f ms vs ss s
  | .seti t f ms vs ss => Sys2Proof.Machine.execSeti t f ms vs ss s
  | .addi t f ms vs ss => Sys2Proof.Machine.execAddi t f ms vs ss s
  | .ldi t f ms vs ss => Sys2Proof.Machine.execLdi t f ms vs ss s
  | .tinfo t f ms vs ss => Sys2Proof.Machine.execTinfo t f ms vs ss s
  | .bow t f ms vs ss => Sys2Proof.Machine.execBow t f ms vs ss s
  | .stepend t f ms vs ss => Sys2Proof.Machine.execStepend t f ms vs ss s
  | .halt t f ms vs ss => Sys2Proof.Machine.execHalt t f ms vs ss s
  | .bowPass b => Sys2Proof.Machine.execBowPass b s
  | .tensorTileStart t stream => Sys2Proof.Machine.execTensorTileStart t stream s
  | .microTlbRoom t stream => Sys2Proof.Machine.execMicroTlbRoom t stream s
  | .microTlbMiss t stream => Sys2Proof.Machine.execMicroTlbMiss t stream s
  | .walkLevelRead t stream r => Sys2Proof.Machine.execWalkLevelRead t stream r s
  | .prefetchWalk t stream => Sys2Proof.Machine.execPrefetchWalk t stream s
  | .tensorTileTranslated t stream => Sys2Proof.Machine.execTensorTileTranslated t stream s
  | .tensorTileComplete t stream => Sys2Proof.Machine.execTensorTileComplete t stream s
  | .startPhase slot => Sys2Proof.Machine.execStartPhase slot s
  | .releaseStream slot => Sys2Proof.Machine.execReleaseStream slot s
  | .openRed slot => Sys2Proof.Machine.execOpenRed slot s
  | .signalFence slot => Sys2Proof.Machine.execSignalFence slot s
  | .shiftPower slot => Sys2Proof.Machine.execShiftPower slot s
  | .sceneChange slot => Sys2Proof.Machine.execSceneChange slot s
  | .meshFlitReceive l flit ecc => Sys2Proof.Machine.execMeshFlitReceive l flit ecc s
  | .ticketReturn l vc => Sys2Proof.Machine.execTicketReturn l vc s
  | .mcastFlitForward g node => Sys2Proof.Machine.execMcastFlitForward g node s
  | .redChunkCombine g node round chunk => Sys2Proof.Machine.execRedChunkCombine g node round chunk s
  | .redTimeout g node round chunk => Sys2Proof.Machine.execRedTimeout g node round chunk s
  | .bridgeFlitReceive br stop flit crcOk => Sys2Proof.Machine.execBridgeFlitReceive br stop flit crcOk s
  | .brgRetrain br stop => Sys2Proof.Machine.execBrgRetrain br stop s
  | .bridgeRetrainEnd br stop ok occupied ns => Sys2Proof.Machine.execBridgeRetrainEnd br stop ok occupied ns s
  | .ledgerAudit l => Sys2Proof.Machine.execLedgerAudit l s
  | .auditLate l => Sys2Proof.Machine.execAuditLate l s
  | .hbmAccess r ecc mac ns => Sys2Proof.Machine.execHbmAccess r ecc mac ns s
  | .hbmScrub c off ecc => Sys2Proof.Machine.execHbmScrub c off ecc s
  | .hbmRefreshHot stack temp => Sys2Proof.Machine.execHbmRefreshHot stack temp s
  | .hbmChDown c retrain => Sys2Proof.Machine.execHbmChDown c retrain s
  | .fqResume fn b val => Sys2Proof.Machine.execFqResume fn b val s
  | .fqAbandon fn b val => Sys2Proof.Machine.execFqAbandon fn b val s
  | .invRange slot w7 => Sys2Proof.Machine.execInvRange slot w7 s
  | .invContext slot w7 => Sys2Proof.Machine.execInvContext slot w7 s
  | .invAll slot w7 => Sys2Proof.Machine.execInvAll slot w7 s
  | .invComplete slot => Sys2Proof.Machine.execInvComplete slot s
  | .invTimeout slot p m => Sys2Proof.Machine.execInvTimeout slot p m s
  | .ppsEdge width => Sys2Proof.Machine.execPpsEdge width s
  | .ppsLoss => Sys2Proof.Machine.execPpsLoss s
  | .fabricTimeLoss => Sys2Proof.Machine.execFabricTimeLoss s
  | .stuReacq fn val => Sys2Proof.Machine.execStuReacq fn val s
  | .stuCtlWrite fn val => Sys2Proof.Machine.execStuCtlWrite fn val s
  | .stuEnd => Sys2Proof.Machine.execStuEnd s
  | .cueHandover slot => Sys2Proof.Machine.execCueHandover slot s
  | .cueLate slot cause => Sys2Proof.Machine.execCueLate slot cause s
  | .stepAdmission at_ => Sys2Proof.Machine.execStepAdmission at_ s
  | .stepDelivery b => Sys2Proof.Machine.execStepDelivery b s
  | .guaranteeMissed b => Sys2Proof.Machine.execGuaranteeMissed b s
  | .portEnable fn p val => Sys2Proof.Machine.execPortEnable fn p val s
  | .retrain fn p val => Sys2Proof.Machine.execRetrain fn p val s
  | .linkTrainingEnd p ok us => Sys2Proof.Machine.execLinkTrainingEnd p ok us s
  | .codewordLock p ok => Sys2Proof.Machine.execCodewordLock p ok s
  | .param p w => Sys2Proof.Machine.execParam p w s
  | .codewordReceive p cw => Sys2Proof.Machine.execCodewordReceive p cw s
  | .ack p cseq => Sys2Proof.Machine.execAck p cseq s
  | .nak p cseq => Sys2Proof.Machine.execNak p cseq s
  | .nakBound p => Sys2Proof.Machine.execNakBound p s
  | .ackStall p => Sys2Proof.Machine.execAckStall p s
  | .fastRetrainEnd p ok ns => Sys2Proof.Machine.execFastRetrainEnd p ok ns s
  | .resync p cseq ledger occupied => Sys2Proof.Machine.execResync p cseq ledger occupied s
  | .credit p cells shared => Sys2Proof.Machine.execCredit p cells shared s
  | .redCredit p pairs => Sys2Proof.Machine.execRedCredit p pairs s
  | .audit p ledger held ret => Sys2Proof.Machine.execAudit p ledger held ret s
  | .time p reply ta tb tc => Sys2Proof.Machine.execTime p reply ta tb tc s
  | .ld p h tag => Sys2Proof.Machine.execLd p h tag s
  | .st p h data tag => Sys2Proof.Machine.execSt p h data tag s
  | .bulkWr p h data tag => Sys2Proof.Machine.execBulkWr p h data tag s
  | .atom p h extLo extHi tag => Sys2Proof.Machine.execAtom p h extLo extHi tag s
  | .sem p h tag => Sys2Proof.Machine.execSem p h tag s
  | .creustFence p h tag => Sys2Proof.Machine.execCreustFence p h tag s
  | .red p h data tag => Sys2Proof.Machine.execRed p h data tag s
  | .shoot p h tag => Sys2Proof.Machine.execShoot p h tag s
  | .sessOffer p h data sigOk => Sys2Proof.Machine.execSessOffer p h data sigOk s
  | .sessEncaps p f => Sys2Proof.Machine.execSessEncaps p f s
  | .sessConfirm p h body => Sys2Proof.Machine.execSessConfirm p h body s
  | .sessClose p h data tag => Sys2Proof.Machine.execSessClose p h data tag s
  | .sessionTimeout ski => Sys2Proof.Machine.execSessionTimeout ski s
  | .rdData p h data tag => Sys2Proof.Machine.execRdData p h data tag s
  | .wrAck p h tag => Sys2Proof.Machine.execWrAck p h tag s
  | .bulkAck p h tag => Sys2Proof.Machine.execBulkAck p h tag s
  | .atomRsp p h tag => Sys2Proof.Machine.execAtomRsp p h tag s
  | .fenceAck p h tag => Sys2Proof.Machine.execFenceAck p h tag s
  | .semAck p h tag => Sys2Proof.Machine.execSemAck p h tag s
  | .shootAck p h tag => Sys2Proof.Machine.execShootAck p h tag s
  | .sessRsp p h tag => Sys2Proof.Machine.execSessRsp p h tag s
  | .transitPacket p x => Sys2Proof.Machine.execTransitPacket p x s
  | .crCplTimeout tag => Sys2Proof.Machine.execCrCplTimeout tag s
  | .crStall p vl waiting => Sys2Proof.Machine.execCrStall p vl waiting s
  | .loomPut ses off data => Sys2Proof.Machine.execLoomPut ses off data s
  | .loomCommit ses force sigOk => Sys2Proof.Machine.execLoomCommit ses force sigOk s
  | .loomCancel ses scene => Sys2Proof.Machine.execLoomCancel ses scene s
  | .loomRead ses off => Sys2Proof.Machine.execLoomRead ses off s
  | .sceneRetire => Sys2Proof.Machine.execSceneRetire s
  | .lomDrainTimeout => Sys2Proof.Machine.execLomDrainTimeout s
  | .lomScrubDone c => Sys2Proof.Machine.execLomScrubDone c s
  | .flr fn => Sys2Proof.Machine.execFlr fn s
  | .doorbell fn q val => Sys2Proof.Machine.execDoorbell fn q val s
  | .queueWindowSwap q => Sys2Proof.Machine.execQueueWindowSwap q s
  | .callFetch q hostData => Sys2Proof.Machine.execCallFetch q hostData s
  | .qCreate fn hif b rsv => Sys2Proof.Machine.execQCreate fn hif b rsv s
  | .qDestroy fn hif b rsv => Sys2Proof.Machine.execQDestroy fn hif b rsv s
  | .qStop fn hif b rsv => Sys2Proof.Machine.execQStop fn hif b rsv s
  | .qStart fn hif b rsv => Sys2Proof.Machine.execQStart fn hif b rsv s
  | .qRead fn hif b rsv => Sys2Proof.Machine.execQRead fn hif b rsv s
  | .fenceCreate fn hif b rsv => Sys2Proof.Machine.execFenceCreate fn hif b rsv s
  | .fenceDestroy fn hif b rsv => Sys2Proof.Machine.execFenceDestroy fn hif b rsv s
  | .fenceAbandon fn hif b rsv => Sys2Proof.Machine.execFenceAbandon fn hif b rsv s
  | .fenceRead fn hif b rsv => Sys2Proof.Machine.execFenceRead fn hif b rsv s
  | .objCreate fn hif b rsv => Sys2Proof.Machine.execObjCreate fn hif b rsv s
  | .objHostInc fn hif b rsv => Sys2Proof.Machine.execObjHostInc fn hif b rsv s
  | .objHostDec fn hif b rsv => Sys2Proof.Machine.execObjHostDec fn hif b rsv s
  | .objRead fn hif b rsv => Sys2Proof.Machine.execObjRead fn hif b rsv s
  | .fenceShare fn hif b rsv => Sys2Proof.Machine.execFenceShare fn hif b rsv s
  | .quota fn hif b rsv => Sys2Proof.Machine.execQuota fn hif b rsv s
  | .nop q => Sys2Proof.Machine.execNop q s
  | .step q => Sys2Proof.Machine.execStep q s
  | .ctxLoad q => Sys2Proof.Machine.execCtxLoad q s
  | .contextReady b => Sys2Proof.Machine.execContextReady b s
  | .ctxUnload q => Sys2Proof.Machine.execCtxUnload q s
  | .copy q => Sys2Proof.Machine.execCopy q s
  | .fill q => Sys2Proof.Machine.execFill q s
  | .signal q => Sys2Proof.Machine.execSignal q s
  | .wait q => Sys2Proof.Machine.execWait q s
  | .waitTimeout q => Sys2Proof.Machine.execWaitTimeout q s
  | .cueArm q => Sys2Proof.Machine.execCueArm q s
  | .cueCancel q => Sys2Proof.Machine.execCueCancel q s
  | .barrier q => Sys2Proof.Machine.execBarrier q s
  | .castAdmit q => Sys2Proof.Machine.execCastAdmit q s
  | .castUpdate q => Sys2Proof.Machine.execCastUpdate q s
  | .castRead q => Sys2Proof.Machine.execCastRead q s
  | .castPark q => Sys2Proof.Machine.execCastPark q s
  | .castResume q => Sys2Proof.Machine.execCastResume q s
  | .castResumePromote q => Sys2Proof.Machine.execCastResumePromote q s
  | .castEvict q => Sys2Proof.Machine.execCastEvict q s
  | .castRelease q => Sys2Proof.Machine.execCastRelease q s
  | .strike q => Sys2Proof.Machine.execStrike q s
  | .strikeComplete b => Sys2Proof.Machine.execStrikeComplete b s
  | .apertureAccess fn off len wdata ecc => Sys2Proof.Machine.execApertureAccess fn off len wdata ecc s
  | .drain fn b val => Sys2Proof.Machine.execDrain fn b val s
  | .drainTimeout b => Sys2Proof.Machine.execDrainTimeout b s
  | .freePop fn b => Sys2Proof.Machine.execFreePop fn b s
  | .mbxSend fn vf val => Sys2Proof.Machine.execMbxSend fn vf val s
  | .mbxAck fn vf val => Sys2Proof.Machine.execMbxAck fn vf val s
  | .drvVerWrite fn b val => Sys2Proof.Machine.execDrvVerWrite fn b val s
  | .runningOrderBuild b => Sys2Proof.Machine.execRunningOrderBuild b s
  | .postStepUpdate b => Sys2Proof.Machine.execPostStepUpdate b s
  | .srvPoolPush fn b pool hi => Sys2Proof.Machine.execSrvPoolPush fn b pool hi s
  | .srvPoolEnable fn b pool val => Sys2Proof.Machine.execSrvPoolEnable fn b pool val s
  | .spill b => Sys2Proof.Machine.execSpill b s
  | .budgetInterval demand => Sys2Proof.Machine.execBudgetInterval demand s
  | .opStepDone p => Sys2Proof.Machine.execOpStepDone p s
  | .intermissionFrame p => Sys2Proof.Machine.execIntermissionFrame p s
  | .paceWindow p pace => Sys2Proof.Machine.execPaceWindow p pace s
  | .pwrOvercap avg => Sys2Proof.Machine.execPwrOvercap avg s
  | .pwrCap ses watts => Sys2Proof.Machine.execPwrCap ses watts s
  | .pwrOrder ses first second third => Sys2Proof.Machine.execPwrOrder ses first second third s
  | .holdAssert t => Sys2Proof.Machine.execHoldAssert t s
  | .holdRelease t => Sys2Proof.Machine.execHoldRelease t s
  | .droopLong t => Sys2Proof.Machine.execDroopLong t s
  | .droopStorm p frac => Sys2Proof.Machine.execDroopStorm p frac s
  | .ceilingRestore p => Sys2Proof.Machine.execCeilingRestore p s
  | .thermWarn die sensor temp => Sys2Proof.Machine.execThermWarn die sensor temp s
  | .thermThrottle p temp => Sys2Proof.Machine.execThermThrottle p temp s
  | .thermHw p temp => Sys2Proof.Machine.execThermHw p temp s
  | .thermTrip die sensor temp => Sys2Proof.Machine.execThermTrip die sensor temp s
  | .regionInitDone r => Sys2Proof.Machine.execRegionInitDone r s
  | .rekeyDone r => Sys2Proof.Machine.execRekeyDone r s
  | .secRngFail test => Sys2Proof.Machine.execSecRngFail test s
  | .secPbCtlGo fn bltWin val => Sys2Proof.Machine.execSecPbCtlGo fn bltWin val s
  | .playbillSigned writeOk => Sys2Proof.Machine.execPlaybillSigned writeOk s
  | .dbgChal path => Sys2Proof.Machine.execDbgChal path s
  | .dbgResp path grant sigOk => Sys2Proof.Machine.execDbgResp path grant sigOk s
  | .dbgAccess path req ecc => Sys2Proof.Machine.execDbgAccess path req ecc s
  | .grantExpiry grant => Sys2Proof.Machine.execGrantExpiry grant s
  | .jtagTrst => Sys2Proof.Machine.execJtagTrst s
  | .resetNDeassert straps => Sys2Proof.Machine.execResetNDeassert straps s
  | .bootStage r => Sys2Proof.Machine.execBootStage r s
  | .trialTimeout => Sys2Proof.Machine.execTrialTimeout s
  | .heartbeatLapse core => Sys2Proof.Machine.execHeartbeatLapse core s
  | .coreTrap core pmp mcause => Sys2Proof.Machine.execCoreTrap core pmp mcause s
  | .restartComplete r => Sys2Proof.Machine.execRestartComplete r s
  | .tlsConnect cert => Sys2Proof.Machine.execTlsConnect cert s
  | .sessionIdle ses => Sys2Proof.Machine.execSessionIdle ses s
  | .hello ses nonce => Sys2Proof.Machine.execHello ses nonce s
  | .status ses => Sys2Proof.Machine.execStatus ses s
  | .setModnum ses hi => Sys2Proof.Machine.execSetModnum ses hi s
  | .setAddr ses addr plen gw => Sys2Proof.Machine.execSetAddr ses addr plen gw s
  | .enroll ses r sigOk => Sys2Proof.Machine.execEnroll ses r sigOk s
  | .fwStage ses off last data check => Sys2Proof.Machine.execFwStage ses off last data check s
  | .fwActivate ses force => Sys2Proof.Machine.execFwActivate ses force s
  | .fwConfirm ses => Sys2Proof.Machine.execFwConfirm ses s
  | .fwDiscard ses => Sys2Proof.Machine.execFwDiscard ses s
  | .dbgGrant ses g => Sys2Proof.Machine.execDbgGrant ses g s
  | .dbgRevoke ses grant => Sys2Proof.Machine.execDbgRevoke ses grant s
  | .playbill ses kind b nonce => Sys2Proof.Machine.execPlaybill ses kind b nonce s
  | .incRead ses first => Sys2Proof.Machine.execIncRead ses first s
  | .incSubscribe ses cls => Sys2Proof.Machine.execIncSubscribe ses cls s
  | .pbRead ses first count => Sys2Proof.Machine.execPbRead ses first count s
  | .traceSet ses comp word mask => Sys2Proof.Machine.execTraceSet ses comp word mask s
  | .boltDrain ses b save => Sys2Proof.Machine.execBoltDrain ses b save s
  | .boltReset ses b => Sys2Proof.Machine.execBoltReset ses b s
  | .boltStrike ses b overwrite => Sys2Proof.Machine.execBoltStrike ses b overwrite s
  | .moduleReset ses => Sys2Proof.Machine.execModuleReset ses s
  | .trcEnable fn b val => Sys2Proof.Machine.execTrcEnable fn b val s
  | .incIntake => Sys2Proof.Machine.execIncIntake s
  | .faultNAssert => Sys2Proof.Machine.execFaultNAssert s
  | .incTailWrite fn val => Sys2Proof.Machine.execIncTailWrite fn val s
  | .incSrcClear fn val => Sys2Proof.Machine.execIncSrcClear fn val s
  | .bltIncClear fn b val => Sys2Proof.Machine.execBltIncClear fn b val s
  | .counterSatClear fn off val => Sys2Proof.Machine.execCounterSatClear fn off val s
  | .boltResetComplete b => Sys2Proof.Machine.execBoltResetComplete b s
  | .ctxTeardown b => Sys2Proof.Machine.execCtxTeardown b s
  | .uLinkPairing p peer => Sys2Proof.Machine.execULinkPairing p peer s
  | .mirrorWrite p b space off data => Sys2Proof.Machine.execMirrorWrite p b space off data s
  | .mirCkpt fn b hi => Sys2Proof.Machine.execMirCkpt fn b hi s
  | .mirCkptAck b => Sys2Proof.Machine.execMirCkptAck b s
  | .twinOkInChange level => Sys2Proof.Machine.execTwinOkInChange level s
  | .promotion => Sys2Proof.Machine.execPromotion s
  | .syncComplete p => Sys2Proof.Machine.execSyncComplete p s
  | .cxlMemberLost cp decoder ld => Sys2Proof.Machine.execCxlMemberLost cp decoder ld s
  | .cxlRebuilt r part => Sys2Proof.Machine.execCxlRebuilt r part s
  | .pwrEnAssert => Sys2Proof.Machine.execPwrEnAssert s
  | .pwrEnDeassert => Sys2Proof.Machine.execPwrEnDeassert s
  | .vinOutOfRange mv => Sys2Proof.Machine.execVinOutOfRange mv s
  | .pwrGoodFall => Sys2Proof.Machine.execPwrGoodFall s
  | .resetNAssert => Sys2Proof.Machine.execResetNAssert s
  | .internalResetEnd straps => Sys2Proof.Machine.execInternalResetEnd straps s
  | .perst0N level => Sys2Proof.Machine.execPerst0N level s
  | .perst1N level => Sys2Proof.Machine.execPerst1N level s
  | .p12vCageLoss => Sys2Proof.Machine.execP12vCageLoss s
  | .cageInsert p watts => Sys2Proof.Machine.execCageInsert p watts s
  | .cageRemove p => Sys2Proof.Machine.execCageRemove p s
  | .pmbusWrite addr cmd => Sys2Proof.Machine.execPmbusWrite addr cmd s
  | .clearFaults addr => Sys2Proof.Machine.execClearFaults addr s
  | .timeExchange p => Sys2Proof.Machine.execTimeExchange p s
  | .ppsOutPulse rise => Sys2Proof.Machine.execPpsOutPulse rise s
  | .intermissionSlot p => Sys2Proof.Machine.execIntermissionSlot p s
  | .hostReadCompletion tag data poisoned => Sys2Proof.Machine.execHostReadCompletion tag data poisoned s
  | .space4CompletionTimeout tag => Sys2Proof.Machine.execSpace4CompletionTimeout tag s
  | .cxlCompletion cp r x ns => Sys2Proof.Machine.execCxlCompletion cp r x ns s
  | .cxlMemberReturn r part => Sys2Proof.Machine.execCxlMemberReturn r part s
  | .sceneRetireCplTmo => Sys2Proof.Machine.execSceneRetireCplTmo s
  | .vin56Rise mv => Sys2Proof.Machine.execVin56Rise mv s
  | .p12vCageApply => Sys2Proof.Machine.execP12vCageApply s
  | .thermRecover p temp => Sys2Proof.Machine.execThermRecover p temp s
  | .boothSessionClose ses => Sys2Proof.Machine.execBoothSessionClose ses s
  | .tapInstructionLoad code => Sys2Proof.Machine.execTapInstructionLoad code s
  | .powerStateD3hot fn enter => Sys2Proof.Machine.execPowerStateD3hot fn enter s

end Sys2Proof.Machine
end

