-- ==== Sys2Proof/Machine/Idle.lean ====
section
/-! DEFINITION. What passes while no command waits: stage time. -/

namespace Sys2Proof.Machine

/-- The last value of stage time, in nanoseconds: seconds 2^34 − 1, nanoseconds 999,999,999 (06 R177). -/
def stageEnd : Nat := 2 ^ 34 * 1000000000 - 1

/-- One nanosecond of stage time; counting ends at the last value (06 R176, R177), and does not begin before RESET_N is deasserted,
with a module in reset at 0 (06 R180). -/
def idle (s : State) : State :=
  if s.pins.resetN ∧ s.pins.pwrGood ∧ s.pins.inReset.isNone ∧ s.stu.time < stageEnd then { s with stu := { s.stu with time := s.stu.time + 1 } } else s

end Sys2Proof.Machine
end

