-- ==== Sys2Proof/Safety.lean ====
section
/-! DEFINITION. What claims say of a step and of a state: completion, the issue of a bundle, and the invariants that every
step is to keep. -/

namespace Sys2Proof.Machine

/-- The command completes: `exec` answers a next state. -/
def Completes (c : Instr) (s : State) : Prop := ∃ t, exec c s = .next t

/-- Bit `k` of a function's GLB_ERR_STATUS (00 R6). -/
def State.errBit (s : State) (fn : Fn) (k : Nat) : Bool :=
  if fn = 0 then bit (s.reg 0x40) k else bit (mget 0 s.vfErr fn.val).toNat k

/-! ### Bundles of a tile (03 R64, R65, R106) -/

/-- The tile site and the bundle that a command of a tile's slots spells: the own slot's opcode (03 R70, R74, R77, R79) above
its fields, and the other three slot words. -/
def bundleOf : Instr → Option (Nat × Bundle)
  | .mnop t f vs ss cs => some (t.val, ⟨f.toNat, vs.toNat, ss.toNat, cs.toNat⟩)
  | .mldw t f vs ss cs => some (t.val, ⟨0x1 * 2 ^ 27 + f.toNat, vs.toNat, ss.toNat, cs.toNat⟩)
  | .mmul t f vs ss cs => some (t.val, ⟨0x2 * 2 ^ 27 + f.toNat, vs.toNat, ss.toNat, cs.toNat⟩)
  | .mwb t f vs ss cs => some (t.val, ⟨0x3 * 2 ^ 27 + f.toNat, vs.toNat, ss.toNat, cs.toNat⟩)
  | .mzero t f vs ss cs => some (t.val, ⟨0x4 * 2 ^ 27 + f.toNat, vs.toNat, ss.toNat, cs.toNat⟩)
  | .vnop t f ms ss cs => some (t.val, ⟨ms.toNat, f.toNat, ss.toNat, cs.toNat⟩)
  | .vld t f ms ss cs => some (t.val, ⟨ms.toNat, 0x1 * 2 ^ 26 + f.toNat, ss.toNat, cs.toNat⟩)
  | .vst t f ms ss cs => some (t.val, ⟨ms.toNat, 0x2 * 2 ^ 26 + f.toNat, ss.toNat, cs.toNat⟩)
  | .vadd t f ms ss cs => some (t.val, ⟨ms.toNat, 0x8 * 2 ^ 26 + f.toNat, ss.toNat, cs.toNat⟩)
  | .vsub t f ms ss cs => some (t.val, ⟨ms.toNat, 0x9 * 2 ^ 26 + f.toNat, ss.toNat, cs.toNat⟩)
  | .vmul t f ms ss cs => some (t.val, ⟨ms.toNat, 0xa * 2 ^ 26 + f.toNat, ss.toNat, cs.toNat⟩)
  | .vfma t f ms ss cs => some (t.val, ⟨ms.toNat, 0xb * 2 ^ 26 + f.toNat, ss.toNat, cs.toNat⟩)
  | .vmax t f ms ss cs => some (t.val, ⟨ms.toNat, 0xc * 2 ^ 26 + f.toNat, ss.toNat, cs.toNat⟩)
  | .vmin t f ms ss cs => some (t.val, ⟨ms.toNat, 0xd * 2 ^ 26 + f.toNat, ss.toNat, cs.toNat⟩)
  | .vabs t f ms ss cs => some (t.val, ⟨ms.toNat, 0xe * 2 ^ 26 + f.toNat, ss.toNat, cs.toNat⟩)
  | .vneg t f ms ss cs => some (t.val, ⟨ms.toNat, 0xf * 2 ^ 26 + f.toNat, ss.toNat, cs.toNat⟩)
  | .vsel t f ms ss cs => some (t.val, ⟨ms.toNat, 0x10 * 2 ^ 26 + f.toNat, ss.toNat, cs.toNat⟩)
  | .vbcst t f ms ss cs => some (t.val, ⟨ms.toNat, 0x11 * 2 ^ 26 + f.toNat, ss.toNat, cs.toNat⟩)
  | .vcmplt t f ms ss cs => some (t.val, ⟨ms.toNat, 0x12 * 2 ^ 26 + f.toNat, ss.toNat, cs.toNat⟩)
  | .vcmpeq t f ms ss cs => some (t.val, ⟨ms.toNat, 0x13 * 2 ^ 26 + f.toNat, ss.toNat, cs.toNat⟩)
  | .vcmple t f ms ss cs => some (t.val, ⟨ms.toNat, 0x14 * 2 ^ 26 + f.toNat, ss.toNat, cs.toNat⟩)
  | .vexp2 t f ms ss cs => some (t.val, ⟨ms.toNat, 0x18 * 2 ^ 26 + f.toNat, ss.toNat, cs.toNat⟩)
  | .vlog2 t f ms ss cs => some (t.val, ⟨ms.toNat, 0x19 * 2 ^ 26 + f.toNat, ss.toNat, cs.toNat⟩)
  | .vrcp t f ms ss cs => some (t.val, ⟨ms.toNat, 0x1a * 2 ^ 26 + f.toNat, ss.toNat, cs.toNat⟩)
  | .vrsq t f ms ss cs => some (t.val, ⟨ms.toNat, 0x1b * 2 ^ 26 + f.toNat, ss.toNat, cs.toNat⟩)
  | .vtanh t f ms ss cs => some (t.val, ⟨ms.toNat, 0x1c * 2 ^ 26 + f.toNat, ss.toNat, cs.toNat⟩)
  | .vrsum t f ms ss cs => some (t.val, ⟨ms.toNat, 0x20 * 2 ^ 26 + f.toNat, ss.toNat, cs.toNat⟩)
  | .vrmax t f ms ss cs => some (t.val, ⟨ms.toNat, 0x21 * 2 ^ 26 + f.toNat, ss.toNat, cs.toNat⟩)
  | .vrmin t f ms ss cs => some (t.val, ⟨ms.toNat, 0x22 * 2 ^ 26 + f.toNat, ss.toNat, cs.toNat⟩)
  | .snop t f ms vs cs => some (t.val, ⟨ms.toNat, vs.toNat, f.toNat, cs.toNat⟩)
  | .sq t f ms vs cs => some (t.val, ⟨ms.toNat, vs.toNat, 0x1 * 2 ^ 28 + f.toNat, cs.toNat⟩)
  | .scfg t f ms vs cs => some (t.val, ⟨ms.toNat, vs.toNat, 0x2 * 2 ^ 28 + f.toNat, cs.toNat⟩)
  | .cnop t f ms vs ss => some (t.val, ⟨ms.toNat, vs.toNat, ss.toNat, f.toNat⟩)
  | .br t f ms vs ss => some (t.val, ⟨ms.toNat, vs.toNat, ss.toNat, 0x1 * 2 ^ 26 + f.toNat⟩)
  | .brz t f ms vs ss => some (t.val, ⟨ms.toNat, vs.toNat, ss.toNat, 0x2 * 2 ^ 26 + f.toNat⟩)
  | .brnz t f ms vs ss => some (t.val, ⟨ms.toNat, vs.toNat, ss.toNat, 0x3 * 2 ^ 26 + f.toNat⟩)
  | .loop t f ms vs ss => some (t.val, ⟨ms.toNat, vs.toNat, ss.toNat, 0x4 * 2 ^ 26 + f.toNat⟩)
  | .waitsem t f ms vs ss => some (t.val, ⟨ms.toNat, vs.toNat, ss.toNat, 0x5 * 2 ^ 26 + f.toNat⟩)
  | .semsig t f ms vs ss => some (t.val, ⟨ms.toNat, vs.toNat, ss.toNat, 0x6 * 2 ^ 26 + f.toNat⟩)
  | .waitcue t f ms vs ss => some (t.val, ⟨ms.toNat, vs.toNat, ss.toNat, 0x7 * 2 ^ 26 + f.toNat⟩)
  | .fence t f ms vs ss => some (t.val, ⟨ms.toNat, vs.toNat, ss.toNat, 0x8 * 2 ^ 26 + f.toNat⟩)
  | .tmark t f ms vs ss => some (t.val, ⟨ms.toNat, vs.toNat, ss.toNat, 0x9 * 2 ^ 26 + f.toNat⟩)
  | .seed t f ms vs ss => some (t.val, ⟨ms.toNat, vs.toNat, ss.toNat, 0xa * 2 ^ 26 + f.toNat⟩)
  | .rstat t f ms vs ss => some (t.val, ⟨ms.toNat, vs.toNat, ss.toNat, 0xb * 2 ^ 26 + f.toNat⟩)
  | .cstat t f ms vs ss => some (t.val, ⟨ms.toNat, vs.toNat, ss.toNat, 0xc * 2 ^ 26 + f.toNat⟩)
  | .seta t f ms vs ss => some (t.val, ⟨ms.toNat, vs.toNat, ss.toNat, 0xd * 2 ^ 26 + f.toNat⟩)
  | .setst t f ms vs ss => some (t.val, ⟨ms.toNat, vs.toNat, ss.toNat, 0xe * 2 ^ 26 + f.toNat⟩)
  | .adda t f ms vs ss => some (t.val, ⟨ms.toNat, vs.toNat, ss.toNat, 0xf * 2 ^ 26 + f.toNat⟩)
  | .seti t f ms vs ss => some (t.val, ⟨ms.toNat, vs.toNat, ss.toNat, 0x10 * 2 ^ 26 + f.toNat⟩)
  | .addi t f ms vs ss => some (t.val, ⟨ms.toNat, vs.toNat, ss.toNat, 0x11 * 2 ^ 26 + f.toNat⟩)
  | .ldi t f ms vs ss => some (t.val, ⟨ms.toNat, vs.toNat, ss.toNat, 0x12 * 2 ^ 26 + f.toNat⟩)
  | .tinfo t f ms vs ss => some (t.val, ⟨ms.toNat, vs.toNat, ss.toNat, 0x13 * 2 ^ 26 + f.toNat⟩)
  | .bow t f ms vs ss => some (t.val, ⟨ms.toNat, vs.toNat, ss.toNat, 0x14 * 2 ^ 26 + f.toNat⟩)
  | .stepend t f ms vs ss => some (t.val, ⟨ms.toNat, vs.toNat, ss.toNat, 0x15 * 2 ^ 26 + f.toNat⟩)
  | .halt t f ms vs ss => some (t.val, ⟨ms.toNat, vs.toNat, ss.toNat, 0x16 * 2 ^ 26 + f.toNat⟩)
  | _ => none

/-- The tile may issue and the bundle stands at its program counter. -/
def AtPc (s : State) (t : Nat) (b : Bundle) : Prop :=
  s.mayIssue t = true ∧ (s.tile t).run = .running ∧ (s.tile t).bundle = b

/-- The bundle issues: it stands at the program counter of a tile of bolt `k`, no slot of it faults and none holds it. -/
def Issues (s : State) (t k : Nat) (b : Bundle) : Prop :=
  AtPc s t b ∧ s.tileBolt t = some k ∧ bundleFaults (s.tile t) (s.boltHas k) (s.awaited k t) b = [] ∧
    heldBy (s.tile t) b = false

/-- The module after a bundle whose control word is `w` has left its tile as `x`: the signal or trace mark of the control
slot goes out; then a later descriptor's fault `q`, if any, or the check that the program counter is in the stream. -/
def issued (s : State) (t k : Nat) (x : Tile) (q : Option TFault) (w : Nat) : State :=
  let u := (s.setTile t x).controlOut k t (s.tile t) w
  match q with
  | some f => u.tileFault t f
  | none => u.settle t (s.tile t).pc

/-- Whenever the command's bundle issues, the command completes, and its tile is then as `P` says. -/
def Runs (c : Instr) (s : State) (t k : Nat) (b : Bundle) (P : Tile → Prop) : Prop :=
  Issues s t k b → ∃ x q, exec c s = .next (issued s t k x q b.c) ∧ P x

/-- The lanes of register `d` of a tile after an elementwise operation under mask `m`: an unmasked lane holds its result and
its flags are set, a masked lane keeps its value (03 R74, 02 R500). -/
def LanesAre (t0 : Tile) (d m : Nat) (r : Nat → Word × Nat) (x : Tile) : Prop :=
  ∀ l, l < 256 →
    if bit (t0.mask m) l = true then
      x.lane d l = (r l).1 ∧ x.status &&& BitVec.ofNat 32 (r l).2 = BitVec.ofNat 32 (r l).2
    else x.lane d l = t0.lane d l

/-! ### Booth messages (13 R432 to R435) -/

/-- The session and the rule of a booth message: its TYPE, the role it needs (0 any, 1 operator, 2 admin), and whether it is
served in the halted state and for an unenrolled session (13 R433, R435). -/
def boothRule : Instr → Option (SessId × MsgRule)
  | .hello ses _ => some (ses, ⟨0x01, 0, true, true⟩)
  | .status ses => some (ses, ⟨0x02, 0, true, true⟩)
  | .setModnum ses _ => some (ses, ⟨0x03, 2, false, false⟩)
  | .setAddr ses _ _ _ => some (ses, ⟨0x04, 2, false, false⟩)
  | .enroll ses _ _ => some (ses, ⟨0x10, 2, false, true⟩)
  | .loomPut ses _ _ => some (ses, ⟨0x20, 2, false, false⟩)
  | .loomCommit ses _ _ => some (ses, ⟨0x21, 2, false, false⟩)
  | .loomCancel ses _ => some (ses, ⟨0x22, 2, false, false⟩)
  | .loomRead ses _ => some (ses, ⟨0x23, 0, false, false⟩)
  | .pwrCap ses _ => some (ses, ⟨0x30, 1, false, false⟩)
  | .pwrOrder ses _ _ _ => some (ses, ⟨0x31, 1, false, false⟩)
  | .fwStage ses _ _ _ _ => some (ses, ⟨0x40, 2, false, false⟩)
  | .fwActivate ses _ => some (ses, ⟨0x41, 2, false, false⟩)
  | .fwConfirm ses => some (ses, ⟨0x42, 2, false, false⟩)
  | .fwDiscard ses => some (ses, ⟨0x43, 2, false, false⟩)
  | .dbgGrant ses _ => some (ses, ⟨0x50, 2, false, false⟩)
  | .dbgRevoke ses _ => some (ses, ⟨0x51, 2, false, false⟩)
  | .playbill ses _ _ _ => some (ses, ⟨0x60, 0, false, true⟩)
  | .incRead ses _ => some (ses, ⟨0x70, 0, true, false⟩)
  | .incSubscribe ses _ => some (ses, ⟨0x71, 0, false, false⟩)
  | .pbRead ses _ _ => some (ses, ⟨0x72, 0, true, false⟩)
  | .traceSet ses _ _ _ => some (ses, ⟨0x73, 1, false, false⟩)
  | .boltDrain ses _ _ => some (ses, ⟨0x80, 1, false, false⟩)
  | .boltReset ses _ => some (ses, ⟨0x81, 1, false, false⟩)
  | .boltStrike ses _ _ => some (ses, ⟨0x82, 2, false, false⟩)
  | .moduleReset ses => some (ses, ⟨0x90, 2, true, false⟩)
  | _ => none

/-- A message of a session passes the checks that stand before its own (13 R432 to R435). -/
def BoothHears (s : State) (ses : SessId) (m : MsgRule) (x : BoothSess) : Prop :=
  s.boothUp = true ∧ s.boothSess ses.val = some x ∧ x.unanswered < 16 ∧ (x.hello = true ∨ m.type = 1) ∧
    (s.inc.halted = false ∨ m.inHalt = true) ∧
    (s.fw.bootStopped = false ∨ m.type = 1 ∨ m.type = 2 ∨ m.type = 0x60) ∧ m.mayRole x.role = true

/-- The state once the session's message has been noted. -/
def State.heard (s : State) (ses : SessId) (x : BoothSess) : State := s.setBoothSess ses.val (some { x with at_ := s.now })

/-! ### Host commands (09 R295 to R297) -/

/-- The writing function, the interface, the reserved bits and the opcode of a command written to CMD. -/
def hostRule : Instr → Option (Fn × Bool × Bolt × BitVec 23 × Nat)
  | .qCreate fn hif b rsv => some (fn, hif, b, rsv, 0x01)
  | .qDestroy fn hif b rsv => some (fn, hif, b, rsv, 0x02)
  | .qStop fn hif b rsv => some (fn, hif, b, rsv, 0x03)
  | .qStart fn hif b rsv => some (fn, hif, b, rsv, 0x04)
  | .qRead fn hif b rsv => some (fn, hif, b, rsv, 0x05)
  | .fenceCreate fn hif b rsv => some (fn, hif, b, rsv, 0x10)
  | .fenceDestroy fn hif b rsv => some (fn, hif, b, rsv, 0x11)
  | .fenceAbandon fn hif b rsv => some (fn, hif, b, rsv, 0x12)
  | .fenceRead fn hif b rsv => some (fn, hif, b, rsv, 0x13)
  | .objCreate fn hif b rsv => some (fn, hif, b, rsv, 0x20)
  | .objHostInc fn hif b rsv => some (fn, hif, b, rsv, 0x21)
  | .objHostDec fn hif b rsv => some (fn, hif, b, rsv, 0x22)
  | .objRead fn hif b rsv => some (fn, hif, b, rsv, 0x23)
  | .fenceShare fn hif b rsv => some (fn, hif, b, rsv, 0x30)
  | .quota fn hif b rsv => some (fn, hif, b, rsv, 0x31)
  | _ => none

/-- A command passes the checks that stand before its own: the function may write the interface, stagehand 0 serves, no
reserved bit is set, and the reserved area is there (09 R297, 13 R418). -/
def CommandRuns (s : State) (fn : Fn) (hif : Bool) (b : Bolt) (rsv : BitVec 23) : Prop :=
  s.live = true ∧ s.mayCommand fn hif b = true ∧ s.serving 0 = true ∧ rsv = 0 ∧ bit (s.reg 0x10000) 0 = true

end Sys2Proof.Machine
end

