-- ==== Sys2Proof/Certificates/Slice0/Obligations.lean ====
section
/-! DEFINITION. The statements about the model that are to be proved. -/

open Sys2Proof Sys2Proof.Machine

/-- A step takes the command at the front of the queue and runs it with the queue's rest. The queue is the model's own
(log entry 1). -/
def Obligations.StepRunsFront : Prop :=
  ∀ (c : Instr) (rest : List Instr) (s : State), s.pending = c :: rest → step s = exec c { s with pending := rest }

/-- The tick of an empty queue (log entry 2); stage time counts nanoseconds up to its last value, and stands while the module has no
power, is held in reset or is resetting (06 R176, R177, R180). -/
def Obligations.StepIdles : Prop :=
  ∀ s : State, s.pending = [] →
    step s = .next { s with stu := { s.stu with
      time := if s.pins.resetN = true ∧ s.pins.pwrGood = true ∧ s.pins.inReset = none ∧ s.stu.time < 2 ^ 34 * 1000000000 - 1 then
        s.stu.time + 1 else s.stu.time } }

/-- Every error of the spec is an effect (an incident, a status, a refusal answered to the requester), never a stop.
Where the spec leaves a choice, the clauses follow the model's: log entry 3. -/
def Obligations.EveryCommandCompletes : Prop := ∀ (c : Instr) (s : State), Completes c s

/-- A command's effect is on everything but the queue.
Where the spec leaves a choice, the clauses follow the model's: log entry 1. -/
def Obligations.QueueKept : Prop :=
  ∀ (c : Instr) (s t : State), exec c s = .next t → t.pending = s.pending

/-- Whatever command is at the front, or none.
Where the spec leaves a choice, the clauses follow the model's: log entries 6 and 14. -/
def Obligations.MemoryFormKept : Prop :=
  ∀ s t : State, s.hbm.wf = true → s.cxl.wf = true → step s = .next t → t.hbm.wf = true ∧ t.cxl.wf = true

/-- Fuses go one way: SVN and enrolment counters never decrease; the dark sites, the trim and the identity never change.
Where the spec leaves a choice, the clauses follow the model's: log entry 16. -/
def Obligations.FusesOneWay : Prop :=
  ∀ s t : State, step s = .next t →
    s.fw.fuseSvn ≤ t.fw.fuseSvn ∧ s.fw.enrolCnt ≤ t.fw.enrolCnt ∧ t.fw.dark = s.fw.dark ∧ t.fw.optMv = s.fw.optMv ∧
      t.fw.serial = s.fw.serial ∧ t.fw.eng = s.fw.eng

/-- Reset values that the spec gives (06 R180; 00 GLB_ID; 08 R271; 01 R23; 07 R213; 11 PWR_OP_Pp; 14 INC registers), and the
memories' canonical form.
Where the spec leaves a choice, the clauses follow the model's: log entries 13 and 14. -/
def Obligations.ResetValues : Prop :=
  let s := State.reset
  s.stu.time = 0 ∧ s.stu.mode = .acquire ∧ s.stu.errBound = 255 ∧ s.stu.alignOk = false ∧
  s.readWord 0 = 0x02A12160 ∧ s.loom.live.num = 0 ∧ s.loom.live.bolts = [] ∧ s.loom.committed = false ∧
  (∀ b, (s.ctx b).mode = .empty) ∧ s.cues = [] ∧ (∀ p, (s.port p).mode = .down) ∧ (∀ p, (s.panel p).op = 15) ∧
  s.inc.ring = [] ∧ s.inc.seq = 1 ∧ s.inc.halted = false ∧ s.hbm.wf = true ∧ s.cxl.wf = true ∧ s.pending = []

/-- 00 R5, R6, R8: the fields of one register after a write of `val`, and the error bits. A GO with a reserved opcode triggers no
operation and ends FORMAT (09 R297). -/
def Obligations.RegisterWriteByType : Prop :=
  ∀ (fn : Fn) (off o : Nat) (val : BitVec 64) (s : State) (r : RegDef),
    s.regsUp fn off = true → off % 4 = 0 → regPlace s fn off = .map o → regDef o = some r → mayWrite fn r = true →
    ownRow o = false → isPairLo o = false → isPairHi o = false → o ≠ 0x78014 →
    ¬ (0x100000 ≤ o ∧ o < 0x200000 ∧ o % 0x4000 = 0xF18) →
    let w := val.toNat % 2 ^ 32
    (¬ (isCmd o = true ∧ bit w 31 = true ∧ cmdOps.contains (w % 256) = false) →
      ∃ t, exec (.registerWrite fn off false val) s = .next t ∧
      (∀ f ∈ r.fields,
        (f.kind = .rw → f.get (t.reg o) = if f.ok (f.get w) = true then f.get w else f.get (s.reg o)) ∧
        (f.kind = .rwl → f.get (t.reg o) =
          if s.loom.committed = false ∧ f.ok (f.get w) = true then f.get w else f.get (s.reg o)) ∧
        (f.kind = .ro ∨ f.kind = .wo → f.get (t.reg o) = f.get (s.reg o)) ∧
        (f.kind = .w1c → f.get (t.reg o) = f.get (s.reg o) - (f.get (s.reg o) &&& f.get w))) ∧
      ((∃ f ∈ r.fields, f.bad s.loom.committed w = true) → t.errBit fn 3 = true) ∧
      ((s.loom.committed = true ∧ ∃ f ∈ r.fields, f.kind = .rwl) → t.errBit fn 2 = true) ∧
      (∀ o', o' ≠ o → o' ≠ 0x40 → t.reg o' = s.reg o')) ∧
    (isCmd o = true → bit w 31 = true → cmdOps.contains (w % 256) = false → s.serving 0 = true → bit (s.reg 0x10000) 0 = true →
      ∃ t, exec (.registerWrite fn off false val) s = .next t ∧ t.reg o = w % 256 ∧ bits (t.reg (o + 4)) 15 8 = 1 ∧
        bit (t.reg (o + 4)) 1 = true ∧ (∀ o', o' ≠ o → o' ≠ o + 4 → t.reg o' = s.reg o'))

/-- 00 R6; 05 R158. -/
def Obligations.BadAccesses : Prop :=
  ∀ (fn : Fn) (off : Nat) (s : State), s.regsUp fn off = true →
    (regPlace s fn off = .absent →
      exec (.unimplementedAccess fn off true) s = .next (s.setErr fn 0) ∧
      exec (.unimplementedAccess fn off false) s = .next ((s.setErr fn 0).emit (.readData fn.val off 0)) ∧
      (off % 4 = 0 → ∀ val, exec (.registerWrite fn off false val) s = .next (s.setErr fn 0))) ∧
    exec (.unsupportedWidthAccess fn off true) s = .next (s.setErr fn 1) ∧
    exec (.unsupportedWidthAccess fn off false) s = .next ((s.setErr fn 1).emit (.readData fn.val off 0)) ∧
    (off % 4 ≠ 0 → ∀ wide val, exec (.registerWrite fn off wide val) s = .next (s.setErr fn 1)) ∧
    (∀ o val, off % 4 = 0 → regPlace s fn off = .map o → off % 8 ≠ 0 ∨ (isPairLo o = false ∧ invPair o = false) →
      exec (.registerWrite fn off true val) s = .next (s.setErr fn 1)) ∧
    (∀ k, k < 4 → (s.setErr fn k).errBit fn k = true ∧ (∀ o, o ≠ 0x40 → (s.setErr fn k).reg o = s.reg o) ∧
      ∀ j, j < 4 → s.errBit fn j = true → (s.setErr fn k).errBit fn j = true)

/-- 00 R5 to R7. What a `_HI` write finds without a held `_LO` write is the model's choice.
Where the spec leaves a choice, the clauses follow the model's: log entries 20 and 94. -/
def Obligations.PairsReadCoherently : Prop :=
  ∀ (fn : Fn) (off o : Nat) (s : State), s.regsUp fn off = true →
    (s.pairAt fn off = some o →
      exec (.pairLoRead fn off false) s = .next (({ s with
        latch := mset none s.latch fn.val (some ⟨off, BitVec.ofNat 32 (s.readWord (o + 4))⟩) }).emit
          (.readData fn.val off (BitVec.ofNat 64 (s.readWord o)))) ∧
      (off % 8 = 0 → exec (.pairLoRead fn off true) s =
        .next (s.emit (.readData fn.val off (BitVec.ofNat 64 (s.readWord o + 2 ^ 32 * s.readWord (o + 4))))))) ∧
    (s.pairAt fn off = none → off % 4 = 0 → s.hiAt fn off = some o →
      (∀ l, mget none s.latch fn.val = some l → l.off + 4 = off → exec (.pairLoRead fn off false) s =
        .next (({ s with latch := mset none s.latch fn.val none }).emit (.readData fn.val off (BitVec.ofNat 64 l.hi.toNat)))) ∧
      ((∀ l, mget none s.latch fn.val = some l → l.off + 4 ≠ off) → exec (.pairLoRead fn off false) s =
        .next (s.emit (.readData fn.val off (BitVec.ofNat 64 (s.readWord o)))))) ∧
    (s.pairAt fn off = none → off % 4 = 0 → s.hiAt fn off = none → ∀ v, s.readPlace fn off (regPlace s fn off) = some v →
      exec (.pairLoRead fn off false) s = .next
        ((if regPlace s fn off = .absent then s.setErr fn 0 else s).emit (.readData fn.val off (BitVec.ofNat 64 v)))) ∧
    (∀ (r : RegDef) (val : Word), regPlace s fn off = .map o → regDef o = some r → isPairLo o = true →
      ownRow o = false → mayWrite fn r = true → (r.attr = .pf ∨ r.attr = .kernel) →
      (o = 0x10000 → bit (s.reg 0x10000) 0 = true → exec (.pairLoWrite fn off val) s = .next (s.setErr fn 2)) ∧
      (¬ (o = 0x10000 ∧ bit (s.reg 0x10000) 0 = true) → exec (.pairLoWrite fn off val) s =
        .next { s with loHeld := mset none s.loHeld (heldKey fn o) (some val) })) ∧
    (∀ (r : RegDef) (val : BitVec 64), off % 4 = 0 → regPlace s fn off = .map o → regDef o = some r → isPairLo o = false →
      isPairHi o = true → ownRow o = false → mayWrite fn r = true → (r.attr = .pf ∨ r.attr = .kernel) →
      (∀ w, mget none s.loHeld (heldKey fn (o - 4)) = some w → exec (.registerWrite fn off false val) s =
        .next (({ s with loHeld := mset none s.loHeld (heldKey fn (o - 4)) none }).writePair fn (o - 4) w.toNat
          (val.toNat % 2 ^ 32))) ∧
      (mget none s.loHeld (heldKey fn (o - 4)) = none → exec (.registerWrite fn off false val) s =
        .next (s.writePair fn (o - 4) (s.loIdle (o - 4)) (val.toNat % 2 ^ 32))))

/-- 03 R65, R66, R106.
Where the spec leaves a choice, the clauses follow the model's: log entry 22. -/
def Obligations.BundleIssue : Prop :=
  ∀ (c : Instr) (t : Nat) (b : Bundle) (s : State), bundleOf c = some (t, b) →
    (¬ AtPc s t b → exec c s = .next s) ∧
    (∀ k, AtPc s t b → s.tileBolt t = some k →
      (∀ f r, bundleFaults (s.tile t) (s.boltHas k) (s.awaited k t) b = f :: r → exec c s = .next (s.tileFault t f)) ∧
      (bundleFaults (s.tile t) (s.boltHas k) (s.awaited k t) b = [] → heldBy (s.tile t) b = true →
        exec c s = .next (s.setTile t { s.tile t with run := .heldIssue }))) ∧
    (∀ k, Runs c s t k b (fun _ => True)) ∧
    (∀ k, Issues s t k b → b.c / 2 ^ 26 ≠ 6 → b.c / 2 ^ 26 ≠ 9 → b.s / 2 ^ 28 ≠ 1 →
      ∃ x, exec c s = .next ((s.setTile t x).settle t (s.tile t).pc)) ∧
    (∀ n, ¬ ((s.tile t).run = .running ∧ (s.tile t).streamLen ≤ (s.tile t).pc) → s.settle t n = s)

/-- 03 R106, with the report of 14 R441.
Where the spec leaves a choice, the clauses follow the model's: log entry 22. -/
def Obligations.TileFaultStopsIssue : Prop :=
  ∀ (s : State) (t : Nat) (f : TFault), (s.src t).pend = none →
    let u := s.tileFault t f
    (u.tile t).run = .stopped ∧ (∀ k d, d ∈ ((u.tile t).stream k).queue → d.phase ≠ .queued) ∧
    (u.tile t).aReg = (s.tile t).aReg ∧ (u.tile t).iReg = (s.tile t).iReg ∧ (u.tile t).vReg = (s.tile t).vReg ∧
    (u.tile t).mReg = (s.tile t).mReg ∧ (u.tile t).spool = (s.tile t).spool ∧ (u.tile t).acc = (s.tile t).acc ∧
    (u.tile t).pc = (s.tile t).pc ∧
    ∃ r, (u.src t).pend = some r ∧ r.code = f.code ∧ r.cls = 2 ∧ r.unit_ = t ∧ r.bolt = s.tileBolt t ∧
      r.arg0 = BitVec.ofNat 64 f.a0 ∧ r.arg1 = BitVec.ofNat 64 f.a1 ∧ r.arg2 = BitVec.ofNat 64 f.a2 ∧
      r.scene = s.loom.live.num ∧ r.time = s.time

/-- 03 R70 to R73, 02 R42, R48 to R52.
Where the spec leaves a choice, the clauses follow the model's: log entries 22, 23 and 27. -/
def Obligations.MatrixSlot : Prop :=
  ∀ (t : Site) (f : BitVec 27) (vs ss cs : Word) (s : State) (k : Nat),
    let t0 := s.tile t.val
    let w := f.toNat
    let b := fun op => (⟨op * 2 ^ 27 + w, vs.toNat, ss.toNat, cs.toNat⟩ : Bundle)
    Runs (.mnop t f vs ss cs) s t.val k (b 0) (fun x => x.acc = t0.acc ∧ x.w0 = t0.w0 ∧ x.w1 = t0.w1) ∧
    Runs (.mldw t f vs ss cs) s t.val k (b 1) (fun x =>
      x.acc = t0.acc ∧ (x.wbuf (bits w 26 26)).fmt = some (BitVec.ofNat 4 (bits w 25 22)) ∧
      x.a (bits w 21 18) = (((t0.a (bits w 21 18) : Int) + 128 * t0.stepOf (bits w 21 18)) % 2 ^ 24).toNat ∧
      ∀ j, j < 128 → (x.wbuf (bits w 26 26)).elems[j]? =
        some (readElems (bits w 25 22) (redLen (bits w 25 22))
          (t0.row (bits w 21 18) j (rowBytes (bits w 25 22) (redLen (bits w 25 22)))) []).1) ∧
    Runs (.mmul t f vs ss cs) s t.val k (b 2) (fun x =>
      x.w0 = t0.w0 ∧ x.w1 = t0.w1 ∧
      ∀ wf r j e sc, (t0.wbuf (bits w 26 26)).fmt = some wf →
        (t0.wbuf (bits w 26 26)).elems.length = 128 → (t0.wbuf (bits w 26 26)).scales.length = 128 → r ≤ bits w 5 0 → j < 128 →
        (t0.wbuf (bits w 26 26)).elems[j]? = some e → (t0.wbuf (bits w 26 26)).scales[j]? = some sc →
        x.accAt (bits w 16 6 + r) j =
          (beatColumn (bits w 25 22 == 4) (t0.accAt (bits w 16 6 + r) j)
            (rowValues (bits w 25 22) (readElems (bits w 25 22) (redLen wf.toNat)
              (t0.row (bits w 21 18) r (actBytes (bits w 25 22) (t0.wbuf (bits w 26 26)))) []).1 [])
            (rowValues wf.toNat e sc)).1) ∧
    Runs (.mwb t f vs ss cs) s t.val k (b 3) (fun x =>
      x.w0 = t0.w0 ∧ x.w1 = t0.w1 ∧
      (bit w 16 = false → x.acc = t0.acc) ∧
      (bit w 16 = true → ∀ r j, r ≤ bits w 4 0 → j < 128 → x.accAt (bits w 15 5 + r) j = 0) ∧
      (vs.toNat / 2 ^ 26 ≠ 2 → ∀ r, r ≤ bits w 4 0 →
        (∀ r', r < r' → r' ≤ bits w 4 0 →
          t0.rowAddr (bits w 20 17) r + rowBytes (bits w 26 23) 128 ≤ t0.rowAddr (bits w 20 17) r' ∨
          t0.rowAddr (bits w 20 17) r' + rowBytes (bits w 26 23) 128 ≤ t0.rowAddr (bits w 20 17) r) →
        x.spool.bytes (t0.rowAddr (bits w 20 17) r) (rowBytes (bits w 26 23) 128) =
          (List.range 128).flatMap (fun j => leBytes (elemBits (bits w 26 23) / 8)
            (narrow (bits w 26 23)
              ((t0.roundings (s.localNo t.val) (bits w 26 23) (bits w 22 21) ((bits w 4 0 + 1) * 128)).1.getD (r * 128 + j) .rne)
              (t0.accAt (bits w 15 5 + r) j)).1))) ∧
    Runs (.mzero t f vs ss cs) s t.val k (b 4) (fun x =>
      x.w0 = t0.w0 ∧ x.w1 = t0.w1 ∧
      (∀ r j, r ≤ bits w 15 5 → j < 128 → x.accAt (bits w 26 16 + r) j = 0) ∧
      ∀ a, a < bits w 26 16 * 512 ∨ (bits w 26 16 + bits w 15 5 + 1) * 512 ≤ a → x.acc.read a = t0.acc.read a)

/-- 03 R74, 02 R30, R55, R57, R500. -/
def Obligations.VectorLanes : Prop :=
  ∀ (t : Site) (f : BitVec 26) (ms ss cs : Word) (s : State) (k : Nat),
    let t0 := s.tile t.val
    let w := f.toNat
    let b := fun op => (⟨ms.toNat, op * 2 ^ 26 + w, ss.toNat, cs.toNat⟩ : Bundle)
    let x1 := fun (g : Word → Word × Nat) => LanesAre t0 (vd w) (vmask w) (fun l => g (t0.lane (va w) l))
    let x2 := fun (g : Word → Word → Word × Nat) =>
      LanesAre t0 (vd w) (vmask w) (fun l => g (t0.lane (va w) l) (t0.lane (vb w) l))
    Runs (.vadd t f ms ss cs) s t.val k (b 0x08) (x2 fpAdd) ∧ Runs (.vsub t f ms ss cs) s t.val k (b 0x09) (x2 fpSub) ∧
    Runs (.vmul t f ms ss cs) s t.val k (b 0x0A) (x2 fpMul) ∧
    Runs (.vfma t f ms ss cs) s t.val k (b 0x0B) (LanesAre t0 (vd w) (vmask w)
      (fun l => fpFma (t0.lane (va w) l) (t0.lane (vb w) l) (t0.lane (vc w) l))) ∧
    Runs (.vmax t f ms ss cs) s t.val k (b 0x0C) (x2 fpMax) ∧ Runs (.vmin t f ms ss cs) s t.val k (b 0x0D) (x2 fpMin) ∧
    Runs (.vabs t f ms ss cs) s t.val k (b 0x0E) (x1 (fun a =>
      if (fv a).isNan = true then (0x7FC00000, 32) else (a &&& 0x7FFFFFFF, 0))) ∧
    Runs (.vneg t f ms ss cs) s t.val k (b 0x0F) (x1 (fun a =>
      if (fv a).isNan = true then (0x7FC00000, 32) else (a ^^^ 0x80000000, 0))) ∧
    Runs (.vexp2 t f ms ss cs) s t.val k (b 0x18) (x1 fpExp2) ∧ Runs (.vlog2 t f ms ss cs) s t.val k (b 0x19) (x1 fpLog2) ∧
    Runs (.vrcp t f ms ss cs) s t.val k (b 0x1A) (x1 fpRcp) ∧ Runs (.vrsq t f ms ss cs) s t.val k (b 0x1B) (x1 fpRsqrt) ∧
    Runs (.vtanh t f ms ss cs) s t.val k (b 0x1C) (x1 fpTanh)

/-- 03 R74, R75; 02 R54, R55. -/
def Obligations.VectorMoves : Prop :=
  ∀ (t : Site) (f : BitVec 26) (ms ss cs : Word) (s : State) (k : Nat),
    let t0 := s.tile t.val
    let w := f.toNat
    let mk := t0.mask (vmask w)
    let b := fun op => (⟨ms.toNat, op * 2 ^ 26 + w, ss.toNat, cs.toNat⟩ : Bundle)
    let cmp := fun (p : Int → Bool) (x : Tile) => ∀ l, l < 256 → bit (x.mask (bits w 22 21)) l =
      if bit mk l = true then
        !(fv (t0.lane (va w) l)).isNan && !(fv (t0.lane (vb w) l)).isNan &&
          p (fvCmp (fv (t0.lane (va w) l)) (fv (t0.lane (vb w) l)))
      else bit (t0.mask (bits w 22 21)) l
    let red := fun (g : Word → Word → Word × Nat) (ident : Word) (x : Tile) => ∀ l, l < 256 → x.lane (vd w) l =
      if bit mk l = true then
        (tree g 8 ((List.range 256).map (fun j => if bit mk j = true then t0.lane (va w) j else ident))).1.getD 0 0
      else t0.lane (vd w) l
    Runs (.vnop t f ms ss cs) s t.val k (b 0) (fun x => x.vReg = t0.vReg ∧ x.mReg = t0.mReg) ∧
    Runs (.vsel t f ms ss cs) s t.val k (b 0x10) (fun x => ∀ l, l < 256 →
      x.lane (vd w) l = if bit mk l = true then t0.lane (va w) l else t0.lane (vb w) l) ∧
    Runs (.vbcst t f ms ss cs) s t.val k (b 0x11) (fun x => ∀ l, l < 256 →
      x.lane (vd w) l = if bit mk l = true then t0.lane (va w) (bits w 15 8) else t0.lane (vd w) l) ∧
    Runs (.vcmplt t f ms ss cs) s t.val k (b 0x12) (cmp (fun c => decide (c < 0))) ∧
    Runs (.vcmpeq t f ms ss cs) s t.val k (b 0x13) (cmp (fun c => decide (c = 0))) ∧
    Runs (.vcmple t f ms ss cs) s t.val k (b 0x14) (cmp (fun c => decide (c ≤ 0))) ∧
    Runs (.vrsum t f ms ss cs) s t.val k (b 0x20) (red fpAddRaw 0x80000000) ∧
    Runs (.vrmax t f ms ss cs) s t.val k (b 0x21) (red fpMax 0xFF800000) ∧
    Runs (.vrmin t f ms ss cs) s t.val k (b 0x22) (red fpMin 0x7F800000)

/-- 03 R74, R76; 02 R28, R51, R52.
Where the spec leaves a choice, the clauses follow the model's: log entries 22 and 23. -/
def Obligations.VectorMemory : Prop :=
  ∀ (t : Site) (f : BitVec 26) (ms ss cs : Word) (s : State) (k : Nat),
    let t0 := s.tile t.val
    let w := f.toNat
    let fm := bits w 20 17
    let aa := bits w 16 13
    let b := fun op => (⟨ms.toNat, op * 2 ^ 26 + w, ss.toNat, cs.toNat⟩ : Bundle)
    let n := elemBits fm / 8
    Runs (.vld t f ms ss cs) s t.val k (b 1) (fun x =>
      x.a aa = (((t0.a aa : Int) + t0.stepOf aa) % 2 ^ 24).toNat ∧
      let e := readElems fm 256 (t0.row aa 0 (rowBytes fm 256)) (if fmtIsMx fm then t0.row (bits w 12 9) 0 8 else [])
      ∀ l code, l < 256 → e.1[l]? = some code → x.lane (bits w 25 21) l =
        if bit (t0.mask (bits w 6 5)) l = true then (loadWord fm code (rowValue fm l code e.2).1).1
        else t0.lane (bits w 25 21) l) ∧
    Runs (.vst t f ms ss cs) s t.val k (b 2) (fun x =>
      x.a aa = (((t0.a aa : Int) + t0.stepOf aa) % 2 ^ 24).toNat ∧
      (fmtIsMx fm = false → ms.toNat / 2 ^ 27 ≠ 3 →
        (∀ l, l < 256 → bit (t0.mask (bits w 6 5)) l = true →
          x.spool.num (t0.rowAddr aa 0 + n * l) n =
            (narrow fm ((t0.roundings (s.localNo t.val) fm (bits w 8 7) 256).1.getD l .rne) (t0.lane (bits w 25 21) l)).1) ∧
        ∀ a, (∀ l, l < 256 → bit (t0.mask (bits w 6 5)) l = true →
            a < t0.rowAddr aa 0 + n * l ∨ t0.rowAddr aa 0 + n * (l + 1) ≤ a) →
          x.spool.read a = t0.spool.read a))

/-- 03 R79. -/
def Obligations.ControlRegisters : Prop :=
  ∀ (t : Site) (f : BitVec 26) (ms vs ss : Word) (s : State) (k : Nat),
    let t0 := s.tile t.val
    let w := f.toNat
    let b := fun op => (⟨ms.toNat, vs.toNat, ss.toNat, op * 2 ^ 26 + w⟩ : Bundle)
    let d := bits w 25 22
    let imm := bits w 21 0
    let seq := fun (x : Tile) => (x.pc, x.loops) = nextOf t0.pc t0.loops
    Runs (.seta t f ms vs ss) s t.val k (b 0x0D) (fun x => x.a d = 4 * imm ∧ seq x) ∧
    Runs (.setst t f ms vs ss) s t.val k (b 0x0E) (fun x => x.stepOf d = toSigned 22 imm ∧ seq x) ∧
    Runs (.adda t f ms vs ss) s t.val k (b 0x0F) (fun x =>
      x.a d = (((t0.a d : Int) + toSigned 22 imm) % 2 ^ 24).toNat ∧ seq x) ∧
    Runs (.seti t f ms vs ss) s t.val k (b 0x10) (fun x => x.i d = imm ∧ seq x) ∧
    Runs (.addi t f ms vs ss) s t.val k (b 0x11) (fun x =>
      x.i d = (((t0.i d : Int) + toSigned 22 imm) % 2 ^ 32).toNat ∧ seq x) ∧
    Runs (.ldi t f ms vs ss) s t.val k (b 0x12) (fun x =>
      x.i d = t0.spool.num (t0.a (bits w 21 18)) 4 ∧
      x.a (bits w 21 18) = (((t0.a (bits w 21 18) : Int) + t0.stepOf (bits w 21 18)) % 2 ^ 24).toNat ∧ seq x) ∧
    Runs (.tinfo t f ms vs ss) s t.val k (b 0x13) (fun x =>
      (bits w 21 20 = 0 → x.i d = s.localNo t.val % 2 ^ 32) ∧ (bits w 21 20 = 1 → x.i d = s.wholeTiles k % 2 ^ 32) ∧
      (bits w 21 20 = 2 → x.i d = (s.ctx k).blk % 2 ^ 32) ∧ seq x) ∧
    Runs (.rstat t f ms vs ss) s t.val k (b 0x0B) (fun x => x.i d = t0.status.toNat ∧ seq x) ∧
    Runs (.cstat t f ms vs ss) s t.val k (b 0x0C) (fun x =>
      (ms = 0 → vs = 0 → x.status = t0.status &&& ~~~ BitVec.ofNat 32 (bits w 25 18)) ∧ seq x) ∧
    Runs (.seed t f ms vs ss) s t.val k (b 0x0A) (fun x =>
      x.seed = BitVec.ofNat 64 (t0.spool.num (t0.a d) 8) ∧ x.dither = 0 ∧ seq x)

/-- 03 R79, R80. -/
def Obligations.ControlFlow : Prop :=
  ∀ (t : Site) (f : BitVec 26) (ms vs ss : Word) (s : State) (k : Nat),
    let t0 := s.tile t.val
    let w := f.toNat
    let b := fun op => (⟨ms.toNat, vs.toNat, ss.toNat, op * 2 ^ 26 + w⟩ : Bundle)
    let seq := fun (x : Tile) => (x.pc, x.loops) = nextOf t0.pc t0.loops
    let to_ := fun (off : Int) (x : Tile) => (x.pc : Int) = t0.pc + off ∧ x.loops = loopsAt x.pc t0.loops ∧
      ∀ fr ∈ x.loops, fr.start ≤ x.pc ∧ x.pc ≤ fr.last
    let n := if bit w 25 = true then t0.i (bits w 3 0) else bits w 11 0
    Runs (.cnop t f ms vs ss) s t.val k (b 0) seq ∧
    Runs (.br t f ms vs ss) s t.val k (b 1) (to_ (toSigned 26 w)) ∧
    Runs (.brz t f ms vs ss) s t.val k (b 2) (fun x =>
      if t0.i (bits w 25 22) = 0 then to_ (toSigned 22 (bits w 21 0)) x else seq x) ∧
    Runs (.brnz t f ms vs ss) s t.val k (b 3) (fun x =>
      if t0.i (bits w 25 22) ≠ 0 then to_ (toSigned 22 (bits w 21 0)) x else seq x) ∧
    Runs (.loop t f ms vs ss) s t.val k (b 4) (fun x =>
      if n = 0 then (x.pc, x.loops) = nextOf (t0.pc + 1 + bits w 24 12) t0.loops
      else x.pc = t0.pc + 1 ∧ x.loops = ⟨t0.pc + 1, t0.pc + 1 + bits w 24 12, n⟩ :: t0.loops)

/-- 03 R79, R99, R100; 13 R429.
Where the spec leaves a choice, the clauses follow the model's: log entries 25 and 26. -/
def Obligations.TileSynchronisation : Prop :=
  ∀ (t : Site) (f : BitVec 26) (ms vs ss : Word) (s : State) (k : Nat),
    let t0 := s.tile t.val
    let w := f.toNat
    let b := fun op => (⟨ms.toNat, vs.toNat, ss.toNat, op * 2 ^ 26 + w⟩ : Bundle)
    Runs (.waitsem t f ms vs ss) s t.val k (b 5) (fun x =>
      bits w 22 15 ≤ t0.sem (bits w 25 23) ∧ x.sem (bits w 25 23) = t0.sem (bits w 25 23) - bits w 22 15) ∧
    Runs (.waitcue t f ms vs ss) s t.val k (b 7) (fun x => bits w 25 10 ≤ t0.crel.toNat ∧ x.crel = t0.crel) ∧
    Runs (.fence t f ms vs ss) s t.val k (b 8) (fun _ => bit w 25 = true → ∀ e ∈ t0.streams, e.2.queue = []) ∧
    Runs (.semsig t f ms vs ss) s t.val k (b 6) (fun x =>
      (bit w 2 = true → ∀ e ∈ t0.streams, e.2.queue = []) ∧
      (s.setTile t.val x).controlOut k t.val t0 (6 * 2 ^ 26 + w) = (s.setTile t.val x).semSignal k t.val (s.stepClass k)
        (if bits w 25 10 = 0xFFFF then (s.setTile t.val x).localNo t.val else bits w 25 10) (bits w 9 7) (bits w 6 3 + 1)) ∧
    (∀ u lt, s.siteOf k lt = some u → ∀ tc j n,
      ((s.tile u).sem j + n ≤ 65535 → s.semSignal k t.val tc lt j n = s.setTile u ((s.tile u).setSem j ((s.tile u).sem j + n))) ∧
      (65535 < (s.tile u).sem j + n →
        s.semSignal k t.val tc lt j n = s.tileFault u ⟨0x008, s.localNo t.val, j, (s.tile u).sem j⟩ ∧
        ((s.semSignal k t.val tc lt j n).tile u).sem j = (s.tile u).sem j)) ∧
    Runs (.tmark t f ms vs ss) s t.val k (b 9) (fun x =>
      bit (s.reg (blt k 0xF08)) 0 = false →
        (s.setTile t.val x).controlOut k t.val t0 (9 * 2 ^ 26 + w) = s.setTile t.val x) ∧
    (∀ c op, (c = .waitsemSatisfied t ∧ op = 5) ∨ (c = .waitcueSatisfied t ∧ op = 7) ∨ (c = .fenceSatisfied t ∧ op = 8) →
      s.mayIssue t.val = true → t0.run = .heldIssue → t0.bundle.c / 2 ^ 26 = op →
      s.tileBolt t.val = some k → bundleFaults t0 (s.boltHas k) (s.awaited k t.val) t0.bundle = [] →
      heldBy t0 t0.bundle = false → t0.bundle.s / 2 ^ 28 ≠ 1 →
      ∃ x q, exec c s = .next (issued s t.val k x q t0.bundle.c) ∧ x.pc = (nextOf t0.pc t0.loops).1)

/-- 03 R77, R78, R79, R103, R104; 02 R51.
Where the spec leaves a choice, the clauses follow the model's: log entry 24. -/
def Obligations.TileStreamsAndStops : Prop :=
  ∀ (t : Site) (f : BitVec 28) (g : BitVec 26) (ms vs ss cs : Word) (s : State) (k : Nat),
    let t0 := s.tile t.val
    let w := f.toNat
    let b := fun op => (⟨ms.toNat, vs.toNat, op * 2 ^ 28 + w, cs.toNat⟩ : Bundle)
    let e := fun op => (⟨ms.toNat, vs.toNat, ss.toNat, op * 2 ^ 26 + g.toNat⟩ : Bundle)
    let st := bits w 27 24
    let aa := bits w 23 20
    let n := bits w 19 12 + 1
    Runs (.snop t f ms vs cs) s t.val k (b 0) (fun x => x.streams = t0.streams) ∧
    Runs (.sq t f ms vs cs) s t.val k (b 1) (fun x =>
      (t0.stream st).queue.length + n ≤ 32 → (∀ j, j < n → enqueueFault t0 (s.boltHas k) (t0.rowAddr aa j) = none) →
      (x.stream st).queue.map (fun d => d.desc) = (t0.stream st).queue.map (fun d => d.desc) ++
        (List.range n).map (fun j => Desc.ofNat (t0.spool.num (t0.rowAddr aa j) 64)) ∧
      x.a aa = (((t0.a aa : Int) + n * t0.stepOf aa) % 2 ^ 24).toNat) ∧
    Runs (.scfg t f ms vs cs) s t.val k (b 2) (fun x =>
      (x.stream st).depth = bits w 23 20 + 1 ∧ (x.stream st).queue = (t0.stream st).queue) ∧
    (ss.toNat / 2 ^ 28 ≠ 1 →
      Runs (.bow t g ms vs ss) s t.val k (e 0x14) (fun x =>
        x.run = .atBow (bits g.toNat 24 9) (bit g.toNat 25) false ∧ x.pc = t0.pc) ∧
      Runs (.stepend t g ms vs ss) s t.val k (e 0x15) (fun x => x.run = .atBow 0xFFFF false true ∧ x.pc = t0.pc) ∧
      Runs (.halt t g ms vs ss) s t.val k (e 0x16) (fun x => x.run = .halted)) ∧
    (∀ i : Stream, s.mayIssue t.val = true → t0.run = .heldIssue → t0.bundle.s / 2 ^ 28 = 1 → sqStream t0.bundle.s = i.val →
      t0.queued i.val < 32 → s.tileBolt t.val = some k →
      bundleFaults t0 (s.boltHas k) (s.awaited k t.val) t0.bundle = [] → heldBy t0 t0.bundle = false →
      ∃ x q, exec (.streamSlotFree t i) s = .next (issued s t.val k x q t0.bundle.c) ∧ t0.queued i.val < x.queued i.val) ∧
    (s.live = true → t0.dither.toNat = 2 ^ 48 - 1 →
      ∃ x, exec (.ditherWrap t) s = .next (s.setTile t.val x) ∧ x.dither = 0 ∧ bit x.status.toNat 6 = true ∧
        x = { t0 with dither := x.dither, status := x.status })

/-- 03 R66, R74, R75, R79. -/
def Obligations.VectorFrame : Prop :=
  ∀ (c : Instr) (t : Nat) (b : Bundle) (s : State) (k : Nat), bundleOf c = some (t, b) → b.m = 0 → b.s = 0 →
    let t0 := s.tile t
    (b.c = 0 → b.v / 2 ^ 26 ≠ 1 → b.v / 2 ^ 26 ≠ 2 →
      Runs c s t k b (fun x =>
        x = { t0 with run := .running, pc := x.pc, loops := x.loops, vReg := x.vReg, mReg := x.mReg, status := x.status } ∧
        (x.pc, x.loops) = nextOf t0.pc t0.loops ∧ x.status &&& t0.status = t0.status ∧
        (∀ v l, l < 256 → v ≠ vd b.v ∨ (0x12 ≤ b.v / 2 ^ 26 ∧ b.v / 2 ^ 26 ≤ 0x14) → x.lane v l = t0.lane v l) ∧
        (∀ m, m ≠ bits b.v 22 21 ∨ b.v / 2 ^ 26 < 0x12 ∨ 0x14 < b.v / 2 ^ 26 → x.mask m = t0.mask m))) ∧
    (b.v = 0 → b.c / 2 ^ 26 = 0x0B ∨ (0x0D ≤ b.c / 2 ^ 26 ∧ b.c / 2 ^ 26 ≤ 0x11) ∨ b.c / 2 ^ 26 = 0x13 →
      Runs c s t k b (fun x =>
        x = { t0 with run := .running, pc := x.pc, loops := x.loops, aReg := x.aReg, aStep := x.aStep, iReg := x.iReg } ∧
        (x.pc, x.loops) = nextOf t0.pc t0.loops ∧
        ∀ r, r ≠ bits b.c 25 22 → x.a r = t0.a r ∧ x.stepOf r = t0.stepOf r ∧ x.i r = t0.i r))

/-- 03 R91 to R93, R98, R505; 04 R130; 05 R152, R153. How many pages a tensor tile needs, the order of demand walks for a walker and
the second look at the group are the model's choices.
Where the spec leaves a choice, the clauses follow the model's: log entries 7, 28, 29, 103, 110 and 111. -/
def Obligations.TensorTileProgress : Prop :=
  ∀ (t : Site) (i : Stream) (s : State) (b : Nat) (q : QDesc), s.live = true → s.tileBolt t.val = some b →
    s.stopping b = false → s.tensorHead t.val i.val = some q →
    (q.phase = .queued → (s.tile t.val).gated = false → s.groupWaits q.desc = false →
      (q.desc.hold = true → mget 0 (s.tile t.val).credits i.val ≠ 0) → s.groupCause b t.val q.desc = none →
      (s.pagesOf b q.desc).2 = none → s.tlbRoom t.val i.val b q.desc = true →
      ∃ u, exec (.tensorTileStart t i) s = .next u ∧ u.tensorHead t.val i.val = some { q with phase := .translating none } ∧
        mget 0 (u.tile t.val).credits i.val =
          mget 0 (s.tile t.val).credits i.val - (if q.desc.hold = true then 1 else 0)) ∧
    (q.phase = .started → (s.pagesOf b q.desc).2 = none → s.tlbRoom t.val i.val b q.desc = true →
      ∃ u, exec (.microTlbRoom t i) s = .next u ∧ u.tensorHead t.val i.val = some { q with phase := .translating none }) ∧
    (q.phase = .translating none →
      let pins := q.desc.absorb (s.tile t.val).leaves b (s.ctx b).gen.toNat (64 - q.pins.length) q.pins
      (q.desc.missing pins = none →
        ∃ u, exec (.microTlbMiss t i) s = .next u ∧ u.tensorHead t.val i.val = some { q with pins := pins }) ∧
      (∀ va dst, q.desc.missing pins = some (va, dst) →
        (s.tile t.val).leaves.find? (fun x => x.covers b (s.ctx b).gen.toNat va && x.permits dst) = none →
        (∀ l, s.tcFind (t.val / 64) b va = some l → l.permits dst = true →
          (addPin pins { l with prefetched := false }).length ≤ 64 →
          ∃ u, exec (.microTlbMiss t i) s = .next u ∧ u.tensorHead t.val i.val =
            some { q with pins := addPin pins { l with prefetched := false }, phase := .translating none }) ∧
        (s.tcFind (t.val / 64) b va = none → (s.setTensor t.val i.val { q with pins := pins }).walkerFor t.val i.val = false →
          ∃ u, exec (.microTlbMiss t i) s = .next u ∧ (t.val, i.val) ∈ u.walkWait ∧
            u.tensorHead t.val i.val = some { q with pins := pins }))) ∧
    (∀ w ecc, q.phase = .translating (some w) → s.entryUe w = false →
      (faMod w.entryFa = s.modNum → ecc ≠ .uncorrectable) → (faMod w.entryFa ≠ s.modNum → w.line.isEmpty = false) →
      let s1 := if ecc = .corrected ∧ faMod w.entryFa = s.modNum then s.chanCorrect (faOff w.entryFa) else s
      let r := s1.readEntry w
      (∀ n, r.1.walkEntry b w r.2.1 r.2.2 = .next n →
        exec (.walkLevelRead t i ⟨.demand, ecc⟩) s =
          .next ((r.1.wcFill (t.val / 64) b w n).walkAt t.val i.val b q (w.down n)) ∧
        (faMod (w.down n).entryFa = s.modNum → ∃ u, exec (.walkLevelRead t i ⟨.demand, ecc⟩) s = .next u ∧
          u.tensorHead t.val i.val = some { q with phase := .translating (some (w.down n)) })) ∧
      (∀ l, r.1.walkEntry b w r.2.1 r.2.2 = .leaf l → (addPin q.pins l).length ≤ 64 →
        ∃ u, exec (.walkLevelRead t i ⟨.demand, ecc⟩) s = .next u ∧ u.tensorHead t.val i.val =
          some { q with pins := addPin q.pins l, phase := .translating none } ∧ l ∈ u.tc (t.val / 64))) ∧
    (q.phase = .translating none → q.desc.missing q.pins = none → s.groupWaits q.desc = false →
      (∀ c, s.groupCause b t.val q.desc = some c → exec (.tensorTileTranslated t i) s =
        .next (s.tensorFail t.val i.val q 0x016 q.desc.group.toNat c)) ∧
      let q' := { q with phase := TensorPhase.committing, scene := s.loom.live.num }
      (s.groupCause b t.val q.desc = none → (q'.pieces false).any (s.pieceWaits b q'.scene false) = false →
        let r := (s.setTensor t.val i.val q').fetchPieces t.val i.val b (q'.pieces false)
        exec (.tensorTileTranslated t i) s = .next (if r.2 = true then r.1.tensorInject t.val i.val else r.1))) ∧
    (q.phase = .committing → q.desc.op = 1 → q.sent = true → q.todo = [] → s.tensorReqs t.val i.val = 0 → q.written = false →
      (q.pieces true).any (s.pieceWaits b q.scene true) = false → s.refusedPiece b q.scene (q.pieces true) = none →
      let mixed := (q.pieces false).any (fun x => (q.pieces true).any (fun y => s.overlap t.val x y))
      let u := s.draw.1.writePieces s.draw.1 t.val b q mixed s.draw.2 (q.pieces true)
      u.copiesDue q = false →
      exec (.tensorTileComplete t i) s = .next (u.tensorCopyEnd t.val i.val b q) ∧
      (q.desc.semEn = false → ∀ v, exec (.tensorTileComplete t i) s = .next v →
        ((v.tile t.val).stream i.val).queue = ((u.tile t.val).stream i.val).queue.drop 1))

/-- 03 R95, 05 R153, R156. A table on another module is read over Creust; the clauses on what stays unchanged are about tables of
this module.
Where the spec leaves a choice, the clauses follow the model's: log entries 35 and 111. -/
def Obligations.PrefetchFaultsNothing : Prop :=
  ∀ (t : Site) (i : Stream) (s : State),
    (∀ b, s.live = true → s.tileBolt t.val = some b → bit (s.reg (blt b 0x810)) 0 = true →
      exec (.prefetchWalk t i) s = .next
        (((((s.tile t.val).stream i.val).queue.drop 1).take ((s.tile t.val).stream i.val).depth).foldl (fun x d =>
          x.prefetchDesc t.val i.val b d.desc 64
            ((x.tc (t.val / 64)).filter (fun l => l.bolt == b && l.gen == (x.ctx b).gen.toNat))) s)) ∧
    (∀ b, s.tileBolt t.val = some b → s.tableHere b = true →
      (∀ e ∈ mget [] s.wcache (t.val / 64), faMod e.next = s.modNum ∧ e.next % 4096 = 0) →
      ∃ u, exec (.prefetchWalk t i) s = .next u ∧ u.tiles = s.tiles ∧ u.fq = s.fq ∧ u.inc = s.inc ∧ u.hbm = s.hbm ∧
        u.cxl = s.cxl ∧ u.ctxs = s.ctxs ∧ u.reqs = s.reqs ∧
        (s.walkersBusy (t.val / 64) ≤ 32 → u.walkersBusy (t.val / 64) ≤ 32) ∧
        ((s.pfWalks.filter (fun p => p.site / 64 == t.val / 64)).length ≤ 16 →
          (u.pfWalks.filter (fun p => p.site / 64 == t.val / 64)).length ≤ 16)) ∧
    (∀ (va : BitVec 64) (p : PfWalk), s.live = true →
      s.pfWalks.find? (fun p => p.site == t.val && p.stream == i.val && p.walk.va == va.toNat) = some p →
      faMod p.walk.entryFa = s.modNum → p.walk.table % 4096 = 0 → s.entryUe p.walk = false →
      ∃ u, exec (.walkLevelRead t i ⟨.prefetch va, .clean⟩) s = .next u ∧ u.tiles = s.tiles ∧ u.fq = s.fq ∧ u.inc = s.inc ∧
        u.hbm = s.hbm ∧ u.cxl = s.cxl ∧ u.ctxs = s.ctxs ∧ u.reqs = s.reqs)

/-- 03 R94; 05 R163, R165.
Where the spec leaves a choice, the clauses follow the model's: log entry 36. -/
def Obligations.TranslationFaultHolds : Prop :=
  ∀ (t : Site) (i : Stream) (s : State) (b : Nat) (q : QDesc) (w : Walk) (e : XltReason) (lv : Nat), s.live = true →
    s.tileBolt t.val = some b → s.stopping b = false → s.tensorHead t.val i.val = some q →
    q.phase = .translating (some w) → s.entryUe w = false → (faMod w.entryFa ≠ s.modNum → w.line.isEmpty = false) →
    (s.ctx b).drain = none →
    (s.readEntry w).1.walkEntry b w (s.readEntry w).2.1 (s.readEntry w).2.2 = .fault e lv →
    ∃ u, exec (.walkLevelRead t i ⟨.demand, .clean⟩) s = .next u ∧
      u.tensorHead t.val i.val = some { q with phase := .held, pins := [], data := [] } ∧ u.hbm = s.hbm ∧ u.cxl = s.cxl ∧
      ((s.faults b).entries.length < 1024 → (s.faults b).waiting = [] →
        ∃ x, (u.faults b).entries = (s.faults b).entries ++ [x] ∧ x.seq = (s.faults b).nextSeq ∧ x.reason = e ∧
          x.level = lv ∧ x.stream = i.val ∧ x.site = t.val ∧ x.dstSide = w.dstSide ∧ x.addr = BitVec.ofNat 64 w.va ∧
          x.tag = q.desc.tag)

/-- 03 R101, R103, R104.
Where the spec leaves a choice, the clauses follow the model's: log entry 54. -/
def Obligations.BowPoint : Prop :=
  (∀ (b : Bolt) (s : State), s.live = true → s.bowReady b.val = true → (s.boltTiles b.val).Nodup →
    let waiting := (s.boltTiles b.val).filter (fun t => (s.tile t).bowing)
    ((∀ t ∈ s.boltTiles b.val, ∀ k, k < 8 → (s.tile t).sem k = 0) → s.bowQuiet b.val = true →
      (s.ctx b.val).drain = none → s.loom.movePend.contains b.val = false →
      (∀ t ∈ waiting, (s.tile t).atStepEnd = false) →
      (∀ t ∈ waiting, (nextOf (s.tile t).pc (s.tile t).loops).1 < (s.tile t).streamLen) →
      exec (.bowPass b) s = .next (s.mapTiles waiting Tile.passBow)) ∧
    ((∃ t ∈ s.boltTiles b.val, ∃ k, k < 8 ∧ (s.tile t).sem k ≠ 0) →
      exec (.bowPass b) s = .next (waiting.foldl (fun s t =>
        s.tileFault t ⟨0x00B, (s.tile t).pc % 2 ^ 13, (s.tile t).semBits, 0⟩) s))) ∧
  ∀ (x : Tile), x.bowing = true →
    (x.passBow).run = .running ∧ ((x.passBow).pc, (x.passBow).loops) = nextOf x.pc x.loops ∧
    (x.atStepEnd = true → x.passBow.step = x.step + 1 ∧ x.passBow.crel = x.ncrel ∧ x.passBow.ncrel = 0) ∧
    (x.atStepEnd = false → x.passBow.step = x.step ∧ x.passBow.crel = x.crel ∧ x.passBow.ncrel = x.ncrel) ∧
    x.passBow.acc = x.acc ∧ x.passBow.spool = x.spool ∧ x.passBow.sems = x.sems

/-- 06 R177, R179, R181 to R183, R186, R187.
Where the spec leaves a choice, the clauses follow the model's: log entries 40 and 108. -/
def Obligations.StageTimeSources : Prop :=
  ∀ (s : State), s.live = true →
    (∀ width, s.stuSrc = 0 → 100 ≤ width →
      (s.stu.mode = .acquire → s.stu.stepMade = false → s.stu.firstDone = false → s.cues = [] →
        ∃ t, exec (.ppsEdge width) s = .next t ∧ t.stu.time = s.reg 0x20018 * giga ∧ bit (t.reg 0x20028) 5 = true ∧
          t.stu.firstDone = true) ∧
      (¬ (s.stu.mode = .acquire ∧ s.stu.stepMade = false) →
        1000 < (secondOffset ((s.now : Int) - toSigned 16 (s.reg 0x2002C))).natAbs →
        ∃ t, exec (.ppsEdge width) s = .next t ∧ t.stu = s.stu ∧ bit (t.reg 0x20028) 3 = true)) ∧
    (s.stu.mode = .locked → s.stuSrc = 0 → s.stu.lastRef + 2 * giga ≤ s.now →
      ∃ t, exec .ppsLoss s = .next t ∧ t.stu.mode = .holdover ∧ t.stu.alignOk = s.stu.child ∧ bit (t.reg 0x20028) 0 = true ∧
        (s.stu.alignOk = true → s.stu.child = false → bit (t.reg 0x20028) 1 = true)) ∧
    (s.stu.mode = .locked → s.stuSrc = 1 → s.stu.lastRef + 1000000 ≤ s.now →
      ∃ t, exec .fabricTimeLoss s = .next t ∧ t.stu.mode = .holdover ∧ t.stu.alignOk = false ∧
        (s.stu.alignOk = true → bit (t.reg 0x20028) 1 = true)) ∧
    (∀ val : Word, bit val.toNat 0 = true →
      (s.cues ≠ [] ∨ s.stuSrc = 2 → exec (.stuReacq 0 val) s = .next (s.orReg 0x20028 4)) ∧
      (s.cues = [] → s.stuSrc ≠ 2 → ∃ t, exec (.stuReacq 0 val) s = .next t ∧ t.stu.mode = .acquire ∧
        t.stu.firstDone = false ∧ t.stu.stepMade = false ∧ t.stu.time = s.stu.time)) ∧
    (∀ val : Word,
      (s.loom.committed = true → exec (.stuCtlWrite 0 val) s = .next (s.setErr 0 2)) ∧
      (s.loom.committed = false → bits val.toNat 1 0 = 2 → s.stuSrc ≠ 2 →
        ∃ t, exec (.stuCtlWrite 0 val) s = .next t ∧ t.stuSrc = 2 ∧ t.stu.mode = .free) ∧
      (s.loom.committed = false → bits val.toNat 1 0 ≤ 1 → bits val.toNat 1 0 ≠ s.stuSrc →
        ∃ t, exec (.stuCtlWrite 0 val) s = .next t ∧ t.stuSrc = bits val.toNat 1 0 ∧ t.stu.mode = .acquire)) ∧
    (s.stu.ended = false → s.now = 2 ^ 34 * giga - 1 →
      ∃ t, exec .stuEnd s = .next t ∧ t.stu.ended = true ∧ t.stu.time = s.stu.time ∧ bit (t.reg 0x20028) 4 = true) ∧
    (s.stuPpsOut = true → s.stu.ppsOut = false → s.now % giga = 0 →
      exec (.ppsOutPulse true) s = .next { s with stu := { s.stu with ppsOut := true } }) ∧
    (s.stu.ppsOut = true → s.now % giga = 100000000 →
      exec (.ppsOutPulse false) s = .next { s with stu := { s.stu with ppsOut := false } })

/-- 06 R192. No command but a loom commit changes a reservation. -/
def Obligations.ShiftPowerKeepsTheSum : Prop :=
  ∀ (slot : CueSlot) (s : State) (c : CueSlotSt), s.firing slot.toNat 5 = some c →
    let b := c.record.bolt.toNat
    let arg := c.record.argOf c.occ
    let res := ((s.loom.live.bolt? b).map (fun x => x.pwrRes)).getD 0
    ∃ t, exec (.shiftPower slot) s = .next t ∧ t.cue slot.toNat = (s.afterFire slot.toNat c.occ c).cue slot.toNat ∧
      t.loom = s.loom ∧
      (bits arg 11 0 + bits arg 23 12 + bits arg 35 24 = res →
        mget Shares.reset t.power.inForce b = ⟨bits arg 11 0, bits arg 23 12, bits arg 35 24⟩ ∧
        mget Shares.reset t.power.shares b = ⟨bits arg 11 0, bits arg 23 12, bits arg 35 24⟩) ∧
      (bits arg 11 0 + bits arg 23 12 + bits arg 35 24 ≠ res →
        t.power = s.power ∧ (t.src unitStu).last = some (0x0A1, some b, s.time))

/-- 06 R189, R191, R196 to R199; 03 R101, R102; 01 R27.
Where the spec leaves a choice, the clauses follow the model's: log entries 42 and 96. -/
def Obligations.CuesFire : Prop :=
  (∀ (slot : CueSlot) (s : State),
    let n := slot.toNat
    (∀ c, s.firing n 1 = some c → exec (.startPhase slot) s =
      .next ((s.cueSites c.record).foldl (fun u t => u.startPhaseAt (c.record.argOf c.occ) t) (s.afterFire n c.occ c))) ∧
    (∀ c, s.firing n 2 = some c → exec (.releaseStream slot) s =
      .next ((s.cueSites c.record).foldl (fun u t => u.releaseAt (c.record.argOf c.occ) t) (s.afterFire n c.occ c))) ∧
    (∀ c, s.firing n 3 = some c → exec (.openRed slot) s =
      .next ((s.afterFire n c.occ c).openRedAll c.record.group (c.record.argOf c.occ))) ∧
    (∀ c, s.firing n 4 = some c → exec (.signalFence slot) s =
      .next ((s.afterFire n c.occ c).signal c.record.fenceNo (c.record.argOf c.occ) 0 false)) ∧
    (∀ c, s.firing n 6 = some c → exec (.sceneChange slot) s = .next ((s.afterFire n c.occ c).goLive)) ∧
    (∀ c a, s.cue n = some c → s.live = true → c.handed = true → c.record.action.toNat = a → c.fireAt ≤ s.now →
      (∀ x ∈ s.dueCues, cueBefore s.now x (n, c) = false) → s.firing n a = some c) ∧
    (∀ c a, s.cue n = some c → (∃ x ∈ s.dueCues, cueBefore s.now x (n, c) = true) → s.firing n a = none) ∧
    (∀ c, s.cue n = some c → s.live = true → c.handed = false →
      (c.fireAt ≤ s.now + 4000 → s.now + 2 ≤ c.fireAt → s.comparatorsFree c.record = true → s.heldForBuild c = false →
        exec (.cueHandover slot) s = .next (s.setCue n (some { c with handed := true }))) ∧
      (∀ cause, c.fireAt ≤ s.now → s.heldForBuild c = false → s.comparatorsFree c.record = true →
        (∀ t, c.lastAt = some t → t + 100 ≤ s.now) → c.lateFor cause = true →
        (∀ x ∈ s.dueCues, cueBefore s.now x (n, c) = false) →
        exec (.cueLate slot cause) s = .next (((s.afterLate n (c.lateOcc s.now) c).cueEffect n (c.lateOcc s.now) c.record).reportLate
          n (lateCode cause) (c.lateOcc s.now) c)) ∧
      (∀ cause, s.comparatorsFree c.record = false ∨ s.heldForBuild c = true ∨ c.lateFor cause = false →
        exec (.cueLate slot cause) s = .next s) ∧
      (c.armedAt + 4000 ≤ c.fireAt → c.lateFor .armedLate = false))) ∧
  ∀ (s : State) (arg t : Nat),
    (bits arg 31 16 = (s.tile t).step.toNat →
      s.startPhaseAt arg t = s.setTile t { s.tile t with crel := BitVec.ofNat 16 (max (s.tile t).crel.toNat (arg % 2 ^ 16)) }) ∧
    (bits arg 31 16 = ((s.tile t).step + 1).toNat →
      s.startPhaseAt arg t = s.setTile t { s.tile t with ncrel := BitVec.ofNat 16 (max (s.tile t).ncrel.toNat (arg % 2 ^ 16)) }) ∧
    (bits arg 31 16 ≠ (s.tile t).step.toNat → bits arg 31 16 ≠ ((s.tile t).step + 1).toNat →
      (s.startPhaseAt arg t).tiles = s.tiles ∧ ((s.startPhaseAt arg t).src t).last = some (0x020, s.tileBolt t, s.time)) ∧
    (mget 0 (s.tile t).credits (arg % 16) ≠ 255 → mget 0 ((s.releaseAt arg t).tile t).credits (arg % 16) =
      mget 0 (s.tile t).credits (arg % 16) + 1) ∧
    (mget 0 (s.tile t).credits (arg % 16) = 255 →
      (s.releaseAt arg t).tiles = s.tiles ∧ ((s.releaseAt arg t).src t).last = some (0x021, s.tileBolt t, s.time))

/-- 06 R194, R195.
Where the spec leaves a choice, the clauses follow the model's: log entry 41. -/
def Obligations.CueArming : Prop :=
  ∀ (q : Queue) (s : State) (b : Nat) (c : FetchedCall) (x : BoltRec),
    let r := CueRec.ofNat (c.words.toNat / 2 ^ 256)
    let k := callBits c.words 0x18 15 0
    let n := x.cueBase + k
    (s.take q 8 1 = some (b, c) → (s.turn b q.val).bolt? b = some x →
      (k < x.cueCount → (s.turn b q.val).armStatus b n r none = 0 →
        exec (.cueArm q) s = .next (((s.turn b q.val).armSlot n r none).complete q.val c (Completion.plain 0)) ∧
        ((s.turn b q.val).armSlot n r none).cue n = some ⟨r, 0, false, none, false, none, s.now⟩) ∧
      (k < x.cueCount → (s.turn b q.val).armStatus b n r none ≠ 0 →
        exec (.cueArm q) s = .next ((s.turn b q.val).complete q.val c
          { Completion.plain 0x0F with cstat := (s.turn b q.val).armStatus b n r none })) ∧
      (x.cueCount ≤ k → exec (.cueArm q) s = .next ((s.turn b q.val).complete q.val c { Completion.plain 0x0F with cstat := 1 }))) ∧
    (s.take q 9 1 = some (b, c) → (s.turn b q.val).bolt? b = some x →
      (∀ v, s.cue n = some v → s.now + 4000 ≤ v.fireAt →
        exec (.cueCancel q) s = .next (((s.turn b q.val).setCue n none).complete q.val c (Completion.plain 0))) ∧
      (∀ v, s.cue n = some v → v.fireAt < s.now + 4000 →
        exec (.cueCancel q) s = .next (((s.turn b q.val).setCue n (some { v with lastOne := true })).complete q.val c
          { Completion.plain 0 with aux := 1 })) ∧
      (s.cue n = none → exec (.cueCancel q) s = .next ((s.turn b q.val).complete q.val c (Completion.plain 0)))) ∧
    (∀ u : State, u.bolt? b = some x → x.cueBase ≤ n → n < x.cueBase + x.cueCount →
      ((u.cue n).isSome = true → u.armStatus b n r none = 2) ∧
      (u.cue n = none → (u.ctx b).reserves n = false →
        (r.malformed b = true → u.armStatus b n r none = 3) ∧
        (r.malformed b = false → r.action = 6 → u.armStatus b n r none = 4) ∧
        (r.malformed b = false → 1 ≤ r.action.toNat → r.action.toNat ≤ 5 →
          (cueKindOk r.action.toNat r.kind = false ∨ u.cueTargetOk b r = false → u.armStatus b n r none = 5) ∧
          (cueKindOk r.action.toNat r.kind = true → u.cueTargetOk b r = true →
            u.armStatus b n r none = if unpackTime r.fire + 1000000000 < u.now then 6 else 0))))

/-- 06 R201 to R204, R207; 08 R281. Whether the other modules of a binding have ALIGN_OK is a free value.
Where the spec leaves a choice, the clauses follow the model's: log entries 43, 106 and 107. -/
def Obligations.StepsAdmittedAndDelivered : Prop :=
  (∀ (q : Queue) (s : State) (b : Nat) (c : FetchedCall), s.take q 1 1 = some (b, c) →
    (s.noCtx b = true → exec (.step q) s = .next ((s.turn b q.val).complete q.val c (Completion.plain 6))) ∧
    (s.noCtx b = false → (s.ctx b).refuseNext = true → exec (.step q) s = .next ((s.turn b q.val).refuseStep b q.val c)) ∧
    (s.noCtx b = false → (s.ctx b).refuseNext = false →
      exec (.step q) s = .next ((s.turn b q.val).admitStep b q.val c) ∧
      exec (.stepAdmission (.queue q)) s = .next ((s.turn b q.val).admitStep b q.val c) ∧
      ∀ k x, s.blocking b = some k → s.bolt? b = some x → s.loom.next = none →
        (∀ p, (s.ctx b).steps = [p] →
          ∃ t r, exec (.step q) s = .next t ∧ exec (.stepAdmission (.queue q)) s = .next t ∧ (t.ctx b).steps = [p, r] ∧
            r.call = c.words ∧ r.queue = q.val ∧ r.admitted = s.now ∧ r.start = none ∧
            r.bound = (packTime (p.deadline + k.lead + k.wcs)).toNat ∧
            (r.guar = true ↔ s.guarStatus b (callClass c.words) (Config.freeBit s.draw.2 0) = 0)) ∧
        ((s.ctx b).steps = [] →
          ∃ t, exec (.step q) s = .next t ∧ exec (.stepAdmission (.queue q)) s = .next t ∧
            ((t.ctx b).steps = [] ∨ ∃ r, (t.ctx b).steps = [r] ∧ r.call = c.words ∧ r.queue = q.val ∧ r.start = some s.now ∧
              r.deadline = s.now + k.lead + k.wcs ∧
              (r.guar = true ↔ s.guarStatus b (callClass c.words) (Config.freeBit s.draw.2 0) = 0)) ∧
            (k.template = [] → (t.ctx b).steps ≠ [])))) ∧
  (∀ (b : Bolt) (start : BitVec 64) (s : State), s.live = true → s.serving 1 = true →
    exec (.stepAdmission (.fromHome b start)) s = .next (s.farStart b.val start) ∧
    ∀ k x, s.blocking b.val = some k → s.bolt? b.val = some x → s.atHome b.val = false → timeOk start = true →
      let slots := freeSlots s b.val x.cueCount x.cueBase k.template.length
      let a := s.armTemplate b.val (s.ctx b.val).stepSeq (unpackTime start) k.template slots
      slots.length = k.template.length → a.2 = 0 →
      exec (.stepAdmission (.fromHome b start)) s = .next (a.1.updCtx b.val (fun c => { c with stepSeq := (s.ctx b.val).stepSeq + 1 }))) ∧
  (∀ (b : Bolt) (s : State) (r : StepRec) (l : List StepRec), s.live = true → (s.ctx b.val).steps = r :: l →
    (s.serving 1 = true → r.ended = true → (r.serving = true → (mget Serve.reset s.serve b.val).items = none) →
      exec (.stepDelivery b) s = .next (s.deliver b.val r) ∧
      (r.overdue s.now = false → s.messageHeld r = true →
        exec (.stepDelivery b) s = .next (if r.held = true then s else s.holdStep b.val r)) ∧
      (l = [] → r.overdue s.now = false → s.messageHeld r = false → (s.ctx b.val).drain = none →
        ∃ t, exec (.stepDelivery b) s = .next t ∧ (t.ctx b.val).steps = [] ∧
          ((s.ctx b.val).mode = .running → (t.ctx b.val).mode = .ready))) ∧
    (r.guar = true → r.start.isSome = true → r.missed = false → r.deadline < s.now →
      ∃ t, exec (.guaranteeMissed b) s = .next t ∧ t = s.missStep b.val r ∧ bit (t.reg (blt b.val 0x928)) 1 = true ∧
      (∃ r' l', (t.ctx b.val).steps = r' :: l' ∧ r'.missed = true ∧ r'.seq = r.seq) ∧
      t.ctr (blt b.val 0x938) = (s.ctr (blt b.val 0x938)).add 1)) ∧
  ∀ (s : State) (b cls : Nat) (others : Bool) (x : BoltRec) (k : Blocking), s.loom.live.bolt? b = some x → s.blocking b = some k →
    s.guarStatus b cls others =
      if bit x.guarClasses.toNat cls = false then 1 else if s.guarFloor b < k.floor then 2
      else if s.spans b = true ∧ ¬ (s.stu.alignOk = true ∧ others = true) then 3
      else if ∃ r ∈ (s.ctx b).steps, r.guar = false ∨ r.voided = true then 4 else 0

/-- 04 R112, R114. -/
def Obligations.MeshRoutes : Prop :=
  ∀ (s : State) (p xs ys xe ye : Nat),
    ((xs = xe ∨ ys = ye ∨ s.liveXY p xe ys = true) → s.segment p xs ys xe ye = (0, 0, gap xs xe + gap ys ye)) ∧
    (xs ≠ xe → ys ≠ ye → s.liveXY p xe ys = false →
      (s.liveXY p xs ye = true → s.segment p xs ys xe ye = (1, 0, gap xs xe + gap ys ye)) ∧
      (s.liveXY p xs ye = false →
        (∀ y, y < 8 → y ≠ ys → y ≠ ye → s.liveXY p xs y = true → s.liveXY p xe y = true →
          ∃ m, m < 8 ∧ m ≠ ys ∧ m ≠ ye ∧ s.liveXY p xs m = true ∧ s.liveXY p xe m = true ∧
            s.segment p xs ys xe ye = (2, m, gap xs xe + gap ys ye + detourCost ys ye m) ∧
            (detourCost ys ye m < detourCost ys ye y ∨ (detourCost ys ye m = detourCost ys ye y ∧ m ≤ y))))) ∧
    (∀ (site : Nat) (f : Flit), site / 64 = f.srcPanel.val → f.dstPanel = f.srcPanel →
      pointSite (site / 64) f.srcPoint.val = (xs, ys) → pointSite (site / 64) f.dstPoint.val = (xe, ye) →
      (site % 8 = xe → site % 64 / 8 = ye → s.nextHop site f = (attachPort (site / 64) f.dstPoint.val, f.vc.val)) ∧
      ((s.segment (site / 64) xs ys xe ye).1 = 0 →
        (site % 8 ≠ xe → s.nextHop site f = (if site % 8 < xe then 1 else 3, f.vc.val)) ∧
        (site % 8 = xe → site % 64 / 8 ≠ ye → s.nextHop site f = (if site % 64 / 8 < ye then 2 else 0, f.vc.val))) ∧
      ((s.segment (site / 64) xs ys xe ye).1 = 1 →
        (site % 64 / 8 ≠ ye → s.nextHop site f = (if site % 64 / 8 < ye then 2 else 0, f.vc.val)) ∧
        (site % 64 / 8 = ye → site % 8 ≠ xe → s.nextHop site f = (if site % 8 < xe then 1 else 3, f.vc.val))))

/-- 04 R112, R113, R134, R136, R138. A flit to a dark tile's local port is not delivered.
Where the spec leaves a choice, the clauses follow the model's: log entries 30 and 31. -/
def Obligations.MeshFlits : Prop :=
  (∀ (l : MeshLink) (f : Flit) (s : State), s.live = true →
    (s.flitOk f = false → ∀ e, exec (.meshFlitReceive l f e) s = .next s) ∧
    (s.freeLedger (inputLedger l) f.vc = none → ∀ e, exec (.meshFlitReceive l f e) s = .next s) ∧
    (∀ d, s.flitOk f = true → s.freeLedger (inputLedger l) f.vc = some d →
      let v := s.ledger d
      let u := s.setMeshLedger d { v with taken := v.taken + 1, back := v.back + 1 }
      let h := s.nextHop l.site.val f
      let k := l.site.val * 8 + l.inPort.val
      u.ledger d = { v with taken := v.taken + 1, back := v.back + 1 } ∧ v.taken < ledgerTickets d ∧
      exec (.meshFlitReceive l f .clean) s =
        .next (if h.1 = 4 ∧ s.siteLive l.site.val = false then u else u.emit (.flit l.site.val h.1 h.2)) ∧
      (mget 0 s.meshCe k + 1 ≠ 2 ^ 16 → ∃ x, exec (.meshFlitReceive l f .corrected) s = .next x ∧
        x.out = (if h.1 = 4 ∧ s.siteLive l.site.val = false then s.out else .flit l.site.val h.1 h.2 :: s.out) ∧
        x.ledgers = u.ledgers ∧ mget 0 x.meshCe k = mget 0 s.meshCe k + 1 ∧
        x.inc = s.inc ∧ x.tiles = s.tiles ∧ x.hbm = s.hbm ∧ x.regs = s.regs) ∧
      exec (.meshFlitReceive l f .uncorrectable) s = .next (u.raise l.site.val 0x042 2 (some f.bolt.val) l.inPort.val
        f.vc.val (f.srcPoint.val + 2 ^ 8 * f.srcPanel.val)))) ∧
  ∀ (k : TicketLink) (vc : Vc) (s : State), let d := ticketLedger k vc
    s.live = true → 0 < ledgerTickets d → 0 < (s.ledger d).taken → 0 < (s.ledger d).back →
    ∃ u, exec (.ticketReturn k vc) s = .next u ∧
      (u.ledger d).taken + 1 = (s.ledger d).taken ∧ (u.ledger d).back + 1 = (s.ledger d).back ∧
      (∀ d', 0 < ledgerTickets d' → d' ≠ d → u.ledger d' = s.ledger d') ∧
      u.out = s.out ∧ u.tiles = s.tiles ∧ u.hbm = s.hbm ∧ u.cxl = s.cxl ∧ u.regs = s.regs

/-- 04 R135, R137: no event creates or destroys a ticket. A flit in a bridge's replay buffer is in flight. -/
def Obligations.LedgersBalance : Prop :=
  let ok : State → Prop := fun s =>
    (∀ l : LedgerId, (s.ledger l).taken ≤ ledgerTickets l ∧
      (ledgerTickets l - (s.ledger l).taken) + (s.ledger l).flight + (s.ledger l).back + (s.ledger l).occ = ledgerTickets l) ∧
    ∀ (br : Bridge) (st : Fin 4) (back : Bool) (vc : Vc), (s.ledger (.bridge br st back vc)).flight =
      ((s.bridge br.val st.val).replay.filter (fun x => x.back == back && x.pool == vc)).length
  ok State.reset ∧ ∀ s t : State, ok s → step s = .next t → ok t

/-- 04 R125, R127, R129 to R132. A chunk that waits for a slot of its node enters it when one is free.
Where the spec leaves a choice, the clauses follow the model's: log entries 32, 33 and 82. -/
def Obligations.MeshTrees : Prop :=
  ∀ (g : Group) (n : NodeIx) (s : State), s.live = true →
    (∀ f fs r x, s.mcAt g.val n.val = f :: fs → s.mcRecAt g.val f.scene = some r → r.nodes[n.val]? = some x →
      (∀ c ∈ childrenOf r.nodes n.val, (s.mcAt g.val c.1).length < c.2.tickets) →
      ∃ u, exec (.mcastFlitForward g n) s = .next u ∧
        u.mcFlits = s.mcFlits.erase f ++ (childrenOf r.nodes n.val).map (fun c => { f with node := c.1 }) ∧
        (f.sem = none → u = { s.poke 2 (x.site * spoolBytes + f.dst) f.data with mcFlits := u.mcFlits })) ∧
    (∀ round chunk x r me, (s.redHeld g.val n.val round chunk).head? = some x → s.redRecAt g.val x.scene = some r →
      r.nodes[n.val]? = some me → (s.redRunOf g.val).failed = false →
      let ins := (redOrder r.nodes n.val).filterMap (fun k => s.redInput g.val n.val round chunk k)
      ins.length = (redOrder r.nodes n.val).length →
      let sum := redFold r.bf16 (ins.map (fun i => i.data))
      let len := ins.foldl (fun m i => min m i.len) 256
      let left := s.redLeave g.val n.val round chunk
      (n.val ≠ 0 → (s.redIn.filter (fun i => i.group == g.val && i.node == me.parent && i.rank == me.rank + 1)).length
          < me.tickets →
        ∃ y, exec (.redChunkCombine g n round chunk) s = .next { left with redIn := left.redIn ++ [y] } ∧ y.data = sum ∧
          y.len = len ∧ y.node = me.parent ∧ y.rank = me.rank + 1 ∧ y.group = x.group ∧ y.round = x.round ∧
          y.chunk = x.chunk ∧ y.scene = x.scene ∧
          ((∀ z ∈ s.redStage, z.group = g.val → z.node ≠ n.val) →
            left.redIn = s.redIn.filter (fun i =>
              !(i.group == g.val && i.node == n.val && i.round == round && i.chunk == chunk)) ∧
            left.tiles = s.tiles ∧ left.hbm = s.hbm ∧ left.cxl = s.cxl ∧ left.regs = s.regs ∧ left.inc = s.inc)) ∧
      (n.val = 0 → r.up = false →
        exec (.redChunkCombine g n round chunk) s = .next
          (((left.redClose g.val r.bolt round).poke 2 (me.site * spoolBytes + r.destOffset + 512 * chunk)
            (redBytes r.bf16 len sum)).redSignal g.val me.site round))) ∧
    (∀ bf16 a b l, redFold bf16 (a :: b :: l) = redFold bf16 (a.zipWith (redAdd bf16) b :: l)) ∧
    (∀ r k, (∀ z ∈ s.redStage, z.group = g.val → z.node = n.val → s.redRecAt g.val z.scene = some r) →
      (s.redIn.filter (fun i => i.group == g.val && i.node == n.val && i.rank == k)).length ≤ inputSlots r.nodes n.val k →
      ((s.redRefill g.val n.val).redIn.filter (fun i => i.group == g.val && i.node == n.val && i.rank == k)).length ≤
        inputSlots r.nodes n.val k) ∧
    (∀ round chunk x xs r me, s.redHeld g.val n.val round chunk = x :: xs → s.redRecAt g.val x.scene = some r →
      r.nodes[n.val]? = some me → me.port = false → (s.redRunOf g.val).failed = false →
      (redOrder r.nodes n.val).any (fun k => (s.redInput g.val n.val round chunk k).isNone) = true →
      x.at_ + 1000 * r.timeout ≤ s.redNow r.bolt →
      exec (.redTimeout g n round chunk) s = .next ((s.redFail g.val r.bolt).raise me.site 0x040 3 (some r.bolt) g.val
        (round % 256 + 2 ^ 16 * (chunk % 2 ^ 13)) ((x :: xs).foldl (fun m y => m ||| 2 ^ y.rank) 0)) ∧
      ((s.redFail g.val r.bolt).redRunOf g.val).failed = true ∧ (∀ y ∈ (s.redFail g.val r.bolt).redIn, y.group ≠ g.val) ∧
      (∀ y ∈ (s.redFail g.val r.bolt).redStage, y.group ≠ g.val))

/-- 01 R15; 04 R134, R135, R137; 14 R458 to R460.
Where the spec leaves a choice, the clauses follow the model's: log entries 30 and 31. -/
def Obligations.BridgesAndAudits : Prop :=
  ∀ (br : Bridge) (st : Fin 4) (s : State), s.live = true →
    let v := s.bridge br.val st.val
    (∀ f, v.retraining = false → s.flitOk f = true →
      let back := crossesBack br.val f
      (v.replay.find? (fun x => x.back == back && x.flit == f) = none →
        (s.freeLedger (fun c => .bridge br st back c) f.vc = none → ∀ ok, exec (.bridgeFlitReceive br st f ok) s = .next s) ∧
        (∀ d, s.freeLedger (fun c => .bridge br st back c) f.vc = some d →
          exec (.bridgeFlitReceive br st f true) s = .next ((s.setMeshLedger d (s.ledger d).passed).bridgeOut br.val st.val f) ∧
          exec (.bridgeFlitReceive br st f false) s = .next ((s.setMeshLedger d (s.ledger d).kept).setBridge br.val st.val
            { v with replay := v.replay ++ [⟨back, ledgerVc d, f⟩], replays := v.replays + 1 }))) ∧
      (∀ x, v.replay.find? (fun x => x.back == back && x.flit == f) = some x →
        exec (.bridgeFlitReceive br st f false) s =
          .next (s.setBridge br.val st.val { v with failed := min 8 (v.failed + 1), replays := v.replays + 1 }) ∧
        exec (.bridgeFlitReceive br st f true) s = .next
          (((s.setBridge br.val st.val { v with replay := v.replay.erase x, failed := 0 }).setMeshLedger (.bridge br st back x.pool)
            (s.ledger (.bridge br st back x.pool)).landed).bridgeOut br.val st.val f)) ∧
      (4 ≤ br.val → f.dstPoint.val = 88 → s.bridgeOut br.val st.val f = s) ∧
      (br.val < 4 ∨ f.dstPoint.val ≠ 88 → ∃ site f', s.bridgeOut br.val st.val f = s.flitOut site f' ∧
        site / 64 = bridgeInto br.val f ∧ f'.dstPoint = f.dstPoint ∧ f'.dstPanel = f.dstPanel ∧ f'.bolt = f.bolt)) ∧
    (v.retraining = false → v.failed = 8 →
      exec (.brgRetrain br st) s = .next (s.setBridge br.val st.val { v with retraining := true })) ∧
    (v.retraining = true →
      (∀ occ ns,
        let u := (s.setBridge br.val st.val { BridgeStop.reset with replay := v.replay }).bridgeTickets br st occ
        exec (.bridgeRetrainEnd br st true occ ns) s = .next (u.report (unitBridge br.val) 0x050 1 none
            (if br.val < 4 then st.val else 0) v.replays ns) ∧
        ∀ (back : Bool) (c : Vc),
          let d : LedgerId := .bridge br st back c
          let n := (v.replay.filter (fun x => x.back == back && x.pool == c)).length
          let o := min (((occ.find? (fun e => e.back == back && e.pool == c)).map (fun e => e.slots)).getD 0) (ledgerTickets d - n)
          u.ledger d = ⟨o + n, n, 0, o⟩) ∧
      (∀ occ ns, v.badRetrains < 2 → exec (.bridgeRetrainEnd br st false occ ns) s =
        .next (s.setBridge br.val st.val { v with badRetrains := v.badRetrains + 1 })) ∧
      (∀ occ ns, v.badRetrains = 2 → exec (.bridgeRetrainEnd br st false occ ns) s =
        .next ((s.setBridge br.val st.val { v with badRetrains := 3 }).raise (unitBridge br.val) 0x051 4 none
          (if br.val < 4 then st.val else 0) 3 0))) ∧
    (∀ d : LedgerId, 0 < ledgerTickets d → s.auditPaused d = false →
      let w := s.ledger d
      let sum := ledgerTickets d - w.taken + w.flight + w.back + w.occ
      (sum = ledgerTickets d → exec (.ledgerAudit d) s = .next (s.noteAudit d)) ∧
      (sum ≠ ledgerTickets d → exec (.ledgerAudit d) s = .next ((s.raise (ledgerPlace d).1 0x043 4 none (ledgerPlace d).2
        (ledgerTickets d) sum).noteAudit d)) ∧
      (∀ t, mget none s.audited (ledgerKey d) = some t → t + 10000000 ≤ s.now → ledgerKey d ∉ s.auditFirst →
        exec (.auditLate d) s = .next (({ s with auditFirst := s.auditFirst ++ [ledgerKey d] }).report unitAudit 0x1A2 1 none
          (ledgerKey d) ((s.now - t) / 1000000) 0))) ∧
    (∀ (l : MeshLink) (vc : Vc), ledgerPlace (.mesh l vc) =
      (l.site.val, l.inPort.val + 256 * (if vc.val = 20 then 0xFF else vc.val)))

/-- 05 R170 to R172, R174; 12 R388: a write of whole blocks of a sealed region reads nothing first.
Where the spec leaves a choice, the clauses follow the model's: log entry 37. -/
def Obligations.HbmServes : Prop :=
  ∀ (r : MemReq) (ecc : Ecc) (mac : MacCheck) (ns : Nat) (s : State), s.live = true →
    let b := r.bolt.val
    let st := s.accessStatus b (s.reqSrc r) r.scene 0 r.off (reqSize r) (!r.write) r.write false
    let done := fun (u : State) => u.monitor 0 (unitChan (r.off / chanBytes / 8 * 8)) r.cls.val b ns
    let ue := fun (u : State) =>
      done ((u.raiseUe b (mkFa s.modNum 0 r.off) (reqSite r) r.tag.toNat).answer r stUe [])
    (st = none → exec (.hbmAccess r ecc mac ns) s = .next s) ∧
    (∀ x, st = some x → x ≠ 0 → exec (.hbmAccess r ecc mac ns) s = .next (if x = stUe then ue s else done (s.answer r x []))) ∧
    (st = some 0 → s.integrity 0 r mac = none →
      (ecc = .clean ∨ (ecc = .uncorrectable ∧ s.twinServes 0 r.off = true) → r.write = false →
        exec (.hbmAccess r ecc mac ns) s = .next (done ((s.readMeta 0 r.off r.len).answer r 0 (s.peek 0 r.off r.len)))) ∧
      (ecc = .clean ∨ (ecc = .uncorrectable ∧ s.reads 0 r = false) → r.write = true →
        (s.poke 0 r.off r.data).mirrorDue 0 r.off r.data.length = false →
        exec (.hbmAccess r ecc mac ns) s = .next (done ((s.poke 0 r.off r.data).answer r 0 []))) ∧
      (ecc = .uncorrectable → s.reads 0 r = true → (r.write = true ∨ s.twinServes 0 r.off = false) →
        exec (.hbmAccess r ecc mac ns) s = .next (ue (s.ueMark r.off)))) ∧
    (∀ x : State, faSpace (mkFa s.modNum 0 r.off) = 0 → x.raiseUe b (mkFa s.modNum 0 r.off) (reqSite r) r.tag.toNat =
      x.raise (unitChan (faOff (mkFa s.modNum 0 r.off) / chanBytes)) 0x071 2 (some b) (mkFa s.modNum 0 r.off) (reqSite r)
        r.tag.toNat) ∧
    (∀ off : Nat, (s.ueMark off).readsUe 0 off 1 = true ∧
      ∀ lo hi, lo ≤ off / 64 * 64 → off / 64 * 64 + 64 ≤ hi → (s.ueClear lo hi).readsUe 0 off 1 = false) ∧
    (r.write = false → s.reads 0 r = true) ∧
    (r.write = true → r.data ≠ [] →
      let u := if s.sealedAt 0 r.off = true then 512 else 64
      (s.reads 0 r = false ↔ r.off % u = 0 ∧ r.data.length % u = 0)) ∧
    (∀ (c : Chan) (off : Nat), s.chanUp c.val = true →
      let a := c.val * chanBytes + off % chanBytes
      exec (.hbmScrub c off .clean) s = .next s ∧ exec (.hbmScrub c off .corrected) s = .next (s.chanCorrect a) ∧
      (mget 0 s.chanCe c.val + 1 < 2 ^ 16 → s.chanCorrect a = { s with
        chanCe := mset 0 s.chanCe c.val (mget 0 s.chanCe c.val + 1) }) ∧
      exec (.hbmScrub c off .uncorrectable) s =
        .next ((s.ueMark a).report (unitChan c.val) 0x072 1 none (mkFa s.modNum 0 a) 0 0)) ∧
    (∀ (k : Fin 24) (temp : Nat),
      (85 ≤ temp → s.hot.contains k.val = false → exec (.hbmRefreshHot k temp) s =
        .next (({ s with hot := k.val :: s.hot }).report (unitChan (k.val * 16)) 0x074 0 none 1 temp 0)) ∧
      (temp < 85 → s.hot.contains k.val = true → exec (.hbmRefreshHot k temp) s =
        .next (({ s with hot := s.hot.erase k.val }).report (unitChan (k.val * 16)) 0x074 0 none 0 temp 0)) ∧
      ((85 ≤ temp ↔ s.hot.contains k.val = true) → exec (.hbmRefreshHot k temp) s = .next s)) ∧
    (∀ (c : Chan) (f : Bool),
      (s.chanUp c.val = false → exec (.hbmChDown c f) s = .next s) ∧
      (s.chanUp c.val = true →
        let u := s.clrReg (0x200 + 4 * (c.val / 32)) (2 ^ (c.val % 32))
        u.chanUp c.val = false ∧ (∀ c' : Chan, c' ≠ c → u.chanUp c'.val = s.chanUp c'.val) ∧
        exec (.hbmChDown c f) s = .next ((s.chanBolts c.val).foldl (fun x b => x.boltFail b (unitChan c.val) 3 0x073)
          (u.report (unitChan c.val) 0x073 3 none (b2n f) (boltBits (s.chanBolts c.val)).1 (boltBits (s.chanBolts c.val)).2))))

/-- 05 R166. The action bit is the command's: FQ_RESUME or FQ_ABANDON.
Where the spec leaves a choice, the clauses follow the model's: log entry 36. -/
def Obligations.FaultQueueResponses : Prop :=
  ∀ (b : Bolt) (val : Word) (s : State), s.live = true →
    (∀ e es, (s.faults b.val).entries = e :: es → bits val.toNat 31 16 = e.seq →
      ((s.faults b.val).waiting = [] → ((s.faultPop b.val).faults b.val).entries = es) ∧
      (∀ q, s.heldAt e = some q →
        (∃ u, exec (.fqResume 0 b val) s = .next u ∧
          u.tensorHead e.site e.stream = some { q with phase := .started, pins := [], data := [] } ∧
          u.faults b.val = (s.faultPop b.val).faults b.val ∧ u.hbm = s.hbm ∧ u.cxl = s.cxl) ∧
        exec (.fqAbandon 0 b val) s = .next ((s.faultPop b.val).tensorFail e.site e.stream q
          (if e.reason = .unmapped ∨ e.reason = .malformed then 0x012 else 0x013) e.addr.toNat (b2n e.dstSide))) ∧
      (s.heldAt e = none → exec (.fqResume 0 b val) s = .next (s.faultPop b.val) ∧
        exec (.fqAbandon 0 b val) s = .next (s.faultPop b.val))) ∧
    (((s.faults b.val).entries = [] ∨ ∃ e es, (s.faults b.val).entries = e :: es ∧ bits val.toNat 31 16 ≠ e.seq) →
      exec (.fqResume 0 b val) s = .next (s.setErr 0 3) ∧ exec (.fqAbandon 0 b val) s = .next (s.setErr 0 3)) ∧
    (∀ fn : Fn, fn ≠ 0 → exec (.fqResume fn b val) s = .next (s.setErr fn 0) ∧
      exec (.fqAbandon fn b val) s = .next (s.setErr fn 0))

/-- 05 R158, R159, R161, R162; 07 R231: a shootdown is a request with its completion timer.
Where the spec leaves a choice, the clauses follow the model's: log entries 34 and 36. -/
def Obligations.Invalidations : Prop :=
  ∀ (n : InvSlot) (w7 : Word) (s : State), s.live = true →
    let go := w7.toNat % 2 ^ 31
    let s1 := s.setReg (invWord n.val 7) go
    let v := s1.invDesc n.val
    let s2 := s1.setReg (invStat n.val) (s1.reg (invStat n.val) % 2 ^ 16 + 2 ^ 16 * v.seq)
    let sc : InvScope := ⟨v.kind, v.bolt, v.start, v.stop⟩
    (∀ c ∈ [Instr.invRange n w7, Instr.invContext n w7, Instr.invAll n w7],
      (bit w7.toNat 31 = true → bit (s.reg (invStat n.val)) 0 = true → exec c s = .next (s.orReg (invStat n.val) 8)) ∧
      (bit w7.toNat 31 = true → bit (s.reg (invStat n.val)) 0 = false → s2.invBad n.val v = true →
        exec c s = .next (if v.fen = true then (s2.orReg (invStat n.val) 4).signal v.fence v.fval.toNat 1 false
          else s2.orReg (invStat n.val) 4)) ∧
      (bit w7.toNat 31 = true → bit (s.reg (invStat n.val)) 0 = false → s2.invBad n.val v = false →
        ∃ u, exec c s = .next u ∧ (∀ k l, k < 5 → l ∈ u.tc k → sc.leaf l = false) ∧
          (∀ w ∈ u.pfWalks, sc.overlaps w.bolt w.walk = false) ∧
          (∀ t b l, s.tileBolt t = some b → l ∈ (u.tile t).utlb → sc.leaf l = false) ∧
          (∀ t b k q l, s.tileBolt t = some b → u.tensorHead t k = some q → q.phase = .committing → l ∈ q.pins →
            sc.leaf l = true → l.stale = true) ∧
          bit (u.reg (invStat n.val)) 0 = true ∧
          (∀ m b x y, s.invPeers v = [(m, b)] → s.egressPort (some (b, s.liveBit)) m = some x → s.sessFor m b = some y →
            ∃ q, mget none u.reqs (shootKey m (n.val + 64 * (v.seq % 1024))) = some q ∧ q.dst = m ∧ q.bolt = b ∧ q.port = x.1 ∧
              q.due = s.now + s.reg 0x224004 * 1000) ∧
          ∃ a, u.invAt n.val = some a ∧ a.seq = v.seq ∧ a.pins = s.invPins sc ∧ a.at_ = s.now ∧
            a.unacked.map (fun x => x.2) = (s.invPeers v).map (fun x => x.1))) ∧
    (∀ v, s.invAt n.val = some v → v.unacked = [] → s.invClear v.pins = true →
      exec (.invComplete n) s = .next (s.invEnd n.val v 2 0)) ∧
    (∀ (v : InvActive) (p : Port) (m : ModNum), s.invAt n.val = some v → (p.val, m.toNat) ∈ v.unacked →
      v.at_ + 500000 ≤ s.now →
      exec (.invTimeout n p m) s = .next (((s.invBolts v m.toNat).drop 1).foldl
        (fun x b => x.boltFail b (unitPort p.val) 3 0x060)
        ((s.invEnd n.val v 18 0x14).raise (unitPort p.val) 0x060 3 (s.invBolts v m.toNat).head?
          (n.val + 2 ^ 16 * v.seq) m.toNat ((s.invBolts v m.toNat).headD 0)))) ∧
    (∀ v flags st, (s.invEnd n.val v flags st).invAt n.val = none ∧
      (v.fen = false → (s.invEnd n.val v flags st).reg (invStat n.val) % 2 = (0 : Nat) ∨ flags % 2 = 1))

/-- 07 R213, R214, R219, R220, R253. Every entry to RETRAIN raises CR_RETRAIN once it ends; a port that leaves UP shows DOWN_EVT.
Where the spec leaves a choice, the clauses follow the model's: log entry 46. -/
def Obligations.CreustPortStates : Prop :=
  ∀ (p : Port) (s : State), s.live = true →
    let c := s.port p.val
    let n := p.val
    (∀ (val : Word) (i : Instr), i = .portEnable 0 p val ∨ i = .retrain 0 p val →
      (s.loom.committed = false → bit (s.reg (cru n 0)) 0 = false → val = 1 →
        ∃ u, exec i s = .next u ∧ bit (u.reg (cru n 0)) 0 = true ∧
          (u.port n).mode = (if s.cageOk n = true then PortMode.train else .down) ∧ (u.port n).badTrain = 0) ∧
      (s.loom.committed = false → bit (s.reg (cru n 0)) 0 = true → val = 0 →
        exec i s = .next ((s.clrReg (cru n 0) 1).portLeave n 1 .down)) ∧
      (s.loom.committed = true → bit val.toNat 1 = false → exec i s = .next (s.setErr 0 2)) ∧
      (s.loom.committed = true → bit val.toNat 1 = true → c.mode ≠ .down →
        let u := match c.mode with
          | .retrain => (s.setErr 0 2).retrainOver n (s.now - c.retrainAt)
          | .up => (s.setErr 0 2).orReg (cru n 4) 0x20
          | _ => s.setErr 0 2
        exec i s = .next ((u.updPort n (fun c => { c with mode := .train, badTrain := 0 })).uCheck n))) ∧
    (∀ (fn : Fn) (val : Word), fn ≠ 0 → exec (.portEnable fn p val) s = .next (s.setErr fn 0) ∧
      exec (.retrain fn p val) s = .next (s.setErr fn 0)) ∧
    (∀ us, c.mode = .train →
      exec (.linkTrainingEnd p true us) s = .next (s.updPort n (fun c => { c with mode := .align, trainUs := us })) ∧
      (c.badTrain < 2 → exec (.linkTrainingEnd p false us) s =
        .next (s.updPort n (fun c => { c with mode := .train, badTrain := c.badTrain + 1 }))) ∧
      (c.badTrain = 2 → c.peerOk = false → ∃ u, exec (.linkTrainingEnd p false us) s = .next u ∧ (u.port n).mode = .failed)) ∧
    (c.mode = .align →
      exec (.codewordLock p true) s =
        .next ((s.updPort n (fun c => { c with mode := .param, badTrain := 0 })).sendSlot n 0x87
          [0, s.modNum + 2 ^ 12 * n, 160 + 2 ^ 16 * 23296, 8192 + 2 ^ 16]) ∧
      (c.badTrain < 2 → exec (.codewordLock p false) s =
        .next (s.updPort n (fun c => { c with mode := .train, badTrain := c.badTrain + 1 })))) ∧
    (∀ w : ParamSlot, c.mode = .param →
      let offer := (w.isSwitch, w.module_.toNat, w.port.toNat, w.dedicated.toNat, w.shared.toNat, w.redCells.toNat)
      ((s.portRec n = none ∨ ∃ r, s.portRec n = some r ∧ r.accepts w = true) → c.peerOk = false → c.egress = [] →
        ∃ u, exec (.param p w) s = .next u ∧ (u.port n).mode = .up ∧ (u.port n).peer = some offer ∧
          (u.port n).peerOk = true) ∧
      (∀ r, s.portRec n = some r → r.accepts w = false → c.peerOk = false →
        exec (.param p w) s = .next (if c.peer = some offer then s else s.peerMismatch n w r)) ∧
      (∀ r, s.portRec n = some r → r.accepts w = false → c.peerOk = true →
        exec (.param p w) s = .next ((s.linkDown n 2 .param).peerMismatch n w r)) ∧
      (∀ r : PortRec, r.accepts w = true ↔ w.isSwitch = r.peerSw ∧
        (if w.isSwitch = true then 160 ≤ w.dedicated.toNat
         else w.module_.toNat = r.peerMod ∧ w.port.toNat = r.peerPort))) ∧
    (∀ (x : State) (cause cseq : Nat), x.enterRetrain n cause cseq = (((x.updPort n (fun c => { c with
      mode := .retrain, retrainCause := cause, nakCseq := cseq, retrainAt := x.now })).bump (cru n 0x28) 1).orReg (cru n 4)
        0x20).uCheck n) ∧
    (c.mode = .up →
      (8 ≤ c.nakCount → exec (.nakBound p) s = .next (s.enterRetrain n 0 c.nakCseq)) ∧
      (∀ r rs, c.replay = r :: rs → c.ackAt + 20000 ≤ s.now → exec (.ackStall p) s = .next (s.enterRetrain n 1 r.cseq))) ∧
    (∀ ns, c.mode = .retrain →
      (∃ u l, exec (.fastRetrainEnd p true ns) s = .next u ∧ (u.port n).mode = .up ∧ (u.port n).nakCount = 0 ∧
        (u.port n).replay = c.replay ++ l ∧ (u.port n).egress = c.egress ∧ (u.port n).resync = true) ∧
      exec (.fastRetrainEnd p false ns) s = .next ((s.report (unitPort n) 0x0C2 1 none c.retrainCause c.nakCseq ns).updPort n
        (fun c => { c with mode := .train, badTrain := 0 }))) ∧
    (∀ x : State, n < 16 → x.uCheck n = x)

/-- 07 R210 to R212, R216 to R218, R220, R221, R223, R226.
Where the spec leaves a choice, the clauses follow the model's: log entries 45, 46 and 47. -/
def Obligations.CreustCodewords : Prop :=
  (∀ h : PktHdr, hdrOf (hdrBytes h) = h) ∧
  ∀ (p : Port) (s : State), s.live = true →
    let c := s.port p.val
    let n := p.val
    (∀ cw : Codeword, c.mode = .up ∨ c.mode = .param →
      (c.takes cw = true ↔ cw.fec ≠ .failed ∧ cw.tag = cwTag (cwSeq cw) cw.data ∧ cwSeq cw = c.rxCseq ∧
        (scanCw c.rxDue cw.data).bad = false) ∧
      (cwSeq cw ≠ 0xFFF → c.takes cw = true →
        ∃ u, exec (.codewordReceive p cw) s = .next u ∧ (u.port n).rxCseq = (c.rxCseq + 1) % 4095 ∧
          (u.port n).nakSent = false ∧ (u.port n).ledgers = (c.fill (scanCw c.rxDue cw.data).cells).ledgers ∧
          (u.port n).rxDue = (scanCw c.rxDue cw.data).due ∧
          u.out.head? = some (.codeword n 0xFFF (cwFill [controlFlit [.link 0x81 [cwSeq cw]]]))) ∧
      (cwSeq cw = 0xFFF → cw.fec ≠ .failed →
        ∃ u, exec (.codewordReceive p cw) s = .next u ∧ (u.port n).rxCseq = c.rxCseq ∧ (u.port n).nakSent = c.nakSent ∧
          (u.port n).ledgers = c.ledgers ∧ (c.fecSec = s.now / giga → u.out = s.out)) ∧
      ((cw.fec = .failed ∨ (cwSeq cw ≠ 0xFFF ∧ c.takes cw = false)) →
        ∃ u, exec (.codewordReceive p cw) s = .next u ∧ (u.port n).rxCseq = c.rxCseq ∧ (u.port n).nakSent = true ∧
          (u.port n).ledgers = c.ledgers ∧
          (c.nakSent = false → u.out.head? = some (.codeword n 0xFFF (cwFill [controlFlit [.link 0x82 [c.rxCseq]]]))) ∧
          (c.nakSent = true → c.fecSec = s.now / giga → u.out = s.out))) ∧
    (∀ (x : State) (kind : Nat) (f : List Nat), kind = 0x81 ∨ kind = 0x82 ∨ kind = 0x83 →
      x.sendSlot n kind f = (x.bump (cru n 0x30) 1).emit (.codeword n 0xFFF (cwFill [controlFlit [.link kind f]]))) ∧
    (∀ (kind : Nat) (f : List Nat), kind ∉ [0x81, 0x82, 0x83] → c.flitQ = [] → c.maySend = true →
      let u := s.sendSlot n kind f
      let g := cwFill [controlFlit [.link kind f]]
      u.out = .codeword n c.txCseq g :: s.out ∧ (u.port n).txCseq = (c.txCseq + 1) % 4095 ∧ (u.port n).flitQ = [] ∧
      (u.port n).replay = c.replay ++ [⟨c.txCseq, [], g⟩] ∧ (u.port n).ledgers = c.ledgers ∧ (u.port n).egress = c.egress) ∧
    (c.mode = .up →
      (c.egress = [] → c.flitQ = [] → s.drain n = s.updPort n (fun c => { c with blocked := [] })) ∧
      (∀ e no sp, c.egress = [e] → c.flitQ = [] → c.maySend = true → s.pickLedger n e = some (no, sp) → e.ski = none →
        e.h.sealed = false → pktHasData e.h.kind.toNat = false →
        let u := s.drain n
        u.out = .codeword n c.txCseq (cwFill [controlFlit (.header { e.h with sp := sp } ::
          (match e.ext with
           | some b => [.ext b]
           | none => []))]) :: s.out ∧
        (u.port n).egress = [] ∧ ((u.port n).ledger no).taken = (c.ledger no).taken + e.cells ∧
        ∀ k, k ≠ no → (u.port n).ledger k = c.ledger k) ∧
      (∀ (k : BitVec 12) (a b : List ReplayCw) (r : ReplayCw), c.replay = a ++ r :: b → r.cseq = k.toNat →
        (∀ x ∈ a, x.cseq ≠ k.toNat) →
        c.replayFrom k.toNat = r :: b ∧
        exec (.ack p k) s = .next ((s.updPort n (fun c => { c with replay := b, ackAt := s.now, nakCount := 0 })).drain n)) ∧
      (∀ k : BitVec 12, exec (.nak p k) s = .next ((s.updPort n (fun c => { c with
        nakCseq := k.toNat, nakCount := if c.nakCseq = k.toNat then c.nakCount + 1 else 1 })).replayCws n
          (c.replayFrom k.toNat))) ∧
      (∀ (x : State) (l : List ReplayCw),
        (x.replayCws n l).out = (l.map (fun r => Out.codeword n r.cseq r.flits)).reverse ++ x.out ∧
        (x.replayCws n l).ports = x.ports) ∧
      (∀ (k : BitVec 12) (no : LedgerNo) (occ : Nat) (l : List ReplayCw), c.egress = [] → c.flitQ = [] →
        ((k.toNat = c.txCseq ∧ (∀ x ∈ c.replay, x.cseq ≠ k.toNat) ∧ l = []) ∨
         ∃ a r b, c.replay = a ++ r :: b ∧ r.cseq = k.toNat ∧ (∀ x ∈ a, x.cseq ≠ k.toNat) ∧ l = r :: b) →
        let rest := l.map (fun r => if c.resync = true then { r with flits := r.flits.map WFlit.noLink } else r)
        ∃ u, exec (.resync p k no occ) s = .next u ∧ (u.port n).replay = rest ∧ (u.port n).resync = false ∧
          ((u.port n).ledger no).taken = occ + replayCells rest no ∧
          (∀ j, j ≠ no → (u.port n).ledger j = c.ledger j) ∧
          u.out = (if c.resync = true then (rest.map (fun r => Out.codeword n r.cseq r.flits)).reverse else []) ++ s.out) ∧
      (∀ (l : List Nat) (sh : Nat), l.length = 8 → c.egress = [] → ∃ u, exec (.credit p l sh) s = .next u ∧
        (∀ k m, l[k]? = some m → ((u.port n).ledger k).taken = (c.ledger k).taken - m) ∧
        ((u.port n).ledger 9).taken = (c.ledger 9).taken - sh ∧
        (∀ k, 9 < k → (u.port n).ledger k = c.ledger k)) ∧
      (∀ (g : Group) (m : Nat), c.egress = [] → ∃ u, exec (.redCredit p [(g, m)]) s = .next u ∧
        ((u.port n).ledger (16 + g.val)).taken = (c.ledger (16 + g.val)).taken - m ∧
        (∀ k, k ≠ 16 + g.val → (u.port n).ledger k = c.ledger k)) ∧
      (∀ (no : LedgerNo) (held ret : Nat), s.ownAllot n no ≠ 0 →
        let v := c.ledger no
        let sum : Int := (held : Int) + v.occ + ((v.freed : Int) + v.owed - ret)
        (sum = s.ownAllot n no → exec (.audit p no held ret) s = .next s) ∧
        (sum ≠ s.ownAllot n no → exec (.audit p no held ret) s =
          .next (s.raise (unitPort n) 0x0C4 4 none no (s.ownAllot n no) (ofInt 64 sum)))) ∧
      (exec (.timeExchange p) s = .next ((s.updPort n (fun c => { c with
        t1 := some s.now, missed := if c.t1.isSome = true then c.missed + 1 else c.missed })).sendSlot n 0x83 [0, s.time.toNat])) ∧
      (∀ ta tb tc : BitVec 64,
        (s.stuSrc = 1 ∨ s.stu.child = true → exec (.time p false ta tb tc) s =
          .next (s.sendSlot n 0x83 [1, s.time.toNat, s.time.toNat, ta.toNat])) ∧
        (c.t1 = some (unpackTime tc) →
          let t4 : Int := s.now
          let t3 : Int := unpackTime ta
          let t2 : Int := unpackTime tb
          let t1 : Int := unpackTime tc
          let u := s.updPort n (fun c => { c with
            delay := min 0xFFFF (((t4 - t1) - (t3 - t2)) / 2).toNat, t1 := none, missed := 0 })
          (s.stuSrc ≠ 1 ∨ n ≠ s.stuParent → exec (.time p true ta tb tc) s = .next u) ∧
          (s.stuSrc = 1 → n = s.stuParent → exec (.time p true ta tb tc) s =
            .next (u.measured (((t2 - t1) + (t3 - t4)) / 2) (t4 + ((t2 - t1) + (t3 - t4)) / 2).toNat 1 3 64)))))

/-- 07 R226, R227, R229, R230, R232 to R235, R238, R242, R243.
Where the spec leaves a choice, the clauses follow the model's: log entries 48 and 119. -/
def Obligations.CreustRequests : Prop :=
  (∀ (k : DirKey) (h : PktHdr) (e : Option (List Byte)) (d : List Byte),
    pktCrypt k h (pktCrypt k h e d).1 (pktCrypt k h e d).2 = (e, d) ∧
    tagOk k h e d (BitVec.ofNat 128 (leNat (pktTag k h e d))) = true ∧
    ∀ v q : Bool, pktTag k { h with vs := v, sp := q } e d = pktTag k h e d) ∧
  (∀ (e : HeldReq) (h : PktHdr), e.stops h = true ↔ e.seq < h.seq.toNat ∧
    (e.tc = h.tc.toNat ∨ (h.kind = 6 ∧ bit h.opx.toNat e.tc = true) ∨ ∃ m, e.mask = some m ∧ bit m h.tc.toNat = true)) ∧
  ∀ (p : Port) (h : PktHdr) (tag : GcmTag) (s : State),
    let fa := h.addr.toNat
    let sp := faSpace fa
    let off := faOff fa
    let n := pktBytes h
    let k := h.ski.toNat
    (∀ e d, (∀ x, s.sessAt k = some x → x.phase ≠ .opened ∨ x.fits h = false) → s.rxCheck p.val h e d tag =
      (s.report (unitPort p.val) 0x0CD 0 none (srcSki h) h.kind.toNat 0, none)) ∧
    (∀ x : Sess, x.fits h = true ↔ x.peer = h.src.toNat ∧ x.bolt = h.bolt.toNat ∧ x.sealed = h.sealed) ∧
    (∀ x e d, s.sessAt k = some x → x.phase = .opened → x.fits h = true →
      (x.sealed = true → tagOk x.rxKey h e d tag = false → s.rxCheck p.val h e d tag = (s.raise (unitPort p.val) 0x0C5 3
        (some h.bolt.toNat) (srcSki h) (h.seq.toNat % 2 ^ 32) h.bolt.toNat, none)) ∧
      (x.sealed = false ∨ tagOk x.rxKey h e d tag = true → h.seq.toNat < mget 0 x.rx (seqKey h) →
        s.rxCheck p.val h e d tag = (s.raise (unitPort p.val) 0x0C6 3 (some h.bolt.toNat) (srcSki h) (h.seq.toNat % 2 ^ 32)
          ((mget 0 x.rx (seqKey h) - 1) % 2 ^ 32), none)) ∧
      (x.sealed = false ∨ tagOk x.rxKey h e d tag = true → mget 0 x.rx (seqKey h) ≤ h.seq.toNat →
        ∃ y, (s.rxCheck p.val h e d tag).2 = some y ∧ mget 0 y.sess.rx (seqKey h) = h.seq.toNat + 1 ∧
          (s.rxCheck p.val h e d tag).1.sessAt k = some y.sess ∧
          (y.ext, y.data) = (if x.sealed = true then pktCrypt x.rxKey h e d else (e, d)))) ∧
    (∀ len rd wr at_ shape ops,
      (s.sceneFor h.bolt.toNat h.scene = none → s.pktStatus h len rd wr at_ shape ops = some stScene) ∧
      (s.sceneFor h.bolt.toNat h.scene ≠ none → shape = false → s.pktStatus h len rd wr at_ shape ops = some stMalformed) ∧
      (s.sceneFor h.bolt.toNat h.scene ≠ none → shape = true → 2 < sp → s.pktStatus h len rd wr at_ shape ops = some stDenied)) ∧
    (∀ y, s.sessAt k = some y → ∃ z, (s.holdReq h).sessAt k = some z ∧
      ({ seq := h.seq.toNat, tc := h.tc.toNat, mask := if h.kind = 6 then some h.opx.toNat else none } : HeldReq) ∈ z.held ∧
      (s.holdReq h).hbm = s.hbm ∧ (s.holdReq h).cxl = s.cxl ∧ (s.holdReq h).tiles = s.tiles ∧ (s.holdReq h).out = s.out ∧
      (s.holdReq h).ports = s.ports) ∧
    (s.arrives p.val h 1 = true →
      let c := (s.freeCells p.val h false).rxCheck p.val h none [] tag
      let st := c.1.pktStatus h n true false false (pktFields h && h.opx == 0 && h.aux == 0) (fun _ => true)
      let u := c.1.unholdReq h
      (c.2 = none → exec (.ld p h tag) s = .next c.1) ∧
      (∀ x, c.2 = some x → x.sess.held.any (fun e => e.stops h) = true → exec (.ld p h tag) s = .next (s.holdReq h)) ∧
      (∀ x, c.2 = some x → x.sess.held.any (fun e => e.stops h) = false →
        (st = none → exec (.ld p h tag) s = .next (s.holdReq h)) ∧
        (st = some 0 → exec (.ld p h tag) s = .next ((u.readMeta sp off n).sendRsp 0x21 h 0 0 (u.peek sp off n))) ∧
        (∀ j, st = some j → j ≠ 0 → exec (.ld p h tag) s = .next ((u.pktUe h j).sendRsp 0x21 h j 0 [])))) ∧
    (∀ data : List Byte, s.arrives p.val h 2 = true →
      let c := (s.freeCells p.val h false).rxCheck p.val h none data tag
      let st := c.1.pktStatus h n false true false (pktFields h && h.opx == 0 && h.aux == 0 && data.length == n) (fun _ => true)
      let u := c.1.unholdReq h
      (c.2 = none → exec (.st p h data tag) s = .next c.1) ∧
      (∀ x, c.2 = some x → x.sess.held.any (fun e => e.stops h) = true ∨ st = none →
        exec (.st p h data tag) s = .next (s.holdReq h)) ∧
      (∀ x, c.2 = some x → x.sess.held.any (fun e => e.stops h) = false →
        (st = some 0 → (u.poke sp off x.data).mirrorDue sp off n = false →
          exec (.st p h data tag) s = .next ((u.poke sp off x.data).sendRsp 0x22 h 0 0 [])) ∧
        (∀ j, st = some j → j ≠ 0 → exec (.st p h data tag) s = .next ((u.pktUe h j).sendRsp 0x22 h j 0 [])))) ∧
    (∀ data : List Byte, s.arrives p.val h 3 = true →
      let c := (s.freeCells p.val h false).rxCheck p.val h none data tag
      let st := c.1.pktStatus h n false true false
        (pktFields h && decide (h.opx.toNat < 2) && h.aux == 0 && data.length == n) (fun _ => true)
      ∀ x, c.2 = some x → x.sess.held.any (fun e => e.stops h) = false →
      let u := (c.1.unholdReq h).poke sp off x.data
      let owed := mget 0 x.sess.bulkOwed h.tc.toNat + 1
      (st = some 0 → h.opx.toNat = 1 ∨ 16 ≤ owed → (u.owe h 0).mirrorDue sp off n = false →
        exec (.bulkWr p h data tag) s = .next ((u.owe h 0).sendRsp 0x23 h 0 h.seq.toNat [])) ∧
      (st = some 0 → h.opx.toNat = 0 → owed < 16 → exec (.bulkWr p h data tag) s = .next (u.owe h owed)) ∧
      (∀ j, st = some j → j ≠ 0 → exec (.bulkWr p h data tag) s =
        .next (((c.1.unholdReq h).pktUe h j).sendRsp 0x23 h j h.seq.toNat []))) ∧
    (∀ lo hi : BitVec 128, s.arrives p.val h 4 = true →
      let m := if bit h.opx.toNat 2 = true then 8 else 4
      let c := (s.freeCells p.val h true).rxCheck p.val h (some (leBytes 16 lo.toNat ++ leBytes 16 hi.toNat)) [] tag
      ∀ x e, c.2 = some x → x.ext = some e → x.sess.held.any (fun y => y.stops h) = false →
      let u := c.1.unholdReq h
      let old := leNat (u.peek sp off m)
      let a := leNat ((e.drop 8).take m)
      let b := leNat ((e.drop 16).take m)
      let new := match h.opx.toNat % 4 with
        | 0 => (old + a) % 2 ^ (8 * m)
        | 1 => if old = a then b else old
        | 2 => max old a
        | _ => if toSigned (8 * m) old < toSigned (8 * m) a then a else old
      let w := u.poke sp off (leBytes m new)
      leNat (e.take 1) = 0x40 →
      c.1.pktStatus h m false false true (pktFields h && decide (h.opx.toNat < 8) && h.aux == 0 && h.len == 0 && off % m == 0)
        (fun j => decide (j < 2)) = some 0 →
      w.mirrorDue sp off 8 = false →
      exec (.atom p h lo hi tag) s = .next (w.sendRsp 0x24 h 0 old [])) ∧
    (s.arrives p.val h 5 = true →
      let c := (s.freeCells p.val h false).rxCheck p.val h none [] tag
      let u := c.1.unholdReq h
      let w := h.aux.toNat
      ∀ x, c.2 = some x → x.sess.held.any (fun e => e.stops h) = false → c.1.sceneFor h.bolt.toNat h.scene ≠ none →
        pktBare h = true → h.opx = 0 → w < 2 ^ 23 →
        (∀ t, c.1.siteOf h.bolt.toNat (bits w 15 0) = some t → exec (.sem p h tag) s =
          .next ((u.semAddAt t (bits w 18 16) (bits w 22 19 + 1) 0xFFFF).sendRsp 0x26 h 0 0 [])) ∧
        (c.1.siteOf h.bolt.toNat (bits w 15 0) = none → exec (.sem p h tag) s = .next (u.sendRsp 0x26 h stDenied 0 []))) ∧
    (s.arrives p.val h 6 = true →
      let c := (s.freeCells p.val h false).rxCheck p.val h none [] tag
      ∀ x, c.2 = some x → c.1.sceneFor h.bolt.toNat h.scene ≠ none → pktBare h = true → h.opx ≠ 0 → h.aux = 0 →
      exec (.creustFence p h tag) s = .next (if x.sess.held.any (fun e => e.stops h) = true then s.holdReq h
        else (c.1.unholdReq h).sendRsp 0x25 h 0 0 []))

/-- 07 R236, R237, R240, R241, R244, R252.
Where the spec leaves a choice, the clauses follow the model's: log entries 32, 48 and 118. -/
def Obligations.CreustSessionsAndGroups : Prop :=
  (∀ (x y : Sess) (a b : Nat), a < b → x.peer = b → y.peer = a → x.secretIn = y.secretOut → x.secretOut = y.secretIn →
    x.offerOut = y.offerIn → x.offerIn = y.offerOut → x.encapsOut = y.encapsIn → x.encapsIn = y.encapsOut →
    (x.derive a).txKey = (y.derive b).rxKey ∧ (x.derive a).rxKey = (y.derive b).txKey) ∧
  ∀ (p : Port) (h : PktHdr) (tag : GcmTag) (s : State),
    let src := h.src.toNat
    let b := h.bolt.toNat
    let f := s.freeCells p.val h false
    (∀ (data d : List Byte) (ok : Bool) (l : List SessMsg), s.arrives p.val h 0x11 = true → f.setupStatus h data = 0 →
      h.opx = 1 ∨ h.opx = 2 →
      let v := f.setupRsp h (((f.setupSess src b).map (fun x => x.2.peerSki)).getD 0) 0
      let i := bits h.aux.toNat 7 0
      let n := bits h.aux.toNat 15 8
      let w := { v with sessIn := l }
      (∀ m ∈ l, m.src ≠ src ∨ m.bolt ≠ b) →
      (i = 0 ∧ d = [] ∧ v.sessIn = l) ∨ (0 < i ∧ v.sessIn = l ++ [⟨src, b, h.opx.toNat, i, d, none⟩]) →
      (i + 1 < n →
        let u := { v with sessIn := l ++ [⟨src, b, h.opx.toNat, i + 1, d ++ data, none⟩] }
        (h.opx = 1 → exec (.sessOffer p h data ok) s = .next u) ∧ (h.opx = 2 → exec (.sessEncaps p ⟨h, data⟩) s = .next u)) ∧
      (∀ k x, n ≤ i + 1 → v.setupSess src b = some (k, x) →
        (h.opx = 1 → x.phase = .offerSent → exec (.sessOffer p h data ok) s = .next (w.takeOffer k x (d ++ data) ok)) ∧
        (h.opx = 2 → x.phase = .encapsSent → exec (.sessEncaps p ⟨h, data⟩) s = .next (w.takeEncaps k x (d ++ data))))) ∧
    (∀ (k : Nat) (x : Sess) (m : List Byte) (ok : Bool),
      (x.sealed = true → ok = false → s.takeOffer k x m ok = s.setupFail (s.routePort x.peer) k 0) ∧
      (x.sealed = false → s.takeOffer k x m ok = (s.setSess k (some { x with
        peerSki := leNat (m.take 2) % 2 ^ 14, capHbm := leNat ((m.drop 2).take 8), capCxl := leNat ((m.drop 10).take 8)
        capDark := (List.range 256).filter (fun t => bit (leNat ((m.drop 18).take 32)) t)
        offerIn := m.take 50 })).sendConfirm k) ∧
      (x.sealed = true → ok = true →
        let key := m.take kemBytes
        let ct := (List.range kemBytes).map (fun i => Config.kemCipher key s.freeCtr i)
        s.takeOffer k x m ok = (({ s with freeCtr := s.freeCtr + 1 } : State).setSess k (some { x with
          peerSki := leNat ((m.drop kemBytes).take 2) % 2 ^ 14, capHbm := leNat ((m.drop (kemBytes + 2)).take 8)
          capCxl := leNat ((m.drop (kemBytes + 10)).take 8)
          capDark := (List.range 256).filter (fun t => bit (leNat ((m.drop (kemBytes + 18)).take 32)) t)
          offerIn := m.take (kemBytes + 50 + offerSigLen), phase := .encapsSent, encapsOut := ct
          secretOut := Config.kemSecret key s.freeCtr })).sendSess k 2 true ct) ∧
      s.takeEncaps k x m = (s.setSess k (some (({ x with
        encapsIn := m.take kemBytes
        secretIn := Config.kemOpen ((s.ctx x.bolt).kemKey.getD 0) (m.take kemBytes) } : Sess).derive s.modNum))).sendConfirm k) ∧
    (∀ (k : Nat) (data : List Byte) (x : Sess), s.arrives p.val h 0x11 = true → h.opx = 3 → k = h.ski.toNat →
      s.sessAt k = some x → x.phase = .confirmSent → x.peer = src → x.bolt = b →
      (x.sealed = h.sealed → h.seq = 0 → (x.sealed = true → tagOk x.rxKey h none data tag = true) →
        exec (.sessConfirm p h ⟨data, tag⟩) s =
          .next ((f.setSess k (some { x with phase := .opened, rx := mset 0 x.rx (seqKey h) 1 })).setupRsp h x.peerSki 0)) ∧
      (x.sealed ≠ h.sealed ∨ h.seq ≠ 0 ∨ (x.sealed = true ∧ tagOk x.rxKey h none data tag = false) →
        exec (.sessConfirm p h ⟨data, tag⟩) s = .next (f.setupFail p.val k 1))) ∧
    (∀ (data : List Byte) (k : Nat) (x : Sess), s.arrives p.val h 0x11 = true → h.opx = 4 → f.setupSess src b = some (k, x) →
      (x.phase = .opened →
        let c := f.rxCheck p.val h none data tag
        let v := (c.1.sendRsp 0x31 h 0 0 []).dropSess h.ski.toNat
        (c.2 = none → exec (.sessClose p h data tag) s = .next c.1) ∧
        (∀ y, c.2 = some y →
          let cause := leNat (y.data.take 2)
          v.sessAt h.ski.toNat = none ∧
          exec (.sessClose p h data tag) s =
            .next (if cause = 0 ∨ (v.ctx b).mode = .empty then v else v.boltStop b cause))) ∧
      (x.phase ≠ .opened → h.sealed = false → f.setupStatus h data = 0 →
        let w := (f.setupRsp h x.peerSki 0).dropMessages src b
        let cause := leNat (data.take 2)
        exec (.sessClose p h data tag) s = .next (if cause = 0 then w
          else if (w.ctx b).mode = .empty then w.dropSess k else (w.dropSess k).boltStop b cause))) ∧
    (∀ (q peer c cause : Nat), s.sessFail q peer c cause =
      (s.loadFail c 0x13 (3 * 4096 + 0x0CB)).raise (unitPort q) 0x0CB 3 (some c) peer cause c) ∧
    (∀ (k : SessIx) (x : Sess), s.live = true → s.sessAt k.toNat = some x → x.openedAt + 1000000000 ≤ s.now →
      (x.phase = .closed → exec (.sessionTimeout k) s = .next (s.setSess k.toNat none)) ∧
      (x.phase = .opened → exec (.sessionTimeout k) s = .next s) ∧
      (x.phase ≠ .closed → x.phase ≠ .opened → exec (.sessionTimeout k) s =
        .next (((s.setSess k.toNat none).dropMessages x.peer x.bolt).sessFail (s.routePort x.peer) x.peer x.bolt 2))) ∧
    (∀ (data : List Byte) (x : RxPkt), s.arrives p.val h 8 = true →
      let w := h.aux.toNat
      let g := bits w 7 0
      let m := bits w 23 21 + 1
      let c := s.rxCheck p.val h none data tag
      c.2 = some x →
      (c.1.redTarget p.val h = none → exec (.red p h data tag) s = .next (c.1.freeCells p.val h false)) ∧
      ∀ scene r leaf, c.1.redTarget p.val h = some (scene, r, leaf) →
        (r.bolt = b ∧ r.bf16 = bit w 24 ∧ h.len.toNat = 8 * m - 1 ∧ h.addr = 0 ∧ h.tag = 0 ∧ leaf.port = true ∧
          leaf.site = p.val) ∧
        ((c.1.redRunOf g).failed = true → exec (.red p h data tag) s = .next (c.1.freeCells p.val h false)) ∧
        ((c.1.redRunOf g).failed = false → data.length = 512 * m →
          let per := if bit w 24 = true then 256 else 128
          let u := c.1.returnCells p.val (pktLedger h) (1 + b2n h.sealed)
          ∃ l : List RedInput, exec (.red p h data tag) s =
              .next (({ u with redStage := u.redStage ++ l } : State).redRefill g leaf.parent) ∧ l.length = m ∧
            ∀ j y, l[j]? = some y → y.group = g ∧ y.scene = scene ∧ y.node = leaf.parent ∧ y.rank = leaf.rank + 1 ∧
              y.chunk = bits w 20 8 + j ∧ y.len = per ∧
              y.data = ((redElems (bit w 24) (512 * m) x.data).drop (per * j)).take per)) ∧
    (s.arrives p.val h 0x10 = true →
      let c := f.rxCheck p.val h none [] tag
      let v : InvScope := ⟨h.opx.toNat, b, h.addr.toNat, h.addr.toNat + h.aux.toNat * 4096⟩
      c.2 ≠ none → c.1.sceneFor b h.scene ≠ none →
      (shootFields h = false → exec (.shoot p h tag) s = .next (c.1.sendRsp 0x30 h stMalformed 0 [])) ∧
      (shootFields h = true → c.1.invPins v = [] →
        exec (.shoot p h tag) s = .next ((c.1.invRemove v).sendRsp 0x30 h 0 0 [])) ∧
      (shootFields h = true → c.1.invPins v ≠ [] → ∃ u k a, exec (.shoot p h tag) s = .next u ∧ 64 ≤ k ∧
        u.invAt k = some a ∧ a.reply = some h ∧ a.pins = c.1.invPins v))

/-- 07 R227, R230 to R232, R234 to R236, R244, R246 to R248; 14 R462.
Where the spec leaves a choice, the clauses follow the model's: log entries 48 and 119. -/
def Obligations.CreustResponses : Prop :=
  ∀ (p : Port) (h : PktHdr) (tag : GcmTag) (s : State),
    let f := s.freeCells p.val h false
    let got := fun (d : List Byte) => f.rxCheck p.val h none d tag
    let ok := h.opx.toNat % 16 = 0
    let k := h.tag.toNat
    (∀ (data : List Byte) (x : RxPkt) (r : CrReq), s.arrives p.val h 0x21 = true → (got data).2 = some x → rspFields h = true →
      (got data).1.answered h k [1] = some r →
      let u := (got data).1
      let d := x.data.take r.len
      (ok →
        (∀ t j q, r.owner = .tensor t j q → exec (.rdData p h data tag) s =
          .next (((u.tensorData t j r.pos d).finishReq k r).shuttleGo t)) ∧
        (∀ fn, r.owner = .aperture fn → exec (.rdData p h data tag) s = .next ((u.emit (.apData fn d)).finishReq k r)) ∧
        (∀ c, r.owner = .firmware c → exec (.rdData p h data tag) s = .next ((u.fwArrive k 0 d).finishReq k r)) ∧
        (∀ m, r.owner = .walk m → exec (.rdData p h data tag) s = .next ((u.walkData m r.addr.toNat d).finishReq k r))) ∧
      (¬ ok → exec (.rdData p h data tag) s = .next (u.reqFail k r (h.opx.toNat % 16)))) ∧
    (∀ c ∈ [(Instr.atomRsp p h tag, 0x24, 4), (.fenceAck p h tag, 0x25, 6), (.semAck p h tag, 0x26, 5)],
      s.arrives p.val h c.2.1 = true → (got []).2 ≠ none → rspFields h = true →
      (∀ r, (got []).1.answered h k [c.2.2] = some r → exec c.1 s = .next (if ok
        then ((got []).1.finishReq k r).ownerGo r.owner else (got []).1.reqFail k r (h.opx.toNat % 16))) ∧
      ((got []).1.answered h k [c.2.2] = none → exec c.1 s = .next (got []).1)) ∧
    (s.mirrorAck p.val h = none → s.arrives p.val h 0x22 = true → (got []).2 ≠ none → rspFields h = true →
      let u := (got []).1
      (∀ r, u.answered h k [2] = some r →
        (ok → (∀ c, r.owner ≠ .firmware c) → exec (.wrAck p h tag) s = .next ((u.finishReq k r).ownerGo r.owner)) ∧
        (∀ c, ok → r.owner = .firmware c → exec (.wrAck p h tag) s = .next ((u.fwArrive k 0 []).finishReq k r)) ∧
        (¬ ok → exec (.wrAck p h tag) s = .next (u.reqFail k r (h.opx.toNat % 16)))) ∧
      (u.answered h k [2] = none → exec (.wrAck p h tag) s = .next u)) ∧
    (∀ r, s.arrives p.val h 0x22 = true → s.mirrorAck p.val h = some r → h.sealed = true →
      (tagOk (twinKey h) h none [] tag = false → exec (.wrAck p h tag) s = .next (f.raise (unitPort p.val) 0x0C5 3 (some r.bolt)
        (srcSki h) (h.seq.toNat % 2 ^ 32) r.bolt)) ∧
      (tagOk (twinKey h) h none [] tag = true → h.seq.toNat < f.twin.rxSeq → exec (.wrAck p h tag) s =
        .next (f.raise (unitPort p.val) 0x0C6 3 (some r.bolt) (srcSki h) (h.seq.toNat % 2 ^ 32) ((f.twin.rxSeq - 1) % 2 ^ 32))) ∧
      (tagOk (twinKey h) h none [] tag = true → f.twin.rxSeq ≤ h.seq.toNat → rspFields h = true → ok →
        exec (.wrAck p h tag) s =
          .next (({ f with twin := { f.twin with rxSeq := h.seq.toNat + 1 } } : State).finishReq k r))) ∧
    (s.arrives p.val h 0x23 = true → (got []).2 ≠ none → rspFields h = true → ok →
      exec (.bulkAck p h tag) s = .next (((got []).1.bulkCovered h h.addr.toNat).foldl
        (fun x e => (x.finishReq e.1 e.2).ownerGo e.2.owner) (got []).1)) ∧
    (∀ v x r, s.arrives p.val h 0x30 = true → (got []).2 ≠ none → rspFields h = true → h.opx = 0 →
      (got []).1.answered h (shootKey h.src.toNat k) [0x10] = some r → (got []).1.invAt (k % 64) = some v →
      v.unacked.find? (fun y => y.2 == h.src.toNat) = some x → v.seq % 1024 = k / 64 →
      ∃ u, exec (.shootAck p h tag) s = .next u ∧
        u.invAt (k % 64) = some { v with unacked := v.unacked.erase x } ∧ (r.isMirror = false → u.reqAt (shootKey h.src.toNat k) = none)) ∧
    (∀ r, s.arrives p.val h 0x31 = true → f.answered h k [0x11] = some r →
      (∀ x y, r.owner = .sess true → f.sessAt r.ski = some x → r.ski = h.ski.toNat → x.phase = .closed → x.fits h = true →
        (f.rxSess p.val h none [] tag x).2 = some y → rspFields h = true →
        exec (.sessRsp p h tag) s = .next (((f.rxSess p.val h none [] tag x).1.finishReq k r).setSess r.ski none)) ∧
      (r.owner ≠ .sess true → h.sealed = false → h.seq = 0 → rspFields h = true →
        exec (.sessRsp p h tag) s = .next (f.finishReq k r))) ∧
    (∀ (ext : BitVec 256) (data : List Byte) (cl : Nat), s.carries p.val h h.kind.toNat = true → s.isLocal h = false →
      pktClass h.kind.toNat = some cl →
      let atom := h.kind.toNat == 4
      let u := s.freeCells p.val h atom
      (cl = 4 → exec (.transitPacket p ⟨h, ext, data, tag⟩) s = .next u) ∧
      (cl ≠ 4 → u.egressPort none h.dst.toNat = none → exec (.transitPacket p ⟨h, ext, data, tag⟩) s =
        .next (u.raise (unitPort p.val) 0x0C9 2 (u.transitBolt h) h.dst.toNat h.src.toNat h.bolt.toNat)) ∧
      (∀ q dl, cl ≠ 4 → u.egressPort none h.dst.toNat = some (q, dl) →
        (u.crossMesh p.val q h atom = none → exec (.transitPacket p ⟨h, ext, data, tag⟩) s = .next s) ∧
        (∀ t, u.crossMesh p.val q h atom = some t → exec (.transitPacket p ⟨h, ext, data, tag⟩) s =
          .next (t.sendPkt q ⟨{ h with vs := h.vs || dl, sp := false }, data, if atom = true then some (leBytes 32 ext.toNat) else none,
            leBytes 16 tag.toNat, pktVl h.kind.toNat (h.vs || dl), none, none⟩)))) ∧
    (∀ (a : BitVec 16) (e : Nat) (r : CrReq), s.live = true → s.expired a.toNat = some (e, r) →
      r.due ≤ s.now ∧ e % 2 ^ 16 = a.toNat ∧
      exec (.crCplTimeout a) s = .next (((s.report (unitPort r.port) 0x0C7 3 (some r.bolt) (r.dst + 2 ^ 12 * r.kind) a.toNat
        r.bolt).reqFail e r stLinkDown).boltFail r.bolt (unitPort r.port) 3 0x0C7)) ∧
    (∀ (vl : Fin 9) (n : Nat), s.live = true → (s.port p.val).mode = .up →
      let l := (s.port p.val).egress.filter (fun e => e.vl == vl.val)
      l.length = n →
      (s.stalled p.val vl.val = true → exec (.crStall p vl n) s = .next ((l.map (fun e => e.h.bolt.toNat)).eraseDups.foldl
        (fun x b => ((x.report (unitPort p.val) 0x0C8 3 (some b) vl.val n 0).boltEvent b).voidSteps b 5 (unitPort p.val)) s)) ∧
      (s.stalled p.val vl.val = false → exec (.crStall p vl n) s = .next s) ∧
      (s.stalled p.val vl.val = true ↔ ∃ e ∈ (s.port p.val).blocked, ∃ t, e.2 = some t ∧ t + 10000000 ≤ s.now ∧
        (if vl.val = 8 then 16 ≤ e.1 else e.1 = vl.val)))

/-- 13 R431 to R435; 14 R457: in the order of R435's header statuses. Answers go out in the order of their requests.
Where the spec leaves a choice, the clauses follow the model's: log entry 125. -/
def Obligations.BoothMessages : Prop :=
  ∀ (c : Instr) (ses : SessId) (m : MsgRule) (s : State), boothRule c = some (ses, m) →
    (s.boothUp = false → exec c s = .next s) ∧
    (s.boothSess ses.val = none → exec c s = .next s) ∧
    (∀ x, s.boothUp = true → s.boothSess ses.val = some x →
      let u := s.heard ses x
      let answer := fun (k : Nat) => Host.Outcome.next (u.reply ses.val m.type k [])
      (16 ≤ x.unanswered → exec c s = .next (u.emit (.booth ses.val (m.type + 0x8000) 3 []))) ∧
      (x.unanswered < 16 → x.hello = false → m.type ≠ 1 → exec c s = answer 5) ∧
      (x.unanswered < 16 → (x.hello = true ∨ m.type = 1) → s.inc.halted = true → m.inHalt = false → exec c s = answer 4) ∧
      (x.unanswered < 16 → (x.hello = true ∨ m.type = 1) → (s.inc.halted = false ∨ m.inHalt = true) →
        s.fw.bootStopped = true → m.type ≠ 1 → m.type ≠ 2 → m.type ≠ 0x60 → exec c s = answer 4) ∧
      (x.unanswered < 16 → (x.hello = true ∨ m.type = 1) → (s.inc.halted = false ∨ m.inHalt = true) →
        (s.fw.bootStopped = false ∨ m.type = 1 ∨ m.type = 2 ∨ m.type = 0x60) → m.mayRole x.role = false →
        exec c s = .next ((if x.role = .unenrolled then u.authFail 2 else u).reply ses.val m.type 2 [])) ∧
      (∀ (ty st : Nat) (body : List Nat),
        (x.waiting = [] → u.reply ses.val ty st body = u.emit (.booth ses.val (ty + 0x8000) st body)) ∧
        (x.waiting ≠ [] → u.reply ses.val ty st body = u.setBoothSess ses.val (some { x with
          at_ := s.now, waiting := x.waiting ++ [(ty, 64, some (st, body))] })) ∧
        (∀ key l, x.waiting = (ty, key, none) :: l → (∀ e ∈ l, e.2.2 = none) →
          ∃ v, u.lateReply ses.val ty key st body = v ∧ v.out = .booth ses.val (ty + 0x8000) st body :: s.out ∧
            v.boothSess ses.val = some { x with at_ := s.now, waiting := l }) ∧
        (∀ key k a l, x.waiting = (ty, key, none) :: (k, 64, some a) :: l → (∀ e ∈ l, e.2.2 = none) →
          ∃ v, u.lateReply ses.val ty key st body = v ∧
            v.out = .booth ses.val (k + 0x8000) a.1 a.2 :: .booth ses.val (ty + 0x8000) st body :: s.out ∧
            v.boothSess ses.val = some { x with at_ := s.now, waiting := l })))

/-- 08 R268 to R270, R272, R273; 13 R435.
Where the spec leaves a choice, the clauses follow the model's: log entry 49. -/
def Obligations.LoomCommits : Prop :=
  ∀ (ses : SessId) (s : State) (x : BoothSess),
    let u := s.heard ses x
    (∀ (off : Nat) (data : List Byte), BoothHears s ses ⟨0x20, 2, false, false⟩ x →
      (s.fw.loomOwner = none ∨ s.fw.loomOwner = some ses.val → data.length ≤ 65528 → off + data.length ≤ 4 * 2 ^ 20 →
        ∃ v, exec (.loomPut ses off data) s = .next v ∧ v.fw.loomOwner = some ses.val ∧
          v.fw.loomLen = max s.fw.loomLen (off + data.length) ∧
          (∀ k b, data[k]? = some b → mget 0 v.fw.loomBuf (off + k) = b) ∧
          (∀ k, k < off ∨ off + data.length ≤ k → mget 0 v.fw.loomBuf k = mget 0 s.fw.loomBuf k)) ∧
      (∀ o, s.fw.loomOwner = some o → o ≠ ses.val → exec (.loomPut ses off data) s = .next (u.reply ses.val 0x20 3 []))) ∧
    (∀ (force sigOk : Bool), BoothHears s ses ⟨0x21, 2, false, false⟩ x → s.fw.loomOwner = none ∨ s.fw.loomOwner = some ses.val →
      force = false ∨ s.loom.mode ≠ .draining →
      let m := imageOf s.fw.loomBuf s.fw.loomLen
      (∀ c, u.loomVerdict m sigOk = .inr c → ∃ v, exec (.loomCommit ses force sigOk) s = .next v ∧ v.loom.mode = .armed ∧
        v.loom.next = some c ∧ v.loom.live = s.loom.live ∧ v.loom.maxScene = c.num.toNat ∧ v.fw.loomOwner = none ∧
        v.fw.loomBuf = [] ∧ v.reg 0x80020 = 0 ∧ (x.waiting = [] → v.out.head? = some (.booth ses.val 0x8021 0 [0, 0, 0, 0])) ∧
        v.hbm = s.hbm ∧ v.tiles = s.tiles) ∧
      (∀ r, u.loomVerdict m sigOk = .inl r → ∃ v, exec (.loomCommit ses force sigOk) s = .next v ∧ v.loom = s.loom ∧
        v.fw.loomOwner = none ∧
        (x.waiting = [] → v.out.head? = some (.booth ses.val 0x8021 0 [r.status, r.check, r.sect, r.rec_])) ∧
        v.cues = s.cues ∧ v.hbm = s.hbm ∧ v.tiles = s.tiles)) ∧
    (∀ (m : Image) (sigOk : Bool), let c := m.scene (s.imageFire m)
      (s.loom.live.num = 0xFFFFFFFF → s.loomVerdict m sigOk = .inl ⟨5, 0, 0, 0⟩) ∧
      (s.loom.live.num ≠ 0xFFFFFFFF → ∀ r, m.format = some r → s.loomVerdict m sigOk = .inl r) ∧
      (s.loom.live.num ≠ 0xFFFFFFFF → m.format = none →
        (sigOk = false ∨ s.fw.enrolCnt = 0 → s.loomVerdict m sigOk = .inl ⟨2, 0, 0, 0⟩) ∧
        (sigOk = true → s.fw.enrolCnt ≠ 0 →
          (bits (m.num 0x10 4) 11 0 ≠ s.modNum → s.loomVerdict m sigOk = .inl ⟨3, 0, 0, 0⟩) ∧
          (bits (m.num 0x10 4) 11 0 = s.modNum → c.num.toNat ≤ s.loom.maxScene ∨ sceneBit c.num = s.liveBit →
            s.loomVerdict m sigOk = .inl ⟨4, 0, 0, 0⟩))) ∧
      (∀ d, s.loomVerdict m sigOk = .inr d → s.loom.maxScene < d.num.toNat ∧ sceneBit d.num ≠ s.liveBit ∧
        s.loom.mode = .steady ∧
        ∀ b r, s.loom.live.bolt? b = some r → (s.ctx b).mode ≠ .empty → ∃ r', d.bolt? b = some r' ∧
          r'.priv = r.priv ∧ r'.mirror = r.mirror ∧ r'.legacy = r.legacy ∧ r'.vf = r.vf ∧ r'.tileBase = r.tileBase ∧
          r'.home = r.home ∧ r'.cueBase = r.cueBase ∧ r'.cueCount = r.cueCount ∧ r'.castBase = r.castBase ∧
          r'.queueBase = r.queueBase ∧ r'.queueCount = r.queueCount ∧
          d.regions.filter (fun y => y.bolt == b) = s.loom.live.regions.filter (fun y => y.bolt == b))) ∧
    (∀ scene : Word, BoothHears s ses ⟨0x22, 2, false, false⟩ x →
      (∀ c k, s.loom.next = some c → s.loom.cueSlot = some k → c.num = scene → s.now + 4000 ≤ c.fire →
        ∃ v, exec (.loomCancel ses scene) s = .next v ∧ v.loom.mode = .steady ∧ v.loom.next = none ∧ v.cue k = none ∧
          v.loom.live = s.loom.live ∧ v.loom.maxScene = s.loom.maxScene ∧
          (x.waiting = [] → v.out = .booth ses.val 0x8022 0 [1] :: s.out)) ∧
      (∀ c, s.loom.next = some c → c.num ≠ scene ∨ c.fire < s.now + 4000 →
        exec (.loomCancel ses scene) s = .next (u.reply ses.val 0x22 0 [0]))) ∧
    (∀ off : Nat, BoothHears s ses ⟨0x23, 0, false, false⟩ x →
      exec (.loomRead ses off) s = .next (u.reply ses.val 0x23 0
        ((List.range (min 65536 (s.loom.imageLen - off))).map (fun k => (mget 0 s.loom.image (off + k)).toNat))))

/-- 08 R276, R277, R280.
Where the spec leaves a choice, the clauses follow the model's: log entry 50. -/
def Obligations.SceneRetirement : Prop :=
  ∀ s : State, s.live = true →
    (∀ o, s.loom.mode = .draining → s.loom.old = some o →
      (s.oldFlight = 0 → s.oldSpans = false → ∃ u, exec .sceneRetire s = .next u ∧ u = s.retireScene false ∧
        u.loom.mode = .steady ∧ u.loom.old = none ∧ u.loom.live = s.loom.live) ∧
      (s.oldFlight ≠ 0 ∨ s.oldSpans = true → exec .sceneRetire s = .next s) ∧
      (s.oldFlight = 0 → s.oldSpans = true → s.loom.cueAt + 1000 * s.reg 0x224004 ≤ s.now →
        ∃ u, exec .sceneRetireCplTmo s = .next u ∧ u.loom.mode = .steady ∧ u.loom.old = none ∧ u.loom.live = s.loom.live) ∧
      (s.oldFlight ≠ 0 ∨ s.now < s.loom.cueAt + 1000 * s.reg 0x224004 → exec .sceneRetireCplTmo s = .next s) ∧
      (s.loom.cueAt + 1000 * s.loom.live.drainMax ≤ s.now → exec .lomDrainTimeout s = .next
        (((o.bolts.filter (fun r => mget 0 s.loom.inflight (flightKey o.num r.bolt) != 0)).foldl (fun x r =>
          x.raise unitHouse 0x0E4 2 (some r.bolt) o.num.toNat (mget 0 x.loom.inflight (flightKey o.num r.bolt)) 0) s).retireScene
            true)) ∧
      (s.now < s.loom.cueAt + 1000 * s.loom.live.drainMax → exec .lomDrainTimeout s = .next s)) ∧
    (∀ (c : Chan) (b t : Nat), s.loom.scrubs.find? (fun x => x.1 == c.val && x.2.2.isSome) = some (c.val, b, some t) →
      ∃ u, exec (.lomScrubDone c) s = .next u ∧
        (∀ a, c.val * chanBytes ≤ a → a < (c.val + 1) * chanBytes → u.hbm.read a = 0 ∧ u.readsUe 0 a 1 = false) ∧
        (∀ a, a < c.val * chanBytes ∨ (c.val + 1) * chanBytes ≤ a → u.hbm.read a = s.hbm.read a) ∧
        u.loom.scrubs = s.loom.scrubs.filter (fun y => y.1 != c.val) ∧ u.cxl = s.cxl ∧ u.tiles = s.tiles ∧
        u.loom.live = s.loom.live)

/-- 09 R295 to R297, R301.
Where the spec leaves a choice, the clauses follow the model's: log entries 44 and 84. -/
def Obligations.QueueCommands : Prop :=
  ∀ (fn : Fn) (hif : Bool) (b : Bolt) (rsv : BitVec 23) (s : State),
    let base := cmdBase hif b
    (∀ c op, hostRule c = some (fn, hif, b, rsv, op) → s.live = true →
      (s.mayCommand fn hif b = false → exec c s = .next (s.setErr fn 0)) ∧
      (s.mayCommand fn hif b = true → s.serving 0 = false →
        (bit (s.reg (base + 0x11C)) 0 = true → exec c s = .next (s.orReg (base + 0x11C) 4)) ∧
        (bit (s.reg (base + 0x11C)) 0 = false → exec c s = .next ((s.setReg (base + 0x118) op).orReg (base + 0x11C) 1))) ∧
      (s.mayCommand fn hif b = true → s.serving 0 = true →
        (bit (s.reg 0x10000) 0 = false → exec c s = .next (s.cmdEnd hif b op 0x0A [])) ∧
        (bit (s.reg 0x10000) 0 = true → rsv ≠ 0 → exec c s = .next (s.cmdEnd hif b op 1 [])))) ∧
    (∀ op st res, st < 256 → let u := s.cmdEnd hif b op st res
      bit (u.reg (base + 0x11C)) 0 = false ∧ bit (u.reg (base + 0x11C)) 1 = true ∧ bits (u.reg (base + 0x11C)) 15 8 = st ∧
      (st = 0 → ∀ k v, res[k]? = some v → u.reg (base + 0x120 + 4 * k) = v % 2 ^ 32) ∧ u.queues = s.queues ∧
      u.fences = s.fences ∧ u.objs = s.objs ∧ u.hbm = s.hbm) ∧
    (CommandRuns s fn hif b rsv →
      let a0 := s.cmdArg hif b 0
      let order := bits a0 19 16
      let ring := s.cmdArg hif b 1 + 2 ^ 32 * s.cmdArg hif b 2
      ∀ q, s.relQueue (s.cmdBolt hif b) (bits a0 12 0) = some q →
        let u := s.queue q
        (bits a0 15 13 = 0 → bits a0 31 20 = 0 → 6 ≤ order → faMod ring = s.modNum → (faSpace ring = 0 ∨ faSpace ring = 4) →
          ring % (64 * 2 ^ order) = 0 → s.inSpace (faSpace ring) (faOff ring) (64 * 2 ^ order) = true →
          (u.mode = .free → exec (.qCreate fn hif b rsv) s = .next ((s.setQueue q { QueueSt.reset with
            mode := .running, order := order, base := ring }).cmdEnd hif b 1 0 [])) ∧
          (u.mode ≠ .free → exec (.qCreate fn hif b rsv) s = .next (s.cmdEnd hif b 1 3 []))) ∧
        (bits a0 31 13 = 0 →
          (u.mode = .stopped → u.hasStarted = false →
            exec (.qDestroy fn hif b rsv) s = .next ((s.setQueue q QueueSt.reset).cmdEnd hif b 2 0 [])) ∧
          (u.mode ≠ .stopped ∨ u.hasStarted = true → exec (.qDestroy fn hif b rsv) s = .next (s.cmdEnd hif b 2 3 [])) ∧
          (u.mode ≠ .free → let d := s.discardQueue (s.cmdBolt hif b) q
            exec (.qStop fn hif b rsv) s = .next ((d.1.setQueue q { d.1.queue q with mode := .stopped }).cmdEnd hif b 3 0 [d.2]) ∧
            ((d.1.queue q).head = ((d.1.queue q).last + 1) % 65536 ∧ (d.1.queue q).pend = false)) ∧
          (u.mode = .stopped ∨ u.mode = .error → exec (.qStart fn hif b rsv) s = .next ((s.setQueue q { u with
            mode := .running, pend := u.pendingCalls != 0 }).cmdEnd hif b 4 0 [])) ∧
          (u.mode = .running → exec (.qStart fn hif b rsv) s = .next (s.cmdEnd hif b 4 3 [])) ∧
          (u.mode = .running → exec (.qRead fn hif b rsv) s = .next (s.cmdEnd hif b 5 0
            [u.head + 2 ^ 16 * u.last, 1 + 4 * (if u.resident = true then 1 else 0)]))))

/-- 09 R296, R308 to R312. -/
def Obligations.FencesAndObjects : Prop :=
  ∀ (fn : Fn) (hif : Bool) (b : Bolt) (rsv : BitVec 23) (s : State), CommandRuns s fn hif b rsv →
    let x := s.cmdBolt hif b
    let a := fun (k : Nat) => s.cmdArg hif b k
    (∀ m, m = a 2 + 2 ^ 32 * a 3 → m = 0 ∨ (faMod m = s.modNum ∧ faSpace m = 4 ∧ m % 8 = 0) →
      let k := freeKey s.fences s.fences.length 0
      s.fence k = none ∧ (∀ j, j < k → ∃ e ∈ s.fences, e.1 = j) ∧
      (s.fencesOf x < s.reg (blt x 0x1A0) → k < 2 ^ 20 →
        ∃ f, exec (.fenceCreate fn hif b rsv) s = .next ((s.setFence k (some f)).cmdEnd hif b 0x10 0 [k]) ∧
          f.value = BitVec.ofNat 64 (a 0 + 2 ^ 32 * a 1) ∧ f.owner = x ∧ f.status = 0 ∧ f.late = false ∧ f.mask = 0 ∧
          (a 0 + 2 ^ 32 * a 1 ≠ 2 ^ 64 - 1 → f.mode = .live)) ∧
      (s.reg (blt x 0x1A0) ≤ s.fencesOf x → exec (.fenceCreate fn hif b rsv) s = .next (s.cmdEnd hif b 0x10 4 []))) ∧
    (∀ y, a 0 < 2 ^ 20 → s.fence (a 0) = some y →
      (y.owner = x →
        exec (.fenceDestroy fn hif b rsv) s =
          .next (((s.setFence (a 0) none).wake maxWaits).cmdEnd hif b 0x11 0 []) ∧
        exec (.fenceAbandon fn hif b rsv) s = .next (((s.setFence (a 0) (some { y with mode := .abandoned })).wake
          maxWaits).cmdEnd hif b 0x12 0 [])) ∧
      (y.owner ≠ x → exec (.fenceDestroy fn hif b rsv) s = .next (s.cmdEnd hif b 0x11 5 []) ∧
        exec (.fenceAbandon fn hif b rsv) s = .next (s.cmdEnd hif b 0x12 5 [])) ∧
      (y.owner = x ∨ bit y.mask.toNat x = true → y.mode = .live →
        exec (.fenceRead fn hif b rsv) s = .next (s.cmdEnd hif b 0x13 0
          [y.value.toNat % 2 ^ 32, y.value.toNat / 2 ^ 32, y.status + 2 ^ 10 * (if y.late = true then 1 else 0)])) ∧
      (y.owner ≠ x → bit y.mask.toNat x = false → exec (.fenceRead fn hif b rsv) s = .next (s.cmdEnd hif b 0x13 5 [])) ∧
      (hif = true → exec (.fenceShare fn hif b rsv) s = .next ((s.setFence (a 0) (some { y with
        mask := BitVec.ofNat 64 (a 1 + 2 ^ 32 * a 2) })).cmdEnd hif b 0x30 0 []))) ∧
    (a 0 < 2 ^ 20 → s.fence (a 0) = none → exec (.fenceDestroy fn hif b rsv) s = .next (s.cmdEnd hif b 0x11 3 []) ∧
      exec (.fenceAbandon fn hif b rsv) s = .next (s.cmdEnd hif b 0x12 3 []) ∧
      exec (.fenceRead fn hif b rsv) s = .next (s.cmdEnd hif b 0x13 3 [])) ∧
    (hif = false → exec (.fenceShare fn hif b rsv) s = .next (s.cmdEnd hif b 0x30 9 []) ∧
      exec (.quota fn hif b rsv) s = .next (s.cmdEnd hif b 0x31 9 [])) ∧
    (hif = true → a 1 < 2 ^ 21 → a 2 < 2 ^ 25 → exec (.quota fn hif b rsv) s =
      .next (((s.setReg (blt x 0x1A0) (a 1)).setReg (blt x 0x1A4) (a 2)).cmdEnd hif b 0x31 0 [])) ∧
    (let k := freeIndex s s.objs.length 1;
      (s.obj k).used = false ∧ (∀ j, 1 ≤ j → j < k → (s.obj j).used = true) ∧
      (s.objsOf x < s.reg (blt x 0x1A4) → k < 2 ^ 24 → exec (.objCreate fn hif b rsv) s =
        .next ((s.setObj k { owner := x, gen := (s.obj k).gen, host := 1, dev := 0, used := true }).cmdEnd hif b 0x20 0
          [k + 2 ^ 24 * (s.obj k).gen.toNat]))) ∧
    (∀ o, s.ownObj (a 0) x = .inr o →
      (o.host < 65535 → ∃ u, exec (.objHostInc fn hif b rsv) s = .next u ∧ (u.obj (hIndex (a 0))).host = o.host + 1 ∧
        (u.obj (hIndex (a 0))).dev = o.dev ∧ (∀ j, j ≠ hIndex (a 0) → u.obj j = s.obj j) ∧ u.fences = s.fences) ∧
      (o.host = 65535 → exec (.objHostInc fn hif b rsv) s = .next (s.cmdEnd hif b 0x21 8 [])) ∧
      (0 < o.host → exec (.objHostDec fn hif b rsv) s = .next ((s.setCounts (hIndex (a 0)) (o.host - 1) o.dev).cmdEnd hif b 0x22 0
        [(s.setCounts (hIndex (a 0)) (o.host - 1) o.dev).counts (a 0)])) ∧
      (o.host = 1 → o.dev = 0 → (s.setCounts (hIndex (a 0)) 0 0).freedOf o.owner = s.freedOf o.owner ++
        [BitVec.ofNat 32 (hIndex (a 0) + 2 ^ 24 * o.gen.toNat)]) ∧
      (o.host = 0 → exec (.objHostDec fn hif b rsv) s =
        .next ((s.raise unitHost 0x108 0 (some x) (a 0) fn.val 0).cmdEnd hif b 0x22 7 [])) ∧
      exec (.objRead fn hif b rsv) s = .next (s.cmdEnd hif b 0x23 0 [o.host + 2 ^ 16 * o.dev])) ∧
    (∀ st, s.ownObj (a 0) x = .inl st → exec (.objHostInc fn hif b rsv) s = .next (s.cmdEnd hif b 0x21 st []) ∧
      exec (.objHostDec fn hif b rsv) s = .next (s.cmdEnd hif b 0x22 st []) ∧
      exec (.objRead fn hif b rsv) s = .next (s.cmdEnd hif b 0x23 st []))

/-- 09 R287, R288, R290, R292, R293, R298, R299, R302, R306, R312, R314, R319; 05 R170.
Where the spec leaves a choice, the clauses follow the model's: log entries 75, 84 and 95. -/
def Obligations.HostPort : Prop :=
  ∀ s : State, s.live = true →
    (∀ (fn : Fn) (q : Nat) (val : Word),
      (s.ringQueue fn q = none → exec (.doorbell fn q val) s = .next (s.setErr fn 0)) ∧
      (∀ g, s.ringQueue fn q = some g → bit (s.reg 0x10000) 0 = true → (s.queue g).mode = .running →
        let u := { s.queue g with last := val.toNat % 65536, rung := s.now }
        (u.pendingCalls ≤ 2 ^ u.order → exec (.doorbell fn q val) s = .next (s.setQueue g { u with pend := true })) ∧
        (2 ^ u.order < u.pendingCalls → exec (.doorbell fn q val) s = .next ((s.setQueue g { u with mode := .error }).raise
          unitHost 0x104 0 (s.queueBolt g) g (u.head + 2 ^ 16 * u.last) (2 ^ u.order))))) ∧
    (∀ (q : Queue) (b : Nat), s.serving 0 = true → s.queueBolt q.val = some b → (s.queue q.val).mode = .running →
      ((s.queue q.val).pend = true → (s.queue q.val).resident = false →
        (s.canTake b = true → exec (.queueWindowSwap q) s = .next (s.setQueue q.val { s.queue q.val with resident := true })) ∧
        (s.canTake b = false → s.victim b = none → exec (.queueWindowSwap q) s = .next s) ∧
        (∀ v, s.victim b = some v → ((s.qwin b).2 ≤ s.windowsOf b → s.queueBolt v = some b) ∧
          (s.canTake b = false → exec (.queueWindowSwap q) s =
            .next ((s.setQueue v { s.queue v with resident := false }).setQueue q.val { s.queue q.val with resident := true })))) ∧
      (let u := s.queue q.val;
        u.resident = true → u.pend = true → u.pendingCalls ≠ 0 → u.calls.length < 8 → (s.fnSt (s.boltFn b)).d3hot = false →
        ∀ data : List Byte,
          let fa := u.slotFa u.head
          let w := s.fetchSend b u
          (faSpace u.base = 4 → s.callBytes b u data = (if s.hostPath b = true ∧ data.length = 64 then some data else none)) ∧
          (faSpace u.base ≠ 4 → s.callBytes b u data = (if s.rangeUp (faSpace fa) (faOff fa) 64 = true ∧
            s.readsUe (faSpace fa) (faOff fa) 64 = false then some (s.peek (faSpace fa) (faOff fa) 64) else none)) ∧
          (s.callBytes b u data = none → exec (.callFetch q data) s = .next (w.raiseUe b fa 0xFFF 0)) ∧
          (∀ bytes, s.callBytes b u data = some bytes →
            let c : FetchedCall := ⟨u.head, BitVec.ofNat 512 (leNat bytes), false, false, none, none⟩
            let h := (u.head + 1) % 65536
            let v := w.setQueue q.val { u with head := h, pend := h != (u.last + 1) % 65536 }
            (∀ st, v.callStatus b c.words = some st → exec (.callFetch q data) s = .next (v.rejectCall b q.val c st)) ∧
            (v.callStatus b c.words = none → callObjA c.words = 0 → callHandleB c.words = 0 → exec (.callFetch q data) s =
              .next (w.setQueue q.val { u with head := h, pend := h != (u.last + 1) % 65536, calls := u.calls ++ [c] }))))) ∧
    (∀ (fn : Fn) (b : Bolt), s.ownsWindow fn b.val = true →
      (s.freedOf b.val = [] → exec (.freePop fn b) s = .next (s.emit (.readData fn.val 0x140 0))) ∧
      (∀ h r, s.freedOf b.val = h :: r → ∃ u, exec (.freePop fn b) s = .next u ∧ u.freedOf b.val = r ∧
        (u.obj (hIndex h.toNat)).used = false ∧ u.out = .readData fn.val 0x140 (BitVec.ofNat 64 h.toNat) :: s.out) ∧
      (∀ val : Word, let v := s.runImg.ifVer.toNat
        val.toNat / 2 ^ 16 = v / 2 ^ 16 → val.toNat % 2 ^ 16 ≤ v % 2 ^ 16 → ∃ u, exec (.drvVerWrite fn b val) s = .next u ∧
        u.reg (blt b.val 8) = val.toNat ∧ u.inc = s.inc)) ∧
    (∀ (vf : Fn) (val : Word), vf ≠ 0 →
      let m := mget Mailbox.reset s.mbx vf.val
      let put := fun (y : Mailbox) => { s with mbx := mset Mailbox.reset s.mbx vf.val y }
      (bit val.toNat 0 = true →
        (m.pfBusy = false → exec (.mbxSend 0 vf val) s =
          .next ((put { m with pfBusy := true, vfRx := m.pfTx, vfFull := true }).msix vf.val 0)) ∧
        (m.pfBusy = true → exec (.mbxSend 0 vf val) s = .next (put { m with pfOvr := true })) ∧
        (m.vfBusy = true → exec (.mbxSend vf vf val) s = .next (put { m with vfOvr := true })) ∧
        (m.vfBusy = false → ∃ u : State, exec (.mbxSend vf vf val) s = .next (u.msix 0 1) ∧
          mget Mailbox.reset u.mbx vf.val = { m with vfBusy := true, pfRx := m.vfTx, pfFull := true } ∧
          bit (u.reg (if vf.val < 32 then 0x70000 else 0x70004)) (vf.val % 32) = true)) ∧
      (bit val.toNat 3 = true → exec (.mbxAck 0 vf val) s = .next (put { m with pfFull := false, vfBusy := false }) ∧
        exec (.mbxAck vf vf val) s = .next (put { m with vfFull := false, pfBusy := false }))) ∧
    (∀ fn : Fn, (∃ u, exec (.powerStateD3hot fn true) s = .next u ∧ (u.fnSt fn.val).d3hot = true ∧ u.out = s.out) ∧
      (let f := s.fnSt fn.val;
        exec (.powerStateD3hot fn false) s = .next (f.msixPend.reverse.foldl (fun y v => y.msix fn.val v)
          { s with fns := mset FnSt.reset s.fns fn.val { f with d3hot := false, msixPend := [] } }))) ∧
    (∀ (off len : Nat) (w : Option (List Byte)), s.pins.perst0N = true → apLen len w ≠ 0 →
      let fa := (s.reg64 0x10010 + off) % 2 ^ 64
      let n := apLen len w
      let sp := faSpace fa
      (2 ^ s.pci.bar2Exp < off + n → exec (.apertureAccess 0 off len w .clean) s = .next s) ∧
      (off + n ≤ 2 ^ s.pci.bar2Exp → faMod fa = s.modNum → s.hostMay sp (faOff fa) n w.isSome = true →
        s.rangeUp sp (faOff fa) n = true → s.ueAt sp (faOff fa) n w.isNone w.isSome = false →
        (w = none → exec (.apertureAccess 0 off len w .clean) s =
          .next ((s.readMeta sp (faOff fa) n).emit (.apData 0 (s.peek sp (faOff fa) n)))) ∧
        (∀ l, w = some l → exec (.apertureAccess 0 off len w .clean) s = .next (s.poke sp (faOff fa) l))) ∧
      (off + n ≤ 2 ^ s.pci.bar2Exp → faMod fa ≠ s.modNum ∨ s.hostMay sp (faOff fa) n w.isSome = false →
        exec (.apertureAccess 0 off len w .clean) s = .next (s.apRefused 0 fa (apRead n w)))) ∧
    (∀ (tag : BitVec 16) (h : HostRead), mget none s.hostReads tag.toNat = some h →
      let u := ({ s with hostReads := mset none s.hostReads tag.toNat none }).flightSub h.scene h.bolt 1
      let v := u.monitor 2 unitHost h.cls h.bolt (s.now - h.at_)
      exec (.space4CompletionTimeout tag) s = .next ((u.hostReadFail tag.toNat h).ownerGo h.owner) ∧
      (∀ data, (∀ fn, h.owner = .aperture fn → exec (.hostReadCompletion tag data false) s =
          .next (v.emit (.apData fn (data.take h.len)))) ∧
        (∀ b, h.owner = .firmware b → exec (.hostReadCompletion tag data false) s =
          .next (v.fwArrive tag.toNat 0 (data.take h.len))) ∧
        exec (.hostReadCompletion tag data true) s = .next ((v.hostReadFail tag.toNat h).ownerGo h.owner)))

/-- 09 R300, R303, R304, R308 to R310. -/
def Obligations.CallsComplete : Prop :=
  ∀ (q : Queue) (s : State) (b : Nat) (c : FetchedCall),
    (s.take q 0 0 = some (b, c) →
      exec (.nop q) s = .next ((s.turn b q.val).complete q.val c (Completion.plain 0))) ∧
    (s.take q 6 1 = some (b, c) →
      exec (.signal q) s = .next ((s.turn b q.val).complete q.val c (Completion.plain 0))) ∧
    (s.take q 0x0A 0 = some (b, c) →
      exec (.barrier q) s = .next ((s.turn b q.val).complete q.val c (Completion.plain 0)) ∧
      ∀ x ∈ (s.queue q.val).calls, x.started = false) ∧
    (s.take q 7 1 = some (b, c) →
      (∀ st, waitStatus (s.fence (waitFence c.words)) (waitValue c.words) = some st →
        exec (.wait q) s = .next ((s.turn b q.val).complete q.val c (Completion.plain st))) ∧
      (waitStatus (s.fence (waitFence c.words)) (waitValue c.words) = none →
        ∃ u, exec (.wait q) s = .next u ∧ (∀ x ∈ (u.queue q.val).calls, x.index = c.index → x.started = true ∧ x.waiting = true ∧
          x.due = (if callBits c.words 0x30 31 0 = 0 then none else some (s.now + 1000 * callBits c.words 0x30 31 0))) ∧
          u.fences = s.fences ∧ u.hbm = s.hbm)) ∧
    (s.live = true → s.serving 1 = true → (s.queue q.val).calls.find? (fun x => x.waiting) = some c →
      (∀ t, c.due = some t → t ≤ s.now →
        exec (.waitTimeout q) s = .next (s.complete q.val c (Completion.plain 0x0C))) ∧
      (c.due = none → exec (.waitTimeout q) s = .next s)) ∧
    (callFen c.words = false → callIrq c.words = false → callObjA c.words = 0 → callHandleB c.words = 0 → ∀ k,
      s.complete q.val c k = (s.writeCompletion q.val c.index k).dropCall q.val c.index) ∧
    (∀ v, waitStatus none v = some 0x0D) ∧
    (∀ (x : FenceSt) (v : Nat),
      (v ≤ x.value.toNat → waitStatus (some x) v = some (if x.status = 0 then 0 else 0x0E)) ∧
      (x.value.toNat < v → x.mode = .abandoned → waitStatus (some x) v = some 0x0D) ∧
      (x.value.toNat < v → x.mode ≠ .abandoned → waitStatus (some x) v = none)) ∧
    (∀ (f v st : Nat) (late : Bool) (x : FenceSt), s.fence f = some x → v < 2 ^ 64 →
      (x.mode = .live → x.value.toNat ≤ v → ∃ y, (s.fenceUpdate f v st late).fence f = some y ∧ y.value.toNat = v ∧
        y.status = (if x.status = 0 then st else x.status) ∧ (y.mode = .exhausted ↔ v = 2 ^ 64 - 1) ∧ y.owner = x.owner) ∧
      (x.mode = .live → v < x.value.toNat → s.fenceUpdate f v st late =
        s.raise unitHost 0x100 0 (some x.owner) f (x.value.toNat % 2 ^ 32) (v % 2 ^ 32)) ∧
      (x.mode = .exhausted → s.fenceUpdate f v st late = s.raise unitHost 0x101 0 (some x.owner) f 0 0) ∧
      (x.mode = .abandoned → s.fenceUpdate f v st late = s))

/-- 09 R304, R305, R307, R315; 05 R144, R170; 07 R241. A call that finds an access outside the module not yet ended waits.
Where the spec leaves a choice, the clauses follow the model's: log entries 39, 51 and 55. -/
def Obligations.ContextsAndCopies : Prop :=
  ∀ (q : Queue) (s : State) (b : Nat) (c : FetchedCall),
    (s.take q 2 2 = some (b, c) →
      let t := s.turn b q.val
      ((s.ctx b).mode ≠ .empty ∨ s.twinTarget b = true →
        exec (.ctxLoad q) s = .next (t.complete q.val c (Completion.plain 7))) ∧
      ((s.ctx b).mode = .empty → s.twinTarget b = false →
        let k := t.keyRegions b
        let r := (k.updCtx b (fun x => { x with root := BitVec.ofNat 64 (k.reg64 (blt b 0x800)), gen := x.gen + 1 })).readProd b
          (callBits c.words 0x28 63 0)
        let refused := fun (f st : Nat) =>
          Host.Outcome.next ((({ k with freeCtr := f } : State).fwDone b).complete q.val c (Completion.plain st))
        (r.2 = .ok none ∨ (∃ va, r.2 = .fault va) → exec (.ctxLoad q) s = refused r.1.freeCtr 8) ∧
        (r.2 = .wait → exec (.ctxLoad q) s = .next (k.fwAwait r.1)) ∧
        (∀ blks hash, r.2 = .ok (some (blks, hash)) →
          let p := r.1.pickBlocking b blks
          (p.2 = none → exec (.ctxLoad q) s = refused p.1.freeCtr 9) ∧
          (∀ j n, p.2 = some j → blks[j]? = some n →
            let a := p.1.areaBad b (callBits c.words 0x30 63 0) (callBits c.words 0x38 63 0) n.tiles
            (a.2 = .ok true → exec (.ctxLoad q) s = refused a.1.freeCtr 0xA) ∧
            (a.2 = .ok false → s.peersOf b = [] →
              ∃ u, exec (.ctxLoad q) s = .next u ∧ (u.ctx b).mode = .loading ∧ (u.ctx b).prod = hash ∧ (u.ctx b).blk = j ∧
                (u.ctx b).blks = blks ∧ (u.ctx b).loadQ = some (q.val, c.index)))))) ∧
    (∀ bl : Bolt, s.live = true → s.serving 2 = true → (s.ctx bl.val).mode = .loading → s.sessionsOpen bl.val = true →
      (s.ctx bl.val).resume = false → (s.ctx bl.val).steps = [] →
      ∃ u, exec (.contextReady bl) s = .next u ∧ (u.ctx bl.val).mode = .ready ∧ (u.ctx bl.val).loadQ = none ∧
        ∀ t ∈ s.boltTiles bl.val, (u.tile t).run = (if (s.tile t).run = .halted then .halted else .running)) ∧
    (s.take q 3 2 = some (b, c) →
      let t := s.turn b q.val
      (t.noCtx b = true → exec (.ctxUnload q) s = .next (t.complete q.val c (Completion.plain 6))) ∧
      (t.noCtx b = false → exec (.ctxUnload q) s = .next ((t.markStarted q.val c.index false none).drainStart b
        (callBits c.words 0x20 0 0 == 1) [(q.val, c.index)] []))) ∧
    (s.take q 4 3 = some (b, c) →
      let from_ := callBits c.words 0x20 63 0
      let dst := callBits c.words 0x28 63 0
      let len := callBits c.words 0x30 63 0
      let i := s.copyIn b (pagesIn len) from_ len
      let d := i.1.draw
      let o := d.1.copyOut d.1 b d.2 (d.1.fwFabric b false (pagesIn len) from_ len) (pagesIn len) dst 0 i.2.1 0
      let done := fun (k : Completion) => Host.Outcome.next (((o.1.turn b q.val).fwDone b).complete q.val c k)
      (∀ p, o.2.1 = .ok p →
        (i.2.2 = none → exec (.copy q) s = done (Completion.plain 0)) ∧
        (i.2.2 = some .wait → exec (.copy q) s = .next (s.fwAwait o.1)) ∧
        (∀ va, i.2.2 = some (.fault va) →
          exec (.copy q) s = done (xltCompletion va (pagesWhole dst i.2.1.length len))) ∧
        (∀ va fa, i.2.2 = some (.ue va fa) → exec (.copy q) s =
          .next ((((o.1.turn b q.val).fwDone b).markStarted q.val c.index false none).raiseUe b fa 0xFFF 0))) ∧
      (o.2.1 = .wait → exec (.copy q) s = .next (s.fwAwait o.1)) ∧
      (∀ va, o.2.1 = .fault va → exec (.copy q) s = done (xltCompletion va (pagesWhole dst (va - dst) len)))) ∧
    (s.take q 5 3 = some (b, c) →
      let dst := callBits c.words 0x28 63 0
      let len := callBits c.words 0x30 63 0
      let o := s.copyOut s b 0 [] (pagesIn len) dst 0 (fillBytes (callBits c.words 0x20 31 0) len) 0
      let done := fun (k : Completion) => Host.Outcome.next (((o.1.turn b q.val).fwDone b).complete q.val c k)
      (∀ p, o.2.1 = .ok p → exec (.fill q) s = done (Completion.plain 0)) ∧
      (o.2.1 = .wait → exec (.fill q) s = .next (s.fwAwait o.1)) ∧
      (∀ va, o.2.1 = .fault va → exec (.fill q) s = done (xltCompletion va (pagesWhole dst (va - dst) len))))

/-- 09 R315, R316; 14 R454, R455.
Where the spec leaves a choice, the clauses follow the model's: log entries 43, 44 and 54. -/
def Obligations.DrainsAndResets : Prop :=
  ∀ (b : Bolt) (s : State), s.live = true →
    (∀ (fn : Fn) (val : Word), fn ≠ 0 → exec (.drain fn b val) s = .next (s.setErr fn 0)) ∧
    (∀ val : Word, bit val.toNat 0 = true →
      ((s.ctx b.val).mode = .empty → ∃ u, exec (.drain 0 b val) s = .next u ∧ bit (u.reg (blt b.val 0x198)) 1 = true ∧
        (u.ctx b.val).mode = .empty ∧ u.tiles = s.tiles) ∧
      ((s.ctx b.val).mode = .ready ∨ (s.ctx b.val).mode = .running → (s.ctx b.val).drain = none → s.hasFault b.val = false →
        ∃ u d, exec (.drain 0 b val) s = .next u ∧ (u.ctx b.val).mode = .draining ∧ (u.ctx b.val).drain = some d ∧
          d.save = bit val.toNat 1 ∧ d.due = s.now + 1000 * s.reg (blt b.val 0x194) ∧ d.stopped = false ∧
          bit (u.reg (blt b.val 0x198)) 0 = true ∧ (∀ r ∈ (u.ctx b.val).steps, r.start.isSome = true))) ∧
    (∀ (ses : SessId) (save : Bool) (x : BoothSess), BoothHears s ses ⟨0x80, 1, false, false⟩ x →
      let u := s.heard ses x
      (s.hasBolt b.val = false → exec (.boltDrain ses b save) s = .next (u.reply ses.val 0x80 4 [])) ∧
      (s.hasBolt b.val = true → exec (.boltDrain ses b save) s =
        .next ((u.deferReply ses.val 0x80 b.val).drainRequest b.val save [ses.val]))) ∧
    (∀ d, (s.ctx b.val).drain = some d →
      (d.stopped = false → d.due ≤ s.now → exec (.drainTimeout b) s = .next ((((((s.updCtx b.val (fun c => { c with
        drain := none })).clrReg (blt b.val 0x198) 1).orReg (blt b.val 0x198) 4).raise (unitSh 2) 0x102 2 (some b.val)
          ((((s.updCtx b.val (fun c => { c with drain := none })).clrReg (blt b.val 0x198) 1).orReg (blt b.val 0x198) 4).reg
            (blt b.val 0x194)) 0 0)).drainAnswer b.val { d with calls := [] } 0)) ∧
      (d.stopped = true ∨ s.now < d.due → exec (.drainTimeout b) s = .next s)) ∧
    (∀ (r : BoltRec) (code : Nat), s.bolt? b.val = some r → s.stopping b.val = false →
      let u := s.boltStop b.val code
      (∀ t ∈ s.boltTiles b.val, (u.tile t).run = .stopped) ∧
      (∀ (k : Nat) (q : CrReq), mget none u.reqs k = some q →
        q.bolt ≠ b.val ∨ q.isMirror = true) ∧
      (u.ctx b.val).mode = (if r.legacy = true then .teardown else .resetting) ∧ (u.ctx b.val).busyCode = code ∧
      (∀ (k : Nat) (c : CueSlotSt), (k, some c) ∈ u.cues → k < 65280 → c.record.bolt.toNat ≠ b.val) ∧
      u.hbm = s.hbm ∧ u.cxl = s.cxl) ∧
    (∀ (ses : SessId) (x : BoothSess), BoothHears s ses ⟨0x81, 1, false, false⟩ x →
      let u := s.heard ses x
      (s.hasBolt b.val = false → exec (.boltReset ses b) s = .next (u.reply ses.val 0x81 4 [])) ∧
      (s.hasBolt b.val = true → exec (.boltReset ses b) s = .next ((u.boltStop b.val 0).reply ses.val 0x81 0 []))) ∧
    ((s.core 7).mode = .restarting → exec (.boltResetComplete b) s = .next s ∧ exec (.ctxTeardown b) s = .next s) ∧
    (∀ (c : Instr) (legacy : Bool), (c = .boltResetComplete b ∧ legacy = false ∧ (s.ctx b.val).mode = .resetting) ∨
        (c = .ctxTeardown b ∧ legacy = true ∧ (s.ctx b.val).mode = .teardown) →
      (s.core 7).mode ≠ .restarting → (s.ctx b.val).strike = none → b.val ∉ s.loom.movePend →
      ∃ u, exec c s = .next u ∧ (u.ctx b.val).mode = .empty ∧ (u.ctx b.val).steps = [] ∧ (u.faults b.val).entries = [] ∧
        (∀ q, s.queueBolt q = some b.val → (s.queue q).mode ≠ .free → (u.queue q).mode = .stopped) ∧
        (∀ t ∈ s.boltTiles b.val, (u.tile t).run = .idle ∧ (u.tile t).aReg = [] ∧ (u.tile t).vReg = [] ∧
          (u.tile t).sems = [] ∧ (u.tile t).streams = [] ∧ (u.tile t).utlb = [] ∧
          (legacy = true → (∀ t ∈ s.boltTiles b.val, (s.tile t).streams = []) → (s.ctx b.val).steps = [] →
            (s.ctx b.val).saved = [] → (∀ q, (s.queue q).calls = []) → (u.tile t).spool = (s.tile t).spool) ∧
          (legacy = false → (u.tile t).spool = Tile.reset.spool)))

/-- 12 R401, R402; 09 R289, R304.
Where the spec leaves a choice, the clauses follow the model's: log entries 52, 53 and 54. -/
def Obligations.StrikesAndFunctionResets : Prop :=
  ∀ (s : State), s.live = true →
    (∀ (q : Queue) (b : Nat) (c : FetchedCall), s.take q 0xC 2 = some (b, c) →
      let t := s.turn b q.val
      ((s.ctx b).mode ≠ .empty → exec (.strike q) s = .next (t.complete q.val c (Completion.plain 7))) ∧
      ((s.ctx b).mode = .empty → exec (.strike q) s = .next ((t.markStarted q.val c.index false none).strikeStart b
        { erase := callBits c.words 0x20 0 0 == 1, call := some (q.val, c.index), ses := none }))) ∧
    (∀ (b : Nat) (k : StrikeSt), (s.ctx b).saved = [] →
      let u := s.strikeStart b k
      (u.ctx b).mode = .striking ∧ (u.ctx b).strike = some k ∧ (u.ctx b).root = 0 ∧ (u.faults b).entries = [] ∧
        (∀ (n : Nat) (r : Region), s.loom.live.regions[n]? = some r → r.bolt = b → r.mode ≠ .clear →
          (u.regRun n).st = .keyless ∧ (u.regRun n).key = none) ∧
        (∀ t ∈ s.boltTiles b, (u.tile t).aReg = [] ∧ (u.tile t).spool = Tile.reset.spool ∧ (u.tile t).sems = [] ∧
          (u.tile t).imem = [])) ∧
    (∀ (b : Bolt) (k : StrikeSt), s.serving 2 = true → (s.ctx b.val).mode = .striking → (s.ctx b.val).strike = some k →
      k.ses = none → b.val ∉ s.loom.movePend →
      ∃ u, exec (.strikeComplete b) s = .next u ∧ (u.ctx b.val).mode = .empty ∧ (u.ctx b.val).strike = none ∧
        (k.call = none → k.erase = false → u.hbm = s.hbm) ∧
        (k.call = none → k.erase = true → ∀ c a, c ∈ s.loom.live.chans b.val → c * chanBytes ≤ a → a < (c + 1) * chanBytes →
          u.hbm.read a = 0)) ∧
    (∀ (ses : SessId) (b : Bolt) (over_ : Bool) (x : BoothSess), BoothHears s ses ⟨0x82, 2, false, false⟩ x →
      let k : StrikeSt := { erase := over_, call := none, ses := some ses.val }
      let u := s.heard ses x
      (s.hasBolt b.val = false ∨ (s.ctx b.val).strike.isSome = true →
        exec (.boltStrike ses b over_) s = .next (u.reply ses.val 0x82 4 [])) ∧
      (s.hasBolt b.val = true → (s.ctx b.val).strike = none → (s.ctx b.val).mode = .empty →
        exec (.boltStrike ses b over_) s = .next ((u.deferReply ses.val 0x82 b.val).strikeStart b.val k)) ∧
      (s.hasBolt b.val = true → (s.ctx b.val).strike = none → (s.ctx b.val).mode ≠ .empty →
        exec (.boltStrike ses b over_) s = .next (((u.deferReply ses.val 0x82 b.val).updCtx b.val (fun c => { c with
          strike := some k })).boltStop b.val 0))) ∧
    (∃ u, exec (.flr 0) s = .next u ∧ u.pci.vfEnable = false ∧
      ∀ fn : Fn, fn ≠ 0 → u.fnSt fn.val = FnSt.reset ∧ mget Mailbox.reset u.mbx fn.val = Mailbox.reset) ∧
    (∀ fn : Fn, fn ≠ 0 → s.fnOn fn.val = true → ∃ u, exec (.flr fn) s = .next u ∧ u.fnSt fn.val = FnSt.reset ∧
      mget Mailbox.reset u.mbx fn.val = Mailbox.reset ∧ mget 0 u.vfErr fn.val = 0 ∧
      ∀ r ∈ s.loom.live.bolts, r.vf = fn.val →
        (∀ f y, s.fence f = some y → y.owner = r.bolt → ∃ y', u.fence f = some y' ∧ y'.mode = .abandoned) ∧
        (∀ q, s.queueBolt q = some r.bolt → (u.queue q).mode ≠ .running) ∧
        (∀ e ∈ u.regs, e.1 < blt r.bolt 0 ∨ blt r.bolt 0x4000 ≤ e.1) ∧ (∀ e ∈ u.ctrs, e.1 < blt r.bolt 0 ∨ blt r.bolt 0x4000 ≤ e.1))

/-- 10 R327, R330, R332, R334, R337, R340, R342, R343.
Where the spec leaves a choice, the clauses follow the model's: log entry 57. -/
def Obligations.CastLists : Prop :=
  ∀ s : State,
    (∀ (q : Queue) (b : Nat) (c : FetchedCall), s.take q 0xB 3 = some (b, c) →
      let act := callBits c.words 0x20 19 16
      let k := (s.castRange b).1 + callBits c.words 0x20 15 0
      let uva := callBits c.words 0x28 63 0
      let e := s.cast k
      let t := s.turn b q.val
      let answer := fun (st : Nat) => Host.Outcome.next ((t.fwDone b).complete q.val c (castDone st))
      let good := fun (u : State) => Host.Outcome.next (((u.fwDone b).poolLow b).complete q.val c (castDone 0))
      (∀ i ∈ [(Instr.castAdmit q, 0), (.castUpdate q, 1), (.castRead q, 2), (.castPark q, 3), (.castResume q, 4),
          (.castResumePromote q, 5), (.castEvict q, 6), (.castRelease q, 7)], act = i.2 →
        ((s.castRange b).2 ≤ k → exec i.1 s = .next (t.complete q.val c (Completion.plain 3))) ∧
        (k < (s.castRange b).2 → (i.2 ≠ 2 → e.inro = false) → s.srvOn b = false → exec i.1 s = .next (t.complete q.val c (castDone 6))) ∧
        (k < (s.castRange b).2 → i.2 ≠ 2 → e.inro = true → exec i.1 s = .next s)) ∧
      (k < (s.castRange b).2 → s.srvOn b = true →
        (act = 2 → (t.srvWrite b uva e.image).2 = .ok () → exec (.castRead q) s = good (t.srvWrite b uva e.image).1) ∧
        (e.inro = false →
          (act = 0 → (e.mode ≠ .free → exec (.castAdmit q) s = answer 1) ∧
            (e.mode = .free → (t.srvRead b uva 64).2 = .wait → exec (.castAdmit q) s = .next (s.fwAwait (t.srvRead b uva 64).1)) ∧
            (∀ l, e.mode = .free → (t.srvRead b uva 64).2 = .ok l →
              (castBad l = true → exec (.castAdmit q) s = answer 2) ∧
              (castBad l = false →
                let n := castOf l
                let h := (t.srvRead b uva 64).1.checkHead b n
                let r := h.1.checkRows b n (List.range (rowsOf n.pos))
                h.2 = .ok → r.2.1 = .ok →
                (r.1.atCap b n.cls = true → exec (.castAdmit q) s = answer 4) ∧
                (r.1.atCap b n.cls = false → exec (.castAdmit q) s = good (r.1.setCast k { n.byPos with spill := r.2.2 }))))) ∧
          (act = 1 → (e.mode = .free → exec (.castUpdate q) s = answer 1) ∧
            (∀ l, e.mode ≠ .free → (t.srvRead b uva 64).2 = .ok l →
              let n := castOf l
              let u := (t.srvRead b uva 64).1
              (numAt l 4 4 / 2 ^ 31 ≠ 0 ∨ numAt l 58 2 ≠ 0 → exec (.castUpdate q) s = answer 2) ∧
              (numAt l 4 4 / 2 ^ 31 = 0 → numAt l 58 2 = 0 →
              e.pos < n.maxPos ∨ e.mode = .done → e.promptLen < n.maxPos → n.maxPos ≤ 2097152 → timeOk n.deadline = true →
              (n.cls ≠ e.cls → u.atCap b n.cls = true → exec (.castUpdate q) s = answer 4) ∧
              (n.cls = e.cls ∨ u.atCap b n.cls = false → exec (.castUpdate q) s = good (u.setCast k { e with
                cls := n.cls, period := n.period, deadline := n.deadline, maxPos := n.maxPos, temp := n.temp, topP := n.topP, topK := n.topK,
                rseed := n.rseed }))))) ∧
          (act = 3 → (e.mode = .queued ∨ e.mode = .prefill ∨ e.mode = .decode →
              exec (.castPark q) s = good (t.setCast k { e with mode := .parked })) ∧
            (e.mode = .free ∨ e.mode = .parked ∨ e.mode = .done ∨ e.mode = .faulted → exec (.castPark q) s = answer 1)) ∧
          (act = 4 → (e.mode = .parked → exec (.castResume q) s = good (t.setCast k e.byPos)) ∧
            (e.mode ≠ .parked → exec (.castResume q) s = answer 1)) ∧
          (act = 5 → (e.mode ≠ .parked → exec (.castResumePromote q) s = answer 1) ∧
            (e.mode = .parked → (t.checkHead b e).2 = .ok →
              let m := (t.checkHead b e).1.promoteRows b k e.rows
              m.2 = .ok → exec (.castResumePromote q) s = good (m.1.setCast k (m.1.cast k).byPos))) ∧
          (act = 6 → (e.mode ≠ .parked → exec (.castEvict q) s = answer 1) ∧
            (e.mode = .parked → (t.checkHead b e).2 = .ok →
              let m := (t.checkHead b e).1.spillRows b k (fun _ => true) e.rows.reverse 0
              m.2.1 = .ok → exec (.castEvict q) s = (if m.2.2.2 = true ∧ m.2.2.1 = 0 then answer 5 else good m.1))) ∧
          (act = 7 → (e.mode = .free → exec (.castRelease q) s = answer 1) ∧
            (e.mode ≠ .free → (t.checkHead b e).2 = .ok →
              let f := (t.checkHead b e).1.freeRows b e e.rows
              f.2 = .ok → exec (.castRelease q) s = good (f.1.setCast k { e with mode := .free, spill := 0 })))))) ∧
    (∀ (x : CastSt) (i : RoItem) (stop : Bool) (now : Nat),
      let y := (x.update i stop now).1
      let token := i.decode || x.pos + i.ntok == x.promptLen
      y.pos = x.pos + i.ntok ∧ y.inro = false ∧ y.seqid = x.seqid ∧ y.kvmap = x.kvmap ∧
      ((x.update i stop now).2 = true ↔ token = true ∧ x.deadline ≠ 0 ∧ unpackTime x.deadline < now) ∧
      (token = true → y.deadline = if x.period = 0 then 0 else packTime (now + x.period)) ∧
      (token = true → stop = true ∨ x.pos + i.ntok = x.maxPos → y.mode = .done) ∧
      (token = false → y.mode = if x.promptLen ≤ x.pos + i.ntok then .decode else .prefill)) ∧
    (∀ bl : Bolt, s.live = true → s.serving 3 = true →
      (∀ r, (s.serveOf bl.val).items = none → s.servedStep bl.val false = some r → s.srvOn bl.val = true →
        let w := bits (s.srv bl.val 0xB08) 23 0
        let tok := callBits r.call 0x24 31 0
        let l := s.candidates bl.val
        let x := s.buildPasses bl.val (r.deadline + r.lead + r.wcs) l [1, 2, 3, 4]
          ⟨if tok = 0 then w else min tok w, [], 0, 0, 0, 0, 0, 0, 0⟩
        let o := x.1.writeOrder bl.val (s.srv bl.val 0xB28) r (orderItems l x.2.1.taken) x.2.1
        x.2.2 = .ok → o.2 = .ok () →
        ∃ u, exec (.runningOrderBuild bl) s = .next u ∧ u.reg (blt bl.val 0xB28) = (s.srv bl.val 0xB28 + 1) % 2 ^ 32 ∧
          ∃ items, (u.serveOf bl.val).items = some items ∧
            items.map (fun y => y.entry) = (orderItems l x.2.1.taken).map (fun y => y.1.entry)) ∧
      (∀ r l, s.servedStep bl.val true = some r → (s.serveOf bl.val).items = some l →
        (s.updateItems bl.val r.endAt l).2 = .ok →
        ∃ u, exec (.postStepUpdate bl) s = .next u ∧ (u.serveOf bl.val).items = none ∧
          u.casts = (s.updateItems bl.val r.endAt l).1.casts) ∧
      (s.srvOn bl.val = true → s.poolOn bl.val 0 = true → (s.pool bl.val 0).count < bits (s.srv bl.val 0xB48) 26 0 →
        let m := (s.orReg (blt bl.val 0xB2C) 8).spillAll bl.val (s.spillList bl.val)
        m.2 = .ok → exec (.spill bl) s = .next (m.1.fwDone bl.val))) ∧
    (∀ (fn : Fn) (bl : Bolt) (p : Fin 4), s.live = true → s.ownsWindow fn bl.val = true →
      (∀ hi : Word, let x := s.takeLo fn (blt bl.val (0xB58 + 0x20 * p.val))
        let v := x.2 + 2 ^ 32 * hi.toNat
        (bit v 0 = false → exec (.srvPoolPush fn bl p hi) s = .next (x.1.report unitServe 0x123 0 (some bl.val) p.val 1 (v % 2 ^ 32))) ∧
        (bit v 0 = true → canonicalUva (v / 4096 * 4096) = true → (x.1.pool bl.val p.val).count < (x.1.pool bl.val p.val).size →
          (x.1.pushPage bl.val p.val v).2 = .ok → ∃ u, exec (.srvPoolPush fn bl p hi) s = .next u ∧
            (u.pool bl.val p.val).count = (x.1.pool bl.val p.val).count + 1 ∧
            (u.pool bl.val p.val).head = (x.1.pool bl.val p.val).head)) ∧
      (∀ val : Word, bit val.toNat 0 = true → bit (s.reg (blt bl.val (0xB40 + 0x20 * p.val))) 0 = false →
        4 ≤ bits val.toNat 5 1 → bits val.toNat 5 1 ≤ 26 → ∃ u, exec (.srvPoolEnable fn bl p val) s = .next u ∧
          u.pool bl.val p.val = ⟨s.reg64 (blt bl.val (0xB50 + 0x20 * p.val)), bits val.toNat 5 1, 0, 0⟩ ∧
          u.reg (blt bl.val (0xB40 + 0x20 * p.val)) = 1 + 2 * bits val.toNat 5 1))

/-- 06 R205, R206; 11 R355, R356, R358 to R360, R362, R365 to R371.
Where the spec leaves a choice, the clauses follow the model's: log entries 58, 59 and 60. -/
def Obligations.PowerAndHeat : Prop :=
  (∀ s : State, s.live = true →
    (∀ demand, s.now % 10000 = 0 →
      (let sum := (s.sceneBolts.map (fun b => (s.share b).total)).sum * 100;
        ∃ u : State, exec (.budgetInterval demand) s = .next u ∧ u.power.shares = s.power.shares ∧
          u.power.scaled = decide (s.budget < sum) ∧ u.power.fixed = s.fixedDraw ∧ u.power.unres = (s.budget - sum) / 10 ∧
          (∀ b ∈ s.sceneBolts, u.shareInForce b = if s.budget < sum then (s.share b).scale s.budget sum else s.share b) ∧
          (0 ∈ s.order → ∀ p < 4, (u.panel p).ceil ≤ (u.panel p).target ∧ ((u.panel p).hw = true → (u.panel p).target = 15)))) ∧
    (∀ p : Panel, let x := s.panel p.val
      (x.op < x.target → exec (.opStepDone p) s = .next (s.setPanel p.val { x with op := x.op + 1 })) ∧
      (x.target < x.op → exec (.opStepDone p) s = .next (s.setPanel p.val { x with op := x.op - 1 })) ∧
      (s.now % 64000 = 0 → ∃ u : State, exec (.intermissionFrame p) s = .next u ∧ (u.panel p.val).duty = x.nextDuty ∧
        (0 < x.nextDuty → ∀ t, t / 64 = p.val → s.siteLive t = true → (u.tile t).gated = false)) ∧
      (s.now % 1000 = 0 → ∃ u : State, exec (.intermissionSlot p) s = .next u ∧ u.power = s.power ∧
        (∀ t, t / 64 = p.val → s.siteLive t = true → (u.tile t).gated = decide (x.duty ≤ rev6 (s.now / 1000 % 64))) ∧
        (∀ t, t / 64 ≠ p.val → u.tile t = s.tile t)) ∧
      (∀ pace, ∃ u : State, exec (.paceWindow p pace) s = .next u ∧ (u.panel p.val).pace = min pace 65535 ∧
        ∀ b ∈ s.panelBolts p.val, ∀ j, s.grantedFloor b = some j → pace * 100 < opPace j * 99 →
          ∀ r ∈ (u.ctx b).steps, r.guar = true → r.voided = true) ∧
      (∀ frac, s.serving 6 = true → 200 < frac → frac ≤ 10000 →
        (x.floor ≤ x.ceil → ∃ u : State, exec (.droopStorm p frac) s = .next u ∧ u.power = s.power) ∧
        (x.ceil < x.floor → x.floor ≤ 15 → ∃ u : State, exec (.droopStorm p frac) s = .next u ∧
          (u.panel p.val).ceil = x.ceil + 1 ∧ (u.panel p.val).ceil ≤ (u.panel p.val).target ∧
          (u.panel p.val).droops = x.droops ++ [s.now + 100000000])) ∧
      (∀ d l, s.serving 6 = true → x.droops = d :: l → d ≤ s.now →
        exec (.ceilingRestore p) s = .next (s.setPanel p.val { x with droops := l })) ∧
      (∀ temp, temp < 103 → ∃ u : State, exec (.thermThrottle p temp) s = .next u ∧
        u.panel p.val = { x with tj := temp, throttled := false }) ∧
      (∀ temp, 105 ≤ temp ∨ 103 ≤ temp ∧ x.throttled = true → s.serving 6 = true →
        (∀ t, x.thermAt = some t → t + 1000000 ≤ s.now) →
        ∃ u : State, exec (.thermThrottle p temp) s = .next u ∧ (u.panel p.val).tj = min temp 255 ∧
          (u.panel p.val).throttled = true ∧ (u.panel p.val).thermAt = some s.now ∧
          (u.src unitPwr).last = some (0x147, none, s.time) ∧
          (x.ceil < 15 → (u.panel p.val).ceil = x.ceil + 1 ∧ (u.panel p.val).ceil ≤ (u.panel p.val).target) ∧
          (x.ceil = 15 → (u.panel p.val).thermOff = true ∧ (u.panel p.val).nextDuty ≤ 32)) ∧
      (∀ temp, 110 ≤ temp → x.hw = false → ∃ u : State, exec (.thermHw p temp) s = .next u ∧ (u.panel p.val).hw = true ∧
        (u.panel p.val).target = 15 ∧ (u.panel p.val).duty = 16 ∧ (u.panel p.val).nextDuty = 16 ∧
        bit (u.reg 0x30008) 5 = true ∧ (u.src unitPwr).last = some (0x1148, none, s.time)) ∧
      (∀ temp, temp < 100 → s.serving 6 = true → ∃ u : State, exec (.thermRecover p temp) s = .next u ∧
        (u.panel p.val).hw = false ∧ (u.panel p.val).throttled = false ∧ (u.panel p.val).tj = temp ∧
        (x.therm ≠ 0 ∨ x.thermOff = true → (∀ t, x.thermAt = some t → t + 10000000 ≤ s.now) →
          (u.panel p.val).therm = x.therm - 1 ∧ (u.panel p.val).thermOff = false ∧ (u.panel p.val).thermAt = some s.now))) ∧
    (∀ avg, avg ≤ 4242 →
      (avg * 100 ≤ s.cap * 10 * 101 → exec (.pwrOvercap avg) s = .next s) ∧
      (s.cap * 10 * 101 < avg * 100 → ∃ u : State, exec (.pwrOvercap avg) s = .next u ∧ bit (u.reg 0x30008) 4 = true ∧
        u.power = { s.power with input := avg, excess := avg - s.cap * 10, excessUntil := s.now + 1000000 } ∧
        (u.src unitPwr).last = some (0x1145, none, s.time))) ∧
    (∀ (ses : SessId) (x : BoothSess), BoothHears s ses ⟨0x30, 1, false, false⟩ x → ∀ watts,
      ∃ u : State, exec (.pwrCap ses watts) s = .next u ∧ u.power = s.power ∧
        (x.waiting = [] → u.out.head? = some (.booth ses.val 0x8030 0 [capStatus watts])) ∧
        (watts % 10 = 0 → 1200 ≤ watts → watts ≤ 4200 → capStatus watts = 0 ∧ u.reg 0x30000 = watts / 10) ∧
        (watts % 10 ≠ 0 → capStatus watts = 1) ∧ (watts % 10 = 0 → watts < 1200 → capStatus watts = 2) ∧
        (watts % 10 = 0 → 4200 < watts → capStatus watts = 3) ∧
        (capStatus watts ≠ 0 → u.reg 0x30000 = s.reg 0x30000 ∧ bit (u.reg 0x30008) 3 = true)) ∧
    (∀ (ses : SessId) (x : BoothSess), BoothHears s ses ⟨0x31, 1, false, false⟩ x → ∀ a b c : BitVec 2,
      ∃ u : State, exec (.pwrOrder ses a b c) s = .next u ∧
        (a ≠ b ∧ b ≠ c ∧ a ≠ c ∧ a ≠ 3 ∧ b ≠ 3 ∧ c ≠ 3 → u.order = [a.toNat, b.toNat, c.toNat] ∧
          (x.waiting = [] → u.out.head? = some (.booth ses.val 0x8031 0 [0]))) ∧
        (a = b ∨ b = c ∨ a = c ∨ a = 3 ∨ b = 3 ∨ c = 3 → u.order = s.order ∧ bit (u.reg 0x30008) 3 = true ∧
          (x.waiting = [] → u.out.head? = some (.booth ses.val 0x8031 0 [1])))) ∧
    (∀ t : Site, let x := s.tile t.val
      (s.siteLive t.val = true → x.hold = false → ∃ u : State, exec (.holdAssert t) s = .next u ∧
        u.tile t.val = { x with hold := true, holdSince := s.now } ∧ (∀ k, k ≠ t.val → u.tile k = s.tile k) ∧
        u.ctr (0x30050 + 0x20 * (t.val / 64)) = (s.ctr (0x30050 + 0x20 * (t.val / 64))).add 1) ∧
      (x.hold = true → ∃ u : State, exec (.holdRelease t) s = .next u ∧
        u.tile t.val = { x with hold := false } ∧ (∀ k, k ≠ t.val → u.tile k = s.tile k) ∧
        u.ctr (0x30058 + 0x20 * (t.val / 64)) = (s.ctr (0x30058 + 0x20 * (t.val / 64))).add (s.now - x.holdSince)) ∧
      (x.hold = true → s.serving 6 = true → 10000 < s.now - x.holdSince → ∃ u : State, exec (.droopLong t) s = .next u ∧
        (u.src t.val).last = some (0x14A, none, s.time) ∧ u.tiles = s.tiles ∧ u.power = s.power)) ∧
    (∀ (die : Fin 5) (sensor : Fin 16) (temp : Nat), let k := die.val * 16 + sensor.val
      die.val < 4 ∨ sensor.val < 4 →
      (100 ≤ temp → s.power.warm.contains k = false → ∃ u : State, exec (.thermWarn die sensor temp) s = .next u ∧
        u.power.warm = k :: s.power.warm ∧ (u.src unitPwr).last = some (0x146, none, s.time)) ∧
      (100 ≤ temp → s.power.warm.contains k = true → exec (.thermWarn die sensor temp) s = .next s) ∧
      (temp < 100 → exec (.thermWarn die sensor temp) s =
        .next { s with power := { s.power with warm := s.power.warm.erase k } }))) ∧
  (∀ (s : State) (die sensor temp : Nat), s.pins.pwrGood = true → s.pins.thermTripN = true →
    (die ≤ 4 ∧ 115 ≤ temp ∨ 0x10 ≤ die ∧ die < 0x28 ∧ 105 ≤ temp) →
    ∃ u : State, exec (.thermTrip die sensor temp) s = .next u ∧ u.pins = { s.pins with thermTripN := false } ∧
      (u.src unitPwr).last = some (0x4149, none, s.time)) ∧
  (∀ (s u : State) (d : List Sys2Proof.Demand) (p : Panel) (t : Site) (n m k : Nat) (die : Fin 5) (x : Fin 16) (ses : SessId)
    (a b c : BitVec 2) (i : Instr),
    i ∈ [.budgetInterval d, .opStepDone p, .intermissionFrame p, .intermissionSlot p, .paceWindow p n, .pwrOvercap n, .pwrCap ses n,
      .pwrOrder ses a b c, .holdAssert t, .holdRelease t, .droopLong t, .droopStorm p n, .ceilingRestore p, .thermWarn die x n,
      .thermThrottle p n, .thermHw p n, .thermTrip n m k, .thermRecover p n] →
    exec i s = .next u → u.hbm = s.hbm ∧ u.cxl = s.cxl ∧ u.loom = s.loom)

/-- 12 R378, R380, R387, R388, R392, R396 to R399, R406, R407; 15 R492, R493.
Where the spec leaves a choice, the clauses follow the model's: log entries 61, 62, 122 and 125. -/
def Obligations.KeysPlaybillsAndDebug : Prop :=
  ∀ s : State,
    (s.live = true →
      (∀ r : RegionIx, let q := s.regRun r.val
        (q.st = .init → exec (.regionInitDone r) s = .next (s.setRegRun r.val { q with st := .ready })) ∧
        (q.st = .rekey → ∃ u : State, exec (.rekeyDone r) s = .next u ∧ (u.regRun r.val).st = .ready ∧
          (u.regRun r.val).oldKey = none ∧ (u.regRun r.val).key = q.key ∧ (u.src unitSec).last.map (fun x => x.1) = some 0x162 ∧
          (∀ x, s.loom.live.regions[r.val]? = some x → ∀ g, (mget GroupRec.reset (u.regRun r.val).groups g).i = true →
            (mget GroupRec.reset (u.regRun r.val).groups g).gen = q.parity))) ∧
      (∀ test, ∃ u : State, exec (.secRngFail test) s = .next u ∧ u.sec.rngOk = false ∧ u.sec.rngFails = 3 ∧
        (u.src unitSec).last = some (0x4161, none, s.time)) ∧
      (∀ (fn : Fn) (win : Option Bolt) (val : Word), bit val.toNat 0 = true →
        (let who := match win with
          | none => 0
          | some b => 1 + b.val;
        let base := match win with
          | none => 0x60110
          | some b => blt b.val 0xE10;
        let bolt := if bit val.toNat 1 then
            (match win with
             | none => some (bits val.toNat 9 4)
             | some b => some b.val)
          else none;
        let may := fn = 0 ∨ ∃ b, win = some b ∧ s.fnBolt fn.val = some b.val;
        let dest := s.reg64 (base + 0x20);
        (¬ may → exec (.secPbCtlGo fn win val) s = .next (s.setErr fn 0)) ∧
        (may → ∃ u : State, exec (.secPbCtlGo fn win val) s = .next u ∧
          (bit (s.reg (pbStat who)) 0 = true → u.reg (pbStat who) = 0x23 ∧ u.sec = s.sec) ∧
          (bit (s.reg (pbStat who)) 0 = false →
            (dest % 4096 ≠ 0 ∨ 2 ^ 49 ≤ dest → u.reg (pbStat who) = 0x32 ∧ u.sec = s.sec) ∧
            (dest % 4096 = 0 → dest < 2 ^ 49 →
              (∀ b, bolt = some b → s.loom.live.has b = false → u.reg (pbStat who) = 0x42 ∧ u.sec = s.sec) ∧
              (∀ b, bolt = some b → s.loom.live.has b = true → (s.ctx b).mode.stops = true →
                u.reg (pbStat who) = 0x12 ∧ u.sec = s.sec) ∧
              ((∀ b, bolt = some b → s.loom.live.has b = true ∧ (s.ctx b).mode.stops = false) →
                u.reg (pbStat who) = 1 ∧ ∃ n, u.sec.pb =
                  s.sec.pb ++ [⟨who, bolt, false, BitVec.ofNat 64 dest, s.playbillBody bolt n⟩]))))))) ∧
    (s.boothUp = true → ∀ p l, s.sec.pb = p :: l →
      (p.hello = false → s.inc.halted = false →
        (p.who < 65 →
          (∃ u : State, exec (.playbillSigned true) s = .next u ∧ u.sec.pb = l ∧ u.reg (pbStat p.who) = 2 ∧
            (s.hostPath (pbBolt p.who) = true →
              u.out = .hostWrite (s.hostFn (pbBolt p.who)) (pbBolt p.who) p.dest.toNat (signed p.body) :: s.out) ∧
            (s.hostPath (pbBolt p.who) = false → u.out = s.out)) ∧
          (∃ u : State, exec (.playbillSigned false) s = .next u ∧ u.sec.pb = l ∧ u.reg (pbStat p.who) = 0x52 ∧ u.out = s.out)) ∧
        (65 ≤ p.who → ∀ w x r, s.boothSess (p.who - 65) = some x → x.waiting = (0x60, p.bolt.getD 64, none) :: r →
          (∀ e ∈ r, e.2.2 = none) → ∃ u : State, exec (.playbillSigned w) s = .next u ∧ u.sec.pb = l ∧
          u.boothSess (p.who - 65) = some { x with waiting := r } ∧
          u.out = .booth (p.who - 65) 0x8060 0 (0 :: (signed p.body).map (fun y => y.toNat)) :: s.out)) ∧
      (p.hello = true → ∀ w x r, s.boothSess (p.who - 65) = some x → x.waiting = (1, 64, none) :: r → (∀ e ∈ r, e.2.2 = none) →
        ∃ u : State, exec (.playbillSigned w) s = .next u ∧ u.sec.pb = l ∧
        u.boothSess (p.who - 65) = some { x with hello := true, waiting := r } ∧
        u.out = .booth (p.who - 65) 0x8001 0 ((leBytes 2 1 ++ leBytes 2 s.modNum ++ leBytes 8 s.fw.serial.toNat ++ p.body.take 32 ++
          (signed p.body).drop p.body.length).map (fun y => y.toNat)) :: s.out)) ∧
    (∀ (ses : SessId) (x : BoothSess),
      (∀ (kind : Bool) (b : Bolt) (nonce : BitVec 256), BoothHears s ses ⟨0x60, 0, false, true⟩ x →
        (kind = true → s.loom.live.has b.val = false →
          exec (.playbill ses kind b nonce) s = .next ((s.heard ses x).reply ses.val 0x60 0 [4])) ∧
        (kind = true → s.loom.live.has b.val = true → (s.ctx b.val).mode.stops = true →
          exec (.playbill ses kind b nonce) s = .next ((s.heard ses x).reply ses.val 0x60 0 [1])) ∧
        (kind = true → s.loom.live.has b.val = true ∧ (s.ctx b.val).mode.stops = false →
          ∃ u : State, exec (.playbill ses kind b nonce) s = .next u ∧ u.out = s.out ∧ ∃ p, u.sec.pb = s.sec.pb ++ [p] ∧
            p.who = 65 + ses.val ∧ p.bolt = some b.val ∧ p.body = s.playbillBody (some b.val) nonce.toNat ∧
            u.boothSess ses.val = some { x with at_ := s.now, waiting := x.waiting ++ [(0x60, b.val, none)] }) ∧
        (kind = false → ∃ u : State, exec (.playbill ses kind b nonce) s = .next u ∧ u.out = s.out ∧
          (∃ p, u.sec.pb = s.sec.pb ++ [p] ∧ p.who = 65 + ses.val ∧ p.bolt = none ∧ p.body = s.playbillBody none nonce.toNat) ∧
          u.boothSess ses.val = some { x with at_ := s.now, waiting := x.waiting ++ [(0x60, 64, none)] })) ∧
      (∀ g : Sys2Proof.GrantRec, BoothHears s ses ⟨0x50, 2, false, false⟩ x →
        (2 ≤ g.path.toNat ∨ g.rsvZero = false ∨ timeOk g.expiry = false ∨ s.now + 86400 * giga < unpackTime g.expiry →
          exec (.dbgGrant ses g) s = .next ((s.heard ses x).reply ses.val 0x50 1 [])) ∧
        (g.path.toNat < 2 → g.rsvZero = true → timeOk g.expiry = true → unpackTime g.expiry ≤ s.now + 86400 * giga →
          ((∀ k < 4, s.grantAt k ≠ none) → exec (.dbgGrant ses g) s = .next ((s.heard ses x).reply ses.val 0x50 0 [0xFF])) ∧
          (∀ k < 4, s.grantAt k = none → (∀ j < k, s.grantAt j ≠ none) → ∃ u : State, exec (.dbgGrant ses g) s = .next u ∧
            u.grantAt k = some ⟨g.rights, g.path.toNat, g.bolts, unpackTime g.expiry, g.key, false, 0⟩ ∧
            (∀ j, j ≠ k → u.grantAt j = s.grantAt j) ∧ (x.waiting = [] → u.out = .booth ses.val 0x8050 0 [k] :: s.out)))) ∧
      (∀ n, BoothHears s ses ⟨0x51, 2, false, false⟩ x →
        (s.grantAt n = none → exec (.dbgRevoke ses n) s = .next ((s.heard ses x).reply ses.val 0x51 4 [])) ∧
        (s.grantAt n ≠ none → ∃ u : State, exec (.dbgRevoke ses n) s = .next u ∧ u.grantAt n = none ∧
          (∀ j, j ≠ n → u.grantAt j = s.grantAt j) ∧ (x.waiting = [] → u.out = .booth ses.val 0x8051 0 [] :: s.out)))) ∧
    (∀ (k : Fin 4) (g : GrantSt), s.live = true → s.grantAt k.val = some g →
      (s.now < g.expiry → exec (.grantExpiry k) s = .next s) ∧
      (g.expiry ≤ s.now → ∃ u : State, exec (.grantExpiry k) s = .next u ∧ u.grantAt k.val = none ∧
        (∀ j, j ≠ k.val → u.grantAt j = s.grantAt j))) ∧
    (∀ path : DbgPath, let p := pathCode path
      s.pathUp p = true → s.inc.halted = false →
      (p = 0 → s.pins.ir.toNat = 0x20) → ∃ u : State, exec (.dbgChal path) s = .next u ∧
        mget none u.sec.chal p = some s.freeCtr ∧ u.freeCtr = s.freeCtr + 1 ∧
        u.out = .debug (Config.random s.freeCtr).toNat :: s.out) ∧
    (∀ (path : DbgPath) (n : Nat) (g : GrantSt) (sig : Bool), let p := pathCode path
      s.pathUp p = true → s.inc.halted = false → (p = 0 → s.pins.ir.toNat = 0x21) → s.grantAt n = some g → g.path = p →
      ∃ u : State, exec (.dbgResp path n sig) s = .next u ∧ (∀ j, j ≠ n → u.grantAt j = s.grantAt j) ∧
        (sig = true → mget none s.sec.chal p ≠ none → u.grantAt n = some { g with authed := true }) ∧
        (sig = false ∨ mget none s.sec.chal p = none →
          u.grantAt n = if 2 ≤ g.failed then none else some { g with failed := g.failed + 1 })) ∧
    (∀ (path : DbgPath) (req : BitVec 128) (ecc : Ecc), let p := pathCode path
      s.pathUp p = true → s.inc.halted = false → (p = 0 → s.pins.ir.toNat = 0x22) → s.pathOpen p = true →
      s.pins.dbgPending = false →
      (let r := DbgReq.ofNat req.toNat;
      ∃ u : State, exec (.dbgAccess path req ecc) s = .next u ∧
        (r.op = 0 → r.rsv = 0 → bits u.pins.dbgReg.toNat 127 120 = 0 ∧ u.sec = s.sec ∧ u.regs = s.regs) ∧
        (5 ≤ r.op → bits u.pins.dbgReg.toNat 127 120 = 3) ∧
        (r.rsv = 0 → r.op = 2 → r.addr % 4 = 0 → s.hasRight p 1 0 = true → bits u.pins.dbgReg.toNat 127 120 = 0) ∧
        (r.rsv = 0 → r.op = 1 → r.addr % 4 = 0 → s.hasRight p 0 0 = true → bits u.pins.dbgReg.toNat 127 120 = 0 ∧
          bits u.pins.dbgReg.toNat 95 64 = (Config.freeWord s.freeCtr).toNat) ∧
        (s.hasRight p 2 r.bolt = false → s.hasRight p 3 r.bolt = false → u.hbm = s.hbm ∧ u.cxl = s.cxl ∧ u.tiles = s.tiles) ∧
        (r.rsv = 0 → r.op = 4 → r.uva = false → faMod r.addr = s.modNum → faSpace r.addr < 3 → r.addr % 4 = 0 →
          s.hasRight p (if s.modeAt (faSpace r.addr) (faOff r.addr) = 0 then 2 else 3) r.bolt = false →
          bits u.pins.dbgReg.toNat 127 120 = 1 ∧ (u.src unitSec).last.map (fun x => x.1) = some 0x165) ∧
        (r.rsv = 0 → r.op = 4 → r.uva = false → faMod r.addr = s.modNum → faSpace r.addr < 3 → r.addr % 4 = 0 → ecc = .clean →
          s.hasRight p (if s.modeAt (faSpace r.addr) (faOff r.addr) = 0 then 2 else 3) r.bolt = true →
          s.accessStatus r.bolt s.modNum s.liveBit (faSpace r.addr) (faOff r.addr) 4 false true false = some 0 →
          bits u.pins.dbgReg.toNat 127 120 = 0 ∧ u.hbm = (s.poke (faSpace r.addr) (faOff r.addr) (leBytes 4 r.data)).hbm))) ∧
    (s.pathUp 1 = true → s.inc.halted = false → s.pathOpen 1 = false → ∀ req ecc,
      exec (.dbgAccess .dbgBlock req ecc) s = .next (s.setErr 0 0)) ∧
    (s.pins.pwrGood = true →
      (∃ u : State, exec .jtagTrst s = .next u ∧ u.pins = { s.pins with ir := 2, dbgReg := 0, dbgPending := false } ∧
        u.openGrants 0 = [] ∧ u.openGrants 1 = s.openGrants 1) ∧
      (∀ code : Byte, ∃ u : State, exec (.tapInstructionLoad code) s = .next u ∧ u.sec = s.sec ∧
        (code.toNat ∈ [0x01, 0x02, 0x20, 0x21] → u.pins.ir = code) ∧
        (code = 0x22 → u.pins.ir = if s.pathOpen 0 then 0x22 else 0xFF) ∧
        (code.toNat ∉ [0x00, 0x01, 0x02, 0x20, 0x21, 0x22] → u.pins.ir = 0xFF))) ∧
    (∀ (sp off i : Nat) (x : Region), s.region? sp off = some (i, x) → x.mode = .sealed →
      let m := s.blockMeta x sp off
      (s.metaHas m.stop m.counter = true → ∀ level, s.fetchesLevel sp off level = false) ∧
      (s.metaHas m.stop m.counter = false → s.fetchesLevel sp off 0 = true ∧
        ∀ k, k < m.up.length → (∀ j ≤ k, ∀ y, m.up[j]? = some y → s.metaHas m.stop y = false) → s.fetchesLevel sp off (k + 1) = true) ∧
      (((s.metaFetch (s.regRun i) m).metaLines m.stop).length ≤ 2048 →
        (s.readBlock sp off).metaHas m.stop m.counter = true ∧ (s.readBlock sp off).metaHas m.stop m.mac = true ∧
        (s.readBlock sp off).hbm = s.hbm ∧ (s.readBlock sp off).cxl = s.cxl ∧
        ∀ level, (s.readBlock sp off).fetchesLevel sp off level = false)) ∧
    (∀ (stop i top n : Nat) (l : MetaLine), l.key.kind = .tree n →
      let u := s.writeBack stop i top l
      let id := (s.regRun i).tree.getD 0
      let up : MetaKey := { l.key with kind := .tree (n + 1), index := l.key.index / 8 }
      let mac := treeMac id l.key.unit_ n l.key.index l.bytes
      u.sideArea.find? (fun y => y.key == l.key) = some l ∧
      (top ≤ n → mget none (u.regRun i).roots (8 * l.key.unit_ + l.key.index) = some (leNat mac)) ∧
      (n < top → ∃ y ∈ u.metaLines stop, y.key = up ∧ y.dirty = true ∧
        y.bytes = patch (match (s.metaLines stop).find? (fun z => z.key == up) with
          | some z => z.bytes
          | none => s.sideLine (s.regRun i) up) (8 * (l.key.index % 8)) mac))

/-- 13 R410, R413, R417, R420 to R425, R439; 15 R479, R483, R485; 06 R180, R206.
Where the spec leaves a choice, the clauses follow the model's: log entries 65, 66, 67, 123 and 126. -/
def Obligations.BootAndCores : Prop :=
  ∀ s : State,
    (∀ (k : Straps) (c : Instr) (cause : Nat),
      c = .resetNDeassert k ∧ s.pins.pwrGood = true ∧ s.pins.resetN = false ∧ cause = s.pins.inReset.getD 0 ∨
        c = .internalResetEnd k ∧ s.pins.pwrGood = true ∧ s.pins.resetN = true ∧ s.pins.inReset = some cause →
      ∃ u : State, exec c s = .next u ∧ u.pins.resetN = true ∧ u.pins.inReset = none ∧ u.pins.rstCause = cause ∧
        u.pins.strap.toNat = strapWord k ∧ u.fw.bootAt = 0 ∧ u.stu.time = 0 ∧
        u.twin.role = (if k.role = 3 then 0 else k.role.toNat) ∧
        u.stu.mode = (if k.tsrc = 2 ∨ k.tsrc = 3 then StuMode.free else StuMode.acquire) ∧
        (k.bootsel = 1 → u.fw.slot = false) ∧ (k.bootsel = 2 → u.fw.slot = true) ∧
        (k.bootsel = 0 ∨ k.bootsel = 3 →
          (s.fw.trialSlot = none → u.fw.slot = s.fw.prefer) ∧
          (∀ t, s.fw.trialSlot = some t → s.fw.trialRan = false → u.fw.slot = t ∧ u.fw.trial = true ∧ u.fw.trialRan = true) ∧
          (∀ t, s.fw.trialSlot = some t → s.fw.trialRan = true → u.fw.slot = s.fw.prefer ∧ u.fw.trialSlot = none ∧
            u.fw.fallback = true ∧ (u.src unitHp).last.map (fun x => x.1) = some 0x1185))) ∧
    (s.live = true → s.fw.bootStopped = false → s.fw.ready = false → s.fw.stage < 4 →
      (∀ hash ok, s.runImg.bootable = true → s.runImg.magicOk = true → s.runImg.id.toNat = glbId → s.fw.fuseSvn ≤ s.runImg.svn →
        ∃ u : State, exec (.bootStage (.good hash ok)) s = .next u ∧ u.fw.stage = s.fw.stage + 1 ∧
          u.fw.hashes = s.fw.hashes ++ [hash] ∧ u.fw.bootStopped = false ∧
          (s.fw.stage = 0 → u.sec.rngOk = true ∧ u.pins.cxlPerstN = true) ∧
          (s.fw.stage = 1 → u.fw.hpUp = true ∧ u.pins.boothPhyRstN = true) ∧
          (s.fw.stage = 2 → ∀ j < 12, u.reg (0x200 + 4 * j) = (ok.getD j 0).toNat) ∧
          (s.fw.stage = 3 → u.fw.ready = true ∧ u.pins.twinOkOut = true)) ∧
      (∀ r code, code ≠ 0 →
        (s.runImg.bootable = false ∧ code = 1 ∨
          s.runImg.bootable = true ∧ s.runImg.magicOk = false ∧ code = 4 ∨
          s.runImg.bootable = true ∧ s.runImg.magicOk = true ∧ s.runImg.id.toNat ≠ glbId ∧ code = 3 ∨
          s.runImg.bootable = true ∧ s.runImg.magicOk = true ∧ s.runImg.id.toNat = glbId ∧ s.runImg.svn < s.fw.fuseSvn ∧ code = 2 ∨
          s.imgFault s.runImg = 0 ∧ (∃ k : Fin 8, r = .fail k ∧ k.val = code)) →
        (s.bootsel = 0 → s.fw.fallback = false → s.fw.stage ≠ 0 → code < 6 →
          ∃ u : State, exec (.bootStage r) s = .next u ∧ u.fw.slot = !s.fw.slot ∧ u.fw.fallback = true ∧ u.fw.trial = false ∧
            u.fw.trialSlot = none ∧ u.fw.stage = 0 ∧ u.fw.hashes = [] ∧ (u.src unitHp).last.map (fun x => x.1) = some 0x1185) ∧
        (s.bootsel ≠ 0 ∨ s.fw.fallback = true ∨ s.fw.stage = 0 ∨ 6 ≤ code →
          exec (.bootStage r) s = .next { s with fw := { s.fw with stage := s.fw.stage + 1, fail := code, bootStopped := true } }))) ∧
    (s.live = true → s.fw.trial = true → s.fw.ready = false →
      (s.now < s.fw.bootAt + 10 * giga → exec .trialTimeout s = .next s) ∧
      (s.fw.bootAt + 10 * giga ≤ s.now → ∃ u : State, exec .trialTimeout s = .next u ∧ u.fw.slot = !s.fw.slot ∧
        u.fw.fallback = true ∧ u.fw.trial = false ∧ u.fw.bootStopped = false ∧ u.fw.stage = 0)) ∧
    (∀ (n : Fin 10) (c : Instr), s.watched n.val = true →
      (c = .heartbeatLapse n ∧ (s.core n.val).mode = .running ∨ ∃ pmp mc, c = .coreTrap n pmp mc) →
      (∃ u : State, exec c s = .next u ∧ u.fw.mq = s.fw.mq) ∧
      (n.val < 8 → s.shWindow.length < 3 → ∃ u : State, exec c s = .next u ∧
        u.core n.val = ⟨.restarting, min 255 ((s.core n.val).restarts + 1)⟩ ∧
        (∀ k, k ≠ n.val → u.core k = s.core k) ∧ u.fw.shTimes.length = s.shWindow.length + 1 ∧
        (n.val ≠ 5 → n.val ≠ 6 → ∀ b ∈ s.sceneBolts, ∀ r ∈ (u.ctx b).steps, r.guar = true → r.voided = true)) ∧
      (n.val < 8 → 3 ≤ s.shWindow.length → (∀ t, s.fw.cpAt = some t → t + 60 * giga ≤ s.now) → ∃ u : State, exec c s = .next u ∧
        (∀ k < 8, (u.core k).mode = .cpStopped) ∧ u.fw.shTimes = [] ∧ u.fw.cpAt = some s.now ∧
        u.fw.cpResets = min 255 (s.fw.cpResets + 1) ∧
        (∀ b ∈ s.sceneBolts, s.loaded b = true → u.stopping b = true)) ∧
      (∀ t, n.val < 8 → 3 ≤ s.shWindow.length → s.fw.cpAt = some t → s.now < t + 60 * giga → ∃ u : State, exec c s = .next u ∧
        u.fw = s.fw ∧ (u.src (unitSh n.val)).last = some (0x4182, none, s.time)) ∧
      (8 ≤ n.val → ∃ u : State, exec c s = .next u ∧ (∀ k < 4, u.boothSess k = none) ∧ u.fw.hpUp = false ∧
        u.fw.loomOwner = none ∧ u.fw.stageOwner = none ∧ (u.core 8).mode = .restarting ∧ (u.core 9).mode = .restarting ∧
        (3 ≤ (s.fw.hpTimes.filter (fun t => decide (s.now < t + 10 * giga))).length → u.fw.hpDown = true) ∧
        ((s.fw.hpTimes.filter (fun t => decide (s.now < t + 10 * giga))).length < 3 → u.fw.hpDown = s.fw.hpDown))) ∧
    (s.live = true → ∀ (n : Fin 10) (lost : List Sys2Proof.JournalRec),
      ((s.core n.val).mode = .running → exec (.restartComplete ⟨n, lost⟩) s = .next s) ∧
      ((s.core n.val).mode ≠ .running → n.val < 8 →
        (lost = [] ∨ (s.core n.val).mode = .cpStopped →
          exec (.restartComplete ⟨n, lost⟩) s = .next (s.setCore n.val { s.core n.val with mode := .running })) ∧
        (∃ u : State, exec (.restartComplete ⟨n, lost⟩) s = .next u ∧ (u.core n.val).mode = .running ∧ u.fw.mq = s.fw.mq)) ∧
      ((s.core n.val).mode = .restarting →
        (∀ (q : Queue) (i : BitVec 16) (c : FetchedCall) (b : Nat), lost = [.call q i] → n.val = 1 → s.queueBolt q.val = some b →
          (s.queue q.val).calls.find? (fun x => x.index == i.toNat) = some c → callOp c.words = 7 → c.waiting = true →
          exec (.restartComplete ⟨n, lost⟩) s = .next ((((s.setCore n.val { s.core n.val with mode := .running }).updCtx b
            (fun x => x.loseCall q.val i.toNat)).fwDone b).complete q.val c (Completion.plain 0x11))) ∧
        (∀ (ifc : Bool) (b : Bolt), lost = [.command ifc b] → n.val = 0 →
          let base := if ifc then 0x10000 else blt b.val 0
          bit (s.reg (base + 0x11C)) 0 = true → ∃ u : State, exec (.restartComplete ⟨n, lost⟩) s = .next u ∧
            (u.core n.val).mode = .running ∧ bits (u.reg (base + 0x11C)) 15 8 = 3 ∧ bit (u.reg (base + 0x11C)) 0 = false ∧
            bit (u.reg (base + 0x11C)) 1 = true) ∧
        (∀ (ses : SessId) (b : Bolt) (strike : Bool) (x : BoothSess) (l : List (Nat × Nat × Option (Nat × List Nat))),
          lost = [.request ses b strike] → n.val = 2 → s.boothSess ses.val = some x →
          x.waiting = (if strike then 0x82 else 0x80, b.val, none) :: l → (∀ e ∈ l, e.2.2 = none) →
          ∃ u : State, exec (.restartComplete ⟨n, lost⟩) s = .next u ∧ (u.core n.val).mode = .running ∧
            u.out = .booth ses.val (if strike then 0x8082 else 0x8080) 4 [] :: s.out ∧
            u.boothSess ses.val = some { x with waiting := l })) ∧
      ((s.core n.val).mode ≠ .running → 8 ≤ n.val → s.fw.hpDown = false → ∃ u : State,
        exec (.restartComplete ⟨n, lost⟩) s = .next u ∧
        (u.core 8).mode = .running ∧ (u.core 9).mode = .running ∧ u.fw.hpUp = true ∧ ∀ k < 8, u.core k = s.core k) ∧
      (8 ≤ n.val → s.fw.hpDown = true → exec (.restartComplete ⟨n, lost⟩) s = .next s)) ∧
    (∀ (q core : Nat) (m : BitVec 512), q < 64 →
      (s.fw.stage < 4 ∨ core ≠ Config.mqProducer q → s.mqSend core q m = (s, .refused)) ∧
      (4 ≤ s.fw.stage → core = Config.mqProducer q →
        (256 ≤ (s.mqueue q).length → s.mqSend core q m = (s, .full)) ∧
        ((s.mqueue q).length < 256 → (s.mqSend core q m).2 = .ok ∧ ((s.mqSend core q m).1).mqueue q = s.mqueue q ++ [m] ∧
          ∀ j, j ≠ q → ((s.mqSend core q m).1).mqueue j = s.mqueue j)) ∧
      (s.fw.stage < 4 ∨ core ≠ Config.mqConsumer q → s.mqTake core q = (s, .refused, none)) ∧
      (∀ l, 4 ≤ s.fw.stage → core = Config.mqConsumer q → s.mqueue q = m :: l →
        (s.mqTake core q).2 = (.ok, some m) ∧ ((s.mqTake core q).1).mqueue q = l ∧
          ∀ j, j ≠ q → ((s.mqTake core q).1).mqueue j = s.mqueue j))

/-- 13 R427 to R429, R430 to R433, R435, R437 to R439; 14 R447, R448; 15 R485.
Where the spec leaves a choice, the clauses follow the model's: log entries 63 and 64. -/
def Obligations.BoothRequests : Prop :=
  ∀ s : State,
    (s.boothUp = true →
      ((∀ k < 4, s.boothSess k ≠ none) → ∀ cert, exec (.tlsConnect cert) s = .next s) ∧
      (∀ k < 4, s.boothSess k = none → (∀ j < k, s.boothSess j ≠ none) →
        (∀ cert role, (s.fw.enrolCnt = 0 ∧ cert.selfSigned = true ∧ role = .unenrolled ∨
            s.fw.enrolCnt ≠ 0 ∧ cert.caSigned = true ∧ (cert.ous = [0] ∧ role = .admin ∨ cert.ous = [1] ∧ role = .operator ∨
              cert.ous = [2] ∧ role = .audit)) →
          exec (.tlsConnect cert) s = .next (s.setBoothSess k (some ⟨role, false, s.now, none, []⟩))) ∧
        (∀ cert, (s.fw.enrolCnt = 0 ∧ cert.selfSigned = false ∨
            s.fw.enrolCnt ≠ 0 ∧ (cert.caSigned = false ∨ cert.ous.length ≠ 1 ∨ cert.ous = [3])) →
          ∃ u : State, exec (.tlsConnect cert) s = .next u ∧ u.fw.sess = s.fw.sess))) ∧
    (∀ (ses : SessId) (x : BoothSess) (c : Instr), s.boothSess ses.val = some x →
      c = .boothSessionClose ses ∨ c = .sessionIdle ses ∧ x.at_ + 300 * giga ≤ s.now →
      ∃ u : State, exec c s = .next u ∧ u.boothSess ses.val = none ∧ (∀ k, k ≠ ses.val → u.boothSess k = s.boothSess k) ∧
        u.fw.loomOwner ≠ some ses.val ∧ u.fw.stageOwner ≠ some ses.val ∧
        (s.fw.loomOwner = some ses.val → u.fw.loomBuf = [] ∧ u.fw.loomLen = 0)) ∧
    (∀ (ses : SessId) (x : BoothSess), s.boothSess ses.val = some x → s.now < x.at_ + 300 * giga →
      exec (.sessionIdle ses) s = .next s) ∧
    (∀ (ses : SessId) (x : BoothSess),
      let u := s.heard ses x
      let hears := fun (ty need : Nat) (inHalt unenrolled : Bool) => BoothHears s ses ⟨ty, need, inHalt, unenrolled⟩ x
      (hears 1 0 true true → ∀ nonce : BitVec 256, ∃ v : State, exec (.hello ses nonce) s = .next v ∧ v.out = s.out ∧
        v.boothSess ses.val = some { x with at_ := s.now, waiting := x.waiting ++ [(1, 64, none)] } ∧
        ∃ p, v.sec.pb = s.sec.pb ++ [p] ∧ p.who = 65 + ses.val ∧ p.hello = true ∧
          (p.body.drop 32).take 32 = leBytes 32 nonce.toNat) ∧
      (hears 2 0 true true → exec (.status ses) s = .next (u.reply ses.val 2 0 [glbId, s.fw.serial.toNat, s.modNum, s.bootWord,
        s.loom.live.num.toNat, s.loomWord, s.cap, s.power.input, s.fw.enrolCnt])) ∧
      (hears 3 2 false false → ∀ hi,
        (s.loom.live.num ≠ 0 → exec (.setModnum ses hi) s = .next (u.reply ses.val 3 4 [])) ∧
        (s.loom.live.num = 0 → exec (.setModnum ses hi) s =
          .next ({ u with fw := { u.fw with modHi := hi } }.reply ses.val 3 0 []))) ∧
      (hears 4 2 false false → ∀ a plen gw,
        (plen ≤ 128 → exec (.setAddr ses a plen gw) s =
          .next ({ u with fw := { u.fw with addr := some (a, plen, gw) } }.reply ses.val 4 0 [])) ∧
        (128 < plen → exec (.setAddr ses a plen gw) s = .next (u.reply ses.val 4 1 []))) ∧
      (hears 0x10 2 false true → ∀ (r : Sys2Proof.EnrolRec) (ok : Bool),
        (r.magicOk = false → exec (.enroll ses r ok) s = .next (u.reply ses.val 0x10 1 [])) ∧
        (r.magicOk = true → r.gen.toNat ≠ s.fw.enrolCnt + 1 ∨ 32 ≤ s.fw.enrolCnt ∨ s.fw.enrolCnt ≠ 0 ∧ ok = false →
          exec (.enroll ses r ok) s = .next (u.reply ses.val 0x10 4 [])) ∧
        (r.magicOk = true → r.gen.toNat = s.fw.enrolCnt + 1 → s.fw.enrolCnt < 32 → s.fw.enrolCnt = 0 ∨ ok = true →
          ∃ v : State, exec (.enroll ses r ok) s = .next v ∧ v.fw.enrolCnt = s.fw.enrolCnt + 1 ∧ v.fw.loomKey = r.loomKey ∧
            v.fw.caKey = r.caKey ∧ (x.waiting = [] → v.out = .booth ses.val 0x8010 0 [] :: s.out))) ∧
      (hears 0x40 2 false false → ∀ (off : Nat) (last : Bool) (data : List Byte) (k : Sys2Proof.FwCheck), data.length ≤ 65532 →
        ((∃ o, s.fw.stageOwner = some o ∧ o ≠ ses.val) →
          exec (.fwStage ses off last data k) s = .next (u.reply ses.val 0x40 3 [])) ∧
        (s.fw.stageOwner = none ∨ s.fw.stageOwner = some ses.val →
          (s.fw.trial = true → exec (.fwStage ses off last data k) s = .next (u.reply ses.val 0x40 0 [9])) ∧
          (s.fw.trial = false → 96 * 2 ^ 20 < off + data.length →
            exec (.fwStage ses off last data k) s = .next (u.reply ses.val 0x40 0 [4])) ∧
          (s.fw.trial = false → off + data.length ≤ 96 * 2 ^ 20 →
            ∃ (v : State) (st : Nat), exec (.fwStage ses off last data k) s = .next v ∧
              (x.waiting = [] → v.out = .booth ses.val 0x8040 0 [st] :: s.out) ∧ v.runImg = s.runImg ∧ v.fw.fuseSvn = s.fw.fuseSvn ∧
              (k.flashOk = false → st = 5 ∧ v.fw.staged = false ∧ v.otherImg.bootable = false) ∧
              (k.flashOk = true → last = false → st = 0 ∧ v.fw.staged = false ∧ v.otherImg.bootable = false ∧
                v.fw.stageOwner = some ses.val) ∧
              (k.flashOk = true → last = true → v.fw.stageOwner = none ∧
                (k.sigOk = false → st = 1) ∧
                (k.sigOk = true → k.manifestOk = true → k.svn.val ≤ 64 → k.svn.val < s.fw.fuseSvn → st = 2) ∧
                (k.sigOk = true → k.manifestOk = true → k.svn.val ≤ 64 → s.fw.fuseSvn ≤ k.svn.val → k.id.toNat ≠ glbId → st = 3) ∧
                (k.sigOk = true → k.manifestOk = true → k.svn.val ≤ 64 → s.fw.fuseSvn ≤ k.svn.val → k.id.toNat = glbId →
                  st = 0 ∧ v.fw.staged = true ∧ v.otherImg.bootable = true ∧ v.otherImg.hash = k.hash ∧
                    v.otherImg.svn = k.svn.val) ∧
                (st ≠ 0 → v.fw.staged = false ∧ v.otherImg.bootable = false))))) ∧
      (hears 0x41 2 false false → ∀ force : Bool,
        (s.fw.trial = true → exec (.fwActivate ses force) s = .next (u.reply ses.val 0x41 0 [9])) ∧
        (s.fw.trial = false → s.bootsel ≠ 0 → exec (.fwActivate ses force) s = .next (u.reply ses.val 0x41 0 [6])) ∧
        (s.fw.trial = false → s.bootsel = 0 → s.fw.staged = false →
          exec (.fwActivate ses force) s = .next (u.reply ses.val 0x41 0 [8])) ∧
        (s.fw.trial = false → s.bootsel = 0 → s.fw.staged = true → force = false → (∃ b ∈ s.sceneBolts, s.loaded b = true) →
          exec (.fwActivate ses force) s = .next (u.reply ses.val 0x41 0 [7])) ∧
        (s.fw.trial = false → s.bootsel = 0 → s.fw.staged = true → force = true ∨ (∀ b ∈ s.sceneBolts, s.loaded b = false) →
          ∃ v : State, exec (.fwActivate ses force) s = .next v ∧ v.out = .booth ses.val 0x8041 0 [0] :: s.out ∧
            v.pins.inReset = some 3 ∧ v.live = false ∧ v.fw.trialSlot = some (!s.fw.slot) ∧ v.fw.trialRan = false ∧
            v.fw.prefer = s.fw.prefer ∧ v.regs = State.reset.regs)) ∧
      (hears 0x42 2 false false →
        (s.bootsel ≠ 0 → exec (.fwConfirm ses) s = .next (u.reply ses.val 0x42 0 [6])) ∧
        (s.bootsel = 0 → s.fw.trial = false → exec (.fwConfirm ses) s = .next (u.reply ses.val 0x42 0 [8])) ∧
        (s.bootsel = 0 → s.fw.trial = true → ∃ v : State, exec (.fwConfirm ses) s = .next v ∧
          (x.waiting = [] → v.out = .booth ses.val 0x8042 0 [0] :: s.out) ∧ v.fw.prefer = s.fw.slot ∧ v.fw.trial = false ∧ v.fw.trialSlot = none ∧
          v.fw.fuseSvn = max s.fw.fuseSvn s.runImg.svn)) ∧
      (hears 0x43 2 false false →
        ((∃ o, s.fw.stageOwner = some o ∧ o ≠ ses.val) → exec (.fwDiscard ses) s = .next (u.reply ses.val 0x43 3 [])) ∧
        (s.fw.stageOwner = none ∨ s.fw.stageOwner = some ses.val →
          (s.fw.trial = true → exec (.fwDiscard ses) s = .next (u.reply ses.val 0x43 0 [9])) ∧
          (s.fw.trial = false → ∃ v : State, exec (.fwDiscard ses) s = .next v ∧
            (x.waiting = [] → v.out = .booth ses.val 0x8043 0 [0] :: s.out) ∧
            v.fw.staged = false ∧ v.fw.stageOwner = none ∧ (s.fw.staged = true → v.otherImg.bootable = false) ∧
            v.runImg = s.runImg))) ∧
      (hears 0x70 0 true false → ∀ first,
        (4096 ≤ first → exec (.incRead ses first) s = .next (u.reply ses.val 0x70 1 [])) ∧
        (first < 4096 → exec (.incRead ses first) s = .next (u.reply ses.val 0x70 0
          (((List.range (min 1024 (4096 - first))).flatMap (fun k => s.slotBytes (first + k))).map (fun y => y.toNat))))) ∧
      (hears 0x71 0 false false → ∀ cls,
        (4 < cls → exec (.incSubscribe ses cls) s = .next (u.reply ses.val 0x71 1 [])) ∧
        (cls ≤ 4 → ∃ v : State, exec (.incSubscribe ses cls) s = .next v ∧
          v.boothSess ses.val = some { x with
            at_ := s.now, sub := some cls, waiting := if x.waiting = [] then [] else x.waiting ++ [(0x71, 64, some (0, []))] } ∧
          (x.waiting = [] → v.out = .booth ses.val 0x8071 0 [] :: s.out))) ∧
      (hears 0x72 0 true false → ∀ (first : Word) (count : Nat), count ≤ 2048 → ∃ body,
        exec (.pbRead ses first count) s = .next (u.reply ses.val 0x72 0 body) ∧
        (count = 0 → body = []) ∧
        ((∀ r ∈ s.fw.book, (r.seq + 2 ^ 32 - first.toNat) % 2 ^ 32 < count) →
          body = (s.fw.book.flatMap PbRec.bytes).map (fun y => y.toNat))) ∧
      (hears 0x73 1 false false → ∀ (comp word : Nat) (mask : Word),
        (1 ≤ comp → comp ≤ 10 → word < 128 → ∃ v : State, exec (.traceSet ses comp word mask) s = .next v ∧
          mget 0 v.fw.tm (comp * 128 + word) = mask ∧ (∀ k, k ≠ comp * 128 + word → mget 0 v.fw.tm k = mget 0 s.fw.tm k)) ∧
        (comp = 0 ∨ 10 < comp ∨ 128 ≤ word →
          exec (.traceSet ses comp word mask) s = .next (u.reply ses.val 0x73 1 []))) ∧
      (hears 0x90 2 true false → ∃ v : State, exec (.moduleReset ses) s = .next v ∧ v.out = .booth ses.val 0x8090 0 [] :: s.out ∧
        v.pins.inReset = some 2 ∧ v.live = false ∧ v.regs = State.reset.regs ∧ v.tiles = [] ∧ v.loom = State.reset.loom ∧
        v.fw.imgA = s.fw.imgA ∧ v.fw.imgB = s.fw.imgB ∧ v.fw.fuseSvn = s.fw.fuseSvn ∧ v.fw.enrolCnt = s.fw.enrolCnt ∧
        v.fw.loomKey = s.fw.loomKey)) ∧
    (∀ (fn : Fn) (b : Bolt) (val : Word), s.live = true → fn = 0 ∨ s.fnBolt fn.val = some b.val →
      7 ≤ bits val.toNat 5 1 → bits val.toNat 5 1 ≤ 20 → ∃ v : State, exec (.trcEnable fn b val) s = .next v ∧
        v.reg (blt b.val 0xF08) = b2n (bit val.toNat 0) + 2 * bits val.toNat 5 1 ∧
        (bit val.toNat 0 = true → bit (s.reg (blt b.val 0xF08)) 0 = false →
          v.reg (blt b.val 0xF0C) = 0 ∧ v.reg (blt b.val 0xF10) = 0 ∧
          mget 0 v.fw.trcBase b.val = BitVec.ofNat 64 (s.reg64 (blt b.val 0xF00)) ∧
          mget 0 v.fw.trcOrder b.val = bits val.toNat 5 1))

/-- 14 R441, R445 to R450, R452, R457, R461 to R466; 12 R394.
Where the spec leaves a choice, the clauses follow the model's: log entries 68, 69, 70, 71 and 72. -/
def Obligations.IncidentsAndTwin : Prop :=
  ∀ s : State,
    (∀ t r, s.takeReport = some (t, r) → (∃ u, (s.src u).pend4.head? = some r) ∨
      ((∀ u, (s.src u).pend4 = []) ∧ ∃ u, (s.src u).pend = some r)) ∧
    (s.incUp = true → s.inc.ovCount = 0 →
      (s.takeReport = none → exec .incIntake s = .next s) ∧
      (∀ t r, s.takeReport = some (t, r) → r.cls ≠ 4 ∨ s.inc.halted = true → ∃ u : State, exec .incIntake s = .next u ∧
        u.inc.seq = s.inc.seq + 1 ∧ u.inc.halted = s.inc.halted ∧
        (s.inc.cnt < ringSlots → u.inc.cnt = s.inc.cnt + 1 ∧ u.inc.head = (s.inc.head + 1) % ringSlots ∧
          (u.src r.unit_).drops = 0 ∧ ∃ f, mget none u.inc.ring s.inc.head =
            some { r with seq := s.inc.seq, drops := (s.src r.unit_).drops, fatal := f }) ∧
        (ringSlots ≤ s.inc.cnt → u.inc.ring = s.inc.ring ∧ u.inc.cnt = s.inc.cnt ∧ u.inc.ovCount = 1 ∧ bit (u.reg 0x40000) 0 = true) ∧
        (∀ b, r.bolt = some b → b < 64 → u.reg (blt b 0x1004) = (r.cls * 4096 + r.code + 2 ^ 16 * r.unit_) % 2 ^ 32 ∧
          u.ctr (blt b 0x1010) = (s.ctr (blt b 0x1010)).add 1)) ∧
      (∀ t r, s.takeReport = some (t, r) → r.cls = 4 → s.inc.halted = false → ∃ u : State, exec .incIntake s = .next u ∧
        u.inc.halted = true ∧ u.inc.haltAt = s.now ∧ u.live = false ∧ (∀ k, (u.tile k).run ≠ .running) ∧
        u.sess = [] ∧ (∀ k, (u.regRun k).st = .clear ∨ (u.regRun k).st = .keyless ∧ (u.regRun k).key = none ∧
          (u.regRun k).oldKey = none) ∧
        u.pins = { s.pins with twinOkOut := false } ∧ (∀ p ∈ u.sec.pb, p.hello = true) ∧ u.hbm = s.hbm ∧ u.cxl = s.cxl ∧
        (u.fnSt 0).aer = true ∧
        (s.boothUp = true → ∀ k < 4, ∀ x, s.boothSess k = some x → ∃ w, u.boothSess k = some { x with waiting := w } ∧
          ∀ e ∈ w, e.1 = 1 ∨ e.2.2 ≠ none) ∧
        (s.inc.fatal.length + 2 ≤ 64 → ∃ f h, u.inc.fatal = s.inc.fatal ++ [f, h] ∧ f.code = r.code ∧ f.unit_ = r.unit_ ∧
          h.code = 0x1A5 ∧ h.cls = 4))) ∧
    (s.inc.halted = true → s.inc.haltAt + 100000000 ≤ s.now →
      exec .faultNAssert s = .next { s with pins := { s.pins with faultN := false } }) ∧
    (∀ (fn : Fn) (val : Word), s.regsUp fn 0x40008 = true →
      (let v := val.toNat % 4096;
      let n := if v = s.inc.tail ∧ s.inc.cnt = ringSlots then ringSlots else (v + ringSlots - s.inc.tail) % ringSlots;
      (fn ≠ 0 → exec (.incTailWrite fn val) s = .next (s.setErr fn 0)) ∧
      (fn = 0 → ringSlots ≤ v ∨ s.inc.cnt < n → exec (.incTailWrite fn val) s = .next (s.setErr 0 3)) ∧
      (fn = 0 → v < ringSlots → n ≤ s.inc.cnt → s.inc.ovCount = 0 →
        exec (.incTailWrite fn val) s = .next { s with inc := { s.inc with cnt := s.inc.cnt - n } }))) ∧
    (∀ val : Word, bit val.toNat 31 = true →
      (s.regsUp 0 0x40024 = true → ∃ u : State, exec (.incSrcClear 0 val) s = .next u ∧
        u.src (bits (s.reg 0x40020) 11 0) = { s.src (bits (s.reg 0x40020) 11 0) with first := none, last := none } ∧
        ∀ k, k ≠ bits (s.reg 0x40020) 11 0 → u.src k = s.src k) ∧
      (∀ (fn : Fn) (b : Bolt), s.regsUp fn (blt b.val 0x1000) = true → s.ownsWindow fn b.val = true →
        ∃ u : State, exec (.bltIncClear fn b val) s = .next u ∧ u.reg (blt b.val 0x1000) = 0 ∧ u.reg (blt b.val 0x1004) = 0 ∧
          u.reg64 (blt b.val 0x1008) = 0 ∧ u.ctrs = s.ctrs) ∧
      (∀ (fn : Fn) (off o : Nat) (d : RegDef), s.regsUp fn off = true → regPlace s fn off = .map o → regDef o = some d →
        d.attr = .counter → (fn ≠ 0 → exec (.counterSatClear fn off val) s = .next (s.setErr fn 0)) ∧
        (fn = 0 → isPairHi o = true → o ≠ 0x40044 → ∃ u : State, exec (.counterSatClear fn off val) s = .next u ∧
          u.ctr (o - 4) = Ctr.reset ∧ ∀ k, k ≠ o - 4 → u.ctr k = s.ctr k))) ∧
    (s.live = true →
      (∀ (p : Port) (peer : Sys2Proof.PairInfo), 16 ≤ p.val → s.portUp p.val = true →
        s.twin.mode = .unpaired ∨ s.twin.mode = .degraded ∨ s.twin.mode = .promoted →
        (s.twin.role = 1 ∧ peer.role = 2 ∨ s.twin.role = 2 ∧ peer.role = 1 → ∃ u : State, exec (.uLinkPairing p peer) s = .next u ∧
          u.twin.twin = peer.module_.toNat ∧ u.twin.mode = (if s.twin.okIn = true then .syncing else .degraded) ∧
          (s.twin.mode = .promoted → u.twin.roleEff = 1) ∧
          (s.twin.mode ≠ .promoted → peer.promoted = true → u.twin.roleEff = 2) ∧
          (s.twin.mode = .unpaired → peer.promoted = false → u.twin.roleEff = s.twin.role)) ∧
        ((s.twin.role ≠ 1 ∨ peer.role ≠ 2) ∧ (s.twin.role ≠ 2 ∨ peer.role ≠ 1) → ∃ u : State,
          exec (.uLinkPairing p peer) s = .next u ∧ u.twin.mode = s.twin.mode ∧ u.twin.told = true)) ∧
      (∀ p : Port, 16 ≤ p.val → s.portUp p.val = true → s.twin.mode = .syncing → ∃ u : State,
        exec (.syncComplete p) s = .next u ∧ u.twin.mode = .paired ∧ u.twin.syncLeft = 0 ∧
        (u.src (unitPort p.val)).last = some (0x1A8, none, s.time)) ∧
      (∀ (p : Port) (b : Bolt) (space : BitVec 3) (off : Nat) (data : List Byte), 16 ≤ p.val → s.portUp p.val = true →
        s.twin.roleEff = 2 → s.twin.mode = .paired ∨ s.twin.mode = .syncing →
        (space = 7 → off = 0 → ∃ u : State, exec (.mirrorWrite p b space off data) s = .next u ∧
          u.reg64 (blt b.val 0x1110) = leNat (data.take 8) ∧ u.hbm = s.hbm) ∧
        (space ≠ 7 → data ≠ [] → s.twin.unmirrored.contains b.val = false → s.mirrorRange b.val space.toNat off data.length = true →
          exec (.mirrorWrite p b space off data) s = .next ((s.poke space.toNat off data).emit
            (.twin p.val b.val 3 (BitVec.ofNat 64 (mkFa s.modNum space.toNat off))))) ∧
        (space ≠ 7 → data = [] ∨ s.twin.unmirrored.contains b.val = true ∨ s.mirrorRange b.val space.toNat off data.length = false →
          exec (.mirrorWrite p b space off data) s = .next s)) ∧
      (∀ (fn : Fn) (b : Bolt) (hi : Word), s.regsUp fn (winOff fn b.val 0x110C) = true → s.ownsWindow fn b.val = true →
        (let h := s.takeLo fn (blt b.val 0x1108);
        (mget none s.twin.ckpt b.val ≠ none → ∃ u : State, exec (.mirCkpt fn b hi) s = .next u ∧
          u.twin.ckpt = s.twin.ckpt ∧ bit (u.reg (blt b.val 0x1100)) 3 = true) ∧
        (mget none s.twin.ckpt b.val = none → s.boltPaired b.val = false → ∃ u : State, exec (.mirCkpt fn b hi) s = .next u ∧
          u.twin.ckpt = s.twin.ckpt ∧ bit (u.reg (blt b.val 0x1100)) 4 = true) ∧
        (mget none s.twin.ckpt b.val = none → s.boltPaired b.val = true → ∃ (u : State) (k : Ckpt),
          exec (.mirCkpt fn b hi) s = .next u ∧ mget none u.twin.ckpt b.val = some k ∧
          k.value.toNat = (h.2 + 2 ^ 32 * hi.toNat) % 2 ^ 64 ∧ k.bound = s.twin.mirSeq))) ∧
      (∀ (b : Bolt) (k : Ckpt), mget none s.twin.ckpt b.val = some k →
        (k.sent = true → ∃ u : State, exec (.mirCkptAck b) s = .next u ∧ mget none u.twin.ckpt b.val = none ∧
          u.reg64 (blt b.val 0x1110) = k.value.toNat) ∧
        (k.sent = false → exec (.mirCkptAck b) s = .next s)) ∧
      (∀ level : Bool, ∃ u : State, exec (.twinOkInChange level) s = .next u ∧ u.twin.okIn = level ∧
        (level = false → s.twin.okIn = true → s.twin.mode = .paired → s.twin.roleEff = 2 →
          u.twin.mode = .paired ∧ u.twin.okFell = some s.now) ∧
        (level = false → s.twin.okIn = true → s.twin.mode = .syncing ∨ s.twin.mode = .paired ∧ s.twin.roleEff ≠ 2 →
          u.twin.mode = .degraded ∧ u.twin.ckpt = []) ∧
        (level = true → s.twin.mode = .degraded → s.uUp = true → u.twin.mode = .syncing ∧ u.twin.syncAt = s.now)) ∧
      (∀ f, s.twin.mode = .paired → s.twin.roleEff = 2 → s.twin.okIn = false → s.twin.okFell = some f →
        (s.now < f + 1000000 → exec .promotion s = .next s) ∧
        (f + 1000000 ≤ s.now → ∃ u : State, exec .promotion s = .next u ∧ u.twin.mode = .promoted ∧ u.twin.roleEff = 1 ∧
          (∀ b, b ∈ u.twin.alias_ ↔ ∃ r ∈ s.loom.live.bolts, r.bolt = b ∧ r.mirror = true ∧ s.twin.unmirrored.contains b = false) ∧
          (u.src (unitPort 16)).last = some (0x1A9, none, s.time))))

/-- 05 R141, R142; 11 R347; 14 R473, R474; 15 R480, R482 to R486, R491, R495.
Where the spec leaves a choice, the clauses follow the model's: log entries 38, 73, 74 and 122. -/
def Obligations.PinsPowerAndCxl : Prop :=
  ∀ s : State,
    (s.pins.pwrEn = true → exec .pwrEnAssert s = .next s) ∧
    (s.pins.pwrEn = false →
      (s.pins.needCycle = false → s.pins.pwrGood = false → 52000 ≤ s.pins.vin → s.pins.vin ≤ 60000 →
        exec .pwrEnAssert s = .next { s with pins := { s.pins with
          pwrEn := true, pwrGood := true, resetN := false, inReset := none } }) ∧
      (s.pins.needCycle = true ∨ s.pins.pwrGood = true ∨ s.pins.vin < 52000 ∨ 60000 < s.pins.vin →
        exec .pwrEnAssert s = .next { s with pins := { s.pins with pwrEn := true } })) ∧
    (∃ u : State, exec .pwrEnDeassert s = .next u ∧ u.pins.pwrEn = false ∧ u.pins.pwrGood = false ∧ u.pins.needCycle = false ∧
      (s.pins.pwrGood = true → u.regs = State.reset.regs ∧ u.tiles = State.reset.tiles)) ∧
    (∀ c : Instr, c = .pwrGoodFall ∨ (∃ mv, c = .vinOutOfRange mv ∧ (mv < 48000 ∨ 60000 < mv)) → s.pins.pwrGood = true →
      ∃ u : State, exec c s = .next u ∧ u.pins.pwrGood = false ∧ u.pins.resetN = false ∧ u.pins.needCycle = s.pins.pwrEn ∧
        u.pins.thermTripN = true ∧ u.live = false ∧ u.regs = State.reset.regs ∧ u.tiles = State.reset.tiles ∧
        u.loom = State.reset.loom ∧ u.fw.imgA = s.fw.imgA ∧ u.fw.imgB = s.fw.imgB ∧ u.fw.fuseSvn = s.fw.fuseSvn ∧
        u.fw.enrolCnt = s.fw.enrolCnt ∧ u.out = s.out ∧ u.pending = s.pending) ∧
    (∀ mv, 48000 ≤ mv → mv ≤ 60000 → mv < 52000 ∨ 58800 < mv → ∃ u : State, exec (.vinOutOfRange mv) s = .next u ∧
      u.pins.vin = mv ∧ bit (u.pmbStatus 0x40) 13 = true ∧ u.pins.pwrGood = s.pins.pwrGood ∧ u.regs = s.regs) ∧
    (∀ mv, s.pins.vin ≤ mv → 52000 ≤ mv → mv ≤ 60000 → ∃ u : State, exec (.vin56Rise mv) s = .next u ∧ u.pins.vin = mv ∧
      (s.pins.pwrEn = true → s.pins.needCycle = false → u.pins.pwrGood = true) ∧
      (s.pins.pwrEn = false ∨ s.pins.needCycle = true → u.pins.pwrGood = s.pins.pwrGood)) ∧
    (s.pins.pwrGood = true → s.pins.resetN = true → ∃ u : State, exec .resetNAssert s = .next u ∧ u.pins.resetN = false ∧
      u.pins.inReset = some 1 ∧ u.live = false ∧ u.regs = State.reset.regs ∧ u.tiles = State.reset.tiles ∧
      u.fw.fuseSvn = s.fw.fuseSvn ∧ u.fw.enrolCnt = s.fw.enrolCnt ∧ u.out = s.out) ∧
    (∀ level : Bool, exec (.perst1N level) s = .next { s with pins := { s.pins with perst1N := level } }) ∧
    (∀ level : Bool,
      (level = false ∨ s.pins.perst0N = true ∨ s.live = false →
        exec (.perst0N level) s = .next { s with pins := { s.pins with perst0N := level } }) ∧
      (level = true → s.pins.perst0N = false → s.live = true → ∃ u : State, exec (.perst0N level) s = .next u ∧
        u.pins.perst0N = true ∧ u.pins.strap = s.pins.strap ∧ u.stu = s.stu ∧ u.pci = Pci.reset ∧
        (∀ fn : Fn, u.fnSt fn.val = FnSt.reset ∧ (fn ≠ 0 → mget Mailbox.reset u.mbx fn.val = Mailbox.reset)) ∧
        ∀ r ∈ s.loom.live.bolts, (∀ e ∈ u.regs, e.1 < blt r.bolt 0 ∨ blt r.bolt 0x4000 ≤ e.1) ∧
          ∀ e ∈ u.ctrs, e.1 < blt r.bolt 0 ∨ blt r.bolt 0x4000 ≤ e.1)) ∧
    (s.live = true →
      (∃ u : State, exec .p12vCageLoss s = .next u ∧ u.pins.p12v = false ∧ ∀ p < 18, (u.port p).mode = .down) ∧
      (∃ u : State, exec .p12vCageApply s = .next u ∧ u.pins.p12v = true ∧ ∀ p < 18,
        (bit (s.reg (cru p 0)) 0 = true → (s.port p).mode = .down → (∃ w, s.cage p = some w ∧ w ≤ 15) → (u.port p).mode = .train) ∧
        ((s.port p).mode ≠ .down → u.port p = s.port p)) ∧
      (∀ (p : Port) (w : Nat), s.cage p.val = none → ∃ u : State, exec (.cageInsert p w) s = .next u ∧ u.cage p.val = some w ∧
        (w ≤ 15 → s.pins.p12v = true → bit (s.reg (cru p.val 0)) 0 = true → (s.port p.val).mode = .down →
          (u.port p.val).mode = .train) ∧
        (15 < w → u.ports = s.ports)) ∧
      (∀ p : Port, ∃ u : State, exec (.cageRemove p) s = .next u ∧ u.cage p.val = none ∧ (u.port p.val).mode = .down)) ∧
    (∀ addr : BitVec 7, let a := addr.toNat
      48000 ≤ s.pins.vin → 0x40 ≤ a → a ≤ 0x46 →
      (∀ cmd : Byte, cmd ≠ 0x03 → ∃ u : State, exec (.pmbusWrite addr cmd) s = .next u ∧ bit (u.pmbStatus a) 1 = true ∧
        (∀ k, k ≠ a → u.pmbStatus k = s.pmbStatus k) ∧ u.pmbAlertN = false ∧ u.regs = s.regs) ∧
      (∃ u : State, exec (.clearFaults addr) s = .next u ∧ (∀ k, k ≠ a → u.pmbStatus k = s.pmbStatus k) ∧
        (a ≠ 0x40 ∨ 52000 ≤ s.pins.vin ∧ s.pins.vin ≤ 58800 → u.pmbStatus a = 0) ∧
        (a = 0x40 → s.pins.vin < 52000 ∨ 58800 < s.pins.vin → bit (u.pmbStatus a) 13 = true))) ∧
    (s.live = true →
      (∀ (cp : Fin 2) (r : MemReq) (answered : Bool) (mac : Sys2Proof.MacCheck) (ns : Nat), s.portServes cp.val r.off = true →
        (let st := s.accessStatus r.bolt.val (s.reqSrc r) r.scene 1 r.off (reqSize r) (!r.write) r.write false;
        let done := fun (u : State) => if answered then u.monitor 1 (unitCxl cp.val) r.cls.val r.bolt.val ns else u;
        let coded := fun (k : Bool) => (∀ x, s.region? 1 r.off = some x → (x.2.redund == .coded) = k) ∧
          (k = true → s.region? 1 r.off ≠ none);
        (st = none → exec (.cxlCompletion cp r ⟨answered, mac⟩ ns) s = .next s) ∧
        (∀ x, st = some x → x ≠ 0 → exec (.cxlCompletion cp r ⟨answered, mac⟩ ns) s = .next (done (s.answer r x []))) ∧
        (∀ x, st = some 0 → answered = true ∨ coded true → s.integrity 1 r mac = some x →
          exec (.cxlCompletion cp r ⟨answered, mac⟩ ns) s = .next (s.integrityFail (unitCxl cp.val) (mkFa s.modNum 1 r.off) x.1 x.2)) ∧
        (st = some 0 → answered = true ∨ coded true → s.integrity 1 r mac = none → r.write = false →
          exec (.cxlCompletion cp r ⟨answered, mac⟩ ns) s =
            .next (done ((s.readMeta 1 r.off r.len).answer r 0 (s.peek 1 r.off r.len)))) ∧
        (st = some 0 → answered = true ∨ coded true → s.integrity 1 r mac = none → r.write = true →
          (s.poke 1 r.off r.data).mirrorDue 1 r.off r.data.length = false →
          exec (.cxlCompletion cp r ⟨answered, mac⟩ ns) s = .next (done ((s.poke 1 r.off r.data).answer r 0 []))) ∧
        (st = some 0 → answered = false → coded false → r.write = true ∨ s.twinServes 1 r.off = false →
          exec (.cxlCompletion cp r ⟨answered, mac⟩ ns) s = .next (s.answer r stUe [])))) ∧
      (∀ (cp : Fin 2) (dec : Fin 8) (ld : BitVec 4), let m := (cp.val, ld.toNat)
        (s.cxlGone.contains m = true → exec (.cxlMemberLost cp dec ld) s = .next s) ∧
        (s.cxlGone.contains m = false →
          s.loom.live.decs.any (fun d => d.port == cp.val && d.index == dec.val && d.ld == ld.toNat) = true →
          ∃ u : State, exec (.cxlMemberLost cp dec ld) s = .next u ∧ u.cxlGone = m :: s.cxlGone ∧
            (∀ b ∈ s.sceneBolts, s.windowOn b cp.val ld.toNat = true → s.loaded b = true → u.stopping b = true) ∧
            (∀ x ∈ s.codedRegions, ∀ k, (s.loom.live.partDevices x.2)[k]? = some (some m) →
              ∃ y ∈ mget [] u.lost x.1, y.1 = k))) ∧
      (∀ (r : RegionIx) (part : Fin 6), let l := mget [] s.lost r.val
        l.length ≤ 2 →
        (∀ d, s.partDevice r.val part.val = some d → l.contains (part.val, none) = true → ∃ u : State,
          exec (.cxlMemberReturn r part) s = .next u ∧ u.cxlGone = s.cxlGone.erase d ∧
          mget [] u.lost r.val = l.map (fun x => if x.1 = part.val then (x.1, some s.now) else x)) ∧
        (∀ x d g, l.find? (fun y => y.1 == part.val && y.2.isSome) = some x → s.partDevice r.val part.val = some d →
          s.loom.live.regions[r.val]? = some g → ∃ u : State, exec (.cxlRebuilt r part) s = .next u ∧
          mget [] u.lost r.val = l.erase x ∧ (u.src (unitCxl d.1)).last = some (0x1B3, some g.bolt, s.time))))
end

