-- ==== Sys2Proof/Laws/Only.lean ====
section
/-! SUPPORT. Frames by field: a state reached from another by changing only some of its fields. Every operation of the model
has a lemma of this form, which says once which fields it can change. -/

namespace Sys2Proof.Machine

/-- The fields of the state. -/
inductive Fld
  | regs_ | vfErr_ | latch_ | loHeld_ | ctrs_ | tiles_ | ledgers_ | meshCe_ | bridges_ | redIn_ | redStage_ | redRun_
  | redOpen_ | redClk_ | mcFlits_ | audited_ | auditFirst_ | hbm_ | cxl_ | chanCe_ | hbmUe_ | metaCache_ | sideArea_
  | hot_ | tcache_ | wcache_ | fq_ | inv_ | stu_ | cues_ | ports_ | sess_ | sessIn_ | reqs_ | nextTag_ | loom_
  | queues_ | queueRr_ | fences_ | objs_ | freed_ | ctxs_ | mbx_ | fns_ | pci_ | hostReads_ | pfWalks_ | walkWait_
  | fwNeed_ | fwGot_ | fwHeld_ | casts_ | serve_ | power_ | sec_ | fw_ | inc_ | twin_ | lost_ | cxlGone_ | pins_
  | freeCtr_ | out_ | pending_
  deriving DecidableEq, Repr

/-- Two states agree on a field. -/
def Fld.same (f : Fld) (s t : State) : Prop :=
  match f with
  | .regs_ => t.regs = s.regs
  | .vfErr_ => t.vfErr = s.vfErr
  | .latch_ => t.latch = s.latch
  | .loHeld_ => t.loHeld = s.loHeld
  | .ctrs_ => t.ctrs = s.ctrs
  | .tiles_ => t.tiles = s.tiles
  | .ledgers_ => t.ledgers = s.ledgers
  | .meshCe_ => t.meshCe = s.meshCe
  | .bridges_ => t.bridges = s.bridges
  | .redIn_ => t.redIn = s.redIn
  | .redStage_ => t.redStage = s.redStage
  | .redRun_ => t.redRun = s.redRun
  | .redOpen_ => t.redOpen = s.redOpen
  | .redClk_ => t.redClk = s.redClk
  | .mcFlits_ => t.mcFlits = s.mcFlits
  | .audited_ => t.audited = s.audited
  | .auditFirst_ => t.auditFirst = s.auditFirst
  | .hbm_ => t.hbm = s.hbm
  | .cxl_ => t.cxl = s.cxl
  | .chanCe_ => t.chanCe = s.chanCe
  | .hbmUe_ => t.hbmUe = s.hbmUe
  | .metaCache_ => t.metaCache = s.metaCache
  | .sideArea_ => t.sideArea = s.sideArea
  | .hot_ => t.hot = s.hot
  | .tcache_ => t.tcache = s.tcache
  | .wcache_ => t.wcache = s.wcache
  | .fq_ => t.fq = s.fq
  | .inv_ => t.inv = s.inv
  | .stu_ => t.stu = s.stu
  | .cues_ => t.cues = s.cues
  | .ports_ => t.ports = s.ports
  | .sess_ => t.sess = s.sess
  | .sessIn_ => t.sessIn = s.sessIn
  | .reqs_ => t.reqs = s.reqs
  | .nextTag_ => t.nextTag = s.nextTag
  | .loom_ => t.loom = s.loom
  | .queues_ => t.queues = s.queues
  | .queueRr_ => t.queueRr = s.queueRr
  | .fences_ => t.fences = s.fences
  | .objs_ => t.objs = s.objs
  | .freed_ => t.freed = s.freed
  | .ctxs_ => t.ctxs = s.ctxs
  | .mbx_ => t.mbx = s.mbx
  | .fns_ => t.fns = s.fns
  | .pci_ => t.pci = s.pci
  | .hostReads_ => t.hostReads = s.hostReads
  | .pfWalks_ => t.pfWalks = s.pfWalks
  | .walkWait_ => t.walkWait = s.walkWait
  | .fwNeed_ => t.fwNeed = s.fwNeed
  | .fwGot_ => t.fwGot = s.fwGot
  | .fwHeld_ => t.fwHeld = s.fwHeld
  | .casts_ => t.casts = s.casts
  | .serve_ => t.serve = s.serve
  | .power_ => t.power = s.power
  | .sec_ => t.sec = s.sec
  | .fw_ => t.fw = s.fw
  | .inc_ => t.inc = s.inc
  | .twin_ => t.twin = s.twin
  | .lost_ => t.lost = s.lost
  | .cxlGone_ => t.cxlGone = s.cxlGone
  | .pins_ => t.pins = s.pins
  | .freeCtr_ => t.freeCtr = s.freeCtr
  | .out_ => t.out = s.out
  | .pending_ => t.pending = s.pending

/-- The number of a field. -/
def Fld.no (f : Fld) : Nat :=
  match f with
  | .regs_ => 0
  | .vfErr_ => 1
  | .latch_ => 2
  | .loHeld_ => 3
  | .ctrs_ => 4
  | .tiles_ => 5
  | .ledgers_ => 6
  | .meshCe_ => 7
  | .bridges_ => 8
  | .redIn_ => 9
  | .redStage_ => 10
  | .redRun_ => 11
  | .redOpen_ => 12
  | .redClk_ => 13
  | .mcFlits_ => 14
  | .audited_ => 15
  | .auditFirst_ => 16
  | .hbm_ => 17
  | .cxl_ => 18
  | .chanCe_ => 19
  | .hbmUe_ => 20
  | .metaCache_ => 21
  | .sideArea_ => 22
  | .hot_ => 23
  | .tcache_ => 24
  | .wcache_ => 25
  | .fq_ => 26
  | .inv_ => 27
  | .stu_ => 28
  | .cues_ => 29
  | .ports_ => 30
  | .sess_ => 31
  | .sessIn_ => 32
  | .reqs_ => 33
  | .nextTag_ => 34
  | .loom_ => 35
  | .queues_ => 36
  | .queueRr_ => 37
  | .fences_ => 38
  | .objs_ => 39
  | .freed_ => 40
  | .ctxs_ => 41
  | .mbx_ => 42
  | .fns_ => 43
  | .pci_ => 44
  | .hostReads_ => 45
  | .pfWalks_ => 46
  | .walkWait_ => 47
  | .fwNeed_ => 48
  | .fwGot_ => 49
  | .fwHeld_ => 50
  | .casts_ => 51
  | .serve_ => 52
  | .power_ => 53
  | .sec_ => 54
  | .fw_ => 55
  | .inc_ => 56
  | .twin_ => 57
  | .lost_ => 58
  | .cxlGone_ => 59
  | .pins_ => 60
  | .freeCtr_ => 61
  | .out_ => 62
  | .pending_ => 63

/-- Is a field in the list? -/
def Fld.has (l : List Fld) (f : Fld) : Bool :=
  match l with
  | [] => false
  | g :: l => Nat.beq g.no f.no || Fld.has l f

/-- One list of fields is part of another. -/
def Fld.sub (l m : List Fld) : Bool :=
  match l with
  | [] => true
  | g :: l => Fld.has m g && Fld.sub l m

/-- `t` differs from `s` in fields of the list only. -/
structure Only (l : List Fld) (s t : State) : Prop where
  same : ∀ f, Fld.has l f = false → f.same s t

theorem Fld.has_no {l : List Fld} {f g : Fld} (h : g.no = f.no) : Fld.has l g = Fld.has l f := by
  induction l with
  | nil => rfl
  | cons x l ih => simp only [Fld.has, h, ih]

theorem Fld.has_sub {l m : List Fld} {f : Fld} (h : Fld.sub l m = true) (hf : Fld.has l f = true) : Fld.has m f = true := by
  induction l with
  | nil => cases hf
  | cons g l ih =>
    simp only [Fld.sub, Bool.and_eq_true] at h
    simp only [Fld.has, Bool.or_eq_true] at hf
    rcases hf with hf | hf
    · rw [← Fld.has_no (Nat.eq_of_beq_eq_true hf)]
      exact h.1
    · exact ih h.2 hf

theorem Fld.sub_of {l m : List Fld} (h : ∀ f, Fld.has l f = true → Fld.has m f = true) : Fld.sub l m = true := by
  induction l with
  | nil => rfl
  | cons g l ih =>
    simp only [Fld.sub, Bool.and_eq_true]
    refine ⟨h g ?_, ih (fun f hf => h f ?_)⟩
    · simp only [Fld.has, Nat.beq_refl, Bool.true_or]
    · simp only [Fld.has, hf, Bool.or_true]

/-- A part decided by evaluation. -/
theorem Fld.yes {l m : List Fld} (h : Fld.sub l m = true) : Fld.sub l m = true := h

/-- Parts of parts. -/
theorem Fld.sub_trans {l m k : List Fld} (h : Fld.sub l m = true) (g : Fld.sub m k = true) : Fld.sub l k = true :=
  Fld.sub_of (fun _ hf => Fld.has_sub g (Fld.has_sub h hf))

/-- Nothing has changed. -/
theorem Only.refl (l : List Fld) (s : State) : Only l s s := ⟨by
  intro f _
  cases f <;> rfl⟩

/-- A field agrees along two steps. -/
theorem Fld.same_trans {f : Fld} {s t u : State} (h : f.same s t) (g : f.same t u) : f.same s u := by
  cases f <;> exact Eq.trans g h

/-- More fields may change. -/
theorem Only.mono {l m : List Fld} {s t : State} (h : Only l s t) (hl : Fld.sub l m = true) : Only m s t := ⟨by
  intro f hf
  apply h.same f
  cases hc : Fld.has l f with
  | false => rfl
  | true => rw [Fld.has_sub hl hc] at hf; cases hf⟩

/-- Two changes one after the other. -/
theorem Only.seq {l m : List Fld} {s t u : State} (h : Only m s t) (g : Only l t u) (hl : Fld.sub l m = true) : Only m s u := ⟨by
  intro f hf
  exact Fld.same_trans (h.same f hf) ((g.mono hl).same f hf)⟩

/-- A state with the fields of a list at their reset values. -/
noncomputable def Fld.mask (l : List Fld) (s : State) : State where
  regs := Bool.rec s.regs State.reset.regs (Fld.has l .regs_)
  vfErr := Bool.rec s.vfErr State.reset.vfErr (Fld.has l .vfErr_)
  latch := Bool.rec s.latch State.reset.latch (Fld.has l .latch_)
  loHeld := Bool.rec s.loHeld State.reset.loHeld (Fld.has l .loHeld_)
  ctrs := Bool.rec s.ctrs State.reset.ctrs (Fld.has l .ctrs_)
  tiles := Bool.rec s.tiles State.reset.tiles (Fld.has l .tiles_)
  ledgers := Bool.rec s.ledgers State.reset.ledgers (Fld.has l .ledgers_)
  meshCe := Bool.rec s.meshCe State.reset.meshCe (Fld.has l .meshCe_)
  bridges := Bool.rec s.bridges State.reset.bridges (Fld.has l .bridges_)
  redIn := Bool.rec s.redIn State.reset.redIn (Fld.has l .redIn_)
  redStage := Bool.rec s.redStage State.reset.redStage (Fld.has l .redStage_)
  redRun := Bool.rec s.redRun State.reset.redRun (Fld.has l .redRun_)
  redOpen := Bool.rec s.redOpen State.reset.redOpen (Fld.has l .redOpen_)
  redClk := Bool.rec s.redClk State.reset.redClk (Fld.has l .redClk_)
  mcFlits := Bool.rec s.mcFlits State.reset.mcFlits (Fld.has l .mcFlits_)
  audited := Bool.rec s.audited State.reset.audited (Fld.has l .audited_)
  auditFirst := Bool.rec s.auditFirst State.reset.auditFirst (Fld.has l .auditFirst_)
  hbm := Bool.rec s.hbm State.reset.hbm (Fld.has l .hbm_)
  cxl := Bool.rec s.cxl State.reset.cxl (Fld.has l .cxl_)
  chanCe := Bool.rec s.chanCe State.reset.chanCe (Fld.has l .chanCe_)
  hbmUe := Bool.rec s.hbmUe State.reset.hbmUe (Fld.has l .hbmUe_)
  metaCache := Bool.rec s.metaCache State.reset.metaCache (Fld.has l .metaCache_)
  sideArea := Bool.rec s.sideArea State.reset.sideArea (Fld.has l .sideArea_)
  hot := Bool.rec s.hot State.reset.hot (Fld.has l .hot_)
  tcache := Bool.rec s.tcache State.reset.tcache (Fld.has l .tcache_)
  wcache := Bool.rec s.wcache State.reset.wcache (Fld.has l .wcache_)
  fq := Bool.rec s.fq State.reset.fq (Fld.has l .fq_)
  inv := Bool.rec s.inv State.reset.inv (Fld.has l .inv_)
  stu := Bool.rec s.stu State.reset.stu (Fld.has l .stu_)
  cues := Bool.rec s.cues State.reset.cues (Fld.has l .cues_)
  ports := Bool.rec s.ports State.reset.ports (Fld.has l .ports_)
  sess := Bool.rec s.sess State.reset.sess (Fld.has l .sess_)
  sessIn := Bool.rec s.sessIn State.reset.sessIn (Fld.has l .sessIn_)
  reqs := Bool.rec s.reqs State.reset.reqs (Fld.has l .reqs_)
  nextTag := Bool.rec s.nextTag State.reset.nextTag (Fld.has l .nextTag_)
  loom := Bool.rec s.loom State.reset.loom (Fld.has l .loom_)
  queues := Bool.rec s.queues State.reset.queues (Fld.has l .queues_)
  queueRr := Bool.rec s.queueRr State.reset.queueRr (Fld.has l .queueRr_)
  fences := Bool.rec s.fences State.reset.fences (Fld.has l .fences_)
  objs := Bool.rec s.objs State.reset.objs (Fld.has l .objs_)
  freed := Bool.rec s.freed State.reset.freed (Fld.has l .freed_)
  ctxs := Bool.rec s.ctxs State.reset.ctxs (Fld.has l .ctxs_)
  mbx := Bool.rec s.mbx State.reset.mbx (Fld.has l .mbx_)
  fns := Bool.rec s.fns State.reset.fns (Fld.has l .fns_)
  pci := Bool.rec s.pci State.reset.pci (Fld.has l .pci_)
  hostReads := Bool.rec s.hostReads State.reset.hostReads (Fld.has l .hostReads_)
  pfWalks := Bool.rec s.pfWalks State.reset.pfWalks (Fld.has l .pfWalks_)
  walkWait := Bool.rec s.walkWait State.reset.walkWait (Fld.has l .walkWait_)
  fwNeed := Bool.rec s.fwNeed State.reset.fwNeed (Fld.has l .fwNeed_)
  fwGot := Bool.rec s.fwGot State.reset.fwGot (Fld.has l .fwGot_)
  fwHeld := Bool.rec s.fwHeld State.reset.fwHeld (Fld.has l .fwHeld_)
  casts := Bool.rec s.casts State.reset.casts (Fld.has l .casts_)
  serve := Bool.rec s.serve State.reset.serve (Fld.has l .serve_)
  power := Bool.rec s.power State.reset.power (Fld.has l .power_)
  sec := Bool.rec s.sec State.reset.sec (Fld.has l .sec_)
  fw := Bool.rec s.fw State.reset.fw (Fld.has l .fw_)
  inc := Bool.rec s.inc State.reset.inc (Fld.has l .inc_)
  twin := Bool.rec s.twin State.reset.twin (Fld.has l .twin_)
  lost := Bool.rec s.lost State.reset.lost (Fld.has l .lost_)
  cxlGone := Bool.rec s.cxlGone State.reset.cxlGone (Fld.has l .cxlGone_)
  pins := Bool.rec s.pins State.reset.pins (Fld.has l .pins_)
  freeCtr := Bool.rec s.freeCtr State.reset.freeCtr (Fld.has l .freeCtr_)
  out := Bool.rec s.out State.reset.out (Fld.has l .out_)
  pending := Bool.rec s.pending State.reset.pending (Fld.has l .pending_)

/-- The same, under another name: the two sides of `Only.upd` are then compared field by field. -/
noncomputable def Fld.mask2 (l : List Fld) (s : State) : State where
  regs := Bool.rec s.regs State.reset.regs (Fld.has l .regs_)
  vfErr := Bool.rec s.vfErr State.reset.vfErr (Fld.has l .vfErr_)
  latch := Bool.rec s.latch State.reset.latch (Fld.has l .latch_)
  loHeld := Bool.rec s.loHeld State.reset.loHeld (Fld.has l .loHeld_)
  ctrs := Bool.rec s.ctrs State.reset.ctrs (Fld.has l .ctrs_)
  tiles := Bool.rec s.tiles State.reset.tiles (Fld.has l .tiles_)
  ledgers := Bool.rec s.ledgers State.reset.ledgers (Fld.has l .ledgers_)
  meshCe := Bool.rec s.meshCe State.reset.meshCe (Fld.has l .meshCe_)
  bridges := Bool.rec s.bridges State.reset.bridges (Fld.has l .bridges_)
  redIn := Bool.rec s.redIn State.reset.redIn (Fld.has l .redIn_)
  redStage := Bool.rec s.redStage State.reset.redStage (Fld.has l .redStage_)
  redRun := Bool.rec s.redRun State.reset.redRun (Fld.has l .redRun_)
  redOpen := Bool.rec s.redOpen State.reset.redOpen (Fld.has l .redOpen_)
  redClk := Bool.rec s.redClk State.reset.redClk (Fld.has l .redClk_)
  mcFlits := Bool.rec s.mcFlits State.reset.mcFlits (Fld.has l .mcFlits_)
  audited := Bool.rec s.audited State.reset.audited (Fld.has l .audited_)
  auditFirst := Bool.rec s.auditFirst State.reset.auditFirst (Fld.has l .auditFirst_)
  hbm := Bool.rec s.hbm State.reset.hbm (Fld.has l .hbm_)
  cxl := Bool.rec s.cxl State.reset.cxl (Fld.has l .cxl_)
  chanCe := Bool.rec s.chanCe State.reset.chanCe (Fld.has l .chanCe_)
  hbmUe := Bool.rec s.hbmUe State.reset.hbmUe (Fld.has l .hbmUe_)
  metaCache := Bool.rec s.metaCache State.reset.metaCache (Fld.has l .metaCache_)
  sideArea := Bool.rec s.sideArea State.reset.sideArea (Fld.has l .sideArea_)
  hot := Bool.rec s.hot State.reset.hot (Fld.has l .hot_)
  tcache := Bool.rec s.tcache State.reset.tcache (Fld.has l .tcache_)
  wcache := Bool.rec s.wcache State.reset.wcache (Fld.has l .wcache_)
  fq := Bool.rec s.fq State.reset.fq (Fld.has l .fq_)
  inv := Bool.rec s.inv State.reset.inv (Fld.has l .inv_)
  stu := Bool.rec s.stu State.reset.stu (Fld.has l .stu_)
  cues := Bool.rec s.cues State.reset.cues (Fld.has l .cues_)
  ports := Bool.rec s.ports State.reset.ports (Fld.has l .ports_)
  sess := Bool.rec s.sess State.reset.sess (Fld.has l .sess_)
  sessIn := Bool.rec s.sessIn State.reset.sessIn (Fld.has l .sessIn_)
  reqs := Bool.rec s.reqs State.reset.reqs (Fld.has l .reqs_)
  nextTag := Bool.rec s.nextTag State.reset.nextTag (Fld.has l .nextTag_)
  loom := Bool.rec s.loom State.reset.loom (Fld.has l .loom_)
  queues := Bool.rec s.queues State.reset.queues (Fld.has l .queues_)
  queueRr := Bool.rec s.queueRr State.reset.queueRr (Fld.has l .queueRr_)
  fences := Bool.rec s.fences State.reset.fences (Fld.has l .fences_)
  objs := Bool.rec s.objs State.reset.objs (Fld.has l .objs_)
  freed := Bool.rec s.freed State.reset.freed (Fld.has l .freed_)
  ctxs := Bool.rec s.ctxs State.reset.ctxs (Fld.has l .ctxs_)
  mbx := Bool.rec s.mbx State.reset.mbx (Fld.has l .mbx_)
  fns := Bool.rec s.fns State.reset.fns (Fld.has l .fns_)
  pci := Bool.rec s.pci State.reset.pci (Fld.has l .pci_)
  hostReads := Bool.rec s.hostReads State.reset.hostReads (Fld.has l .hostReads_)
  pfWalks := Bool.rec s.pfWalks State.reset.pfWalks (Fld.has l .pfWalks_)
  walkWait := Bool.rec s.walkWait State.reset.walkWait (Fld.has l .walkWait_)
  fwNeed := Bool.rec s.fwNeed State.reset.fwNeed (Fld.has l .fwNeed_)
  fwGot := Bool.rec s.fwGot State.reset.fwGot (Fld.has l .fwGot_)
  fwHeld := Bool.rec s.fwHeld State.reset.fwHeld (Fld.has l .fwHeld_)
  casts := Bool.rec s.casts State.reset.casts (Fld.has l .casts_)
  serve := Bool.rec s.serve State.reset.serve (Fld.has l .serve_)
  power := Bool.rec s.power State.reset.power (Fld.has l .power_)
  sec := Bool.rec s.sec State.reset.sec (Fld.has l .sec_)
  fw := Bool.rec s.fw State.reset.fw (Fld.has l .fw_)
  inc := Bool.rec s.inc State.reset.inc (Fld.has l .inc_)
  twin := Bool.rec s.twin State.reset.twin (Fld.has l .twin_)
  lost := Bool.rec s.lost State.reset.lost (Fld.has l .lost_)
  cxlGone := Bool.rec s.cxlGone State.reset.cxlGone (Fld.has l .cxlGone_)
  pins := Bool.rec s.pins State.reset.pins (Fld.has l .pins_)
  freeCtr := Bool.rec s.freeCtr State.reset.freeCtr (Fld.has l .freeCtr_)
  out := Bool.rec s.out State.reset.out (Fld.has l .out_)
  pending := Bool.rec s.pending State.reset.pending (Fld.has l .pending_)

/-- A change of fields of a state reached; the field that never changes says which state that is. -/
theorem Only.upd {l : List Fld} {s t : State}
    {x0 : Sparse Word} {x1 : Sparse Word} {x2 : Sparse (Option Latch)} {x3 : Sparse (Option Word)} {x4 : Sparse Ctr} {x5
    : Sparse Tile} {x6 : Sparse Ledger} {x7 : Sparse Nat} {x8 : Sparse BridgeStop} {x9 : List RedInput} {x10 : List
    RedInput} {x11 : Sparse RedRun} {x12 : List (Nat × Nat × Nat × Nat)} {x13 : Sparse (Option Nat × Nat)} {x14 : List
    McFlit} {x15 : Sparse (Option Nat)} {x16 : List Nat} {x17 : Mem} {x18 : Mem} {x19 : Sparse Nat} {x20 : Sparse Bool}
    {x21 : Sparse (List MetaLine)} {x22 : List MetaLine} {x23 : List Nat} {x24 : Sparse (List Leaf)} {x25 : Sparse (List
    WalkEntry)} {x26 : Sparse FaultQueue} {x27 : Sparse (Option InvActive)} {x28 : Stu} {x29 : Sparse (Option
    CueSlotSt)} {x30 : Sparse CrPort} {x31 : Sparse (Option Sess)} {x32 : List SessMsg} {x33 : Sparse (Option CrReq)}
    {x34 : Nat} {x35 : Loom} {x36 : Sparse QueueSt} {x37 : Sparse Nat} {x38 : Sparse (Option FenceSt)} {x39 : Sparse
    ObjSt} {x40 : Sparse (List Word)} {x41 : Sparse Ctx} {x42 : Sparse Mailbox} {x43 : Sparse FnSt} {x44 : Pci} {x45 :
    Sparse (Option HostRead)} {x46 : List PfWalk} {x47 : List (Nat × Nat)} {x48 : Option FwNeed} {x49 : List FwGot} {x50
    : List FwNeed} {x51 : Sparse CastSt} {x52 : Sparse Serve} {x53 : Power} {x54 : Sec} {x55 : Fw} {x56 : Inc} {x57 :
    Twin} {x58 : Sparse (List (Nat × Option Nat))} {x59 : List (Nat × Nat)} {x60 : Pins} {x61 : Nat} {x62 : List Out}
    {x63 : List Instr}
    (h : Only l s t) (_ : x63 = t.pending)
    (g : Fld.mask l t = Fld.mask2 l
      ⟨x0, x1, x2, x3, x4, x5, x6, x7, x8, x9, x10, x11, x12, x13, x14, x15, x16, x17, x18, x19, x20, x21, x22, x23, x24,
      x25, x26, x27, x28, x29, x30, x31, x32, x33, x34, x35, x36, x37, x38, x39, x40, x41, x42, x43, x44, x45, x46, x47,
      x48, x49, x50, x51, x52, x53, x54, x55, x56, x57, x58, x59, x60, x61, x62, x63⟩) :
    Only l s
      ⟨x0, x1, x2, x3, x4, x5, x6, x7, x8, x9, x10, x11, x12, x13, x14, x15, x16, x17, x18, x19, x20, x21, x22, x23, x24,
      x25, x26, x27, x28, x29, x30, x31, x32, x33, x34, x35, x36, x37, x38, x39, x40, x41, x42, x43, x44, x45, x46, x47,
      x48, x49, x50, x51, x52, x53, x54, x55, x56, x57, x58, x59, x60, x61, x62, x63⟩ := ⟨by
  intro f hf
  refine Fld.same_trans (h.same f hf) ?_
  cases f
  · have hx := congrArg (fun x => x.regs) g
    simp only [Fld.mask, Fld.mask2, hf] at hx
    exact hx.symm
  · have hx := congrArg (fun x => x.vfErr) g
    simp only [Fld.mask, Fld.mask2, hf] at hx
    exact hx.symm
  · have hx := congrArg (fun x => x.latch) g
    simp only [Fld.mask, Fld.mask2, hf] at hx
    exact hx.symm
  · have hx := congrArg (fun x => x.loHeld) g
    simp only [Fld.mask, Fld.mask2, hf] at hx
    exact hx.symm
  · have hx := congrArg (fun x => x.ctrs) g
    simp only [Fld.mask, Fld.mask2, hf] at hx
    exact hx.symm
  · have hx := congrArg (fun x => x.tiles) g
    simp only [Fld.mask, Fld.mask2, hf] at hx
    exact hx.symm
  · have hx := congrArg (fun x => x.ledgers) g
    simp only [Fld.mask, Fld.mask2, hf] at hx
    exact hx.symm
  · have hx := congrArg (fun x => x.meshCe) g
    simp only [Fld.mask, Fld.mask2, hf] at hx
    exact hx.symm
  · have hx := congrArg (fun x => x.bridges) g
    simp only [Fld.mask, Fld.mask2, hf] at hx
    exact hx.symm
  · have hx := congrArg (fun x => x.redIn) g
    simp only [Fld.mask, Fld.mask2, hf] at hx
    exact hx.symm
  · have hx := congrArg (fun x => x.redStage) g
    simp only [Fld.mask, Fld.mask2, hf] at hx
    exact hx.symm
  · have hx := congrArg (fun x => x.redRun) g
    simp only [Fld.mask, Fld.mask2, hf] at hx
    exact hx.symm
  · have hx := congrArg (fun x => x.redOpen) g
    simp only [Fld.mask, Fld.mask2, hf] at hx
    exact hx.symm
  · have hx := congrArg (fun x => x.redClk) g
    simp only [Fld.mask, Fld.mask2, hf] at hx
    exact hx.symm
  · have hx := congrArg (fun x => x.mcFlits) g
    simp only [Fld.mask, Fld.mask2, hf] at hx
    exact hx.symm
  · have hx := congrArg (fun x => x.audited) g
    simp only [Fld.mask, Fld.mask2, hf] at hx
    exact hx.symm
  · have hx := congrArg (fun x => x.auditFirst) g
    simp only [Fld.mask, Fld.mask2, hf] at hx
    exact hx.symm
  · have hx := congrArg (fun x => x.hbm) g
    simp only [Fld.mask, Fld.mask2, hf] at hx
    exact hx.symm
  · have hx := congrArg (fun x => x.cxl) g
    simp only [Fld.mask, Fld.mask2, hf] at hx
    exact hx.symm
  · have hx := congrArg (fun x => x.chanCe) g
    simp only [Fld.mask, Fld.mask2, hf] at hx
    exact hx.symm
  · have hx := congrArg (fun x => x.hbmUe) g
    simp only [Fld.mask, Fld.mask2, hf] at hx
    exact hx.symm
  · have hx := congrArg (fun x => x.metaCache) g
    simp only [Fld.mask, Fld.mask2, hf] at hx
    exact hx.symm
  · have hx := congrArg (fun x => x.sideArea) g
    simp only [Fld.mask, Fld.mask2, hf] at hx
    exact hx.symm
  · have hx := congrArg (fun x => x.hot) g
    simp only [Fld.mask, Fld.mask2, hf] at hx
    exact hx.symm
  · have hx := congrArg (fun x => x.tcache) g
    simp only [Fld.mask, Fld.mask2, hf] at hx
    exact hx.symm
  · have hx := congrArg (fun x => x.wcache) g
    simp only [Fld.mask, Fld.mask2, hf] at hx
    exact hx.symm
  · have hx := congrArg (fun x => x.fq) g
    simp only [Fld.mask, Fld.mask2, hf] at hx
    exact hx.symm
  · have hx := congrArg (fun x => x.inv) g
    simp only [Fld.mask, Fld.mask2, hf] at hx
    exact hx.symm
  · have hx := congrArg (fun x => x.stu) g
    simp only [Fld.mask, Fld.mask2, hf] at hx
    exact hx.symm
  · have hx := congrArg (fun x => x.cues) g
    simp only [Fld.mask, Fld.mask2, hf] at hx
    exact hx.symm
  · have hx := congrArg (fun x => x.ports) g
    simp only [Fld.mask, Fld.mask2, hf] at hx
    exact hx.symm
  · have hx := congrArg (fun x => x.sess) g
    simp only [Fld.mask, Fld.mask2, hf] at hx
    exact hx.symm
  · have hx := congrArg (fun x => x.sessIn) g
    simp only [Fld.mask, Fld.mask2, hf] at hx
    exact hx.symm
  · have hx := congrArg (fun x => x.reqs) g
    simp only [Fld.mask, Fld.mask2, hf] at hx
    exact hx.symm
  · have hx := congrArg (fun x => x.nextTag) g
    simp only [Fld.mask, Fld.mask2, hf] at hx
    exact hx.symm
  · have hx := congrArg (fun x => x.loom) g
    simp only [Fld.mask, Fld.mask2, hf] at hx
    exact hx.symm
  · have hx := congrArg (fun x => x.queues) g
    simp only [Fld.mask, Fld.mask2, hf] at hx
    exact hx.symm
  · have hx := congrArg (fun x => x.queueRr) g
    simp only [Fld.mask, Fld.mask2, hf] at hx
    exact hx.symm
  · have hx := congrArg (fun x => x.fences) g
    simp only [Fld.mask, Fld.mask2, hf] at hx
    exact hx.symm
  · have hx := congrArg (fun x => x.objs) g
    simp only [Fld.mask, Fld.mask2, hf] at hx
    exact hx.symm
  · have hx := congrArg (fun x => x.freed) g
    simp only [Fld.mask, Fld.mask2, hf] at hx
    exact hx.symm
  · have hx := congrArg (fun x => x.ctxs) g
    simp only [Fld.mask, Fld.mask2, hf] at hx
    exact hx.symm
  · have hx := congrArg (fun x => x.mbx) g
    simp only [Fld.mask, Fld.mask2, hf] at hx
    exact hx.symm
  · have hx := congrArg (fun x => x.fns) g
    simp only [Fld.mask, Fld.mask2, hf] at hx
    exact hx.symm
  · have hx := congrArg (fun x => x.pci) g
    simp only [Fld.mask, Fld.mask2, hf] at hx
    exact hx.symm
  · have hx := congrArg (fun x => x.hostReads) g
    simp only [Fld.mask, Fld.mask2, hf] at hx
    exact hx.symm
  · have hx := congrArg (fun x => x.pfWalks) g
    simp only [Fld.mask, Fld.mask2, hf] at hx
    exact hx.symm
  · have hx := congrArg (fun x => x.walkWait) g
    simp only [Fld.mask, Fld.mask2, hf] at hx
    exact hx.symm
  · have hx := congrArg (fun x => x.fwNeed) g
    simp only [Fld.mask, Fld.mask2, hf] at hx
    exact hx.symm
  · have hx := congrArg (fun x => x.fwGot) g
    simp only [Fld.mask, Fld.mask2, hf] at hx
    exact hx.symm
  · have hx := congrArg (fun x => x.fwHeld) g
    simp only [Fld.mask, Fld.mask2, hf] at hx
    exact hx.symm
  · have hx := congrArg (fun x => x.casts) g
    simp only [Fld.mask, Fld.mask2, hf] at hx
    exact hx.symm
  · have hx := congrArg (fun x => x.serve) g
    simp only [Fld.mask, Fld.mask2, hf] at hx
    exact hx.symm
  · have hx := congrArg (fun x => x.power) g
    simp only [Fld.mask, Fld.mask2, hf] at hx
    exact hx.symm
  · have hx := congrArg (fun x => x.sec) g
    simp only [Fld.mask, Fld.mask2, hf] at hx
    exact hx.symm
  · have hx := congrArg (fun x => x.fw) g
    simp only [Fld.mask, Fld.mask2, hf] at hx
    exact hx.symm
  · have hx := congrArg (fun x => x.inc) g
    simp only [Fld.mask, Fld.mask2, hf] at hx
    exact hx.symm
  · have hx := congrArg (fun x => x.twin) g
    simp only [Fld.mask, Fld.mask2, hf] at hx
    exact hx.symm
  · have hx := congrArg (fun x => x.lost) g
    simp only [Fld.mask, Fld.mask2, hf] at hx
    exact hx.symm
  · have hx := congrArg (fun x => x.cxlGone) g
    simp only [Fld.mask, Fld.mask2, hf] at hx
    exact hx.symm
  · have hx := congrArg (fun x => x.pins) g
    simp only [Fld.mask, Fld.mask2, hf] at hx
    exact hx.symm
  · have hx := congrArg (fun x => x.freeCtr) g
    simp only [Fld.mask, Fld.mask2, hf] at hx
    exact hx.symm
  · have hx := congrArg (fun x => x.out) g
    simp only [Fld.mask, Fld.mask2, hf] at hx
    exact hx.symm
  · have hx := congrArg (fun x => x.pending) g
    simp only [Fld.mask, Fld.mask2, hf] at hx
    exact hx.symm⟩

/-- A state reached on the way. -/
theorem Only.have_ {l : List Fld} {s t u : State} (h : Only l s u) (g : Only l s u → Only l s t) : Only l s t := g h

/-- A choice. -/
theorem Only.ite {l : List Fld} {s t u : State} {c : Prop} [Decidable c] (h : Only l s t) (g : Only l s u) :
    Only l s (if c then t else u) := by
  split
  · exact h
  · exact g

/-- A fold over a state and something else. -/
theorem Only.foldlP {α β : Type} {l : List Fld} {s : State} {f : State × β → α → State × β}
    (hf : ∀ t x, Only l s t.1 → Only l s (f t x).1) (xs : List α) : ∀ t : State × β, Only l s t.1 → Only l s (xs.foldl f t).1 := by
  induction xs with
  | nil => intro t h; exact h
  | cons x xs ih => intro t h; exact ih _ (hf t x h)

/-- A fold. -/
theorem Only.foldl {α : Type} {l : List Fld} {s : State} {f : State → α → State} (hf : ∀ t x, Only l s t → Only l s (f t x))
    (xs : List α) : ∀ t, Only l s t → Only l s (xs.foldl f t) := by
  induction xs with
  | nil => intro t h; exact h
  | cons x xs ih => intro t h; exact ih _ (hf t x h)

/-- Every field but what left the module and the queue. -/
def Fld.most : List Fld :=
  [.regs_, .vfErr_, .latch_, .loHeld_, .ctrs_, .tiles_, .ledgers_, .meshCe_, .bridges_, .redIn_, .redStage_, .redRun_, .redOpen_, .redClk_, .mcFlits_, .audited_, .auditFirst_, .hbm_, .cxl_, .chanCe_, .hbmUe_, .metaCache_, .sideArea_, .hot_, .tcache_, .wcache_, .fq_, .inv_, .stu_, .cues_] ++
  [.ports_, .sess_, .sessIn_, .reqs_, .nextTag_, .loom_, .queues_, .queueRr_, .fences_, .objs_, .freed_, .ctxs_, .mbx_, .fns_, .pci_, .hostReads_, .pfWalks_, .walkWait_, .fwNeed_, .fwGot_, .fwHeld_, .casts_, .serve_, .power_, .sec_, .fw_, .inc_, .twin_, .lost_, .cxlGone_, .pins_, .freeCtr_]

/-- Everything but what left the module and the queue may change. -/
theorem Only.all {s t : State} (h : t.out = s.out) (g : t.pending = s.pending) : Only Fld.most s t := ⟨by
  intro f hf
  cases f <;> first | exact h | exact g | exact absurd hf (by decide)⟩

theorem Only.regs {l : List Fld} {s t : State} (h : Only l s t) (hf : Fld.sub [.regs_] l = false) : t.regs = s.regs := by
  exact h.same .regs_ (by simpa [Fld.sub] using hf)
theorem Only.vfErr {l : List Fld} {s t : State} (h : Only l s t) (hf : Fld.sub [.vfErr_] l = false) : t.vfErr = s.vfErr := by
  exact h.same .vfErr_ (by simpa [Fld.sub] using hf)
theorem Only.latch {l : List Fld} {s t : State} (h : Only l s t) (hf : Fld.sub [.latch_] l = false) : t.latch = s.latch := by
  exact h.same .latch_ (by simpa [Fld.sub] using hf)
theorem Only.loHeld {l : List Fld} {s t : State} (h : Only l s t) (hf : Fld.sub [.loHeld_] l = false) : t.loHeld = s.loHeld := by
  exact h.same .loHeld_ (by simpa [Fld.sub] using hf)
theorem Only.ctrs {l : List Fld} {s t : State} (h : Only l s t) (hf : Fld.sub [.ctrs_] l = false) : t.ctrs = s.ctrs := by
  exact h.same .ctrs_ (by simpa [Fld.sub] using hf)
theorem Only.tiles {l : List Fld} {s t : State} (h : Only l s t) (hf : Fld.sub [.tiles_] l = false) : t.tiles = s.tiles := by
  exact h.same .tiles_ (by simpa [Fld.sub] using hf)
theorem Only.ledgers {l : List Fld} {s t : State} (h : Only l s t) (hf : Fld.sub [.ledgers_] l = false) : t.ledgers = s.ledgers := by
  exact h.same .ledgers_ (by simpa [Fld.sub] using hf)
theorem Only.meshCe {l : List Fld} {s t : State} (h : Only l s t) (hf : Fld.sub [.meshCe_] l = false) : t.meshCe = s.meshCe := by
  exact h.same .meshCe_ (by simpa [Fld.sub] using hf)
theorem Only.bridges {l : List Fld} {s t : State} (h : Only l s t) (hf : Fld.sub [.bridges_] l = false) : t.bridges = s.bridges := by
  exact h.same .bridges_ (by simpa [Fld.sub] using hf)
theorem Only.redIn {l : List Fld} {s t : State} (h : Only l s t) (hf : Fld.sub [.redIn_] l = false) : t.redIn = s.redIn := by
  exact h.same .redIn_ (by simpa [Fld.sub] using hf)
theorem Only.redStage {l : List Fld} {s t : State} (h : Only l s t) (hf : Fld.sub [.redStage_] l = false) : t.redStage = s.redStage := by
  exact h.same .redStage_ (by simpa [Fld.sub] using hf)
theorem Only.redRun {l : List Fld} {s t : State} (h : Only l s t) (hf : Fld.sub [.redRun_] l = false) : t.redRun = s.redRun := by
  exact h.same .redRun_ (by simpa [Fld.sub] using hf)
theorem Only.redOpen {l : List Fld} {s t : State} (h : Only l s t) (hf : Fld.sub [.redOpen_] l = false) : t.redOpen = s.redOpen := by
  exact h.same .redOpen_ (by simpa [Fld.sub] using hf)
theorem Only.redClk {l : List Fld} {s t : State} (h : Only l s t) (hf : Fld.sub [.redClk_] l = false) : t.redClk = s.redClk := by
  exact h.same .redClk_ (by simpa [Fld.sub] using hf)
theorem Only.mcFlits {l : List Fld} {s t : State} (h : Only l s t) (hf : Fld.sub [.mcFlits_] l = false) : t.mcFlits = s.mcFlits := by
  exact h.same .mcFlits_ (by simpa [Fld.sub] using hf)
theorem Only.audited {l : List Fld} {s t : State} (h : Only l s t) (hf : Fld.sub [.audited_] l = false) : t.audited = s.audited := by
  exact h.same .audited_ (by simpa [Fld.sub] using hf)
theorem Only.auditFirst {l : List Fld} {s t : State} (h : Only l s t) (hf : Fld.sub [.auditFirst_] l = false) : t.auditFirst = s.auditFirst := by
  exact h.same .auditFirst_ (by simpa [Fld.sub] using hf)
theorem Only.hbm {l : List Fld} {s t : State} (h : Only l s t) (hf : Fld.sub [.hbm_] l = false) : t.hbm = s.hbm := by
  exact h.same .hbm_ (by simpa [Fld.sub] using hf)
theorem Only.cxl {l : List Fld} {s t : State} (h : Only l s t) (hf : Fld.sub [.cxl_] l = false) : t.cxl = s.cxl := by
  exact h.same .cxl_ (by simpa [Fld.sub] using hf)
theorem Only.chanCe {l : List Fld} {s t : State} (h : Only l s t) (hf : Fld.sub [.chanCe_] l = false) : t.chanCe = s.chanCe := by
  exact h.same .chanCe_ (by simpa [Fld.sub] using hf)
theorem Only.hbmUe {l : List Fld} {s t : State} (h : Only l s t) (hf : Fld.sub [.hbmUe_] l = false) : t.hbmUe = s.hbmUe := by
  exact h.same .hbmUe_ (by simpa [Fld.sub] using hf)
theorem Only.metaCache {l : List Fld} {s t : State} (h : Only l s t) (hf : Fld.sub [.metaCache_] l = false) : t.metaCache = s.metaCache := by
  exact h.same .metaCache_ (by simpa [Fld.sub] using hf)
theorem Only.sideArea {l : List Fld} {s t : State} (h : Only l s t) (hf : Fld.sub [.sideArea_] l = false) : t.sideArea = s.sideArea := by
  exact h.same .sideArea_ (by simpa [Fld.sub] using hf)
theorem Only.hot {l : List Fld} {s t : State} (h : Only l s t) (hf : Fld.sub [.hot_] l = false) : t.hot = s.hot := by
  exact h.same .hot_ (by simpa [Fld.sub] using hf)
theorem Only.tcache {l : List Fld} {s t : State} (h : Only l s t) (hf : Fld.sub [.tcache_] l = false) : t.tcache = s.tcache := by
  exact h.same .tcache_ (by simpa [Fld.sub] using hf)
theorem Only.wcache {l : List Fld} {s t : State} (h : Only l s t) (hf : Fld.sub [.wcache_] l = false) : t.wcache = s.wcache := by
  exact h.same .wcache_ (by simpa [Fld.sub] using hf)
theorem Only.fq {l : List Fld} {s t : State} (h : Only l s t) (hf : Fld.sub [.fq_] l = false) : t.fq = s.fq := by
  exact h.same .fq_ (by simpa [Fld.sub] using hf)
theorem Only.inv {l : List Fld} {s t : State} (h : Only l s t) (hf : Fld.sub [.inv_] l = false) : t.inv = s.inv := by
  exact h.same .inv_ (by simpa [Fld.sub] using hf)
theorem Only.stu {l : List Fld} {s t : State} (h : Only l s t) (hf : Fld.sub [.stu_] l = false) : t.stu = s.stu := by
  exact h.same .stu_ (by simpa [Fld.sub] using hf)
theorem Only.cues {l : List Fld} {s t : State} (h : Only l s t) (hf : Fld.sub [.cues_] l = false) : t.cues = s.cues := by
  exact h.same .cues_ (by simpa [Fld.sub] using hf)
theorem Only.ports {l : List Fld} {s t : State} (h : Only l s t) (hf : Fld.sub [.ports_] l = false) : t.ports = s.ports := by
  exact h.same .ports_ (by simpa [Fld.sub] using hf)
theorem Only.sess {l : List Fld} {s t : State} (h : Only l s t) (hf : Fld.sub [.sess_] l = false) : t.sess = s.sess := by
  exact h.same .sess_ (by simpa [Fld.sub] using hf)
theorem Only.sessIn {l : List Fld} {s t : State} (h : Only l s t) (hf : Fld.sub [.sessIn_] l = false) : t.sessIn = s.sessIn := by
  exact h.same .sessIn_ (by simpa [Fld.sub] using hf)
theorem Only.reqs {l : List Fld} {s t : State} (h : Only l s t) (hf : Fld.sub [.reqs_] l = false) : t.reqs = s.reqs := by
  exact h.same .reqs_ (by simpa [Fld.sub] using hf)
theorem Only.nextTag {l : List Fld} {s t : State} (h : Only l s t) (hf : Fld.sub [.nextTag_] l = false) : t.nextTag = s.nextTag := by
  exact h.same .nextTag_ (by simpa [Fld.sub] using hf)
theorem Only.loom {l : List Fld} {s t : State} (h : Only l s t) (hf : Fld.sub [.loom_] l = false) : t.loom = s.loom := by
  exact h.same .loom_ (by simpa [Fld.sub] using hf)
theorem Only.queues {l : List Fld} {s t : State} (h : Only l s t) (hf : Fld.sub [.queues_] l = false) : t.queues = s.queues := by
  exact h.same .queues_ (by simpa [Fld.sub] using hf)
theorem Only.queueRr {l : List Fld} {s t : State} (h : Only l s t) (hf : Fld.sub [.queueRr_] l = false) : t.queueRr = s.queueRr := by
  exact h.same .queueRr_ (by simpa [Fld.sub] using hf)
theorem Only.fences {l : List Fld} {s t : State} (h : Only l s t) (hf : Fld.sub [.fences_] l = false) : t.fences = s.fences := by
  exact h.same .fences_ (by simpa [Fld.sub] using hf)
theorem Only.objs {l : List Fld} {s t : State} (h : Only l s t) (hf : Fld.sub [.objs_] l = false) : t.objs = s.objs := by
  exact h.same .objs_ (by simpa [Fld.sub] using hf)
theorem Only.freed {l : List Fld} {s t : State} (h : Only l s t) (hf : Fld.sub [.freed_] l = false) : t.freed = s.freed := by
  exact h.same .freed_ (by simpa [Fld.sub] using hf)
theorem Only.ctxs {l : List Fld} {s t : State} (h : Only l s t) (hf : Fld.sub [.ctxs_] l = false) : t.ctxs = s.ctxs := by
  exact h.same .ctxs_ (by simpa [Fld.sub] using hf)
theorem Only.mbx {l : List Fld} {s t : State} (h : Only l s t) (hf : Fld.sub [.mbx_] l = false) : t.mbx = s.mbx := by
  exact h.same .mbx_ (by simpa [Fld.sub] using hf)
theorem Only.fns {l : List Fld} {s t : State} (h : Only l s t) (hf : Fld.sub [.fns_] l = false) : t.fns = s.fns := by
  exact h.same .fns_ (by simpa [Fld.sub] using hf)
theorem Only.pci {l : List Fld} {s t : State} (h : Only l s t) (hf : Fld.sub [.pci_] l = false) : t.pci = s.pci := by
  exact h.same .pci_ (by simpa [Fld.sub] using hf)
theorem Only.hostReads {l : List Fld} {s t : State} (h : Only l s t) (hf : Fld.sub [.hostReads_] l = false) : t.hostReads = s.hostReads := by
  exact h.same .hostReads_ (by simpa [Fld.sub] using hf)
theorem Only.pfWalks {l : List Fld} {s t : State} (h : Only l s t) (hf : Fld.sub [.pfWalks_] l = false) : t.pfWalks = s.pfWalks := by
  exact h.same .pfWalks_ (by simpa [Fld.sub] using hf)
theorem Only.walkWait {l : List Fld} {s t : State} (h : Only l s t) (hf : Fld.sub [.walkWait_] l = false) : t.walkWait = s.walkWait := by
  exact h.same .walkWait_ (by simpa [Fld.sub] using hf)
theorem Only.fwNeed {l : List Fld} {s t : State} (h : Only l s t) (hf : Fld.sub [.fwNeed_] l = false) : t.fwNeed = s.fwNeed := by
  exact h.same .fwNeed_ (by simpa [Fld.sub] using hf)
theorem Only.fwGot {l : List Fld} {s t : State} (h : Only l s t) (hf : Fld.sub [.fwGot_] l = false) : t.fwGot = s.fwGot := by
  exact h.same .fwGot_ (by simpa [Fld.sub] using hf)
theorem Only.fwHeld {l : List Fld} {s t : State} (h : Only l s t) (hf : Fld.sub [.fwHeld_] l = false) : t.fwHeld = s.fwHeld := by
  exact h.same .fwHeld_ (by simpa [Fld.sub] using hf)
theorem Only.casts {l : List Fld} {s t : State} (h : Only l s t) (hf : Fld.sub [.casts_] l = false) : t.casts = s.casts := by
  exact h.same .casts_ (by simpa [Fld.sub] using hf)
theorem Only.serve {l : List Fld} {s t : State} (h : Only l s t) (hf : Fld.sub [.serve_] l = false) : t.serve = s.serve := by
  exact h.same .serve_ (by simpa [Fld.sub] using hf)
theorem Only.power {l : List Fld} {s t : State} (h : Only l s t) (hf : Fld.sub [.power_] l = false) : t.power = s.power := by
  exact h.same .power_ (by simpa [Fld.sub] using hf)
theorem Only.sec {l : List Fld} {s t : State} (h : Only l s t) (hf : Fld.sub [.sec_] l = false) : t.sec = s.sec := by
  exact h.same .sec_ (by simpa [Fld.sub] using hf)
theorem Only.fw {l : List Fld} {s t : State} (h : Only l s t) (hf : Fld.sub [.fw_] l = false) : t.fw = s.fw := by
  exact h.same .fw_ (by simpa [Fld.sub] using hf)
theorem Only.inc {l : List Fld} {s t : State} (h : Only l s t) (hf : Fld.sub [.inc_] l = false) : t.inc = s.inc := by
  exact h.same .inc_ (by simpa [Fld.sub] using hf)
theorem Only.twin {l : List Fld} {s t : State} (h : Only l s t) (hf : Fld.sub [.twin_] l = false) : t.twin = s.twin := by
  exact h.same .twin_ (by simpa [Fld.sub] using hf)
theorem Only.lost {l : List Fld} {s t : State} (h : Only l s t) (hf : Fld.sub [.lost_] l = false) : t.lost = s.lost := by
  exact h.same .lost_ (by simpa [Fld.sub] using hf)
theorem Only.cxlGone {l : List Fld} {s t : State} (h : Only l s t) (hf : Fld.sub [.cxlGone_] l = false) : t.cxlGone = s.cxlGone := by
  exact h.same .cxlGone_ (by simpa [Fld.sub] using hf)
theorem Only.pins {l : List Fld} {s t : State} (h : Only l s t) (hf : Fld.sub [.pins_] l = false) : t.pins = s.pins := by
  exact h.same .pins_ (by simpa [Fld.sub] using hf)
theorem Only.freeCtr {l : List Fld} {s t : State} (h : Only l s t) (hf : Fld.sub [.freeCtr_] l = false) : t.freeCtr = s.freeCtr := by
  exact h.same .freeCtr_ (by simpa [Fld.sub] using hf)
theorem Only.out {l : List Fld} {s t : State} (h : Only l s t) (hf : Fld.sub [.out_] l = false) : t.out = s.out := by
  exact h.same .out_ (by simpa [Fld.sub] using hf)
theorem Only.pending {l : List Fld} {s t : State} (h : Only l s t) (hf : Fld.sub [.pending_] l = false) : t.pending = s.pending := by
  exact h.same .pending_ (by simpa [Fld.sub] using hf)

end Sys2Proof.Machine
end

