-- ==== Sys2Proof/Laws/FrameOps.lean ====
section
/-! SUPPORT. Which fields of the state each operation of Sys2Proof/Machine/Ops.lean can change. -/

namespace Sys2Proof.Machine

set_option linter.all false
set_option Elab.async false

theorem State.setSrc_only {fl : List Fld} {sa s : State} {u : Nat} {v : IncSrc}
    (hk : Only fl sa s) (hsub : Fld.sub [.inc_] fl = true) : Only fl sa (State.setSrc s u v) := by
    refine Only.seq (l := [.inc_]) hk ?_ hsub
    clear hk hsub
    unfold State.setSrc
    repeat' first
      | with_reducible exact Only.refl _ _
      | (extract_lets +onlyGivenNames zz; try clear_value zz; revert zz; intros)
      | refine Only.upd ?_ rfl rfl

theorem State.setReg_only {fl : List Fld} {sa s : State} {off : Nat} {v : Nat}
    (hk : Only fl sa s) (hsub : Fld.sub [.regs_] fl = true) : Only fl sa (State.setReg s off v) := by
    refine Only.seq (l := [.regs_]) hk ?_ hsub
    clear hk hsub
    unfold State.setReg
    repeat' first
      | with_reducible exact Only.refl _ _
      | refine Only.upd ?_ rfl rfl

theorem State.orReg_only {fl : List Fld} {sa s : State} {off : Nat} {v : Nat}
    (hk : Only fl sa s) (hsub : Fld.sub [.regs_] fl = true) : Only fl sa (State.orReg s off v) := by
    refine Only.seq (l := [.regs_]) hk ?_ hsub
    clear hk hsub
    unfold State.orReg
    repeat' first
      | with_reducible exact Only.refl _ _
      | with_reducible apply State.setReg_only
      | refine Fld.yes rfl

theorem State.bump_only {fl : List Fld} {sa s : State} {off : Nat} {n : Nat}
    (hk : Only fl sa s) (hsub : Fld.sub [.ctrs_] fl = true) : Only fl sa (State.bump s off n) := by
    refine Only.seq (l := [.ctrs_]) hk ?_ hsub
    clear hk hsub
    unfold State.bump
    repeat' first
      | with_reducible exact Only.refl _ _
      | refine Only.upd ?_ rfl rfl

theorem State.dropReport_only {fl : List Fld} {sa s : State} {u : Nat}
    (hk : Only fl sa s) (hsub : Fld.sub [.regs_, .ctrs_, .inc_] fl = true) : Only fl sa (State.dropReport s u) := by
    refine Only.seq (l := [.regs_, .ctrs_, .inc_]) hk ?_ hsub
    clear hk hsub
    unfold State.dropReport
    repeat' first
      | with_reducible exact Only.refl _ _
      | with_reducible apply State.bump_only
      | with_reducible apply State.orReg_only
      | with_reducible apply State.setSrc_only
      | refine Fld.yes rfl
      | (extract_lets +onlyGivenNames zz; try clear_value zz; revert zz; intros)
      | split
      | refine Only.upd ?_ rfl rfl

theorem State.reportAt_only {fl : List Fld} {sa s : State} {scene : Sys2Proof.Word} {u : Nat} {code : Nat} {cls : Nat} {b : Option Nat} {a0 : Nat} {a1 : Nat} {a2 : Nat}
    (hk : Only fl sa s) (hsub : Fld.sub [.regs_, .ctrs_, .inc_] fl = true) : Only fl sa (State.reportAt s scene u code cls b a0 a1 a2) := by
    refine Only.seq (l := [.regs_, .ctrs_, .inc_]) hk ?_ hsub
    clear hk hsub
    unfold State.reportAt
    repeat' first
      | with_reducible exact Only.refl _ _
      | with_reducible apply State.dropReport_only
      | with_reducible apply State.setSrc_only
      | with_reducible apply Only.ite
      | refine Fld.yes rfl
      | (extract_lets +onlyGivenNames zz; try clear_value zz; revert zz; intros)
      | dsimp -zeta only
      | split

theorem State.setCtx_only {fl : List Fld} {sa s : State} {b : Nat} {v : Ctx}
    (hk : Only fl sa s) (hsub : Fld.sub [.ctxs_] fl = true) : Only fl sa (State.setCtx s b v) := by
    refine Only.seq (l := [.ctxs_]) hk ?_ hsub
    clear hk hsub
    unfold State.setCtx
    repeat' first
      | with_reducible exact Only.refl _ _
      | refine Only.upd ?_ rfl rfl

theorem State.updCtx_only {fl : List Fld} {sa s : State} {b : Nat} {f : Ctx → Ctx}
    (hk : Only fl sa s) (hsub : Fld.sub [.ctxs_] fl = true) : Only fl sa (State.updCtx s b f) := by
    refine Only.seq (l := [.ctxs_]) hk ?_ hsub
    clear hk hsub
    unfold State.updCtx
    repeat' first
      | with_reducible exact Only.refl _ _
      | with_reducible apply State.setCtx_only
      | refine Fld.yes rfl

theorem State.emit_only {fl : List Fld} {sa s : State} {o : Out}
    (hk : Only fl sa s) (hsub : Fld.sub [.out_] fl = true) : Only fl sa (State.emit s o) := by
    refine Only.seq (l := [.out_]) hk ?_ hsub
    clear hk hsub
    unfold State.emit
    repeat' first
      | with_reducible exact Only.refl _ _
      | refine Only.upd ?_ rfl rfl

theorem State.msix_only {fl : List Fld} {sa s : State} {fn : Nat} {v : Nat}
    (hk : Only fl sa s) (hsub : Fld.sub [.fns_, .out_] fl = true) : Only fl sa (State.msix s fn v) := by
    refine Only.seq (l := [.fns_, .out_]) hk ?_ hsub
    clear hk hsub
    unfold State.msix
    repeat' first
      | with_reducible exact Only.refl _ _
      | with_reducible apply State.emit_only
      | with_reducible apply Only.ite
      | refine Fld.yes rfl
      | (extract_lets +onlyGivenNames zz; try clear_value zz; revert zz; intros)
      | refine Only.upd ?_ rfl rfl

theorem State.guarEvent_only {fl : List Fld} {sa s : State} {b : Nat}
    (hk : Only fl sa s) (hsub : Fld.sub [.fns_, .out_] fl = true) : Only fl sa (State.guarEvent s b) := by
    refine Only.seq (l := [.fns_, .out_]) hk ?_ hsub
    clear hk hsub
    unfold State.guarEvent
    repeat' first
      | with_reducible exact Only.refl _ _
      | with_reducible apply State.msix_only
      | with_reducible apply Only.ite
      | refine Fld.yes rfl

theorem State.report_only {fl : List Fld} {sa s : State} {u : Nat} {code : Nat} {cls : Nat} {b : Option Nat} {a0 : Nat} {a1 : Nat} {a2 : Nat}
    (hk : Only fl sa s) (hsub : Fld.sub [.regs_, .ctrs_, .inc_] fl = true) : Only fl sa (State.report s u code cls b a0 a1 a2) := by
    refine Only.seq (l := [.regs_, .ctrs_, .inc_]) hk ?_ hsub
    clear hk hsub
    unfold State.report
    repeat' first
      | with_reducible exact Only.refl _ _
      | with_reducible apply State.reportAt_only
      | refine Fld.yes rfl

theorem State.reportVoid_only {fl : List Fld} {sa s : State} {b : Nat} {cause : Nat} {u : Nat} {r : StepRec}
    (hk : Only fl sa s) (hsub : Fld.sub [.regs_, .ctrs_, .inc_] fl = true) : Only fl sa (State.reportVoid s b cause u r) := by
    refine Only.seq (l := [.regs_, .ctrs_, .inc_]) hk ?_ hsub
    clear hk hsub
    unfold State.reportVoid
    repeat' first
      | with_reducible exact Only.refl _ _
      | with_reducible apply State.report_only
      | refine Fld.yes rfl

theorem State.voidWhere_only {fl : List Fld} {sa s : State} {b : Nat} {cause : Nat} {u : Nat} {p : StepRec → Bool}
    (hk : Only fl sa s) (hsub : Fld.sub [.regs_, .ctrs_, .ctxs_, .fns_, .inc_, .out_] fl = true) : Only fl sa (State.voidWhere s b cause u p) := by
    refine Only.seq (l := [.regs_, .ctrs_, .ctxs_, .fns_, .inc_, .out_]) hk ?_ hsub
    clear hk hsub
    unfold State.voidWhere
    repeat' first
      | with_reducible exact Only.refl _ _
      | with_reducible assumption
      | with_reducible apply State.reportVoid_only
      | with_reducible apply State.orReg_only
      | with_reducible apply State.guarEvent_only
      | with_reducible apply State.bump_only
      | with_reducible apply State.updCtx_only
      | with_reducible apply Only.ite
      | with_reducible apply Only.foldl
      | intro _ _ _
      | refine Fld.yes rfl

theorem State.voidSteps_only {fl : List Fld} {sa s : State} {b : Nat} {cause : Nat} {u : Nat}
    (hk : Only fl sa s) (hsub : Fld.sub [.regs_, .ctrs_, .ctxs_, .fns_, .inc_, .out_] fl = true) : Only fl sa (State.voidSteps s b cause u) := by
    refine Only.seq (l := [.regs_, .ctrs_, .ctxs_, .fns_, .inc_, .out_]) hk ?_ hsub
    clear hk hsub
    unfold State.voidSteps
    repeat' first
      | with_reducible exact Only.refl _ _
      | with_reducible apply State.voidWhere_only
      | refine Fld.yes rfl

theorem State.boltEvent_only {fl : List Fld} {sa s : State} {b : Nat}
    (hk : Only fl sa s) (hsub : Fld.sub [.fns_, .out_] fl = true) : Only fl sa (State.boltEvent s b) := by
    refine Only.seq (l := [.fns_, .out_]) hk ?_ hsub
    clear hk hsub
    unfold State.boltEvent
    repeat' first
      | with_reducible exact Only.refl _ _
      | with_reducible apply State.msix_only
      | with_reducible apply Only.ite
      | refine Fld.yes rfl

theorem State.abandonReqs_only {fl : List Fld} {sa s : State} {b : Nat}
    (hk : Only fl sa s) (hsub : Fld.sub [.reqs_, .loom_, .hostReads_, .fwGot_, .fwHeld_] fl = true) : Only fl sa (State.abandonReqs s b) := by
    refine Only.seq (l := [.reqs_, .loom_, .hostReads_, .fwGot_, .fwHeld_]) hk ?_ hsub
    clear hk hsub
    unfold State.abandonReqs
    repeat' first
      | with_reducible exact Only.refl _ _
      | (extract_lets +onlyGivenNames zz; try clear_value zz; revert zz; intros)
      | refine Only.upd ?_ rfl rfl

theorem State.setTile_only {fl : List Fld} {sa s : State} {t : Nat} {v : Tile}
    (hk : Only fl sa s) (hsub : Fld.sub [.tiles_] fl = true) : Only fl sa (State.setTile s t v) := by
    refine Only.seq (l := [.tiles_]) hk ?_ hsub
    clear hk hsub
    unfold State.setTile
    repeat' first
      | with_reducible exact Only.refl _ _
      | refine Only.upd ?_ rfl rfl

theorem State.updTile_only {fl : List Fld} {sa s : State} {t : Nat} {f : Tile → Tile}
    (hk : Only fl sa s) (hsub : Fld.sub [.tiles_] fl = true) : Only fl sa (State.updTile s t f) := by
    refine Only.seq (l := [.tiles_]) hk ?_ hsub
    clear hk hsub
    unfold State.updTile
    repeat' first
      | with_reducible exact Only.refl _ _
      | with_reducible apply State.setTile_only
      | refine Fld.yes rfl

theorem State.mapTiles_only {fl : List Fld} {sa s : State} {l : List Nat} {f : Tile → Tile}
    (hk : Only fl sa s) (hsub : Fld.sub [.tiles_] fl = true) : Only fl sa (State.mapTiles s l f) := by
    refine Only.seq (l := [.tiles_]) hk ?_ hsub
    clear hk hsub
    unfold State.mapTiles
    repeat' first
      | with_reducible exact Only.refl _ _
      | with_reducible assumption
      | with_reducible apply State.updTile_only
      | with_reducible apply Only.foldl
      | intro _ _ _
      | refine Fld.yes rfl

theorem State.disarmBolt_only {fl : List Fld} {sa s : State} {b : Nat}
    (hk : Only fl sa s) (hsub : Fld.sub [.cues_] fl = true) : Only fl sa (State.disarmBolt s b) := by
    refine Only.seq (l := [.cues_]) hk ?_ hsub
    clear hk hsub
    unfold State.disarmBolt
    repeat' first
      | with_reducible exact Only.refl _ _
      | refine Only.upd ?_ rfl rfl

theorem State.replyNow_only {fl : List Fld} {sa s : State} {ses : Nat} {ty : Nat} {st : Nat} {body : List Nat}
    (hk : Only fl sa s) (hsub : Fld.sub [.out_] fl = true) : Only fl sa (State.replyNow s ses ty st body) := by
    refine Only.seq (l := [.out_]) hk ?_ hsub
    clear hk hsub
    unfold State.replyNow
    repeat' first
      | with_reducible exact Only.refl _ _
      | with_reducible apply State.emit_only
      | refine Fld.yes rfl

theorem State.answerLine_only {fl : List Fld} {sa s : State} {ses : Nat} {y2 : List (Nat × Nat × Option (Nat × List Nat))}
    (hk : Only fl sa s) (hsub : Fld.sub [.out_] fl = true) : Only fl sa (State.answerLine s ses y2).1 := by
    refine Only.seq (l := [.out_]) hk ?_ hsub
    clear hk hsub
    fun_induction State.answerLine s ses y2
    all_goals
      repeat' first
        | with_reducible exact Only.refl _ _
        | with_reducible apply State.replyNow_only
        | with_reducible refine Only.seq (l := [.out_]) ?_ (by assumption) rfl
        | refine Fld.yes rfl

theorem State.setBoothSess_only {fl : List Fld} {sa s : State} {k : Nat} {v : Option BoothSess}
    (hk : Only fl sa s) (hsub : Fld.sub [.fw_] fl = true) : Only fl sa (State.setBoothSess s k v) := by
    refine Only.seq (l := [.fw_]) hk ?_ hsub
    clear hk hsub
    unfold State.setBoothSess
    repeat' first
      | with_reducible exact Only.refl _ _
      | (extract_lets +onlyGivenNames zz; try clear_value zz; revert zz; intros)
      | refine Only.upd ?_ rfl rfl

theorem State.advanceLine_only {fl : List Fld} {sa s : State} {ses : Nat} {x : BoothSess} {l : List (Nat × Nat × Option (Nat × List Nat))}
    (hk : Only fl sa s) (hsub : Fld.sub [.fw_, .out_] fl = true) : Only fl sa (State.advanceLine s ses x l) := by
    refine Only.seq (l := [.fw_, .out_]) hk ?_ hsub
    clear hk hsub
    unfold State.advanceLine
    repeat' first
      | with_reducible exact Only.refl _ _
      | with_reducible apply State.setBoothSess_only
      | with_reducible apply State.answerLine_only
      | refine Fld.yes rfl

theorem State.lateReply_only {fl : List Fld} {sa s : State} {ses : Nat} {ty : Nat} {key : Nat} {st : Nat} {body : List Nat}
    (hk : Only fl sa s) (hsub : Fld.sub [.fw_, .out_] fl = true) : Only fl sa (State.lateReply s ses ty key st body) := by
    refine Only.seq (l := [.fw_, .out_]) hk ?_ hsub
    clear hk hsub
    unfold State.lateReply
    repeat' first
      | with_reducible exact Only.refl _ _
      | with_reducible apply State.advanceLine_only
      | refine Fld.yes rfl
      | split

theorem State.pbRefuse_only {fl : List Fld} {sa s : State} {b : Nat}
    (hk : Only fl sa s) (hsub : Fld.sub [.regs_, .sec_, .fw_, .out_] fl = true) : Only fl sa (State.pbRefuse s b) := by
    refine Only.seq (l := [.regs_, .sec_, .fw_, .out_]) hk ?_ hsub
    clear hk hsub
    unfold State.pbRefuse
    repeat' first
      | with_reducible exact Only.refl _ _
      | with_reducible assumption
      | with_reducible apply State.setReg_only
      | with_reducible apply State.lateReply_only
      | with_reducible apply Only.ite
      | with_reducible apply Only.foldl
      | intro _ _ _
      | refine Fld.yes rfl
      | (extract_lets +onlyGivenNames zz; try clear_value zz; revert zz; intros)
      | refine Only.upd ?_ rfl rfl

theorem State.setCtxMode_only {fl : List Fld} {sa s : State} {b : Nat} {m : CtxMode}
    (hk : Only fl sa s) (hsub : Fld.sub [.regs_, .ctxs_, .fns_, .sec_, .fw_, .out_] fl = true) : Only fl sa (State.setCtxMode s b m) := by
    refine Only.seq (l := [.regs_, .ctxs_, .fns_, .sec_, .fw_, .out_]) hk ?_ hsub
    clear hk hsub
    unfold State.setCtxMode
    repeat' first
      | with_reducible exact Only.refl _ _
      | with_reducible apply State.pbRefuse_only
      | with_reducible apply State.updCtx_only
      | with_reducible apply State.boltEvent_only
      | with_reducible apply Only.ite
      | refine Fld.yes rfl

theorem State.boltStop_only {fl : List Fld} {sa s : State} {b : Nat} {code : Nat}
    (hk : Only fl sa s) (hsub : Fld.sub [.regs_, .tiles_, .cues_, .reqs_, .loom_, .ctxs_, .fns_, .hostReads_, .fwGot_, .fwHeld_, .sec_, .fw_, .out_] fl = true) : Only fl sa (State.boltStop s b code) := by
    refine Only.seq (l := [.regs_, .tiles_, .cues_, .reqs_, .loom_, .ctxs_, .fns_, .hostReads_, .fwGot_, .fwHeld_, .sec_, .fw_, .out_]) hk ?_ hsub
    clear hk hsub
    unfold State.boltStop
    repeat' first
      | with_reducible exact Only.refl _ _
      | with_reducible assumption
      | with_reducible apply State.setCtxMode_only
      | with_reducible apply State.updCtx_only
      | with_reducible apply State.disarmBolt_only
      | with_reducible apply State.mapTiles_only
      | with_reducible apply State.abandonReqs_only
      | refine Fld.yes rfl
      | (extract_lets +onlyGivenNames zz; refine Only.have_ (u := zz) ?_ (fun _ => ?_); rotate_left; try clear_value zz; revert zz; intros; rotate_right; dsimp -zeta only [zz]; clear zz)
      | split

theorem State.boltFail_only {fl : List Fld} {sa s : State} {b : Nat} {u : Nat} {cls : Nat} {code : Nat}
    (hk : Only fl sa s) (hsub : Fld.sub [.regs_, .ctrs_, .tiles_, .cues_, .reqs_, .loom_, .ctxs_, .fns_, .hostReads_, .fwGot_, .fwHeld_, .sec_, .fw_, .inc_, .out_] fl = true) : Only fl sa (State.boltFail s b u cls code) := by
    refine Only.seq (l := [.regs_, .ctrs_, .tiles_, .cues_, .reqs_, .loom_, .ctxs_, .fns_, .hostReads_, .fwGot_, .fwHeld_, .sec_, .fw_, .inc_, .out_]) hk ?_ hsub
    clear hk hsub
    unfold State.boltFail
    repeat' first
      | with_reducible exact Only.refl _ _
      | with_reducible apply State.boltStop_only
      | with_reducible apply State.boltEvent_only
      | with_reducible apply State.voidSteps_only
      | with_reducible apply Only.ite
      | refine Fld.yes rfl

theorem State.raiseAt_only {fl : List Fld} {sa s : State} {scene : Sys2Proof.Word} {u : Nat} {code : Nat} {cls : Nat} {b : Option Nat} {a0 : Nat} {a1 : Nat} {a2 : Nat}
    (hk : Only fl sa s) (hsub : Fld.sub [.regs_, .ctrs_, .tiles_, .cues_, .reqs_, .loom_, .ctxs_, .fns_, .hostReads_, .fwGot_, .fwHeld_, .sec_, .fw_, .inc_, .out_] fl = true) : Only fl sa (State.raiseAt s scene u code cls b a0 a1 a2) := by
    refine Only.seq (l := [.regs_, .ctrs_, .tiles_, .cues_, .reqs_, .loom_, .ctxs_, .fns_, .hostReads_, .fwGot_, .fwHeld_, .sec_, .fw_, .inc_, .out_]) hk ?_ hsub
    clear hk hsub
    unfold State.raiseAt
    repeat' first
      | with_reducible exact Only.refl _ _
      | with_reducible assumption
      | with_reducible apply State.boltFail_only
      | with_reducible apply State.reportAt_only
      | with_reducible apply Only.ite
      | refine Fld.yes rfl
      | (extract_lets +onlyGivenNames zz; refine Only.have_ (u := zz) ?_ (fun _ => ?_); rotate_left; try clear_value zz; revert zz; intros; rotate_right; dsimp -zeta only [zz]; clear zz)
      | split

theorem State.raise_only {fl : List Fld} {sa s : State} {u : Nat} {code : Nat} {cls : Nat} {b : Option Nat} {a0 : Nat} {a1 : Nat} {a2 : Nat}
    (hk : Only fl sa s) (hsub : Fld.sub [.regs_, .ctrs_, .tiles_, .cues_, .reqs_, .loom_, .ctxs_, .fns_, .hostReads_, .fwGot_, .fwHeld_, .sec_, .fw_, .inc_, .out_] fl = true) : Only fl sa (State.raise s u code cls b a0 a1 a2) := by
    refine Only.seq (l := [.regs_, .ctrs_, .tiles_, .cues_, .reqs_, .loom_, .ctxs_, .fns_, .hostReads_, .fwGot_, .fwHeld_, .sec_, .fw_, .inc_, .out_]) hk ?_ hsub
    clear hk hsub
    unfold State.raise
    repeat' first
      | with_reducible exact Only.refl _ _
      | with_reducible apply State.raiseAt_only
      | refine Fld.yes rfl

theorem State.setReg64_only {fl : List Fld} {sa s : State} {off : Nat} {v : Nat}
    (hk : Only fl sa s) (hsub : Fld.sub [.regs_] fl = true) : Only fl sa (State.setReg64 s off v) := by
    refine Only.seq (l := [.regs_]) hk ?_ hsub
    clear hk hsub
    unfold State.setReg64
    repeat' first
      | with_reducible exact Only.refl _ _
      | with_reducible apply State.setReg_only
      | refine Fld.yes rfl

theorem State.draw_only {fl : List Fld} {sa s : State} 
    (hk : Only fl sa s) (hsub : Fld.sub [.freeCtr_] fl = true) : Only fl sa (State.draw s).1 := by
    refine Only.seq (l := [.freeCtr_]) hk ?_ hsub
    clear hk hsub
    unfold State.draw
    repeat' first
      | with_reducible exact Only.refl _ _
      | dsimp -zeta only
      | refine Only.upd ?_ rfl rfl

theorem State.hostWrite_only {fl : List Fld} {sa s : State} {b : Nat} {addr : Nat} {data : List Sys2Proof.Byte}
    (hk : Only fl sa s) (hsub : Fld.sub [.out_] fl = true) : Only fl sa (State.hostWrite s b addr data) := by
    refine Only.seq (l := [.out_]) hk ?_ hsub
    clear hk hsub
    unfold State.hostWrite
    repeat' first
      | with_reducible exact Only.refl _ _
      | with_reducible apply State.emit_only
      | with_reducible apply Only.ite
      | refine Fld.yes rfl

theorem State.redTimers_only {fl : List Fld} {sa s : State} {b : Nat}
    (hk : Only fl sa s) (hsub : Fld.sub [.redClk_] fl = true) : Only fl sa (State.redTimers s b) := by
    refine Only.seq (l := [.redClk_]) hk ?_ hsub
    clear hk hsub
    unfold State.redTimers
    repeat' first
      | with_reducible exact Only.refl _ _
      | (extract_lets +onlyGivenNames zz; try clear_value zz; revert zz; intros)
      | split
      | refine Only.upd ?_ rfl rfl

theorem State.clrReg_only {fl : List Fld} {sa s : State} {off : Nat} {v : Nat}
    (hk : Only fl sa s) (hsub : Fld.sub [.regs_] fl = true) : Only fl sa (State.clrReg s off v) := by
    refine Only.seq (l := [.regs_]) hk ?_ hsub
    clear hk hsub
    unfold State.clrReg
    repeat' first
      | with_reducible exact Only.refl _ _
      | with_reducible apply State.setReg_only
      | refine Fld.yes rfl

theorem State.setErr_only {fl : List Fld} {sa s : State} {fn : Sys2Proof.Fn} {k : Nat}
    (hk : Only fl sa s) (hsub : Fld.sub [.regs_, .vfErr_] fl = true) : Only fl sa (State.setErr s fn k) := by
    refine Only.seq (l := [.regs_, .vfErr_]) hk ?_ hsub
    clear hk hsub
    unfold State.setErr
    repeat' first
      | with_reducible exact Only.refl _ _
      | with_reducible apply State.orReg_only
      | with_reducible apply Only.ite
      | refine Fld.yes rfl
      | (extract_lets +onlyGivenNames zz; try clear_value zz; revert zz; intros)
      | refine Only.upd ?_ rfl rfl

theorem State.deferReply_only {fl : List Fld} {sa s : State} {ses : Nat} {ty : Nat} {key : Nat}
    (hk : Only fl sa s) (hsub : Fld.sub [.fw_] fl = true) : Only fl sa (State.deferReply s ses ty key) := by
    refine Only.seq (l := [.fw_]) hk ?_ hsub
    clear hk hsub
    unfold State.deferReply
    repeat' first
      | with_reducible exact Only.refl _ _
      | with_reducible apply State.setBoothSess_only
      | refine Fld.yes rfl
      | split

theorem State.reply_only {fl : List Fld} {sa s : State} {ses : Nat} {ty : Nat} {st : Nat} {body : List Nat}
    (hk : Only fl sa s) (hsub : Fld.sub [.fw_, .out_] fl = true) : Only fl sa (State.reply s ses ty st body) := by
    refine Only.seq (l := [.fw_, .out_]) hk ?_ hsub
    clear hk hsub
    unfold State.reply
    repeat' first
      | with_reducible exact Only.refl _ _
      | with_reducible apply State.setBoothSess_only
      | with_reducible apply State.replyNow_only
      | with_reducible apply Only.ite
      | refine Fld.yes rfl
      | split

end Sys2Proof.Machine
end

