-- ==== Sys2Proof/Laws/FrameSeal.lean ====
section
/-! SUPPORT. Which fields of the state each operation of Sys2Proof/Machine/Seal.lean can change. -/

namespace Sys2Proof.Machine

set_option linter.all false
set_option Elab.async false

theorem State.newKey_only {fl : List Fld} {sa s : State} 
    (hk : Only fl sa s) (hsub : Fld.sub [.sec_] fl = true) : Only fl sa (State.newKey s).1 := by
    refine Only.seq (l := [.sec_]) hk ?_ hsub
    clear hk hsub
    unfold State.newKey
    repeat' first
      | with_reducible exact Only.refl _ _
      | (extract_lets +onlyGivenNames zz; try clear_value zz; revert zz; intros)
      | dsimp -zeta only
      | refine Only.upd ?_ rfl rfl

theorem State.setRegRun_only {fl : List Fld} {sa s : State} {i : Nat} {v : RegRun}
    (hk : Only fl sa s) (hsub : Fld.sub [.sec_] fl = true) : Only fl sa (State.setRegRun s i v) := by
    refine Only.seq (l := [.sec_]) hk ?_ hsub
    clear hk hsub
    unfold State.setRegRun
    repeat' first
      | with_reducible exact Only.refl _ _
      | (extract_lets +onlyGivenNames zz; try clear_value zz; revert zz; intros)
      | refine Only.upd ?_ rfl rfl

theorem State.beginRekey_only {fl : List Fld} {sa s : State} {i : Nat} {b : Nat}
    (hk : Only fl sa s) (hsub : Fld.sub [.regs_, .ctrs_, .tiles_, .cues_, .reqs_, .loom_, .ctxs_, .fns_, .hostReads_, .fwGot_, .fwHeld_, .sec_, .fw_, .inc_, .out_] fl = true) : Only fl sa (State.beginRekey s i b) := by
    refine Only.seq (l := [.regs_, .ctrs_, .tiles_, .cues_, .reqs_, .loom_, .ctxs_, .fns_, .hostReads_, .fwGot_, .fwHeld_, .sec_, .fw_, .inc_, .out_]) hk ?_ hsub
    clear hk hsub
    unfold State.beginRekey
    repeat' first
      | with_reducible exact Only.refl _ _
      | with_reducible apply State.raise_only
      | with_reducible apply State.setRegRun_only
      | with_reducible apply State.newKey_only
      | refine Fld.yes rfl

theorem State.setMeta_only {fl : List Fld} {sa s : State} {stop : Nat} {l : List MetaLine}
    (hk : Only fl sa s) (hsub : Fld.sub [.metaCache_] fl = true) : Only fl sa (State.setMeta s stop l) := by
    refine Only.seq (l := [.metaCache_]) hk ?_ hsub
    clear hk hsub
    unfold State.setMeta
    repeat' first
      | with_reducible exact Only.refl _ _
      | refine Only.upd ?_ rfl rfl

theorem State.metaUse_only {fl : List Fld} {sa s : State} {stop : Nat} {q : RegRun} {k : MetaKey} {f : MetaLine → MetaLine}
    (hk : Only fl sa s) (hsub : Fld.sub [.metaCache_] fl = true) : Only fl sa (State.metaUse s stop q k f) := by
    refine Only.seq (l := [.metaCache_]) hk ?_ hsub
    clear hk hsub
    unfold State.metaUse
    repeat' first
      | with_reducible exact Only.refl _ _
      | with_reducible apply State.setMeta_only
      | refine Fld.yes rfl
      | (extract_lets +onlyGivenNames zz; try clear_value zz; revert zz; intros)
      | split

theorem State.metaFetch_only {fl : List Fld} {sa s : State} {q : RegRun} {m : BlockMeta}
    (hk : Only fl sa s) (hsub : Fld.sub [.metaCache_] fl = true) : Only fl sa (State.metaFetch s q m) := by
    refine Only.seq (l := [.metaCache_]) hk ?_ hsub
    clear hk hsub
    unfold State.metaFetch
    repeat' first
      | with_reducible exact Only.refl _ _
      | with_reducible assumption
      | with_reducible apply State.metaUse_only
      | with_reducible apply Only.foldl
      | intro _ _ _
      | refine Fld.yes rfl

theorem State.writeBack_only {fl : List Fld} {sa s : State} {stop : Nat} {i : Nat} {top : Nat} {l : MetaLine}
    (hk : Only fl sa s) (hsub : Fld.sub [.metaCache_, .sideArea_, .sec_] fl = true) : Only fl sa (State.writeBack s stop i top l) := by
    refine Only.seq (l := [.metaCache_, .sideArea_, .sec_]) hk ?_ hsub
    clear hk hsub
    unfold State.writeBack
    repeat' first
      | with_reducible exact Only.refl _ _
      | with_reducible assumption
      | with_reducible apply State.metaUse_only
      | with_reducible apply State.setRegRun_only
      | with_reducible apply Only.ite
      | refine Fld.yes rfl
      | (extract_lets +onlyGivenNames zz; refine Only.have_ (u := zz) ?_ (fun _ => ?_); rotate_left; try clear_value zz; revert zz; intros; rotate_right; dsimp -zeta only [zz]; clear zz)
      | (extract_lets +onlyGivenNames zz; try clear_value zz; revert zz; intros)
      | split
      | refine Only.upd ?_ rfl rfl

theorem State.metaTrim_only {fl : List Fld} {sa s : State} {stop : Nat} {y2 : Nat}
    (hk : Only fl sa s) (hsub : Fld.sub [.metaCache_, .sideArea_, .sec_] fl = true) : Only fl sa (State.metaTrim s stop y2) := by
    refine Only.seq (l := [.metaCache_, .sideArea_, .sec_]) hk ?_ hsub
    clear hk hsub
    fun_induction State.metaTrim s stop y2
    all_goals
      repeat' first
        | with_reducible exact Only.refl _ _
        | with_reducible apply State.writeBack_only
        | with_reducible apply State.setMeta_only
        | with_reducible refine Only.seq (l := [.metaCache_, .sideArea_, .sec_]) ?_ (by assumption) rfl
        | refine Fld.yes rfl
        | (extract_lets +onlyGivenNames zz; try clear_value zz; revert zz; intros)
        | split
        | refine Only.upd ?_ rfl rfl

theorem State.sealGroup_only {fl : List Fld} {sa s : State} {i : Nat} {r : Region} {sp : Nat} {off : Nat}
    (hk : Only fl sa s) (hsub : Fld.sub [.metaCache_, .sideArea_, .sec_] fl = true) : Only fl sa (State.sealGroup s i r sp off) := by
    refine Only.seq (l := [.metaCache_, .sideArea_, .sec_]) hk ?_ hsub
    clear hk hsub
    unfold State.sealGroup
    repeat' first
      | with_reducible exact Only.refl _ _
      | with_reducible apply State.setMeta_only
      | with_reducible apply State.metaTrim_only
      | with_reducible apply State.metaUse_only
      | with_reducible apply State.metaFetch_only
      | refine Fld.yes rfl

theorem State.sealGroups_only {fl : List Fld} {sa s : State} {i : Nat} {r : Region} {sp : Nat} {off : Nat} {y5 : Nat}
    (hk : Only fl sa s) (hsub : Fld.sub [.metaCache_, .sideArea_, .sec_] fl = true) : Only fl sa (State.sealGroups s i r sp off y5) := by
    refine Only.seq (l := [.metaCache_, .sideArea_, .sec_]) hk ?_ hsub
    clear hk hsub
    fun_induction State.sealGroups s i r sp off y5
    all_goals
      repeat' first
        | with_reducible exact Only.refl _ _
        | with_reducible apply State.sealGroup_only
        | with_reducible refine Only.seq (l := [.metaCache_, .sideArea_, .sec_]) ?_ (by assumption) rfl
        | refine Fld.yes rfl

theorem State.sealWrite_only {fl : List Fld} {sa s : State} {sp : Nat} {off : Nat} {len : Nat}
    (hk : Only fl sa s) (hsub : Fld.sub [.regs_, .ctrs_, .tiles_, .metaCache_, .sideArea_, .cues_, .reqs_, .loom_, .ctxs_, .fns_, .hostReads_, .fwGot_, .fwHeld_, .sec_, .fw_, .inc_, .out_] fl = true) : Only fl sa (State.sealWrite s sp off len) := by
    refine Only.seq (l := [.regs_, .ctrs_, .tiles_, .metaCache_, .sideArea_, .cues_, .reqs_, .loom_, .ctxs_, .fns_, .hostReads_, .fwGot_, .fwHeld_, .sec_, .fw_, .inc_, .out_]) hk ?_ hsub
    clear hk hsub
    unfold State.sealWrite
    repeat' first
      | with_reducible exact Only.refl _ _
      | with_reducible apply State.setRegRun_only
      | with_reducible apply State.sealGroups_only
      | with_reducible apply State.beginRekey_only
      | with_reducible apply Only.ite
      | refine Fld.yes rfl
      | (extract_lets +onlyGivenNames zz; try clear_value zz; revert zz; intros)
      | split

theorem State.readBlock_only {fl : List Fld} {sa s : State} {sp : Nat} {off : Nat}
    (hk : Only fl sa s) (hsub : Fld.sub [.metaCache_, .sideArea_, .sec_] fl = true) : Only fl sa (State.readBlock s sp off) := by
    refine Only.seq (l := [.metaCache_, .sideArea_, .sec_]) hk ?_ hsub
    clear hk hsub
    unfold State.readBlock
    repeat' first
      | with_reducible exact Only.refl _ _
      | with_reducible apply State.metaFetch_only
      | with_reducible apply State.metaTrim_only
      | with_reducible apply Only.ite
      | refine Fld.yes rfl
      | split

theorem State.readBlocks_only {fl : List Fld} {sa s : State} {sp : Nat} {off : Nat} {y3 : Nat}
    (hk : Only fl sa s) (hsub : Fld.sub [.metaCache_, .sideArea_, .sec_] fl = true) : Only fl sa (State.readBlocks s sp off y3) := by
    refine Only.seq (l := [.metaCache_, .sideArea_, .sec_]) hk ?_ hsub
    clear hk hsub
    fun_induction State.readBlocks s sp off y3
    all_goals
      repeat' first
        | with_reducible exact Only.refl _ _
        | with_reducible apply State.readBlock_only
        | with_reducible refine Only.seq (l := [.metaCache_, .sideArea_, .sec_]) ?_ (by assumption) rfl
        | refine Fld.yes rfl

theorem State.readMeta_only {fl : List Fld} {sa s : State} {sp : Nat} {off : Nat} {len : Nat}
    (hk : Only fl sa s) (hsub : Fld.sub [.metaCache_, .sideArea_, .sec_] fl = true) : Only fl sa (State.readMeta s sp off len) := by
    refine Only.seq (l := [.metaCache_, .sideArea_, .sec_]) hk ?_ hsub
    clear hk hsub
    unfold State.readMeta
    repeat' first
      | with_reducible exact Only.refl _ _
      | with_reducible apply State.readBlocks_only
      | with_reducible apply Only.ite
      | refine Fld.yes rfl

theorem State.dropMeta_only {fl : List Fld} {sa s : State} {base : Nat}
    (hk : Only fl sa s) (hsub : Fld.sub [.metaCache_, .sideArea_] fl = true) : Only fl sa (State.dropMeta s base) := by
    refine Only.seq (l := [.metaCache_, .sideArea_]) hk ?_ hsub
    clear hk hsub
    unfold State.dropMeta
    repeat' first
      | with_reducible exact Only.refl _ _
      | refine Only.upd ?_ rfl rfl

end Sys2Proof.Machine
end

