-- ==== Sys2Proof/Laws/FrameFabric.lean ====
section
/-! SUPPORT. Which fields of the state each operation of Sys2Proof/Machine/Fabric.lean can change. -/

namespace Sys2Proof.Machine

set_option linter.all false
set_option Elab.async false

theorem State.ueClear_only {fl : List Fld} {sa s : State} {lo : Nat} {hi : Nat}
    (hk : Only fl sa s) (hsub : Fld.sub [.hbmUe_] fl = true) : Only fl sa (State.ueClear s lo hi) := by
    refine Only.seq (l := [.hbmUe_]) hk ?_ hsub
    clear hk hsub
    unfold State.ueClear
    repeat' first
      | with_reducible exact Only.refl _ _
      | refine Only.upd ?_ rfl rfl

theorem State.initGroup_only {fl : List Fld} {sa s : State} {sp : Nat} {off : Nat}
    (hk : Only fl sa s) (hsub : Fld.sub [.hbm_, .cxl_, .hbmUe_] fl = true) : Only fl sa (State.initGroup s sp off) := by
    refine Only.seq (l := [.hbm_, .cxl_, .hbmUe_]) hk ?_ hsub
    clear hk hsub
    unfold State.initGroup
    repeat' first
      | with_reducible exact Only.refl _ _
      | with_reducible apply State.ueClear_only
      | with_reducible apply Only.ite
      | refine Fld.yes rfl
      | (extract_lets +onlyGivenNames zz; try clear_value zz; revert zz; intros)
      | split
      | refine Only.upd ?_ rfl rfl

theorem State.initGroups_only {fl : List Fld} {sa s : State} {sp : Nat} {off : Nat} {y3 : Nat}
    (hk : Only fl sa s) (hsub : Fld.sub [.hbm_, .cxl_, .hbmUe_] fl = true) : Only fl sa (State.initGroups s sp off y3) := by
    refine Only.seq (l := [.hbm_, .cxl_, .hbmUe_]) hk ?_ hsub
    clear hk hsub
    fun_induction State.initGroups s sp off y3
    all_goals
      repeat' first
        | with_reducible exact Only.refl _ _
        | with_reducible apply State.initGroup_only
        | with_reducible refine Only.seq (l := [.hbm_, .cxl_, .hbmUe_]) ?_ (by assumption) rfl
        | refine Fld.yes rfl

theorem State.pokeRaw_only {fl : List Fld} {sa s : State} {sp : Nat} {off : Nat} {data : List Sys2Proof.Byte}
    (hk : Only fl sa s) (hsub : Fld.sub [.tiles_, .hbm_, .cxl_, .hbmUe_] fl = true) : Only fl sa (State.pokeRaw s sp off data) := by
    refine Only.seq (l := [.tiles_, .hbm_, .cxl_, .hbmUe_]) hk ?_ hsub
    clear hk hsub
    unfold State.pokeRaw
    repeat' first
      | with_reducible exact Only.refl _ _
      | with_reducible apply State.updTile_only
      | with_reducible apply State.ueClear_only
      | refine Fld.yes rfl
      | (extract_lets +onlyGivenNames zz; try clear_value zz; revert zz; intros)
      | split
      | refine Only.upd ?_ rfl rfl

theorem State.newTag_only {fl : List Fld} {sa s : State} 
    (hk : Only fl sa s) (hsub : Fld.sub [.nextTag_] fl = true) : Only fl sa (State.newTag s).1 := by
    refine Only.seq (l := [.nextTag_]) hk ?_ hsub
    clear hk hsub
    unfold State.newTag
    repeat' first
      | with_reducible exact Only.refl _ _
      | dsimp -zeta only
      | refine Only.upd ?_ rfl rfl

theorem State.emitMirror_only {fl : List Fld} {sa s : State} {w : MirWrite}
    (hk : Only fl sa s) (hsub : Fld.sub [.reqs_, .nextTag_, .out_] fl = true) : Only fl sa (State.emitMirror s w) := by
    refine Only.seq (l := [.reqs_, .nextTag_, .out_]) hk ?_ hsub
    clear hk hsub
    unfold State.emitMirror
    repeat' first
      | with_reducible exact Only.refl _ _
      | with_reducible assumption
      | with_reducible apply State.emit_only
      | with_reducible apply State.newTag_only
      | refine Fld.yes rfl
      | (extract_lets +onlyGivenNames zz; refine Only.have_ (u := zz) ?_ (fun _ => ?_); rotate_left; try clear_value zz; revert zz; intros; rotate_right; dsimp -zeta only [zz]; clear zz)
      | refine Only.upd ?_ rfl rfl

theorem State.pushMirror_only {fl : List Fld} {sa s : State} {b : Nat} {sp : Nat} {off : Nat} {data : List Sys2Proof.Byte}
    (hk : Only fl sa s) (hsub : Fld.sub [.reqs_, .nextTag_, .twin_, .out_] fl = true) : Only fl sa (State.pushMirror s b sp off data) := by
    refine Only.seq (l := [.reqs_, .nextTag_, .twin_, .out_]) hk ?_ hsub
    clear hk hsub
    unfold State.pushMirror
    repeat' first
      | with_reducible exact Only.refl _ _
      | with_reducible apply State.emitMirror_only
      | with_reducible apply Only.ite
      | refine Fld.yes rfl
      | (extract_lets +onlyGivenNames zz; try clear_value zz; revert zz; intros)
      | dsimp -zeta only
      | refine Only.upd ?_ rfl rfl

theorem State.mirrorPages_only {fl : List Fld} {sa s : State} {b : Nat} {sp : Nat} {off : Nat} {data : List Sys2Proof.Byte} {y5 : Nat}
    (hk : Only fl sa s) (hsub : Fld.sub [.reqs_, .nextTag_, .twin_, .out_] fl = true) : Only fl sa (State.mirrorPages s b sp off data y5) := by
    refine Only.seq (l := [.reqs_, .nextTag_, .twin_, .out_]) hk ?_ hsub
    clear hk hsub
    fun_induction State.mirrorPages s b sp off data y5
    all_goals
      repeat' first
        | with_reducible exact Only.refl _ _
        | with_reducible apply State.pushMirror_only
        | with_reducible refine Only.seq (l := [.reqs_, .nextTag_, .twin_, .out_]) ?_ (by assumption) rfl
        | refine Fld.yes rfl

theorem State.sendMirror_only {fl : List Fld} {sa s : State} {sp : Nat} {off : Nat} {data : List Sys2Proof.Byte}
    (hk : Only fl sa s) (hsub : Fld.sub [.reqs_, .nextTag_, .twin_, .out_] fl = true) : Only fl sa (State.sendMirror s sp off data) := by
    refine Only.seq (l := [.reqs_, .nextTag_, .twin_, .out_]) hk ?_ hsub
    clear hk hsub
    unfold State.sendMirror
    repeat' first
      | with_reducible exact Only.refl _ _
      | with_reducible apply State.mirrorPages_only
      | refine Fld.yes rfl
      | split

theorem State.poke_only {fl : List Fld} {sa s : State} {sp : Nat} {off : Nat} {data : List Sys2Proof.Byte}
    (hk : Only fl sa s) (hsub : Fld.sub [.regs_, .ctrs_, .tiles_, .hbm_, .cxl_, .hbmUe_, .metaCache_, .sideArea_, .cues_, .reqs_, .nextTag_, .loom_, .ctxs_, .fns_, .hostReads_, .fwGot_, .fwHeld_, .sec_, .fw_, .inc_, .twin_, .out_] fl = true) : Only fl sa (State.poke s sp off data) := by
    refine Only.seq (l := [.regs_, .ctrs_, .tiles_, .hbm_, .cxl_, .hbmUe_, .metaCache_, .sideArea_, .cues_, .reqs_, .nextTag_, .loom_, .ctxs_, .fns_, .hostReads_, .fwGot_, .fwHeld_, .sec_, .fw_, .inc_, .twin_, .out_]) hk ?_ hsub
    clear hk hsub
    unfold State.poke
    repeat' first
      | with_reducible exact Only.refl _ _
      | with_reducible apply State.sendMirror_only
      | with_reducible apply State.sealWrite_only
      | with_reducible apply State.pokeRaw_only
      | with_reducible apply State.initGroups_only
      | with_reducible apply Only.ite
      | refine Fld.yes rfl

theorem State.ueMark_only {fl : List Fld} {sa s : State} {off : Nat}
    (hk : Only fl sa s) (hsub : Fld.sub [.hbmUe_] fl = true) : Only fl sa (State.ueMark s off) := by
    refine Only.seq (l := [.hbmUe_]) hk ?_ hsub
    clear hk hsub
    unfold State.ueMark
    repeat' first
      | with_reducible exact Only.refl _ _
      | refine Only.upd ?_ rfl rfl

end Sys2Proof.Machine
end

