-- ==== Sys2Proof/Laws/FrameAccess.lean ====
section
/-! SUPPORT. Which fields of the state each operation of Sys2Proof/Machine/Access.lean can change. -/

namespace Sys2Proof.Machine

set_option linter.all false
set_option Elab.async false

theorem State.raiseUe_only {fl : List Fld} {sa s : State} {b : Nat} {fa : Nat} {site : Nat} {tag : Nat}
    (hk : Only fl sa s) (hsub : Fld.sub [.regs_, .ctrs_, .tiles_, .cues_, .reqs_, .loom_, .ctxs_, .fns_, .hostReads_, .fwGot_, .fwHeld_, .sec_, .fw_, .inc_, .out_] fl = true) : Only fl sa (State.raiseUe s b fa site tag) := by
    refine Only.seq (l := [.regs_, .ctrs_, .tiles_, .cues_, .reqs_, .loom_, .ctxs_, .fns_, .hostReads_, .fwGot_, .fwHeld_, .sec_, .fw_, .inc_, .out_]) hk ?_ hsub
    clear hk hsub
    unfold State.raiseUe
    repeat' first
      | with_reducible exact Only.refl _ _
      | with_reducible apply State.raise_only
      | with_reducible apply Only.ite
      | refine Fld.yes rfl

theorem State.flightAdd_only {fl : List Fld} {sa s : State} {scene : Sys2Proof.Word} {b : Nat} {n : Nat}
    (hk : Only fl sa s) (hsub : Fld.sub [.loom_] fl = true) : Only fl sa (State.flightAdd s scene b n) := by
    refine Only.seq (l := [.loom_]) hk ?_ hsub
    clear hk hsub
    unfold State.flightAdd
    repeat' first
      | with_reducible exact Only.refl _ _
      | (extract_lets +onlyGivenNames zz; try clear_value zz; revert zz; intros)
      | refine Only.upd ?_ rfl rfl

theorem State.flightSub_only {fl : List Fld} {sa s : State} {scene : Sys2Proof.Word} {b : Nat} {n : Nat}
    (hk : Only fl sa s) (hsub : Fld.sub [.loom_] fl = true) : Only fl sa (State.flightSub s scene b n) := by
    refine Only.seq (l := [.loom_]) hk ?_ hsub
    clear hk hsub
    unfold State.flightSub
    repeat' first
      | with_reducible exact Only.refl _ _
      | (extract_lets +onlyGivenNames zz; try clear_value zz; revert zz; intros)
      | refine Only.upd ?_ rfl rfl

end Sys2Proof.Machine
end

