-- ==== Sys2Proof/Laws/FrameHostOps.lean ====
section
/-! SUPPORT. Which fields of the state each operation of Sys2Proof/Machine/HostOps.lean can change. -/

namespace Sys2Proof.Machine

set_option linter.all false
set_option Elab.async false

theorem State.setQueue_only {fl : List Fld} {sa s : State} {q : Nat} {v : QueueSt}
    (hk : Only fl sa s) (hsub : Fld.sub [.queues_] fl = true) : Only fl sa (State.setQueue s q v) := by
    refine Only.seq (l := [.queues_]) hk ?_ hsub
    clear hk hsub
    unfold State.setQueue
    repeat' first
      | with_reducible exact Only.refl _ _
      | refine Only.upd ?_ rfl rfl

theorem State.ringWrite_only {fl : List Fld} {sa s : State} {q : Nat} {index : Nat} {off : Nat} {data : List Sys2Proof.Byte}
    (hk : Only fl sa s) (hsub : Fld.sub [.regs_, .ctrs_, .tiles_, .hbm_, .cxl_, .hbmUe_, .metaCache_, .sideArea_, .cues_, .reqs_, .nextTag_, .loom_, .ctxs_, .fns_, .hostReads_, .fwGot_, .fwHeld_, .sec_, .fw_, .inc_, .twin_, .out_] fl = true) : Only fl sa (State.ringWrite s q index off data) := by
    refine Only.seq (l := [.regs_, .ctrs_, .tiles_, .hbm_, .cxl_, .hbmUe_, .metaCache_, .sideArea_, .cues_, .reqs_, .nextTag_, .loom_, .ctxs_, .fns_, .hostReads_, .fwGot_, .fwHeld_, .sec_, .fw_, .inc_, .twin_, .out_]) hk ?_ hsub
    clear hk hsub
    unfold State.ringWrite
    repeat' first
      | with_reducible exact Only.refl _ _
      | with_reducible apply State.poke_only
      | with_reducible apply State.hostWrite_only
      | with_reducible apply Only.ite
      | refine Fld.yes rfl

theorem State.writeCompletion_only {fl : List Fld} {sa s : State} {q : Nat} {index : Nat} {c : Completion}
    (hk : Only fl sa s) (hsub : Fld.sub [.regs_, .ctrs_, .tiles_, .hbm_, .cxl_, .hbmUe_, .metaCache_, .sideArea_, .cues_, .reqs_, .nextTag_, .loom_, .ctxs_, .fns_, .hostReads_, .fwGot_, .fwHeld_, .sec_, .fw_, .inc_, .twin_, .out_] fl = true) : Only fl sa (State.writeCompletion s q index c) := by
    refine Only.seq (l := [.regs_, .ctrs_, .tiles_, .hbm_, .cxl_, .hbmUe_, .metaCache_, .sideArea_, .cues_, .reqs_, .nextTag_, .loom_, .ctxs_, .fns_, .hostReads_, .fwGot_, .fwHeld_, .sec_, .fw_, .inc_, .twin_, .out_]) hk ?_ hsub
    clear hk hsub
    unfold State.writeCompletion
    repeat' first
      | with_reducible exact Only.refl _ _
      | with_reducible apply State.ringWrite_only
      | refine Fld.yes rfl

theorem State.removeStep_only {fl : List Fld} {sa s : State} {b : Nat} {sq : Nat}
    (hk : Only fl sa s) (hsub : Fld.sub [.ctxs_] fl = true) : Only fl sa (State.removeStep s b sq) := by
    refine Only.seq (l := [.ctxs_]) hk ?_ hsub
    clear hk hsub
    unfold State.removeStep
    repeat' first
      | with_reducible exact Only.refl _ _
      | with_reducible apply State.updCtx_only
      | refine Fld.yes rfl

theorem State.setObj_only {fl : List Fld} {sa s : State} {i : Nat} {v : ObjSt}
    (hk : Only fl sa s) (hsub : Fld.sub [.objs_] fl = true) : Only fl sa (State.setObj s i v) := by
    refine Only.seq (l := [.objs_]) hk ?_ hsub
    clear hk hsub
    unfold State.setObj
    repeat' first
      | with_reducible exact Only.refl _ _
      | refine Only.upd ?_ rfl rfl

theorem State.freeObj_only {fl : List Fld} {sa s : State} {i : Nat}
    (hk : Only fl sa s) (hsub : Fld.sub [.regs_, .objs_, .freed_, .fns_, .out_] fl = true) : Only fl sa (State.freeObj s i) := by
    refine Only.seq (l := [.regs_, .objs_, .freed_, .fns_, .out_]) hk ?_ hsub
    clear hk hsub
    unfold State.freeObj
    repeat' first
      | with_reducible exact Only.refl _ _
      | with_reducible apply State.boltEvent_only
      | with_reducible apply State.orReg_only
      | with_reducible apply State.setObj_only
      | with_reducible apply Only.ite
      | refine Fld.yes rfl
      | (extract_lets +onlyGivenNames zz; try clear_value zz; revert zz; intros)
      | refine Only.upd ?_ rfl rfl

theorem State.setCounts_only {fl : List Fld} {sa s : State} {i : Nat} {host : Nat} {dev : Nat}
    (hk : Only fl sa s) (hsub : Fld.sub [.regs_, .objs_, .freed_, .fns_, .out_] fl = true) : Only fl sa (State.setCounts s i host dev) := by
    refine Only.seq (l := [.regs_, .objs_, .freed_, .fns_, .out_]) hk ?_ hsub
    clear hk hsub
    unfold State.setCounts
    repeat' first
      | with_reducible exact Only.refl _ _
      | with_reducible apply State.freeObj_only
      | with_reducible apply State.setObj_only
      | with_reducible apply Only.ite
      | refine Fld.yes rfl

theorem State.dropRef_only {fl : List Fld} {sa s : State} {h : Nat}
    (hk : Only fl sa s) (hsub : Fld.sub [.regs_, .objs_, .freed_, .fns_, .out_] fl = true) : Only fl sa (State.dropRef s h) := by
    refine Only.seq (l := [.regs_, .objs_, .freed_, .fns_, .out_]) hk ?_ hsub
    clear hk hsub
    unfold State.dropRef
    repeat' first
      | with_reducible exact Only.refl _ _
      | with_reducible apply State.setCounts_only
      | with_reducible apply Only.ite
      | refine Fld.yes rfl

theorem State.dropCall_only {fl : List Fld} {sa s : State} {q : Nat} {index : Nat}
    (hk : Only fl sa s) (hsub : Fld.sub [.queues_] fl = true) : Only fl sa (State.dropCall s q index) := by
    refine Only.seq (l := [.queues_]) hk ?_ hsub
    clear hk hsub
    unfold State.dropCall
    repeat' first
      | with_reducible exact Only.refl _ _
      | with_reducible apply State.setQueue_only
      | refine Fld.yes rfl

theorem State.endCall_only {fl : List Fld} {sa s : State} {q : Nat} {c : FetchedCall} {k : Completion}
    (hk : Only fl sa s) (hsub : Fld.sub [.regs_, .ctrs_, .tiles_, .hbm_, .cxl_, .hbmUe_, .metaCache_, .sideArea_, .cues_, .reqs_, .nextTag_, .loom_, .queues_, .objs_, .freed_, .ctxs_, .fns_, .hostReads_, .fwGot_, .fwHeld_, .sec_, .fw_, .inc_, .twin_, .out_] fl = true) : Only fl sa (State.endCall s q c k) := by
    refine Only.seq (l := [.regs_, .ctrs_, .tiles_, .hbm_, .cxl_, .hbmUe_, .metaCache_, .sideArea_, .cues_, .reqs_, .nextTag_, .loom_, .queues_, .objs_, .freed_, .ctxs_, .fns_, .hostReads_, .fwGot_, .fwHeld_, .sec_, .fw_, .inc_, .twin_, .out_]) hk ?_ hsub
    clear hk hsub
    unfold State.endCall
    repeat' first
      | with_reducible exact Only.refl _ _
      | with_reducible apply State.dropCall_only
      | with_reducible apply State.dropRef_only
      | with_reducible apply State.writeCompletion_only
      | refine Fld.yes rfl

theorem State.setFence_only {fl : List Fld} {sa s : State} {f : Nat} {v : Option FenceSt}
    (hk : Only fl sa s) (hsub : Fld.sub [.fences_] fl = true) : Only fl sa (State.setFence s f v) := by
    refine Only.seq (l := [.fences_]) hk ?_ hsub
    clear hk hsub
    unfold State.setFence
    repeat' first
      | with_reducible exact Only.refl _ _
      | refine Only.upd ?_ rfl rfl

theorem State.fenceUpdate_only {fl : List Fld} {sa s : State} {f : Nat} {v : Nat} {st : Nat} {late : Bool}
    (hk : Only fl sa s) (hsub : Fld.sub [.regs_, .ctrs_, .tiles_, .cues_, .reqs_, .loom_, .fences_, .ctxs_, .fns_, .hostReads_, .fwGot_, .fwHeld_, .sec_, .fw_, .inc_, .out_] fl = true) : Only fl sa (State.fenceUpdate s f v st late) := by
    refine Only.seq (l := [.regs_, .ctrs_, .tiles_, .cues_, .reqs_, .loom_, .fences_, .ctxs_, .fns_, .hostReads_, .fwGot_, .fwHeld_, .sec_, .fw_, .inc_, .out_]) hk ?_ hsub
    clear hk hsub
    unfold State.fenceUpdate
    repeat' first
      | with_reducible exact Only.refl _ _
      | with_reducible assumption
      | with_reducible apply State.hostWrite_only
      | with_reducible apply State.setFence_only
      | with_reducible apply State.raise_only
      | with_reducible apply Only.ite
      | refine Fld.yes rfl
      | (extract_lets +onlyGivenNames zz; refine Only.have_ (u := zz) ?_ (fun _ => ?_); rotate_left; try clear_value zz; revert zz; intros; rotate_right; dsimp -zeta only [zz]; clear zz)
      | (extract_lets +onlyGivenNames zz; try clear_value zz; revert zz; intros)
      | split

theorem State.callIrqSend_only {fl : List Fld} {sa s : State} {q : Nat} {w : BitVec 512}
    (hk : Only fl sa s) (hsub : Fld.sub [.fns_, .out_] fl = true) : Only fl sa (State.callIrqSend s q w) := by
    refine Only.seq (l := [.fns_, .out_]) hk ?_ hsub
    clear hk hsub
    unfold State.callIrqSend
    repeat' first
      | with_reducible exact Only.refl _ _
      | with_reducible apply State.msix_only
      | with_reducible apply Only.ite
      | refine Fld.yes rfl

theorem State.wake_only {fl : List Fld} {sa s : State} {y1 : Nat}
    (hk : Only fl sa s) (hsub : Fld.sub [.regs_, .ctrs_, .tiles_, .hbm_, .cxl_, .hbmUe_, .metaCache_, .sideArea_, .cues_, .reqs_, .nextTag_, .loom_, .queues_, .fences_, .objs_, .freed_, .ctxs_, .fns_, .hostReads_, .fwGot_, .fwHeld_, .sec_, .fw_, .inc_, .twin_, .out_] fl = true) : Only fl sa (State.wake s y1) := by
    refine Only.seq (l := [.regs_, .ctrs_, .tiles_, .hbm_, .cxl_, .hbmUe_, .metaCache_, .sideArea_, .cues_, .reqs_, .nextTag_, .loom_, .queues_, .fences_, .objs_, .freed_, .ctxs_, .fns_, .hostReads_, .fwGot_, .fwHeld_, .sec_, .fw_, .inc_, .twin_, .out_]) hk ?_ hsub
    clear hk hsub
    fun_induction State.wake s y1
    all_goals
      repeat' first
        | with_reducible exact Only.refl _ _
        | with_reducible apply State.callIrqSend_only
        | with_reducible apply State.fenceUpdate_only
        | with_reducible apply State.endCall_only
        | with_reducible apply Only.ite
        | with_reducible refine Only.seq (l := [.regs_, .ctrs_, .tiles_, .hbm_, .cxl_, .hbmUe_, .metaCache_, .sideArea_, .cues_, .reqs_, .nextTag_, .loom_, .queues_, .fences_, .objs_, .freed_, .ctxs_, .fns_, .hostReads_, .fwGot_, .fwHeld_, .sec_, .fw_, .inc_, .twin_, .out_]) ?_ (by assumption) rfl
        | refine Fld.yes rfl

theorem State.signal_only {fl : List Fld} {sa s : State} {f : Nat} {v : Nat} {st : Nat} {late : Bool}
    (hk : Only fl sa s) (hsub : Fld.sub [.regs_, .ctrs_, .tiles_, .hbm_, .cxl_, .hbmUe_, .metaCache_, .sideArea_, .cues_, .reqs_, .nextTag_, .loom_, .queues_, .fences_, .objs_, .freed_, .ctxs_, .fns_, .hostReads_, .fwGot_, .fwHeld_, .sec_, .fw_, .inc_, .twin_, .out_] fl = true) : Only fl sa (State.signal s f v st late) := by
    refine Only.seq (l := [.regs_, .ctrs_, .tiles_, .hbm_, .cxl_, .hbmUe_, .metaCache_, .sideArea_, .cues_, .reqs_, .nextTag_, .loom_, .queues_, .fences_, .objs_, .freed_, .ctxs_, .fns_, .hostReads_, .fwGot_, .fwHeld_, .sec_, .fw_, .inc_, .twin_, .out_]) hk ?_ hsub
    clear hk hsub
    unfold State.signal
    repeat' first
      | with_reducible exact Only.refl _ _
      | with_reducible apply State.fenceUpdate_only
      | with_reducible apply State.wake_only
      | refine Fld.yes rfl

theorem State.closeStep_only {fl : List Fld} {sa s : State} {r : StepRec} {status : Nat} {cstat : Nat}
    (hk : Only fl sa s) (hsub : Fld.sub [.regs_, .ctrs_, .tiles_, .hbm_, .cxl_, .hbmUe_, .metaCache_, .sideArea_, .cues_, .reqs_, .nextTag_, .loom_, .queues_, .fences_, .objs_, .freed_, .ctxs_, .fns_, .hostReads_, .fwGot_, .fwHeld_, .sec_, .fw_, .inc_, .twin_, .out_] fl = true) : Only fl sa (State.closeStep s r status cstat) := by
    refine Only.seq (l := [.regs_, .ctrs_, .tiles_, .hbm_, .cxl_, .hbmUe_, .metaCache_, .sideArea_, .cues_, .reqs_, .nextTag_, .loom_, .queues_, .fences_, .objs_, .freed_, .ctxs_, .fns_, .hostReads_, .fwGot_, .fwHeld_, .sec_, .fw_, .inc_, .twin_, .out_]) hk ?_ hsub
    clear hk hsub
    unfold State.closeStep
    repeat' first
      | with_reducible exact Only.refl _ _
      | with_reducible apply State.callIrqSend_only
      | with_reducible apply State.signal_only
      | with_reducible apply State.dropCall_only
      | with_reducible apply State.dropRef_only
      | with_reducible apply State.writeCompletion_only
      | with_reducible apply Only.ite
      | refine Fld.yes rfl

theorem State.endStep_only {fl : List Fld} {sa s : State} {b : Nat} {r : StepRec} {status : Nat} {cstat : Nat}
    (hk : Only fl sa s) (hsub : Fld.sub [.regs_, .ctrs_, .tiles_, .hbm_, .cxl_, .hbmUe_, .metaCache_, .sideArea_, .cues_, .reqs_, .nextTag_, .loom_, .queues_, .fences_, .objs_, .freed_, .ctxs_, .fns_, .hostReads_, .fwGot_, .fwHeld_, .sec_, .fw_, .inc_, .twin_, .out_] fl = true) : Only fl sa (State.endStep s b r status cstat) := by
    refine Only.seq (l := [.regs_, .ctrs_, .tiles_, .hbm_, .cxl_, .hbmUe_, .metaCache_, .sideArea_, .cues_, .reqs_, .nextTag_, .loom_, .queues_, .fences_, .objs_, .freed_, .ctxs_, .fns_, .hostReads_, .fwGot_, .fwHeld_, .sec_, .fw_, .inc_, .twin_, .out_]) hk ?_ hsub
    clear hk hsub
    unfold State.endStep
    repeat' first
      | with_reducible exact Only.refl _ _
      | with_reducible apply State.closeStep_only
      | with_reducible apply State.removeStep_only
      | with_reducible apply Only.ite
      | refine Fld.yes rfl

theorem State.disarmStep_only {fl : List Fld} {sa s : State} {b : Nat} {sq : Nat}
    (hk : Only fl sa s) (hsub : Fld.sub [.cues_] fl = true) : Only fl sa (State.disarmStep s b sq) := by
    refine Only.seq (l := [.cues_]) hk ?_ hsub
    clear hk hsub
    unfold State.disarmStep
    repeat' first
      | with_reducible exact Only.refl _ _
      | refine Only.upd ?_ rfl rfl

theorem State.complete_only {fl : List Fld} {sa s : State} {q : Nat} {c : FetchedCall} {k : Completion}
    (hk : Only fl sa s) (hsub : Fld.sub [.regs_, .ctrs_, .tiles_, .hbm_, .cxl_, .hbmUe_, .metaCache_, .sideArea_, .cues_, .reqs_, .nextTag_, .loom_, .queues_, .fences_, .objs_, .freed_, .ctxs_, .fns_, .hostReads_, .fwGot_, .fwHeld_, .sec_, .fw_, .inc_, .twin_, .out_] fl = true) : Only fl sa (State.complete s q c k) := by
    refine Only.seq (l := [.regs_, .ctrs_, .tiles_, .hbm_, .cxl_, .hbmUe_, .metaCache_, .sideArea_, .cues_, .reqs_, .nextTag_, .loom_, .queues_, .fences_, .objs_, .freed_, .ctxs_, .fns_, .hostReads_, .fwGot_, .fwHeld_, .sec_, .fw_, .inc_, .twin_, .out_]) hk ?_ hsub
    clear hk hsub
    unfold State.complete
    repeat' first
      | with_reducible exact Only.refl _ _
      | with_reducible apply State.callIrqSend_only
      | with_reducible apply State.signal_only
      | with_reducible apply State.endCall_only
      | with_reducible apply Only.ite
      | refine Fld.yes rfl

theorem State.endJob_only {fl : List Fld} {sa s : State} {b : Nat}
    (hk : Only fl sa s) (hsub : Fld.sub [.regs_, .ctrs_, .tiles_, .hbm_, .cxl_, .hbmUe_, .metaCache_, .sideArea_, .cues_, .reqs_, .nextTag_, .loom_, .queues_, .fences_, .objs_, .freed_, .ctxs_, .fns_, .hostReads_, .fwGot_, .fwHeld_, .sec_, .fw_, .inc_, .twin_, .out_] fl = true) : Only fl sa (State.endJob s b) := by
    refine Only.seq (l := [.regs_, .ctrs_, .tiles_, .hbm_, .cxl_, .hbmUe_, .metaCache_, .sideArea_, .cues_, .reqs_, .nextTag_, .loom_, .queues_, .fences_, .objs_, .freed_, .ctxs_, .fns_, .hostReads_, .fwGot_, .fwHeld_, .sec_, .fw_, .inc_, .twin_, .out_]) hk ?_ hsub
    clear hk hsub
    unfold State.endJob
    repeat' first
      | with_reducible exact Only.refl _ _
      | with_reducible assumption
      | with_reducible apply State.setQueue_only
      | with_reducible apply State.dropRef_only
      | with_reducible apply State.complete_only
      | with_reducible apply State.updCtx_only
      | with_reducible apply State.endStep_only
      | with_reducible apply Only.ite
      | with_reducible apply Only.foldl
      | intro _ _ _
      | refine Fld.yes rfl
      | (extract_lets +onlyGivenNames zz; try clear_value zz; revert zz; intros)
      | split

theorem State.takeRef_only {fl : List Fld} {sa s : State} {h : Nat}
    (hk : Only fl sa s) (hsub : Fld.sub [.regs_, .objs_, .freed_, .fns_, .out_] fl = true) : Only fl sa (State.takeRef s h) := by
    refine Only.seq (l := [.regs_, .objs_, .freed_, .fns_, .out_]) hk ?_ hsub
    clear hk hsub
    unfold State.takeRef
    repeat' first
      | with_reducible exact Only.refl _ _
      | with_reducible apply State.setCounts_only
      | with_reducible apply Only.ite
      | refine Fld.yes rfl

theorem State.holdStep_only {fl : List Fld} {sa s : State} {b : Nat} {r : StepRec}
    (hk : Only fl sa s) (hsub : Fld.sub [.regs_, .ctrs_, .tiles_, .hbm_, .cxl_, .hbmUe_, .metaCache_, .sideArea_, .cues_, .reqs_, .nextTag_, .loom_, .queues_, .fences_, .objs_, .freed_, .ctxs_, .fns_, .hostReads_, .fwGot_, .fwHeld_, .sec_, .fw_, .inc_, .twin_, .out_] fl = true) : Only fl sa (State.holdStep s b r) := by
    refine Only.seq (l := [.regs_, .ctrs_, .tiles_, .hbm_, .cxl_, .hbmUe_, .metaCache_, .sideArea_, .cues_, .reqs_, .nextTag_, .loom_, .queues_, .fences_, .objs_, .freed_, .ctxs_, .fns_, .hostReads_, .fwGot_, .fwHeld_, .sec_, .fw_, .inc_, .twin_, .out_]) hk ?_ hsub
    clear hk hsub
    unfold State.holdStep
    repeat' first
      | with_reducible exact Only.refl _ _
      | with_reducible apply State.updCtx_only
      | with_reducible apply State.closeStep_only
      | refine Fld.yes rfl

theorem State.discard_only {fl : List Fld} {sa s : State} {q : Nat} {c : FetchedCall}
    (hk : Only fl sa s) (hsub : Fld.sub [.regs_, .ctrs_, .tiles_, .hbm_, .cxl_, .hbmUe_, .metaCache_, .sideArea_, .cues_, .reqs_, .nextTag_, .loom_, .queues_, .objs_, .freed_, .ctxs_, .fns_, .hostReads_, .fwGot_, .fwHeld_, .sec_, .fw_, .inc_, .twin_, .out_] fl = true) : Only fl sa (State.discard s q c) := by
    refine Only.seq (l := [.regs_, .ctrs_, .tiles_, .hbm_, .cxl_, .hbmUe_, .metaCache_, .sideArea_, .cues_, .reqs_, .nextTag_, .loom_, .queues_, .objs_, .freed_, .ctxs_, .fns_, .hostReads_, .fwGot_, .fwHeld_, .sec_, .fw_, .inc_, .twin_, .out_]) hk ?_ hsub
    clear hk hsub
    unfold State.discard
    repeat' first
      | with_reducible exact Only.refl _ _
      | with_reducible apply State.endCall_only
      | refine Fld.yes rfl

end Sys2Proof.Machine
end

