-- ==== Sys2Proof/Laws/FrameBoothOps.lean ====
section
/-! SUPPORT. Which fields of the state each operation of Sys2Proof/Machine/BoothOps.lean can change. -/

namespace Sys2Proof.Machine

set_option linter.all false
set_option Elab.async false

theorem State.authFail_only {fl : List Fld} {sa s : State} {cause : Nat}
    (hk : Only fl sa s) (hsub : Fld.sub [.regs_, .ctrs_, .fw_, .inc_] fl = true) : Only fl sa (State.authFail s cause) := by
    refine Only.seq (l := [.regs_, .ctrs_, .fw_, .inc_]) hk ?_ hsub
    clear hk hsub
    unfold State.authFail
    repeat' first
      | with_reducible exact Only.refl _ _
      | with_reducible apply State.report_only
      | with_reducible apply Only.ite
      | refine Fld.yes rfl
      | (extract_lets +onlyGivenNames zz; try clear_value zz; revert zz; intros)
      | refine Only.upd ?_ rfl rfl

theorem State.closeBooth_only {fl : List Fld} {sa s : State} {ses : Nat}
    (hk : Only fl sa s) (hsub : Fld.sub [.ctxs_, .sec_, .fw_] fl = true) : Only fl sa (State.closeBooth s ses) := by
    refine Only.seq (l := [.ctxs_, .sec_, .fw_]) hk ?_ hsub
    clear hk hsub
    unfold State.closeBooth
    repeat' first
      | with_reducible exact Only.refl _ _
      | (extract_lets +onlyGivenNames zz; try clear_value zz; revert zz; intros)
      | refine Only.upd ?_ rfl rfl

theorem State.message_only {fl : List Fld} {sa s : State} {ses : SessId} {m : MsgRule}
    {act : State → State × Option (Nat × List Nat)} (hk : Only fl sa s) (hsub : Fld.sub [.regs_, .ctrs_, .fw_, .inc_, .out_] fl = true)
    (ha : ∀ t, Only fl sa t → Only fl sa (act t).1) : Only fl sa (s.message ses m act) := by
  unfold State.message
  repeat' first
    | assumption
    | with_reducible apply ha
    | with_reducible apply State.setBoothSess_only
    | with_reducible apply State.reply_only
    | with_reducible apply State.replyNow_only
    | with_reducible apply State.authFail_only
    | exact Fld.sub_trans (by decide) hsub
    | dsimp only
    | split

end Sys2Proof.Machine
end

