-- ==== Sys2Proof/Laws/FrameSceneOps.lean ====
section
/-! SUPPORT. Which fields of the state each operation of Sys2Proof/Machine/SceneOps.lean can change. -/

namespace Sys2Proof.Machine

set_option linter.all false
set_option Elab.async false

theorem State.voidForScene_only {fl : List Fld} {sa s : State} {b : Nat} {p : StepRec → Bool}
    (hk : Only fl sa s) (hsub : Fld.sub [.regs_, .ctrs_, .ctxs_, .fns_, .inc_, .out_] fl = true) : Only fl sa (State.voidForScene s b p) := by
    refine Only.seq (l := [.regs_, .ctrs_, .ctxs_, .fns_, .inc_, .out_]) hk ?_ hsub
    clear hk hsub
    unfold State.voidForScene
    repeat' first
      | with_reducible exact Only.refl _ _
      | with_reducible apply State.voidWhere_only
      | with_reducible apply Only.ite
      | refine Fld.yes rfl
      | split

end Sys2Proof.Machine
end

