-- ==== Sys2Proof/Laws/FrameCueOps.lean ====
section
/-! SUPPORT. Which fields of the state each operation of Sys2Proof/Machine/CueOps.lean can change. -/

namespace Sys2Proof.Machine

set_option linter.all false
set_option Elab.async false

theorem State.raiseBlocking_only {fl : List Fld} {sa s : State} {b : Nat}
    (hk : Only fl sa s) (hsub : Fld.sub [.regs_, .ctrs_, .tiles_, .cues_, .reqs_, .loom_, .ctxs_, .fns_, .hostReads_, .fwGot_, .fwHeld_, .sec_, .fw_, .inc_, .out_] fl = true) : Only fl sa (State.raiseBlocking s b) := by
    refine Only.seq (l := [.regs_, .ctrs_, .tiles_, .cues_, .reqs_, .loom_, .ctxs_, .fns_, .hostReads_, .fwGot_, .fwHeld_, .sec_, .fw_, .inc_, .out_]) hk ?_ hsub
    clear hk hsub
    unfold State.raiseBlocking
    repeat' first
      | with_reducible exact Only.refl _ _
      | with_reducible apply State.updCtx_only
      | with_reducible apply State.raise_only
      | refine Fld.yes rfl

theorem State.setCue_only {fl : List Fld} {sa s : State} {k : Nat} {v : Option CueSlotSt}
    (hk : Only fl sa s) (hsub : Fld.sub [.cues_] fl = true) : Only fl sa (State.setCue s k v) := by
    refine Only.seq (l := [.cues_]) hk ?_ hsub
    clear hk hsub
    unfold State.setCue
    repeat' first
      | with_reducible exact Only.refl _ _
      | refine Only.upd ?_ rfl rfl

theorem State.armSlot_only {fl : List Fld} {sa s : State} {k : Nat} {r : CueRec} {own : Option Nat}
    (hk : Only fl sa s) (hsub : Fld.sub [.cues_] fl = true) : Only fl sa (State.armSlot s k r own) := by
    refine Only.seq (l := [.cues_]) hk ?_ hsub
    clear hk hsub
    unfold State.armSlot
    repeat' first
      | with_reducible exact Only.refl _ _
      | with_reducible apply State.setCue_only
      | refine Fld.yes rfl

theorem State.armTemplate_only {fl : List Fld} {sa s : State} {b : Nat} {sq : Nat} {start : Nat} {y4 : List CueRec} {y5 : List Nat}
    (hk : Only fl sa s) (hsub : Fld.sub [.cues_] fl = true) : Only fl sa (State.armTemplate s b sq start y4 y5).1 := by
    refine Only.seq (l := [.cues_]) hk ?_ hsub
    clear hk hsub
    fun_induction State.armTemplate s b sq start y4 y5
    all_goals
      repeat' first
        | with_reducible exact Only.refl _ _
        | with_reducible apply State.armSlot_only
        | with_reducible refine Only.seq (l := [.cues_]) ?_ (by assumption) rfl
        | refine Fld.yes rfl

theorem State.sendStart_only {fl : List Fld} {sa s : State} {b : Nat} {start : Sys2Proof.DWord}
    (hk : Only fl sa s) (hsub : Fld.sub [.out_] fl = true) : Only fl sa (State.sendStart s b start) := by
    refine Only.seq (l := [.out_]) hk ?_ hsub
    clear hk hsub
    unfold State.sendStart
    repeat' first
      | with_reducible exact Only.refl _ _
      | with_reducible assumption
      | with_reducible apply State.emit_only
      | with_reducible apply Only.foldl
      | intro _ _ _
      | refine Fld.yes rfl

theorem State.startStep_only {fl : List Fld} {sa s : State} {b : Nat} {r : StepRec}
    (hk : Only fl sa s) (hsub : Fld.sub [.regs_, .ctrs_, .tiles_, .hbm_, .cxl_, .hbmUe_, .metaCache_, .sideArea_, .cues_, .reqs_, .nextTag_, .loom_, .queues_, .fences_, .objs_, .freed_, .ctxs_, .fns_, .hostReads_, .fwGot_, .fwHeld_, .sec_, .fw_, .inc_, .twin_, .out_] fl = true) : Only fl sa (State.startStep s b r).1 := by
    refine Only.seq (l := [.regs_, .ctrs_, .tiles_, .hbm_, .cxl_, .hbmUe_, .metaCache_, .sideArea_, .cues_, .reqs_, .nextTag_, .loom_, .queues_, .fences_, .objs_, .freed_, .ctxs_, .fns_, .hostReads_, .fwGot_, .fwHeld_, .sec_, .fw_, .inc_, .twin_, .out_]) hk ?_ hsub
    clear hk hsub
    unfold State.startStep
    repeat' first
      | with_reducible exact Only.refl _ _
      | with_reducible assumption
      | with_reducible apply State.disarmStep_only
      | with_reducible apply State.endStep_only
      | with_reducible apply State.writeCompletion_only
      | with_reducible apply State.voidForScene_only
      | with_reducible apply State.sendStart_only
      | with_reducible apply State.setCtxMode_only
      | with_reducible apply State.updCtx_only
      | with_reducible apply State.armTemplate_only
      | with_reducible apply Only.ite
      | refine Fld.yes rfl
      | (extract_lets +onlyGivenNames zz; refine Only.have_ (u := zz) ?_ (fun _ => ?_); rotate_left; try clear_value zz; revert zz; intros; rotate_right; dsimp -zeta only [zz]; clear zz)
      | (extract_lets +onlyGivenNames zz; refine Only.have_ (u := zz.1) ?_ (fun _ => ?_); rotate_left; try clear_value zz; revert zz; intros; rotate_right; dsimp -zeta only [zz]; clear zz)
      | (extract_lets +onlyGivenNames zz; try clear_value zz; revert zz; intros)
      | split

theorem State.startNext_only {fl : List Fld} {sa s : State} {b : Nat} {y2 : Nat}
    (hk : Only fl sa s) (hsub : Fld.sub [.regs_, .ctrs_, .tiles_, .hbm_, .cxl_, .hbmUe_, .metaCache_, .sideArea_, .cues_, .reqs_, .nextTag_, .loom_, .queues_, .fences_, .objs_, .freed_, .ctxs_, .fns_, .hostReads_, .fwGot_, .fwHeld_, .sec_, .fw_, .inc_, .twin_, .out_] fl = true) : Only fl sa (State.startNext s b y2) := by
    refine Only.seq (l := [.regs_, .ctrs_, .tiles_, .hbm_, .cxl_, .hbmUe_, .metaCache_, .sideArea_, .cues_, .reqs_, .nextTag_, .loom_, .queues_, .fences_, .objs_, .freed_, .ctxs_, .fns_, .hostReads_, .fwGot_, .fwHeld_, .sec_, .fw_, .inc_, .twin_, .out_]) hk ?_ hsub
    clear hk hsub
    fun_induction State.startNext s b y2
    all_goals
      repeat' first
        | with_reducible exact Only.refl _ _
        | with_reducible apply State.startStep_only
        | with_reducible apply State.endStep_only
        | with_reducible apply State.raiseBlocking_only
        | with_reducible refine Only.seq (l := [.regs_, .ctrs_, .tiles_, .hbm_, .cxl_, .hbmUe_, .metaCache_, .sideArea_, .cues_, .reqs_, .nextTag_, .loom_, .queues_, .fences_, .objs_, .freed_, .ctxs_, .fns_, .hostReads_, .fwGot_, .fwHeld_, .sec_, .fw_, .inc_, .twin_, .out_]) ?_ (by assumption) rfl
        | refine Fld.yes rfl

theorem State.afterFire_only {fl : List Fld} {sa s : State} {n : Nat} {k : Nat} {c : CueSlotSt}
    (hk : Only fl sa s) (hsub : Fld.sub [.cues_] fl = true) : Only fl sa (State.afterFire s n k c) := by
    refine Only.seq (l := [.cues_]) hk ?_ hsub
    clear hk hsub
    unfold State.afterFire
    repeat' first
      | with_reducible exact Only.refl _ _
      | with_reducible apply State.setCue_only
      | with_reducible apply Only.ite
      | refine Fld.yes rfl

theorem State.cancelCue_only {fl : List Fld} {sa s : State} {k : Nat}
    (hk : Only fl sa s) (hsub : Fld.sub [.cues_] fl = true) : Only fl sa (State.cancelCue s k).1 := by
    refine Only.seq (l := [.cues_]) hk ?_ hsub
    clear hk hsub
    unfold State.cancelCue
    repeat' first
      | with_reducible exact Only.refl _ _
      | with_reducible apply State.setCue_only
      | refine Fld.yes rfl
      | split

theorem State.farStart_only {fl : List Fld} {sa s : State} {b : Nat} {start : Sys2Proof.DWord}
    (hk : Only fl sa s) (hsub : Fld.sub [.cues_, .ctxs_] fl = true) : Only fl sa (State.farStart s b start) := by
    refine Only.seq (l := [.cues_, .ctxs_]) hk ?_ hsub
    clear hk hsub
    unfold State.farStart
    repeat' first
      | with_reducible exact Only.refl _ _
      | with_reducible apply State.disarmStep_only
      | with_reducible apply State.updCtx_only
      | with_reducible apply State.armTemplate_only
      | with_reducible apply Only.ite
      | refine Fld.yes rfl
      | (extract_lets +onlyGivenNames zz; try clear_value zz; revert zz; intros)
      | split

end Sys2Proof.Machine
end

