-- ==== Sys2Proof/Laws/FrameCreustOps.lean ====
section
/-! SUPPORT. Which fields of the state each operation of Sys2Proof/Machine/CreustOps.lean can change. -/

namespace Sys2Proof.Machine

set_option linter.all false
set_option Elab.async false

theorem State.setPort_only {fl : List Fld} {sa s : State} {p : Nat} {v : CrPort}
    (hk : Only fl sa s) (hsub : Fld.sub [.ports_] fl = true) : Only fl sa (State.setPort s p v) := by
    refine Only.seq (l := [.ports_]) hk ?_ hsub
    clear hk hsub
    unfold State.setPort
    repeat' first
      | with_reducible exact Only.refl _ _
      | refine Only.upd ?_ rfl rfl

theorem State.updPort_only {fl : List Fld} {sa s : State} {p : Nat} {f : CrPort → CrPort}
    (hk : Only fl sa s) (hsub : Fld.sub [.ports_] fl = true) : Only fl sa (State.updPort s p f) := by
    refine Only.seq (l := [.ports_]) hk ?_ hsub
    clear hk hsub
    unfold State.updPort
    repeat' first
      | with_reducible exact Only.refl _ _
      | with_reducible apply State.setPort_only
      | refine Fld.yes rfl

theorem State.noteBlocked_only {fl : List Fld} {sa s : State} {p : Nat}
    (hk : Only fl sa s) (hsub : Fld.sub [.ports_] fl = true) : Only fl sa (State.noteBlocked s p) := by
    refine Only.seq (l := [.ports_]) hk ?_ hsub
    clear hk hsub
    unfold State.noteBlocked
    repeat' first
      | with_reducible exact Only.refl _ _
      | with_reducible apply State.updPort_only
      | refine Fld.yes rfl

theorem State.closeControl_only {fl : List Fld} {sa s : State} {p : Nat} {slots : List WSlot} {cells : List (Nat × Nat)} {data : List OutFlit}
    (hk : Only fl sa s) (hsub : Fld.sub [.ports_] fl = true) : Only fl sa (State.closeControl s p slots cells data) := by
    refine Only.seq (l := [.ports_]) hk ?_ hsub
    clear hk hsub
    unfold State.closeControl
    repeat' first
      | with_reducible exact Only.refl _ _
      | with_reducible apply State.updPort_only
      | with_reducible apply Only.ite
      | refine Fld.yes rfl

theorem State.setSess_only {fl : List Fld} {sa s : State} {k : Nat} {v : Option Sess}
    (hk : Only fl sa s) (hsub : Fld.sub [.sess_] fl = true) : Only fl sa (State.setSess s k v) := by
    refine Only.seq (l := [.sess_]) hk ?_ hsub
    clear hk hsub
    unfold State.setSess
    repeat' first
      | with_reducible exact Only.refl _ _
      | refine Only.upd ?_ rfl rfl

theorem State.dropSess_only {fl : List Fld} {sa s : State} {k : Nat}
    (hk : Only fl sa s) (hsub : Fld.sub [.sess_] fl = true) : Only fl sa (State.dropSess s k) := by
    refine Only.seq (l := [.sess_]) hk ?_ hsub
    clear hk hsub
    unfold State.dropSess
    repeat' first
      | with_reducible exact Only.refl _ _
      | with_reducible apply State.setSess_only
      | refine Fld.yes rfl

theorem State.takeSeq_only {fl : List Fld} {sa s : State} {p : Nat} {ski : Option Nat}
    (hk : Only fl sa s) (hsub : Fld.sub [.regs_, .ctrs_, .tiles_, .cues_, .sess_, .reqs_, .loom_, .ctxs_, .fns_, .hostReads_, .fwGot_, .fwHeld_, .sec_, .fw_, .inc_, .out_] fl = true) : Only fl sa (State.takeSeq s p ski).1 := by
    refine Only.seq (l := [.regs_, .ctrs_, .tiles_, .cues_, .sess_, .reqs_, .loom_, .ctxs_, .fns_, .hostReads_, .fwGot_, .fwHeld_, .sec_, .fw_, .inc_, .out_]) hk ?_ hsub
    clear hk hsub
    unfold State.takeSeq
    repeat' first
      | with_reducible exact Only.refl _ _
      | with_reducible apply State.setSess_only
      | with_reducible apply State.dropSess_only
      | with_reducible apply State.raise_only
      | refine Fld.yes rfl
      | split

theorem State.noteSeq_only {fl : List Fld} {sa s : State} {e : EgPkt} {seq : Nat}
    (hk : Only fl sa s) (hsub : Fld.sub [.reqs_] fl = true) : Only fl sa (State.noteSeq s e seq) := by
    refine Only.seq (l := [.reqs_]) hk ?_ hsub
    clear hk hsub
    unfold State.noteSeq
    repeat' first
      | with_reducible exact Only.refl _ _
      | split
      | refine Only.upd ?_ rfl rfl

theorem State.placePkt_only {fl : List Fld} {sa s : State} {p : Nat} {e : EgPkt} {no : Nat} {sp : Bool}
    (hk : Only fl sa s) (hsub : Fld.sub [.regs_, .ctrs_, .tiles_, .cues_, .ports_, .sess_, .reqs_, .loom_, .ctxs_, .fns_, .hostReads_, .fwGot_, .fwHeld_, .sec_, .fw_, .inc_, .out_] fl = true) : Only fl sa (State.placePkt s p e no sp).1 := by
    refine Only.seq (l := [.regs_, .ctrs_, .tiles_, .cues_, .ports_, .sess_, .reqs_, .loom_, .ctxs_, .fns_, .hostReads_, .fwGot_, .fwHeld_, .sec_, .fw_, .inc_, .out_]) hk ?_ hsub
    clear hk hsub
    unfold State.placePkt
    repeat' first
      | with_reducible exact Only.refl _ _
      | with_reducible apply State.noteSeq_only
      | with_reducible apply State.updPort_only
      | with_reducible apply State.takeSeq_only
      | refine Fld.yes rfl
      | (extract_lets +onlyGivenNames zz; try clear_value zz; revert zz; intros)
      | split

theorem State.fillControl_only {fl : List Fld} {sa s : State} {p n : Nat} {slots : List WSlot} {cells : List (Nat × Nat)}
    {data : List OutFlit} (hk : Only fl sa s) (hsub : Fld.sub [.regs_, .ctrs_, .tiles_, .cues_, .ports_, .sess_, .reqs_, .loom_, .ctxs_, .fns_, .hostReads_, .fwGot_, .fwHeld_, .sec_, .fw_, .inc_, .out_] fl = true) :
    Only fl sa (s.fillControl p n slots cells data) := by
  have hd : Fld.sub [.ports_] fl = true := Fld.sub_trans (by decide) hsub
  induction n generalizing s slots cells data with
  | zero => exact State.closeControl_only hk hd
  | succ n ih =>
    unfold State.fillControl
    split
    · split
      · exact ih (State.placePkt_only hk (Fld.sub_trans (by decide) hsub))
      · exact State.closeControl_only hk hd
    · exact State.closeControl_only hk hd

theorem State.sendCw_only {fl : List Fld} {sa s : State} {p : Nat}
    (hk : Only fl sa s) (hsub : Fld.sub [.ctrs_, .ports_, .out_] fl = true) : Only fl sa (State.sendCw s p) := by
    refine Only.seq (l := [.ctrs_, .ports_, .out_]) hk ?_ hsub
    clear hk hsub
    unfold State.sendCw
    repeat' first
      | with_reducible exact Only.refl _ _
      | with_reducible apply State.bump_only
      | with_reducible apply State.emit_only
      | with_reducible apply State.updPort_only
      | refine Fld.yes rfl

theorem State.drainPort_only {fl : List Fld} {sa s : State} {p : Nat} {y2 : Nat}
    (hk : Only fl sa s) (hsub : Fld.sub [.regs_, .ctrs_, .tiles_, .cues_, .ports_, .sess_, .reqs_, .loom_, .ctxs_, .fns_, .hostReads_, .fwGot_, .fwHeld_, .sec_, .fw_, .inc_, .out_] fl = true) : Only fl sa (State.drainPort s p y2) := by
    refine Only.seq (l := [.regs_, .ctrs_, .tiles_, .cues_, .ports_, .sess_, .reqs_, .loom_, .ctxs_, .fns_, .hostReads_, .fwGot_, .fwHeld_, .sec_, .fw_, .inc_, .out_]) hk ?_ hsub
    clear hk hsub
    fun_induction State.drainPort s p y2
    all_goals
      repeat' first
        | with_reducible exact Only.refl _ _
        | with_reducible apply State.sendCw_only
        | with_reducible apply State.fillControl_only
        | with_reducible apply Only.ite
        | with_reducible refine Only.seq (l := [.regs_, .ctrs_, .tiles_, .cues_, .ports_, .sess_, .reqs_, .loom_, .ctxs_, .fns_, .hostReads_, .fwGot_, .fwHeld_, .sec_, .fw_, .inc_, .out_]) ?_ (by assumption) rfl
        | refine Fld.yes rfl

theorem State.drain_only {fl : List Fld} {sa s : State} {p : Nat}
    (hk : Only fl sa s) (hsub : Fld.sub [.regs_, .ctrs_, .tiles_, .cues_, .ports_, .sess_, .reqs_, .loom_, .ctxs_, .fns_, .hostReads_, .fwGot_, .fwHeld_, .sec_, .fw_, .inc_, .out_] fl = true) : Only fl sa (State.drain s p) := by
    refine Only.seq (l := [.regs_, .ctrs_, .tiles_, .cues_, .ports_, .sess_, .reqs_, .loom_, .ctxs_, .fns_, .hostReads_, .fwGot_, .fwHeld_, .sec_, .fw_, .inc_, .out_]) hk ?_ hsub
    clear hk hsub
    unfold State.drain
    repeat' first
      | with_reducible exact Only.refl _ _
      | with_reducible apply State.drainPort_only
      | with_reducible apply State.noteBlocked_only
      | refine Fld.yes rfl

theorem State.sendPkt_only {fl : List Fld} {sa s : State} {p : Nat} {e : EgPkt}
    (hk : Only fl sa s) (hsub : Fld.sub [.regs_, .ctrs_, .tiles_, .cues_, .ports_, .sess_, .reqs_, .loom_, .ctxs_, .fns_, .hostReads_, .fwGot_, .fwHeld_, .sec_, .fw_, .inc_, .out_] fl = true) : Only fl sa (State.sendPkt s p e) := by
    refine Only.seq (l := [.regs_, .ctrs_, .tiles_, .cues_, .ports_, .sess_, .reqs_, .loom_, .ctxs_, .fns_, .hostReads_, .fwGot_, .fwHeld_, .sec_, .fw_, .inc_, .out_]) hk ?_ hsub
    clear hk hsub
    unfold State.sendPkt
    repeat' first
      | with_reducible exact Only.refl _ _
      | with_reducible apply State.updPort_only
      | with_reducible apply State.drain_only
      | refine Fld.yes rfl

theorem State.sendRsp_only {fl : List Fld} {sa s : State} {kind : Nat} {h : Sys2Proof.PktHdr} {status : Nat} {rval : Nat} {data : List Sys2Proof.Byte}
    (hk : Only fl sa s) (hsub : Fld.sub [.regs_, .ctrs_, .tiles_, .cues_, .ports_, .sess_, .reqs_, .loom_, .ctxs_, .fns_, .hostReads_, .fwGot_, .fwHeld_, .sec_, .fw_, .inc_, .out_] fl = true) : Only fl sa (State.sendRsp s kind h status rval data) := by
    refine Only.seq (l := [.regs_, .ctrs_, .tiles_, .cues_, .ports_, .sess_, .reqs_, .loom_, .ctxs_, .fns_, .hostReads_, .fwGot_, .fwHeld_, .sec_, .fw_, .inc_, .out_]) hk ?_ hsub
    clear hk hsub
    unfold State.sendRsp
    repeat' first
      | with_reducible exact Only.refl _ _
      | with_reducible apply State.sendPkt_only
      | refine Fld.yes rfl
      | split

theorem State.fwFar_only {fl : List Fld} {sa s : State} {n : FwNeed}
    (hk : Only fl sa s) (hsub : Fld.sub [.fwNeed_] fl = true) : Only fl sa (State.fwFar s n).1 := by
    refine Only.seq (l := [.fwNeed_]) hk ?_ hsub
    clear hk hsub
    unfold State.fwFar
    repeat' first
      | with_reducible exact Only.refl _ _
      | dsimp -zeta only
      | split
      | refine Only.upd ?_ rfl rfl

theorem State.flushFlits_only {fl : List Fld} {sa s : State} {p : Nat} {y2 : Nat}
    (hk : Only fl sa s) (hsub : Fld.sub [.ctrs_, .ports_, .out_] fl = true) : Only fl sa (State.flushFlits s p y2) := by
    refine Only.seq (l := [.ctrs_, .ports_, .out_]) hk ?_ hsub
    clear hk hsub
    fun_induction State.flushFlits s p y2
    all_goals
      repeat' first
        | with_reducible exact Only.refl _ _
        | with_reducible apply State.sendCw_only
        | with_reducible refine Only.seq (l := [.ctrs_, .ports_, .out_]) ?_ (by assumption) rfl
        | refine Fld.yes rfl

theorem State.sendSlot_only {fl : List Fld} {sa s : State} {p : Nat} {kind : Nat} {fields : List Nat}
    (hk : Only fl sa s) (hsub : Fld.sub [.ctrs_, .ports_, .out_] fl = true) : Only fl sa (State.sendSlot s p kind fields) := by
    refine Only.seq (l := [.ctrs_, .ports_, .out_]) hk ?_ hsub
    clear hk hsub
    unfold State.sendSlot
    repeat' first
      | with_reducible exact Only.refl _ _
      | with_reducible apply State.updPort_only
      | with_reducible apply State.flushFlits_only
      | with_reducible apply State.bump_only
      | with_reducible apply State.emit_only
      | with_reducible apply Only.ite
      | refine Fld.yes rfl

theorem State.openReq_only {fl : List Fld} {sa s : State} {key : Nat} {q : CrReq}
    (hk : Only fl sa s) (hsub : Fld.sub [.reqs_, .loom_] fl = true) : Only fl sa (State.openReq s key q) := by
    refine Only.seq (l := [.reqs_, .loom_]) hk ?_ hsub
    clear hk hsub
    unfold State.openReq
    repeat' first
      | with_reducible exact Only.refl _ _
      | with_reducible apply State.flightAdd_only
      | refine Fld.yes rfl
      | (extract_lets +onlyGivenNames zz; try clear_value zz; revert zz; intros)
      | refine Only.upd ?_ rfl rfl

theorem State.sendFragments_only {fl : List Fld} {sa s : State} {k : Nat} {opx : Nat} {n : Nat} {clear : Bool} {y5 : Nat} {y6 : List (List Sys2Proof.Byte)}
    (hk : Only fl sa s) (hsub : Fld.sub [.regs_, .ctrs_, .tiles_, .cues_, .ports_, .sess_, .reqs_, .nextTag_, .loom_, .ctxs_, .fns_, .hostReads_, .fwGot_, .fwHeld_, .sec_, .fw_, .inc_, .out_] fl = true) : Only fl sa (State.sendFragments s k opx n clear y5 y6) := by
    refine Only.seq (l := [.regs_, .ctrs_, .tiles_, .cues_, .ports_, .sess_, .reqs_, .nextTag_, .loom_, .ctxs_, .fns_, .hostReads_, .fwGot_, .fwHeld_, .sec_, .fw_, .inc_, .out_]) hk ?_ hsub
    clear hk hsub
    fun_induction State.sendFragments s k opx n clear y5 y6
    all_goals
      repeat' first
        | with_reducible exact Only.refl _ _
        | with_reducible apply State.openReq_only
        | with_reducible apply State.sendPkt_only
        | with_reducible apply State.newTag_only
        | with_reducible refine Only.seq (l := [.regs_, .ctrs_, .tiles_, .cues_, .ports_, .sess_, .reqs_, .nextTag_, .loom_, .ctxs_, .fns_, .hostReads_, .fwGot_, .fwHeld_, .sec_, .fw_, .inc_, .out_]) ?_ (by assumption) rfl
        | refine Fld.yes rfl

theorem State.sendSess_only {fl : List Fld} {sa s : State} {k : Nat} {opx : Nat} {clear : Bool} {data : List Sys2Proof.Byte}
    (hk : Only fl sa s) (hsub : Fld.sub [.regs_, .ctrs_, .tiles_, .cues_, .ports_, .sess_, .reqs_, .nextTag_, .loom_, .ctxs_, .fns_, .hostReads_, .fwGot_, .fwHeld_, .sec_, .fw_, .inc_, .out_] fl = true) : Only fl sa (State.sendSess s k opx clear data) := by
    refine Only.seq (l := [.regs_, .ctrs_, .tiles_, .cues_, .ports_, .sess_, .reqs_, .nextTag_, .loom_, .ctxs_, .fns_, .hostReads_, .fwGot_, .fwHeld_, .sec_, .fw_, .inc_, .out_]) hk ?_ hsub
    clear hk hsub
    unfold State.sendSess
    repeat' first
      | with_reducible exact Only.refl _ _
      | with_reducible apply State.sendFragments_only
      | refine Fld.yes rfl

theorem State.closeSess_only {fl : List Fld} {sa s : State} {k : Nat} {cause : Nat}
    (hk : Only fl sa s) (hsub : Fld.sub [.regs_, .ctrs_, .tiles_, .cues_, .ports_, .sess_, .sessIn_, .reqs_, .nextTag_, .loom_, .ctxs_, .fns_, .hostReads_, .fwGot_, .fwHeld_, .sec_, .fw_, .inc_, .out_] fl = true) : Only fl sa (State.closeSess s k cause) := by
    refine Only.seq (l := [.regs_, .ctrs_, .tiles_, .cues_, .ports_, .sess_, .sessIn_, .reqs_, .nextTag_, .loom_, .ctxs_, .fns_, .hostReads_, .fwGot_, .fwHeld_, .sec_, .fw_, .inc_, .out_]) hk ?_ hsub
    clear hk hsub
    unfold State.closeSess
    repeat' first
      | with_reducible exact Only.refl _ _
      | with_reducible assumption
      | with_reducible apply State.setSess_only
      | with_reducible apply State.sendSess_only
      | with_reducible apply Only.ite
      | refine Fld.yes rfl
      | (extract_lets +onlyGivenNames zz; refine Only.have_ (u := zz) ?_ (fun _ => ?_); rotate_left; try clear_value zz; revert zz; intros; rotate_right; dsimp -zeta only [zz]; clear zz)
      | (extract_lets +onlyGivenNames zz; try clear_value zz; revert zz; intros)
      | split
      | refine Only.upd ?_ rfl rfl

theorem State.closeSessions_only {fl : List Fld} {sa s : State} {b : Nat} {cause : Nat}
    (hk : Only fl sa s) (hsub : Fld.sub [.regs_, .ctrs_, .tiles_, .cues_, .ports_, .sess_, .sessIn_, .reqs_, .nextTag_, .loom_, .ctxs_, .fns_, .hostReads_, .fwGot_, .fwHeld_, .sec_, .fw_, .inc_, .out_] fl = true) : Only fl sa (State.closeSessions s b cause) := by
    refine Only.seq (l := [.regs_, .ctrs_, .tiles_, .cues_, .ports_, .sess_, .sessIn_, .reqs_, .nextTag_, .loom_, .ctxs_, .fns_, .hostReads_, .fwGot_, .fwHeld_, .sec_, .fw_, .inc_, .out_]) hk ?_ hsub
    clear hk hsub
    unfold State.closeSessions
    repeat' first
      | with_reducible exact Only.refl _ _
      | with_reducible assumption
      | with_reducible apply State.closeSess_only
      | with_reducible apply Only.foldl
      | intro _ _ _
      | refine Fld.yes rfl

theorem State.fwDone_only {fl : List Fld} {sa s : State} {b : Nat}
    (hk : Only fl sa s) (hsub : Fld.sub [.fwGot_] fl = true) : Only fl sa (State.fwDone s b) := by
    refine Only.seq (l := [.fwGot_]) hk ?_ hsub
    clear hk hsub
    unfold State.fwDone
    repeat' first
      | with_reducible exact Only.refl _ _
      | refine Only.upd ?_ rfl rfl

theorem State.readHost_only {fl : List Fld} {sa s : State} {h : HostRead} {off : Nat}
    (hk : Only fl sa s) (hsub : Fld.sub [.nextTag_, .loom_, .hostReads_, .out_] fl = true) : Only fl sa (State.readHost s h off) := by
    refine Only.seq (l := [.nextTag_, .loom_, .hostReads_, .out_]) hk ?_ hsub
    clear hk hsub
    unfold State.readHost
    repeat' first
      | with_reducible exact Only.refl _ _
      | with_reducible assumption
      | with_reducible apply State.flightAdd_only
      | with_reducible apply State.emit_only
      | with_reducible apply State.newTag_only
      | refine Fld.yes rfl
      | (extract_lets +onlyGivenNames zz; refine Only.have_ (u := zz) ?_ (fun _ => ?_); rotate_left; try clear_value zz; revert zz; intros; rotate_right; dsimp -zeta only [zz]; clear zz)
      | refine Only.upd ?_ rfl rfl

theorem State.sendReq_only {fl : List Fld} {sa s : State} {r : ReqSpec}
    (hk : Only fl sa s) (hsub : Fld.sub [.regs_, .ctrs_, .tiles_, .cues_, .ports_, .sess_, .reqs_, .nextTag_, .loom_, .ctxs_, .fns_, .hostReads_, .fwGot_, .fwHeld_, .sec_, .fw_, .inc_, .out_] fl = true) : Only fl sa (State.sendReq s r).1 := by
    refine Only.seq (l := [.regs_, .ctrs_, .tiles_, .cues_, .ports_, .sess_, .reqs_, .nextTag_, .loom_, .ctxs_, .fns_, .hostReads_, .fwGot_, .fwHeld_, .sec_, .fw_, .inc_, .out_]) hk ?_ hsub
    clear hk hsub
    unfold State.sendReq
    repeat' first
      | with_reducible exact Only.refl _ _
      | with_reducible assumption
      | with_reducible apply State.openReq_only
      | with_reducible apply State.sendPkt_only
      | with_reducible apply State.newTag_only
      | refine Fld.yes rfl
      | (extract_lets +onlyGivenNames zz; refine Only.have_ (u := zz.1) ?_ (fun _ => ?_); rotate_left; try clear_value zz; revert zz; intros; rotate_right; dsimp -zeta only [zz]; clear zz)
      | (extract_lets +onlyGivenNames zz; try clear_value zz; revert zz; intros)
      | split

theorem State.fwIssue_only {fl : List Fld} {sa s : State} {n : FwNeed}
    (hk : Only fl sa s) (hsub : Fld.sub [.regs_, .ctrs_, .tiles_, .cues_, .ports_, .sess_, .reqs_, .nextTag_, .loom_, .ctxs_, .fns_, .hostReads_, .fwGot_, .fwHeld_, .sec_, .fw_, .inc_, .out_] fl = true) : Only fl sa (State.fwIssue s n) := by
    refine Only.seq (l := [.regs_, .ctrs_, .tiles_, .cues_, .ports_, .sess_, .reqs_, .nextTag_, .loom_, .ctxs_, .fns_, .hostReads_, .fwGot_, .fwHeld_, .sec_, .fw_, .inc_, .out_]) hk ?_ hsub
    clear hk hsub
    unfold State.fwIssue
    repeat' first
      | with_reducible exact Only.refl _ _
      | with_reducible assumption
      | with_reducible apply State.sendReq_only
      | with_reducible apply State.readHost_only
      | with_reducible apply Only.ite
      | refine Fld.yes rfl
      | (extract_lets +onlyGivenNames zz; refine Only.have_ (u := zz) ?_ (fun _ => ?_); rotate_left; try clear_value zz; revert zz; intros; rotate_right; dsimp -zeta only [zz]; clear zz)
      | (extract_lets +onlyGivenNames zz; refine Only.have_ (u := zz.1) ?_ (fun _ => ?_); rotate_left; try clear_value zz; revert zz; intros; rotate_right; dsimp -zeta only [zz]; clear zz)
      | (extract_lets +onlyGivenNames zz; try clear_value zz; revert zz; intros)
      | refine Only.upd ?_ rfl rfl

theorem State.fwSend_only {fl : List Fld} {sa s : State} {n : FwNeed}
    (hk : Only fl sa s) (hsub : Fld.sub [.regs_, .ctrs_, .tiles_, .cues_, .ports_, .sess_, .reqs_, .nextTag_, .loom_, .ctxs_, .fns_, .hostReads_, .fwGot_, .fwHeld_, .sec_, .fw_, .inc_, .out_] fl = true) : Only fl sa (State.fwSend s n) := by
    refine Only.seq (l := [.regs_, .ctrs_, .tiles_, .cues_, .ports_, .sess_, .reqs_, .nextTag_, .loom_, .ctxs_, .fns_, .hostReads_, .fwGot_, .fwHeld_, .sec_, .fw_, .inc_, .out_]) hk ?_ hsub
    clear hk hsub
    unfold State.fwSend
    repeat' first
      | with_reducible exact Only.refl _ _
      | with_reducible apply State.fwIssue_only
      | with_reducible apply State.bump_only
      | with_reducible apply Only.ite
      | refine Fld.yes rfl
      | (extract_lets +onlyGivenNames zz; try clear_value zz; revert zz; intros)
      | refine Only.upd ?_ rfl rfl

theorem State.fwAwait_only {fl : List Fld} {sa s : State} {r : State}
    (hk : Only fl sa s) (hsub : Fld.sub [.regs_, .ctrs_, .tiles_, .cues_, .ports_, .sess_, .reqs_, .nextTag_, .loom_, .ctxs_, .fns_, .hostReads_, .fwGot_, .fwHeld_, .sec_, .fw_, .inc_, .out_] fl = true) : Only fl sa (State.fwAwait s r) := by
    refine Only.seq (l := [.regs_, .ctrs_, .tiles_, .cues_, .ports_, .sess_, .reqs_, .nextTag_, .loom_, .ctxs_, .fns_, .hostReads_, .fwGot_, .fwHeld_, .sec_, .fw_, .inc_, .out_]) hk ?_ hsub
    clear hk hsub
    unfold State.fwAwait
    repeat' first
      | with_reducible exact Only.refl _ _
      | with_reducible apply State.fwSend_only
      | refine Fld.yes rfl
      | split

theorem State.fwArrive_only {fl : List Fld} {sa s : State} {tag : Nat} {st : Nat} {bytes : List Sys2Proof.Byte}
    (hk : Only fl sa s) (hsub : Fld.sub [.fwGot_] fl = true) : Only fl sa (State.fwArrive s tag st bytes) := by
    refine Only.seq (l := [.fwGot_]) hk ?_ hsub
    clear hk hsub
    unfold State.fwArrive
    repeat' first
      | with_reducible exact Only.refl _ _
      | refine Only.upd ?_ rfl rfl

theorem State.returnCells_only {fl : List Fld} {sa s : State} {p : Nat} {no : Nat} {cells : Nat}
    (hk : Only fl sa s) (hsub : Fld.sub [.ctrs_, .ports_, .out_] fl = true) : Only fl sa (State.returnCells s p no cells) := by
    refine Only.seq (l := [.ctrs_, .ports_, .out_]) hk ?_ hsub
    clear hk hsub
    unfold State.returnCells
    repeat' first
      | with_reducible exact Only.refl _ _
      | with_reducible apply State.sendSlot_only
      | with_reducible apply State.updPort_only
      | with_reducible apply Only.ite
      | refine Fld.yes rfl

end Sys2Proof.Machine
end

