-- ==== Sys2Proof/Laws/FrameXltOps.lean ====
section
/-! SUPPORT. Which fields of the state each operation of Sys2Proof/Machine/XltOps.lean can change. -/

namespace Sys2Proof.Machine

set_option linter.all false
set_option Elab.async false

theorem State.fwLine_only {fl : List Fld} {sa s : State} {b : Nat} {w : Walk}
    (hk : Only fl sa s) (hsub : Fld.sub [.fwNeed_] fl = true) : Only fl sa (State.fwLine s b w).1 := by
    refine Only.seq (l := [.fwNeed_]) hk ?_ hsub
    clear hk hsub
    unfold State.fwLine
    repeat' first
      | with_reducible exact Only.refl _ _
      | with_reducible apply State.fwFar_only
      | refine Fld.yes rfl
      | split

theorem State.readEntry_only {fl : List Fld} {sa s : State} {w : Walk}
    (hk : Only fl sa s) (hsub : Fld.sub [.freeCtr_] fl = true) : Only fl sa (State.readEntry s w).1 := by
    refine Only.seq (l := [.freeCtr_]) hk ?_ hsub
    clear hk hsub
    unfold State.readEntry
    repeat' first
      | with_reducible exact Only.refl _ _
      | with_reducible apply State.draw_only
      | refine Fld.yes rfl

theorem State.wcFill_only {fl : List Fld} {sa s : State} {u : Nat} {b : Nat} {w : Walk} {next : Nat}
    (hk : Only fl sa s) (hsub : Fld.sub [.wcache_] fl = true) : Only fl sa (State.wcFill s u b w next) := by
    refine Only.seq (l := [.wcache_]) hk ?_ hsub
    clear hk hsub
    unfold State.wcFill
    repeat' first
      | with_reducible exact Only.refl _ _
      | (extract_lets +onlyGivenNames zz; try clear_value zz; revert zz; intros)
      | refine Only.upd ?_ rfl rfl

theorem State.walkOn_only {fl : List Fld} {sa s : State} {u : Nat} {b : Nat} {w : Walk} {y4 : Nat}
    (hk : Only fl sa s) (hsub : Fld.sub [.wcache_, .fwNeed_, .freeCtr_] fl = true) : Only fl sa (State.walkOn s u b w y4).1 := by
    refine Only.seq (l := [.wcache_, .fwNeed_, .freeCtr_]) hk ?_ hsub
    clear hk hsub
    fun_induction State.walkOn s u b w y4
    all_goals
      repeat' first
        | with_reducible exact Only.refl _ _
        | with_reducible apply State.wcFill_only
        | with_reducible apply State.readEntry_only
        | with_reducible apply State.fwLine_only
        | with_reducible refine Only.seq (l := [.wcache_, .fwNeed_, .freeCtr_]) ?_ (by assumption) rfl
        | refine Fld.yes rfl

theorem State.tcFill_only {fl : List Fld} {sa s : State} {u : Nat} {l : Leaf}
    (hk : Only fl sa s) (hsub : Fld.sub [.tcache_] fl = true) : Only fl sa (State.tcFill s u l) := by
    refine Only.seq (l := [.tcache_]) hk ?_ hsub
    clear hk hsub
    unfold State.tcFill
    repeat' first
      | with_reducible exact Only.refl _ _
      | (extract_lets +onlyGivenNames zz; try clear_value zz; revert zz; intros)
      | refine Only.upd ?_ rfl rfl

theorem State.setFaults_only {fl : List Fld} {sa s : State} {b : Nat} {v : FaultQueue}
    (hk : Only fl sa s) (hsub : Fld.sub [.fq_] fl = true) : Only fl sa (State.setFaults s b v) := by
    refine Only.seq (l := [.fq_]) hk ?_ hsub
    clear hk hsub
    unfold State.setFaults
    repeat' first
      | with_reducible exact Only.refl _ _
      | refine Only.upd ?_ rfl rfl

theorem State.faultClear_only {fl : List Fld} {sa s : State} {b : Nat}
    (hk : Only fl sa s) (hsub : Fld.sub [.fq_] fl = true) : Only fl sa (State.faultClear s b) := by
    refine Only.seq (l := [.fq_]) hk ?_ hsub
    clear hk hsub
    unfold State.faultClear
    repeat' first
      | with_reducible exact Only.refl _ _
      | with_reducible apply State.setFaults_only
      | refine Fld.yes rfl

theorem State.faultEnter_only {fl : List Fld} {sa s : State} {b : Nat} {e : FqEntry}
    (hk : Only fl sa s) (hsub : Fld.sub [.regs_, .ctrs_, .fq_, .fns_, .out_] fl = true) : Only fl sa (State.faultEnter s b e) := by
    refine Only.seq (l := [.regs_, .ctrs_, .fq_, .fns_, .out_]) hk ?_ hsub
    clear hk hsub
    unfold State.faultEnter
    repeat' first
      | with_reducible exact Only.refl _ _
      | with_reducible apply State.orReg_only
      | with_reducible apply State.bump_only
      | with_reducible apply State.msix_only
      | with_reducible apply State.setFaults_only
      | with_reducible apply Only.ite
      | refine Fld.yes rfl

theorem State.faultPop_only {fl : List Fld} {sa s : State} {b : Nat}
    (hk : Only fl sa s) (hsub : Fld.sub [.fq_] fl = true) : Only fl sa (State.faultPop s b) := by
    refine Only.seq (l := [.fq_]) hk ?_ hsub
    clear hk hsub
    unfold State.faultPop
    repeat' first
      | with_reducible exact Only.refl _ _
      | with_reducible apply State.setFaults_only
      | refine Fld.yes rfl
      | (extract_lets +onlyGivenNames zz; try clear_value zz; revert zz; intros)
      | split

theorem State.walkAll_only {fl : List Fld} {sa s : State} {u : Nat} {b : Nat} {va : Nat} {writes : Bool}
    (hk : Only fl sa s) (hsub : Fld.sub [.wcache_, .fwNeed_, .freeCtr_] fl = true) : Only fl sa (State.walkAll s u b va writes).1 := by
    refine Only.seq (l := [.wcache_, .fwNeed_, .freeCtr_]) hk ?_ hsub
    clear hk hsub
    unfold State.walkAll
    repeat' first
      | with_reducible exact Only.refl _ _
      | with_reducible apply State.walkOn_only
      | refine Fld.yes rfl
      | split

end Sys2Proof.Machine
end

