-- ==== Sys2Proof/Laws/FrameFwMem.lean ====
section
/-! SUPPORT. Which fields of the state each operation of Sys2Proof/Machine/FwMem.lean can change. -/

namespace Sys2Proof.Machine

set_option linter.all false
set_option Elab.async false

theorem State.walkUe_only {fl : List Fld} {sa s : State} {b : Nat} {fa : Nat} {va : Nat} {level : Nat}
    (hk : Only fl sa s) (hsub : Fld.sub [.regs_, .ctrs_, .tiles_, .cues_, .reqs_, .loom_, .ctxs_, .fns_, .hostReads_, .fwGot_, .fwHeld_, .sec_, .fw_, .inc_, .out_] fl = true) : Only fl sa (State.walkUe s b fa va level) := by
    refine Only.seq (l := [.regs_, .ctrs_, .tiles_, .cues_, .reqs_, .loom_, .ctxs_, .fns_, .hostReads_, .fwGot_, .fwHeld_, .sec_, .fw_, .inc_, .out_]) hk ?_ hsub
    clear hk hsub
    unfold State.walkUe
    repeat' first
      | with_reducible exact Only.refl _ _
      | with_reducible apply State.raise_only
      | refine Fld.yes rfl

theorem Got.raise_only {fl : List Fld} {sa s : State} {α : Type} {g : Got α} {b : Nat}
    (hk : Only fl sa s) (hsub : Fld.sub [.regs_, .ctrs_, .tiles_, .cues_, .reqs_, .loom_, .ctxs_, .fns_, .hostReads_, .fwGot_, .fwHeld_, .sec_, .fw_, .inc_, .out_] fl = true) : Only fl sa (Got.raise g s b) := by
    refine Only.seq (l := [.regs_, .ctrs_, .tiles_, .cues_, .reqs_, .loom_, .ctxs_, .fns_, .hostReads_, .fwGot_, .fwHeld_, .sec_, .fw_, .inc_, .out_]) hk ?_ hsub
    clear hk hsub
    unfold Got.raise
    repeat' first
      | with_reducible exact Only.refl _ _
      | with_reducible apply State.walkUe_only
      | with_reducible apply State.raiseUe_only
      | refine Fld.yes rfl
      | split

theorem State.fwWalk_only {fl : List Fld} {sa s : State} {b : Nat} {va : Nat} {wr : Bool}
    (hk : Only fl sa s) (hsub : Fld.sub [.ctrs_, .tcache_, .wcache_, .fwNeed_, .freeCtr_] fl = true) : Only fl sa (State.fwWalk s b va wr).1 := by
    refine Only.seq (l := [.ctrs_, .tcache_, .wcache_, .fwNeed_, .freeCtr_]) hk ?_ hsub
    clear hk hsub
    unfold State.fwWalk
    repeat' first
      | with_reducible exact Only.refl _ _
      | with_reducible assumption
      | with_reducible apply State.tcFill_only
      | with_reducible apply State.walkOn_only
      | with_reducible apply State.bump_only
      | refine Fld.yes rfl
      | (extract_lets +onlyGivenNames zz; refine Only.have_ (u := zz) ?_ (fun _ => ?_); rotate_left; try clear_value zz; revert zz; intros; rotate_right; dsimp -zeta only [zz]; clear zz)
      | (extract_lets +onlyGivenNames zz; refine Only.have_ (u := zz.1) ?_ (fun _ => ?_); rotate_left; try clear_value zz; revert zz; intros; rotate_right; dsimp -zeta only [zz]; clear zz)
      | split

theorem State.fwXlt_only {fl : List Fld} {sa s : State} {b : Nat} {va : Nat} {wr : Bool}
    (hk : Only fl sa s) (hsub : Fld.sub [.ctrs_, .tcache_, .wcache_, .fwNeed_, .freeCtr_] fl = true) : Only fl sa (State.fwXlt s b va wr).1 := by
    refine Only.seq (l := [.ctrs_, .tcache_, .wcache_, .fwNeed_, .freeCtr_]) hk ?_ hsub
    clear hk hsub
    unfold State.fwXlt
    repeat' first
      | with_reducible exact Only.refl _ _
      | with_reducible apply State.fwWalk_only
      | refine Fld.yes rfl
      | split

theorem State.allHbm_only {fl : List Fld} {sa s : State} {b : Nat} {y2 : Nat} {y3 : Nat} {y4 : Nat}
    (hk : Only fl sa s) (hsub : Fld.sub [.ctrs_, .tcache_, .wcache_, .fwNeed_, .freeCtr_] fl = true) : Only fl sa (State.allHbm s b y2 y3 y4).1 := by
    refine Only.seq (l := [.ctrs_, .tcache_, .wcache_, .fwNeed_, .freeCtr_]) hk ?_ hsub
    clear hk hsub
    fun_induction State.allHbm s b y2 y3 y4
    all_goals
      repeat' first
        | with_reducible exact Only.refl _ _
        | with_reducible apply State.fwXlt_only
        | with_reducible refine Only.seq (l := [.ctrs_, .tcache_, .wcache_, .fwNeed_, .freeCtr_]) ?_ (by assumption) rfl
        | refine Fld.yes rfl

theorem State.fwLoad_only {fl : List Fld} {sa s : State} {who : FwWho} {b : Nat} {l : Leaf} {va : Nat} {k : Nat}
    (hk : Only fl sa s) (hsub : Fld.sub [.metaCache_, .sideArea_, .fwNeed_, .sec_] fl = true) : Only fl sa (State.fwLoad s who b l va k).1 := by
    refine Only.seq (l := [.metaCache_, .sideArea_, .fwNeed_, .sec_]) hk ?_ hsub
    clear hk hsub
    unfold State.fwLoad
    repeat' first
      | with_reducible exact Only.refl _ _
      | with_reducible apply State.fwFar_only
      | with_reducible apply State.readMeta_only
      | refine Fld.yes rfl
      | (extract_lets +onlyGivenNames zz; try clear_value zz; revert zz; intros)
      | split

theorem State.fwGather_only {fl : List Fld} {sa s : State} {who : FwWho} {b : Nat} {y3 : Nat} {y4 : Nat} {y5 : Nat}
    (hk : Only fl sa s) (hsub : Fld.sub [.ctrs_, .metaCache_, .sideArea_, .tcache_, .wcache_, .fwNeed_, .sec_, .freeCtr_] fl = true) : Only fl sa (State.fwGather s who b y3 y4 y5).1 := by
    refine Only.seq (l := [.ctrs_, .metaCache_, .sideArea_, .tcache_, .wcache_, .fwNeed_, .sec_, .freeCtr_]) hk ?_ hsub
    clear hk hsub
    fun_induction State.fwGather s who b y3 y4 y5
    all_goals
      repeat' first
        | with_reducible exact Only.refl _ _
        | with_reducible apply State.fwLoad_only
        | with_reducible apply State.fwXlt_only
        | with_reducible refine Only.seq (l := [.ctrs_, .metaCache_, .sideArea_, .tcache_, .wcache_, .fwNeed_, .sec_, .freeCtr_]) ?_ (by assumption) rfl
        | refine Fld.yes rfl

theorem State.fwStore_only {fl : List Fld} {sa s : State} {who : FwWho} {b : Nat} {l : Leaf} {va : Nat} {data : List Sys2Proof.Byte}
    (hk : Only fl sa s) (hsub : Fld.sub [.regs_, .ctrs_, .tiles_, .hbm_, .cxl_, .hbmUe_, .metaCache_, .sideArea_, .cues_, .reqs_, .nextTag_, .loom_, .ctxs_, .fns_, .hostReads_, .fwNeed_, .fwGot_, .fwHeld_, .sec_, .fw_, .inc_, .twin_, .out_] fl = true) : Only fl sa (State.fwStore s who b l va data).1 := by
    refine Only.seq (l := [.regs_, .ctrs_, .tiles_, .hbm_, .cxl_, .hbmUe_, .metaCache_, .sideArea_, .cues_, .reqs_, .nextTag_, .loom_, .ctxs_, .fns_, .hostReads_, .fwNeed_, .fwGot_, .fwHeld_, .sec_, .fw_, .inc_, .twin_, .out_]) hk ?_ hsub
    clear hk hsub
    unfold State.fwStore
    repeat' first
      | with_reducible exact Only.refl _ _
      | with_reducible assumption
      | with_reducible apply State.fwFar_only
      | with_reducible apply State.hostWrite_only
      | with_reducible apply State.poke_only
      | refine Fld.yes rfl
      | (extract_lets +onlyGivenNames zz; refine Only.have_ (u := zz.1) ?_ (fun _ => ?_); rotate_left; try clear_value zz; revert zz; intros; rotate_right; dsimp -zeta only [zz]; clear zz)
      | (extract_lets +onlyGivenNames zz; try clear_value zz; revert zz; intros)
      | split

theorem State.fwScatter_only {fl : List Fld} {sa s : State} {who : FwWho} {b : Nat} {y3 : Nat} {y4 : Nat} {y5 : List Sys2Proof.Byte}
    (hk : Only fl sa s) (hsub : Fld.sub [.regs_, .ctrs_, .tiles_, .hbm_, .cxl_, .hbmUe_, .metaCache_, .sideArea_, .tcache_, .wcache_, .cues_, .reqs_, .nextTag_, .loom_, .ctxs_, .fns_, .hostReads_, .fwNeed_, .fwGot_, .fwHeld_, .sec_, .fw_, .inc_, .twin_, .freeCtr_, .out_] fl = true) : Only fl sa (State.fwScatter s who b y3 y4 y5).1 := by
    refine Only.seq (l := [.regs_, .ctrs_, .tiles_, .hbm_, .cxl_, .hbmUe_, .metaCache_, .sideArea_, .tcache_, .wcache_, .cues_, .reqs_, .nextTag_, .loom_, .ctxs_, .fns_, .hostReads_, .fwNeed_, .fwGot_, .fwHeld_, .sec_, .fw_, .inc_, .twin_, .freeCtr_, .out_]) hk ?_ hsub
    clear hk hsub
    fun_induction State.fwScatter s who b y3 y4 y5
    all_goals
      repeat' first
        | with_reducible exact Only.refl _ _
        | with_reducible apply State.fwStore_only
        | with_reducible apply State.fwXlt_only
        | with_reducible refine Only.seq (l := [.regs_, .ctrs_, .tiles_, .hbm_, .cxl_, .hbmUe_, .metaCache_, .sideArea_, .tcache_, .wcache_, .cues_, .reqs_, .nextTag_, .loom_, .ctxs_, .fns_, .hostReads_, .fwNeed_, .fwGot_, .fwHeld_, .sec_, .fw_, .inc_, .twin_, .freeCtr_, .out_]) ?_ (by assumption) rfl
        | refine Fld.yes rfl

theorem State.forgetRange_only {fl : List Fld} {sa s : State} {sp : Nat} {off : Nat} {len : Nat}
    (hk : Only fl sa s) (hsub : Fld.sub [.tiles_, .hbm_, .cxl_, .freeCtr_] fl = true) : Only fl sa (State.forgetRange s sp off len) := by
    refine Only.seq (l := [.tiles_, .hbm_, .cxl_, .freeCtr_]) hk ?_ hsub
    clear hk hsub
    unfold State.forgetRange
    repeat' first
      | with_reducible exact Only.refl _ _
      | with_reducible assumption
      | with_reducible apply State.updTile_only
      | with_reducible apply State.draw_only
      | refine Fld.yes rfl
      | (extract_lets +onlyGivenNames zz; refine Only.have_ (u := zz) ?_ (fun _ => ?_); rotate_left; try clear_value zz; revert zz; intros; rotate_right; dsimp -zeta only [zz]; clear zz)
      | (extract_lets +onlyGivenNames zz; refine Only.have_ (u := zz.1) ?_ (fun _ => ?_); rotate_left; try clear_value zz; revert zz; intros; rotate_right; dsimp -zeta only [zz]; clear zz)
      | split
      | refine Only.upd ?_ rfl rfl

theorem State.fwForget_only {fl : List Fld} {sa s : State} {b : Nat} {y2 : Nat} {y3 : Nat} {y4 : Nat}
    (hk : Only fl sa s) (hsub : Fld.sub [.ctrs_, .tiles_, .hbm_, .cxl_, .tcache_, .wcache_, .fwNeed_, .freeCtr_] fl = true) : Only fl sa (State.fwForget s b y2 y3 y4) := by
    refine Only.seq (l := [.ctrs_, .tiles_, .hbm_, .cxl_, .tcache_, .wcache_, .fwNeed_, .freeCtr_]) hk ?_ hsub
    clear hk hsub
    fun_induction State.fwForget s b y2 y3 y4
    all_goals
      repeat' first
        | with_reducible exact Only.refl _ _
        | with_reducible apply State.forgetRange_only
        | with_reducible apply State.fwXlt_only
        | with_reducible apply Only.ite
        | with_reducible refine Only.seq (l := [.ctrs_, .tiles_, .hbm_, .cxl_, .tcache_, .wcache_, .fwNeed_, .freeCtr_]) ?_ (by assumption) rfl
        | refine Fld.yes rfl

theorem State.fwRanges_only {fl : List Fld} {sa s : State} {b : Nat} {y2 : List (Nat × Nat)}
    (hk : Only fl sa s) (hsub : Fld.sub [.ctrs_, .metaCache_, .sideArea_, .tcache_, .wcache_, .fwNeed_, .sec_, .freeCtr_] fl = true) : Only fl sa (State.fwRanges s b y2).1 := by
    refine Only.seq (l := [.ctrs_, .metaCache_, .sideArea_, .tcache_, .wcache_, .fwNeed_, .sec_, .freeCtr_]) hk ?_ hsub
    clear hk hsub
    fun_induction State.fwRanges s b y2
    all_goals
      repeat' first
        | with_reducible exact Only.refl _ _
        | with_reducible apply State.fwGather_only
        | with_reducible refine Only.seq (l := [.ctrs_, .metaCache_, .sideArea_, .tcache_, .wcache_, .fwNeed_, .sec_, .freeCtr_]) ?_ (by assumption) rfl
        | refine Fld.yes rfl

end Sys2Proof.Machine
end

