-- ==== Sys2Proof/Laws/FramePowerOps.lean ====
section
/-! SUPPORT. Which fields of the state each operation of Sys2Proof/Machine/PowerOps.lean can change. -/

namespace Sys2Proof.Machine

set_option linter.all false
set_option Elab.async false

theorem State.setPanel_only {fl : List Fld} {sa s : State} {p : Nat} {v : PanelPwr}
    (hk : Only fl sa s) (hsub : Fld.sub [.power_] fl = true) : Only fl sa (State.setPanel s p v) := by
    refine Only.seq (l := [.power_]) hk ?_ hsub
    clear hk hsub
    unfold State.setPanel
    repeat' first
      | with_reducible exact Only.refl _ _
      | (extract_lets +onlyGivenNames zz; try clear_value zz; revert zz; intros)
      | refine Only.upd ?_ rfl rfl

theorem State.updateFloors_only {fl : List Fld} {sa s : State} 
    (hk : Only fl sa s) (hsub : Fld.sub [.power_] fl = true) : Only fl sa (State.updateFloors s) := by
    refine Only.seq (l := [.power_]) hk ?_ hsub
    clear hk hsub
    unfold State.updateFloors
    repeat' first
      | with_reducible exact Only.refl _ _
      | with_reducible assumption
      | with_reducible apply State.setPanel_only
      | with_reducible apply Only.foldl
      | intro _ _ _
      | refine Fld.yes rfl

theorem State.resetShares_only {fl : List Fld} {sa s : State} {b : Nat}
    (hk : Only fl sa s) (hsub : Fld.sub [.power_] fl = true) : Only fl sa (State.resetShares s b) := by
    refine Only.seq (l := [.power_]) hk ?_ hsub
    clear hk hsub
    unfold State.resetShares
    repeat' first
      | with_reducible exact Only.refl _ _
      | (extract_lets +onlyGivenNames zz; try clear_value zz; revert zz; intros)
      | split
      | refine Only.upd ?_ rfl rfl

end Sys2Proof.Machine
end

