-- ==== Sys2Proof/Laws/FrameDrainOps.lean ====
section
/-! SUPPORT. Which fields of the state each operation of Sys2Proof/Machine/DrainOps.lean can change. -/

namespace Sys2Proof.Machine

set_option linter.all false
set_option Elab.async false

/-- Fields that operations of this file change. -/
def Fld.ofDrainOps1 : List Fld :=
  [.regs_, .ctrs_, .tiles_, .hbm_, .cxl_, .hbmUe_, .metaCache_, .sideArea_, .tcache_, .wcache_, .cues_, .ports_,
   .sess_, .sessIn_, .reqs_, .nextTag_, .loom_, .queues_, .fences_, .objs_, .freed_, .ctxs_, .fns_, .hostReads_,
   .fwNeed_, .fwGot_, .fwHeld_, .casts_, .serve_, .power_, .sec_, .fw_, .inc_, .twin_, .freeCtr_, .out_]

theorem State.setServe_only {fl : List Fld} {sa s : State} {b : Nat} {v : Serve}
    (hk : Only fl sa s) (hsub : Fld.sub [.serve_] fl = true) : Only fl sa (State.setServe s b v) := by
    refine Only.seq (l := [.serve_]) hk ?_ hsub
    clear hk hsub
    unfold State.setServe
    repeat' first
      | with_reducible exact Only.refl _ _
      | refine Only.upd ?_ rfl rfl

theorem State.ctxLeave_only {fl : List Fld} {sa s : State} {b : Nat} {cause : Nat}
    (hk : Only fl sa s) (hsub : Fld.sub [.regs_, .ctrs_, .tiles_, .cues_, .ports_, .sess_, .sessIn_, .reqs_, .nextTag_, .loom_, .objs_, .freed_, .ctxs_, .fns_, .hostReads_, .fwGot_, .fwHeld_, .power_, .sec_, .fw_, .inc_, .out_] fl = true) : Only fl sa (State.ctxLeave s b cause) := by
    refine Only.seq (l := [.regs_, .ctrs_, .tiles_, .cues_, .ports_, .sess_, .sessIn_, .reqs_, .nextTag_, .loom_, .objs_, .freed_, .ctxs_, .fns_, .hostReads_, .fwGot_, .fwHeld_, .power_, .sec_, .fw_, .inc_, .out_]) hk ?_ hsub
    clear hk hsub
    unfold State.ctxLeave
    repeat' first
      | with_reducible exact Only.refl _ _
      | with_reducible apply State.setCtxMode_only
      | with_reducible apply State.updateFloors_only
      | with_reducible apply State.updCtx_only
      | with_reducible apply State.mapTiles_only
      | with_reducible apply State.closeSessions_only
      | with_reducible apply State.dropRef_only
      | refine Fld.yes rfl

theorem State.tileImage_only {fl : List Fld} {sa s : State} {keep : Bool} {t : Nat}
    (hk : Only fl sa s) (hsub : Fld.sub [.freeCtr_] fl = true) : Only fl sa (State.tileImage s keep t).1 := by
    refine Only.seq (l := [.freeCtr_]) hk ?_ hsub
    clear hk hsub
    unfold State.tileImage
    repeat' first
      | with_reducible exact Only.refl _ _
      | (extract_lets +onlyGivenNames zz; try clear_value zz; revert zz; intros)
      | dsimp -zeta only
      | split
      | refine Only.upd ?_ rfl rfl

theorem State.saveTiles_only {fl : List Fld} {sa s : State} {b : Nat} {num : Nat → Nat} {keep : Nat → Bool}
    (hk : Only fl sa s) (hsub : Fld.sub [.ctrs_, .tiles_, .hbm_, .cxl_, .tcache_, .wcache_, .fwNeed_, .freeCtr_] fl = true) : Only fl sa (State.saveTiles s b num keep).1 := by
    refine Only.seq (l := [.ctrs_, .tiles_, .hbm_, .cxl_, .tcache_, .wcache_, .fwNeed_, .freeCtr_]) hk ?_ hsub
    clear hk hsub
    unfold State.saveTiles
    repeat' first
      | with_reducible exact Only.refl _ _
      | with_reducible assumption
      | with_reducible apply State.fwForget_only
      | with_reducible apply State.tileImage_only
      | with_reducible apply Only.foldlP
      | intro _ _ _
      | refine Fld.yes rfl

theorem State.endServing_only {fl : List Fld} {sa s : State} {b : Nat}
    (hk : Only fl sa s) (hsub : Fld.sub [.casts_, .serve_] fl = true) : Only fl sa (State.endServing s b) := by
    refine Only.seq (l := [.casts_, .serve_]) hk ?_ hsub
    clear hk hsub
    unfold State.endServing
    repeat' first
      | with_reducible exact Only.refl _ _
      | with_reducible assumption
      | with_reducible apply State.setServe_only
      | refine Fld.yes rfl
      | (extract_lets +onlyGivenNames zz; refine Only.have_ (u := zz) ?_ (fun _ => ?_); rotate_left; try clear_value zz; revert zz; intros; rotate_right; dsimp -zeta only [zz]; clear zz)
      | (extract_lets +onlyGivenNames zz; try clear_value zz; revert zz; intros)
      | refine Only.upd ?_ rfl rfl

theorem State.drainAnswer_only {fl : List Fld} {sa s : State} {b : Nat} {d : DrainSt} {status : Nat}
    (hk : Only fl sa s) (hsub : Fld.sub [.regs_, .ctrs_, .tiles_, .hbm_, .cxl_, .hbmUe_, .metaCache_, .sideArea_, .cues_, .reqs_, .nextTag_, .loom_, .queues_, .fences_, .objs_, .freed_, .ctxs_, .fns_, .hostReads_, .fwGot_, .fwHeld_, .sec_, .fw_, .inc_, .twin_, .out_] fl = true) : Only fl sa (State.drainAnswer s b d status) := by
    refine Only.seq (l := [.regs_, .ctrs_, .tiles_, .hbm_, .cxl_, .hbmUe_, .metaCache_, .sideArea_, .cues_, .reqs_, .nextTag_, .loom_, .queues_, .fences_, .objs_, .freed_, .ctxs_, .fns_, .hostReads_, .fwGot_, .fwHeld_, .sec_, .fw_, .inc_, .twin_, .out_]) hk ?_ hsub
    clear hk hsub
    unfold State.drainAnswer
    repeat' first
      | with_reducible exact Only.refl _ _
      | with_reducible assumption
      | with_reducible apply State.complete_only
      | with_reducible apply State.lateReply_only
      | with_reducible apply Only.foldl
      | intro _ _ _
      | refine Fld.yes rfl
      | (extract_lets +onlyGivenNames zz; try clear_value zz; revert zz; intros)
      | split

theorem State.drainFinish_only {fl : List Fld} {sa s : State} {b : Nat} {num : Nat → Nat} {keep : Nat → Bool}
    (hk : Only fl sa s) (hsub : Fld.sub Fld.ofDrainOps1 fl = true) : Only fl sa (State.drainFinish s b num keep) := by
    refine Only.seq (l := Fld.ofDrainOps1) hk ?_ hsub
    clear hk hsub
    unfold State.drainFinish
    repeat' first
      | with_reducible exact Only.refl _ _
      | with_reducible assumption
      | with_reducible apply State.drainAnswer_only
      | with_reducible apply State.clrReg_only
      | with_reducible apply State.orReg_only
      | with_reducible apply State.ctxLeave_only
      | with_reducible apply State.endServing_only
      | with_reducible apply State.endStep_only
      | with_reducible apply State.updCtx_only
      | with_reducible apply State.setServe_only
      | with_reducible apply State.saveTiles_only
      | with_reducible apply State.disarmBolt_only
      | with_reducible apply Only.ite
      | refine Fld.yes rfl
      | (extract_lets +onlyGivenNames zz; refine Only.have_ (u := zz) ?_ (fun _ => ?_); rotate_left; try clear_value zz; revert zz; intros; rotate_right; dsimp -zeta only [zz]; clear zz)
      | (extract_lets +onlyGivenNames zz; refine Only.have_ (u := zz.1) ?_ (fun _ => ?_); rotate_left; try clear_value zz; revert zz; intros; rotate_right; dsimp -zeta only [zz]; clear zz)
      | (extract_lets +onlyGivenNames zz; try clear_value zz; revert zz; intros)
      | split

theorem State.drainFail_only {fl : List Fld} {sa s : State} {b : Nat} {held : Nat}
    (hk : Only fl sa s) (hsub : Fld.sub [.regs_, .ctrs_, .tiles_, .hbm_, .cxl_, .hbmUe_, .metaCache_, .sideArea_, .cues_, .reqs_, .nextTag_, .loom_, .queues_, .fences_, .objs_, .freed_, .ctxs_, .fns_, .hostReads_, .fwGot_, .fwHeld_, .sec_, .fw_, .inc_, .twin_, .out_] fl = true) : Only fl sa (State.drainFail s b held) := by
    refine Only.seq (l := [.regs_, .ctrs_, .tiles_, .hbm_, .cxl_, .hbmUe_, .metaCache_, .sideArea_, .cues_, .reqs_, .nextTag_, .loom_, .queues_, .fences_, .objs_, .freed_, .ctxs_, .fns_, .hostReads_, .fwGot_, .fwHeld_, .sec_, .fw_, .inc_, .twin_, .out_]) hk ?_ hsub
    clear hk hsub
    unfold State.drainFail
    repeat' first
      | with_reducible exact Only.refl _ _
      | with_reducible assumption
      | with_reducible apply State.drainAnswer_only
      | with_reducible apply State.raise_only
      | with_reducible apply State.updCtx_only
      | with_reducible apply State.clrReg_only
      | with_reducible apply State.orReg_only
      | refine Fld.yes rfl
      | (extract_lets +onlyGivenNames zz; refine Only.have_ (u := zz) ?_ (fun _ => ?_); rotate_left; try clear_value zz; revert zz; intros; rotate_right; dsimp -zeta only [zz]; clear zz)
      | split

theorem State.drainHeld_only {fl : List Fld} {sa s : State} {b : Nat}
    (hk : Only fl sa s) (hsub : Fld.sub [.regs_, .ctrs_, .tiles_, .hbm_, .cxl_, .hbmUe_, .metaCache_, .sideArea_, .cues_, .reqs_, .nextTag_, .loom_, .queues_, .fences_, .objs_, .freed_, .ctxs_, .fns_, .hostReads_, .fwGot_, .fwHeld_, .sec_, .fw_, .inc_, .twin_, .out_] fl = true) : Only fl sa (State.drainHeld s b) := by
    refine Only.seq (l := [.regs_, .ctrs_, .tiles_, .hbm_, .cxl_, .hbmUe_, .metaCache_, .sideArea_, .cues_, .reqs_, .nextTag_, .loom_, .queues_, .fences_, .objs_, .freed_, .ctxs_, .fns_, .hostReads_, .fwGot_, .fwHeld_, .sec_, .fw_, .inc_, .twin_, .out_]) hk ?_ hsub
    clear hk hsub
    unfold State.drainHeld
    repeat' first
      | with_reducible exact Only.refl _ _
      | with_reducible apply State.drainFail_only
      | with_reducible apply Only.ite
      | refine Fld.yes rfl
      | split

theorem State.withdraw_only {fl : List Fld} {sa s : State} {b : Nat} {save : Bool} {r : StepRec}
    (hk : Only fl sa s) (hsub : Fld.sub [.regs_, .ctrs_, .tiles_, .hbm_, .cxl_, .hbmUe_, .metaCache_, .sideArea_, .cues_, .reqs_, .nextTag_, .loom_, .queues_, .ctxs_, .fns_, .hostReads_, .fwGot_, .fwHeld_, .sec_, .fw_, .inc_, .twin_, .out_] fl = true) : Only fl sa (State.withdraw s b save r) := by
    refine Only.seq (l := [.regs_, .ctrs_, .tiles_, .hbm_, .cxl_, .hbmUe_, .metaCache_, .sideArea_, .cues_, .reqs_, .nextTag_, .loom_, .queues_, .ctxs_, .fns_, .hostReads_, .fwGot_, .fwHeld_, .sec_, .fw_, .inc_, .twin_, .out_]) hk ?_ hsub
    clear hk hsub
    unfold State.withdraw
    repeat' first
      | with_reducible exact Only.refl _ _
      | with_reducible apply State.setQueue_only
      | with_reducible apply State.writeCompletion_only
      | with_reducible apply State.disarmStep_only
      | with_reducible apply State.removeStep_only
      | refine Fld.yes rfl

theorem State.drainStart_only {fl : List Fld} {sa s : State} {b : Nat} {save : Bool} {calls : List (Nat × Nat)} {ses : List Nat}
    (hk : Only fl sa s) (hsub : Fld.sub [.regs_, .ctrs_, .tiles_, .hbm_, .cxl_, .hbmUe_, .metaCache_, .sideArea_, .cues_, .reqs_, .nextTag_, .loom_, .queues_, .fences_, .objs_, .freed_, .ctxs_, .fns_, .hostReads_, .fwGot_, .fwHeld_, .sec_, .fw_, .inc_, .twin_, .out_] fl = true) : Only fl sa (State.drainStart s b save calls ses) := by
    refine Only.seq (l := [.regs_, .ctrs_, .tiles_, .hbm_, .cxl_, .hbmUe_, .metaCache_, .sideArea_, .cues_, .reqs_, .nextTag_, .loom_, .queues_, .fences_, .objs_, .freed_, .ctxs_, .fns_, .hostReads_, .fwGot_, .fwHeld_, .sec_, .fw_, .inc_, .twin_, .out_]) hk ?_ hsub
    clear hk hsub
    unfold State.drainStart
    repeat' first
      | with_reducible exact Only.refl _ _
      | with_reducible assumption
      | with_reducible apply State.drainFail_only
      | with_reducible apply State.withdraw_only
      | with_reducible apply State.orReg_only
      | with_reducible apply State.voidSteps_only
      | with_reducible apply State.setCtxMode_only
      | with_reducible apply State.updCtx_only
      | with_reducible apply Only.ite
      | with_reducible apply Only.foldl
      | intro _ _ _
      | refine Fld.yes rfl
      | (extract_lets +onlyGivenNames zz; refine Only.have_ (u := zz) ?_ (fun _ => ?_); rotate_left; try clear_value zz; revert zz; intros; rotate_right; dsimp -zeta only [zz]; clear zz)
      | split

theorem State.drainRequest_only {fl : List Fld} {sa s : State} {b : Nat} {save : Bool} {ses : List Nat}
    (hk : Only fl sa s) (hsub : Fld.sub [.regs_, .ctrs_, .tiles_, .hbm_, .cxl_, .hbmUe_, .metaCache_, .sideArea_, .cues_, .reqs_, .nextTag_, .loom_, .queues_, .fences_, .objs_, .freed_, .ctxs_, .fns_, .hostReads_, .fwGot_, .fwHeld_, .sec_, .fw_, .inc_, .twin_, .out_] fl = true) : Only fl sa (State.drainRequest s b save ses) := by
    refine Only.seq (l := [.regs_, .ctrs_, .tiles_, .hbm_, .cxl_, .hbmUe_, .metaCache_, .sideArea_, .cues_, .reqs_, .nextTag_, .loom_, .queues_, .fences_, .objs_, .freed_, .ctxs_, .fns_, .hostReads_, .fwGot_, .fwHeld_, .sec_, .fw_, .inc_, .twin_, .out_]) hk ?_ hsub
    clear hk hsub
    unfold State.drainRequest
    repeat' first
      | with_reducible exact Only.refl _ _
      | with_reducible assumption
      | with_reducible apply State.drainAnswer_only
      | with_reducible apply State.orReg_only
      | with_reducible apply State.boltEvent_only
      | with_reducible apply State.drainStart_only
      | refine Fld.yes rfl
      | (extract_lets +onlyGivenNames zz; refine Only.have_ (u := zz) ?_ (fun _ => ?_); rotate_left; try clear_value zz; revert zz; intros; rotate_right; dsimp -zeta only [zz]; clear zz)
      | split

end Sys2Proof.Machine
end

