-- ==== Sys2Proof/Laws/FrameTileOps.lean ====
section
/-! SUPPORT. Which fields of the state each operation of Sys2Proof/Machine/TileOps.lean can change. -/

namespace Sys2Proof.Machine

set_option linter.all false
set_option Elab.async false

theorem State.tileFault_only {fl : List Fld} {sa s : State} {t : Nat} {f : TFault}
    (hk : Only fl sa s) (hsub : Fld.sub [.regs_, .ctrs_, .tiles_, .cues_, .reqs_, .loom_, .ctxs_, .fns_, .hostReads_, .fwGot_, .fwHeld_, .sec_, .fw_, .inc_, .out_] fl = true) : Only fl sa (State.tileFault s t f) := by
    refine Only.seq (l := [.regs_, .ctrs_, .tiles_, .cues_, .reqs_, .loom_, .ctxs_, .fns_, .hostReads_, .fwGot_, .fwHeld_, .sec_, .fw_, .inc_, .out_]) hk ?_ hsub
    clear hk hsub
    unfold State.tileFault
    repeat' first
      | with_reducible exact Only.refl _ _
      | with_reducible apply State.raise_only
      | with_reducible apply State.updTile_only
      | refine Fld.yes rfl

theorem State.semAddAt_only {fl : List Fld} {sa s : State} {t : Nat} {k : Nat} {n : Nat} {origin : Nat}
    (hk : Only fl sa s) (hsub : Fld.sub [.regs_, .ctrs_, .tiles_, .cues_, .reqs_, .loom_, .ctxs_, .fns_, .hostReads_, .fwGot_, .fwHeld_, .sec_, .fw_, .inc_, .out_] fl = true) : Only fl sa (State.semAddAt s t k n origin) := by
    refine Only.seq (l := [.regs_, .ctrs_, .tiles_, .cues_, .reqs_, .loom_, .ctxs_, .fns_, .hostReads_, .fwGot_, .fwHeld_, .sec_, .fw_, .inc_, .out_]) hk ?_ hsub
    clear hk hsub
    unfold State.semAddAt
    repeat' first
      | with_reducible exact Only.refl _ _
      | with_reducible apply State.updTile_only
      | with_reducible apply State.tileFault_only
      | with_reducible apply Only.ite
      | refine Fld.yes rfl

theorem State.peerOf_only {fl : List Fld} {sa s : State} {b : Nat}
    (hk : Only fl sa s) (hsub : Fld.sub [.freeCtr_] fl = true) : Only fl sa (State.peerOf s b).1 := by
    refine Only.seq (l := [.freeCtr_]) hk ?_ hsub
    clear hk hsub
    unfold State.peerOf
    repeat' first
      | with_reducible exact Only.refl _ _
      | with_reducible assumption
      | with_reducible apply State.draw_only
      | refine Fld.yes rfl
      | (extract_lets +onlyGivenNames zz; refine Only.have_ (u := zz.1) ?_ (fun _ => ?_); rotate_left; try clear_value zz; revert zz; intros; rotate_right; dsimp -zeta only [zz]; clear zz)
      | split

theorem State.semSignal_only {fl : List Fld} {sa s : State} {b : Nat} {t : Nat} {tc : Nat} {lt : Nat} {k : Nat} {n : Nat}
    (hk : Only fl sa s) (hsub : Fld.sub [.regs_, .ctrs_, .tiles_, .cues_, .ports_, .sess_, .reqs_, .nextTag_, .loom_, .ctxs_, .fns_, .hostReads_, .fwGot_, .fwHeld_, .sec_, .fw_, .inc_, .freeCtr_, .out_] fl = true) : Only fl sa (State.semSignal s b t tc lt k n) := by
    refine Only.seq (l := [.regs_, .ctrs_, .tiles_, .cues_, .ports_, .sess_, .reqs_, .nextTag_, .loom_, .ctxs_, .fns_, .hostReads_, .fwGot_, .fwHeld_, .sec_, .fw_, .inc_, .freeCtr_, .out_]) hk ?_ hsub
    clear hk hsub
    unfold State.semSignal
    repeat' first
      | with_reducible exact Only.refl _ _
      | with_reducible assumption
      | with_reducible apply State.tileFault_only
      | with_reducible apply State.sendReq_only
      | with_reducible apply State.peerOf_only
      | with_reducible apply State.semAddAt_only
      | with_reducible apply Only.ite
      | refine Fld.yes rfl
      | (extract_lets +onlyGivenNames zz; refine Only.have_ (u := zz.1) ?_ (fun _ => ?_); rotate_left; try clear_value zz; revert zz; intros; rotate_right; dsimp -zeta only [zz]; clear zz)
      | split

theorem State.traceMark_only {fl : List Fld} {sa s : State} {t : Nat} {mark : Nat} {x : Tile}
    (hk : Only fl sa s) (hsub : Fld.sub [.regs_, .ctrs_, .out_] fl = true) : Only fl sa (State.traceMark s t mark x) := by
    refine Only.seq (l := [.regs_, .ctrs_, .out_]) hk ?_ hsub
    clear hk hsub
    unfold State.traceMark
    repeat' first
      | with_reducible exact Only.refl _ _
      | with_reducible apply State.setReg_only
      | with_reducible apply State.hostWrite_only
      | with_reducible apply State.bump_only
      | with_reducible apply Only.ite
      | refine Fld.yes rfl
      | split

end Sys2Proof.Machine
end

