-- ==== Sys2Proof/Laws/FrameTensorOps.lean ====
section
/-! SUPPORT. Which fields of the state each operation of Sys2Proof/Machine/TensorOps.lean can change. -/

namespace Sys2Proof.Machine

set_option linter.all false
set_option Elab.async false

theorem State.forgetDst_only {fl : List Fld} {sa s : State} {t : Nat} {q : QDesc} {b : Nat}
    (hk : Only fl sa s) (hsub : Fld.sub [.tiles_, .hbm_, .cxl_, .freeCtr_] fl = true) : Only fl sa (State.forgetDst s t q b) := by
    refine Only.seq (l := [.tiles_, .hbm_, .cxl_, .freeCtr_]) hk ?_ hsub
    clear hk hsub
    unfold State.forgetDst
    repeat' first
      | with_reducible exact Only.refl _ _
      | with_reducible assumption
      | with_reducible apply State.forgetRange_only
      | with_reducible apply Only.ite
      | with_reducible apply Only.foldl
      | intro _ _ _
      | refine Fld.yes rfl
      | (extract_lets +onlyGivenNames zz; try clear_value zz; revert zz; intros)
      | split

theorem State.shootAcks_only {fl : List Fld} {sa s : State} 
    (hk : Only fl sa s) (hsub : Fld.sub [.regs_, .ctrs_, .tiles_, .inv_, .cues_, .ports_, .sess_, .reqs_, .loom_, .ctxs_, .fns_, .hostReads_, .fwGot_, .fwHeld_, .sec_, .fw_, .inc_, .out_] fl = true) : Only fl sa (State.shootAcks s) := by
    refine Only.seq (l := [.regs_, .ctrs_, .tiles_, .inv_, .cues_, .ports_, .sess_, .reqs_, .loom_, .ctxs_, .fns_, .hostReads_, .fwGot_, .fwHeld_, .sec_, .fw_, .inc_, .out_]) hk ?_ hsub
    clear hk hsub
    unfold State.shootAcks
    repeat' first
      | with_reducible exact Only.refl _ _
      | with_reducible assumption
      | with_reducible apply State.sendRsp_only
      | with_reducible apply Only.ite
      | with_reducible apply Only.foldl
      | intro _ _ _
      | refine Fld.yes rfl
      | (extract_lets +onlyGivenNames zz; try clear_value zz; revert zz; intros)
      | split
      | refine Only.upd ?_ rfl rfl

theorem State.unpin_only {fl : List Fld} {sa s : State} {t : Nat} {k : Nat}
    (hk : Only fl sa s) (hsub : Fld.sub [.regs_, .ctrs_, .tiles_, .inv_, .cues_, .ports_, .sess_, .reqs_, .loom_, .ctxs_, .fns_, .hostReads_, .fwGot_, .fwHeld_, .sec_, .fw_, .inc_, .out_] fl = true) : Only fl sa (State.unpin s t k) := by
    refine Only.seq (l := [.regs_, .ctrs_, .tiles_, .inv_, .cues_, .ports_, .sess_, .reqs_, .loom_, .ctxs_, .fns_, .hostReads_, .fwGot_, .fwHeld_, .sec_, .fw_, .inc_, .out_]) hk ?_ hsub
    clear hk hsub
    unfold State.unpin
    repeat' first
      | with_reducible exact Only.refl _ _
      | with_reducible apply State.shootAcks_only
      | with_reducible apply Only.ite
      | refine Fld.yes rfl
      | (extract_lets +onlyGivenNames zz; try clear_value zz; revert zz; intros)
      | refine Only.upd ?_ rfl rfl

theorem State.popTensor_only {fl : List Fld} {sa s : State} {t : Nat} {k : Nat}
    (hk : Only fl sa s) (hsub : Fld.sub [.regs_, .ctrs_, .tiles_, .inv_, .cues_, .ports_, .sess_, .reqs_, .loom_, .ctxs_, .fns_, .hostReads_, .fwGot_, .fwHeld_, .sec_, .fw_, .inc_, .out_] fl = true) : Only fl sa (State.popTensor s t k) := by
    refine Only.seq (l := [.regs_, .ctrs_, .tiles_, .inv_, .cues_, .ports_, .sess_, .reqs_, .loom_, .ctxs_, .fns_, .hostReads_, .fwGot_, .fwHeld_, .sec_, .fw_, .inc_, .out_]) hk ?_ hsub
    clear hk hsub
    unfold State.popTensor
    repeat' first
      | with_reducible exact Only.refl _ _
      | with_reducible apply State.unpin_only
      | with_reducible apply State.updTile_only
      | refine Fld.yes rfl

theorem State.dropTensorReqs_only {fl : List Fld} {sa s : State} {t : Nat} {k : Nat}
    (hk : Only fl sa s) (hsub : Fld.sub [.mcFlits_, .reqs_, .loom_, .hostReads_] fl = true) : Only fl sa (State.dropTensorReqs s t k) := by
    refine Only.seq (l := [.mcFlits_, .reqs_, .loom_, .hostReads_]) hk ?_ hsub
    clear hk hsub
    unfold State.dropTensorReqs
    repeat' first
      | with_reducible exact Only.refl _ _
      | with_reducible assumption
      | with_reducible apply State.flightSub_only
      | with_reducible apply Only.foldl
      | intro _ _ _
      | refine Fld.yes rfl
      | (extract_lets +onlyGivenNames zz; refine Only.have_ (u := zz) ?_ (fun _ => ?_); rotate_left; try clear_value zz; revert zz; intros; rotate_right; dsimp -zeta only [zz]; clear zz)
      | refine Only.upd ?_ rfl rfl

theorem State.tensorFail_only {fl : List Fld} {sa s : State} {t : Nat} {k : Nat} {q : QDesc} {code : Nat} {a1 : Nat} {a2 : Nat}
    (hk : Only fl sa s) (hsub : Fld.sub [.regs_, .ctrs_, .tiles_, .mcFlits_, .hbm_, .cxl_, .inv_, .cues_, .ports_, .sess_, .reqs_, .loom_, .ctxs_, .fns_, .hostReads_, .fwGot_, .fwHeld_, .sec_, .fw_, .inc_, .freeCtr_, .out_] fl = true) : Only fl sa (State.tensorFail s t k q code a1 a2) := by
    refine Only.seq (l := [.regs_, .ctrs_, .tiles_, .mcFlits_, .hbm_, .cxl_, .inv_, .cues_, .ports_, .sess_, .reqs_, .loom_, .ctxs_, .fns_, .hostReads_, .fwGot_, .fwHeld_, .sec_, .fw_, .inc_, .freeCtr_, .out_]) hk ?_ hsub
    clear hk hsub
    unfold State.tensorFail
    repeat' first
      | with_reducible exact Only.refl _ _
      | with_reducible apply State.dropTensorReqs_only
      | with_reducible apply State.popTensor_only
      | with_reducible apply State.tileFault_only
      | with_reducible apply State.forgetDst_only
      | with_reducible apply State.flightSub_only
      | with_reducible apply Only.ite
      | refine Fld.yes rfl

theorem State.tensorStatus_only {fl : List Fld} {sa s : State} {t : Nat} {k : Nat} {q : QDesc} {st : Nat} {p : Piece} {dst : Bool}
    (hk : Only fl sa s) (hsub : Fld.sub [.regs_, .ctrs_, .tiles_, .mcFlits_, .hbm_, .cxl_, .inv_, .cues_, .ports_, .sess_, .reqs_, .loom_, .ctxs_, .fns_, .hostReads_, .fwGot_, .fwHeld_, .sec_, .fw_, .inc_, .freeCtr_, .out_] fl = true) : Only fl sa (State.tensorStatus s t k q st p dst) := by
    refine Only.seq (l := [.regs_, .ctrs_, .tiles_, .mcFlits_, .hbm_, .cxl_, .inv_, .cues_, .ports_, .sess_, .reqs_, .loom_, .ctxs_, .fns_, .hostReads_, .fwGot_, .fwHeld_, .sec_, .fw_, .inc_, .freeCtr_, .out_]) hk ?_ hsub
    clear hk hsub
    unfold State.tensorStatus
    repeat' first
      | with_reducible exact Only.refl _ _
      | with_reducible assumption
      | with_reducible apply State.raiseUe_only
      | with_reducible apply State.tensorFail_only
      | with_reducible apply Only.ite
      | refine Fld.yes rfl
      | (extract_lets +onlyGivenNames zz; refine Only.have_ (u := zz) ?_ (fun _ => ?_); rotate_left; try clear_value zz; revert zz; intros; rotate_right; dsimp -zeta only [zz]; clear zz)
      | (extract_lets +onlyGivenNames zz; try clear_value zz; revert zz; intros)
      | split

theorem State.walkFail_only {fl : List Fld} {sa s : State} {u : Nat} {b : Nat} {fa : Nat} {st : Nat}
    (hk : Only fl sa s) (hsub : Fld.sub [.regs_, .ctrs_, .tiles_, .mcFlits_, .hbm_, .cxl_, .inv_, .cues_, .ports_, .sess_, .reqs_, .loom_, .ctxs_, .fns_, .hostReads_, .pfWalks_, .fwGot_, .fwHeld_, .sec_, .fw_, .inc_, .freeCtr_, .out_] fl = true) : Only fl sa (State.walkFail s u b fa st) := by
    refine Only.seq (l := [.regs_, .ctrs_, .tiles_, .mcFlits_, .hbm_, .cxl_, .inv_, .cues_, .ports_, .sess_, .reqs_, .loom_, .ctxs_, .fns_, .hostReads_, .pfWalks_, .fwGot_, .fwHeld_, .sec_, .fw_, .inc_, .freeCtr_, .out_]) hk ?_ hsub
    clear hk hsub
    unfold State.walkFail
    repeat' first
      | with_reducible exact Only.refl _ _
      | with_reducible assumption
      | with_reducible apply State.tensorFail_only
      | with_reducible apply State.raise_only
      | with_reducible apply Only.ite
      | with_reducible apply Only.foldl
      | intro _ _ _
      | refine Fld.yes rfl
      | (extract_lets +onlyGivenNames zz; try clear_value zz; revert zz; intros)
      | split
      | refine Only.upd ?_ rfl rfl

theorem State.setTensor_only {fl : List Fld} {sa s : State} {t : Nat} {k : Nat} {q : QDesc}
    (hk : Only fl sa s) (hsub : Fld.sub [.tiles_] fl = true) : Only fl sa (State.setTensor s t k q) := by
    refine Only.seq (l := [.tiles_]) hk ?_ hsub
    clear hk hsub
    unfold State.setTensor
    repeat' first
      | with_reducible exact Only.refl _ _
      | with_reducible apply State.updTile_only
      | refine Fld.yes rfl

theorem State.issuedAll_only {fl : List Fld} {sa s : State} {t : Nat} {k : Nat}
    (hk : Only fl sa s) (hsub : Fld.sub [.tiles_] fl = true) : Only fl sa (State.issuedAll s t k) := by
    refine Only.seq (l := [.tiles_]) hk ?_ hsub
    clear hk hsub
    unfold State.issuedAll
    repeat' first
      | with_reducible exact Only.refl _ _
      | with_reducible apply State.setTensor_only
      | refine Fld.yes rfl
      | split

theorem State.shuttleHold_only {fl : List Fld} {sa s : State} {t : Nat} {k : Nat} {b : Nat} {q : QDesc} {rest : List Piece}
    (hk : Only fl sa s) (hsub : Fld.sub [.ctrs_, .tiles_] fl = true) : Only fl sa (State.shuttleHold s t k b q rest) := by
    refine Only.seq (l := [.ctrs_, .tiles_]) hk ?_ hsub
    clear hk hsub
    unfold State.shuttleHold
    repeat' first
      | with_reducible exact Only.refl _ _
      | with_reducible apply State.bump_only
      | with_reducible apply State.setTensor_only
      | with_reducible apply Only.ite
      | refine Fld.yes rfl

theorem State.sendPieces_only {fl : List Fld} {sa s : State} {t : Nat} {k : Nat} {b : Nat} {q : QDesc} {y5 : List Piece}
    (hk : Only fl sa s) (hsub : Fld.sub [.regs_, .ctrs_, .tiles_, .mcFlits_, .hbm_, .cxl_, .inv_, .cues_, .ports_, .sess_, .reqs_, .nextTag_, .loom_, .ctxs_, .fns_, .hostReads_, .fwGot_, .fwHeld_, .sec_, .fw_, .inc_, .freeCtr_, .out_] fl = true) : Only fl sa (State.sendPieces s t k b q y5).1 := by
    refine Only.seq (l := [.regs_, .ctrs_, .tiles_, .mcFlits_, .hbm_, .cxl_, .inv_, .cues_, .ports_, .sess_, .reqs_, .nextTag_, .loom_, .ctxs_, .fns_, .hostReads_, .fwGot_, .fwHeld_, .sec_, .fw_, .inc_, .freeCtr_, .out_]) hk ?_ hsub
    clear hk hsub
    fun_induction State.sendPieces s t k b q y5
    all_goals
      repeat' first
        | with_reducible exact Only.refl _ _
        | with_reducible assumption
        | with_reducible apply State.tensorStatus_only
        | with_reducible apply State.sendReq_only
        | with_reducible apply State.shuttleHold_only
        | with_reducible apply State.issuedAll_only
        | with_reducible refine Only.seq (l := [.regs_, .ctrs_, .tiles_, .mcFlits_, .hbm_, .cxl_, .inv_, .cues_, .ports_, .sess_, .reqs_, .nextTag_, .loom_, .ctxs_, .fns_, .hostReads_, .fwGot_, .fwHeld_, .sec_, .fw_, .inc_, .freeCtr_, .out_]) ?_ (by assumption) rfl
        | refine Fld.yes rfl

theorem State.fetchPieces_only {fl : List Fld} {sa s : State} {t : Nat} {k : Nat} {b : Nat} {y4 : List Piece}
    (hk : Only fl sa s) (hsub : Fld.sub [.regs_, .ctrs_, .tiles_, .mcFlits_, .hbm_, .cxl_, .metaCache_, .sideArea_, .inv_, .cues_, .ports_, .sess_, .reqs_, .nextTag_, .loom_, .ctxs_, .fns_, .hostReads_, .fwGot_, .fwHeld_, .sec_, .fw_, .inc_, .freeCtr_, .out_] fl = true) : Only fl sa (State.fetchPieces s t k b y4).1 := by
    refine Only.seq (l := [.regs_, .ctrs_, .tiles_, .mcFlits_, .hbm_, .cxl_, .metaCache_, .sideArea_, .inv_, .cues_, .ports_, .sess_, .reqs_, .nextTag_, .loom_, .ctxs_, .fns_, .hostReads_, .fwGot_, .fwHeld_, .sec_, .fw_, .inc_, .freeCtr_, .out_]) hk ?_ hsub
    clear hk hsub
    fun_induction State.fetchPieces s t k b y4
    all_goals
      repeat' first
        | with_reducible exact Only.refl _ _
        | with_reducible apply State.sendReq_only
        | with_reducible apply State.readMeta_only
        | with_reducible apply State.readHost_only
        | with_reducible apply State.tensorStatus_only
        | with_reducible apply State.setTensor_only
        | with_reducible apply State.shuttleHold_only
        | with_reducible apply State.issuedAll_only
        | with_reducible refine Only.seq (l := [.regs_, .ctrs_, .tiles_, .mcFlits_, .hbm_, .cxl_, .metaCache_, .sideArea_, .inv_, .cues_, .ports_, .sess_, .reqs_, .nextTag_, .loom_, .ctxs_, .fns_, .hostReads_, .fwGot_, .fwHeld_, .sec_, .fw_, .inc_, .freeCtr_, .out_]) ?_ (by assumption) rfl
        | refine Fld.yes rfl

theorem State.setRedRun_only {fl : List Fld} {sa s : State} {g : Nat} {v : RedRun}
    (hk : Only fl sa s) (hsub : Fld.sub [.redRun_] fl = true) : Only fl sa (State.setRedRun s g v) := by
    refine Only.seq (l := [.redRun_]) hk ?_ hsub
    clear hk hsub
    unfold State.setRedRun
    repeat' first
      | with_reducible exact Only.refl _ _
      | refine Only.upd ?_ rfl rfl

theorem State.freeChunk_only {fl : List Fld} {sa s : State} {p : Nat} {g : Nat}
    (hk : Only fl sa s) (hsub : Fld.sub [.ctrs_, .ports_, .out_] fl = true) : Only fl sa (State.freeChunk s p g) := by
    refine Only.seq (l := [.ctrs_, .ports_, .out_]) hk ?_ hsub
    clear hk hsub
    unfold State.freeChunk
    repeat' first
      | with_reducible exact Only.refl _ _
      | with_reducible apply State.returnCells_only
      | refine Fld.yes rfl

theorem State.redRefill_only {fl : List Fld} {sa s : State} {g : Nat} {node : Nat}
    (hk : Only fl sa s) (hsub : Fld.sub [.ctrs_, .redIn_, .redStage_, .ports_, .out_] fl = true) : Only fl sa (State.redRefill s g node) := by
    refine Only.seq (l := [.ctrs_, .redIn_, .redStage_, .ports_, .out_]) hk ?_ hsub
    clear hk hsub
    unfold State.redRefill
    repeat' first
      | with_reducible exact Only.refl _ _
      | with_reducible assumption
      | with_reducible apply State.freeChunk_only
      | with_reducible apply Only.ite
      | with_reducible apply Only.foldl
      | intro _ _ _
      | refine Fld.yes rfl
      | (extract_lets +onlyGivenNames zz; refine Only.have_ (u := zz) ?_ (fun _ => ?_); rotate_left; try clear_value zz; revert zz; intros; rotate_right; dsimp -zeta only [zz]; clear zz)
      | (extract_lets +onlyGivenNames zz; try clear_value zz; revert zz; intros)
      | split
      | refine Only.upd ?_ rfl rfl

theorem State.injectRed_only {fl : List Fld} {sa s : State} {t : Nat} {k : Nat} {q : QDesc}
    (hk : Only fl sa s) (hsub : Fld.sub [.ctrs_, .tiles_, .redIn_, .redStage_, .redRun_, .ports_, .loom_, .out_] fl = true) : Only fl sa (State.injectRed s t k q) := by
    refine Only.seq (l := [.ctrs_, .tiles_, .redIn_, .redStage_, .redRun_, .ports_, .loom_, .out_]) hk ?_ hsub
    clear hk hsub
    unfold State.injectRed
    repeat' first
      | with_reducible exact Only.refl _ _
      | with_reducible apply State.redRefill_only
      | with_reducible apply State.setRedRun_only
      | with_reducible apply State.flightAdd_only
      | with_reducible apply State.setTensor_only
      | with_reducible apply Only.ite
      | refine Fld.yes rfl
      | (extract_lets +onlyGivenNames zz; try clear_value zz; revert zz; intros)
      | split
      | refine Only.upd ?_ rfl rfl

theorem State.injectMc_only {fl : List Fld} {sa s : State} {t : Nat} {k : Nat} {q : QDesc}
    (hk : Only fl sa s) (hsub : Fld.sub [.tiles_, .mcFlits_, .loom_] fl = true) : Only fl sa (State.injectMc s t k q) := by
    refine Only.seq (l := [.tiles_, .mcFlits_, .loom_]) hk ?_ hsub
    clear hk hsub
    unfold State.injectMc
    repeat' first
      | with_reducible exact Only.refl _ _
      | with_reducible apply State.flightAdd_only
      | with_reducible apply State.setTensor_only
      | refine Fld.yes rfl
      | (extract_lets +onlyGivenNames zz; try clear_value zz; revert zz; intros)
      | split
      | refine Only.upd ?_ rfl rfl

theorem State.tensorInject_only {fl : List Fld} {sa s : State} {t : Nat} {k : Nat}
    (hk : Only fl sa s) (hsub : Fld.sub [.regs_, .ctrs_, .tiles_, .redIn_, .redStage_, .redRun_, .mcFlits_, .hbm_, .cxl_, .inv_, .cues_, .ports_, .sess_, .reqs_, .nextTag_, .loom_, .ctxs_, .fns_, .hostReads_, .fwGot_, .fwHeld_, .sec_, .fw_, .inc_, .freeCtr_, .out_] fl = true) : Only fl sa (State.tensorInject s t k) := by
    refine Only.seq (l := [.regs_, .ctrs_, .tiles_, .redIn_, .redStage_, .redRun_, .mcFlits_, .hbm_, .cxl_, .inv_, .cues_, .ports_, .sess_, .reqs_, .nextTag_, .loom_, .ctxs_, .fns_, .hostReads_, .fwGot_, .fwHeld_, .sec_, .fw_, .inc_, .freeCtr_, .out_]) hk ?_ hsub
    clear hk hsub
    unfold State.tensorInject
    repeat' first
      | with_reducible exact Only.refl _ _
      | with_reducible apply State.setTensor_only
      | with_reducible apply State.flightAdd_only
      | with_reducible apply State.sendPieces_only
      | with_reducible apply State.injectMc_only
      | with_reducible apply State.injectRed_only
      | with_reducible apply Only.ite
      | refine Fld.yes rfl
      | (extract_lets +onlyGivenNames zz; try clear_value zz; revert zz; intros)
      | split

theorem State.tensorMore_only {fl : List Fld} {sa s : State} {t : Nat} {b : Nat} {k : Nat}
    (hk : Only fl sa s) (hsub : Fld.sub [.regs_, .ctrs_, .tiles_, .redIn_, .redStage_, .redRun_, .mcFlits_, .hbm_, .cxl_, .metaCache_, .sideArea_, .inv_, .cues_, .ports_, .sess_, .reqs_, .nextTag_, .loom_, .ctxs_, .fns_, .hostReads_, .fwGot_, .fwHeld_, .sec_, .fw_, .inc_, .freeCtr_, .out_] fl = true) : Only fl sa (State.tensorMore s t b k) := by
    refine Only.seq (l := [.regs_, .ctrs_, .tiles_, .redIn_, .redStage_, .redRun_, .mcFlits_, .hbm_, .cxl_, .metaCache_, .sideArea_, .inv_, .cues_, .ports_, .sess_, .reqs_, .nextTag_, .loom_, .ctxs_, .fns_, .hostReads_, .fwGot_, .fwHeld_, .sec_, .fw_, .inc_, .freeCtr_, .out_]) hk ?_ hsub
    clear hk hsub
    unfold State.tensorMore
    repeat' first
      | with_reducible exact Only.refl _ _
      | with_reducible apply State.tensorInject_only
      | with_reducible apply State.fetchPieces_only
      | with_reducible apply State.sendPieces_only
      | with_reducible apply Only.ite
      | refine Fld.yes rfl
      | split

theorem State.shuttleGo_only {fl : List Fld} {sa s : State} {t : Nat}
    (hk : Only fl sa s) (hsub : Fld.sub [.regs_, .ctrs_, .tiles_, .redIn_, .redStage_, .redRun_, .mcFlits_, .hbm_, .cxl_, .metaCache_, .sideArea_, .inv_, .cues_, .ports_, .sess_, .reqs_, .nextTag_, .loom_, .ctxs_, .fns_, .hostReads_, .fwGot_, .fwHeld_, .sec_, .fw_, .inc_, .freeCtr_, .out_] fl = true) : Only fl sa (State.shuttleGo s t) := by
    refine Only.seq (l := [.regs_, .ctrs_, .tiles_, .redIn_, .redStage_, .redRun_, .mcFlits_, .hbm_, .cxl_, .metaCache_, .sideArea_, .inv_, .cues_, .ports_, .sess_, .reqs_, .nextTag_, .loom_, .ctxs_, .fns_, .hostReads_, .fwGot_, .fwHeld_, .sec_, .fw_, .inc_, .freeCtr_, .out_]) hk ?_ hsub
    clear hk hsub
    unfold State.shuttleGo
    repeat' first
      | with_reducible exact Only.refl _ _
      | with_reducible assumption
      | with_reducible apply State.tensorMore_only
      | with_reducible apply Only.ite
      | with_reducible apply Only.foldl
      | intro _ _ _
      | refine Fld.yes rfl
      | split

theorem State.ownerGo_only {fl : List Fld} {sa s : State} {o : ReqOwner}
    (hk : Only fl sa s) (hsub : Fld.sub [.regs_, .ctrs_, .tiles_, .redIn_, .redStage_, .redRun_, .mcFlits_, .hbm_, .cxl_, .metaCache_, .sideArea_, .inv_, .cues_, .ports_, .sess_, .reqs_, .nextTag_, .loom_, .ctxs_, .fns_, .hostReads_, .fwGot_, .fwHeld_, .sec_, .fw_, .inc_, .freeCtr_, .out_] fl = true) : Only fl sa (State.ownerGo s o) := by
    refine Only.seq (l := [.regs_, .ctrs_, .tiles_, .redIn_, .redStage_, .redRun_, .mcFlits_, .hbm_, .cxl_, .metaCache_, .sideArea_, .inv_, .cues_, .ports_, .sess_, .reqs_, .nextTag_, .loom_, .ctxs_, .fns_, .hostReads_, .fwGot_, .fwHeld_, .sec_, .fw_, .inc_, .freeCtr_, .out_]) hk ?_ hsub
    clear hk hsub
    unfold State.ownerGo
    repeat' first
      | with_reducible exact Only.refl _ _
      | with_reducible apply State.shuttleGo_only
      | refine Fld.yes rfl
      | split

theorem State.freeStaged_only {fl : List Fld} {sa s : State} {drop : RedInput → Bool}
    (hk : Only fl sa s) (hsub : Fld.sub [.ctrs_, .redStage_, .ports_, .out_] fl = true) : Only fl sa (State.freeStaged s drop) := by
    refine Only.seq (l := [.ctrs_, .redStage_, .ports_, .out_]) hk ?_ hsub
    clear hk hsub
    unfold State.freeStaged
    repeat' first
      | with_reducible exact Only.refl _ _
      | with_reducible assumption
      | with_reducible apply State.freeChunk_only
      | with_reducible apply Only.foldl
      | intro _ _ _
      | refine Fld.yes rfl
      | (extract_lets +onlyGivenNames zz; try clear_value zz; revert zz; intros)
      | split
      | refine Only.upd ?_ rfl rfl

theorem State.writePieces_only {fl : List Fld} {sa s s0 : State} {t b : Nat} {q : QDesc} {mixed : Bool} {draw : Nat}
    {ps : List Piece} (hk : Only fl sa s) (hsub : Fld.sub [.regs_, .ctrs_, .tiles_, .hbm_, .cxl_, .hbmUe_, .metaCache_, .sideArea_, .cues_, .reqs_, .nextTag_, .loom_, .ctxs_, .fns_, .hostReads_, .fwGot_, .fwHeld_, .sec_, .fw_, .inc_, .twin_, .out_] fl = true) :
    Only fl sa (s.writePieces s0 t b q mixed draw ps) := by
  induction ps generalizing s with
  | nil => exact hk
  | cons p ps ih =>
    unfold State.writePieces
    apply ih
    split
    · exact State.poke_only hk (Fld.sub_trans (by decide) hsub)
    · split
      · exact hk
      · split
        · exact State.hostWrite_only hk (Fld.sub_trans (by decide) hsub)
        · exact State.poke_only hk (Fld.sub_trans (by decide) hsub)

theorem State.mapWalks_only {fl : List Fld} {sa s : State} {u : Nat} {f : Walk → Walk}
    (hk : Only fl sa s) (hsub : Fld.sub [.tiles_, .pfWalks_] fl = true) : Only fl sa (State.mapWalks s u f) := by
    refine Only.seq (l := [.tiles_, .pfWalks_]) hk ?_ hsub
    clear hk hsub
    unfold State.mapWalks
    repeat' first
      | with_reducible exact Only.refl _ _
      | (extract_lets +onlyGivenNames zz; have hfn := (zz : _ → _); clear hfn; dsimp -zeta only [zz]; clear zz)
      | refine Only.upd ?_ rfl rfl

theorem State.walkAsk_only {fl : List Fld} {sa s : State} {u : Nat} {b : Nat} {w : Walk}
    (hk : Only fl sa s) (hsub : Fld.sub [.regs_, .ctrs_, .tiles_, .cues_, .ports_, .sess_, .reqs_, .nextTag_, .loom_, .ctxs_, .fns_, .hostReads_, .fwGot_, .fwHeld_, .sec_, .fw_, .inc_, .out_] fl = true) : Only fl sa (State.walkAsk s u b w).1 := by
    refine Only.seq (l := [.regs_, .ctrs_, .tiles_, .cues_, .ports_, .sess_, .reqs_, .nextTag_, .loom_, .ctxs_, .fns_, .hostReads_, .fwGot_, .fwHeld_, .sec_, .fw_, .inc_, .out_]) hk ?_ hsub
    clear hk hsub
    unfold State.walkAsk
    repeat' first
      | with_reducible exact Only.refl _ _
      | with_reducible assumption
      | with_reducible apply State.sendReq_only
      | refine Fld.yes rfl
      | (extract_lets +onlyGivenNames zz; refine Only.have_ (u := zz.1) ?_ (fun _ => ?_); rotate_left; try clear_value zz; revert zz; intros; rotate_right; dsimp -zeta only [zz]; clear zz)
      | split

theorem State.tensorData_only {fl : List Fld} {sa s : State} {t : Nat} {k : Nat} {pos : Nat} {l : List Sys2Proof.Byte}
    (hk : Only fl sa s) (hsub : Fld.sub [.regs_, .ctrs_, .tiles_, .redIn_, .redStage_, .redRun_, .mcFlits_, .hbm_, .cxl_, .inv_, .cues_, .ports_, .sess_, .reqs_, .nextTag_, .loom_, .ctxs_, .fns_, .hostReads_, .fwGot_, .fwHeld_, .sec_, .fw_, .inc_, .freeCtr_, .out_] fl = true) : Only fl sa (State.tensorData s t k pos l) := by
    refine Only.seq (l := [.regs_, .ctrs_, .tiles_, .redIn_, .redStage_, .redRun_, .mcFlits_, .hbm_, .cxl_, .inv_, .cues_, .ports_, .sess_, .reqs_, .nextTag_, .loom_, .ctxs_, .fns_, .hostReads_, .fwGot_, .fwHeld_, .sec_, .fw_, .inc_, .freeCtr_, .out_]) hk ?_ hsub
    clear hk hsub
    unfold State.tensorData
    repeat' first
      | with_reducible exact Only.refl _ _
      | with_reducible apply State.setTensor_only
      | with_reducible apply State.tensorInject_only
      | refine Fld.yes rfl
      | split

theorem State.tensorHold_only {fl : List Fld} {sa s : State} {t : Nat} {k : Nat} {b : Nat} {q : QDesc} {va : Nat} {dst : Bool} {r : XltReason} {lv : Nat}
    (hk : Only fl sa s) (hsub : Fld.sub [.regs_, .ctrs_, .tiles_, .hbm_, .cxl_, .hbmUe_, .metaCache_, .sideArea_, .fq_, .cues_, .reqs_, .nextTag_, .loom_, .queues_, .fences_, .objs_, .freed_, .ctxs_, .fns_, .hostReads_, .fwGot_, .fwHeld_, .sec_, .fw_, .inc_, .twin_, .out_] fl = true) : Only fl sa (State.tensorHold s t k b q va dst r lv) := by
    refine Only.seq (l := [.regs_, .ctrs_, .tiles_, .hbm_, .cxl_, .hbmUe_, .metaCache_, .sideArea_, .fq_, .cues_, .reqs_, .nextTag_, .loom_, .queues_, .fences_, .objs_, .freed_, .ctxs_, .fns_, .hostReads_, .fwGot_, .fwHeld_, .sec_, .fw_, .inc_, .twin_, .out_]) hk ?_ hsub
    clear hk hsub
    unfold State.tensorHold
    repeat' first
      | with_reducible exact Only.refl _ _
      | with_reducible apply State.voidSteps_only
      | with_reducible apply State.drainHeld_only
      | with_reducible apply State.faultEnter_only
      | with_reducible apply State.setTensor_only
      | refine Fld.yes rfl

theorem State.tensorPin_only {fl : List Fld} {sa s : State} {t : Nat} {k : Nat} {q : QDesc} {l : Leaf} {dst : Bool}
    (hk : Only fl sa s) (hsub : Fld.sub [.regs_, .ctrs_, .tiles_, .mcFlits_, .hbm_, .cxl_, .inv_, .cues_, .ports_, .sess_, .reqs_, .loom_, .ctxs_, .fns_, .hostReads_, .fwGot_, .fwHeld_, .sec_, .fw_, .inc_, .freeCtr_, .out_] fl = true) : Only fl sa (State.tensorPin s t k q l dst) := by
    refine Only.seq (l := [.regs_, .ctrs_, .tiles_, .mcFlits_, .hbm_, .cxl_, .inv_, .cues_, .ports_, .sess_, .reqs_, .loom_, .ctxs_, .fns_, .hostReads_, .fwGot_, .fwHeld_, .sec_, .fw_, .inc_, .freeCtr_, .out_]) hk ?_ hsub
    clear hk hsub
    unfold State.tensorPin
    repeat' first
      | with_reducible exact Only.refl _ _
      | with_reducible apply State.setTensor_only
      | with_reducible apply State.tensorFail_only
      | with_reducible apply Only.ite
      | refine Fld.yes rfl

theorem State.walkData_only {fl : List Fld} {sa s : State} {u : Nat} {fa : Nat} {bytes : List Sys2Proof.Byte}
    (hk : Only fl sa s) (hsub : Fld.sub [.tiles_, .pfWalks_] fl = true) : Only fl sa (State.walkData s u fa bytes) := by
    refine Only.seq (l := [.tiles_, .pfWalks_]) hk ?_ hsub
    clear hk hsub
    unfold State.walkData
    repeat' first
      | with_reducible exact Only.refl _ _
      | with_reducible apply State.mapWalks_only
      | refine Fld.yes rfl

end Sys2Proof.Machine
end

