-- ==== Sys2Proof/Laws/FrameCrDone.lean ====
section
/-! SUPPORT. Which fields of the state each operation of Sys2Proof/Machine/CrDone.lean can change. -/

namespace Sys2Proof.Machine

set_option linter.all false
set_option Elab.async false

/-- Fields that operations of this file change. -/
def Fld.ofCrDone1 : List Fld :=
  [.regs_, .ctrs_, .tiles_, .redIn_, .redStage_, .redRun_, .mcFlits_, .hbm_, .cxl_, .metaCache_, .sideArea_, .inv_,
   .cues_, .ports_, .sess_, .reqs_, .nextTag_, .loom_, .ctxs_, .fns_, .hostReads_, .pfWalks_, .fwGot_, .fwHeld_,
   .sec_, .fw_, .inc_, .twin_, .freeCtr_, .out_]

theorem State.apRefused_only {fl : List Fld} {sa s : State} {fn : Nat} {fa : Nat} {read : Option Nat}
    (hk : Only fl sa s) (hsub : Fld.sub [.regs_, .ctrs_, .inc_, .out_] fl = true) : Only fl sa (State.apRefused s fn fa read) := by
    refine Only.seq (l := [.regs_, .ctrs_, .inc_, .out_]) hk ?_ hsub
    clear hk hsub
    unfold State.apRefused
    repeat' first
      | with_reducible exact Only.refl _ _
      | with_reducible assumption
      | with_reducible apply State.emit_only
      | with_reducible apply State.report_only
      | refine Fld.yes rfl
      | (extract_lets +onlyGivenNames zz; refine Only.have_ (u := zz) ?_ (fun _ => ?_); rotate_left; try clear_value zz; revert zz; intros; rotate_right; dsimp -zeta only [zz]; clear zz)
      | split

theorem State.retrainOver_only {fl : List Fld} {sa s : State} {p : Nat} {ns : Nat}
    (hk : Only fl sa s) (hsub : Fld.sub [.regs_, .ctrs_, .inc_] fl = true) : Only fl sa (State.retrainOver s p ns) := by
    refine Only.seq (l := [.regs_, .ctrs_, .inc_]) hk ?_ hsub
    clear hk hsub
    unfold State.retrainOver
    repeat' first
      | with_reducible exact Only.refl _ _
      | with_reducible apply State.report_only
      | refine Fld.yes rfl

theorem State.mirrorResend_only {fl : List Fld} {sa s : State} {y1 : List MirWrite}
    (hk : Only fl sa s) (hsub : Fld.sub [.reqs_, .nextTag_, .twin_, .out_] fl = true) : Only fl sa (State.mirrorResend s y1) := by
    refine Only.seq (l := [.reqs_, .nextTag_, .twin_, .out_]) hk ?_ hsub
    clear hk hsub
    fun_induction State.mirrorResend s y1
    all_goals
      repeat' first
        | with_reducible exact Only.refl _ _
        | with_reducible apply State.emitMirror_only
        | with_reducible apply Only.ite
        | with_reducible refine Only.seq (l := [.reqs_, .nextTag_, .twin_, .out_]) ?_ (by assumption) rfl
        | refine Fld.yes rfl
        | (extract_lets +onlyGivenNames zz; try clear_value zz; revert zz; intros)
        | refine Only.upd ?_ rfl rfl

theorem State.payOwed_only {fl : List Fld} {sa s : State} {w : Owed}
    (hk : Only fl sa s) (hsub : Fld.sub [.regs_, .ctrs_, .tiles_, .cues_, .ports_, .sess_, .reqs_, .loom_, .ctxs_, .fns_, .hostReads_, .fwGot_, .fwHeld_, .sec_, .fw_, .inc_, .out_] fl = true) : Only fl sa (State.payOwed s w) := by
    refine Only.seq (l := [.regs_, .ctrs_, .tiles_, .cues_, .ports_, .sess_, .reqs_, .loom_, .ctxs_, .fns_, .hostReads_, .fwGot_, .fwHeld_, .sec_, .fw_, .inc_, .out_]) hk ?_ hsub
    clear hk hsub
    unfold State.payOwed
    repeat' first
      | with_reducible exact Only.refl _ _
      | with_reducible apply State.sendRsp_only
      | with_reducible apply State.emit_only
      | refine Fld.yes rfl
      | split

theorem State.sendCkpt_only {fl : List Fld} {sa s : State} {b : Nat}
    (hk : Only fl sa s) (hsub : Fld.sub [.twin_, .out_] fl = true) : Only fl sa (State.sendCkpt s b) := by
    refine Only.seq (l := [.twin_, .out_]) hk ?_ hsub
    clear hk hsub
    unfold State.sendCkpt
    repeat' first
      | with_reducible exact Only.refl _ _
      | with_reducible apply State.emit_only
      | with_reducible apply Only.ite
      | refine Fld.yes rfl
      | (extract_lets +onlyGivenNames zz; try clear_value zz; revert zz; intros)
      | split
      | refine Only.upd ?_ rfl rfl

theorem State.mirrorNext_only {fl : List Fld} {sa s : State} 
    (hk : Only fl sa s) (hsub : Fld.sub [.regs_, .ctrs_, .tiles_, .cues_, .ports_, .sess_, .reqs_, .nextTag_, .loom_, .ctxs_, .fns_, .hostReads_, .fwGot_, .fwHeld_, .sec_, .fw_, .inc_, .twin_, .out_] fl = true) : Only fl sa (State.mirrorNext s) := by
    refine Only.seq (l := [.regs_, .ctrs_, .tiles_, .cues_, .ports_, .sess_, .reqs_, .nextTag_, .loom_, .ctxs_, .fns_, .hostReads_, .fwGot_, .fwHeld_, .sec_, .fw_, .inc_, .twin_, .out_]) hk ?_ hsub
    clear hk hsub
    unfold State.mirrorNext
    repeat' first
      | with_reducible exact Only.refl _ _
      | with_reducible assumption
      | with_reducible apply State.sendCkpt_only
      | with_reducible apply State.payOwed_only
      | with_reducible apply State.mirrorResend_only
      | with_reducible apply Only.foldl
      | intro _ _ _
      | refine Fld.yes rfl
      | (extract_lets +onlyGivenNames zz; try clear_value zz; revert zz; intros)
      | refine Only.upd ?_ rfl rfl

theorem State.finishReq_only {fl : List Fld} {sa s : State} {tag : Nat} {r : CrReq}
    (hk : Only fl sa s) (hsub : Fld.sub [.regs_, .ctrs_, .tiles_, .cues_, .ports_, .sess_, .reqs_, .nextTag_, .loom_, .ctxs_, .fns_, .hostReads_, .fwGot_, .fwHeld_, .sec_, .fw_, .inc_, .twin_, .out_] fl = true) : Only fl sa (State.finishReq s tag r) := by
    refine Only.seq (l := [.regs_, .ctrs_, .tiles_, .cues_, .ports_, .sess_, .reqs_, .nextTag_, .loom_, .ctxs_, .fns_, .hostReads_, .fwGot_, .fwHeld_, .sec_, .fw_, .inc_, .twin_, .out_]) hk ?_ hsub
    clear hk hsub
    unfold State.finishReq
    repeat' first
      | with_reducible exact Only.refl _ _
      | with_reducible apply State.flightSub_only
      | with_reducible apply State.mirrorNext_only
      | with_reducible apply Only.ite
      | refine Fld.yes rfl
      | (extract_lets +onlyGivenNames zz; try clear_value zz; revert zz; intros)
      | refine Only.upd ?_ rfl rfl

theorem State.reqFail_only {fl : List Fld} {sa s : State} {tag : Nat} {r : CrReq} {st : Nat}
    (hk : Only fl sa s) (hsub : Fld.sub Fld.ofCrDone1 fl = true) : Only fl sa (State.reqFail s tag r st) := by
    refine Only.seq (l := Fld.ofCrDone1) hk ?_ hsub
    clear hk hsub
    unfold State.reqFail
    repeat' first
      | with_reducible exact Only.refl _ _
      | with_reducible apply State.ownerGo_only
      | with_reducible apply State.walkFail_only
      | with_reducible apply State.fwArrive_only
      | with_reducible apply State.apRefused_only
      | with_reducible apply State.tileFault_only
      | with_reducible apply State.tensorStatus_only
      | with_reducible apply State.finishReq_only
      | with_reducible apply Only.ite
      | refine Fld.yes rfl
      | (extract_lets +onlyGivenNames zz; try clear_value zz; revert zz; intros)
      | split

theorem State.degrade_only {fl : List Fld} {sa s : State} {u : Nat} {cause : Nat}
    (hk : Only fl sa s) (hsub : Fld.sub [.regs_, .ctrs_, .tiles_, .cues_, .ports_, .sess_, .reqs_, .loom_, .ctxs_, .fns_, .hostReads_, .fwGot_, .fwHeld_, .sec_, .fw_, .inc_, .twin_, .out_] fl = true) : Only fl sa (State.degrade s u cause) := by
    refine Only.seq (l := [.regs_, .ctrs_, .tiles_, .cues_, .ports_, .sess_, .reqs_, .loom_, .ctxs_, .fns_, .hostReads_, .fwGot_, .fwHeld_, .sec_, .fw_, .inc_, .twin_, .out_]) hk ?_ hsub
    clear hk hsub
    unfold State.degrade
    repeat' first
      | with_reducible exact Only.refl _ _
      | with_reducible assumption
      | with_reducible apply State.report_only
      | with_reducible apply State.payOwed_only
      | with_reducible apply State.orReg_only
      | with_reducible apply Only.foldl
      | intro _ _ _
      | refine Fld.yes rfl
      | (extract_lets +onlyGivenNames zz; try clear_value zz; revert zz; intros)
      | refine Only.upd ?_ rfl rfl

theorem State.startSync_only {fl : List Fld} {sa s : State} 
    (hk : Only fl sa s) (hsub : Fld.sub [.twin_] fl = true) : Only fl sa (State.startSync s) := by
    refine Only.seq (l := [.twin_]) hk ?_ hsub
    clear hk hsub
    unfold State.startSync
    repeat' first
      | with_reducible exact Only.refl _ _
      | (extract_lets +onlyGivenNames zz; try clear_value zz; revert zz; intros)
      | refine Only.upd ?_ rfl rfl

theorem State.uCheck_only {fl : List Fld} {sa s : State} {p : Nat}
    (hk : Only fl sa s) (hsub : Fld.sub [.regs_, .ctrs_, .tiles_, .cues_, .ports_, .sess_, .reqs_, .loom_, .ctxs_, .fns_, .hostReads_, .fwGot_, .fwHeld_, .sec_, .fw_, .inc_, .twin_, .out_] fl = true) : Only fl sa (State.uCheck s p) := by
    refine Only.seq (l := [.regs_, .ctrs_, .tiles_, .cues_, .ports_, .sess_, .reqs_, .loom_, .ctxs_, .fns_, .hostReads_, .fwGot_, .fwHeld_, .sec_, .fw_, .inc_, .twin_, .out_]) hk ?_ hsub
    clear hk hsub
    unfold State.uCheck
    repeat' first
      | with_reducible exact Only.refl _ _
      | with_reducible apply State.startSync_only
      | with_reducible apply State.degrade_only
      | with_reducible apply Only.ite
      | refine Fld.yes rfl

theorem State.linkDown_only {fl : List Fld} {sa s : State} {p : Nat} {cause : Nat} {m : PortMode}
    (hk : Only fl sa s) (hsub : Fld.sub Fld.ofCrDone1 fl = true) : Only fl sa (State.linkDown s p cause m) := by
    refine Only.seq (l := Fld.ofCrDone1) hk ?_ hsub
    clear hk hsub
    unfold State.linkDown
    repeat' first
      | with_reducible exact Only.refl _ _
      | with_reducible assumption
      | with_reducible apply State.raise_only
      | with_reducible apply State.uCheck_only
      | with_reducible apply State.reqFail_only
      | with_reducible apply State.updPort_only
      | with_reducible apply State.orReg_only
      | with_reducible apply State.retrainOver_only
      | with_reducible apply Only.ite
      | with_reducible apply Only.foldl
      | intro _ _ _
      | refine Fld.yes rfl
      | (extract_lets +onlyGivenNames zz; try clear_value zz; revert zz; intros)
      | split

theorem State.portLeave_only {fl : List Fld} {sa s : State} {p : Nat} {cause : Nat} {m : PortMode}
    (hk : Only fl sa s) (hsub : Fld.sub Fld.ofCrDone1 fl = true) : Only fl sa (State.portLeave s p cause m) := by
    refine Only.seq (l := Fld.ofCrDone1) hk ?_ hsub
    clear hk hsub
    unfold State.portLeave
    repeat' first
      | with_reducible exact Only.refl _ _
      | with_reducible apply State.updPort_only
      | with_reducible apply State.linkDown_only
      | with_reducible apply Only.ite
      | refine Fld.yes rfl

theorem State.portTrain_only {fl : List Fld} {sa s : State} {p : Nat}
    (hk : Only fl sa s) (hsub : Fld.sub [.ports_] fl = true) : Only fl sa (State.portTrain s p) := by
    refine Only.seq (l := [.ports_]) hk ?_ hsub
    clear hk hsub
    unfold State.portTrain
    repeat' first
      | with_reducible exact Only.refl _ _
      | with_reducible apply State.updPort_only
      | refine Fld.yes rfl

end Sys2Proof.Machine
end

