-- ==== Sys2Proof/Laws/FrameHbmOps.lean ====
section
/-! SUPPORT. Which fields of the state each operation of Sys2Proof/Machine/HbmOps.lean can change. -/

namespace Sys2Proof.Machine

set_option linter.all false
set_option Elab.async false

theorem State.chanCorrect_only {fl : List Fld} {sa s : State} {off : Nat}
    (hk : Only fl sa s) (hsub : Fld.sub [.regs_, .ctrs_, .chanCe_, .inc_] fl = true) : Only fl sa (State.chanCorrect s off) := by
    refine Only.seq (l := [.regs_, .ctrs_, .chanCe_, .inc_]) hk ?_ hsub
    clear hk hsub
    unfold State.chanCorrect
    repeat' first
      | with_reducible exact Only.refl _ _
      | with_reducible apply State.report_only
      | with_reducible apply Only.ite
      | refine Fld.yes rfl
      | (extract_lets +onlyGivenNames zz; try clear_value zz; revert zz; intros)
      | refine Only.upd ?_ rfl rfl

theorem State.chanDown_only {fl : List Fld} {sa s : State} {c : Nat} {cause : Nat}
    (hk : Only fl sa s) (hsub : Fld.sub [.regs_, .ctrs_, .tiles_, .cues_, .reqs_, .loom_, .ctxs_, .fns_, .hostReads_, .fwGot_, .fwHeld_, .sec_, .fw_, .inc_, .out_] fl = true) : Only fl sa (State.chanDown s c cause) := by
    refine Only.seq (l := [.regs_, .ctrs_, .tiles_, .cues_, .reqs_, .loom_, .ctxs_, .fns_, .hostReads_, .fwGot_, .fwHeld_, .sec_, .fw_, .inc_, .out_]) hk ?_ hsub
    clear hk hsub
    unfold State.chanDown
    repeat' first
      | with_reducible exact Only.refl _ _
      | with_reducible assumption
      | with_reducible apply State.boltFail_only
      | with_reducible apply State.report_only
      | with_reducible apply State.clrReg_only
      | with_reducible apply Only.ite
      | with_reducible apply Only.foldl
      | intro _ _ _
      | refine Fld.yes rfl

end Sys2Proof.Machine
end

