-- ==== Sys2Proof/Laws/FrameQosOps.lean ====
section
/-! SUPPORT. Which fields of the state each operation of Sys2Proof/Machine/QosOps.lean can change. -/

namespace Sys2Proof.Machine

set_option linter.all false
set_option Elab.async false

theorem State.qosMiss_only {fl : List Fld} {sa s : State} {k : Nat} {u : Nat} {c : Nat} {b : Nat} {ns : Nat}
    (hk : Only fl sa s) (hsub : Fld.sub [.regs_, .ctrs_, .fns_, .power_, .inc_, .out_] fl = true) : Only fl sa (State.qosMiss s k u c b ns) := by
    refine Only.seq (l := [.regs_, .ctrs_, .fns_, .power_, .inc_, .out_]) hk ?_ hsub
    clear hk hsub
    unfold State.qosMiss
    repeat' first
      | with_reducible exact Only.refl _ _
      | with_reducible apply State.report_only
      | with_reducible apply State.guarEvent_only
      | with_reducible apply State.bump_only
      | with_reducible apply State.orReg_only
      | with_reducible apply Only.ite
      | refine Fld.yes rfl
      | (extract_lets +onlyGivenNames zz; try clear_value zz; revert zz; intros)
      | split
      | refine Only.upd ?_ rfl rfl

theorem State.monitor_only {fl : List Fld} {sa s : State} {k : Nat} {u : Nat} {c : Nat} {b : Nat} {ns : Nat}
    (hk : Only fl sa s) (hsub : Fld.sub [.regs_, .ctrs_, .fns_, .power_, .inc_, .out_] fl = true) : Only fl sa (State.monitor s k u c b ns) := by
    refine Only.seq (l := [.regs_, .ctrs_, .fns_, .power_, .inc_, .out_]) hk ?_ hsub
    clear hk hsub
    unfold State.monitor
    repeat' first
      | with_reducible exact Only.refl _ _
      | with_reducible apply State.qosMiss_only
      | with_reducible apply Only.ite
      | refine Fld.yes rfl

end Sys2Proof.Machine
end

