-- ==== Sys2Proof/Laws/FrameHbm.lean ====
section
/-! SUPPORT. Which fields of the state each operation of Sys2Proof/Machine/Hbm.lean can change. -/

namespace Sys2Proof.Machine

set_option linter.all false
set_option Elab.async false

theorem State.answer_only {fl : List Fld} {sa s : State} {r : Sys2Proof.MemReq} {st : Nat} {data : List Sys2Proof.Byte}
    (hk : Only fl sa s) (hsub : Fld.sub [.out_] fl = true) : Only fl sa (State.answer s r st data) := by
    refine Only.seq (l := [.out_]) hk ?_ hsub
    clear hk hsub
    unfold State.answer
    repeat' first
      | with_reducible exact Only.refl _ _
      | with_reducible apply State.emit_only
      | refine Fld.yes rfl

theorem State.integrityFail_only {fl : List Fld} {sa s : State} {u : Nat} {fa : Nat} {kind : Nat} {level : Nat}
    (hk : Only fl sa s) (hsub : Fld.sub [.regs_, .ctrs_, .tiles_, .cues_, .reqs_, .loom_, .ctxs_, .fns_, .hostReads_, .fwGot_, .fwHeld_, .sec_, .fw_, .inc_, .out_] fl = true) : Only fl sa (State.integrityFail s u fa kind level) := by
    refine Only.seq (l := [.regs_, .ctrs_, .tiles_, .cues_, .reqs_, .loom_, .ctxs_, .fns_, .hostReads_, .fwGot_, .fwHeld_, .sec_, .fw_, .inc_, .out_]) hk ?_ hsub
    clear hk hsub
    unfold State.integrityFail
    repeat' first
      | with_reducible exact Only.refl _ _
      | with_reducible apply State.raise_only
      | refine Fld.yes rfl

theorem State.perform_only {fl : List Fld} {sa s : State} {sp : Nat} {r : Sys2Proof.MemReq}
    (hk : Only fl sa s) (hsub : Fld.sub [.regs_, .ctrs_, .tiles_, .hbm_, .cxl_, .hbmUe_, .metaCache_, .sideArea_, .cues_, .reqs_, .nextTag_, .loom_, .ctxs_, .fns_, .hostReads_, .fwGot_, .fwHeld_, .sec_, .fw_, .inc_, .twin_, .out_] fl = true) : Only fl sa (State.perform s sp r) := by
    refine Only.seq (l := [.regs_, .ctrs_, .tiles_, .hbm_, .cxl_, .hbmUe_, .metaCache_, .sideArea_, .cues_, .reqs_, .nextTag_, .loom_, .ctxs_, .fns_, .hostReads_, .fwGot_, .fwHeld_, .sec_, .fw_, .inc_, .twin_, .out_]) hk ?_ hsub
    clear hk hsub
    unfold State.perform
    repeat' first
      | with_reducible exact Only.refl _ _
      | with_reducible apply State.readMeta_only
      | with_reducible apply State.answer_only
      | with_reducible apply State.poke_only
      | with_reducible apply Only.ite
      | refine Fld.yes rfl
      | (extract_lets +onlyGivenNames zz; try clear_value zz; revert zz; intros)
      | refine Only.upd ?_ rfl rfl

theorem execHbmAccess_only (r : Sys2Proof.MemReq) (ecc : Sys2Proof.Ecc) (mac : Sys2Proof.MacCheck) (ns : Nat) (s : State) {sz : State}
    (h : execHbmAccess r ecc mac ns s = .next sz) : Only [.regs_, .ctrs_, .tiles_, .hbm_, .cxl_, .chanCe_, .hbmUe_, .metaCache_, .sideArea_, .cues_, .reqs_, .nextTag_, .loom_, .ctxs_, .fns_, .hostReads_, .fwGot_, .fwHeld_, .power_, .sec_, .fw_, .inc_, .twin_, .out_] s sz := by
    unfold execHbmAccess at h
    cases h
    repeat' first
      | with_reducible exact Only.refl _ _
      | with_reducible assumption
      | with_reducible apply State.perform_only
      | with_reducible apply State.chanCorrect_only
      | with_reducible apply State.ueMark_only
      | with_reducible apply State.integrityFail_only
      | with_reducible apply State.monitor_only
      | with_reducible apply State.raiseUe_only
      | with_reducible apply State.answer_only
      | with_reducible apply Only.ite
      | refine Fld.yes rfl
      | (extract_lets +onlyGivenNames zz; refine Only.have_ (u := zz) ?_ (fun _ => ?_); rotate_left; try clear_value zz; revert zz; intros; rotate_right; dsimp -zeta only [zz]; clear zz)
      | (extract_lets +onlyGivenNames zz; have hfn := (zz : _ → _); clear hfn; dsimp -zeta only [zz]; clear zz)
      | (extract_lets +onlyGivenNames zz; try clear_value zz; revert zz; intros)
      | split

theorem execHbmScrub_only (c : Sys2Proof.Chan) (off : Nat) (ecc : Sys2Proof.Ecc) (s : State) {sz : State}
    (h : execHbmScrub c off ecc s = .next sz) : Only [.regs_, .ctrs_, .chanCe_, .hbmUe_, .inc_] s sz := by
    unfold execHbmScrub at h
    cases h
    repeat' first
      | with_reducible exact Only.refl _ _
      | with_reducible apply State.ueMark_only
      | with_reducible apply State.report_only
      | with_reducible apply State.chanCorrect_only
      | with_reducible apply Only.ite
      | refine Fld.yes rfl
      | (extract_lets +onlyGivenNames zz; try clear_value zz; revert zz; intros)
      | split

theorem execHbmRefreshHot_only (stack : Fin 24) (temp : Nat) (s : State) {sz : State}
    (h : execHbmRefreshHot stack temp s = .next sz) : Only [.regs_, .ctrs_, .hot_, .inc_] s sz := by
    unfold execHbmRefreshHot at h
    cases h
    repeat' first
      | with_reducible exact Only.refl _ _
      | with_reducible apply State.report_only
      | with_reducible apply Only.ite
      | refine Fld.yes rfl
      | (extract_lets +onlyGivenNames zz; try clear_value zz; revert zz; intros)
      | refine Only.upd ?_ rfl rfl

theorem execHbmChDown_only (c : Sys2Proof.Chan) (retrain : Bool) (s : State) {sz : State}
    (h : execHbmChDown c retrain s = .next sz) : Only [.regs_, .ctrs_, .tiles_, .cues_, .reqs_, .loom_, .ctxs_, .fns_, .hostReads_, .fwGot_, .fwHeld_, .sec_, .fw_, .inc_, .out_] s sz := by
    unfold execHbmChDown at h
    cases h
    repeat' first
      | with_reducible exact Only.refl _ _
      | with_reducible apply State.chanDown_only
      | with_reducible apply Only.ite
      | refine Fld.yes rfl

end Sys2Proof.Machine
end

