-- ==== Sys2Proof/Laws/FrameAperture.lean ====
section
/-! SUPPORT. Which fields of the state each operation of Sys2Proof/Machine/Aperture.lean can change. -/

namespace Sys2Proof.Machine

set_option linter.all false
set_option Elab.async false

/-- Fields that operations of this file change. -/
def Fld.ofAperture1 : List Fld :=
  [.regs_, .ctrs_, .tiles_, .redIn_, .redStage_, .redRun_, .mcFlits_, .hbm_, .cxl_, .metaCache_, .sideArea_, .inv_,
   .cues_, .ports_, .sess_, .reqs_, .nextTag_, .loom_, .ctxs_, .fns_, .hostReads_, .fwGot_, .fwHeld_, .power_,
   .sec_, .fw_, .inc_, .freeCtr_, .out_]

theorem State.takeHostRead_only {fl : List Fld} {sa s t : State} {tag : Nat} {r : HostRead}
    (h : s.takeHostRead tag = some (t, r)) (hk : Only fl sa s) (hsub : Fld.sub [.hostReads_, .loom_] fl = true) : Only fl sa t := by
  unfold State.takeHostRead at h
  cases hm : mget none s.hostReads tag with
  | none => simp [hm] at h
  | some x =>
    simp only [hm, Option.map_some, Option.some.injEq, Prod.mk.injEq] at h
    rw [← h.1]
    apply State.flightSub_only ?_ (Fld.sub_trans (by decide) hsub)
    exact Only.seq (l := [.hostReads_]) hk (Only.upd (Only.refl _ _) rfl rfl) (Fld.sub_trans (by decide) hsub)

theorem State.apUe_only {fl : List Fld} {sa s : State} {fn : Nat} {sp : Nat} {off : Nat} {read : Option Nat}
    (hk : Only fl sa s) (hsub : Fld.sub [.regs_, .ctrs_, .inc_, .out_] fl = true) : Only fl sa (State.apUe s fn sp off read) := by
    refine Only.seq (l := [.regs_, .ctrs_, .inc_, .out_]) hk ?_ hsub
    clear hk hsub
    unfold State.apUe
    repeat' first
      | with_reducible exact Only.refl _ _
      | with_reducible assumption
      | with_reducible apply State.emit_only
      | with_reducible apply State.report_only
      | with_reducible apply Only.ite
      | refine Fld.yes rfl
      | (extract_lets +onlyGivenNames zz; refine Only.have_ (u := zz) ?_ (fun _ => ?_); rotate_left; try clear_value zz; revert zz; intros; rotate_right; dsimp -zeta only [zz]; clear zz)
      | split

theorem State.apPerform_only {fl : List Fld} {sa s : State} {fn : Nat} {sp : Nat} {off : Nat} {len : Nat} {wdata : Option (List Sys2Proof.Byte)} {ecc : Sys2Proof.Ecc}
    (hk : Only fl sa s) (hsub : Fld.sub [.regs_, .ctrs_, .tiles_, .hbm_, .cxl_, .chanCe_, .hbmUe_, .metaCache_, .sideArea_, .cues_, .reqs_, .nextTag_, .loom_, .ctxs_, .fns_, .hostReads_, .fwGot_, .fwHeld_, .sec_, .fw_, .inc_, .twin_, .out_] fl = true) : Only fl sa (State.apPerform s fn sp off len wdata ecc) := by
    refine Only.seq (l := [.regs_, .ctrs_, .tiles_, .hbm_, .cxl_, .chanCe_, .hbmUe_, .metaCache_, .sideArea_, .cues_, .reqs_, .nextTag_, .loom_, .ctxs_, .fns_, .hostReads_, .fwGot_, .fwHeld_, .sec_, .fw_, .inc_, .twin_, .out_]) hk ?_ hsub
    clear hk hsub
    unfold State.apPerform
    repeat' first
      | with_reducible exact Only.refl _ _
      | with_reducible assumption
      | with_reducible apply State.readMeta_only
      | with_reducible apply State.poke_only
      | with_reducible apply State.chanCorrect_only
      | with_reducible apply State.apUe_only
      | with_reducible apply State.emit_only
      | with_reducible apply State.ueMark_only
      | with_reducible apply Only.ite
      | refine Fld.yes rfl
      | (extract_lets +onlyGivenNames zz; refine Only.have_ (u := zz) ?_ (fun _ => ?_); rotate_left; try clear_value zz; revert zz; intros; rotate_right; dsimp -zeta only [zz]; clear zz)
      | split

theorem State.hostReadFail_only {fl : List Fld} {sa s : State} {tag : Nat} {h : HostRead}
    (hk : Only fl sa s) (hsub : Fld.sub [.regs_, .ctrs_, .tiles_, .mcFlits_, .hbm_, .cxl_, .inv_, .cues_, .ports_, .sess_, .reqs_, .loom_, .ctxs_, .fns_, .hostReads_, .fwGot_, .fwHeld_, .sec_, .fw_, .inc_, .freeCtr_, .out_] fl = true) : Only fl sa (State.hostReadFail s tag h) := by
    refine Only.seq (l := [.regs_, .ctrs_, .tiles_, .mcFlits_, .hbm_, .cxl_, .inv_, .cues_, .ports_, .sess_, .reqs_, .loom_, .ctxs_, .fns_, .hostReads_, .fwGot_, .fwHeld_, .sec_, .fw_, .inc_, .freeCtr_, .out_]) hk ?_ hsub
    clear hk hsub
    unfold State.hostReadFail
    repeat' first
      | with_reducible exact Only.refl _ _
      | with_reducible apply State.fwArrive_only
      | with_reducible apply State.emit_only
      | with_reducible apply State.tensorStatus_only
      | refine Fld.yes rfl
      | split

theorem State.pfAperture_only {fl : List Fld} {sa s : State} {fa : Nat} {len : Nat} {wdata : Option (List Sys2Proof.Byte)} {ecc : Sys2Proof.Ecc}
    (hk : Only fl sa s) (hsub : Fld.sub [.regs_, .ctrs_, .tiles_, .hbm_, .cxl_, .chanCe_, .hbmUe_, .metaCache_, .sideArea_, .cues_, .reqs_, .nextTag_, .loom_, .ctxs_, .fns_, .hostReads_, .fwGot_, .fwHeld_, .sec_, .fw_, .inc_, .twin_, .out_] fl = true) : Only fl sa (State.pfAperture s fa len wdata ecc) := by
    refine Only.seq (l := [.regs_, .ctrs_, .tiles_, .hbm_, .cxl_, .chanCe_, .hbmUe_, .metaCache_, .sideArea_, .cues_, .reqs_, .nextTag_, .loom_, .ctxs_, .fns_, .hostReads_, .fwGot_, .fwHeld_, .sec_, .fw_, .inc_, .twin_, .out_]) hk ?_ hsub
    clear hk hsub
    unfold State.pfAperture
    repeat' first
      | with_reducible exact Only.refl _ _
      | with_reducible apply State.apRefused_only
      | with_reducible apply State.apPerform_only
      | with_reducible apply Only.ite
      | refine Fld.yes rfl

theorem State.vfRemote_only {fl : List Fld} {sa s : State} {fn : Nat} {b : Nat} {fa : Nat} {len : Nat} {wdata : Option (List Sys2Proof.Byte)}
    (hk : Only fl sa s) (hsub : Fld.sub [.regs_, .ctrs_, .tiles_, .cues_, .ports_, .sess_, .reqs_, .nextTag_, .loom_, .ctxs_, .fns_, .hostReads_, .fwGot_, .fwHeld_, .sec_, .fw_, .inc_, .out_] fl = true) : Only fl sa (State.vfRemote s fn b fa len wdata) := by
    refine Only.seq (l := [.regs_, .ctrs_, .tiles_, .cues_, .ports_, .sess_, .reqs_, .nextTag_, .loom_, .ctxs_, .fns_, .hostReads_, .fwGot_, .fwHeld_, .sec_, .fw_, .inc_, .out_]) hk ?_ hsub
    clear hk hsub
    unfold State.vfRemote
    repeat' first
      | with_reducible exact Only.refl _ _
      | with_reducible apply State.apRefused_only
      | with_reducible apply State.sendReq_only
      | with_reducible apply Only.ite
      | refine Fld.yes rfl

theorem State.vfHost_only {fl : List Fld} {sa s : State} {fn : Nat} {b : Nat} {fa : Nat} {len : Nat} {wdata : Option (List Sys2Proof.Byte)}
    (hk : Only fl sa s) (hsub : Fld.sub [.nextTag_, .loom_, .hostReads_, .out_] fl = true) : Only fl sa (State.vfHost s fn b fa len wdata) := by
    refine Only.seq (l := [.nextTag_, .loom_, .hostReads_, .out_]) hk ?_ hsub
    clear hk hsub
    unfold State.vfHost
    repeat' first
      | with_reducible exact Only.refl _ _
      | with_reducible apply State.readHost_only
      | with_reducible apply State.hostWrite_only
      | refine Fld.yes rfl
      | split

theorem State.vfAperture_only {fl : List Fld} {sa s : State} {fn : Nat} {b : Nat} {fa : Nat} {len : Nat} {wdata : Option (List Sys2Proof.Byte)} {ecc : Sys2Proof.Ecc}
    (hk : Only fl sa s) (hsub : Fld.sub [.regs_, .ctrs_, .tiles_, .hbm_, .cxl_, .chanCe_, .hbmUe_, .metaCache_, .sideArea_, .cues_, .ports_, .sess_, .reqs_, .nextTag_, .loom_, .ctxs_, .fns_, .hostReads_, .fwGot_, .fwHeld_, .sec_, .fw_, .inc_, .twin_, .out_] fl = true) : Only fl sa (State.vfAperture s fn b fa len wdata ecc) := by
    refine Only.seq (l := [.regs_, .ctrs_, .tiles_, .hbm_, .cxl_, .chanCe_, .hbmUe_, .metaCache_, .sideArea_, .cues_, .ports_, .sess_, .reqs_, .nextTag_, .loom_, .ctxs_, .fns_, .hostReads_, .fwGot_, .fwHeld_, .sec_, .fw_, .inc_, .twin_, .out_]) hk ?_ hsub
    clear hk hsub
    unfold State.vfAperture
    repeat' first
      | with_reducible exact Only.refl _ _
      | with_reducible apply State.apPerform_only
      | with_reducible apply State.apRefused_only
      | with_reducible apply State.apUe_only
      | with_reducible apply State.vfHost_only
      | with_reducible apply State.vfRemote_only
      | with_reducible apply Only.ite
      | refine Fld.yes rfl
      | (extract_lets +onlyGivenNames zz; try clear_value zz; revert zz; intros)
      | split

theorem execApertureAccess_only (fn : Sys2Proof.Fn) (off : Nat) (len : Nat) (wdata : Option (List Sys2Proof.Byte)) (ecc : Sys2Proof.Ecc) (s : State) {sz : State}
    (h : execApertureAccess fn off len wdata ecc s = .next sz) : Only [.regs_, .ctrs_, .tiles_, .hbm_, .cxl_, .chanCe_, .hbmUe_, .metaCache_, .sideArea_, .cues_, .ports_, .sess_, .reqs_, .nextTag_, .loom_, .ctxs_, .fns_, .hostReads_, .fwGot_, .fwHeld_, .sec_, .fw_, .inc_, .twin_, .out_] s sz := by
    unfold execApertureAccess at h
    cases h
    repeat' first
      | with_reducible exact Only.refl _ _
      | with_reducible apply State.apRefused_only
      | with_reducible apply State.vfAperture_only
      | with_reducible apply State.pfAperture_only
      | with_reducible apply State.emit_only
      | with_reducible apply Only.ite
      | refine Fld.yes rfl
      | (extract_lets +onlyGivenNames zz; try clear_value zz; revert zz; intros)
      | split

theorem execHostReadCompletion_only (tag : BitVec 16) (data : List Sys2Proof.Byte) (poisoned : Bool) (s : State) {sz : State}
    (h : execHostReadCompletion tag data poisoned s = .next sz) : Only Fld.ofAperture1 s sz := by
    unfold execHostReadCompletion at h
    cases h
    repeat' first
      | with_reducible exact Only.refl _ _
      | with_reducible apply State.fwArrive_only
      | with_reducible apply State.emit_only
      | with_reducible apply State.tensorData_only
      | with_reducible apply State.shuttleGo_only
      | with_reducible apply State.hostReadFail_only
      | with_reducible apply State.ownerGo_only
      | with_reducible apply State.monitor_only
      | with_reducible refine State.takeHostRead_only (by assumption) ?_ ?_
      | with_reducible apply Only.ite
      | refine Fld.yes rfl
      | (extract_lets +onlyGivenNames zz; try clear_value zz; revert zz; intros)
      | split

theorem execSpace4CompletionTimeout_only (tag : BitVec 16) (s : State) {sz : State}
    (h : execSpace4CompletionTimeout tag s = .next sz) : Only [.regs_, .ctrs_, .tiles_, .redIn_, .redStage_, .redRun_, .mcFlits_, .hbm_, .cxl_, .metaCache_, .sideArea_, .inv_, .cues_, .ports_, .sess_, .reqs_, .nextTag_, .loom_, .ctxs_, .fns_, .hostReads_, .fwGot_, .fwHeld_, .sec_, .fw_, .inc_, .freeCtr_, .out_] s sz := by
    unfold execSpace4CompletionTimeout at h
    cases h
    repeat' first
      | with_reducible exact Only.refl _ _
      | with_reducible apply State.hostReadFail_only
      | with_reducible apply State.ownerGo_only
      | with_reducible refine State.takeHostRead_only (by assumption) ?_ ?_
      | with_reducible apply Only.ite
      | refine Fld.yes rfl
      | (extract_lets +onlyGivenNames zz; try clear_value zz; revert zz; intros)
      | split

end Sys2Proof.Machine
end

