-- ==== Sys2Proof/Laws/FrameStuOps.lean ====
section
/-! SUPPORT. Which fields of the state each operation of Sys2Proof/Machine/StuOps.lean can change. -/

namespace Sys2Proof.Machine

set_option linter.all false
set_option Elab.async false

theorem State.updateAlign_only {fl : List Fld} {sa s : State} 
    (hk : Only fl sa s) (hsub : Fld.sub [.regs_, .ctrs_, .stu_, .ctxs_, .fns_, .inc_, .out_] fl = true) : Only fl sa (State.updateAlign s) := by
    refine Only.seq (l := [.regs_, .ctrs_, .stu_, .ctxs_, .fns_, .inc_, .out_]) hk ?_ hsub
    clear hk hsub
    unfold State.updateAlign
    repeat' first
      | with_reducible exact Only.refl _ _
      | with_reducible assumption
      | with_reducible apply State.voidSteps_only
      | with_reducible apply State.report_only
      | with_reducible apply State.orReg_only
      | with_reducible apply Only.ite
      | with_reducible apply Only.foldl
      | intro _ _ _
      | refine Fld.yes rfl
      | (extract_lets +onlyGivenNames zz; try clear_value zz; revert zz; intros)
      | refine Only.upd ?_ rfl rfl

theorem State.setStuMode_only {fl : List Fld} {sa s : State} {m : StuMode}
    (hk : Only fl sa s) (hsub : Fld.sub [.regs_, .ctrs_, .stu_, .ctxs_, .fns_, .inc_, .freeCtr_, .out_] fl = true) : Only fl sa (State.setStuMode s m) := by
    refine Only.seq (l := [.regs_, .ctrs_, .stu_, .ctxs_, .fns_, .inc_, .freeCtr_, .out_]) hk ?_ hsub
    clear hk hsub
    unfold State.setStuMode
    repeat' first
      | with_reducible exact Only.refl _ _
      | with_reducible apply State.updateAlign_only
      | with_reducible apply State.report_only
      | with_reducible apply State.orReg_only
      | with_reducible apply State.draw_only
      | with_reducible apply Only.ite
      | refine Fld.yes rfl
      | (extract_lets +onlyGivenNames zz; try clear_value zz; revert zz; intros)
      | split
      | refine Only.upd ?_ rfl rfl

theorem State.reacquire_only {fl : List Fld} {sa s : State} 
    (hk : Only fl sa s) (hsub : Fld.sub [.regs_, .ctrs_, .stu_, .ctxs_, .fns_, .inc_, .freeCtr_, .out_] fl = true) : Only fl sa (State.reacquire s) := by
    refine Only.seq (l := [.regs_, .ctrs_, .stu_, .ctxs_, .fns_, .inc_, .freeCtr_, .out_]) hk ?_ hsub
    clear hk hsub
    unfold State.reacquire
    repeat' first
      | with_reducible exact Only.refl _ _
      | with_reducible assumption
      | with_reducible apply State.setStuMode_only
      | refine Fld.yes rfl
      | (extract_lets +onlyGivenNames zz; refine Only.have_ (u := zz) ?_ (fun _ => ?_); rotate_left; try clear_value zz; revert zz; intros; rotate_right; dsimp -zeta only [zz]; clear zz)
      | (extract_lets +onlyGivenNames zz; try clear_value zz; revert zz; intros)
      | refine Only.upd ?_ rfl rfl

theorem State.loadStuCtl_only {fl : List Fld} {sa s : State} {v : Nat}
    (hk : Only fl sa s) (hsub : Fld.sub [.regs_, .ctrs_, .stu_, .ctxs_, .fns_, .inc_, .freeCtr_, .out_] fl = true) : Only fl sa (State.loadStuCtl s v) := by
    refine Only.seq (l := [.regs_, .ctrs_, .stu_, .ctxs_, .fns_, .inc_, .freeCtr_, .out_]) hk ?_ hsub
    clear hk hsub
    unfold State.loadStuCtl
    repeat' first
      | with_reducible exact Only.refl _ _
      | with_reducible apply State.reacquire_only
      | with_reducible apply State.setStuMode_only
      | with_reducible apply State.setReg_only
      | with_reducible apply Only.ite
      | refine Fld.yes rfl

theorem State.steer_only {fl : List Fld} {sa s : State} 
    (hk : Only fl sa s) (hsub : Fld.sub [.stu_, .freeCtr_] fl = true) : Only fl sa (State.steer s) := by
    refine Only.seq (l := [.stu_, .freeCtr_]) hk ?_ hsub
    clear hk hsub
    unfold State.steer
    repeat' first
      | with_reducible exact Only.refl _ _
      | with_reducible assumption
      | with_reducible apply State.draw_only
      | refine Fld.yes rfl
      | (extract_lets +onlyGivenNames zz; refine Only.have_ (u := zz) ?_ (fun _ => ?_); rotate_left; try clear_value zz; revert zz; intros; rotate_right; dsimp -zeta only [zz]; clear zz)
      | (extract_lets +onlyGivenNames zz; refine Only.have_ (u := zz.1) ?_ (fun _ => ?_); rotate_left; try clear_value zz; revert zz; intros; rotate_right; dsimp -zeta only [zz]; clear zz)
      | (extract_lets +onlyGivenNames zz; try clear_value zz; revert zz; intros)
      | refine Only.upd ?_ rfl rfl

theorem State.stepTime_only {fl : List Fld} {sa s : State} {t : Nat} {src : Nat}
    (hk : Only fl sa s) (hsub : Fld.sub [.regs_, .ctrs_, .stu_, .inc_] fl = true) : Only fl sa (State.stepTime s t src) := by
    refine Only.seq (l := [.regs_, .ctrs_, .stu_, .inc_]) hk ?_ hsub
    clear hk hsub
    unfold State.stepTime
    repeat' first
      | with_reducible exact Only.refl _ _
      | with_reducible apply State.report_only
      | with_reducible apply State.orReg_only
      | refine Fld.yes rfl
      | (extract_lets +onlyGivenNames zz; try clear_value zz; revert zz; intros)
      | refine Only.upd ?_ rfl rfl

theorem State.measured_only {fl : List Fld} {sa s : State} {off : Int} {target : Nat} {src : Nat} {limit : Nat} {need : Nat}
    (hk : Only fl sa s) (hsub : Fld.sub [.regs_, .ctrs_, .stu_, .ctxs_, .fns_, .inc_, .freeCtr_, .out_] fl = true) : Only fl sa (State.measured s off target src limit need) := by
    refine Only.seq (l := [.regs_, .ctrs_, .stu_, .ctxs_, .fns_, .inc_, .freeCtr_, .out_]) hk ?_ hsub
    clear hk hsub
    unfold State.measured
    repeat' first
      | with_reducible exact Only.refl _ _
      | with_reducible assumption
      | with_reducible apply State.setStuMode_only
      | with_reducible apply State.stepTime_only
      | with_reducible apply State.steer_only
      | with_reducible apply Only.ite
      | refine Fld.yes rfl
      | (extract_lets +onlyGivenNames zz; refine Only.have_ (u := zz) ?_ (fun _ => ?_); rotate_left; try clear_value zz; revert zz; intros; rotate_right; dsimp -zeta only [zz]; clear zz)
      | (extract_lets +onlyGivenNames zz; try clear_value zz; revert zz; intros)
      | split
      | refine Only.upd ?_ rfl rfl

end Sys2Proof.Machine
end

