-- ==== Sys2Proof/Laws/FrameLoomOps.lean ====
section
/-! SUPPORT. Which fields of the state each operation of Sys2Proof/Machine/LoomOps.lean can change. -/

namespace Sys2Proof.Machine

set_option linter.all false
set_option Elab.async false

/-- Fields that operations of this file change. -/
def Fld.ofLoomOps1 : List Fld :=
  [.regs_, .ctrs_, .tiles_, .redIn_, .redStage_, .redRun_, .mcFlits_, .hbm_, .cxl_, .metaCache_, .sideArea_, .inv_,
   .cues_, .ports_, .sess_, .reqs_, .nextTag_, .loom_, .ctxs_, .fns_, .hostReads_, .pfWalks_, .fwGot_, .fwHeld_,
   .sec_, .fw_, .inc_, .twin_, .freeCtr_, .out_]

/-- Fields that operations of this file change. -/
def Fld.ofLoomOps2 : List Fld :=
  [.regs_, .ctrs_, .tiles_, .redIn_, .redStage_, .redRun_, .redClk_, .mcFlits_, .hbm_, .cxl_, .metaCache_, .sideArea_,
   .inv_, .stu_, .cues_, .ports_, .sess_, .reqs_, .nextTag_, .loom_, .ctxs_, .fns_, .hostReads_, .pfWalks_,
   .fwGot_, .fwHeld_, .power_, .sec_, .fw_, .inc_, .twin_, .lost_, .freeCtr_, .out_]

/-- Fields that operations of this file change. -/
def Fld.ofLoomOps3 : List Fld :=
  [.regs_, .ctrs_, .tiles_, .redIn_, .redStage_, .redRun_, .mcFlits_, .hbm_, .cxl_, .metaCache_, .sideArea_, .inv_,
   .cues_, .ports_, .sess_, .sessIn_, .reqs_, .nextTag_, .loom_, .ctxs_, .fns_, .hostReads_, .pfWalks_, .fwGot_,
   .fwHeld_, .sec_, .fw_, .inc_, .twin_, .freeCtr_, .out_]

theorem State.abandonRekey_only {fl : List Fld} {sa s : State} {n : Nat} {r : Region}
    (hk : Only fl sa s) (hsub : Fld.sub [.regs_, .ctrs_, .tiles_, .cues_, .reqs_, .loom_, .ctxs_, .fns_, .hostReads_, .fwGot_, .fwHeld_, .sec_, .fw_, .inc_, .out_] fl = true) : Only fl sa (State.abandonRekey s n r) := by
    refine Only.seq (l := [.regs_, .ctrs_, .tiles_, .cues_, .reqs_, .loom_, .ctxs_, .fns_, .hostReads_, .fwGot_, .fwHeld_, .sec_, .fw_, .inc_, .out_]) hk ?_ hsub
    clear hk hsub
    unfold State.abandonRekey
    repeat' first
      | with_reducible exact Only.refl _ _
      | with_reducible apply State.raise_only
      | with_reducible apply Only.ite
      | refine Fld.yes rfl

theorem State.reblockTiles_only {fl : List Fld} {sa s : State} {b : Nat} {k : Blocking}
    (hk : Only fl sa s) (hsub : Fld.sub [.tiles_, .freeCtr_] fl = true) : Only fl sa (State.reblockTiles s b k) := by
    refine Only.seq (l := [.tiles_, .freeCtr_]) hk ?_ hsub
    clear hk hsub
    unfold State.reblockTiles
    repeat' first
      | with_reducible exact Only.refl _ _
      | with_reducible assumption
      | with_reducible apply State.updTile_only
      | with_reducible apply Only.foldl
      | intro _ _ _
      | refine Fld.yes rfl
      | (extract_lets +onlyGivenNames zz; try clear_value zz; revert zz; intros)
      | refine Only.upd ?_ rfl rfl

theorem State.reblock_only {fl : List Fld} {sa s : State} {b : Nat} {n : Nat}
    (hk : Only fl sa s) (hsub : Fld.sub [.tiles_, .ctxs_, .freeCtr_] fl = true) : Only fl sa (State.reblock s b n) := by
    refine Only.seq (l := [.tiles_, .ctxs_, .freeCtr_]) hk ?_ hsub
    clear hk hsub
    unfold State.reblock
    repeat' first
      | with_reducible exact Only.refl _ _
      | with_reducible assumption
      | with_reducible apply State.reblockTiles_only
      | with_reducible apply State.updCtx_only
      | with_reducible apply Only.ite
      | refine Fld.yes rfl
      | (extract_lets +onlyGivenNames zz; refine Only.have_ (u := zz) ?_ (fun _ => ?_); rotate_left; try clear_value zz; revert zz; intros; rotate_right; dsimp -zeta only [zz]; clear zz)
      | (extract_lets +onlyGivenNames zz; try clear_value zz; revert zz; intros)
      | split

theorem State.enterTiles_only {fl : List Fld} {sa s : State} {b : Nat} {before : List Nat}
    (hk : Only fl sa s) (hsub : Fld.sub [.tiles_, .loom_, .ctxs_, .freeCtr_] fl = true) : Only fl sa (State.enterTiles s b before) := by
    refine Only.seq (l := [.tiles_, .loom_, .ctxs_, .freeCtr_]) hk ?_ hsub
    clear hk hsub
    unfold State.enterTiles
    repeat' first
      | with_reducible exact Only.refl _ _
      | with_reducible apply State.reblock_only
      | with_reducible apply Only.ite
      | refine Fld.yes rfl
      | (extract_lets +onlyGivenNames zz; try clear_value zz; revert zz; intros)
      | split
      | refine Only.upd ?_ rfl rfl

theorem State.moveSite_only {fl : List Fld} {sa s : State} {t : Nat}
    (hk : Only fl sa s) (hsub : Fld.sub [.tiles_, .loom_] fl = true) : Only fl sa (State.moveSite s t) := by
    refine Only.seq (l := [.tiles_, .loom_]) hk ?_ hsub
    clear hk hsub
    unfold State.moveSite
    repeat' first
      | with_reducible exact Only.refl _ _
      | with_reducible apply State.updTile_only
      | with_reducible apply Only.ite
      | refine Fld.yes rfl
      | (extract_lets +onlyGivenNames zz; try clear_value zz; revert zz; intros)
      | refine Only.upd ?_ rfl rfl

theorem State.moveTiles_only {fl : List Fld} {sa s : State} {b : Nat}
    (hk : Only fl sa s) (hsub : Fld.sub [.tiles_, .redClk_, .loom_] fl = true) : Only fl sa (State.moveTiles s b) := by
    refine Only.seq (l := [.tiles_, .redClk_, .loom_]) hk ?_ hsub
    clear hk hsub
    unfold State.moveTiles
    repeat' first
      | with_reducible exact Only.refl _ _
      | with_reducible assumption
      | with_reducible apply State.redTimers_only
      | with_reducible apply State.moveSite_only
      | with_reducible apply Only.foldl
      | intro _ _ _
      | refine Fld.yes rfl

theorem State.boundary_only {fl : List Fld} {sa s : State} {b : Nat}
    (hk : Only fl sa s) (hsub : Fld.sub [.tiles_, .redClk_, .loom_, .ctxs_, .freeCtr_] fl = true) : Only fl sa (State.boundary s b) := by
    refine Only.seq (l := [.tiles_, .redClk_, .loom_, .ctxs_, .freeCtr_]) hk ?_ hsub
    clear hk hsub
    unfold State.boundary
    repeat' first
      | with_reducible exact Only.refl _ _
      | with_reducible assumption
      | with_reducible apply State.moveTiles_only
      | with_reducible apply State.enterTiles_only
      | with_reducible apply Only.ite
      | with_reducible apply Only.foldl
      | intro _ _ _
      | refine Fld.yes rfl

theorem State.closeUnbound_only {fl : List Fld} {sa s : State} 
    (hk : Only fl sa s) (hsub : Fld.sub [.regs_, .ctrs_, .tiles_, .cues_, .ports_, .sess_, .sessIn_, .reqs_, .nextTag_, .loom_, .ctxs_, .fns_, .hostReads_, .fwGot_, .fwHeld_, .sec_, .fw_, .inc_, .out_] fl = true) : Only fl sa (State.closeUnbound s) := by
    refine Only.seq (l := [.regs_, .ctrs_, .tiles_, .cues_, .ports_, .sess_, .sessIn_, .reqs_, .nextTag_, .loom_, .ctxs_, .fns_, .hostReads_, .fwGot_, .fwHeld_, .sec_, .fw_, .inc_, .out_]) hk ?_ hsub
    clear hk hsub
    unfold State.closeUnbound
    repeat' first
      | with_reducible exact Only.refl _ _
      | with_reducible assumption
      | with_reducible apply State.closeSess_only
      | with_reducible apply Only.foldl
      | intro _ _ _
      | refine Fld.yes rfl

theorem State.forgetRegion_only {fl : List Fld} {sa s : State} {r : Region}
    (hk : Only fl sa s) (hsub : Fld.sub [.tiles_, .hbm_, .cxl_, .metaCache_, .sideArea_, .freeCtr_] fl = true) : Only fl sa (State.forgetRegion s r) := by
    refine Only.seq (l := [.tiles_, .hbm_, .cxl_, .metaCache_, .sideArea_, .freeCtr_]) hk ?_ hsub
    clear hk hsub
    unfold State.forgetRegion
    repeat' first
      | with_reducible exact Only.refl _ _
      | with_reducible apply State.forgetRange_only
      | with_reducible apply State.dropMeta_only
      | with_reducible apply Only.ite
      | refine Fld.yes rfl

theorem State.moveRegions_only {fl : List Fld} {sa s : State} {old : Scene}
    (hk : Only fl sa s) (hsub : Fld.sub [.regs_, .ctrs_, .tiles_, .hbm_, .cxl_, .metaCache_, .sideArea_, .cues_, .reqs_, .loom_, .ctxs_, .fns_, .hostReads_, .fwGot_, .fwHeld_, .sec_, .fw_, .inc_, .lost_, .freeCtr_, .out_] fl = true) : Only fl sa (State.moveRegions s old) := by
    refine Only.seq (l := [.regs_, .ctrs_, .tiles_, .hbm_, .cxl_, .metaCache_, .sideArea_, .cues_, .reqs_, .loom_, .ctxs_, .fns_, .hostReads_, .fwGot_, .fwHeld_, .sec_, .fw_, .inc_, .lost_, .freeCtr_, .out_]) hk ?_ hsub
    clear hk hsub
    unfold State.moveRegions
    repeat' first
      | with_reducible exact Only.refl _ _
      | with_reducible assumption
      | with_reducible apply State.abandonRekey_only
      | with_reducible apply State.forgetRegion_only
      | with_reducible apply Only.foldl
      | intro _ _ _
      | refine Fld.yes rfl
      | (extract_lets +onlyGivenNames zz; refine Only.have_ (u := zz) ?_ (fun _ => ?_); rotate_left; try clear_value zz; revert zz; intros; rotate_right; dsimp -zeta only [zz]; clear zz)
      | (extract_lets +onlyGivenNames zz; have hfn := (zz : _ → _); clear hfn; dsimp -zeta only [zz]; clear zz)
      | (extract_lets +onlyGivenNames zz; try clear_value zz; revert zz; intros)
      | refine Only.upd ?_ rfl rfl

theorem State.sceneShares_only {fl : List Fld} {sa s : State} {old : Scene}
    (hk : Only fl sa s) (hsub : Fld.sub [.power_] fl = true) : Only fl sa (State.sceneShares s old) := by
    refine Only.seq (l := [.power_]) hk ?_ hsub
    clear hk hsub
    unfold State.sceneShares
    repeat' first
      | with_reducible exact Only.refl _ _
      | with_reducible assumption
      | with_reducible apply State.resetShares_only
      | with_reducible apply Only.ite
      | with_reducible apply Only.foldl
      | intro _ _ _
      | refine Fld.yes rfl
      | (extract_lets +onlyGivenNames zz; try clear_value zz; revert zz; intros)
      | split

theorem State.sceneReports_only {fl : List Fld} {sa s : State} {old : Scene}
    (hk : Only fl sa s) (hsub : Fld.sub [.regs_, .ctrs_, .inc_] fl = true) : Only fl sa (State.sceneReports s old) := by
    refine Only.seq (l := [.regs_, .ctrs_, .inc_]) hk ?_ hsub
    clear hk hsub
    unfold State.sceneReports
    repeat' first
      | with_reducible exact Only.refl _ _
      | with_reducible assumption
      | with_reducible apply State.report_only
      | with_reducible apply Only.ite
      | with_reducible apply Only.foldl
      | intro _ _ _
      | refine Fld.yes rfl

theorem State.scenePorts_only {fl : List Fld} {sa s : State} {old : Scene}
    (hk : Only fl sa s) (hsub : Fld.sub Fld.ofLoomOps1 fl = true) : Only fl sa (State.scenePorts s old) := by
    refine Only.seq (l := Fld.ofLoomOps1) hk ?_ hsub
    clear hk hsub
    unfold State.scenePorts
    repeat' first
      | with_reducible exact Only.refl _ _
      | with_reducible assumption
      | with_reducible apply State.linkDown_only
      | with_reducible apply State.portTrain_only
      | with_reducible apply State.orReg_only
      | with_reducible apply Only.ite
      | with_reducible apply Only.foldl
      | intro _ _ _
      | refine Fld.yes rfl
      | split

theorem State.goLive_only {fl : List Fld} {sa s : State} 
    (hk : Only fl sa s) (hsub : Fld.sub Fld.ofLoomOps2 fl = true) : Only fl sa (State.goLive s) := by
    refine Only.seq (l := Fld.ofLoomOps2) hk ?_ hsub
    clear hk hsub
    unfold State.goLive
    repeat' first
      | with_reducible exact Only.refl _ _
      | with_reducible assumption
      | with_reducible apply State.scenePorts_only
      | with_reducible apply State.sceneReports_only
      | with_reducible apply State.sceneShares_only
      | with_reducible apply State.updateFloors_only
      | with_reducible apply State.enterTiles_only
      | with_reducible apply State.moveTiles_only
      | with_reducible apply State.loadStuCtl_only
      | with_reducible apply State.moveRegions_only
      | with_reducible apply State.setReg_only
      | with_reducible apply Only.foldl
      | intro _ _ _
      | refine Fld.yes rfl
      | (extract_lets +onlyGivenNames zz; try clear_value zz; revert zz; intros)
      | split
      | refine Only.upd ?_ rfl rfl

theorem State.moveGroups_only {fl : List Fld} {sa s : State} {old : Scene}
    (hk : Only fl sa s) (hsub : Fld.sub [.redRun_] fl = true) : Only fl sa (State.moveGroups s old) := by
    refine Only.seq (l := [.redRun_]) hk ?_ hsub
    clear hk hsub
    unfold State.moveGroups
    repeat' first
      | with_reducible exact Only.refl _ _
      | with_reducible assumption
      | with_reducible apply State.setRedRun_only
      | with_reducible apply Only.ite
      | with_reducible apply Only.foldl
      | intro _ _ _
      | refine Fld.yes rfl

theorem State.retireScene_only {fl : List Fld} {sa s : State} {late : Bool}
    (hk : Only fl sa s) (hsub : Fld.sub Fld.ofLoomOps3 fl = true) : Only fl sa (State.retireScene s late) := by
    refine Only.seq (l := Fld.ofLoomOps3) hk ?_ hsub
    clear hk hsub
    unfold State.retireScene
    repeat' first
      | with_reducible exact Only.refl _ _
      | with_reducible assumption
      | with_reducible apply State.report_only
      | with_reducible apply State.clrReg_only
      | with_reducible apply State.portLeave_only
      | with_reducible apply State.moveGroups_only
      | with_reducible apply State.closeUnbound_only
      | with_reducible apply Only.ite
      | with_reducible apply Only.foldl
      | intro _ _ _
      | refine Fld.yes rfl
      | (extract_lets +onlyGivenNames zz; try clear_value zz; revert zz; intros)
      | split
      | refine Only.upd ?_ rfl rfl

theorem State.drainForce_only {fl : List Fld} {sa s : State} {force : Bool}
    (hk : Only fl sa s) (hsub : Fld.sub Fld.ofLoomOps3 fl = true) : Only fl sa (State.drainForce s force) := by
    refine Only.seq (l := Fld.ofLoomOps3) hk ?_ hsub
    clear hk hsub
    unfold State.drainForce
    repeat' first
      | with_reducible exact Only.refl _ _
      | with_reducible assumption
      | with_reducible apply State.retireScene_only
      | with_reducible apply State.raise_only
      | with_reducible apply Only.foldl
      | intro _ _ _
      | refine Fld.yes rfl
      | split

end Sys2Proof.Machine
end

