-- ==== Sys2Proof/Laws/FrameCalls.lean ====
section
/-! SUPPORT. Which fields of the state each operation of Sys2Proof/Machine/Calls.lean can change. -/

namespace Sys2Proof.Machine

set_option linter.all false
set_option Elab.async false

/-- Fields that operations of this file change. -/
def Fld.ofCalls1 : List Fld :=
  [.regs_, .ctrs_, .tiles_, .redClk_, .hbm_, .cxl_, .hbmUe_, .metaCache_, .sideArea_, .tcache_, .wcache_, .cues_,
   .ports_, .sess_, .sessIn_, .reqs_, .nextTag_, .loom_, .queues_, .fences_, .objs_, .freed_, .ctxs_, .fns_,
   .hostReads_, .fwNeed_, .fwGot_, .fwHeld_, .casts_, .serve_, .power_, .sec_, .fw_, .inc_, .twin_, .freeCtr_,
   .out_]

theorem State.markStarted_only {fl : List Fld} {sa s : State} {q : Nat} {index : Nat} {wait : Bool} {due : Option Nat}
    (hk : Only fl sa s) (hsub : Fld.sub [.queues_] fl = true) : Only fl sa (State.markStarted s q index wait due) := by
    refine Only.seq (l := [.queues_]) hk ?_ hsub
    clear hk hsub
    unfold State.markStarted
    repeat' first
      | with_reducible exact Only.refl _ _
      | with_reducible apply State.setQueue_only
      | refine Fld.yes rfl

theorem State.admitStep_only {fl : List Fld} {sa s : State} {b : Nat} {q : Nat} {c : FetchedCall}
    (hk : Only fl sa s) (hsub : Fld.sub [.regs_, .ctrs_, .tiles_, .hbm_, .cxl_, .hbmUe_, .metaCache_, .sideArea_, .cues_, .reqs_, .nextTag_, .loom_, .queues_, .fences_, .objs_, .freed_, .ctxs_, .fns_, .hostReads_, .fwGot_, .fwHeld_, .sec_, .fw_, .inc_, .twin_, .freeCtr_, .out_] fl = true) : Only fl sa (State.admitStep s b q c) := by
    refine Only.seq (l := [.regs_, .ctrs_, .tiles_, .hbm_, .cxl_, .hbmUe_, .metaCache_, .sideArea_, .cues_, .reqs_, .nextTag_, .loom_, .queues_, .fences_, .objs_, .freed_, .ctxs_, .fns_, .hostReads_, .fwGot_, .fwHeld_, .sec_, .fw_, .inc_, .twin_, .freeCtr_, .out_]) hk ?_ hsub
    clear hk hsub
    unfold State.admitStep
    repeat' first
      | with_reducible exact Only.refl _ _
      | with_reducible assumption
      | with_reducible apply State.startNext_only
      | with_reducible apply State.writeCompletion_only
      | with_reducible apply State.voidForScene_only
      | with_reducible apply State.markStarted_only
      | with_reducible apply State.updCtx_only
      | with_reducible apply State.draw_only
      | with_reducible apply Only.ite
      | refine Fld.yes rfl
      | (extract_lets +onlyGivenNames zz; refine Only.have_ (u := zz) ?_ (fun _ => ?_); rotate_left; try clear_value zz; revert zz; intros; rotate_right; dsimp -zeta only [zz]; clear zz)
      | (extract_lets +onlyGivenNames zz; refine Only.have_ (u := zz.1) ?_ (fun _ => ?_); rotate_left; try clear_value zz; revert zz; intros; rotate_right; dsimp -zeta only [zz]; clear zz)
      | (extract_lets +onlyGivenNames zz; try clear_value zz; revert zz; intros)
      | split

theorem State.stopDrain_only {fl : List Fld} {sa s : State} {b : Nat} {keep : Nat → Bool}
    (hk : Only fl sa s) (hsub : Fld.sub Fld.ofCalls1 fl = true) : Only fl sa (State.stopDrain s b keep) := by
    refine Only.seq (l := Fld.ofCalls1) hk ?_ hsub
    clear hk hsub
    unfold State.stopDrain
    repeat' first
      | with_reducible exact Only.refl _ _
      | with_reducible apply State.drainFinish_only
      | with_reducible apply State.boundary_only
      | refine Fld.yes rfl

theorem State.turn_only {fl : List Fld} {sa s : State} {b : Nat} {q : Nat}
    (hk : Only fl sa s) (hsub : Fld.sub [.queueRr_] fl = true) : Only fl sa (State.turn s b q) := by
    refine Only.seq (l := [.queueRr_]) hk ?_ hsub
    clear hk hsub
    unfold State.turn
    repeat' first
      | with_reducible exact Only.refl _ _
      | refine Only.upd ?_ rfl rfl

theorem State.missStep_only {fl : List Fld} {sa s : State} {b : Nat} {r : StepRec}
    (hk : Only fl sa s) (hsub : Fld.sub [.regs_, .ctrs_, .ctxs_, .fns_, .inc_, .out_] fl = true) : Only fl sa (State.missStep s b r) := by
    refine Only.seq (l := [.regs_, .ctrs_, .ctxs_, .fns_, .inc_, .out_]) hk ?_ hsub
    clear hk hsub
    unfold State.missStep
    repeat' first
      | with_reducible exact Only.refl _ _
      | with_reducible apply State.voidWhere_only
      | with_reducible apply State.orReg_only
      | with_reducible apply State.bump_only
      | with_reducible apply State.guarEvent_only
      | with_reducible apply State.report_only
      | with_reducible apply State.updCtx_only
      | refine Fld.yes rfl

theorem State.deliver_only {fl : List Fld} {sa s : State} {b : Nat} {r : StepRec}
    (hk : Only fl sa s) (hsub : Fld.sub Fld.ofCalls1 fl = true) : Only fl sa (State.deliver s b r) := by
    refine Only.seq (l := Fld.ofCalls1) hk ?_ hsub
    clear hk hsub
    unfold State.deliver
    repeat' first
      | with_reducible exact Only.refl _ _
      | with_reducible assumption
      | with_reducible apply State.setCtxMode_only
      | with_reducible apply State.startNext_only
      | with_reducible apply State.stopDrain_only
      | with_reducible apply State.endStep_only
      | with_reducible apply State.setReg64_only
      | with_reducible apply State.holdStep_only
      | with_reducible apply State.missStep_only
      | with_reducible apply Only.ite
      | refine Fld.yes rfl
      | (extract_lets +onlyGivenNames zz; refine Only.have_ (u := zz) ?_ (fun _ => ?_); rotate_left; try clear_value zz; revert zz; intros; rotate_right; dsimp -zeta only [zz]; clear zz)
      | split

theorem State.refuseStep_only {fl : List Fld} {sa s : State} {b : Nat} {q : Nat} {c : FetchedCall}
    (hk : Only fl sa s) (hsub : Fld.sub [.regs_, .ctrs_, .tiles_, .hbm_, .cxl_, .hbmUe_, .metaCache_, .sideArea_, .cues_, .reqs_, .nextTag_, .loom_, .queues_, .fences_, .objs_, .freed_, .ctxs_, .fns_, .hostReads_, .fwGot_, .fwHeld_, .sec_, .fw_, .inc_, .twin_, .out_] fl = true) : Only fl sa (State.refuseStep s b q c) := by
    refine Only.seq (l := [.regs_, .ctrs_, .tiles_, .hbm_, .cxl_, .hbmUe_, .metaCache_, .sideArea_, .cues_, .reqs_, .nextTag_, .loom_, .queues_, .fences_, .objs_, .freed_, .ctxs_, .fns_, .hostReads_, .fwGot_, .fwHeld_, .sec_, .fw_, .inc_, .twin_, .out_]) hk ?_ hsub
    clear hk hsub
    unfold State.refuseStep
    repeat' first
      | with_reducible exact Only.refl _ _
      | with_reducible apply State.complete_only
      | with_reducible apply State.raiseBlocking_only
      | refine Fld.yes rfl

theorem State.runStep_only {fl : List Fld} {sa s : State} {b : Nat} {q : Nat} {c : FetchedCall}
    (hk : Only fl sa s) (hsub : Fld.sub [.regs_, .ctrs_, .tiles_, .hbm_, .cxl_, .hbmUe_, .metaCache_, .sideArea_, .cues_, .reqs_, .nextTag_, .loom_, .queues_, .queueRr_, .fences_, .objs_, .freed_, .ctxs_, .fns_, .hostReads_, .fwGot_, .fwHeld_, .sec_, .fw_, .inc_, .twin_, .freeCtr_, .out_] fl = true) : Only fl sa (State.runStep s b q c) := by
    refine Only.seq (l := [.regs_, .ctrs_, .tiles_, .hbm_, .cxl_, .hbmUe_, .metaCache_, .sideArea_, .cues_, .reqs_, .nextTag_, .loom_, .queues_, .queueRr_, .fences_, .objs_, .freed_, .ctxs_, .fns_, .hostReads_, .fwGot_, .fwHeld_, .sec_, .fw_, .inc_, .twin_, .freeCtr_, .out_]) hk ?_ hsub
    clear hk hsub
    unfold State.runStep
    repeat' first
      | with_reducible exact Only.refl _ _
      | with_reducible apply State.admitStep_only
      | with_reducible apply State.refuseStep_only
      | with_reducible apply State.complete_only
      | with_reducible apply State.turn_only
      | with_reducible apply Only.ite
      | refine Fld.yes rfl

theorem execStepAdmission_only (at_ : Sys2Proof.AdmitAt) (s : State) {sz : State}
    (h : execStepAdmission at_ s = .next sz) : Only [.regs_, .ctrs_, .tiles_, .hbm_, .cxl_, .hbmUe_, .metaCache_, .sideArea_, .cues_, .reqs_, .nextTag_, .loom_, .queues_, .queueRr_, .fences_, .objs_, .freed_, .ctxs_, .fns_, .hostReads_, .fwGot_, .fwHeld_, .sec_, .fw_, .inc_, .twin_, .freeCtr_, .out_] s sz := by
    unfold execStepAdmission at h
    cases h
    repeat' first
      | with_reducible exact Only.refl _ _
      | with_reducible apply State.farStart_only
      | with_reducible apply State.turn_only
      | with_reducible apply State.admitStep_only
      | with_reducible apply Only.ite
      | refine Fld.yes rfl
      | split

theorem execStepDelivery_only (b : Sys2Proof.Bolt) (s : State) {sz : State}
    (h : execStepDelivery b s = .next sz) : Only Fld.ofCalls1 s sz := by
    unfold execStepDelivery at h
    cases h
    repeat' first
      | with_reducible exact Only.refl _ _
      | with_reducible apply State.deliver_only
      | with_reducible apply Only.ite
      | refine Fld.yes rfl
      | (extract_lets +onlyGivenNames zz; try clear_value zz; revert zz; intros)
      | split

theorem execGuaranteeMissed_only (b : Sys2Proof.Bolt) (s : State) {sz : State}
    (h : execGuaranteeMissed b s = .next sz) : Only [.regs_, .ctrs_, .ctxs_, .fns_, .inc_, .out_] s sz := by
    unfold execGuaranteeMissed at h
    cases h
    repeat' first
      | with_reducible exact Only.refl _ _
      | with_reducible apply State.missStep_only
      | with_reducible apply Only.ite
      | refine Fld.yes rfl
      | (extract_lets +onlyGivenNames zz; try clear_value zz; revert zz; intros)
      | split

theorem execNop_only (q : Sys2Proof.Queue) (s : State) {sz : State}
    (h : execNop q s = .next sz) : Only [.regs_, .ctrs_, .tiles_, .hbm_, .cxl_, .hbmUe_, .metaCache_, .sideArea_, .cues_, .reqs_, .nextTag_, .loom_, .queues_, .queueRr_, .fences_, .objs_, .freed_, .ctxs_, .fns_, .hostReads_, .fwGot_, .fwHeld_, .sec_, .fw_, .inc_, .twin_, .out_] s sz := by
    unfold execNop at h
    cases h
    repeat' first
      | with_reducible exact Only.refl _ _
      | with_reducible apply State.turn_only
      | with_reducible apply State.complete_only
      | refine Fld.yes rfl
      | split

theorem execStep_only (q : Sys2Proof.Queue) (s : State) {sz : State}
    (h : execStep q s = .next sz) : Only [.regs_, .ctrs_, .tiles_, .hbm_, .cxl_, .hbmUe_, .metaCache_, .sideArea_, .cues_, .reqs_, .nextTag_, .loom_, .queues_, .queueRr_, .fences_, .objs_, .freed_, .ctxs_, .fns_, .hostReads_, .fwGot_, .fwHeld_, .sec_, .fw_, .inc_, .twin_, .freeCtr_, .out_] s sz := by
    unfold execStep at h
    cases h
    repeat' first
      | with_reducible exact Only.refl _ _
      | with_reducible apply State.runStep_only
      | refine Fld.yes rfl
      | split

theorem execSignal_only (q : Sys2Proof.Queue) (s : State) {sz : State}
    (h : execSignal q s = .next sz) : Only [.regs_, .ctrs_, .tiles_, .hbm_, .cxl_, .hbmUe_, .metaCache_, .sideArea_, .cues_, .reqs_, .nextTag_, .loom_, .queues_, .queueRr_, .fences_, .objs_, .freed_, .ctxs_, .fns_, .hostReads_, .fwGot_, .fwHeld_, .sec_, .fw_, .inc_, .twin_, .out_] s sz := by
    unfold execSignal at h
    cases h
    repeat' first
      | with_reducible exact Only.refl _ _
      | with_reducible apply State.turn_only
      | with_reducible apply State.complete_only
      | refine Fld.yes rfl
      | split

theorem execWait_only (q : Sys2Proof.Queue) (s : State) {sz : State}
    (h : execWait q s = .next sz) : Only [.regs_, .ctrs_, .tiles_, .hbm_, .cxl_, .hbmUe_, .metaCache_, .sideArea_, .cues_, .reqs_, .nextTag_, .loom_, .queues_, .queueRr_, .fences_, .objs_, .freed_, .ctxs_, .fns_, .hostReads_, .fwGot_, .fwHeld_, .sec_, .fw_, .inc_, .twin_, .out_] s sz := by
    unfold execWait at h
    cases h
    repeat' first
      | with_reducible exact Only.refl _ _
      | with_reducible assumption
      | with_reducible apply State.markStarted_only
      | with_reducible apply State.complete_only
      | with_reducible apply State.turn_only
      | refine Fld.yes rfl
      | (extract_lets +onlyGivenNames zz; refine Only.have_ (u := zz) ?_ (fun _ => ?_); rotate_left; try clear_value zz; revert zz; intros; rotate_right; dsimp -zeta only [zz]; clear zz)
      | (extract_lets +onlyGivenNames zz; try clear_value zz; revert zz; intros)
      | split

theorem execWaitTimeout_only (q : Sys2Proof.Queue) (s : State) {sz : State}
    (h : execWaitTimeout q s = .next sz) : Only [.regs_, .ctrs_, .tiles_, .hbm_, .cxl_, .hbmUe_, .metaCache_, .sideArea_, .cues_, .reqs_, .nextTag_, .loom_, .queues_, .fences_, .objs_, .freed_, .ctxs_, .fns_, .hostReads_, .fwGot_, .fwHeld_, .sec_, .fw_, .inc_, .twin_, .out_] s sz := by
    unfold execWaitTimeout at h
    cases h
    repeat' first
      | with_reducible exact Only.refl _ _
      | with_reducible apply State.complete_only
      | with_reducible apply Only.ite
      | refine Fld.yes rfl
      | (extract_lets +onlyGivenNames zz; try clear_value zz; revert zz; intros)
      | split

theorem execCueArm_only (q : Sys2Proof.Queue) (s : State) {sz : State}
    (h : execCueArm q s = .next sz) : Only [.regs_, .ctrs_, .tiles_, .hbm_, .cxl_, .hbmUe_, .metaCache_, .sideArea_, .cues_, .reqs_, .nextTag_, .loom_, .queues_, .queueRr_, .fences_, .objs_, .freed_, .ctxs_, .fns_, .hostReads_, .fwGot_, .fwHeld_, .sec_, .fw_, .inc_, .twin_, .out_] s sz := by
    unfold execCueArm at h
    cases h
    repeat' first
      | with_reducible exact Only.refl _ _
      | with_reducible assumption
      | with_reducible apply State.armSlot_only
      | with_reducible apply State.complete_only
      | with_reducible apply State.turn_only
      | with_reducible apply Only.ite
      | refine Fld.yes rfl
      | (extract_lets +onlyGivenNames zz; refine Only.have_ (u := zz) ?_ (fun _ => ?_); rotate_left; try clear_value zz; revert zz; intros; rotate_right; dsimp -zeta only [zz]; clear zz)
      | (extract_lets +onlyGivenNames zz; try clear_value zz; revert zz; intros)
      | split

theorem execCueCancel_only (q : Sys2Proof.Queue) (s : State) {sz : State}
    (h : execCueCancel q s = .next sz) : Only [.regs_, .ctrs_, .tiles_, .hbm_, .cxl_, .hbmUe_, .metaCache_, .sideArea_, .cues_, .reqs_, .nextTag_, .loom_, .queues_, .queueRr_, .fences_, .objs_, .freed_, .ctxs_, .fns_, .hostReads_, .fwGot_, .fwHeld_, .sec_, .fw_, .inc_, .twin_, .out_] s sz := by
    unfold execCueCancel at h
    cases h
    repeat' first
      | with_reducible exact Only.refl _ _
      | with_reducible assumption
      | with_reducible apply State.complete_only
      | with_reducible apply State.cancelCue_only
      | with_reducible apply State.turn_only
      | refine Fld.yes rfl
      | (extract_lets +onlyGivenNames zz; refine Only.have_ (u := zz) ?_ (fun _ => ?_); rotate_left; try clear_value zz; revert zz; intros; rotate_right; dsimp -zeta only [zz]; clear zz)
      | (extract_lets +onlyGivenNames zz; try clear_value zz; revert zz; intros)
      | split

theorem execBarrier_only (q : Sys2Proof.Queue) (s : State) {sz : State}
    (h : execBarrier q s = .next sz) : Only [.regs_, .ctrs_, .tiles_, .hbm_, .cxl_, .hbmUe_, .metaCache_, .sideArea_, .cues_, .reqs_, .nextTag_, .loom_, .queues_, .queueRr_, .fences_, .objs_, .freed_, .ctxs_, .fns_, .hostReads_, .fwGot_, .fwHeld_, .sec_, .fw_, .inc_, .twin_, .out_] s sz := by
    unfold execBarrier at h
    cases h
    repeat' first
      | with_reducible exact Only.refl _ _
      | with_reducible apply State.turn_only
      | with_reducible apply State.complete_only
      | refine Fld.yes rfl
      | split

end Sys2Proof.Machine
end

