-- ==== Sys2Proof/Laws/FrameSessOps.lean ====
section
/-! SUPPORT. Which fields of the state each operation of Sys2Proof/Machine/SessOps.lean can change. -/

namespace Sys2Proof.Machine

set_option linter.all false
set_option Elab.async false

/-- Fields that operations of this file change. -/
def Fld.ofSessOps1 : List Fld :=
  [.regs_, .ctrs_, .tiles_, .hbm_, .cxl_, .hbmUe_, .metaCache_, .sideArea_, .cues_, .ports_, .sess_, .sessIn_,
   .reqs_, .nextTag_, .loom_, .queues_, .fences_, .objs_, .freed_, .ctxs_, .fns_, .hostReads_, .fwGot_, .fwHeld_,
   .power_, .sec_, .fw_, .inc_, .twin_, .out_]

/-- Fields that operations of this file change. -/
def Fld.ofSessOps2 : List Fld :=
  [.regs_, .ctrs_, .tiles_, .hbm_, .cxl_, .hbmUe_, .metaCache_, .sideArea_, .cues_, .ports_, .sess_, .sessIn_,
   .reqs_, .nextTag_, .loom_, .queues_, .fences_, .objs_, .freed_, .ctxs_, .fns_, .hostReads_, .fwGot_, .fwHeld_,
   .power_, .sec_, .fw_, .inc_, .twin_, .freeCtr_, .out_]

theorem State.popMsg_only {fl : List Fld} {sa s t : State} {peer b opx : Nat} {m : SessMsg}
    (h : s.popMsg peer b opx = some (t, m)) (hk : Only fl sa s) (hsub : Fld.sub [.sessIn_] fl = true) : Only fl sa t := by
  unfold State.popMsg at h
  simp only [Option.map_eq_some_iff, Prod.mk.injEq] at h
  obtain ⟨x, _, hx, _⟩ := h
  rw [← hx]
  exact Only.seq (l := [.sessIn_]) hk (Only.upd (Only.refl _ _) rfl rfl) hsub

theorem State.loadFail_only {fl : List Fld} {sa s : State} {b : Nat} {st : Nat} {cause : Nat}
    (hk : Only fl sa s) (hsub : Fld.sub Fld.ofSessOps1 fl = true) : Only fl sa (State.loadFail s b st cause) := by
    refine Only.seq (l := Fld.ofSessOps1) hk ?_ hsub
    clear hk hsub
    unfold State.loadFail
    repeat' first
      | with_reducible exact Only.refl _ _
      | with_reducible apply State.ctxLeave_only
      | with_reducible apply State.complete_only
      | with_reducible apply Only.ite
      | refine Fld.yes rfl
      | (extract_lets +onlyGivenNames zz; try clear_value zz; revert zz; intros)
      | split

theorem State.sessFail_only {fl : List Fld} {sa s : State} {p : Nat} {peer : Nat} {b : Nat} {cause : Nat}
    (hk : Only fl sa s) (hsub : Fld.sub Fld.ofSessOps1 fl = true) : Only fl sa (State.sessFail s p peer b cause) := by
    refine Only.seq (l := Fld.ofSessOps1) hk ?_ hsub
    clear hk hsub
    unfold State.sessFail
    repeat' first
      | with_reducible exact Only.refl _ _
      | with_reducible apply State.loadFail_only
      | with_reducible apply State.raise_only
      | refine Fld.yes rfl

theorem State.dropMessages_only {fl : List Fld} {sa s : State} {peer : Nat} {b : Nat}
    (hk : Only fl sa s) (hsub : Fld.sub [.sessIn_] fl = true) : Only fl sa (State.dropMessages s peer b) := by
    refine Only.seq (l := [.sessIn_]) hk ?_ hsub
    clear hk hsub
    unfold State.dropMessages
    repeat' first
      | with_reducible exact Only.refl _ _
      | refine Only.upd ?_ rfl rfl

theorem State.setupFail_only {fl : List Fld} {sa s : State} {p : Nat} {k : Nat} {cause : Nat}
    (hk : Only fl sa s) (hsub : Fld.sub Fld.ofSessOps1 fl = true) : Only fl sa (State.setupFail s p k cause) := by
    refine Only.seq (l := Fld.ofSessOps1) hk ?_ hsub
    clear hk hsub
    unfold State.setupFail
    repeat' first
      | with_reducible exact Only.refl _ _
      | with_reducible apply State.dropSess_only
      | with_reducible apply State.dropMessages_only
      | with_reducible apply State.sessFail_only
      | refine Fld.yes rfl
      | split

theorem State.updSess_only {fl : List Fld} {sa s : State} {k : Nat} {f : Sess → Sess}
    (hk : Only fl sa s) (hsub : Fld.sub [.sess_] fl = true) : Only fl sa (State.updSess s k f) := by
    refine Only.seq (l := [.sess_]) hk ?_ hsub
    clear hk hsub
    unfold State.updSess
    repeat' first
      | with_reducible exact Only.refl _ _
      | with_reducible apply State.setSess_only
      | refine Fld.yes rfl
      | split

theorem State.sendConfirm_only {fl : List Fld} {sa s : State} {k : Nat}
    (hk : Only fl sa s) (hsub : Fld.sub [.regs_, .ctrs_, .tiles_, .cues_, .ports_, .sess_, .reqs_, .nextTag_, .loom_, .ctxs_, .fns_, .hostReads_, .fwGot_, .fwHeld_, .sec_, .fw_, .inc_, .out_] fl = true) : Only fl sa (State.sendConfirm s k) := by
    refine Only.seq (l := [.regs_, .ctrs_, .tiles_, .cues_, .ports_, .sess_, .reqs_, .nextTag_, .loom_, .ctxs_, .fns_, .hostReads_, .fwGot_, .fwHeld_, .sec_, .fw_, .inc_, .out_]) hk ?_ hsub
    clear hk hsub
    unfold State.sendConfirm
    repeat' first
      | with_reducible exact Only.refl _ _
      | with_reducible apply State.updSess_only
      | with_reducible apply State.sendSess_only
      | refine Fld.yes rfl

theorem State.takeOffer_only {fl : List Fld} {sa s : State} {k : Nat} {x : Sess} {data : List Sys2Proof.Byte} {sigOk : Bool}
    (hk : Only fl sa s) (hsub : Fld.sub Fld.ofSessOps2 fl = true) : Only fl sa (State.takeOffer s k x data sigOk) := by
    refine Only.seq (l := Fld.ofSessOps2) hk ?_ hsub
    clear hk hsub
    unfold State.takeOffer
    repeat' first
      | with_reducible exact Only.refl _ _
      | with_reducible apply State.sendConfirm_only
      | with_reducible apply State.setSess_only
      | with_reducible apply State.sendSess_only
      | with_reducible apply State.draw_only
      | with_reducible apply State.setupFail_only
      | with_reducible apply Only.ite
      | refine Fld.yes rfl

theorem State.takeEncaps_only {fl : List Fld} {sa s : State} {k : Nat} {x : Sess} {data : List Sys2Proof.Byte}
    (hk : Only fl sa s) (hsub : Fld.sub [.regs_, .ctrs_, .tiles_, .cues_, .ports_, .sess_, .reqs_, .nextTag_, .loom_, .ctxs_, .fns_, .hostReads_, .fwGot_, .fwHeld_, .sec_, .fw_, .inc_, .out_] fl = true) : Only fl sa (State.takeEncaps s k x data) := by
    refine Only.seq (l := [.regs_, .ctrs_, .tiles_, .cues_, .ports_, .sess_, .reqs_, .nextTag_, .loom_, .ctxs_, .fns_, .hostReads_, .fwGot_, .fwHeld_, .sec_, .fw_, .inc_, .out_]) hk ?_ hsub
    clear hk hsub
    unfold State.takeEncaps
    repeat' first
      | with_reducible exact Only.refl _ _
      | with_reducible apply State.setSess_only
      | with_reducible apply State.sendConfirm_only
      | refine Fld.yes rfl

theorem State.runSetup_only {fl : List Fld} {sa s : State} {peer : Nat} {b : Nat}
    (hk : Only fl sa s) (hsub : Fld.sub Fld.ofSessOps2 fl = true) : Only fl sa (State.runSetup s peer b) := by
    refine Only.seq (l := Fld.ofSessOps2) hk ?_ hsub
    clear hk hsub
    unfold State.runSetup
    repeat' first
      | with_reducible exact Only.refl _ _
      | with_reducible assumption
      | with_reducible apply State.takeEncaps_only
      | with_reducible apply State.takeOffer_only
      | with_reducible refine State.popMsg_only (by assumption) ?_ ?_
      | with_reducible apply Only.ite
      | refine Fld.yes rfl
      | (extract_lets +onlyGivenNames zz; refine Only.have_ (u := zz) ?_ (fun _ => ?_); rotate_left; try clear_value zz; revert zz; intros; rotate_right; dsimp -zeta only [zz]; clear zz)
      | (extract_lets +onlyGivenNames zz; try clear_value zz; revert zz; intros)
      | split

theorem State.beginSess_only {fl : List Fld} {sa s : State} {b : Nat} {peer : Nat}
    (hk : Only fl sa s) (hsub : Fld.sub Fld.ofSessOps2 fl = true) : Only fl sa (State.beginSess s b peer) := by
    refine Only.seq (l := Fld.ofSessOps2) hk ?_ hsub
    clear hk hsub
    unfold State.beginSess
    repeat' first
      | with_reducible exact Only.refl _ _
      | with_reducible apply State.sendSess_only
      | with_reducible apply State.runSetup_only
      | with_reducible apply State.updCtx_only
      | with_reducible apply State.setSess_only
      | with_reducible apply State.sessFail_only
      | with_reducible apply Only.ite
      | refine Fld.yes rfl
      | (extract_lets +onlyGivenNames zz; try clear_value zz; revert zz; intros)
      | split

theorem State.keepFragment_only {fl : List Fld} {sa s : State} {h : Sys2Proof.PktHdr} {data : List Sys2Proof.Byte} {sigOk : Bool}
    (hk : Only fl sa s) (hsub : Fld.sub [.sessIn_] fl = true) : Only fl sa (State.keepFragment s h data sigOk) := by
    refine Only.seq (l := [.sessIn_]) hk ?_ hsub
    clear hk hsub
    unfold State.keepFragment
    repeat' first
      | with_reducible exact Only.refl _ _
      | with_reducible apply Only.ite
      | (extract_lets +onlyGivenNames zz; try clear_value zz; revert zz; intros)
      | dsimp -zeta only
      | split
      | refine Only.upd ?_ rfl rfl

theorem State.setupRsp_only {fl : List Fld} {sa s : State} {h : Sys2Proof.PktHdr} {ski : Nat} {status : Nat}
    (hk : Only fl sa s) (hsub : Fld.sub [.regs_, .ctrs_, .tiles_, .cues_, .ports_, .sess_, .reqs_, .loom_, .ctxs_, .fns_, .hostReads_, .fwGot_, .fwHeld_, .sec_, .fw_, .inc_, .out_] fl = true) : Only fl sa (State.setupRsp s h ski status) := by
    refine Only.seq (l := [.regs_, .ctrs_, .tiles_, .cues_, .ports_, .sess_, .reqs_, .loom_, .ctxs_, .fns_, .hostReads_, .fwGot_, .fwHeld_, .sec_, .fw_, .inc_, .out_]) hk ?_ hsub
    clear hk hsub
    unfold State.setupRsp
    repeat' first
      | with_reducible exact Only.refl _ _
      | with_reducible apply State.sendPkt_only
      | refine Fld.yes rfl
      | split

end Sys2Proof.Machine
end

