-- ==== Sys2Proof/Laws/FrameContext.lean ====
section
/-! SUPPORT. Which fields of the state each operation of Sys2Proof/Machine/Context.lean can change. -/

namespace Sys2Proof.Machine

set_option linter.all false
set_option Elab.async false

/-- Fields that operations of this file change. -/
def Fld.ofContext1 : List Fld :=
  [.regs_, .ctrs_, .tiles_, .hbm_, .cxl_, .hbmUe_, .metaCache_, .sideArea_, .cues_, .ports_, .sess_, .reqs_,
   .nextTag_, .loom_, .queues_, .queueRr_, .fences_, .objs_, .freed_, .ctxs_, .fns_, .hostReads_, .fwGot_, .fwHeld_,
   .sec_, .fw_, .inc_, .twin_, .out_]

/-- Fields that operations of this file change. -/
def Fld.ofContext2 : List Fld :=
  [.regs_, .ctrs_, .tiles_, .hbm_, .cxl_, .hbmUe_, .metaCache_, .sideArea_, .tcache_, .wcache_, .cues_, .ports_,
   .sess_, .reqs_, .nextTag_, .loom_, .queues_, .queueRr_, .fences_, .objs_, .freed_, .ctxs_, .fns_, .hostReads_,
   .fwNeed_, .fwGot_, .fwHeld_, .sec_, .fw_, .inc_, .twin_, .freeCtr_, .out_]

/-- Fields that operations of this file change. -/
def Fld.ofContext3 : List Fld :=
  [.regs_, .ctrs_, .tiles_, .redRun_, .hbm_, .cxl_, .hbmUe_, .metaCache_, .sideArea_, .cues_, .ports_, .sess_,
   .sessIn_, .reqs_, .nextTag_, .loom_, .queues_, .fences_, .objs_, .freed_, .ctxs_, .fns_, .hostReads_, .fwGot_,
   .fwHeld_, .power_, .sec_, .fw_, .inc_, .twin_, .freeCtr_, .out_]

/-- Fields that operations of this file change. -/
def Fld.ofContext4 : List Fld :=
  [.regs_, .ctrs_, .tiles_, .redRun_, .hbm_, .cxl_, .hbmUe_, .metaCache_, .sideArea_, .tcache_, .wcache_, .cues_,
   .ports_, .sess_, .sessIn_, .reqs_, .nextTag_, .loom_, .queues_, .queueRr_, .fences_, .objs_, .freed_, .ctxs_,
   .fns_, .hostReads_, .fwNeed_, .fwGot_, .fwHeld_, .power_, .sec_, .fw_, .inc_, .twin_, .freeCtr_, .out_]

theorem State.areaBad_only {fl : List Fld} {sa s : State} {b : Nat} {at_ : Nat} {len : Nat} {n : Nat}
    (hk : Only fl sa s) (hsub : Fld.sub [.ctrs_, .tcache_, .wcache_, .fwNeed_, .freeCtr_] fl = true) : Only fl sa (State.areaBad s b at_ len n).1 := by
    refine Only.seq (l := [.ctrs_, .tcache_, .wcache_, .fwNeed_, .freeCtr_]) hk ?_ hsub
    clear hk hsub
    unfold State.areaBad
    repeat' first
      | with_reducible exact Only.refl _ _
      | with_reducible assumption
      | with_reducible apply State.allHbm_only
      | refine Fld.yes rfl
      | (extract_lets +onlyGivenNames zz; refine Only.have_ (u := zz.1) ?_ (fun _ => ?_); rotate_left; try clear_value zz; revert zz; intros; rotate_right; dsimp -zeta only [zz]; clear zz)
      | split

theorem State.clearWindow_only {fl : List Fld} {sa s : State} {b : Nat}
    (hk : Only fl sa s) (hsub : Fld.sub [.regs_, .ctrs_] fl = true) : Only fl sa (State.clearWindow s b) := by
    refine Only.seq (l := [.regs_, .ctrs_]) hk ?_ hsub
    clear hk hsub
    unfold State.clearWindow
    repeat' first
      | with_reducible exact Only.refl _ _
      | with_reducible apply State.setReg_only
      | refine Fld.yes rfl
      | (extract_lets +onlyGivenNames zz; try clear_value zz; revert zz; intros)
      | refine Only.upd ?_ rfl rfl

theorem State.copyIn_only {fl : List Fld} {sa s : State} {b : Nat} {y2 : Nat} {y3 : Nat} {y4 : Nat}
    (hk : Only fl sa s) (hsub : Fld.sub [.ctrs_, .metaCache_, .sideArea_, .tcache_, .wcache_, .fwNeed_, .sec_, .freeCtr_] fl = true) : Only fl sa (State.copyIn s b y2 y3 y4).1 := by
    refine Only.seq (l := [.ctrs_, .metaCache_, .sideArea_, .tcache_, .wcache_, .fwNeed_, .sec_, .freeCtr_]) hk ?_ hsub
    clear hk hsub
    fun_induction State.copyIn s b y2 y3 y4
    all_goals
      repeat' first
        | with_reducible exact Only.refl _ _
        | with_reducible apply State.fwLoad_only
        | with_reducible apply State.fwXlt_only
        | with_reducible refine Only.seq (l := [.ctrs_, .metaCache_, .sideArea_, .tcache_, .wcache_, .fwNeed_, .sec_, .freeCtr_]) ?_ (by assumption) rfl
        | refine Fld.yes rfl

theorem State.copyOut_only {fl : List Fld} {sa s : State} {s0 : State} {b : Nat} {draw : Nat} {src : List (Nat × Nat)} {y5 : Nat} {y6 : Nat} {y7 : Nat} {y8 : List Sys2Proof.Byte} {y9 : Nat}
    (hk : Only fl sa s) (hsub : Fld.sub [.regs_, .ctrs_, .tiles_, .hbm_, .cxl_, .hbmUe_, .metaCache_, .sideArea_, .tcache_, .wcache_, .cues_, .reqs_, .nextTag_, .loom_, .ctxs_, .fns_, .hostReads_, .fwNeed_, .fwGot_, .fwHeld_, .sec_, .fw_, .inc_, .twin_, .freeCtr_, .out_] fl = true) : Only fl sa (State.copyOut s s0 b draw src y5 y6 y7 y8 y9).1 := by
    refine Only.seq (l := [.regs_, .ctrs_, .tiles_, .hbm_, .cxl_, .hbmUe_, .metaCache_, .sideArea_, .tcache_, .wcache_, .cues_, .reqs_, .nextTag_, .loom_, .ctxs_, .fns_, .hostReads_, .fwNeed_, .fwGot_, .fwHeld_, .sec_, .fw_, .inc_, .twin_, .freeCtr_, .out_]) hk ?_ hsub
    clear hk hsub
    fun_induction State.copyOut s s0 b draw src y5 y6 y7 y8 y9
    all_goals
      repeat' first
        | with_reducible exact Only.refl _ _
        | with_reducible apply State.fwStore_only
        | with_reducible apply State.fwXlt_only
        | with_reducible refine Only.seq (l := [.regs_, .ctrs_, .tiles_, .hbm_, .cxl_, .hbmUe_, .metaCache_, .sideArea_, .tcache_, .wcache_, .cues_, .reqs_, .nextTag_, .loom_, .ctxs_, .fns_, .hostReads_, .fwNeed_, .fwGot_, .fwHeld_, .sec_, .fw_, .inc_, .twin_, .freeCtr_, .out_]) ?_ (by assumption) rfl
        | refine Fld.yes rfl

theorem State.copyEnd_only {fl : List Fld} {sa s0 s : State} {b q : Nat} {c : FetchedCall} {g : Got Nat} {pages : Nat}
    (hk0 : Only fl sa s0) (hk : Only fl sa s) (hsub : Fld.sub Fld.ofContext1 fl = true) :
    Only fl sa (s.copyEnd s0 b q c g pages) := by
  unfold State.copyEnd
  repeat' first
    | assumption
    | with_reducible apply State.turn_only
    | with_reducible apply State.fwDone_only
    | with_reducible apply State.fwAwait_only
    | with_reducible apply Got.raise_only
    | dsimp only
    | with_reducible apply State.complete_only
    | with_reducible apply State.markStarted_only
    | with_reducible apply State.raiseUe_only
    | exact Fld.sub_trans (by decide) hsub
    | split

theorem State.copyCall_only {fl : List Fld} {sa s : State} {b : Nat} {q : Nat} {c : FetchedCall}
    (hk : Only fl sa s) (hsub : Fld.sub Fld.ofContext2 fl = true) : Only fl sa (State.copyCall s b q c) := by
    refine Only.seq (l := Fld.ofContext2) hk ?_ hsub
    clear hk hsub
    unfold State.copyCall
    repeat' first
      | with_reducible exact Only.refl _ _
      | with_reducible assumption
      | with_reducible apply State.copyEnd_only
      | with_reducible apply State.copyOut_only
      | with_reducible apply State.draw_only
      | with_reducible apply State.copyIn_only
      | refine Fld.yes rfl
      | (extract_lets +onlyGivenNames zz; refine Only.have_ (u := zz.1) ?_ (fun _ => ?_); rotate_left; try clear_value zz; revert zz; intros; rotate_right; dsimp -zeta only [zz]; clear zz)
      | (extract_lets +onlyGivenNames zz; try clear_value zz; revert zz; intros)
      | split

theorem State.loadTiles_only {fl : List Fld} {sa s : State} {b : Nat} {k : Blocking}
    (hk : Only fl sa s) (hsub : Fld.sub [.tiles_, .freeCtr_] fl = true) : Only fl sa (State.loadTiles s b k) := by
    refine Only.seq (l := [.tiles_, .freeCtr_]) hk ?_ hsub
    clear hk hsub
    unfold State.loadTiles
    repeat' first
      | with_reducible exact Only.refl _ _
      | with_reducible assumption
      | with_reducible apply State.updTile_only
      | with_reducible apply Only.foldl
      | intro _ _ _
      | refine Fld.yes rfl
      | (extract_lets +onlyGivenNames zz; try clear_value zz; revert zz; intros)
      | refine Only.upd ?_ rfl rfl

theorem State.restartRounds_only {fl : List Fld} {sa s : State} {b : Nat}
    (hk : Only fl sa s) (hsub : Fld.sub [.redRun_] fl = true) : Only fl sa (State.restartRounds s b) := by
    refine Only.seq (l := [.redRun_]) hk ?_ hsub
    clear hk hsub
    unfold State.restartRounds
    repeat' first
      | with_reducible exact Only.refl _ _
      | (extract_lets +onlyGivenNames zz; try clear_value zz; revert zz; intros)
      | refine Only.upd ?_ rfl rfl

theorem State.ctxBegin_only {fl : List Fld} {sa s : State} {b : Nat} {q : Nat} {c : FetchedCall} {blks : List Blocking} {hash : BitVec 256} {j : Nat} {k : Blocking}
    (hk : Only fl sa s) (hsub : Fld.sub Fld.ofContext3 fl = true) : Only fl sa (State.ctxBegin s b q c blks hash j k) := by
    refine Only.seq (l := Fld.ofContext3) hk ?_ hsub
    clear hk hsub
    unfold State.ctxBegin
    repeat' first
      | with_reducible exact Only.refl _ _
      | with_reducible assumption
      | with_reducible apply State.beginSess_only
      | with_reducible apply State.markStarted_only
      | with_reducible apply State.clearWindow_only
      | with_reducible apply State.restartRounds_only
      | with_reducible apply State.resetShares_only
      | with_reducible apply State.loadTiles_only
      | with_reducible apply State.setCtxMode_only
      | with_reducible apply State.updCtx_only
      | with_reducible apply State.draw_only
      | with_reducible apply Only.foldl
      | intro _ _ _
      | refine Fld.yes rfl

theorem State.keyRegions_only {fl : List Fld} {sa s : State} {b : Nat}
    (hk : Only fl sa s) (hsub : Fld.sub [.tiles_, .hbm_, .cxl_, .metaCache_, .sideArea_, .sec_, .freeCtr_] fl = true) : Only fl sa (State.keyRegions s b) := by
    refine Only.seq (l := [.tiles_, .hbm_, .cxl_, .metaCache_, .sideArea_, .sec_, .freeCtr_]) hk ?_ hsub
    clear hk hsub
    unfold State.keyRegions
    repeat' first
      | with_reducible exact Only.refl _ _
      | with_reducible assumption
      | with_reducible apply State.setRegRun_only
      | with_reducible apply State.forgetRegion_only
      | with_reducible apply State.newKey_only
      | with_reducible apply Only.ite
      | with_reducible apply Only.foldl
      | intro _ _ _
      | refine Fld.yes rfl

theorem State.readProd_only {fl : List Fld} {sa s : State} {b uva : Nat} (hk : Only fl sa s) (hsub : Fld.sub [.ctrs_, .metaCache_, .sideArea_, .tcache_, .wcache_, .fwNeed_, .sec_, .freeCtr_] fl = true) :
    Only fl sa (s.readProd b uva).1 := by
  unfold State.readProd
  extract_lets fail h
  have hf : ∀ {α : Type} (x : State × Got α), Only fl sa x.1 → Only fl sa (fail x).1 := by
    intro α x hx
    dsimp only [fail]
    split <;> exact hx
  clear_value fail
  have hh : Only fl sa h.1 := State.fwGather_only hk (Fld.sub_trans (by decide) hsub)
  clear_value h
  split
  · split
    · exact hh
    · extract_lets d
      have hd : Only fl sa d.1 := State.fwGather_only hh (Fld.sub_trans (by decide) hsub)
      clear_value d
      split
      · extract_lets es
        clear_value es
        split
        · exact hd
        · rename_i t _
          have ht : Only fl sa t.1 := State.fwRanges_only hd (Fld.sub_trans (by decide) hsub)
          clear_value t
          split
          · extract_lets ents tmpl
            clear_value ents tmpl
            split
            · exact ht
            · rename_i r g _
              have hr : Only fl sa r.1 := State.fwRanges_only ht (Fld.sub_trans (by decide) hsub)
              have hg : Only fl sa g.1 := State.fwGather_only hr (Fld.sub_trans (by decide) hsub)
              clear_value g
              clear_value r
              split
              · split
                · exact hg
                · exact hf _ hg
              · exact hf _ hr
          · exact hf _ ht
      · exact hf _ hd
  · exact hf _ hh

theorem State.pickBlocking_only {fl : List Fld} {sa s : State} {b : Nat} {l : List Blocking}
    (hk : Only fl sa s) (hsub : Fld.sub [.freeCtr_] fl = true) : Only fl sa (State.pickBlocking s b l).1 := by
    refine Only.seq (l := [.freeCtr_]) hk ?_ hsub
    clear hk hsub
    unfold State.pickBlocking
    repeat' first
      | with_reducible exact Only.refl _ _
      | with_reducible assumption
      | with_reducible apply State.draw_only
      | refine Fld.yes rfl
      | (extract_lets +onlyGivenNames zz; refine Only.have_ (u := zz.1) ?_ (fun _ => ?_); rotate_left; try clear_value zz; revert zz; intros; rotate_right; dsimp -zeta only [zz]; clear zz)
      | (extract_lets +onlyGivenNames zz; try clear_value zz; revert zz; intros)
      | split

theorem State.ctxLoad_only {fl : List Fld} {sa s : State} {b q : Nat} {c : FetchedCall} (hk : Only fl sa s)
    (hsub : Fld.sub Fld.ofContext4 fl = true) : Only fl sa (s.ctxLoad b q c) := by
  unfold State.ctxLoad
  extract_lets w t s0 s1 r refused bad
  have ht : Only fl sa t := State.turn_only hk (Fld.sub_trans (by decide) hsub)
  have hy : Only fl sa s0 := State.keyRegions_only ht (Fld.sub_trans (by decide) hsub)
  have hr : Only fl sa r.1 := State.readProd_only (State.updCtx_only hy (Fld.sub_trans (by decide) hsub))
    (Fld.sub_trans (by decide) hsub)
  have hz : ∀ f : Nat, Only fl sa ({ s0 with freeCtr := f }.fwDone b) := fun f =>
    State.fwDone_only (Only.seq (l := [.freeCtr_]) hy (Only.upd (Only.refl _ _) rfl rfl) (Fld.sub_trans (by decide) hsub))
      (Fld.sub_trans (by decide) hsub)
  have hf : ∀ f st, Only fl sa (refused f st) := fun f st => State.complete_only (hz f) (Fld.sub_trans (by decide) hsub)
  have hb : ∀ {α : Type} (g : Got α) (f : Nat), Only fl sa (bad g f) := fun g f =>
    Got.raise_only (State.markStarted_only (hz f) (Fld.sub_trans (by decide) hsub)) (Fld.sub_trans (by decide) hsub)
  clear_value bad refused r
  split
  · exact State.complete_only ht (Fld.sub_trans (by decide) hsub)
  · split
    · exact State.fwAwait_only hy (Fld.sub_trans (by decide) hsub)
    · exact hb _ _
    · exact hb _ _
    · exact hf _ _
    · exact hf _ _
    · extract_lets p
      have hp : Only fl sa p.1 := State.pickBlocking_only hr (Fld.sub_trans (by decide) hsub)
      clear_value p
      split
      · exact hf _ _
      · extract_lets a
        have ha : Only fl sa a.1 := State.areaBad_only hp (Fld.sub_trans (by decide) hsub)
        clear_value a
        split
        · exact State.fwAwait_only hy (Fld.sub_trans (by decide) hsub)
        · exact hb _ _
        · exact State.ctxBegin_only (State.fwDone_only ha (Fld.sub_trans (by decide) hsub)) (Fld.sub_trans (by decide) hsub)
        · exact hf _ _
        · exact hf _ _

theorem State.rearm_only {fl : List Fld} {sa s : State} {b : Nat} {d : Nat} {sq : Nat} {y4 : List CueSlotSt} {y5 : List Nat}
    (hk : Only fl sa s) (hsub : Fld.sub [.cues_] fl = true) : Only fl sa (State.rearm s b d sq y4 y5) := by
    refine Only.seq (l := [.cues_]) hk ?_ hsub
    clear hk hsub
    fun_induction State.rearm s b d sq y4 y5
    all_goals
      repeat' first
        | with_reducible exact Only.refl _ _
        | with_reducible apply State.setCue_only
        | with_reducible refine Only.seq (l := [.cues_]) ?_ (by assumption) rfl
        | refine Fld.yes rfl

theorem State.restore_only {fl : List Fld} {sa s : State} {b : Nat}
    (hk : Only fl sa s) (hsub : Fld.sub [.tiles_, .cues_, .ctxs_, .serve_] fl = true) : Only fl sa (State.restore s b) := by
    refine Only.seq (l := [.tiles_, .cues_, .ctxs_, .serve_]) hk ?_ hsub
    clear hk hsub
    unfold State.restore
    repeat' first
      | with_reducible exact Only.refl _ _
      | with_reducible assumption
      | with_reducible apply State.rearm_only
      | with_reducible apply State.setServe_only
      | with_reducible apply State.updCtx_only
      | with_reducible apply State.updTile_only
      | with_reducible apply Only.foldl
      | intro _ _ _
      | refine Fld.yes rfl
      | (extract_lets +onlyGivenNames zz; refine Only.have_ (u := zz) ?_ (fun _ => ?_); rotate_left; try clear_value zz; revert zz; intros; rotate_right; dsimp -zeta only [zz]; clear zz)
      | (extract_lets +onlyGivenNames zz; try clear_value zz; revert zz; intros)
      | split

theorem State.loadDone_only {fl : List Fld} {sa s : State} {b : Nat} {q : Nat} {c : FetchedCall}
    (hk : Only fl sa s) (hsub : Fld.sub [.regs_, .ctrs_, .tiles_, .hbm_, .cxl_, .hbmUe_, .metaCache_, .sideArea_, .cues_, .reqs_, .nextTag_, .loom_, .queues_, .fences_, .objs_, .freed_, .ctxs_, .fns_, .hostReads_, .fwGot_, .fwHeld_, .sec_, .fw_, .inc_, .twin_, .out_] fl = true) : Only fl sa (State.loadDone s b q c) := by
    refine Only.seq (l := [.regs_, .ctrs_, .tiles_, .hbm_, .cxl_, .hbmUe_, .metaCache_, .sideArea_, .cues_, .reqs_, .nextTag_, .loom_, .queues_, .fences_, .objs_, .freed_, .ctxs_, .fns_, .hostReads_, .fwGot_, .fwHeld_, .sec_, .fw_, .inc_, .twin_, .out_]) hk ?_ hsub
    clear hk hsub
    unfold State.loadDone
    repeat' first
      | with_reducible exact Only.refl _ _
      | with_reducible apply State.complete_only
      | with_reducible apply State.updCtx_only
      | with_reducible apply State.takeRef_only
      | refine Fld.yes rfl

theorem State.ctxReady_only {fl : List Fld} {sa s : State} {b : Nat}
    (hk : Only fl sa s) (hsub : Fld.sub [.regs_, .ctrs_, .tiles_, .hbm_, .cxl_, .hbmUe_, .metaCache_, .sideArea_, .cues_, .reqs_, .nextTag_, .loom_, .queues_, .fences_, .objs_, .freed_, .ctxs_, .fns_, .hostReads_, .fwGot_, .fwHeld_, .serve_, .power_, .sec_, .fw_, .inc_, .twin_, .out_] fl = true) : Only fl sa (State.ctxReady s b) := by
    refine Only.seq (l := [.regs_, .ctrs_, .tiles_, .hbm_, .cxl_, .hbmUe_, .metaCache_, .sideArea_, .cues_, .reqs_, .nextTag_, .loom_, .queues_, .fences_, .objs_, .freed_, .ctxs_, .fns_, .hostReads_, .fwGot_, .fwHeld_, .serve_, .power_, .sec_, .fw_, .inc_, .twin_, .out_]) hk ?_ hsub
    clear hk hsub
    unfold State.ctxReady
    repeat' first
      | with_reducible exact Only.refl _ _
      | with_reducible assumption
      | with_reducible apply State.loadDone_only
      | with_reducible apply State.setCtxMode_only
      | with_reducible apply State.updateFloors_only
      | with_reducible apply State.updCtx_only
      | with_reducible apply State.mapTiles_only
      | with_reducible apply State.restore_only
      | with_reducible apply Only.ite
      | refine Fld.yes rfl
      | (extract_lets +onlyGivenNames zz; refine Only.have_ (u := zz) ?_ (fun _ => ?_); rotate_left; try clear_value zz; revert zz; intros; rotate_right; dsimp -zeta only [zz]; clear zz)
      | (extract_lets +onlyGivenNames zz; try clear_value zz; revert zz; intros)
      | split

theorem State.fillCall_only {fl : List Fld} {sa s : State} {b : Nat} {q : Nat} {c : FetchedCall}
    (hk : Only fl sa s) (hsub : Fld.sub Fld.ofContext2 fl = true) : Only fl sa (State.fillCall s b q c) := by
    refine Only.seq (l := Fld.ofContext2) hk ?_ hsub
    clear hk hsub
    unfold State.fillCall
    repeat' first
      | with_reducible exact Only.refl _ _
      | with_reducible assumption
      | with_reducible apply State.copyEnd_only
      | with_reducible apply State.copyOut_only
      | refine Fld.yes rfl
      | (extract_lets +onlyGivenNames zz; refine Only.have_ (u := zz.1) ?_ (fun _ => ?_); rotate_left; try clear_value zz; revert zz; intros; rotate_right; dsimp -zeta only [zz]; clear zz)
      | (extract_lets +onlyGivenNames zz; try clear_value zz; revert zz; intros)
      | split

theorem execCtxLoad_only (q : Sys2Proof.Queue) (s : State) {sz : State}
    (h : execCtxLoad q s = .next sz) : Only Fld.ofContext4 s sz := by
    unfold execCtxLoad at h
    cases h
    repeat' first
      | with_reducible exact Only.refl _ _
      | with_reducible apply State.ctxLoad_only
      | refine Fld.yes rfl
      | split

theorem execContextReady_only (b : Sys2Proof.Bolt) (s : State) {sz : State}
    (h : execContextReady b s = .next sz) : Only [.regs_, .ctrs_, .tiles_, .hbm_, .cxl_, .hbmUe_, .metaCache_, .sideArea_, .cues_, .reqs_, .nextTag_, .loom_, .queues_, .fences_, .objs_, .freed_, .ctxs_, .fns_, .hostReads_, .fwGot_, .fwHeld_, .serve_, .power_, .sec_, .fw_, .inc_, .twin_, .out_] s sz := by
    unfold execContextReady at h
    cases h
    repeat' first
      | with_reducible exact Only.refl _ _
      | with_reducible apply State.ctxReady_only
      | with_reducible apply Only.ite
      | refine Fld.yes rfl

theorem execCtxUnload_only (q : Sys2Proof.Queue) (s : State) {sz : State}
    (h : execCtxUnload q s = .next sz) : Only [.regs_, .ctrs_, .tiles_, .hbm_, .cxl_, .hbmUe_, .metaCache_, .sideArea_, .cues_, .reqs_, .nextTag_, .loom_, .queues_, .queueRr_, .fences_, .objs_, .freed_, .ctxs_, .fns_, .hostReads_, .fwGot_, .fwHeld_, .sec_, .fw_, .inc_, .twin_, .out_] s sz := by
    unfold execCtxUnload at h
    cases h
    repeat' first
      | with_reducible exact Only.refl _ _
      | with_reducible apply State.markStarted_only
      | with_reducible apply State.drainStart_only
      | with_reducible apply State.complete_only
      | with_reducible apply State.turn_only
      | with_reducible apply Only.ite
      | refine Fld.yes rfl
      | split

theorem execCopy_only (q : Sys2Proof.Queue) (s : State) {sz : State}
    (h : execCopy q s = .next sz) : Only Fld.ofContext2 s sz := by
    unfold execCopy at h
    cases h
    repeat' first
      | with_reducible exact Only.refl _ _
      | with_reducible apply State.copyCall_only
      | refine Fld.yes rfl
      | split

theorem execFill_only (q : Sys2Proof.Queue) (s : State) {sz : State}
    (h : execFill q s = .next sz) : Only Fld.ofContext2 s sz := by
    unfold execFill at h
    cases h
    repeat' first
      | with_reducible exact Only.refl _ _
      | with_reducible apply State.fillCall_only
      | refine Fld.yes rfl
      | split

end Sys2Proof.Machine
end

