-- ==== Sys2Proof/Laws/FrameXltInv.lean ====
section
/-! SUPPORT. Which fields of the state each operation of Sys2Proof/Machine/XltInv.lean can change. -/

namespace Sys2Proof.Machine

set_option linter.all false
set_option Elab.async false

/-- Fields that operations of this file change. -/
def Fld.ofXltInv1 : List Fld :=
  [.regs_, .ctrs_, .tiles_, .hbm_, .cxl_, .hbmUe_, .metaCache_, .sideArea_, .tcache_, .wcache_, .inv_, .cues_,
   .ports_, .sess_, .reqs_, .nextTag_, .loom_, .queues_, .fences_, .objs_, .freed_, .ctxs_, .fns_, .hostReads_,
   .pfWalks_, .fwGot_, .fwHeld_, .sec_, .fw_, .inc_, .twin_, .out_]

theorem State.invRemove_only {fl : List Fld} {sa s : State} {v : InvScope}
    (hk : Only fl sa s) (hsub : Fld.sub [.tiles_, .tcache_, .wcache_, .pfWalks_] fl = true) : Only fl sa (State.invRemove s v) := by
    refine Only.seq (l := [.tiles_, .tcache_, .wcache_, .pfWalks_]) hk ?_ hsub
    clear hk hsub
    unfold State.invRemove
    repeat' first
      | with_reducible exact Only.refl _ _
      | refine Only.upd ?_ rfl rfl

theorem State.fqAbandon_only {fl : List Fld} {sa s : State} {b : Nat} {e : FqEntry}
    (hk : Only fl sa s) (hsub : Fld.sub [.regs_, .ctrs_, .tiles_, .mcFlits_, .hbm_, .cxl_, .fq_, .inv_, .cues_, .ports_, .sess_, .reqs_, .loom_, .ctxs_, .fns_, .hostReads_, .fwGot_, .fwHeld_, .sec_, .fw_, .inc_, .freeCtr_, .out_] fl = true) : Only fl sa (State.fqAbandon s b e) := by
    refine Only.seq (l := [.regs_, .ctrs_, .tiles_, .mcFlits_, .hbm_, .cxl_, .fq_, .inv_, .cues_, .ports_, .sess_, .reqs_, .loom_, .ctxs_, .fns_, .hostReads_, .fwGot_, .fwHeld_, .sec_, .fw_, .inc_, .freeCtr_, .out_]) hk ?_ hsub
    clear hk hsub
    unfold State.fqAbandon
    repeat' first
      | with_reducible exact Only.refl _ _
      | with_reducible assumption
      | with_reducible apply State.tensorFail_only
      | with_reducible apply State.faultPop_only
      | refine Fld.yes rfl
      | (extract_lets +onlyGivenNames zz; refine Only.have_ (u := zz) ?_ (fun _ => ?_); rotate_left; try clear_value zz; revert zz; intros; rotate_right; dsimp -zeta only [zz]; clear zz)
      | (extract_lets +onlyGivenNames zz; try clear_value zz; revert zz; intros)
      | split

theorem State.fqRespond_only {fl : List Fld} {sa s : State} {fn : Fn} {b : Nat} {val : Word} {act : State → FqEntry → State}
    (hk : Only fl sa s) (hsub : Fld.sub [.regs_, .vfErr_] fl = true)
    (ha : ∀ e, Only fl sa (act s e)) : Only fl sa (s.fqRespond fn b val act) := by
  unfold State.fqRespond
  repeat' first
    | assumption
    | with_reducible apply ha
    | with_reducible apply State.setErr_only
    | dsimp only
    | split

theorem State.fqResume_only {fl : List Fld} {sa s : State} {b : Nat} {e : FqEntry}
    (hk : Only fl sa s) (hsub : Fld.sub [.tiles_, .fq_] fl = true) : Only fl sa (State.fqResume s b e) := by
    refine Only.seq (l := [.tiles_, .fq_]) hk ?_ hsub
    clear hk hsub
    unfold State.fqResume
    repeat' first
      | with_reducible exact Only.refl _ _
      | with_reducible assumption
      | with_reducible apply State.setTensor_only
      | with_reducible apply State.faultPop_only
      | refine Fld.yes rfl
      | (extract_lets +onlyGivenNames zz; refine Only.have_ (u := zz) ?_ (fun _ => ?_); rotate_left; try clear_value zz; revert zz; intros; rotate_right; dsimp -zeta only [zz]; clear zz)
      | split

theorem State.invEnd_only {fl : List Fld} {sa s : State} {n : Nat} {v : InvActive} {flags : Nat} {st : Nat}
    (hk : Only fl sa s) (hsub : Fld.sub [.regs_, .ctrs_, .tiles_, .hbm_, .cxl_, .hbmUe_, .metaCache_, .sideArea_, .inv_, .cues_, .reqs_, .nextTag_, .loom_, .queues_, .fences_, .objs_, .freed_, .ctxs_, .fns_, .hostReads_, .fwGot_, .fwHeld_, .sec_, .fw_, .inc_, .twin_, .out_] fl = true) : Only fl sa (State.invEnd s n v flags st) := by
    refine Only.seq (l := [.regs_, .ctrs_, .tiles_, .hbm_, .cxl_, .hbmUe_, .metaCache_, .sideArea_, .inv_, .cues_, .reqs_, .nextTag_, .loom_, .queues_, .fences_, .objs_, .freed_, .ctxs_, .fns_, .hostReads_, .fwGot_, .fwHeld_, .sec_, .fw_, .inc_, .twin_, .out_]) hk ?_ hsub
    clear hk hsub
    unfold State.invEnd
    repeat' first
      | with_reducible exact Only.refl _ _
      | with_reducible apply State.signal_only
      | with_reducible apply State.clrReg_only
      | with_reducible apply State.orReg_only
      | with_reducible apply Only.ite
      | refine Fld.yes rfl
      | (extract_lets +onlyGivenNames zz; try clear_value zz; revert zz; intros)
      | refine Only.upd ?_ rfl rfl

theorem State.sendShoot_only {fl : List Fld} {sa s : State} {n : Nat} {v : InvActive} {m : Nat} {b : Nat}
    (hk : Only fl sa s) (hsub : Fld.sub [.regs_, .ctrs_, .tiles_, .cues_, .ports_, .sess_, .reqs_, .loom_, .ctxs_, .fns_, .hostReads_, .fwGot_, .fwHeld_, .sec_, .fw_, .inc_, .out_] fl = true) : Only fl sa (State.sendShoot s n v m b) := by
    refine Only.seq (l := [.regs_, .ctrs_, .tiles_, .cues_, .ports_, .sess_, .reqs_, .loom_, .ctxs_, .fns_, .hostReads_, .fwGot_, .fwHeld_, .sec_, .fw_, .inc_, .out_]) hk ?_ hsub
    clear hk hsub
    unfold State.sendShoot
    repeat' first
      | with_reducible exact Only.refl _ _
      | with_reducible apply State.openReq_only
      | with_reducible apply State.sendPkt_only
      | refine Fld.yes rfl
      | (extract_lets +onlyGivenNames zz; try clear_value zz; revert zz; intros)
      | split

theorem State.invStart_only {fl : List Fld} {sa s : State} {n : Nat} {v : InvActive}
    (hk : Only fl sa s) (hsub : Fld.sub [.regs_, .ctrs_, .tiles_, .tcache_, .wcache_, .inv_, .cues_, .ports_, .sess_, .reqs_, .loom_, .ctxs_, .fns_, .hostReads_, .pfWalks_, .fwGot_, .fwHeld_, .sec_, .fw_, .inc_, .out_] fl = true) : Only fl sa (State.invStart s n v) := by
    refine Only.seq (l := [.regs_, .ctrs_, .tiles_, .tcache_, .wcache_, .inv_, .cues_, .ports_, .sess_, .reqs_, .loom_, .ctxs_, .fns_, .hostReads_, .pfWalks_, .fwGot_, .fwHeld_, .sec_, .fw_, .inc_, .out_]) hk ?_ hsub
    clear hk hsub
    unfold State.invStart
    repeat' first
      | with_reducible exact Only.refl _ _
      | with_reducible assumption
      | with_reducible apply State.sendShoot_only
      | with_reducible apply State.invRemove_only
      | with_reducible apply State.orReg_only
      | with_reducible apply Only.foldl
      | intro _ _ _
      | refine Fld.yes rfl
      | (extract_lets +onlyGivenNames zz; try clear_value zz; revert zz; intros)
      | refine Only.upd ?_ rfl rfl

theorem State.invWrite_only {fl : List Fld} {sa s : State} {n : Nat} {w7 : Sys2Proof.Word}
    (hk : Only fl sa s) (hsub : Fld.sub Fld.ofXltInv1 fl = true) : Only fl sa (State.invWrite s n w7) := by
    refine Only.seq (l := Fld.ofXltInv1) hk ?_ hsub
    clear hk hsub
    unfold State.invWrite
    repeat' first
      | with_reducible exact Only.refl _ _
      | with_reducible apply State.invStart_only
      | with_reducible apply State.signal_only
      | with_reducible apply State.orReg_only
      | with_reducible apply State.setReg_only
      | with_reducible apply Only.ite
      | refine Fld.yes rfl

theorem execFqResume_only (fn : Sys2Proof.Fn) (b : Sys2Proof.Bolt) (val : Sys2Proof.Word) (s : State) {sz : State}
    (h : execFqResume fn b val s = .next sz) : Only [.regs_, .vfErr_, .tiles_, .fq_] s sz := by
    unfold execFqResume at h
    cases h
    repeat' first
      | with_reducible exact Only.refl _ _
      | with_reducible apply State.fqResume_only
      | with_reducible apply State.fqRespond_only
      | refine Fld.yes rfl
      | (extract_lets +onlyGivenNames zz; try clear_value zz; revert zz; intros)
      | intro _

theorem execFqAbandon_only (fn : Sys2Proof.Fn) (b : Sys2Proof.Bolt) (val : Sys2Proof.Word) (s : State) {sz : State}
    (h : execFqAbandon fn b val s = .next sz) : Only [.regs_, .vfErr_, .ctrs_, .tiles_, .mcFlits_, .hbm_, .cxl_, .fq_, .inv_, .cues_, .ports_, .sess_, .reqs_, .loom_, .ctxs_, .fns_, .hostReads_, .fwGot_, .fwHeld_, .sec_, .fw_, .inc_, .freeCtr_, .out_] s sz := by
    unfold execFqAbandon at h
    cases h
    repeat' first
      | with_reducible exact Only.refl _ _
      | with_reducible apply State.fqAbandon_only
      | with_reducible apply State.fqRespond_only
      | refine Fld.yes rfl
      | (extract_lets +onlyGivenNames zz; try clear_value zz; revert zz; intros)
      | intro _

theorem execInvRange_only (slot : Sys2Proof.InvSlot) (w7 : Sys2Proof.Word) (s : State) {sz : State}
    (h : execInvRange slot w7 s = .next sz) : Only Fld.ofXltInv1 s sz := by
    unfold execInvRange at h
    cases h
    repeat' first
      | with_reducible exact Only.refl _ _
      | with_reducible apply State.invWrite_only
      | refine Fld.yes rfl

theorem execInvContext_only (slot : Sys2Proof.InvSlot) (w7 : Sys2Proof.Word) (s : State) {sz : State}
    (h : execInvContext slot w7 s = .next sz) : Only Fld.ofXltInv1 s sz := by
    unfold execInvContext at h
    cases h
    repeat' first
      | with_reducible exact Only.refl _ _
      | with_reducible apply State.invWrite_only
      | refine Fld.yes rfl

theorem execInvAll_only (slot : Sys2Proof.InvSlot) (w7 : Sys2Proof.Word) (s : State) {sz : State}
    (h : execInvAll slot w7 s = .next sz) : Only Fld.ofXltInv1 s sz := by
    unfold execInvAll at h
    cases h
    repeat' first
      | with_reducible exact Only.refl _ _
      | with_reducible apply State.invWrite_only
      | refine Fld.yes rfl

theorem execInvComplete_only (slot : Sys2Proof.InvSlot) (s : State) {sz : State}
    (h : execInvComplete slot s = .next sz) : Only [.regs_, .ctrs_, .tiles_, .hbm_, .cxl_, .hbmUe_, .metaCache_, .sideArea_, .inv_, .cues_, .reqs_, .nextTag_, .loom_, .queues_, .fences_, .objs_, .freed_, .ctxs_, .fns_, .hostReads_, .fwGot_, .fwHeld_, .sec_, .fw_, .inc_, .twin_, .out_] s sz := by
    unfold execInvComplete at h
    cases h
    repeat' first
      | with_reducible exact Only.refl _ _
      | with_reducible apply State.invEnd_only
      | with_reducible apply Only.ite
      | refine Fld.yes rfl
      | (extract_lets +onlyGivenNames zz; try clear_value zz; revert zz; intros)
      | split

theorem execInvTimeout_only (slot : Sys2Proof.InvSlot) (p : Sys2Proof.Port) (m : Sys2Proof.ModNum) (s : State) {sz : State}
    (h : execInvTimeout slot p m s = .next sz) : Only [.regs_, .ctrs_, .tiles_, .hbm_, .cxl_, .hbmUe_, .metaCache_, .sideArea_, .inv_, .cues_, .reqs_, .nextTag_, .loom_, .queues_, .fences_, .objs_, .freed_, .ctxs_, .fns_, .hostReads_, .fwGot_, .fwHeld_, .sec_, .fw_, .inc_, .twin_, .out_] s sz := by
    unfold execInvTimeout at h
    cases h
    repeat' first
      | with_reducible exact Only.refl _ _
      | with_reducible assumption
      | with_reducible apply State.boltFail_only
      | with_reducible apply State.raise_only
      | with_reducible apply State.invEnd_only
      | with_reducible apply Only.ite
      | with_reducible apply Only.foldl
      | intro _ _ _
      | refine Fld.yes rfl
      | (extract_lets +onlyGivenNames zz; try clear_value zz; revert zz; intros)
      | split

end Sys2Proof.Machine
end

