-- ==== Sys2Proof/Laws/FrameFailOps.lean ====
section
/-! SUPPORT. Which fields of the state each operation of Sys2Proof/Machine/FailOps.lean can change. -/

namespace Sys2Proof.Machine

set_option linter.all false
set_option Elab.async false

/-- Fields that operations of this file change. -/
def Fld.ofFailOps1 : List Fld :=
  [.regs_, .vfErr_, .ctrs_, .tiles_, .hbm_, .cxl_, .hbmUe_, .metaCache_, .sideArea_, .tcache_, .wcache_, .fq_,
   .cues_, .ports_, .sess_, .sessIn_, .reqs_, .nextTag_, .loom_, .queues_, .fences_, .objs_, .freed_, .ctxs_,
   .fns_, .hostReads_, .pfWalks_, .fwGot_, .fwHeld_, .casts_, .serve_, .sec_, .fw_, .inc_, .twin_, .freeCtr_,
   .out_]

/-- Fields that operations of this file change. -/
def Fld.ofFailOps2 : List Fld :=
  [.regs_, .vfErr_, .ctrs_, .tiles_, .redIn_, .redStage_, .redRun_, .redOpen_, .redClk_, .mcFlits_, .hbm_, .cxl_,
   .hbmUe_, .metaCache_, .sideArea_, .tcache_, .wcache_, .fq_, .inv_, .cues_, .ports_, .sess_, .sessIn_, .reqs_,
   .nextTag_, .loom_, .queues_, .fences_, .objs_, .freed_, .ctxs_, .fns_, .hostReads_, .pfWalks_, .fwGot_, .fwHeld_,
   .casts_, .serve_, .power_, .sec_, .fw_, .inc_, .twin_, .freeCtr_, .out_]

theorem State.clearGroups_only {fl : List Fld} {sa s : State} {b : Nat}
    (hk : Only fl sa s) (hsub : Fld.sub [.ctrs_, .redIn_, .redStage_, .redRun_, .redOpen_, .mcFlits_, .ports_, .out_] fl = true) : Only fl sa (State.clearGroups s b) := by
    refine Only.seq (l := [.ctrs_, .redIn_, .redStage_, .redRun_, .redOpen_, .mcFlits_, .ports_, .out_]) hk ?_ hsub
    clear hk hsub
    unfold State.clearGroups
    repeat' first
      | with_reducible exact Only.refl _ _
      | with_reducible assumption
      | with_reducible apply State.freeStaged_only
      | refine Fld.yes rfl
      | (extract_lets +onlyGivenNames zz; refine Only.have_ (u := zz) ?_ (fun _ => ?_); rotate_left; try clear_value zz; revert zz; intros; rotate_right; dsimp -zeta only [zz]; clear zz)
      | (extract_lets +onlyGivenNames zz; have hfn := (zz : _ → _); clear hfn; dsimp -zeta only [zz]; clear zz)
      | refine Only.upd ?_ rfl rfl

theorem State.destroyKeys_only {fl : List Fld} {sa s : State} {b : Nat}
    (hk : Only fl sa s) (hsub : Fld.sub [.regs_, .ctrs_, .tiles_, .hbm_, .cxl_, .metaCache_, .sideArea_, .cues_, .reqs_, .loom_, .ctxs_, .fns_, .hostReads_, .fwGot_, .fwHeld_, .sec_, .fw_, .inc_, .freeCtr_, .out_] fl = true) : Only fl sa (State.destroyKeys s b) := by
    refine Only.seq (l := [.regs_, .ctrs_, .tiles_, .hbm_, .cxl_, .metaCache_, .sideArea_, .cues_, .reqs_, .loom_, .ctxs_, .fns_, .hostReads_, .fwGot_, .fwHeld_, .sec_, .fw_, .inc_, .freeCtr_, .out_]) hk ?_ hsub
    clear hk hsub
    unfold State.destroyKeys
    repeat' first
      | with_reducible exact Only.refl _ _
      | with_reducible assumption
      | with_reducible apply State.abandonRekey_only
      | with_reducible apply State.setRegRun_only
      | with_reducible apply State.forgetRegion_only
      | with_reducible apply Only.ite
      | with_reducible apply Only.foldl
      | intro _ _ _
      | refine Fld.yes rfl

theorem State.dropDrain_only {fl : List Fld} {sa s : State} {b : Nat}
    (hk : Only fl sa s) (hsub : Fld.sub [.regs_, .ctrs_, .tiles_, .hbm_, .cxl_, .hbmUe_, .metaCache_, .sideArea_, .cues_, .reqs_, .nextTag_, .loom_, .queues_, .fences_, .objs_, .freed_, .ctxs_, .fns_, .hostReads_, .fwGot_, .fwHeld_, .sec_, .fw_, .inc_, .twin_, .out_] fl = true) : Only fl sa (State.dropDrain s b) := by
    refine Only.seq (l := [.regs_, .ctrs_, .tiles_, .hbm_, .cxl_, .hbmUe_, .metaCache_, .sideArea_, .cues_, .reqs_, .nextTag_, .loom_, .queues_, .fences_, .objs_, .freed_, .ctxs_, .fns_, .hostReads_, .fwGot_, .fwHeld_, .sec_, .fw_, .inc_, .twin_, .out_]) hk ?_ hsub
    clear hk hsub
    unfold State.dropDrain
    repeat' first
      | with_reducible exact Only.refl _ _
      | with_reducible assumption
      | with_reducible apply State.boltEvent_only
      | with_reducible apply State.drainAnswer_only
      | with_reducible apply State.updCtx_only
      | with_reducible apply State.clrReg_only
      | with_reducible apply State.orReg_only
      | refine Fld.yes rfl
      | (extract_lets +onlyGivenNames zz; refine Only.have_ (u := zz) ?_ (fun _ => ?_); rotate_left; try clear_value zz; revert zz; intros; rotate_right; dsimp -zeta only [zz]; clear zz)
      | split

theorem State.dropEntries_only {fl : List Fld} {sa s : State} {b : Nat}
    (hk : Only fl sa s) (hsub : Fld.sub [.tiles_, .tcache_, .wcache_, .pfWalks_] fl = true) : Only fl sa (State.dropEntries s b) := by
    refine Only.seq (l := [.tiles_, .tcache_, .wcache_, .pfWalks_]) hk ?_ hsub
    clear hk hsub
    unfold State.dropEntries
    repeat' first
      | with_reducible exact Only.refl _ _
      | with_reducible apply State.invRemove_only
      | refine Fld.yes rfl

theorem State.endDebug_only {fl : List Fld} {sa s : State} {path : Nat}
    (hk : Only fl sa s) (hsub : Fld.sub [.sec_] fl = true) : Only fl sa (State.endDebug s path) := by
    refine Only.seq (l := [.sec_]) hk ?_ hsub
    clear hk hsub
    unfold State.endDebug
    repeat' first
      | with_reducible exact Only.refl _ _
      | (extract_lets +onlyGivenNames zz; try clear_value zz; revert zz; intros)
      | refine Only.upd ?_ rfl rfl

theorem State.stopCommit_only {fl : List Fld} {sa s : State} {b : Nat} {t : Nat}
    (hk : Only fl sa s) (hsub : Fld.sub [.regs_, .ctrs_, .tiles_, .hbm_, .cxl_, .inv_, .cues_, .ports_, .sess_, .reqs_, .loom_, .ctxs_, .fns_, .hostReads_, .fwGot_, .fwHeld_, .sec_, .fw_, .inc_, .freeCtr_, .out_] fl = true) : Only fl sa (State.stopCommit s b t) := by
    refine Only.seq (l := [.regs_, .ctrs_, .tiles_, .hbm_, .cxl_, .inv_, .cues_, .ports_, .sess_, .reqs_, .loom_, .ctxs_, .fns_, .hostReads_, .fwGot_, .fwHeld_, .sec_, .fw_, .inc_, .freeCtr_, .out_]) hk ?_ hsub
    clear hk hsub
    unfold State.stopCommit
    repeat' first
      | with_reducible exact Only.refl _ _
      | with_reducible assumption
      | with_reducible apply State.forgetDst_only
      | with_reducible apply State.unpin_only
      | with_reducible apply Only.ite
      | with_reducible apply Only.foldl
      | intro _ _ _
      | refine Fld.yes rfl
      | (extract_lets +onlyGivenNames zz; try clear_value zz; revert zz; intros)
      | split

theorem State.strikeSaved_only {fl : List Fld} {sa s : State} {b : Nat} {erase : Bool}
    (hk : Only fl sa s) (hsub : Fld.sub [.regs_, .ctrs_, .tiles_, .hbm_, .cxl_, .hbmUe_, .metaCache_, .sideArea_, .cues_, .reqs_, .nextTag_, .loom_, .queues_, .fences_, .objs_, .freed_, .ctxs_, .fns_, .hostReads_, .fwGot_, .fwHeld_, .sec_, .fw_, .inc_, .twin_, .out_] fl = true) : Only fl sa (State.strikeSaved s b erase) := by
    refine Only.seq (l := [.regs_, .ctrs_, .tiles_, .hbm_, .cxl_, .hbmUe_, .metaCache_, .sideArea_, .cues_, .reqs_, .nextTag_, .loom_, .queues_, .fences_, .objs_, .freed_, .ctxs_, .fns_, .hostReads_, .fwGot_, .fwHeld_, .sec_, .fw_, .inc_, .twin_, .out_]) hk ?_ hsub
    clear hk hsub
    unfold State.strikeSaved
    repeat' first
      | with_reducible exact Only.refl _ _
      | with_reducible assumption
      | with_reducible apply State.updCtx_only
      | with_reducible apply State.endStep_only
      | with_reducible apply Only.ite
      | with_reducible apply Only.foldl
      | intro _ _ _
      | refine Fld.yes rfl
      | (extract_lets +onlyGivenNames zz; try clear_value zz; revert zz; intros)
      | split

theorem State.strikeRegs_only {fl : List Fld} {sa s : State} {b : Nat}
    (hk : Only fl sa s) (hsub : Fld.sub [.regs_, .vfErr_, .ctrs_, .casts_, .serve_] fl = true) : Only fl sa (State.strikeRegs s b) := by
    refine Only.seq (l := [.regs_, .vfErr_, .ctrs_, .casts_, .serve_]) hk ?_ hsub
    clear hk hsub
    unfold State.strikeRegs
    repeat' first
      | with_reducible exact Only.refl _ _
      | with_reducible assumption
      | with_reducible apply State.clearWindow_only
      | refine Fld.yes rfl
      | (extract_lets +onlyGivenNames zz; refine Only.have_ (u := zz) ?_ (fun _ => ?_); rotate_left; try clear_value zz; revert zz; intros; rotate_right; dsimp -zeta only [zz]; clear zz)
      | (extract_lets +onlyGivenNames zz; try clear_value zz; revert zz; intros)
      | split
      | refine Only.upd ?_ rfl rfl

theorem State.strikeStart_only {fl : List Fld} {sa s : State} {b : Nat} {k : StrikeSt}
    (hk : Only fl sa s) (hsub : Fld.sub Fld.ofFailOps1 fl = true) : Only fl sa (State.strikeStart s b k) := by
    refine Only.seq (l := Fld.ofFailOps1) hk ?_ hsub
    clear hk hsub
    unfold State.strikeStart
    repeat' first
      | with_reducible exact Only.refl _ _
      | with_reducible apply State.strikeRegs_only
      | with_reducible apply State.strikeSaved_only
      | with_reducible apply State.dropEntries_only
      | with_reducible apply State.setReg64_only
      | with_reducible apply State.faultClear_only
      | with_reducible apply State.destroyKeys_only
      | with_reducible apply State.mapTiles_only
      | with_reducible apply State.disarmBolt_only
      | with_reducible apply State.closeSessions_only
      | with_reducible apply State.report_only
      | with_reducible apply State.updCtx_only
      | with_reducible apply State.setCtxMode_only
      | refine Fld.yes rfl
      | (extract_lets +onlyGivenNames zz; try clear_value zz; revert zz; intros)
      | refine Only.upd ?_ rfl rfl

theorem State.resetEnd_only {fl : List Fld} {sa s : State} {b : Nat} {legacy : Bool}
    (hk : Only fl sa s) (hsub : Fld.sub Fld.ofFailOps2 fl = true) : Only fl sa (State.resetEnd s b legacy) := by
    refine Only.seq (l := Fld.ofFailOps2) hk ?_ hsub
    clear hk hsub
    unfold State.resetEnd
    repeat' first
      | with_reducible exact Only.refl _ _
      | with_reducible assumption
      | with_reducible apply State.strikeStart_only
      | with_reducible apply State.boundary_only
      | with_reducible apply State.report_only
      | with_reducible apply State.updCtx_only
      | with_reducible apply State.ctxLeave_only
      | with_reducible apply State.clrReg_only
      | with_reducible apply State.dropEntries_only
      | with_reducible apply State.endServing_only
      | with_reducible apply State.mapTiles_only
      | with_reducible apply State.stopCommit_only
      | with_reducible apply State.clearGroups_only
      | with_reducible apply State.dropDrain_only
      | with_reducible apply State.disarmBolt_only
      | with_reducible apply State.faultClear_only
      | with_reducible apply State.closeSessions_only
      | with_reducible apply State.endJob_only
      | with_reducible apply Only.ite
      | with_reducible apply Only.foldl
      | intro _ _ _
      | refine Fld.yes rfl
      | (extract_lets +onlyGivenNames zz; refine Only.have_ (u := zz) ?_ (fun _ => ?_); rotate_left; try clear_value zz; revert zz; intros; rotate_right; dsimp -zeta only [zz]; clear zz)
      | (extract_lets +onlyGivenNames zz; try clear_value zz; revert zz; intros)
      | split

theorem State.zeroChan_only {fl : List Fld} {sa s : State} {c : Nat}
    (hk : Only fl sa s) (hsub : Fld.sub [.hbm_, .hbmUe_] fl = true) : Only fl sa (State.zeroChan s c) := by
    refine Only.seq (l := [.hbm_, .hbmUe_]) hk ?_ hsub
    clear hk hsub
    unfold State.zeroChan
    repeat' first
      | with_reducible exact Only.refl _ _
      | with_reducible apply State.ueClear_only
      | refine Fld.yes rfl
      | (extract_lets +onlyGivenNames zz; try clear_value zz; revert zz; intros)
      | refine Only.upd ?_ rfl rfl

theorem State.strikeEnd_only {fl : List Fld} {sa s : State} {b : Nat} {k : StrikeSt}
    (hk : Only fl sa s) (hsub : Fld.sub [.regs_, .ctrs_, .tiles_, .redClk_, .hbm_, .cxl_, .hbmUe_, .metaCache_, .sideArea_, .cues_, .reqs_, .nextTag_, .loom_, .queues_, .fences_, .objs_, .freed_, .ctxs_, .fns_, .hostReads_, .fwGot_, .fwHeld_, .sec_, .fw_, .inc_, .twin_, .freeCtr_, .out_] fl = true) : Only fl sa (State.strikeEnd s b k) := by
    refine Only.seq (l := [.regs_, .ctrs_, .tiles_, .redClk_, .hbm_, .cxl_, .hbmUe_, .metaCache_, .sideArea_, .cues_, .reqs_, .nextTag_, .loom_, .queues_, .fences_, .objs_, .freed_, .ctxs_, .fns_, .hostReads_, .fwGot_, .fwHeld_, .sec_, .fw_, .inc_, .twin_, .freeCtr_, .out_]) hk ?_ hsub
    clear hk hsub
    unfold State.strikeEnd
    repeat' first
      | with_reducible exact Only.refl _ _
      | with_reducible assumption
      | with_reducible apply State.lateReply_only
      | with_reducible apply State.boundary_only
      | with_reducible apply State.complete_only
      | with_reducible apply State.setCtxMode_only
      | with_reducible apply State.report_only
      | with_reducible apply State.updCtx_only
      | with_reducible apply State.zeroChan_only
      | with_reducible apply Only.ite
      | with_reducible apply Only.foldl
      | intro _ _ _
      | refine Fld.yes rfl
      | (extract_lets +onlyGivenNames zz; try clear_value zz; revert zz; intros)
      | split

end Sys2Proof.Machine
end

