-- ==== Sys2Proof/Laws/FramePowerArb.lean ====
section
/-! SUPPORT. Which fields of the state each operation of Sys2Proof/Machine/PowerArb.lean can change. -/

namespace Sys2Proof.Machine

set_option linter.all false
set_option Elab.async false

theorem State.voidOnce_only {fl : List Fld} {sa s : State} {b : Nat} {cause : Nat} {fresh : Bool}
    (hk : Only fl sa s) (hsub : Fld.sub [.regs_, .ctrs_, .ctxs_, .fns_, .inc_, .out_] fl = true) : Only fl sa (State.voidOnce s b cause fresh) := by
    refine Only.seq (l := [.regs_, .ctrs_, .ctxs_, .fns_, .inc_, .out_]) hk ?_ hsub
    clear hk hsub
    unfold State.voidOnce
    repeat' first
      | with_reducible exact Only.refl _ _
      | with_reducible apply State.voidSteps_only
      | with_reducible apply Only.ite
      | refine Fld.yes rfl

theorem State.applyShares_only {fl : List Fld} {sa s : State} 
    (hk : Only fl sa s) (hsub : Fld.sub [.regs_, .ctrs_, .ctxs_, .fns_, .power_, .inc_, .out_] fl = true) : Only fl sa (State.applyShares s) := by
    refine Only.seq (l := [.regs_, .ctrs_, .ctxs_, .fns_, .power_, .inc_, .out_]) hk ?_ hsub
    clear hk hsub
    unfold State.applyShares
    repeat' first
      | with_reducible exact Only.refl _ _
      | with_reducible assumption
      | with_reducible apply State.updateFloors_only
      | with_reducible apply State.report_only
      | with_reducible apply State.voidOnce_only
      | with_reducible apply Only.ite
      | with_reducible apply Only.foldl
      | intro _ _ _
      | refine Fld.yes rfl
      | (extract_lets +onlyGivenNames zz; try clear_value zz; revert zz; intros)
      | split
      | refine Only.upd ?_ rfl rfl

theorem State.beginDuty_only {fl : List Fld} {sa s : State} {p : Nat} {d : Nat}
    (hk : Only fl sa s) (hsub : Fld.sub [.regs_, .ctrs_, .power_, .inc_] fl = true) : Only fl sa (State.beginDuty s p d) := by
    refine Only.seq (l := [.regs_, .ctrs_, .power_, .inc_]) hk ?_ hsub
    clear hk hsub
    unfold State.beginDuty
    repeat' first
      | with_reducible exact Only.refl _ _
      | with_reducible apply State.report_only
      | with_reducible apply State.setPanel_only
      | with_reducible apply Only.ite
      | refine Fld.yes rfl

theorem State.setTarget_only {fl : List Fld} {sa s : State} {p : Nat} {op : Nat}
    (hk : Only fl sa s) (hsub : Fld.sub [.regs_, .ctrs_, .ctxs_, .fns_, .power_, .inc_, .out_] fl = true) : Only fl sa (State.setTarget s p op) := by
    refine Only.seq (l := [.regs_, .ctrs_, .ctxs_, .fns_, .power_, .inc_, .out_]) hk ?_ hsub
    clear hk hsub
    unfold State.setTarget
    repeat' first
      | with_reducible exact Only.refl _ _
      | with_reducible assumption
      | with_reducible apply State.setPanel_only
      | with_reducible apply State.voidOnce_only
      | with_reducible apply Only.foldl
      | intro _ _ _
      | refine Fld.yes rfl

theorem State.gatePanel_only {fl : List Fld} {sa s : State} {p : Nat} {shut : Bool}
    (hk : Only fl sa s) (hsub : Fld.sub [.tiles_, .redClk_] fl = true) : Only fl sa (State.gatePanel s p shut) := by
    refine Only.seq (l := [.tiles_, .redClk_]) hk ?_ hsub
    clear hk hsub
    unfold State.gatePanel
    repeat' first
      | with_reducible exact Only.refl _ _
      | with_reducible assumption
      | with_reducible apply State.redTimers_only
      | with_reducible apply State.mapTiles_only
      | with_reducible apply Only.foldl
      | intro _ _ _
      | refine Fld.yes rfl

theorem State.setDuty_only {fl : List Fld} {sa s : State} {p : Nat} {d : Nat}
    (hk : Only fl sa s) (hsub : Fld.sub [.regs_, .ctrs_, .ctxs_, .fns_, .power_, .inc_, .out_] fl = true) : Only fl sa (State.setDuty s p d) := by
    refine Only.seq (l := [.regs_, .ctrs_, .ctxs_, .fns_, .power_, .inc_, .out_]) hk ?_ hsub
    clear hk hsub
    unfold State.setDuty
    repeat' first
      | with_reducible exact Only.refl _ _
      | with_reducible assumption
      | with_reducible apply State.setPanel_only
      | with_reducible apply State.voidOnce_only
      | with_reducible apply Only.ite
      | with_reducible apply Only.foldl
      | intro _ _ _
      | refine Fld.yes rfl

theorem State.takeCompute_only {fl : List Fld} {sa s : State} {u : Nat}
    (hk : Only fl sa s) (hsub : Fld.sub [.regs_, .ctrs_, .ctxs_, .fns_, .power_, .inc_, .out_] fl = true) : Only fl sa (State.takeCompute s u).1 := by
    refine Only.seq (l := [.regs_, .ctrs_, .ctxs_, .fns_, .power_, .inc_, .out_]) hk ?_ hsub
    clear hk hsub
    unfold State.takeCompute
    repeat' first
      | with_reducible exact Only.refl _ _
      | with_reducible assumption
      | with_reducible apply State.setTarget_only
      | with_reducible apply State.setDuty_only
      | with_reducible apply Only.foldl
      | intro _ _ _
      | refine Fld.yes rfl

theorem State.takeTraffic_only {fl : List Fld} {sa s : State} {was : List Nat} {l : List Sys2Proof.Demand} {k : Nat} {u : Nat}
    (hk : Only fl sa s) (hsub : Fld.sub [.regs_, .ctrs_, .ctxs_, .fns_, .power_, .inc_, .freeCtr_, .out_] fl = true) : Only fl sa (State.takeTraffic s was l k u).1 := by
    refine Only.seq (l := [.regs_, .ctrs_, .ctxs_, .fns_, .power_, .inc_, .freeCtr_, .out_]) hk ?_ hsub
    clear hk hsub
    unfold State.takeTraffic
    repeat' first
      | with_reducible exact Only.refl _ _
      | with_reducible assumption
      | with_reducible apply State.voidOnce_only
      | with_reducible apply State.draw_only
      | with_reducible apply Only.foldl
      | intro _ _ _
      | refine Fld.yes rfl
      | (extract_lets +onlyGivenNames zz; refine Only.have_ (u := zz) ?_ (fun _ => ?_); rotate_left; try clear_value zz; revert zz; intros; rotate_right; dsimp -zeta only [zz]; clear zz)
      | (extract_lets +onlyGivenNames zz; refine Only.have_ (u := zz.1) ?_ (fun _ => ?_); rotate_left; try clear_value zz; revert zz; intros; rotate_right; dsimp -zeta only [zz]; clear zz)
      | (extract_lets +onlyGivenNames zz; have hfn := (zz : _ → _); clear hfn; dsimp -zeta only [zz]; clear zz)
      | (extract_lets +onlyGivenNames zz; try clear_value zz; revert zz; intros)
      | dsimp -zeta only
      | refine Only.upd ?_ rfl rfl

theorem State.takeTurns_only {fl : List Fld} {sa s : State} {was : List Nat} {l : List Sys2Proof.Demand} {ks : List Nat} {u : Nat}
    (hk : Only fl sa s) (hsub : Fld.sub [.regs_, .ctrs_, .ctxs_, .fns_, .power_, .inc_, .freeCtr_, .out_] fl = true) : Only fl sa (s.takeTurns was l ks u).1 := by
  induction ks generalizing s u with
  | nil => exact hk
  | cons k ks ih =>
    unfold State.takeTurns
    apply ih
    split
    · exact State.takeCompute_only hk (Fld.sub_trans (by decide) hsub)
    · exact State.takeTraffic_only hk (Fld.sub_trans (by decide) hsub)

end Sys2Proof.Machine
end

