-- ==== Sys2Proof/Laws/FrameRecords.lean ====
section
/-! SUPPORT. Which fields of the state each operation of Sys2Proof/Machine/Records.lean can change. -/

namespace Sys2Proof.Machine

set_option linter.all false
set_option Elab.async false

theorem State.book_only {fl : List Fld} {sa s : State} {comp : Nat} {level : Nat} {trace : Bool} {code : Nat} {b : Option Nat} {args : List Sys2Proof.Word}
    (hk : Only fl sa s) (hsub : Fld.sub [.fw_] fl = true) : Only fl sa (State.book s comp level trace code b args) := by
    refine Only.seq (l := [.fw_]) hk ?_ hsub
    clear hk hsub
    unfold State.book
    repeat' first
      | with_reducible exact Only.refl _ _
      | with_reducible apply Only.ite
      | (extract_lets +onlyGivenNames zz; try clear_value zz; revert zz; intros)
      | refine Only.upd ?_ rfl rfl

end Sys2Proof.Machine
end

