-- ==== Sys2Proof/Laws/FrameRegisters.lean ====
section
/-! SUPPORT. Which fields of the state each operation of Sys2Proof/Machine/Registers.lean can change. -/

namespace Sys2Proof.Machine

set_option linter.all false
set_option Elab.async false

theorem State.cmdEndAt_only {fl : List Fld} {sa s : State} {base : Nat} {op : Nat} {st : Nat} {res : List Nat}
    (hk : Only fl sa s) (hsub : Fld.sub [.regs_] fl = true) : Only fl sa (State.cmdEndAt s base op st res) := by
    refine Only.seq (l := [.regs_]) hk ?_ hsub
    clear hk hsub
    unfold State.cmdEndAt
    repeat' first
      | with_reducible exact Only.refl _ _
      | with_reducible assumption
      | with_reducible apply State.setReg_only
      | with_reducible apply Only.ite
      | with_reducible apply Only.foldl
      | intro _ _ _
      | refine Fld.yes rfl

theorem State.cmdGo_only {fl : List Fld} {sa s : State} {base op : Nat} {rsv : Bool}
    {body : State → Nat × List Nat × State} (hk : Only fl sa s) (hsub : Fld.sub [.regs_] fl = true)
    (hb : Only fl sa (body s).2.2) : Only fl sa (s.cmdGo base op rsv body) := by
  unfold State.cmdGo
  repeat' first
    | assumption
    | with_reducible apply State.cmdEndAt_only
    | with_reducible apply State.setReg_only
    | with_reducible apply State.orReg_only
    | exact Fld.sub_trans (by decide) hsub
    | dsimp only
    | split

theorem State.sendHeld_only {fl : List Fld} {sa s : State} {fn : Nat}
    (hk : Only fl sa s) (hsub : Fld.sub [.fns_, .out_] fl = true) : Only fl sa (State.sendHeld s fn) := by
    refine Only.seq (l := [.fns_, .out_]) hk ?_ hsub
    clear hk hsub
    unfold State.sendHeld
    repeat' first
      | with_reducible exact Only.refl _ _
      | with_reducible assumption
      | with_reducible apply State.msix_only
      | with_reducible apply Only.foldl
      | intro _ _ _
      | refine Fld.yes rfl
      | (extract_lets +onlyGivenNames zz; try clear_value zz; revert zz; intros)
      | refine Only.upd ?_ rfl rfl

theorem State.takeLo_only {fl : List Fld} {sa s : State} {fn : Sys2Proof.Fn} {off : Nat}
    (hk : Only fl sa s) (hsub : Fld.sub [.loHeld_] fl = true) : Only fl sa (State.takeLo s fn off).1 := by
    refine Only.seq (l := [.loHeld_]) hk ?_ hsub
    clear hk hsub
    unfold State.takeLo
    repeat' first
      | with_reducible exact Only.refl _ _
      | dsimp -zeta only
      | split
      | refine Only.upd ?_ rfl rfl

theorem State.unmask_only {fl : List Fld} {sa s : State} {key : Nat}
    (hk : Only fl sa s) (hsub : Fld.sub [.fns_, .out_] fl = true) : Only fl sa (State.unmask s key) := by
    refine Only.seq (l := [.fns_, .out_]) hk ?_ hsub
    clear hk hsub
    unfold State.unmask
    repeat' first
      | with_reducible exact Only.refl _ _
      | with_reducible apply State.msix_only
      | with_reducible apply Only.ite
      | refine Fld.yes rfl
      | (extract_lets +onlyGivenNames zz; try clear_value zz; revert zz; intros)
      | split
      | refine Only.upd ?_ rfl rfl

theorem State.writeCfg_only {fl : List Fld} {sa s : State} {fn : Sys2Proof.Fn} {off : Nat} {v : Nat}
    (hk : Only fl sa s) (hsub : Fld.sub [.fns_, .pci_, .out_] fl = true) : Only fl sa (State.writeCfg s fn off v) := by
    refine Only.seq (l := [.fns_, .pci_, .out_]) hk ?_ hsub
    clear hk hsub
    unfold State.writeCfg
    repeat' first
      | with_reducible exact Only.refl _ _
      | with_reducible apply State.sendHeld_only
      | with_reducible apply Only.ite
      | refine Fld.yes rfl
      | (extract_lets +onlyGivenNames zz; have hfn := (zz : _ → _); clear hfn; dsimp -zeta only [zz]; clear zz)
      | (extract_lets +onlyGivenNames zz; try clear_value zz; revert zz; intros)
      | split
      | refine Only.upd ?_ rfl rfl

theorem State.writeFields_only {fl : List Fld} {sa s : State} {fn : Sys2Proof.Fn} {off : Nat} {r : RegDef} {v : Nat}
    (hk : Only fl sa s) (hsub : Fld.sub [.regs_, .vfErr_] fl = true) : Only fl sa (State.writeFields s fn off r v) := by
    refine Only.seq (l := [.regs_, .vfErr_]) hk ?_ hsub
    clear hk hsub
    unfold State.writeFields
    repeat' first
      | with_reducible exact Only.refl _ _
      | with_reducible apply State.setErr_only
      | with_reducible apply State.setReg_only
      | with_reducible apply Only.ite
      | refine Fld.yes rfl

theorem State.writeMailbox_only {fl : List Fld} {sa s : State} {vf : Nat} {pfSide : Bool} {off : Nat} {v : Nat}
    (hk : Only fl sa s) (hsub : Fld.sub [.mbx_] fl = true) : Only fl sa (State.writeMailbox s vf pfSide off v) := by
    refine Only.seq (l := [.mbx_]) hk ?_ hsub
    clear hk hsub
    unfold State.writeMailbox
    repeat' first
      | with_reducible exact Only.refl _ _
      | with_reducible apply Only.ite
      | (extract_lets +onlyGivenNames zz; try clear_value zz; revert zz; intros)
      | dsimp -zeta only
      | refine Only.upd ?_ rfl rfl

theorem State.writePair_only {fl : List Fld} {sa s : State} {fn : Sys2Proof.Fn} {off : Nat} {lo : Nat} {hi : Nat}
    (hk : Only fl sa s) (hsub : Fld.sub [.regs_, .vfErr_] fl = true) : Only fl sa (State.writePair s fn off lo hi) := by
    refine Only.seq (l := [.regs_, .vfErr_]) hk ?_ hsub
    clear hk hsub
    unfold State.writePair
    repeat' first
      | with_reducible exact Only.refl _ _
      | with_reducible apply State.writeFields_only
      | with_reducible apply State.setErr_only
      | with_reducible apply Only.ite
      | refine Fld.yes rfl
      | (extract_lets +onlyGivenNames zz; try clear_value zz; revert zz; intros)
      | split

theorem State.writeWord_only {fl : List Fld} {sa s : State} {fn : Sys2Proof.Fn} {off : Nat} {v : Nat}
    (hk : Only fl sa s) (hsub : Fld.sub [.regs_, .vfErr_, .loHeld_, .fw_] fl = true) : Only fl sa (State.writeWord s fn off v) := by
    refine Only.seq (l := [.regs_, .vfErr_, .loHeld_, .fw_]) hk ?_ hsub
    clear hk hsub
    unfold State.writeWord
    repeat' first
      | with_reducible exact Only.refl _ _
      | with_reducible assumption
      | with_reducible apply State.writeFields_only
      | with_reducible apply State.cmdGo_only
      | with_reducible apply State.writePair_only
      | with_reducible apply State.takeLo_only
      | with_reducible apply State.setErr_only
      | with_reducible apply Only.ite
      | refine Fld.yes rfl
      | (extract_lets +onlyGivenNames zz; refine Only.have_ (u := zz.1) ?_ (fun _ => ?_); rotate_left; try clear_value zz; revert zz; intros; rotate_right; dsimp -zeta only [zz]; clear zz)
      | (extract_lets +onlyGivenNames zz; try clear_value zz; revert zz; intros)
      | split
      | refine Only.upd ?_ rfl rfl

theorem State.writePlace_only {fl : List Fld} {sa s : State} {fn : Sys2Proof.Fn} {p : RegPlace} {v : Nat}
    (hk : Only fl sa s) (hsub : Fld.sub [.regs_, .vfErr_, .loHeld_, .mbx_, .fns_, .pci_, .fw_, .out_] fl = true) : Only fl sa (State.writePlace s fn p v) := by
    refine Only.seq (l := [.regs_, .vfErr_, .loHeld_, .mbx_, .fns_, .pci_, .fw_, .out_]) hk ?_ hsub
    clear hk hsub
    unfold State.writePlace
    repeat' first
      | with_reducible exact Only.refl _ _
      | with_reducible apply State.setErr_only
      | with_reducible apply State.writeCfg_only
      | with_reducible apply State.writeMailbox_only
      | with_reducible apply State.setReg_only
      | with_reducible apply State.unmask_only
      | with_reducible apply State.writeWord_only
      | refine Fld.yes rfl
      | split
      | refine Only.upd ?_ rfl rfl

theorem execRegisterWrite_only (fn : Sys2Proof.Fn) (off : Nat) (wide : Bool) (val : BitVec 64) (s : State) {sz : State}
    (h : execRegisterWrite fn off wide val s = .next sz) : Only [.regs_, .vfErr_, .loHeld_, .mbx_, .fns_, .pci_, .fw_, .out_] s sz := by
    unfold execRegisterWrite at h
    cases h
    repeat' first
      | with_reducible exact Only.refl _ _
      | with_reducible apply State.writePlace_only
      | with_reducible apply State.writePair_only
      | with_reducible apply State.writeWord_only
      | with_reducible apply State.setErr_only
      | with_reducible apply Only.ite
      | refine Fld.yes rfl
      | (extract_lets +onlyGivenNames zz; try clear_value zz; revert zz; intros)
      | split

theorem execUnimplementedAccess_only (fn : Sys2Proof.Fn) (off : Nat) (write : Bool) (s : State) {sz : State}
    (h : execUnimplementedAccess fn off write s = .next sz) : Only [.regs_, .vfErr_, .out_] s sz := by
    unfold execUnimplementedAccess at h
    cases h
    repeat' first
      | with_reducible exact Only.refl _ _
      | with_reducible apply State.emit_only
      | with_reducible apply State.setErr_only
      | with_reducible apply Only.ite
      | refine Fld.yes rfl
      | (extract_lets +onlyGivenNames zz; try clear_value zz; revert zz; intros)
      | split

theorem execUnsupportedWidthAccess_only (fn : Sys2Proof.Fn) (off : Nat) (write : Bool) (s : State) {sz : State}
    (h : execUnsupportedWidthAccess fn off write s = .next sz) : Only [.regs_, .vfErr_, .out_] s sz := by
    unfold execUnsupportedWidthAccess at h
    cases h
    repeat' first
      | with_reducible exact Only.refl _ _
      | with_reducible apply State.emit_only
      | with_reducible apply State.setErr_only
      | with_reducible apply Only.ite
      | refine Fld.yes rfl

end Sys2Proof.Machine
end

