-- ==== Sys2Proof/Laws/FrameResetOps.lean ====
section
/-! SUPPORT. Which fields of the state each operation of Sys2Proof/Machine/ResetOps.lean can change. -/

namespace Sys2Proof.Machine

set_option linter.all false
set_option Elab.async false

theorem State.applyStraps_only {fl : List Fld} {sa s : State} 
    (hk : Only fl sa s) (hsub : Fld.sub [.regs_, .stu_, .twin_] fl = true) : Only fl sa (State.applyStraps s) := by
    refine Only.seq (l := [.regs_, .stu_, .twin_]) hk ?_ hsub
    clear hk hsub
    unfold State.applyStraps
    repeat' first
      | with_reducible exact Only.refl _ _
      | with_reducible assumption
      | with_reducible apply State.setReg_only
      | refine Fld.yes rfl
      | (extract_lets +onlyGivenNames zz; refine Only.have_ (u := zz) ?_ (fun _ => ?_); rotate_left; try clear_value zz; revert zz; intros; rotate_right; dsimp -zeta only [zz]; clear zz)
      | (extract_lets +onlyGivenNames zz; try clear_value zz; revert zz; intros)
      | split
      | refine Only.upd ?_ rfl rfl

theorem State.cleared_keeps (s : State) : s.cleared.out = s.out ∧ s.cleared.pending = s.pending := by
  unfold State.cleared
  exact ⟨rfl, rfl⟩

theorem State.cleared_only {fl : List Fld} {sa s : State} (hk : Only fl sa s) (hsub : Fld.sub Fld.most fl = true) :
    Only fl sa s.cleared :=
  Only.seq hk (Only.all s.cleared_keeps.1 s.cleared_keeps.2) hsub

theorem State.beginReset_only {fl : List Fld} {sa s : State} {cause : Nat} (hk : Only fl sa s) (hsub : Fld.sub Fld.most fl = true) :
    Only fl sa (s.beginReset cause) :=
  Only.seq (l := Fld.most) (State.cleared_only hk hsub) (Only.all (by rfl) (by rfl)) hsub

theorem State.fallbackReport_only {fl : List Fld} {sa s : State} {slot : Bool} {code : Nat} {stage : Nat}
    (hk : Only fl sa s) (hsub : Fld.sub [.regs_, .ctrs_, .tiles_, .cues_, .reqs_, .loom_, .ctxs_, .fns_, .hostReads_, .fwGot_, .fwHeld_, .sec_, .fw_, .inc_, .out_] fl = true) : Only fl sa (State.fallbackReport s slot code stage) := by
    refine Only.seq (l := [.regs_, .ctrs_, .tiles_, .cues_, .reqs_, .loom_, .ctxs_, .fns_, .hostReads_, .fwGot_, .fwHeld_, .sec_, .fw_, .inc_, .out_]) hk ?_ hsub
    clear hk hsub
    unfold State.fallbackReport
    repeat' first
      | with_reducible exact Only.refl _ _
      | with_reducible apply State.raise_only
      | refine Fld.yes rfl

theorem State.chooseSlot_only {fl : List Fld} {sa s : State} 
    (hk : Only fl sa s) (hsub : Fld.sub [.regs_, .ctrs_, .tiles_, .cues_, .reqs_, .loom_, .ctxs_, .fns_, .hostReads_, .fwGot_, .fwHeld_, .sec_, .fw_, .inc_, .out_] fl = true) : Only fl sa (State.chooseSlot s) := by
    refine Only.seq (l := [.regs_, .ctrs_, .tiles_, .cues_, .reqs_, .loom_, .ctxs_, .fns_, .hostReads_, .fwGot_, .fwHeld_, .sec_, .fw_, .inc_, .out_]) hk ?_ hsub
    clear hk hsub
    unfold State.chooseSlot
    repeat' first
      | with_reducible exact Only.refl _ _
      | with_reducible assumption
      | with_reducible apply State.fallbackReport_only
      | with_reducible apply Only.ite
      | refine Fld.yes rfl
      | (extract_lets +onlyGivenNames zz; refine Only.have_ (u := zz) ?_ (fun _ => ?_); rotate_left; try clear_value zz; revert zz; intros; rotate_right; dsimp -zeta only [zz]; clear zz)
      | (extract_lets +onlyGivenNames zz; try clear_value zz; revert zz; intros)
      | split
      | refine Only.upd ?_ rfl rfl

theorem State.fallBack_only {fl : List Fld} {sa s : State} {code : Nat} {stage : Nat}
    (hk : Only fl sa s) (hsub : Fld.sub [.regs_, .ctrs_, .tiles_, .cues_, .reqs_, .loom_, .ctxs_, .fns_, .hostReads_, .fwGot_, .fwHeld_, .sec_, .fw_, .inc_, .pins_, .out_] fl = true) : Only fl sa (State.fallBack s code stage) := by
    refine Only.seq (l := [.regs_, .ctrs_, .tiles_, .cues_, .reqs_, .loom_, .ctxs_, .fns_, .hostReads_, .fwGot_, .fwHeld_, .sec_, .fw_, .inc_, .pins_, .out_]) hk ?_ hsub
    clear hk hsub
    unfold State.fallBack
    repeat' first
      | with_reducible exact Only.refl _ _
      | with_reducible apply State.fallbackReport_only
      | refine Fld.yes rfl
      | (extract_lets +onlyGivenNames zz; try clear_value zz; revert zz; intros)
      | refine Only.upd ?_ rfl rfl

theorem State.powerLoss_only {fl : List Fld} {sa s : State} (hk : Only fl sa s) (hsub : Fld.sub Fld.most fl = true) :
    Only fl sa s.powerLoss := by
  unfold State.powerLoss
  split
  · exact hk
  · exact Only.seq (l := Fld.most) (State.cleared_only hk hsub) (Only.all (by rfl) (by rfl)) hsub

theorem State.powerUp_only {fl : List Fld} {sa s : State} 
    (hk : Only fl sa s) (hsub : Fld.sub [.pins_] fl = true) : Only fl sa (State.powerUp s) := by
    refine Only.seq (l := [.pins_]) hk ?_ hsub
    clear hk hsub
    unfold State.powerUp
    repeat' first
      | with_reducible exact Only.refl _ _
      | with_reducible apply Only.ite
      | (extract_lets +onlyGivenNames zz; try clear_value zz; revert zz; intros)
      | refine Only.upd ?_ rfl rfl

theorem State.stageFails_only {fl : List Fld} {sa s : State} {stage : Nat} {code : Nat}
    (hk : Only fl sa s) (hsub : Fld.sub [.regs_, .ctrs_, .tiles_, .cues_, .reqs_, .loom_, .ctxs_, .fns_, .hostReads_, .fwGot_, .fwHeld_, .sec_, .fw_, .inc_, .pins_, .out_] fl = true) : Only fl sa (State.stageFails s stage code) := by
    refine Only.seq (l := [.regs_, .ctrs_, .tiles_, .cues_, .reqs_, .loom_, .ctxs_, .fns_, .hostReads_, .fwGot_, .fwHeld_, .sec_, .fw_, .inc_, .pins_, .out_]) hk ?_ hsub
    clear hk hsub
    unfold State.stageFails
    repeat' first
      | with_reducible exact Only.refl _ _
      | with_reducible apply State.fallBack_only
      | with_reducible apply Only.ite
      | refine Fld.yes rfl
      | (extract_lets +onlyGivenNames zz; try clear_value zz; revert zz; intros)
      | refine Only.upd ?_ rfl rfl

theorem State.startBoot_only {fl : List Fld} {sa s : State} {k : Sys2Proof.Straps} {cause : Nat}
    (hk : Only fl sa s) (hsub : Fld.sub [.regs_, .ctrs_, .tiles_, .stu_, .cues_, .reqs_, .loom_, .ctxs_, .fns_, .hostReads_, .fwGot_, .fwHeld_, .sec_, .fw_, .inc_, .twin_, .pins_, .out_] fl = true) : Only fl sa (State.startBoot s k cause) := by
    refine Only.seq (l := [.regs_, .ctrs_, .tiles_, .stu_, .cues_, .reqs_, .loom_, .ctxs_, .fns_, .hostReads_, .fwGot_, .fwHeld_, .sec_, .fw_, .inc_, .twin_, .pins_, .out_]) hk ?_ hsub
    clear hk hsub
    unfold State.startBoot
    repeat' first
      | with_reducible exact Only.refl _ _
      | with_reducible assumption
      | with_reducible apply State.applyStraps_only
      | with_reducible apply State.chooseSlot_only
      | refine Fld.yes rfl
      | (extract_lets +onlyGivenNames zz; refine Only.have_ (u := zz) ?_ (fun _ => ?_); rotate_left; try clear_value zz; revert zz; intros; rotate_right; dsimp -zeta only [zz]; clear zz)
      | (extract_lets +onlyGivenNames zz; try clear_value zz; revert zz; intros)
      | refine Only.upd ?_ rfl rfl

end Sys2Proof.Machine
end

