-- ==== Sys2Proof/Laws/FrameFirmware.lean ====
section
/-! SUPPORT. Which fields of the state each operation of Sys2Proof/Machine/Firmware.lean can change. -/

namespace Sys2Proof.Machine

set_option linter.all false
set_option Elab.async false

/-- Fields that operations of this file change. -/
def Fld.ofFirmware1 : List Fld :=
  [.regs_, .ctrs_, .tiles_, .hbm_, .cxl_, .hbmUe_, .metaCache_, .sideArea_, .cues_, .ports_, .sess_, .sessIn_,
   .reqs_, .nextTag_, .loom_, .queues_, .fences_, .objs_, .freed_, .ctxs_, .fns_, .hostReads_, .fwGot_, .fwHeld_,
   .power_, .sec_, .fw_, .inc_, .twin_, .out_]

theorem State.cpBolts_only {fl : List Fld} {sa s : State} {n : Nat} {causes : Nat}
    (hk : Only fl sa s) (hsub : Fld.sub [.regs_, .ctrs_, .tiles_, .cues_, .reqs_, .loom_, .ctxs_, .fns_, .hostReads_, .fwGot_, .fwHeld_, .sec_, .fw_, .inc_, .out_] fl = true) : Only fl sa (State.cpBolts s n causes) := by
    refine Only.seq (l := [.regs_, .ctrs_, .tiles_, .cues_, .reqs_, .loom_, .ctxs_, .fns_, .hostReads_, .fwGot_, .fwHeld_, .sec_, .fw_, .inc_, .out_]) hk ?_ hsub
    clear hk hsub
    unfold State.cpBolts
    repeat' first
      | with_reducible exact Only.refl _ _
      | with_reducible assumption
      | with_reducible apply State.boltStop_only
      | with_reducible apply State.raise_only
      | with_reducible apply Only.foldl
      | intro _ _ _
      | refine Fld.yes rfl

theorem State.setCore_only {fl : List Fld} {sa s : State} {n : Nat} {v : FwCore}
    (hk : Only fl sa s) (hsub : Fld.sub [.fw_] fl = true) : Only fl sa (State.setCore s n v) := by
    refine Only.seq (l := [.fw_]) hk ?_ hsub
    clear hk hsub
    unfold State.setCore
    repeat' first
      | with_reducible exact Only.refl _ _
      | (extract_lets +onlyGivenNames zz; try clear_value zz; revert zz; intros)
      | refine Only.upd ?_ rfl rfl

theorem State.cpQueues_only {fl : List Fld} {sa s : State} 
    (hk : Only fl sa s) (hsub : Fld.sub [.regs_, .ctrs_, .tiles_, .hbm_, .cxl_, .hbmUe_, .metaCache_, .sideArea_, .cues_, .reqs_, .nextTag_, .loom_, .queues_, .fences_, .objs_, .freed_, .ctxs_, .fns_, .hostReads_, .fwGot_, .fwHeld_, .sec_, .fw_, .inc_, .twin_, .out_] fl = true) : Only fl sa (State.cpQueues s) := by
    refine Only.seq (l := [.regs_, .ctrs_, .tiles_, .hbm_, .cxl_, .hbmUe_, .metaCache_, .sideArea_, .cues_, .reqs_, .nextTag_, .loom_, .queues_, .fences_, .objs_, .freed_, .ctxs_, .fns_, .hostReads_, .fwGot_, .fwHeld_, .sec_, .fw_, .inc_, .twin_, .out_]) hk ?_ hsub
    clear hk hsub
    unfold State.cpQueues
    repeat' first
      | with_reducible exact Only.refl _ _
      | with_reducible assumption
      | with_reducible apply State.setCore_only
      | with_reducible apply State.endJob_only
      | with_reducible apply Only.foldl
      | intro _ _ _
      | refine Fld.yes rfl
      | (extract_lets +onlyGivenNames zz; refine Only.have_ (u := zz) ?_ (fun _ => ?_); rotate_left; try clear_value zz; revert zz; intros; rotate_right; dsimp -zeta only [zz]; clear zz)
      | (extract_lets +onlyGivenNames zz; try clear_value zz; revert zz; intros)
      | refine Only.upd ?_ rfl rfl

theorem State.cpTell_only {fl : List Fld} {sa s : State} 
    (hk : Only fl sa s) (hsub : Fld.sub [.out_] fl = true) : Only fl sa (State.cpTell s) := by
    refine Only.seq (l := [.out_]) hk ?_ hsub
    clear hk hsub
    unfold State.cpTell
    repeat' first
      | with_reducible exact Only.refl _ _
      | with_reducible apply State.emit_only
      | with_reducible apply Only.ite
      | refine Fld.yes rfl
      | (extract_lets +onlyGivenNames zz; try clear_value zz; revert zz; intros)
      | split

theorem State.cpReset_only {fl : List Fld} {sa s : State} {n : Nat} {causes : Nat}
    (hk : Only fl sa s) (hsub : Fld.sub [.regs_, .ctrs_, .tiles_, .hbm_, .cxl_, .hbmUe_, .metaCache_, .sideArea_, .cues_, .reqs_, .nextTag_, .loom_, .queues_, .fences_, .objs_, .freed_, .ctxs_, .fns_, .hostReads_, .fwGot_, .fwHeld_, .sec_, .fw_, .inc_, .twin_, .out_] fl = true) : Only fl sa (State.cpReset s n causes) := by
    refine Only.seq (l := [.regs_, .ctrs_, .tiles_, .hbm_, .cxl_, .hbmUe_, .metaCache_, .sideArea_, .cues_, .reqs_, .nextTag_, .loom_, .queues_, .fences_, .objs_, .freed_, .ctxs_, .fns_, .hostReads_, .fwGot_, .fwHeld_, .sec_, .fw_, .inc_, .twin_, .out_]) hk ?_ hsub
    clear hk hsub
    unfold State.cpReset
    repeat' first
      | with_reducible exact Only.refl _ _
      | with_reducible apply State.cpBolts_only
      | with_reducible apply State.cpQueues_only
      | with_reducible apply State.cpTell_only
      | with_reducible apply State.raise_only
      | with_reducible apply Only.ite
      | refine Fld.yes rfl
      | split

theorem State.hpRestart_only {fl : List Fld} {sa s : State} {cause : Nat} {mcause : Nat}
    (hk : Only fl sa s) (hsub : Fld.sub [.regs_, .ctrs_, .tiles_, .cues_, .reqs_, .loom_, .ctxs_, .fns_, .hostReads_, .fwGot_, .fwHeld_, .sec_, .fw_, .inc_, .out_] fl = true) : Only fl sa (State.hpRestart s cause mcause) := by
    refine Only.seq (l := [.regs_, .ctrs_, .tiles_, .cues_, .reqs_, .loom_, .ctxs_, .fns_, .hostReads_, .fwGot_, .fwHeld_, .sec_, .fw_, .inc_, .out_]) hk ?_ hsub
    clear hk hsub
    unfold State.hpRestart
    repeat' first
      | with_reducible exact Only.refl _ _
      | with_reducible assumption
      | with_reducible apply State.raise_only
      | with_reducible apply State.setCore_only
      | with_reducible apply State.closeBooth_only
      | with_reducible apply Only.ite
      | with_reducible apply Only.foldl
      | intro _ _ _
      | refine Fld.yes rfl
      | (extract_lets +onlyGivenNames zz; try clear_value zz; revert zz; intros)
      | refine Only.upd ?_ rfl rfl

theorem State.loseCall_only {fl : List Fld} {sa s : State} {n : Nat} {q : Nat} {index : Nat}
    (hk : Only fl sa s) (hsub : Fld.sub Fld.ofFirmware1 fl = true) : Only fl sa (State.loseCall s n q index) := by
    refine Only.seq (l := Fld.ofFirmware1) hk ?_ hsub
    clear hk hsub
    unfold State.loseCall
    repeat' first
      | with_reducible exact Only.refl _ _
      | with_reducible assumption
      | with_reducible apply State.loadFail_only
      | with_reducible apply State.updCtx_only
      | with_reducible apply State.fwDone_only
      | with_reducible apply State.complete_only
      | with_reducible apply Only.ite
      | refine Fld.yes rfl
      | (extract_lets +onlyGivenNames zz; refine Only.have_ (u := zz) ?_ (fun _ => ?_); rotate_left; try clear_value zz; revert zz; intros; rotate_right; dsimp -zeta only [zz]; clear zz)
      | split

theorem State.journalLost_only {fl : List Fld} {sa s : State} {n : Nat} {r : Sys2Proof.JournalRec}
    (hk : Only fl sa s) (hsub : Fld.sub Fld.ofFirmware1 fl = true) : Only fl sa (State.journalLost s n r) := by
    refine Only.seq (l := Fld.ofFirmware1) hk ?_ hsub
    clear hk hsub
    unfold State.journalLost
    repeat' first
      | with_reducible exact Only.refl _ _
      | with_reducible apply State.lateReply_only
      | with_reducible apply State.cmdEndAt_only
      | with_reducible apply State.loseCall_only
      | with_reducible apply Only.ite
      | refine Fld.yes rfl
      | split

theorem State.setMqueue_only {fl : List Fld} {sa s : State} {q : Nat} {l : List (BitVec 512)}
    (hk : Only fl sa s) (hsub : Fld.sub [.fw_] fl = true) : Only fl sa (State.setMqueue s q l) := by
    refine Only.seq (l := [.fw_]) hk ?_ hsub
    clear hk hsub
    unfold State.setMqueue
    repeat' first
      | with_reducible exact Only.refl _ _
      | (extract_lets +onlyGivenNames zz; try clear_value zz; revert zz; intros)
      | refine Only.upd ?_ rfl rfl

theorem State.mqSend_only {fl : List Fld} {sa s : State} {core : Nat} {q : Nat} {m : BitVec 512}
    (hk : Only fl sa s) (hsub : Fld.sub [.fw_] fl = true) : Only fl sa (State.mqSend s core q m).1 := by
    refine Only.seq (l := [.fw_]) hk ?_ hsub
    clear hk hsub
    unfold State.mqSend
    repeat' first
      | with_reducible exact Only.refl _ _
      | with_reducible apply State.setMqueue_only
      | refine Fld.yes rfl
      | split

theorem State.mqTake_only {fl : List Fld} {sa s : State} {core : Nat} {q : Nat}
    (hk : Only fl sa s) (hsub : Fld.sub [.fw_] fl = true) : Only fl sa (State.mqTake s core q).1 := by
    refine Only.seq (l := [.fw_]) hk ?_ hsub
    clear hk hsub
    unfold State.mqTake
    repeat' first
      | with_reducible exact Only.refl _ _
      | with_reducible apply State.setMqueue_only
      | refine Fld.yes rfl
      | split

theorem State.shRestart_only {fl : List Fld} {sa s : State} {n : Nat} {cause : Nat} {mcause : Nat}
    (hk : Only fl sa s) (hsub : Fld.sub [.regs_, .ctrs_, .tiles_, .hbm_, .cxl_, .hbmUe_, .metaCache_, .sideArea_, .cues_, .reqs_, .nextTag_, .loom_, .queues_, .fences_, .objs_, .freed_, .ctxs_, .fns_, .hostReads_, .fwGot_, .fwHeld_, .sec_, .fw_, .inc_, .twin_, .out_] fl = true) : Only fl sa (State.shRestart s n cause mcause) := by
    refine Only.seq (l := [.regs_, .ctrs_, .tiles_, .hbm_, .cxl_, .hbmUe_, .metaCache_, .sideArea_, .cues_, .reqs_, .nextTag_, .loom_, .queues_, .fences_, .objs_, .freed_, .ctxs_, .fns_, .hostReads_, .fwGot_, .fwHeld_, .sec_, .fw_, .inc_, .twin_, .out_]) hk ?_ hsub
    clear hk hsub
    unfold State.shRestart
    repeat' first
      | with_reducible exact Only.refl _ _
      | with_reducible assumption
      | with_reducible apply State.voidSteps_only
      | with_reducible apply State.raise_only
      | with_reducible apply State.setCore_only
      | with_reducible apply State.cpReset_only
      | with_reducible apply Only.ite
      | with_reducible apply Only.foldl
      | intro _ _ _
      | refine Fld.yes rfl
      | (extract_lets +onlyGivenNames zz; try clear_value zz; revert zz; intros)
      | refine Only.upd ?_ rfl rfl

theorem State.stageDone_only {fl : List Fld} {sa s : State} {n : Nat} {hash : BitVec 256} {hbmOk : List Sys2Proof.Word}
    (hk : Only fl sa s) (hsub : Fld.sub [.regs_, .sec_, .fw_, .pins_] fl = true) : Only fl sa (State.stageDone s n hash hbmOk) := by
    refine Only.seq (l := [.regs_, .sec_, .fw_, .pins_]) hk ?_ hsub
    clear hk hsub
    unfold State.stageDone
    repeat' first
      | with_reducible exact Only.refl _ _
      | with_reducible assumption
      | with_reducible apply State.setReg_only
      | with_reducible apply Only.foldl
      | intro _ _ _
      | refine Fld.yes rfl
      | (extract_lets +onlyGivenNames zz; refine Only.have_ (u := zz) ?_ (fun _ => ?_); rotate_left; try clear_value zz; revert zz; intros; rotate_right; dsimp -zeta only [zz]; clear zz)
      | (extract_lets +onlyGivenNames zz; try clear_value zz; revert zz; intros)
      | split
      | refine Only.upd ?_ rfl rfl

theorem execResetNDeassert_only (straps : Sys2Proof.Straps) (s : State) {sz : State}
    (h : execResetNDeassert straps s = .next sz) : Only [.regs_, .ctrs_, .tiles_, .stu_, .cues_, .reqs_, .loom_, .ctxs_, .fns_, .hostReads_, .fwGot_, .fwHeld_, .sec_, .fw_, .inc_, .twin_, .pins_, .out_] s sz := by
    unfold execResetNDeassert at h
    cases h
    repeat' first
      | with_reducible exact Only.refl _ _
      | with_reducible apply State.startBoot_only
      | with_reducible apply Only.ite
      | refine Fld.yes rfl

theorem execBootStage_only (r : Sys2Proof.StageResult) (s : State) {sz : State}
    (h : execBootStage r s = .next sz) : Only [.regs_, .ctrs_, .tiles_, .cues_, .reqs_, .loom_, .ctxs_, .fns_, .hostReads_, .fwGot_, .fwHeld_, .sec_, .fw_, .inc_, .pins_, .out_] s sz := by
    unfold execBootStage at h
    cases h
    repeat' first
      | with_reducible exact Only.refl _ _
      | with_reducible apply State.stageDone_only
      | with_reducible apply State.stageFails_only
      | with_reducible apply Only.ite
      | refine Fld.yes rfl
      | (extract_lets +onlyGivenNames zz; try clear_value zz; revert zz; intros)
      | split

theorem execTrialTimeout_only (s : State) {sz : State}
    (h : execTrialTimeout s = .next sz) : Only [.regs_, .ctrs_, .tiles_, .cues_, .reqs_, .loom_, .ctxs_, .fns_, .hostReads_, .fwGot_, .fwHeld_, .sec_, .fw_, .inc_, .pins_, .out_] s sz := by
    unfold execTrialTimeout at h
    cases h
    repeat' first
      | with_reducible exact Only.refl _ _
      | with_reducible assumption
      | with_reducible apply State.fallBack_only
      | with_reducible apply Only.ite
      | refine Fld.yes rfl
      | (extract_lets +onlyGivenNames zz; refine Only.have_ (u := zz) ?_ (fun _ => ?_); rotate_left; try clear_value zz; revert zz; intros; rotate_right; dsimp -zeta only [zz]; clear zz)
      | (extract_lets +onlyGivenNames zz; try clear_value zz; revert zz; intros)
      | refine Only.upd ?_ rfl rfl

theorem execHeartbeatLapse_only (core : Fin 10) (s : State) {sz : State}
    (h : execHeartbeatLapse core s = .next sz) : Only [.regs_, .ctrs_, .tiles_, .hbm_, .cxl_, .hbmUe_, .metaCache_, .sideArea_, .cues_, .reqs_, .nextTag_, .loom_, .queues_, .fences_, .objs_, .freed_, .ctxs_, .fns_, .hostReads_, .fwGot_, .fwHeld_, .sec_, .fw_, .inc_, .twin_, .out_] s sz := by
    unfold execHeartbeatLapse at h
    cases h
    repeat' first
      | with_reducible exact Only.refl _ _
      | with_reducible apply State.hpRestart_only
      | with_reducible apply State.shRestart_only
      | with_reducible apply Only.ite
      | refine Fld.yes rfl

theorem execCoreTrap_only (core : Fin 10) (pmp : Bool) (mcause : BitVec 64) (s : State) {sz : State}
    (h : execCoreTrap core pmp mcause s = .next sz) : Only [.regs_, .ctrs_, .tiles_, .hbm_, .cxl_, .hbmUe_, .metaCache_, .sideArea_, .cues_, .reqs_, .nextTag_, .loom_, .queues_, .fences_, .objs_, .freed_, .ctxs_, .fns_, .hostReads_, .fwGot_, .fwHeld_, .sec_, .fw_, .inc_, .twin_, .out_] s sz := by
    unfold execCoreTrap at h
    cases h
    repeat' first
      | with_reducible exact Only.refl _ _
      | with_reducible apply State.hpRestart_only
      | with_reducible apply State.shRestart_only
      | with_reducible apply Only.ite
      | refine Fld.yes rfl

theorem execRestartComplete_only (r : Sys2Proof.CoreRestart) (s : State) {sz : State}
    (h : execRestartComplete r s = .next sz) : Only Fld.ofFirmware1 s sz := by
    unfold execRestartComplete at h
    cases h
    repeat' first
      | with_reducible exact Only.refl _ _
      | with_reducible assumption
      | with_reducible apply State.journalLost_only
      | with_reducible apply State.setCore_only
      | with_reducible apply Only.ite
      | with_reducible apply Only.foldl
      | intro _ _ _
      | refine Fld.yes rfl
      | (extract_lets +onlyGivenNames zz; refine Only.have_ (u := zz) ?_ (fun _ => ?_); rotate_left; try clear_value zz; revert zz; intros; rotate_right; dsimp -zeta only [zz]; clear zz)
      | (extract_lets +onlyGivenNames zz; try clear_value zz; revert zz; intros)
      | refine Only.upd ?_ rfl rfl

end Sys2Proof.Machine
end

