-- ==== Sys2Proof/Laws/FramePlayOps.lean ====
section
/-! SUPPORT. Which fields of the state each operation of Sys2Proof/Machine/PlayOps.lean can change. -/

namespace Sys2Proof.Machine

set_option linter.all false
set_option Elab.async false

theorem State.pbQueue_only {fl : List Fld} {sa s : State} {who : Nat} {bolt : Option Nat} {dest : Nat} {nonce : Nat}
    (hk : Only fl sa s) (hsub : Fld.sub [.sec_] fl = true) : Only fl sa (State.pbQueue s who bolt dest nonce) := by
    refine Only.seq (l := [.sec_]) hk ?_ hsub
    clear hk hsub
    unfold State.pbQueue
    repeat' first
      | with_reducible exact Only.refl _ _
      | (extract_lets +onlyGivenNames zz; try clear_value zz; revert zz; intros)
      | refine Only.upd ?_ rfl rfl

theorem State.pbGo_only {fl : List Fld} {sa s : State} {who : Nat} {base : Nat} {bolt : Option Nat}
    (hk : Only fl sa s) (hsub : Fld.sub [.regs_, .sec_] fl = true) : Only fl sa (State.pbGo s who base bolt) := by
    refine Only.seq (l := [.regs_, .sec_]) hk ?_ hsub
    clear hk hsub
    unfold State.pbGo
    repeat' first
      | with_reducible exact Only.refl _ _
      | with_reducible apply State.pbQueue_only
      | with_reducible apply State.setReg_only
      | with_reducible apply Only.ite
      | refine Fld.yes rfl
      | (extract_lets +onlyGivenNames zz; try clear_value zz; revert zz; intros)
      | split

end Sys2Proof.Machine
end

