-- ==== Sys2Proof/Laws/FrameBooth.lean ====
section
/-! SUPPORT. Which fields of the state each operation of Sys2Proof/Machine/Booth.lean can change. -/

namespace Sys2Proof.Machine

set_option linter.all false
set_option Elab.async false

theorem State.setOther_only {fl : List Fld} {sa s : State} {x : SlotImg}
    (hk : Only fl sa s) (hsub : Fld.sub [.fw_] fl = true) : Only fl sa (State.setOther s x) := by
    refine Only.seq (l := [.fw_]) hk ?_ hsub
    clear hk hsub
    unfold State.setOther
    repeat' first
      | with_reducible exact Only.refl _ _
      | with_reducible apply Only.ite
      | (extract_lets +onlyGivenNames zz; try clear_value zz; revert zz; intros)
      | refine Only.upd ?_ rfl rfl

theorem State.fwProgram_only {fl : List Fld} {sa s : State} {ses : Nat} {off : Nat} {n : Nat} {last : Bool} {k : Sys2Proof.FwCheck}
    (hk : Only fl sa s) (hsub : Fld.sub [.regs_, .ctrs_, .fw_, .inc_] fl = true) : Only fl sa (State.fwProgram s ses off n last k).1 := by
    refine Only.seq (l := [.regs_, .ctrs_, .fw_, .inc_]) hk ?_ hsub
    clear hk hsub
    unfold State.fwProgram
    repeat' first
      | with_reducible exact Only.refl _ _
      | with_reducible assumption
      | with_reducible apply State.report_only
      | with_reducible apply State.setOther_only
      | refine Fld.yes rfl
      | (extract_lets +onlyGivenNames zz; refine Only.have_ (u := zz) ?_ (fun _ => ?_); rotate_left; try clear_value zz; revert zz; intros; rotate_right; dsimp -zeta only [zz]; clear zz)
      | (extract_lets +onlyGivenNames zz; try clear_value zz; revert zz; intros)
      | split
      | refine Only.upd ?_ rfl rfl

theorem execTlsConnect_only (cert : Sys2Proof.ClientCert) (s : State) {sz : State}
    (h : execTlsConnect cert s = .next sz) : Only [.regs_, .ctrs_, .fw_, .inc_] s sz := by
    unfold execTlsConnect at h
    cases h
    repeat' first
      | with_reducible exact Only.refl _ _
      | with_reducible apply State.authFail_only
      | with_reducible apply State.setBoothSess_only
      | with_reducible apply Only.ite
      | refine Fld.yes rfl
      | (extract_lets +onlyGivenNames zz; try clear_value zz; revert zz; intros)
      | split

theorem execSessionIdle_only (ses : Sys2Proof.SessId) (s : State) {sz : State}
    (h : execSessionIdle ses s = .next sz) : Only [.ctxs_, .sec_, .fw_] s sz := by
    unfold execSessionIdle at h
    cases h
    repeat' first
      | with_reducible exact Only.refl _ _
      | with_reducible apply State.closeBooth_only
      | with_reducible apply Only.ite
      | refine Fld.yes rfl
      | split

theorem execHello_only (ses : Sys2Proof.SessId) (nonce : BitVec 256) (s : State) {sz : State}
    (h : execHello ses nonce s = .next sz) : Only [.regs_, .ctrs_, .sec_, .fw_, .inc_, .freeCtr_, .out_] s sz := by
  unfold execHello at h
  cases h
  apply State.message_only (Only.refl _ _) (by decide)
  intro t ht
  extract_lets d e u body w v
  have hu : Only [.regs_, .ctrs_, .sec_, .fw_, .inc_, .freeCtr_, .out_] s u := State.draw_only (State.draw_only ht (by decide)) (by decide)
  clear_value u body w
  have hv : Only [.regs_, .ctrs_, .sec_, .fw_, .inc_, .freeCtr_, .out_] s v := Only.upd hu rfl rfl
  clear_value v
  exact State.deferReply_only hv (by decide)

theorem execStatus_only (ses : Sys2Proof.SessId) (s : State) {sz : State}
    (h : execStatus ses s = .next sz) : Only [.regs_, .ctrs_, .fw_, .inc_, .out_] s sz := by
    unfold execStatus at h
    cases h
    repeat' first
      | with_reducible exact Only.refl _ _
      | with_reducible assumption
      | with_reducible apply State.message_only
      | refine Fld.yes rfl
      | (extract_lets +onlyGivenNames zz; try clear_value zz; revert zz; intros)
      | dsimp -zeta only
      | intro _

theorem execSetModnum_only (ses : Sys2Proof.SessId) (hi : BitVec 6) (s : State) {sz : State}
    (h : execSetModnum ses hi s = .next sz) : Only [.regs_, .ctrs_, .fw_, .inc_, .out_] s sz := by
    unfold execSetModnum at h
    cases h
    repeat' first
      | with_reducible exact Only.refl _ _
      | with_reducible assumption
      | with_reducible apply State.message_only
      | refine Fld.yes rfl
      | (extract_lets +onlyGivenNames zz; try clear_value zz; revert zz; intros)
      | dsimp -zeta only
      | split
      | intro _
      | refine Only.upd ?_ rfl rfl

theorem execSetAddr_only (ses : Sys2Proof.SessId) (addr : BitVec 128) (plen : Nat) (gw : BitVec 128) (s : State) {sz : State}
    (h : execSetAddr ses addr plen gw s = .next sz) : Only [.regs_, .ctrs_, .fw_, .inc_, .out_] s sz := by
    unfold execSetAddr at h
    cases h
    repeat' first
      | with_reducible exact Only.refl _ _
      | with_reducible assumption
      | with_reducible apply State.message_only
      | refine Fld.yes rfl
      | (extract_lets +onlyGivenNames zz; try clear_value zz; revert zz; intros)
      | dsimp -zeta only
      | split
      | intro _
      | refine Only.upd ?_ rfl rfl

theorem execEnroll_only (ses : Sys2Proof.SessId) (r : Sys2Proof.EnrolRec) (sigOk : Bool) (s : State) {sz : State}
    (h : execEnroll ses r sigOk s = .next sz) : Only [.regs_, .ctrs_, .fw_, .inc_, .out_] s sz := by
    unfold execEnroll at h
    cases h
    repeat' first
      | with_reducible exact Only.refl _ _
      | with_reducible assumption
      | with_reducible apply State.report_only
      | with_reducible apply State.message_only
      | refine Fld.yes rfl
      | (extract_lets +onlyGivenNames zz; refine Only.have_ (u := zz) ?_ (fun _ => ?_); rotate_left; try clear_value zz; revert zz; intros; rotate_right; dsimp -zeta only [zz]; clear zz)
      | (extract_lets +onlyGivenNames zz; try clear_value zz; revert zz; intros)
      | dsimp -zeta only
      | split
      | intro _
      | refine Only.upd ?_ rfl rfl

theorem execFwStage_only (ses : Sys2Proof.SessId) (off : Nat) (last : Bool) (data : List Sys2Proof.Byte) (check : Sys2Proof.FwCheck)
    (s : State) {sz : State} (h : execFwStage ses off last data check s = .next sz) : Only [.regs_, .ctrs_, .fw_, .inc_, .out_] s sz := by
  unfold execFwStage at h
  cases h
  apply State.message_only (Only.refl _ _) (by decide)
  intro t ht
  have hp := State.fwProgram_only (ses := ses.val) (off := off) (n := data.length) (last := last) (k := check) ht (by decide)
  revert hp
  generalize t.fwProgram ses.val off data.length last check = r
  intro hp
  repeat' split
  all_goals first | exact ht | exact hp

theorem execFwActivate_only (ses : Sys2Proof.SessId) (force : Bool) (s : State) {sz : State}
    (h : execFwActivate ses force s = .next sz) : Only (Fld.most ++ [.out_]) s sz := by
    unfold execFwActivate at h
    cases h
    repeat' first
      | with_reducible exact Only.refl _ _
      | with_reducible assumption
      | with_reducible apply State.beginReset_only
      | with_reducible apply State.replyNow_only
      | with_reducible apply State.message_only
      | refine Fld.yes rfl
      | (extract_lets +onlyGivenNames zz; refine Only.have_ (u := zz) ?_ (fun _ => ?_); rotate_left; try clear_value zz; revert zz; intros; rotate_right; dsimp -zeta only [zz]; clear zz)
      | (extract_lets +onlyGivenNames zz; try clear_value zz; revert zz; intros)
      | split
      | intro _
      | refine Only.upd ?_ rfl rfl

theorem execFwConfirm_only (ses : Sys2Proof.SessId) (s : State) {sz : State}
    (h : execFwConfirm ses s = .next sz) : Only [.regs_, .ctrs_, .fw_, .inc_, .out_] s sz := by
    unfold execFwConfirm at h
    cases h
    repeat' first
      | with_reducible exact Only.refl _ _
      | with_reducible assumption
      | with_reducible apply State.report_only
      | with_reducible apply State.message_only
      | refine Fld.yes rfl
      | (extract_lets +onlyGivenNames zz; refine Only.have_ (u := zz) ?_ (fun _ => ?_); rotate_left; try clear_value zz; revert zz; intros; rotate_right; dsimp -zeta only [zz]; clear zz)
      | (extract_lets +onlyGivenNames zz; try clear_value zz; revert zz; intros)
      | split
      | intro _
      | refine Only.upd ?_ rfl rfl

theorem execFwDiscard_only (ses : Sys2Proof.SessId) (s : State) {sz : State}
    (h : execFwDiscard ses s = .next sz) : Only [.regs_, .ctrs_, .fw_, .inc_, .out_] s sz := by
    unfold execFwDiscard at h
    cases h
    repeat' first
      | with_reducible exact Only.refl _ _
      | with_reducible assumption
      | with_reducible apply State.setOther_only
      | with_reducible apply State.message_only
      | with_reducible apply Only.ite
      | refine Fld.yes rfl
      | (extract_lets +onlyGivenNames zz; refine Only.have_ (u := zz) ?_ (fun _ => ?_); rotate_left; try clear_value zz; revert zz; intros; rotate_right; dsimp -zeta only [zz]; clear zz)
      | (extract_lets +onlyGivenNames zz; try clear_value zz; revert zz; intros)
      | dsimp -zeta only
      | split
      | intro _
      | refine Only.upd ?_ rfl rfl

theorem execIncRead_only (ses : Sys2Proof.SessId) (first : Nat) (s : State) {sz : State}
    (h : execIncRead ses first s = .next sz) : Only [.regs_, .ctrs_, .fw_, .inc_, .out_] s sz := by
    unfold execIncRead at h
    cases h
    repeat' first
      | with_reducible exact Only.refl _ _
      | with_reducible assumption
      | with_reducible apply State.message_only
      | refine Fld.yes rfl
      | (extract_lets +onlyGivenNames zz; try clear_value zz; revert zz; intros)
      | split

theorem execIncSubscribe_only (ses : Sys2Proof.SessId) (cls : Nat) (s : State) {sz : State}
    (h : execIncSubscribe ses cls s = .next sz) : Only [.regs_, .ctrs_, .fw_, .inc_, .out_] s sz := by
    unfold execIncSubscribe at h
    cases h
    repeat' first
      | with_reducible exact Only.refl _ _
      | with_reducible assumption
      | with_reducible apply State.setBoothSess_only
      | with_reducible apply State.message_only
      | refine Fld.yes rfl
      | (extract_lets +onlyGivenNames zz; try clear_value zz; revert zz; intros)
      | dsimp -zeta only
      | split
      | intro _

theorem execPbRead_only (ses : Sys2Proof.SessId) (first : Sys2Proof.Word) (count : Nat) (s : State) {sz : State}
    (h : execPbRead ses first count s = .next sz) : Only [.regs_, .ctrs_, .fw_, .inc_, .out_] s sz := by
    unfold execPbRead at h
    cases h
    repeat' first
      | with_reducible exact Only.refl _ _
      | with_reducible assumption
      | with_reducible apply State.message_only
      | refine Fld.yes rfl
      | (extract_lets +onlyGivenNames zz; try clear_value zz; revert zz; intros)
      | dsimp -zeta only
      | split
      | intro _

theorem execTraceSet_only (ses : Sys2Proof.SessId) (comp : Nat) (word : Nat) (mask : Sys2Proof.Word) (s : State) {sz : State}
    (h : execTraceSet ses comp word mask s = .next sz) : Only [.regs_, .ctrs_, .fw_, .inc_, .out_] s sz := by
    unfold execTraceSet at h
    cases h
    repeat' first
      | with_reducible exact Only.refl _ _
      | with_reducible assumption
      | with_reducible apply State.message_only
      | refine Fld.yes rfl
      | (extract_lets +onlyGivenNames zz; try clear_value zz; revert zz; intros)
      | dsimp -zeta only
      | split
      | intro _
      | refine Only.upd ?_ rfl rfl

theorem execModuleReset_only (ses : Sys2Proof.SessId) (s : State) {sz : State}
    (h : execModuleReset ses s = .next sz) : Only (Fld.most ++ [.out_]) s sz := by
    unfold execModuleReset at h
    cases h
    repeat' first
      | with_reducible exact Only.refl _ _
      | with_reducible assumption
      | with_reducible apply State.replyNow_only
      | with_reducible apply State.beginReset_only
      | with_reducible apply State.message_only
      | refine Fld.yes rfl
      | (extract_lets +onlyGivenNames zz; try clear_value zz; revert zz; intros)
      | dsimp -zeta only
      | intro _

theorem execTrcEnable_only (fn : Sys2Proof.Fn) (b : Sys2Proof.Bolt) (val : Sys2Proof.Word) (s : State) {sz : State}
    (h : execTrcEnable fn b val s = .next sz) : Only [.regs_, .vfErr_, .fw_] s sz := by
  unfold execTrcEnable at h
  cases h
  extract_lets at_ v order ok s1 was s2 p s3
  refine Only.ite (Only.refl _ _) (Only.ite (State.setErr_only (Only.refl _ _) rfl) ?_)
  have h1 : Only [.regs_, .vfErr_, .fw_] s s1 := Only.ite (Only.refl _ _) (State.setErr_only (Only.refl _ _) rfl)
  have h2 : Only [.regs_, .vfErr_, .fw_] s s2 := State.setReg_only h1 rfl
  have h3 : Only [.regs_, .vfErr_, .fw_] s s3 := by
    clear_value s2
    exact Only.upd h2 rfl rfl
  refine Only.ite ?_ h2
  exact State.setReg_only (State.setReg_only h3 rfl) rfl

theorem execBoothSessionClose_only (ses : Sys2Proof.SessId) (s : State) {sz : State}
    (h : execBoothSessionClose ses s = .next sz) : Only [.ctxs_, .sec_, .fw_] s sz := by
    unfold execBoothSessionClose at h
    cases h
    repeat' first
      | with_reducible exact Only.refl _ _
      | with_reducible apply State.closeBooth_only
      | refine Fld.yes rfl
      | split

end Sys2Proof.Machine
end

