-- ==== Sys2Proof/Laws/FrameBow.lean ====
section
/-! SUPPORT. Which fields of the state each operation of Sys2Proof/Machine/Bow.lean can change. -/

namespace Sys2Proof.Machine

set_option linter.all false
set_option Elab.async false

/-- Fields that operations of this file change. -/
def Fld.ofBow1 : List Fld :=
  [.regs_, .ctrs_, .tiles_, .redClk_, .hbm_, .cxl_, .hbmUe_, .metaCache_, .sideArea_, .tcache_, .wcache_, .cues_,
   .ports_, .sess_, .sessIn_, .reqs_, .nextTag_, .loom_, .queues_, .fences_, .objs_, .freed_, .ctxs_, .fns_,
   .hostReads_, .fwNeed_, .fwGot_, .fwHeld_, .casts_, .serve_, .power_, .sec_, .fw_, .inc_, .twin_, .freeCtr_,
   .out_]

theorem State.bowPass_only {fl : List Fld} {sa s : State} {b : Nat}
    (hk : Only fl sa s) (hsub : Fld.sub Fld.ofBow1 fl = true) : Only fl sa (State.bowPass s b) := by
    refine Only.seq (l := Fld.ofBow1) hk ?_ hsub
    clear hk hsub
    unfold State.bowPass
    repeat' first
      | with_reducible exact Only.refl _ _
      | with_reducible assumption
      | with_reducible apply State.settle_only
      | with_reducible apply State.boundary_only
      | with_reducible apply State.stopDrain_only
      | with_reducible apply State.updCtx_only
      | with_reducible apply State.mapTiles_only
      | with_reducible apply Only.ite
      | with_reducible apply Only.foldl
      | intro _ _ _
      | refine Fld.yes rfl
      | (extract_lets +onlyGivenNames zz; refine Only.have_ (u := zz) ?_ (fun _ => ?_); rotate_left; try clear_value zz; revert zz; intros; rotate_right; dsimp -zeta only [zz]; clear zz)
      | (extract_lets +onlyGivenNames zz; try clear_value zz; revert zz; intros)
      | split

theorem execBowPass_only (b : Sys2Proof.Bolt) (s : State) {sz : State}
    (h : execBowPass b s = .next sz) : Only Fld.ofBow1 s sz := by
    unfold execBowPass at h
    cases h
    repeat' first
      | with_reducible exact Only.refl _ _
      | with_reducible assumption
      | with_reducible apply State.bowPass_only
      | with_reducible apply State.tileFault_only
      | with_reducible apply Only.ite
      | with_reducible apply Only.foldl
      | intro _ _ _
      | refine Fld.yes rfl

theorem execDrain_only (fn : Sys2Proof.Fn) (b : Sys2Proof.Bolt) (val : Sys2Proof.Word) (s : State) {sz : State}
    (h : execDrain fn b val s = .next sz) : Only [.regs_, .vfErr_, .ctrs_, .tiles_, .hbm_, .cxl_, .hbmUe_, .metaCache_, .sideArea_, .cues_, .reqs_, .nextTag_, .loom_, .queues_, .fences_, .objs_, .freed_, .ctxs_, .fns_, .hostReads_, .fwGot_, .fwHeld_, .sec_, .fw_, .inc_, .twin_, .out_] s sz := by
    unfold execDrain at h
    cases h
    repeat' first
      | with_reducible exact Only.refl _ _
      | with_reducible apply State.drainRequest_only
      | with_reducible apply State.setReg_only
      | with_reducible apply State.setErr_only
      | with_reducible apply Only.ite
      | refine Fld.yes rfl

theorem execDrainTimeout_only (b : Sys2Proof.Bolt) (s : State) {sz : State}
    (h : execDrainTimeout b s = .next sz) : Only [.regs_, .ctrs_, .tiles_, .hbm_, .cxl_, .hbmUe_, .metaCache_, .sideArea_, .cues_, .reqs_, .nextTag_, .loom_, .queues_, .fences_, .objs_, .freed_, .ctxs_, .fns_, .hostReads_, .fwGot_, .fwHeld_, .sec_, .fw_, .inc_, .twin_, .out_] s sz := by
    unfold execDrainTimeout at h
    cases h
    repeat' first
      | with_reducible exact Only.refl _ _
      | with_reducible apply State.drainFail_only
      | with_reducible apply Only.ite
      | refine Fld.yes rfl
      | (extract_lets +onlyGivenNames zz; try clear_value zz; revert zz; intros)
      | split

end Sys2Proof.Machine
end

