-- ==== Sys2Proof/Laws/FrameCue.lean ====
section
/-! SUPPORT. Which fields of the state each operation of Sys2Proof/Machine/Cue.lean can change. -/

namespace Sys2Proof.Machine

set_option linter.all false
set_option Elab.async false

/-- Fields that operations of this file change. -/
def Fld.ofCue1 : List Fld :=
  [.regs_, .ctrs_, .tiles_, .redIn_, .redStage_, .redRun_, .redOpen_, .redClk_, .mcFlits_, .hbm_, .cxl_, .hbmUe_,
   .metaCache_, .sideArea_, .inv_, .stu_, .cues_, .ports_, .sess_, .reqs_, .nextTag_, .loom_, .queues_, .fences_,
   .objs_, .freed_, .ctxs_, .fns_, .hostReads_, .pfWalks_, .fwGot_, .fwHeld_, .power_, .sec_, .fw_, .inc_,
   .twin_, .lost_, .freeCtr_, .out_]

theorem State.afterLate_only {fl : List Fld} {sa s : State} {n : Nat} {k : Nat} {c : CueSlotSt}
    (hk : Only fl sa s) (hsub : Fld.sub [.cues_] fl = true) : Only fl sa (State.afterLate s n k c) := by
    refine Only.seq (l := [.cues_]) hk ?_ hsub
    clear hk hsub
    unfold State.afterLate
    repeat' first
      | with_reducible exact Only.refl _ _
      | with_reducible apply State.setCue_only
      | with_reducible apply Only.ite
      | refine Fld.yes rfl

theorem State.startPhaseAt_only {fl : List Fld} {sa s : State} {arg : Nat} {t : Nat}
    (hk : Only fl sa s) (hsub : Fld.sub [.regs_, .ctrs_, .tiles_, .inc_] fl = true) : Only fl sa (State.startPhaseAt s arg t) := by
    refine Only.seq (l := [.regs_, .ctrs_, .tiles_, .inc_]) hk ?_ hsub
    clear hk hsub
    unfold State.startPhaseAt
    repeat' first
      | with_reducible exact Only.refl _ _
      | with_reducible apply State.report_only
      | with_reducible apply State.setTile_only
      | with_reducible apply Only.ite
      | refine Fld.yes rfl

theorem State.releaseAt_only {fl : List Fld} {sa s : State} {arg : Nat} {t : Nat}
    (hk : Only fl sa s) (hsub : Fld.sub [.regs_, .ctrs_, .tiles_, .inc_] fl = true) : Only fl sa (State.releaseAt s arg t) := by
    refine Only.seq (l := [.regs_, .ctrs_, .tiles_, .inc_]) hk ?_ hsub
    clear hk hsub
    unfold State.releaseAt
    repeat' first
      | with_reducible exact Only.refl _ _
      | with_reducible apply State.updTile_only
      | with_reducible apply State.report_only
      | with_reducible apply Only.ite
      | refine Fld.yes rfl

theorem State.openRedAt_only {fl : List Fld} {sa s : State} {b : Nat} {g : Nat} {node : Nat} {round : Nat}
    (hk : Only fl sa s) (hsub : Fld.sub [.redOpen_] fl = true) : Only fl sa (State.openRedAt s b g node round) := by
    refine Only.seq (l := [.redOpen_]) hk ?_ hsub
    clear hk hsub
    unfold State.openRedAt
    repeat' first
      | with_reducible exact Only.refl _ _
      | with_reducible apply Only.ite
      | (extract_lets +onlyGivenNames zz; try clear_value zz; revert zz; intros)
      | refine Only.upd ?_ rfl rfl

theorem State.openRedAll_only {fl : List Fld} {sa s : State} {g : Nat} {arg : Nat}
    (hk : Only fl sa s) (hsub : Fld.sub [.redOpen_] fl = true) : Only fl sa (State.openRedAll s g arg) := by
    refine Only.seq (l := [.redOpen_]) hk ?_ hsub
    clear hk hsub
    unfold State.openRedAll
    repeat' first
      | with_reducible exact Only.refl _ _
      | with_reducible assumption
      | with_reducible apply State.openRedAt_only
      | with_reducible apply Only.ite
      | with_reducible apply Only.foldl
      | intro _ _ _
      | refine Fld.yes rfl
      | (extract_lets +onlyGivenNames zz; try clear_value zz; revert zz; intros)
      | split

theorem State.shiftPowerTo_only {fl : List Fld} {sa s : State} {n : Nat} {r : CueRec} {arg : Nat}
    (hk : Only fl sa s) (hsub : Fld.sub [.regs_, .ctrs_, .power_, .inc_] fl = true) : Only fl sa (State.shiftPowerTo s n r arg) := by
    refine Only.seq (l := [.regs_, .ctrs_, .power_, .inc_]) hk ?_ hsub
    clear hk hsub
    unfold State.shiftPowerTo
    repeat' first
      | with_reducible exact Only.refl _ _
      | with_reducible apply State.report_only
      | with_reducible apply State.updateFloors_only
      | with_reducible apply Only.ite
      | refine Fld.yes rfl
      | (extract_lets +onlyGivenNames zz; try clear_value zz; revert zz; intros)
      | refine Only.upd ?_ rfl rfl

theorem State.cueEffect_only {fl : List Fld} {sa s : State} {n : Nat} {k : Nat} {r : CueRec}
    (hk : Only fl sa s) (hsub : Fld.sub Fld.ofCue1 fl = true) : Only fl sa (State.cueEffect s n k r) := by
    refine Only.seq (l := Fld.ofCue1) hk ?_ hsub
    clear hk hsub
    unfold State.cueEffect
    repeat' first
      | with_reducible exact Only.refl _ _
      | with_reducible assumption
      | with_reducible apply State.goLive_only
      | with_reducible apply State.shiftPowerTo_only
      | with_reducible apply State.signal_only
      | with_reducible apply State.openRedAll_only
      | with_reducible apply State.releaseAt_only
      | with_reducible apply State.startPhaseAt_only
      | with_reducible apply Only.foldl
      | intro _ _ _
      | refine Fld.yes rfl
      | (extract_lets +onlyGivenNames zz; try clear_value zz; revert zz; intros)
      | split

theorem State.fire_only {fl : List Fld} {sa s : State} {n : Nat} {a : Nat}
    (hk : Only fl sa s) (hsub : Fld.sub Fld.ofCue1 fl = true) : Only fl sa (State.fire s n a) := by
    refine Only.seq (l := Fld.ofCue1) hk ?_ hsub
    clear hk hsub
    unfold State.fire
    repeat' first
      | with_reducible exact Only.refl _ _
      | with_reducible apply State.afterFire_only
      | with_reducible apply State.cueEffect_only
      | refine Fld.yes rfl
      | split

theorem State.reportLate_only {fl : List Fld} {sa s : State} {n : Nat} {cause : Nat} {k : Nat} {c : CueSlotSt}
    (hk : Only fl sa s) (hsub : Fld.sub [.regs_, .ctrs_, .ctxs_, .fns_, .inc_, .out_] fl = true) : Only fl sa (State.reportLate s n cause k c) := by
    refine Only.seq (l := [.regs_, .ctrs_, .ctxs_, .fns_, .inc_, .out_]) hk ?_ hsub
    clear hk hsub
    unfold State.reportLate
    repeat' first
      | with_reducible exact Only.refl _ _
      | with_reducible assumption
      | with_reducible apply State.voidWhere_only
      | with_reducible apply State.setReg_only
      | with_reducible apply State.bump_only
      | with_reducible apply State.report_only
      | with_reducible apply Only.ite
      | refine Fld.yes rfl
      | (extract_lets +onlyGivenNames zz; refine Only.have_ (u := zz) ?_ (fun _ => ?_); rotate_left; try clear_value zz; revert zz; intros; rotate_right; dsimp -zeta only [zz]; clear zz)
      | (extract_lets +onlyGivenNames zz; try clear_value zz; revert zz; intros)
      | split

theorem execStartPhase_only (slot : Sys2Proof.CueSlot) (s : State) {sz : State}
    (h : execStartPhase slot s = .next sz) : Only Fld.ofCue1 s sz := by
    unfold execStartPhase at h
    cases h
    repeat' first
      | with_reducible exact Only.refl _ _
      | with_reducible apply State.fire_only
      | refine Fld.yes rfl

theorem execReleaseStream_only (slot : Sys2Proof.CueSlot) (s : State) {sz : State}
    (h : execReleaseStream slot s = .next sz) : Only Fld.ofCue1 s sz := by
    unfold execReleaseStream at h
    cases h
    repeat' first
      | with_reducible exact Only.refl _ _
      | with_reducible apply State.fire_only
      | refine Fld.yes rfl

theorem execOpenRed_only (slot : Sys2Proof.CueSlot) (s : State) {sz : State}
    (h : execOpenRed slot s = .next sz) : Only Fld.ofCue1 s sz := by
    unfold execOpenRed at h
    cases h
    repeat' first
      | with_reducible exact Only.refl _ _
      | with_reducible apply State.fire_only
      | refine Fld.yes rfl

theorem execSignalFence_only (slot : Sys2Proof.CueSlot) (s : State) {sz : State}
    (h : execSignalFence slot s = .next sz) : Only Fld.ofCue1 s sz := by
    unfold execSignalFence at h
    cases h
    repeat' first
      | with_reducible exact Only.refl _ _
      | with_reducible apply State.fire_only
      | refine Fld.yes rfl

theorem execShiftPower_only (slot : Sys2Proof.CueSlot) (s : State) {sz : State}
    (h : execShiftPower slot s = .next sz) : Only Fld.ofCue1 s sz := by
    unfold execShiftPower at h
    cases h
    repeat' first
      | with_reducible exact Only.refl _ _
      | with_reducible apply State.fire_only
      | refine Fld.yes rfl

theorem execSceneChange_only (slot : Sys2Proof.CueSlot) (s : State) {sz : State}
    (h : execSceneChange slot s = .next sz) : Only Fld.ofCue1 s sz := by
    unfold execSceneChange at h
    cases h
    repeat' first
      | with_reducible exact Only.refl _ _
      | with_reducible apply State.fire_only
      | refine Fld.yes rfl

theorem execCueHandover_only (slot : Sys2Proof.CueSlot) (s : State) {sz : State}
    (h : execCueHandover slot s = .next sz) : Only [.cues_] s sz := by
    unfold execCueHandover at h
    cases h
    repeat' first
      | with_reducible exact Only.refl _ _
      | with_reducible apply State.setCue_only
      | with_reducible apply Only.ite
      | refine Fld.yes rfl
      | split

theorem execCueLate_only (slot : Sys2Proof.CueSlot) (cause : Sys2Proof.LateCause) (s : State) {sz : State}
    (h : execCueLate slot cause s = .next sz) : Only Fld.ofCue1 s sz := by
    unfold execCueLate at h
    cases h
    repeat' first
      | with_reducible exact Only.refl _ _
      | with_reducible apply State.afterLate_only
      | with_reducible apply State.cueEffect_only
      | with_reducible apply State.reportLate_only
      | with_reducible apply Only.ite
      | refine Fld.yes rfl
      | split

end Sys2Proof.Machine
end

