-- ==== Sys2Proof/Laws/FrameIncident.lean ====
section
/-! SUPPORT. Which fields of the state each operation of Sys2Proof/Machine/Incident.lean can change. -/

namespace Sys2Proof.Machine

set_option linter.all false
set_option Elab.async false

theorem State.takeReport_only {fl : List Fld} {sa s t : State} {r : Incident}
    (h : s.takeReport = some (t, r)) (hk : Only fl sa s) (hsub : Fld.sub [.inc_] fl = true) : Only fl sa t := by
  unfold State.takeReport at h
  dsimp only at h
  split at h
  · split at h
    · cases h
      exact Only.seq (l := [.inc_]) (State.setSrc_only hk hsub) (Only.upd (Only.refl _ _) rfl rfl) hsub
    · cases h
  · split at h
    · split at h
      · cases h
        exact Only.seq (l := [.inc_]) (State.setSrc_only hk hsub) (Only.upd (Only.refl _ _) rfl rfl) hsub
      · cases h
    · cases h

theorem State.tellIncident_only {fl : List Fld} {sa s : State} {r : Incident}
    (hk : Only fl sa s) (hsub : Fld.sub [.out_] fl = true) : Only fl sa (State.tellIncident s r) := by
    refine Only.seq (l := [.out_]) hk ?_ hsub
    clear hk hsub
    unfold State.tellIncident
    repeat' first
      | with_reducible exact Only.refl _ _
      | with_reducible assumption
      | with_reducible apply State.emit_only
      | with_reducible apply Only.ite
      | with_reducible apply Only.foldl
      | intro _ _ _
      | refine Fld.yes rfl

theorem State.boltView_only {fl : List Fld} {sa s : State} {r : Incident}
    (hk : Only fl sa s) (hsub : Fld.sub [.regs_, .ctrs_] fl = true) : Only fl sa (State.boltView s r) := by
    refine Only.seq (l := [.regs_, .ctrs_]) hk ?_ hsub
    clear hk hsub
    unfold State.boltView
    repeat' first
      | with_reducible exact Only.refl _ _
      | with_reducible apply State.setReg64_only
      | with_reducible apply State.setReg_only
      | with_reducible apply State.bump_only
      | with_reducible apply Only.ite
      | refine Fld.yes rfl
      | (extract_lets +onlyGivenNames zz; try clear_value zz; revert zz; intros)
      | split

theorem State.incSignal_only {fl : List Fld} {sa s : State} 
    (hk : Only fl sa s) (hsub : Fld.sub [.fns_, .inc_, .out_] fl = true) : Only fl sa (State.incSignal s) := by
    refine Only.seq (l := [.fns_, .inc_, .out_]) hk ?_ hsub
    clear hk hsub
    unfold State.incSignal
    repeat' first
      | with_reducible exact Only.refl _ _
      | with_reducible assumption
      | with_reducible apply State.msix_only
      | with_reducible apply Only.ite
      | refine Fld.yes rfl
      | (extract_lets +onlyGivenNames zz; refine Only.have_ (u := zz) ?_ (fun _ => ?_); rotate_left; try clear_value zz; revert zz; intros; rotate_right; dsimp -zeta only [zz]; clear zz)
      | (extract_lets +onlyGivenNames zz; try clear_value zz; revert zz; intros)
      | refine Only.upd ?_ rfl rfl

theorem State.incWrite_only {fl : List Fld} {sa s : State} {r : Incident}
    (hk : Only fl sa s) (hsub : Fld.sub [.regs_, .ctrs_, .fns_, .inc_, .out_] fl = true) : Only fl sa (State.incWrite s r) := by
    refine Only.seq (l := [.regs_, .ctrs_, .fns_, .inc_, .out_]) hk ?_ hsub
    clear hk hsub
    unfold State.incWrite
    repeat' first
      | with_reducible exact Only.refl _ _
      | with_reducible apply State.dropReport_only
      | with_reducible apply State.incSignal_only
      | with_reducible apply Only.ite
      | refine Fld.yes rfl
      | (extract_lets +onlyGivenNames zz; try clear_value zz; revert zz; intros)
      | refine Only.upd ?_ rfl rfl

theorem State.fatalWrite_only {fl : List Fld} {sa s : State} {r : Incident}
    (hk : Only fl sa s) (hsub : Fld.sub [.regs_, .inc_] fl = true) : Only fl sa (State.fatalWrite s r) := by
    refine Only.seq (l := [.regs_, .inc_]) hk ?_ hsub
    clear hk hsub
    unfold State.fatalWrite
    repeat' first
      | with_reducible exact Only.refl _ _
      | with_reducible apply State.orReg_only
      | with_reducible apply Only.ite
      | refine Fld.yes rfl
      | (extract_lets +onlyGivenNames zz; try clear_value zz; revert zz; intros)
      | refine Only.upd ?_ rfl rfl

theorem State.accept_only {fl : List Fld} {sa s : State} {r : Incident}
    (hk : Only fl sa s) (hsub : Fld.sub [.regs_, .ctrs_, .fns_, .inc_, .out_] fl = true) : Only fl sa (State.accept s r).1 := by
    refine Only.seq (l := [.regs_, .ctrs_, .fns_, .inc_, .out_]) hk ?_ hsub
    clear hk hsub
    unfold State.accept
    repeat' first
      | with_reducible exact Only.refl _ _
      | with_reducible apply State.fatalWrite_only
      | with_reducible apply State.incWrite_only
      | with_reducible apply State.boltView_only
      | with_reducible apply State.tellIncident_only
      | with_reducible apply State.setSrc_only
      | refine Fld.yes rfl
      | (extract_lets +onlyGivenNames zz; try clear_value zz; revert zz; intros)
      | dsimp -zeta only
      | refine Only.upd ?_ rfl rfl

theorem State.incReport_only {fl : List Fld} {sa s : State} {code : Nat} {cls : Nat} {a0 : Nat} {a1 : Nat} {a2 : Nat}
    (hk : Only fl sa s) (hsub : Fld.sub [.regs_, .ctrs_, .fns_, .inc_, .out_] fl = true) : Only fl sa (State.incReport s code cls a0 a1 a2) := by
    refine Only.seq (l := [.regs_, .ctrs_, .fns_, .inc_, .out_]) hk ?_ hsub
    clear hk hsub
    unfold State.incReport
    repeat' first
      | with_reducible exact Only.refl _ _
      | with_reducible apply State.accept_only
      | with_reducible apply State.setSrc_only
      | refine Fld.yes rfl

theorem State.flushOverflow_only {fl : List Fld} {sa s : State} 
    (hk : Only fl sa s) (hsub : Fld.sub [.regs_, .ctrs_, .fns_, .inc_, .out_] fl = true) : Only fl sa (State.flushOverflow s) := by
    refine Only.seq (l := [.regs_, .ctrs_, .fns_, .inc_, .out_]) hk ?_ hsub
    clear hk hsub
    unfold State.flushOverflow
    repeat' first
      | with_reducible exact Only.refl _ _
      | with_reducible apply State.incReport_only
      | with_reducible apply Only.ite
      | refine Fld.yes rfl
      | (extract_lets +onlyGivenNames zz; try clear_value zz; revert zz; intros)
      | refine Only.upd ?_ rfl rfl

theorem State.haltLines_only {fl : List Fld} {sa s : State} 
    (hk : Only fl sa s) (hsub : Fld.sub [.fw_, .out_] fl = true) : Only fl sa (State.haltLines s) := by
    refine Only.seq (l := [.fw_, .out_]) hk ?_ hsub
    clear hk hsub
    unfold State.haltLines
    repeat' first
      | with_reducible exact Only.refl _ _
      | with_reducible assumption
      | with_reducible apply State.advanceLine_only
      | with_reducible apply Only.foldl
      | intro _ _ _
      | refine Fld.yes rfl

theorem State.halt_only {fl : List Fld} {sa s : State} {r : Incident}
    (hk : Only fl sa s) (hsub : Fld.sub [.regs_, .ctrs_, .tiles_, .sess_, .fns_, .sec_, .fw_, .inc_, .pins_, .out_] fl = true) : Only fl sa (State.halt s r) := by
    refine Only.seq (l := [.regs_, .ctrs_, .tiles_, .sess_, .fns_, .sec_, .fw_, .inc_, .pins_, .out_]) hk ?_ hsub
    clear hk hsub
    unfold State.halt
    repeat' first
      | with_reducible exact Only.refl _ _
      | with_reducible assumption
      | with_reducible apply State.haltLines_only
      | with_reducible apply State.emit_only
      | with_reducible apply State.incReport_only
      | with_reducible apply Only.ite
      | with_reducible apply Only.foldl
      | intro _ _ _
      | refine Fld.yes rfl
      | (extract_lets +onlyGivenNames zz; try clear_value zz; revert zz; intros)
      | dsimp -zeta only
      | split
      | refine Only.upd ?_ rfl rfl

theorem execFaultNAssert_only (s : State) {sz : State}
    (h : execFaultNAssert s = .next sz) : Only [.pins_] s sz := by
    unfold execFaultNAssert at h
    cases h
    repeat' first
      | with_reducible exact Only.refl _ _
      | with_reducible apply Only.ite
      | (extract_lets +onlyGivenNames zz; try clear_value zz; revert zz; intros)
      | refine Only.upd ?_ rfl rfl

theorem execIncTailWrite_only (fn : Sys2Proof.Fn) (val : Sys2Proof.Word) (s : State) {sz : State}
    (h : execIncTailWrite fn val s = .next sz) : Only [.regs_, .vfErr_, .ctrs_, .fns_, .inc_, .out_] s sz := by
    unfold execIncTailWrite at h
    cases h
    repeat' first
      | with_reducible exact Only.refl _ _
      | with_reducible apply State.flushOverflow_only
      | with_reducible apply State.setErr_only
      | with_reducible apply Only.ite
      | refine Fld.yes rfl
      | (extract_lets +onlyGivenNames zz; try clear_value zz; revert zz; intros)
      | split
      | refine Only.upd ?_ rfl rfl

theorem execIncSrcClear_only (fn : Sys2Proof.Fn) (val : Sys2Proof.Word) (s : State) {sz : State}
    (h : execIncSrcClear fn val s = .next sz) : Only [.regs_, .vfErr_, .inc_] s sz := by
    unfold execIncSrcClear at h
    cases h
    repeat' first
      | with_reducible exact Only.refl _ _
      | with_reducible apply State.setSrc_only
      | with_reducible apply State.setErr_only
      | with_reducible apply Only.ite
      | refine Fld.yes rfl

theorem execBltIncClear_only (fn : Sys2Proof.Fn) (b : Sys2Proof.Bolt) (val : Sys2Proof.Word) (s : State) {sz : State}
    (h : execBltIncClear fn b val s = .next sz) : Only [.regs_] s sz := by
    unfold execBltIncClear at h
    cases h
    repeat' first
      | with_reducible exact Only.refl _ _
      | with_reducible apply State.setReg_only
      | with_reducible apply State.setReg64_only
      | with_reducible apply Only.ite
      | refine Fld.yes rfl

theorem execCounterSatClear_only (fn : Sys2Proof.Fn) (off : Nat) (val : Sys2Proof.Word) (s : State) {sz : State}
    (h : execCounterSatClear fn off val s = .next sz) : Only [.regs_, .vfErr_, .ctrs_, .inc_] s sz := by
    unfold execCounterSatClear at h
    cases h
    repeat' first
      | with_reducible exact Only.refl _ _
      | with_reducible apply State.setSrc_only
      | with_reducible apply State.setErr_only
      | with_reducible apply Only.ite
      | refine Fld.yes rfl
      | (extract_lets +onlyGivenNames zz; try clear_value zz; revert zz; intros)
      | split
      | refine Only.upd ?_ rfl rfl

end Sys2Proof.Machine
end

