-- ==== Sys2Proof/Laws/FrameUnderstudy.lean ====
section
/-! SUPPORT. Which fields of the state each operation of Sys2Proof/Machine/Understudy.lean can change. -/

namespace Sys2Proof.Machine

set_option linter.all false
set_option Elab.async false

theorem State.compareBolts_only {fl : List Fld} {sa s : State} {u : Nat} {peer : Sys2Proof.PairInfo} {bs : List Nat}
    (hk : Only fl sa s) (hsub : Fld.sub [.regs_, .ctrs_, .inc_, .twin_] fl = true) : Only fl sa (s.compareBolts u peer bs) := by
  induction bs generalizing s with
  | nil => exact hk
  | cons b bs ih =>
    unfold State.compareBolts
    split
    · exact ih hk
    · apply ih
      refine State.report_only ?_ (Fld.sub_trans (by decide) hsub)
      exact Only.seq (l := [.twin_]) hk (Only.upd (Only.refl _ _)
        rfl rfl) (Fld.sub_trans (by decide) hsub)

theorem State.rolesDiffer_only {fl : List Fld} {sa s : State} {u : Nat}
    (hk : Only fl sa s) (hsub : Fld.sub [.regs_, .ctrs_, .inc_, .twin_, .freeCtr_] fl = true) : Only fl sa (State.rolesDiffer s u) := by
    refine Only.seq (l := [.regs_, .ctrs_, .inc_, .twin_, .freeCtr_]) hk ?_ hsub
    clear hk hsub
    unfold State.rolesDiffer
    repeat' first
      | with_reducible exact Only.refl _ _
      | with_reducible assumption
      | with_reducible apply State.report_only
      | with_reducible apply State.draw_only
      | with_reducible apply Only.ite
      | refine Fld.yes rfl
      | (extract_lets +onlyGivenNames zz; refine Only.have_ (u := zz) ?_ (fun _ => ?_); rotate_left; try clear_value zz; revert zz; intros; rotate_right; dsimp -zeta only [zz]; clear zz)
      | (extract_lets +onlyGivenNames zz; try clear_value zz; revert zz; intros)
      | refine Only.upd ?_ rfl rfl

theorem State.twinMessage_only {fl : List Fld} {sa s : State} {p : Nat} {b : Nat} {off : Nat} {v : Nat}
    (hk : Only fl sa s) (hsub : Fld.sub [.regs_, .ctrs_, .inc_, .out_] fl = true) : Only fl sa (State.twinMessage s p b off v) := by
    refine Only.seq (l := [.regs_, .ctrs_, .inc_, .out_]) hk ?_ hsub
    clear hk hsub
    unfold State.twinMessage
    repeat' first
      | with_reducible exact Only.refl _ _
      | with_reducible apply State.report_only
      | with_reducible apply State.setReg64_only
      | with_reducible apply State.emit_only
      | with_reducible apply Only.ite
      | refine Fld.yes rfl

theorem execULinkPairing_only (p : Sys2Proof.Port) (peer : Sys2Proof.PairInfo) (s : State) {sz : State}
    (h : execULinkPairing p peer s = .next sz) : Only [.regs_, .ctrs_, .tiles_, .cues_, .ports_, .sess_, .reqs_, .loom_, .ctxs_, .fns_, .hostReads_, .fwGot_, .fwHeld_, .sec_, .fw_, .inc_, .twin_, .freeCtr_, .out_] s sz := by
    unfold execULinkPairing at h
    cases h
    repeat' first
      | with_reducible exact Only.refl _ _
      | with_reducible apply State.degrade_only
      | with_reducible apply State.startSync_only
      | with_reducible apply State.compareBolts_only
      | with_reducible apply State.report_only
      | with_reducible apply State.rolesDiffer_only
      | with_reducible apply Only.ite
      | refine Fld.yes rfl
      | (extract_lets +onlyGivenNames zz; try clear_value zz; revert zz; intros)
      | split
      | refine Only.upd ?_ rfl rfl

theorem execMirrorWrite_only (p : Sys2Proof.Port) (b : Sys2Proof.Bolt) (space : BitVec 3) (off : Nat) (data : List Sys2Proof.Byte) (s : State) {sz : State}
    (h : execMirrorWrite p b space off data s = .next sz) : Only [.regs_, .ctrs_, .tiles_, .hbm_, .cxl_, .hbmUe_, .metaCache_, .sideArea_, .cues_, .reqs_, .nextTag_, .loom_, .ctxs_, .fns_, .hostReads_, .fwGot_, .fwHeld_, .sec_, .fw_, .inc_, .twin_, .out_] s sz := by
    unfold execMirrorWrite at h
    cases h
    repeat' first
      | with_reducible exact Only.refl _ _
      | with_reducible apply State.poke_only
      | with_reducible apply State.emit_only
      | with_reducible apply State.twinMessage_only
      | with_reducible apply Only.ite
      | refine Fld.yes rfl

theorem execMirCkpt_only (fn : Sys2Proof.Fn) (b : Sys2Proof.Bolt) (hi : Sys2Proof.Word) (s : State) {sz : State}
    (h : execMirCkpt fn b hi s = .next sz) : Only [.regs_, .loHeld_, .twin_, .out_] s sz := by
  unfold execMirCkpt at h
  cases h
  refine Only.ite (Only.refl _ _) ?_
  extract_lets hh s1 v s2 p
  have h1 : Only [.regs_, .loHeld_, .twin_, .out_] s s1 := State.takeLo_only (Only.refl _ _) rfl
  refine Only.ite (State.orReg_only h1 rfl) (Only.ite (State.orReg_only h1 rfl) ?_)
  have h2 : Only [.regs_, .loHeld_, .twin_, .out_] s s2 := State.setReg64_only h1 rfl
  clear_value s2
  exact State.sendCkpt_only (Only.upd h2 rfl rfl) rfl

theorem execMirCkptAck_only (b : Sys2Proof.Bolt) (s : State) {sz : State}
    (h : execMirCkptAck b s = .next sz) : Only [.regs_, .twin_] s sz := by
    unfold execMirCkptAck at h
    cases h
    repeat' first
      | with_reducible exact Only.refl _ _
      | with_reducible apply State.setReg64_only
      | with_reducible apply Only.ite
      | refine Fld.yes rfl
      | (extract_lets +onlyGivenNames zz; try clear_value zz; revert zz; intros)
      | split
      | refine Only.upd ?_ rfl rfl

theorem execTwinOkInChange_only (level : Bool) (s : State) {sz : State}
    (h : execTwinOkInChange level s = .next sz) : Only [.regs_, .ctrs_, .tiles_, .cues_, .ports_, .sess_, .reqs_, .loom_, .ctxs_, .fns_, .hostReads_, .fwGot_, .fwHeld_, .sec_, .fw_, .inc_, .twin_, .out_] s sz := by
    unfold execTwinOkInChange at h
    cases h
    repeat' first
      | with_reducible exact Only.refl _ _
      | with_reducible apply State.startSync_only
      | with_reducible apply State.degrade_only
      | with_reducible apply Only.ite
      | refine Fld.yes rfl
      | (extract_lets +onlyGivenNames zz; try clear_value zz; revert zz; intros)
      | split
      | refine Only.upd ?_ rfl rfl

theorem execPromotion_only (s : State) {sz : State}
    (h : execPromotion s = .next sz) : Only [.regs_, .ctrs_, .fns_, .inc_, .twin_, .out_] s sz := by
    unfold execPromotion at h
    cases h
    repeat' first
      | with_reducible exact Only.refl _ _
      | with_reducible assumption
      | with_reducible apply State.report_only
      | with_reducible apply State.boltEvent_only
      | with_reducible apply Only.ite
      | with_reducible apply Only.foldl
      | intro _ _ _
      | refine Fld.yes rfl
      | (extract_lets +onlyGivenNames zz; try clear_value zz; revert zz; intros)
      | refine Only.upd ?_ rfl rfl

theorem execSyncComplete_only (p : Sys2Proof.Port) (s : State) {sz : State}
    (h : execSyncComplete p s = .next sz) : Only [.regs_, .ctrs_, .inc_, .twin_, .out_] s sz := by
    unfold execSyncComplete at h
    cases h
    repeat' first
      | with_reducible exact Only.refl _ _
      | with_reducible assumption
      | with_reducible apply State.report_only
      | with_reducible apply State.emit_only
      | with_reducible apply Only.ite
      | with_reducible apply Only.foldl
      | intro _ _ _
      | refine Fld.yes rfl
      | (extract_lets +onlyGivenNames zz; try clear_value zz; revert zz; intros)
      | split
      | refine Only.upd ?_ rfl rfl

end Sys2Proof.Machine
end

