-- ==== Sys2Proof/Laws/FrameCxl.lean ====
section
/-! SUPPORT. Which fields of the state each operation of Sys2Proof/Machine/Cxl.lean can change. -/

namespace Sys2Proof.Machine

set_option linter.all false
set_option Elab.async false

theorem State.loseParts_only {fl : List Fld} {sa s : State} {cp : Nat} {ld : Nat} {x : Nat × Region}
    (hk : Only fl sa s) (hsub : Fld.sub [.regs_, .ctrs_, .tiles_, .cues_, .reqs_, .loom_, .ctxs_, .fns_, .hostReads_, .fwGot_, .fwHeld_, .sec_, .fw_, .inc_, .lost_, .out_] fl = true) : Only fl sa (State.loseParts s cp ld x) := by
    refine Only.seq (l := [.regs_, .ctrs_, .tiles_, .cues_, .reqs_, .loom_, .ctxs_, .fns_, .hostReads_, .fwGot_, .fwHeld_, .sec_, .fw_, .inc_, .lost_, .out_]) hk ?_ hsub
    clear hk hsub
    unfold State.loseParts
    repeat' first
      | with_reducible exact Only.refl _ _
      | with_reducible apply State.raise_only
      | with_reducible apply State.report_only
      | with_reducible apply Only.ite
      | refine Fld.yes rfl
      | (extract_lets +onlyGivenNames zz; try clear_value zz; revert zz; intros)
      | refine Only.upd ?_ rfl rfl

theorem execCxlMemberLost_only (cp : Fin 2) (decoder : Fin 8) (ld : BitVec 4) (s : State) {sz : State}
    (h : execCxlMemberLost cp decoder ld s = .next sz) : Only [.regs_, .ctrs_, .tiles_, .cues_, .reqs_, .loom_, .ctxs_, .fns_, .hostReads_, .fwGot_, .fwHeld_, .sec_, .fw_, .inc_, .lost_, .cxlGone_, .out_] s sz := by
    unfold execCxlMemberLost at h
    cases h
    repeat' first
      | with_reducible exact Only.refl _ _
      | with_reducible assumption
      | with_reducible apply State.loseParts_only
      | with_reducible apply State.boltFail_only
      | with_reducible apply State.report_only
      | with_reducible apply Only.ite
      | with_reducible apply Only.foldl
      | intro _ _ _
      | refine Fld.yes rfl
      | (extract_lets +onlyGivenNames zz; try clear_value zz; revert zz; intros)
      | refine Only.upd ?_ rfl rfl

theorem execCxlRebuilt_only (r : Sys2Proof.RegionIx) (part : Fin 6) (s : State) {sz : State}
    (h : execCxlRebuilt r part s = .next sz) : Only [.regs_, .ctrs_, .inc_, .lost_] s sz := by
    unfold execCxlRebuilt at h
    cases h
    repeat' first
      | with_reducible exact Only.refl _ _
      | with_reducible apply State.report_only
      | with_reducible apply Only.ite
      | refine Fld.yes rfl
      | (extract_lets +onlyGivenNames zz; try clear_value zz; revert zz; intros)
      | split
      | refine Only.upd ?_ rfl rfl

theorem execCxlCompletion_only (cp : Fin 2) (r : Sys2Proof.MemReq) (x : Sys2Proof.CxlAnswer) (ns : Nat) (s : State) {sz : State}
    (h : execCxlCompletion cp r x ns s = .next sz) : Only [.regs_, .ctrs_, .tiles_, .hbm_, .cxl_, .hbmUe_, .metaCache_, .sideArea_, .cues_, .reqs_, .nextTag_, .loom_, .ctxs_, .fns_, .hostReads_, .fwGot_, .fwHeld_, .power_, .sec_, .fw_, .inc_, .twin_, .out_] s sz := by
    unfold execCxlCompletion at h
    cases h
    repeat' first
      | with_reducible exact Only.refl _ _
      | with_reducible apply State.perform_only
      | with_reducible apply State.integrityFail_only
      | with_reducible apply State.answer_only
      | with_reducible apply State.monitor_only
      | with_reducible apply Only.ite
      | refine Fld.yes rfl
      | (extract_lets +onlyGivenNames zz; have hfn := (zz : _ → _); clear hfn; dsimp -zeta only [zz]; clear zz)
      | (extract_lets +onlyGivenNames zz; try clear_value zz; revert zz; intros)
      | split

theorem execCxlMemberReturn_only (r : Sys2Proof.RegionIx) (part : Fin 6) (s : State) {sz : State}
    (h : execCxlMemberReturn r part s = .next sz) : Only [.lost_, .cxlGone_] s sz := by
    unfold execCxlMemberReturn at h
    cases h
    repeat' first
      | with_reducible exact Only.refl _ _
      | with_reducible apply Only.ite
      | (extract_lets +onlyGivenNames zz; try clear_value zz; revert zz; intros)
      | split
      | refine Only.upd ?_ rfl rfl

end Sys2Proof.Machine
end

