-- ==== Sys2Proof/Laws/FrameDebug.lean ====
section
/-! SUPPORT. Which fields of the state each operation of Sys2Proof/Machine/Debug.lean can change. -/

namespace Sys2Proof.Machine

set_option linter.all false
set_option Elab.async false

/-- Fields that operations of this file change. -/
def Fld.ofDebug1 : List Fld :=
  [.regs_, .ctrs_, .tiles_, .hbm_, .cxl_, .chanCe_, .hbmUe_, .metaCache_, .sideArea_, .tcache_, .wcache_, .cues_,
   .ports_, .sess_, .reqs_, .nextTag_, .loom_, .ctxs_, .fns_, .hostReads_, .fwNeed_, .fwGot_, .fwHeld_, .sec_,
   .fw_, .inc_, .twin_, .freeCtr_, .out_]

/-- Fields that operations of this file change. -/
def Fld.ofDebug2 : List Fld :=
  [.regs_, .ctrs_, .tiles_, .hbm_, .cxl_, .chanCe_, .hbmUe_, .metaCache_, .sideArea_, .tcache_, .wcache_, .cues_,
   .ports_, .sess_, .reqs_, .nextTag_, .loom_, .ctxs_, .fns_, .hostReads_, .fwNeed_, .fwGot_, .fwHeld_, .sec_,
   .fw_, .inc_, .twin_, .pins_, .freeCtr_, .out_]

theorem State.dbgDeny_only {fl : List Fld} {sa s : State} {p : Nat} {addr : Nat} {right : Nat}
    (hk : Only fl sa s) (hsub : Fld.sub [.regs_, .ctrs_, .inc_] fl = true) : Only fl sa (State.dbgDeny s p addr right).1 := by
    refine Only.seq (l := [.regs_, .ctrs_, .inc_]) hk ?_ hsub
    clear hk hsub
    unfold State.dbgDeny
    repeat' first
      | with_reducible exact Only.refl _ _
      | with_reducible apply State.report_only
      | refine Fld.yes rfl

theorem State.dbgDma_only {fl : List Fld} {sa s : State} {p : Nat} {r : DbgReq} {fa : Nat} {ecc : Sys2Proof.Ecc}
    (hk : Only fl sa s) (hsub : Fld.sub [.regs_, .ctrs_, .tiles_, .hbm_, .cxl_, .chanCe_, .hbmUe_, .metaCache_, .sideArea_, .cues_, .reqs_, .nextTag_, .loom_, .ctxs_, .fns_, .hostReads_, .fwGot_, .fwHeld_, .sec_, .fw_, .inc_, .twin_, .out_] fl = true) : Only fl sa (State.dbgDma s p r fa ecc).1 := by
    refine Only.seq (l := [.regs_, .ctrs_, .tiles_, .hbm_, .cxl_, .chanCe_, .hbmUe_, .metaCache_, .sideArea_, .cues_, .reqs_, .nextTag_, .loom_, .ctxs_, .fns_, .hostReads_, .fwGot_, .fwHeld_, .sec_, .fw_, .inc_, .twin_, .out_]) hk ?_ hsub
    clear hk hsub
    unfold State.dbgDma
    repeat' first
      | with_reducible exact Only.refl _ _
      | with_reducible assumption
      | with_reducible apply State.readMeta_only
      | with_reducible apply State.poke_only
      | with_reducible apply State.chanCorrect_only
      | with_reducible apply State.ueMark_only
      | with_reducible apply State.raiseUe_only
      | with_reducible apply State.dbgDeny_only
      | with_reducible apply Only.ite
      | refine Fld.yes rfl
      | (extract_lets +onlyGivenNames zz; refine Only.have_ (u := zz) ?_ (fun _ => ?_); rotate_left; try clear_value zz; revert zz; intros; rotate_right; dsimp -zeta only [zz]; clear zz)
      | (extract_lets +onlyGivenNames zz; try clear_value zz; revert zz; intros)
      | split

theorem State.dbgPerform_only {fl : List Fld} {sa s : State} {p : Nat} {r : DbgReq} {ecc : Sys2Proof.Ecc}
    (hk : Only fl sa s) (hsub : Fld.sub Fld.ofDebug1 fl = true) : Only fl sa (State.dbgPerform s p r ecc).1 := by
    refine Only.seq (l := Fld.ofDebug1) hk ?_ hsub
    clear hk hsub
    unfold State.dbgPerform
    repeat' first
      | with_reducible exact Only.refl _ _
      | with_reducible assumption
      | with_reducible apply State.walkUe_only
      | with_reducible apply State.fwAwait_only
      | with_reducible apply State.fwDone_only
      | with_reducible apply State.dbgDma_only
      | with_reducible apply State.fwXlt_only
      | with_reducible apply State.draw_only
      | with_reducible apply State.dbgDeny_only
      | refine Fld.yes rfl
      | (extract_lets +onlyGivenNames zz; refine Only.have_ (u := zz.1) ?_ (fun _ => ?_); rotate_left; try clear_value zz; revert zz; intros; rotate_right; dsimp -zeta only [zz]; clear zz)
      | (extract_lets +onlyGivenNames zz; try clear_value zz; revert zz; intros)
      | split

theorem State.dbgRun_only {fl : List Fld} {sa s : State} {p : Nat} {w : Nat} {ecc : Sys2Proof.Ecc}
    (hk : Only fl sa s) (hsub : Fld.sub Fld.ofDebug2 fl = true) : Only fl sa (State.dbgRun s p w ecc) := by
    refine Only.seq (l := Fld.ofDebug2) hk ?_ hsub
    clear hk hsub
    unfold State.dbgRun
    repeat' first
      | with_reducible exact Only.refl _ _
      | with_reducible assumption
      | with_reducible apply State.emit_only
      | with_reducible apply State.dbgPerform_only
      | refine Fld.yes rfl
      | (extract_lets +onlyGivenNames zz; refine Only.have_ (u := zz) ?_ (fun _ => ?_); rotate_left; try clear_value zz; revert zz; intros; rotate_right; dsimp -zeta only [zz]; clear zz)
      | (extract_lets +onlyGivenNames zz; try clear_value zz; revert zz; intros)
      | refine Only.upd ?_ rfl rfl

theorem State.grantReport_only {fl : List Fld} {sa s : State} {k : Nat} {g : GrantSt} {event : Nat}
    (hk : Only fl sa s) (hsub : Fld.sub [.regs_, .ctrs_, .inc_] fl = true) : Only fl sa (State.grantReport s k g event) := by
    refine Only.seq (l := [.regs_, .ctrs_, .inc_]) hk ?_ hsub
    clear hk hsub
    unfold State.grantReport
    repeat' first
      | with_reducible exact Only.refl _ _
      | with_reducible apply State.report_only
      | refine Fld.yes rfl

theorem State.setGrant_only {fl : List Fld} {sa s : State} {k : Nat} {v : Option GrantSt}
    (hk : Only fl sa s) (hsub : Fld.sub [.sec_] fl = true) : Only fl sa (State.setGrant s k v) := by
    refine Only.seq (l := [.sec_]) hk ?_ hsub
    clear hk hsub
    unfold State.setGrant
    repeat' first
      | with_reducible exact Only.refl _ _
      | (extract_lets +onlyGivenNames zz; try clear_value zz; revert zz; intros)
      | refine Only.upd ?_ rfl rfl

theorem State.endGrant_only {fl : List Fld} {sa s : State} {k : Nat} {event : Nat}
    (hk : Only fl sa s) (hsub : Fld.sub [.regs_, .ctrs_, .sec_, .inc_] fl = true) : Only fl sa (State.endGrant s k event) := by
    refine Only.seq (l := [.regs_, .ctrs_, .sec_, .inc_]) hk ?_ hsub
    clear hk hsub
    unfold State.endGrant
    repeat' first
      | with_reducible exact Only.refl _ _
      | with_reducible apply State.setGrant_only
      | with_reducible apply State.grantReport_only
      | refine Fld.yes rfl
      | split

end Sys2Proof.Machine
end

