-- ==== Sys2Proof/Laws/FrameHost.lean ====
section
/-! SUPPORT. Which fields of the state each operation of Sys2Proof/Machine/Host.lean can change. -/

namespace Sys2Proof.Machine

set_option linter.all false
set_option Elab.async false

theorem State.cmdEnd_only {fl : List Fld} {sa s : State} {hif : Bool} {b : Sys2Proof.Bolt} {op : Nat} {st : Nat} {res : List Nat}
    (hk : Only fl sa s) (hsub : Fld.sub [.regs_] fl = true) : Only fl sa (State.cmdEnd s hif b op st res) := by
    refine Only.seq (l := [.regs_]) hk ?_ hsub
    clear hk hsub
    unfold State.cmdEnd
    repeat' first
      | with_reducible exact Only.refl _ _
      | with_reducible apply State.cmdEndAt_only
      | refine Fld.yes rfl

theorem State.command_only {fl : List Fld} {sa s : State} {fn : Fn} {hif : Bool} {b : Bolt} {rsv : BitVec 23} {op : Nat}
    {body : State → Nat → Nat × List Nat × State} (hk : Only fl sa s) (hsub : Fld.sub [.regs_, .vfErr_] fl = true)
    (hb : ∀ n, Only fl sa (body s n).2.2) : Only fl sa (s.command fn hif b rsv op body) := by
  unfold State.command
  repeat' first
    | assumption
    | with_reducible apply hb
    | with_reducible apply State.cmdGo_only
    | with_reducible apply State.setErr_only
    | exact Fld.sub_trans (by decide) hsub
    | split

theorem State.discardRing_only {fl : List Fld} {sa s : State} {q : Nat} {index : Nat} {y3 : Nat}
    (hk : Only fl sa s) (hsub : Fld.sub [.regs_, .ctrs_, .tiles_, .hbm_, .cxl_, .hbmUe_, .metaCache_, .sideArea_, .cues_, .reqs_, .nextTag_, .loom_, .ctxs_, .fns_, .hostReads_, .fwGot_, .fwHeld_, .sec_, .fw_, .inc_, .twin_, .out_] fl = true) : Only fl sa (State.discardRing s q index y3) := by
    refine Only.seq (l := [.regs_, .ctrs_, .tiles_, .hbm_, .cxl_, .hbmUe_, .metaCache_, .sideArea_, .cues_, .reqs_, .nextTag_, .loom_, .ctxs_, .fns_, .hostReads_, .fwGot_, .fwHeld_, .sec_, .fw_, .inc_, .twin_, .out_]) hk ?_ hsub
    clear hk hsub
    fun_induction State.discardRing s q index y3
    all_goals
      repeat' first
        | with_reducible exact Only.refl _ _
        | with_reducible apply State.writeCompletion_only
        | with_reducible refine Only.seq (l := [.regs_, .ctrs_, .tiles_, .hbm_, .cxl_, .hbmUe_, .metaCache_, .sideArea_, .cues_, .reqs_, .nextTag_, .loom_, .ctxs_, .fns_, .hostReads_, .fwGot_, .fwHeld_, .sec_, .fw_, .inc_, .twin_, .out_]) ?_ (by assumption) rfl
        | refine Fld.yes rfl

theorem State.discardQueue_only {fl : List Fld} {sa s : State} {b : Nat} {q : Nat}
    (hk : Only fl sa s) (hsub : Fld.sub [.regs_, .ctrs_, .tiles_, .hbm_, .cxl_, .hbmUe_, .metaCache_, .sideArea_, .cues_, .reqs_, .nextTag_, .loom_, .queues_, .objs_, .freed_, .ctxs_, .fns_, .hostReads_, .fwGot_, .fwHeld_, .sec_, .fw_, .inc_, .twin_, .out_] fl = true) : Only fl sa (State.discardQueue s b q).1 := by
    refine Only.seq (l := [.regs_, .ctrs_, .tiles_, .hbm_, .cxl_, .hbmUe_, .metaCache_, .sideArea_, .cues_, .reqs_, .nextTag_, .loom_, .queues_, .objs_, .freed_, .ctxs_, .fns_, .hostReads_, .fwGot_, .fwHeld_, .sec_, .fw_, .inc_, .twin_, .out_]) hk ?_ hsub
    clear hk hsub
    unfold State.discardQueue
    repeat' first
      | with_reducible exact Only.refl _ _
      | with_reducible assumption
      | with_reducible apply State.setQueue_only
      | with_reducible apply State.discardRing_only
      | with_reducible apply State.discard_only
      | with_reducible apply State.disarmStep_only
      | with_reducible apply State.removeStep_only
      | with_reducible apply Only.foldl
      | intro _ _ _
      | refine Fld.yes rfl
      | (extract_lets +onlyGivenNames zz; try clear_value zz; revert zz; intros)
      | split

theorem State.fetchSend_only {fl : List Fld} {sa s : State} {b : Nat} {u : QueueSt}
    (hk : Only fl sa s) (hsub : Fld.sub [.out_] fl = true) : Only fl sa (State.fetchSend s b u) := by
    refine Only.seq (l := [.out_]) hk ?_ hsub
    clear hk hsub
    unfold State.fetchSend
    repeat' first
      | with_reducible exact Only.refl _ _
      | with_reducible apply State.emit_only
      | with_reducible apply Only.ite
      | refine Fld.yes rfl

theorem State.rejectCall_only {fl : List Fld} {sa s : State} {b : Nat} {q : Nat} {c : FetchedCall} {st : Nat}
    (hk : Only fl sa s) (hsub : Fld.sub [.regs_, .ctrs_, .tiles_, .hbm_, .cxl_, .hbmUe_, .metaCache_, .sideArea_, .cues_, .reqs_, .nextTag_, .loom_, .queues_, .fences_, .objs_, .freed_, .ctxs_, .fns_, .hostReads_, .fwGot_, .fwHeld_, .sec_, .fw_, .inc_, .twin_, .out_] fl = true) : Only fl sa (State.rejectCall s b q c st) := by
    refine Only.seq (l := [.regs_, .ctrs_, .tiles_, .hbm_, .cxl_, .hbmUe_, .metaCache_, .sideArea_, .cues_, .reqs_, .nextTag_, .loom_, .queues_, .fences_, .objs_, .freed_, .ctxs_, .fns_, .hostReads_, .fwGot_, .fwHeld_, .sec_, .fw_, .inc_, .twin_, .out_]) hk ?_ hsub
    clear hk hsub
    unfold State.rejectCall
    repeat' first
      | with_reducible exact Only.refl _ _
      | with_reducible apply State.callIrqSend_only
      | with_reducible apply State.signal_only
      | with_reducible apply State.writeCompletion_only
      | with_reducible apply State.raise_only
      | with_reducible apply Only.ite
      | refine Fld.yes rfl

theorem execDoorbell_only (fn : Sys2Proof.Fn) (q : Nat) (val : Sys2Proof.Word) (s : State) {sz : State}
    (h : execDoorbell fn q val s = .next sz) : Only [.regs_, .vfErr_, .ctrs_, .tiles_, .cues_, .reqs_, .loom_, .queues_, .ctxs_, .fns_, .hostReads_, .fwGot_, .fwHeld_, .sec_, .fw_, .inc_, .out_] s sz := by
    unfold execDoorbell at h
    cases h
    repeat' first
      | with_reducible exact Only.refl _ _
      | with_reducible apply State.raise_only
      | with_reducible apply State.setQueue_only
      | with_reducible apply State.setErr_only
      | with_reducible apply Only.ite
      | refine Fld.yes rfl
      | (extract_lets +onlyGivenNames zz; try clear_value zz; revert zz; intros)
      | split

theorem execQueueWindowSwap_only (q : Sys2Proof.Queue) (s : State) {sz : State}
    (h : execQueueWindowSwap q s = .next sz) : Only [.queues_] s sz := by
    unfold execQueueWindowSwap at h
    cases h
    repeat' first
      | with_reducible exact Only.refl _ _
      | with_reducible apply State.setQueue_only
      | with_reducible apply Only.ite
      | refine Fld.yes rfl
      | (extract_lets +onlyGivenNames zz; try clear_value zz; revert zz; intros)
      | split

theorem execCallFetch_only (q : Sys2Proof.Queue) (hostData : List Sys2Proof.Byte) (s : State) {sz : State}
    (h : execCallFetch q hostData s = .next sz) : Only [.regs_, .ctrs_, .tiles_, .hbm_, .cxl_, .hbmUe_, .metaCache_, .sideArea_, .cues_, .reqs_, .nextTag_, .loom_, .queues_, .fences_, .objs_, .freed_, .ctxs_, .fns_, .hostReads_, .fwGot_, .fwHeld_, .sec_, .fw_, .inc_, .twin_, .out_] s sz := by
    unfold execCallFetch at h
    cases h
    repeat' first
      | with_reducible exact Only.refl _ _
      | with_reducible assumption
      | with_reducible apply State.takeRef_only
      | with_reducible apply State.rejectCall_only
      | with_reducible apply State.setQueue_only
      | with_reducible apply State.fetchSend_only
      | with_reducible apply State.raiseUe_only
      | with_reducible apply Only.ite
      | refine Fld.yes rfl
      | (extract_lets +onlyGivenNames zz; refine Only.have_ (u := zz) ?_ (fun _ => ?_); rotate_left; try clear_value zz; revert zz; intros; rotate_right; dsimp -zeta only [zz]; clear zz)
      | (extract_lets +onlyGivenNames zz; try clear_value zz; revert zz; intros)
      | split

theorem execQCreate_only (fn : Sys2Proof.Fn) (hif : Bool) (b : Sys2Proof.Bolt) (rsv : BitVec 23) (s : State) {sz : State}
    (h : execQCreate fn hif b rsv s = .next sz) : Only [.regs_, .vfErr_, .queues_] s sz := by
    unfold execQCreate at h
    cases h
    repeat' first
      | with_reducible exact Only.refl _ _
      | with_reducible apply State.setQueue_only
      | with_reducible apply State.command_only
      | refine Fld.yes rfl
      | (extract_lets +onlyGivenNames zz; try clear_value zz; revert zz; intros)
      | split
      | dsimp -zeta only [refuse]

theorem execQDestroy_only (fn : Sys2Proof.Fn) (hif : Bool) (b : Sys2Proof.Bolt) (rsv : BitVec 23) (s : State) {sz : State}
    (h : execQDestroy fn hif b rsv s = .next sz) : Only [.regs_, .vfErr_, .queues_] s sz := by
    unfold execQDestroy at h
    cases h
    repeat' first
      | with_reducible exact Only.refl _ _
      | with_reducible apply State.setQueue_only
      | with_reducible apply State.command_only
      | refine Fld.yes rfl
      | (extract_lets +onlyGivenNames zz; try clear_value zz; revert zz; intros)
      | split
      | intro _
      | dsimp -zeta only [refuse]

theorem execQStop_only (fn : Sys2Proof.Fn) (hif : Bool) (b : Sys2Proof.Bolt) (rsv : BitVec 23) (s : State) {sz : State}
    (h : execQStop fn hif b rsv s = .next sz) : Only [.regs_, .vfErr_, .ctrs_, .tiles_, .hbm_, .cxl_, .hbmUe_, .metaCache_, .sideArea_, .cues_, .reqs_, .nextTag_, .loom_, .queues_, .objs_, .freed_, .ctxs_, .fns_, .hostReads_, .fwGot_, .fwHeld_, .sec_, .fw_, .inc_, .twin_, .out_] s sz := by
    unfold execQStop at h
    cases h
    repeat' first
      | with_reducible exact Only.refl _ _
      | with_reducible assumption
      | with_reducible apply State.setQueue_only
      | with_reducible apply State.discardQueue_only
      | with_reducible apply State.command_only
      | refine Fld.yes rfl
      | (extract_lets +onlyGivenNames zz; refine Only.have_ (u := zz.1) ?_ (fun _ => ?_); rotate_left; try clear_value zz; revert zz; intros; rotate_right; dsimp -zeta only [zz]; clear zz)
      | (extract_lets +onlyGivenNames zz; try clear_value zz; revert zz; intros)
      | split
      | intro _
      | dsimp -zeta only [refuse]

theorem execQStart_only (fn : Sys2Proof.Fn) (hif : Bool) (b : Sys2Proof.Bolt) (rsv : BitVec 23) (s : State) {sz : State}
    (h : execQStart fn hif b rsv s = .next sz) : Only [.regs_, .vfErr_, .queues_] s sz := by
    unfold execQStart at h
    cases h
    repeat' first
      | with_reducible exact Only.refl _ _
      | with_reducible apply State.setQueue_only
      | with_reducible apply State.command_only
      | refine Fld.yes rfl
      | (extract_lets +onlyGivenNames zz; try clear_value zz; revert zz; intros)
      | split
      | intro _
      | dsimp -zeta only [refuse]

theorem execQRead_only (fn : Sys2Proof.Fn) (hif : Bool) (b : Sys2Proof.Bolt) (rsv : BitVec 23) (s : State) {sz : State}
    (h : execQRead fn hif b rsv s = .next sz) : Only [.regs_, .vfErr_] s sz := by
    unfold execQRead at h
    cases h
    repeat' first
      | with_reducible exact Only.refl _ _
      | with_reducible apply State.command_only
      | refine Fld.yes rfl
      | (extract_lets +onlyGivenNames zz; try clear_value zz; revert zz; intros)
      | split
      | intro _
      | dsimp -zeta only [refuse]

theorem execFenceCreate_only (fn : Sys2Proof.Fn) (hif : Bool) (b : Sys2Proof.Bolt) (rsv : BitVec 23) (s : State) {sz : State}
    (h : execFenceCreate fn hif b rsv s = .next sz) : Only [.regs_, .vfErr_, .fences_] s sz := by
    unfold execFenceCreate at h
    cases h
    repeat' first
      | with_reducible exact Only.refl _ _
      | with_reducible apply State.setFence_only
      | with_reducible apply State.command_only
      | refine Fld.yes rfl
      | (extract_lets +onlyGivenNames zz; try clear_value zz; revert zz; intros)
      | split
      | dsimp -zeta only [refuse]

theorem execFenceDestroy_only (fn : Sys2Proof.Fn) (hif : Bool) (b : Sys2Proof.Bolt) (rsv : BitVec 23) (s : State) {sz : State}
    (h : execFenceDestroy fn hif b rsv s = .next sz) : Only [.regs_, .vfErr_, .ctrs_, .tiles_, .hbm_, .cxl_, .hbmUe_, .metaCache_, .sideArea_, .cues_, .reqs_, .nextTag_, .loom_, .queues_, .fences_, .objs_, .freed_, .ctxs_, .fns_, .hostReads_, .fwGot_, .fwHeld_, .sec_, .fw_, .inc_, .twin_, .out_] s sz := by
    unfold execFenceDestroy at h
    cases h
    repeat' first
      | with_reducible exact Only.refl _ _
      | with_reducible apply State.setFence_only
      | with_reducible apply State.wake_only
      | with_reducible apply State.command_only
      | refine Fld.yes rfl
      | (extract_lets +onlyGivenNames zz; try clear_value zz; revert zz; intros)
      | split
      | dsimp -zeta only [refuse]

theorem execFenceAbandon_only (fn : Sys2Proof.Fn) (hif : Bool) (b : Sys2Proof.Bolt) (rsv : BitVec 23) (s : State) {sz : State}
    (h : execFenceAbandon fn hif b rsv s = .next sz) : Only [.regs_, .vfErr_, .ctrs_, .tiles_, .hbm_, .cxl_, .hbmUe_, .metaCache_, .sideArea_, .cues_, .reqs_, .nextTag_, .loom_, .queues_, .fences_, .objs_, .freed_, .ctxs_, .fns_, .hostReads_, .fwGot_, .fwHeld_, .sec_, .fw_, .inc_, .twin_, .out_] s sz := by
    unfold execFenceAbandon at h
    cases h
    repeat' first
      | with_reducible exact Only.refl _ _
      | with_reducible apply State.setFence_only
      | with_reducible apply State.wake_only
      | with_reducible apply State.command_only
      | refine Fld.yes rfl
      | (extract_lets +onlyGivenNames zz; try clear_value zz; revert zz; intros)
      | split
      | dsimp -zeta only [refuse]

theorem execFenceRead_only (fn : Sys2Proof.Fn) (hif : Bool) (b : Sys2Proof.Bolt) (rsv : BitVec 23) (s : State) {sz : State}
    (h : execFenceRead fn hif b rsv s = .next sz) : Only [.regs_, .vfErr_] s sz := by
    unfold execFenceRead at h
    cases h
    repeat' first
      | with_reducible exact Only.refl _ _
      | with_reducible apply State.command_only
      | refine Fld.yes rfl
      | (extract_lets +onlyGivenNames zz; try clear_value zz; revert zz; intros)
      | split
      | dsimp -zeta only [refuse]

theorem execObjCreate_only (fn : Sys2Proof.Fn) (hif : Bool) (b : Sys2Proof.Bolt) (rsv : BitVec 23) (s : State) {sz : State}
    (h : execObjCreate fn hif b rsv s = .next sz) : Only [.regs_, .vfErr_, .objs_] s sz := by
    unfold execObjCreate at h
    cases h
    repeat' first
      | with_reducible exact Only.refl _ _
      | with_reducible apply State.setObj_only
      | with_reducible apply State.command_only
      | refine Fld.yes rfl
      | (extract_lets +onlyGivenNames zz; try clear_value zz; revert zz; intros)
      | split
      | dsimp -zeta only [refuse]

theorem execObjHostInc_only (fn : Sys2Proof.Fn) (hif : Bool) (b : Sys2Proof.Bolt) (rsv : BitVec 23) (s : State) {sz : State}
    (h : execObjHostInc fn hif b rsv s = .next sz) : Only [.regs_, .vfErr_, .objs_, .freed_, .fns_, .out_] s sz := by
    unfold execObjHostInc at h
    cases h
    repeat' first
      | with_reducible exact Only.refl _ _
      | with_reducible assumption
      | with_reducible apply State.setCounts_only
      | with_reducible apply State.command_only
      | refine Fld.yes rfl
      | (extract_lets +onlyGivenNames zz; refine Only.have_ (u := zz) ?_ (fun _ => ?_); rotate_left; try clear_value zz; revert zz; intros; rotate_right; dsimp -zeta only [zz]; clear zz)
      | (extract_lets +onlyGivenNames zz; try clear_value zz; revert zz; intros)
      | split
      | dsimp -zeta only [refuse]

theorem execObjHostDec_only (fn : Sys2Proof.Fn) (hif : Bool) (b : Sys2Proof.Bolt) (rsv : BitVec 23) (s : State) {sz : State}
    (h : execObjHostDec fn hif b rsv s = .next sz) : Only [.regs_, .vfErr_, .ctrs_, .tiles_, .cues_, .reqs_, .loom_, .objs_, .freed_, .ctxs_, .fns_, .hostReads_, .fwGot_, .fwHeld_, .sec_, .fw_, .inc_, .out_] s sz := by
    unfold execObjHostDec at h
    cases h
    repeat' first
      | with_reducible exact Only.refl _ _
      | with_reducible apply State.setCounts_only
      | with_reducible apply State.command_only
      | with_reducible apply State.raise_only
      | with_reducible apply State.cmdEnd_only
      | with_reducible apply Only.ite
      | refine Fld.yes rfl
      | (extract_lets +onlyGivenNames zz; try clear_value zz; revert zz; intros)
      | split
      | intro _
      | dsimp -zeta only [refuse]

theorem execObjRead_only (fn : Sys2Proof.Fn) (hif : Bool) (b : Sys2Proof.Bolt) (rsv : BitVec 23) (s : State) {sz : State}
    (h : execObjRead fn hif b rsv s = .next sz) : Only [.regs_, .vfErr_] s sz := by
    unfold execObjRead at h
    cases h
    repeat' first
      | with_reducible exact Only.refl _ _
      | with_reducible apply State.command_only
      | refine Fld.yes rfl
      | (extract_lets +onlyGivenNames zz; try clear_value zz; revert zz; intros)
      | split
      | dsimp -zeta only [refuse]

theorem execFenceShare_only (fn : Sys2Proof.Fn) (hif : Bool) (b : Sys2Proof.Bolt) (rsv : BitVec 23) (s : State) {sz : State}
    (h : execFenceShare fn hif b rsv s = .next sz) : Only [.regs_, .vfErr_, .fences_] s sz := by
    unfold execFenceShare at h
    cases h
    repeat' first
      | with_reducible exact Only.refl _ _
      | with_reducible apply State.setFence_only
      | with_reducible apply State.command_only
      | refine Fld.yes rfl
      | (extract_lets +onlyGivenNames zz; try clear_value zz; revert zz; intros)
      | split
      | dsimp -zeta only [refuse]

theorem execQuota_only (fn : Sys2Proof.Fn) (hif : Bool) (b : Sys2Proof.Bolt) (rsv : BitVec 23) (s : State) {sz : State}
    (h : execQuota fn hif b rsv s = .next sz) : Only [.regs_, .vfErr_] s sz := by
    unfold execQuota at h
    cases h
    repeat' first
      | with_reducible exact Only.refl _ _
      | with_reducible apply State.setReg_only
      | with_reducible apply State.command_only
      | refine Fld.yes rfl
      | (extract_lets +onlyGivenNames zz; try clear_value zz; revert zz; intros)
      | split
      | dsimp -zeta only [refuse]

theorem execFreePop_only (fn : Sys2Proof.Fn) (b : Sys2Proof.Bolt) (s : State) {sz : State}
    (h : execFreePop fn b s = .next sz) : Only [.objs_, .freed_, .out_] s sz := by
    unfold execFreePop at h
    cases h
    repeat' first
      | with_reducible exact Only.refl _ _
      | with_reducible apply State.setObj_only
      | with_reducible apply State.emit_only
      | with_reducible apply Only.ite
      | refine Fld.yes rfl
      | (extract_lets +onlyGivenNames zz; try clear_value zz; revert zz; intros)
      | split
      | refine Only.upd ?_ rfl rfl

theorem execMbxSend_only (fn : Sys2Proof.Fn) (vf : Sys2Proof.Fn) (val : Sys2Proof.Word) (s : State) {sz : State}
    (h : execMbxSend fn vf val s = .next sz) : Only [.regs_, .mbx_, .fns_, .out_] s sz := by
    unfold execMbxSend at h
    cases h
    repeat' first
      | with_reducible exact Only.refl _ _
      | with_reducible apply State.orReg_only
      | with_reducible apply State.msix_only
      | with_reducible apply Only.ite
      | refine Fld.yes rfl
      | (extract_lets +onlyGivenNames zz; try clear_value zz; revert zz; intros)
      | dsimp -zeta only
      | refine Only.upd ?_ rfl rfl

theorem execMbxAck_only (fn : Sys2Proof.Fn) (vf : Sys2Proof.Fn) (val : Sys2Proof.Word) (s : State) {sz : State}
    (h : execMbxAck fn vf val s = .next sz) : Only [.mbx_] s sz := by
    unfold execMbxAck at h
    cases h
    repeat' first
      | with_reducible exact Only.refl _ _
      | with_reducible apply Only.ite
      | (extract_lets +onlyGivenNames zz; try clear_value zz; revert zz; intros)
      | dsimp -zeta only
      | refine Only.upd ?_ rfl rfl

theorem execDrvVerWrite_only (fn : Sys2Proof.Fn) (b : Sys2Proof.Bolt) (val : Sys2Proof.Word) (s : State) {sz : State}
    (h : execDrvVerWrite fn b val s = .next sz) : Only [.regs_, .ctrs_, .tiles_, .cues_, .reqs_, .loom_, .ctxs_, .fns_, .hostReads_, .fwGot_, .fwHeld_, .sec_, .fw_, .inc_, .out_] s sz := by
    unfold execDrvVerWrite at h
    cases h
    repeat' first
      | with_reducible exact Only.refl _ _
      | with_reducible apply State.raise_only
      | with_reducible apply State.setReg_only
      | with_reducible apply Only.ite
      | refine Fld.yes rfl

theorem execPowerStateD3hot_only (fn : Sys2Proof.Fn) (enter : Bool) (s : State) {sz : State}
    (h : execPowerStateD3hot fn enter s = .next sz) : Only [.fns_, .out_] s sz := by
    unfold execPowerStateD3hot at h
    cases h
    repeat' first
      | with_reducible exact Only.refl _ _
      | with_reducible assumption
      | with_reducible apply State.msix_only
      | with_reducible apply Only.ite
      | with_reducible apply Only.foldl
      | intro _ _ _
      | refine Fld.yes rfl
      | (extract_lets +onlyGivenNames zz; try clear_value zz; revert zz; intros)
      | refine Only.upd ?_ rfl rfl

end Sys2Proof.Machine
end

