-- ==== Sys2Proof/Laws/FrameFailure.lean ====
section
/-! SUPPORT. Which fields of the state each operation of Sys2Proof/Machine/Failure.lean can change. -/

namespace Sys2Proof.Machine

set_option linter.all false
set_option Elab.async false

/-- Fields that operations of this file change. -/
def Fld.ofFailure1 : List Fld :=
  [.regs_, .vfErr_, .latch_, .loHeld_, .ctrs_, .tiles_, .hbm_, .cxl_, .hbmUe_, .metaCache_, .sideArea_, .cues_,
   .reqs_, .nextTag_, .loom_, .queues_, .fences_, .objs_, .freed_, .ctxs_, .mbx_, .fns_, .pci_, .hostReads_,
   .fwGot_, .fwHeld_, .sec_, .fw_, .inc_, .twin_, .out_]

/-- Fields that operations of this file change. -/
def Fld.ofFailure2 : List Fld :=
  [.regs_, .vfErr_, .ctrs_, .tiles_, .hbm_, .cxl_, .hbmUe_, .metaCache_, .sideArea_, .tcache_, .wcache_, .fq_,
   .cues_, .ports_, .sess_, .sessIn_, .reqs_, .nextTag_, .loom_, .queues_, .queueRr_, .fences_, .objs_, .freed_,
   .ctxs_, .fns_, .hostReads_, .pfWalks_, .fwGot_, .fwHeld_, .casts_, .serve_, .sec_, .fw_, .inc_, .twin_,
   .freeCtr_, .out_]

/-- Fields that operations of this file change. -/
def Fld.ofFailure3 : List Fld :=
  [.regs_, .vfErr_, .ctrs_, .tiles_, .hbm_, .cxl_, .hbmUe_, .metaCache_, .sideArea_, .tcache_, .wcache_, .fq_,
   .cues_, .ports_, .sess_, .sessIn_, .reqs_, .nextTag_, .loom_, .queues_, .fences_, .objs_, .freed_, .ctxs_,
   .fns_, .hostReads_, .pfWalks_, .fwGot_, .fwHeld_, .casts_, .serve_, .sec_, .fw_, .inc_, .twin_, .freeCtr_,
   .out_]

/-- Fields that operations of this file change. -/
def Fld.ofFailure4 : List Fld :=
  [.regs_, .vfErr_, .ctrs_, .tiles_, .redIn_, .redStage_, .redRun_, .redOpen_, .redClk_, .mcFlits_, .hbm_, .cxl_,
   .hbmUe_, .metaCache_, .sideArea_, .tcache_, .wcache_, .fq_, .inv_, .cues_, .ports_, .sess_, .sessIn_, .reqs_,
   .nextTag_, .loom_, .queues_, .fences_, .objs_, .freed_, .ctxs_, .fns_, .hostReads_, .pfWalks_, .fwGot_, .fwHeld_,
   .casts_, .serve_, .power_, .sec_, .fw_, .inc_, .twin_, .freeCtr_, .out_]

theorem State.flrObjs_only {fl : List Fld} {sa s : State} {b : Nat}
    (hk : Only fl sa s) (hsub : Fld.sub [.regs_, .objs_, .freed_, .fns_, .out_] fl = true) : Only fl sa (State.flrObjs s b) := by
    refine Only.seq (l := [.regs_, .objs_, .freed_, .fns_, .out_]) hk ?_ hsub
    clear hk hsub
    unfold State.flrObjs
    repeat' first
      | with_reducible exact Only.refl _ _
      | with_reducible assumption
      | with_reducible apply State.setCounts_only
      | with_reducible apply Only.foldl
      | intro _ _ _
      | refine Fld.yes rfl

theorem State.flrFences_only {fl : List Fld} {sa s : State} {b : Nat}
    (hk : Only fl sa s) (hsub : Fld.sub [.regs_, .ctrs_, .tiles_, .hbm_, .cxl_, .hbmUe_, .metaCache_, .sideArea_, .cues_, .reqs_, .nextTag_, .loom_, .queues_, .fences_, .objs_, .freed_, .ctxs_, .fns_, .hostReads_, .fwGot_, .fwHeld_, .sec_, .fw_, .inc_, .twin_, .out_] fl = true) : Only fl sa (State.flrFences s b) := by
    refine Only.seq (l := [.regs_, .ctrs_, .tiles_, .hbm_, .cxl_, .hbmUe_, .metaCache_, .sideArea_, .cues_, .reqs_, .nextTag_, .loom_, .queues_, .fences_, .objs_, .freed_, .ctxs_, .fns_, .hostReads_, .fwGot_, .fwHeld_, .sec_, .fw_, .inc_, .twin_, .out_]) hk ?_ hsub
    clear hk hsub
    unfold State.flrFences
    repeat' first
      | with_reducible exact Only.refl _ _
      | with_reducible apply State.wake_only
      | refine Fld.yes rfl
      | (extract_lets +onlyGivenNames zz; try clear_value zz; revert zz; intros)
      | refine Only.upd ?_ rfl rfl

theorem State.flrQueues_only {fl : List Fld} {sa s : State} {b : Nat}
    (hk : Only fl sa s) (hsub : Fld.sub [.regs_, .ctrs_, .tiles_, .hbm_, .cxl_, .hbmUe_, .metaCache_, .sideArea_, .cues_, .reqs_, .nextTag_, .loom_, .queues_, .objs_, .freed_, .ctxs_, .fns_, .hostReads_, .fwGot_, .fwHeld_, .sec_, .fw_, .inc_, .twin_, .out_] fl = true) : Only fl sa (State.flrQueues s b) := by
    refine Only.seq (l := [.regs_, .ctrs_, .tiles_, .hbm_, .cxl_, .hbmUe_, .metaCache_, .sideArea_, .cues_, .reqs_, .nextTag_, .loom_, .queues_, .objs_, .freed_, .ctxs_, .fns_, .hostReads_, .fwGot_, .fwHeld_, .sec_, .fw_, .inc_, .twin_, .out_]) hk ?_ hsub
    clear hk hsub
    unfold State.flrQueues
    repeat' first
      | with_reducible exact Only.refl _ _
      | with_reducible assumption
      | with_reducible apply State.setQueue_only
      | with_reducible apply State.discardQueue_only
      | with_reducible apply Only.ite
      | with_reducible apply Only.foldl
      | intro _ _ _
      | refine Fld.yes rfl

theorem State.flrBolt_only {fl : List Fld} {sa s : State} {b : Nat}
    (hk : Only fl sa s) (hsub : Fld.sub [.regs_, .ctrs_, .tiles_, .hbm_, .cxl_, .hbmUe_, .metaCache_, .sideArea_, .cues_, .reqs_, .nextTag_, .loom_, .queues_, .fences_, .objs_, .freed_, .ctxs_, .fns_, .hostReads_, .fwGot_, .fwHeld_, .sec_, .fw_, .inc_, .twin_, .out_] fl = true) : Only fl sa (State.flrBolt s b) := by
    refine Only.seq (l := [.regs_, .ctrs_, .tiles_, .hbm_, .cxl_, .hbmUe_, .metaCache_, .sideArea_, .cues_, .reqs_, .nextTag_, .loom_, .queues_, .fences_, .objs_, .freed_, .ctxs_, .fns_, .hostReads_, .fwGot_, .fwHeld_, .sec_, .fw_, .inc_, .twin_, .out_]) hk ?_ hsub
    clear hk hsub
    unfold State.flrBolt
    repeat' first
      | with_reducible exact Only.refl _ _
      | with_reducible apply State.flrQueues_only
      | with_reducible apply State.flrFences_only
      | with_reducible apply State.flrObjs_only
      | refine Fld.yes rfl

theorem State.flrRegs_only {fl : List Fld} {sa s : State} {fn : Nat}
    (hk : Only fl sa s) (hsub : Fld.sub [.regs_, .vfErr_, .latch_, .loHeld_, .mbx_, .fns_] fl = true) : Only fl sa (State.flrRegs s fn) := by
    refine Only.seq (l := [.regs_, .vfErr_, .latch_, .loHeld_, .mbx_, .fns_]) hk ?_ hsub
    clear hk hsub
    unfold State.flrRegs
    repeat' first
      | with_reducible exact Only.refl _ _
      | refine Only.upd ?_ rfl rfl

theorem State.flrReport_only {fl : List Fld} {sa s : State} {fn : Nat} {bs : List Nat}
    (hk : Only fl sa s) (hsub : Fld.sub [.regs_, .ctrs_, .tiles_, .cues_, .reqs_, .loom_, .ctxs_, .fns_, .hostReads_, .fwGot_, .fwHeld_, .sec_, .fw_, .inc_, .out_] fl = true) : Only fl sa (State.flrReport s fn bs) := by
    refine Only.seq (l := [.regs_, .ctrs_, .tiles_, .cues_, .reqs_, .loom_, .ctxs_, .fns_, .hostReads_, .fwGot_, .fwHeld_, .sec_, .fw_, .inc_, .out_]) hk ?_ hsub
    clear hk hsub
    unfold State.flrReport
    repeat' first
      | with_reducible exact Only.refl _ _
      | with_reducible assumption
      | with_reducible apply State.report_only
      | with_reducible apply State.boltFail_only
      | with_reducible apply State.raise_only
      | with_reducible apply Only.foldl
      | intro _ _ _
      | refine Fld.yes rfl
      | (extract_lets +onlyGivenNames zz; try clear_value zz; revert zz; intros)
      | split

theorem State.flrWindow_only {fl : List Fld} {sa s : State} {b : Nat}
    (hk : Only fl sa s) (hsub : Fld.sub [.regs_, .ctrs_] fl = true) : Only fl sa (State.flrWindow s b) := by
    refine Only.seq (l := [.regs_, .ctrs_]) hk ?_ hsub
    clear hk hsub
    unfold State.flrWindow
    repeat' first
      | with_reducible exact Only.refl _ _
      | (extract_lets +onlyGivenNames zz; have hfn := (zz : _ → _); clear hfn; dsimp -zeta only [zz]; clear zz)
      | refine Only.upd ?_ rfl rfl

theorem State.flrWork_only {fl : List Fld} {sa s : State} {fn : Nat}
    (hk : Only fl sa s) (hsub : Fld.sub Fld.ofFailure1 fl = true) : Only fl sa (State.flrWork s fn) := by
    refine Only.seq (l := Fld.ofFailure1) hk ?_ hsub
    clear hk hsub
    unfold State.flrWork
    repeat' first
      | with_reducible exact Only.refl _ _
      | with_reducible assumption
      | with_reducible apply State.flrRegs_only
      | with_reducible apply State.endDebug_only
      | with_reducible apply State.flrWindow_only
      | with_reducible apply State.flrReport_only
      | with_reducible apply State.flrBolt_only
      | with_reducible apply Only.ite
      | with_reducible apply Only.foldl
      | intro _ _ _
      | refine Fld.yes rfl
      | (extract_lets +onlyGivenNames zz; refine Only.have_ (u := zz) ?_ (fun _ => ?_); rotate_left; try clear_value zz; revert zz; intros; rotate_right; dsimp -zeta only [zz]; clear zz)
      | (extract_lets +onlyGivenNames zz; try clear_value zz; revert zz; intros)
      | refine Only.upd ?_ rfl rfl

theorem execFlr_only (fn : Sys2Proof.Fn) (s : State) {sz : State}
    (h : execFlr fn s = .next sz) : Only Fld.ofFailure1 s sz := by
    unfold execFlr at h
    cases h
    repeat' first
      | with_reducible exact Only.refl _ _
      | with_reducible apply State.flrWork_only
      | with_reducible apply Only.ite
      | refine Fld.yes rfl

theorem execStrike_only (q : Sys2Proof.Queue) (s : State) {sz : State}
    (h : execStrike q s = .next sz) : Only Fld.ofFailure2 s sz := by
    unfold execStrike at h
    cases h
    repeat' first
      | with_reducible exact Only.refl _ _
      | with_reducible apply State.markStarted_only
      | with_reducible apply State.strikeStart_only
      | with_reducible apply State.complete_only
      | with_reducible apply State.turn_only
      | with_reducible apply Only.ite
      | refine Fld.yes rfl
      | split

theorem execStrikeComplete_only (b : Sys2Proof.Bolt) (s : State) {sz : State}
    (h : execStrikeComplete b s = .next sz) : Only [.regs_, .ctrs_, .tiles_, .redClk_, .hbm_, .cxl_, .hbmUe_, .metaCache_, .sideArea_, .cues_, .reqs_, .nextTag_, .loom_, .queues_, .fences_, .objs_, .freed_, .ctxs_, .fns_, .hostReads_, .fwGot_, .fwHeld_, .sec_, .fw_, .inc_, .twin_, .freeCtr_, .out_] s sz := by
    unfold execStrikeComplete at h
    cases h
    repeat' first
      | with_reducible exact Only.refl _ _
      | with_reducible apply State.strikeEnd_only
      | with_reducible apply Only.ite
      | refine Fld.yes rfl
      | (extract_lets +onlyGivenNames zz; try clear_value zz; revert zz; intros)
      | split

theorem execBoltDrain_only (ses : Sys2Proof.SessId) (b : Sys2Proof.Bolt) (save : Bool) (s : State) {sz : State}
    (h : execBoltDrain ses b save s = .next sz) : Only [.regs_, .ctrs_, .tiles_, .hbm_, .cxl_, .hbmUe_, .metaCache_, .sideArea_, .cues_, .reqs_, .nextTag_, .loom_, .queues_, .fences_, .objs_, .freed_, .ctxs_, .fns_, .hostReads_, .fwGot_, .fwHeld_, .sec_, .fw_, .inc_, .twin_, .out_] s sz := by
    unfold execBoltDrain at h
    cases h
    repeat' first
      | with_reducible exact Only.refl _ _
      | with_reducible assumption
      | with_reducible apply State.deferReply_only
      | with_reducible apply State.drainRequest_only
      | with_reducible apply State.message_only
      | refine Fld.yes rfl
      | (extract_lets +onlyGivenNames zz; try clear_value zz; revert zz; intros)
      | dsimp -zeta only
      | split
      | intro _

theorem execBoltReset_only (ses : Sys2Proof.SessId) (b : Sys2Proof.Bolt) (s : State) {sz : State}
    (h : execBoltReset ses b s = .next sz) : Only [.regs_, .ctrs_, .tiles_, .cues_, .reqs_, .loom_, .ctxs_, .fns_, .hostReads_, .fwGot_, .fwHeld_, .sec_, .fw_, .inc_, .out_] s sz := by
    unfold execBoltReset at h
    cases h
    repeat' first
      | with_reducible exact Only.refl _ _
      | with_reducible assumption
      | with_reducible apply State.boltStop_only
      | with_reducible apply State.message_only
      | refine Fld.yes rfl
      | (extract_lets +onlyGivenNames zz; try clear_value zz; revert zz; intros)
      | dsimp -zeta only
      | split
      | intro _

theorem execBoltStrike_only (ses : Sys2Proof.SessId) (b : Sys2Proof.Bolt) (overwrite : Bool) (s : State) {sz : State}
    (h : execBoltStrike ses b overwrite s = .next sz) : Only Fld.ofFailure3 s sz := by
    unfold execBoltStrike at h
    cases h
    repeat' first
      | with_reducible exact Only.refl _ _
      | with_reducible assumption
      | with_reducible apply State.updCtx_only
      | with_reducible apply State.boltStop_only
      | with_reducible apply State.strikeStart_only
      | with_reducible apply State.deferReply_only
      | with_reducible apply State.message_only
      | refine Fld.yes rfl
      | (extract_lets +onlyGivenNames zz; refine Only.have_ (u := zz) ?_ (fun _ => ?_); rotate_left; try clear_value zz; revert zz; intros; rotate_right; dsimp -zeta only [zz]; clear zz)
      | (extract_lets +onlyGivenNames zz; try clear_value zz; revert zz; intros)
      | split

theorem execBoltResetComplete_only (b : Sys2Proof.Bolt) (s : State) {sz : State}
    (h : execBoltResetComplete b s = .next sz) : Only Fld.ofFailure4 s sz := by
    unfold execBoltResetComplete at h
    cases h
    repeat' first
      | with_reducible exact Only.refl _ _
      | with_reducible apply State.resetEnd_only
      | with_reducible apply Only.ite
      | refine Fld.yes rfl

theorem execCtxTeardown_only (b : Sys2Proof.Bolt) (s : State) {sz : State}
    (h : execCtxTeardown b s = .next sz) : Only Fld.ofFailure4 s sz := by
    unfold execCtxTeardown at h
    cases h
    repeat' first
      | with_reducible exact Only.refl _ _
      | with_reducible apply State.resetEnd_only
      | with_reducible apply Only.ite
      | refine Fld.yes rfl

end Sys2Proof.Machine
end

