-- ==== Sys2Proof/Laws/FrameElectrical.lean ====
section
/-! SUPPORT. Which fields of the state each operation of Sys2Proof/Machine/Electrical.lean can change. -/

namespace Sys2Proof.Machine

set_option linter.all false
set_option Elab.async false

/-- Fields that operations of this file change. -/
def Fld.ofElectrical1 : List Fld :=
  [.regs_, .ctrs_, .tiles_, .redIn_, .redStage_, .redRun_, .mcFlits_, .hbm_, .cxl_, .metaCache_, .sideArea_, .inv_,
   .cues_, .ports_, .sess_, .reqs_, .nextTag_, .loom_, .ctxs_, .fns_, .hostReads_, .pfWalks_, .fwGot_, .fwHeld_,
   .sec_, .fw_, .inc_, .twin_, .freeCtr_, .out_]

/-- Fields that operations of this file change. -/
def Fld.ofElectrical2 : List Fld :=
  [.regs_, .vfErr_, .latch_, .loHeld_, .ctrs_, .tiles_, .hbm_, .cxl_, .hbmUe_, .metaCache_, .sideArea_, .cues_,
   .reqs_, .nextTag_, .loom_, .queues_, .fences_, .objs_, .freed_, .ctxs_, .mbx_, .fns_, .pci_, .hostReads_,
   .fwGot_, .fwHeld_, .sec_, .fw_, .inc_, .twin_, .pins_, .out_]

/-- Fields that operations of this file change. -/
def Fld.ofElectrical3 : List Fld :=
  [.regs_, .ctrs_, .tiles_, .redIn_, .redStage_, .redRun_, .mcFlits_, .hbm_, .cxl_, .metaCache_, .sideArea_, .inv_,
   .cues_, .ports_, .sess_, .reqs_, .nextTag_, .loom_, .ctxs_, .fns_, .hostReads_, .pfWalks_, .fwGot_, .fwHeld_,
   .sec_, .fw_, .inc_, .twin_, .pins_, .freeCtr_, .out_]

theorem State.cageGone_only {fl : List Fld} {sa s : State} {p : Nat}
    (hk : Only fl sa s) (hsub : Fld.sub Fld.ofElectrical1 fl = true) : Only fl sa (State.cageGone s p) := by
    refine Only.seq (l := Fld.ofElectrical1) hk ?_ hsub
    clear hk hsub
    unfold State.cageGone
    repeat' first
      | with_reducible exact Only.refl _ _
      | with_reducible apply State.portLeave_only
      | with_reducible apply Only.ite
      | refine Fld.yes rfl

theorem State.cageReady_only {fl : List Fld} {sa s : State} {p : Nat}
    (hk : Only fl sa s) (hsub : Fld.sub [.ports_] fl = true) : Only fl sa (State.cageReady s p) := by
    refine Only.seq (l := [.ports_]) hk ?_ hsub
    clear hk hsub
    unfold State.cageReady
    repeat' first
      | with_reducible exact Only.refl _ _
      | with_reducible apply State.portTrain_only
      | with_reducible apply Only.ite
      | refine Fld.yes rfl

theorem State.setPmb_only {fl : List Fld} {sa s : State} {addr : Nat} {v : Nat}
    (hk : Only fl sa s) (hsub : Fld.sub [.pins_] fl = true) : Only fl sa (State.setPmb s addr v) := by
    refine Only.seq (l := [.pins_]) hk ?_ hsub
    clear hk hsub
    unfold State.setPmb
    repeat' first
      | with_reducible exact Only.refl _ _
      | (extract_lets +onlyGivenNames zz; try clear_value zz; revert zz; intros)
      | refine Only.upd ?_ rfl rfl

theorem State.inputVoltage_only {fl : List Fld} {sa s : State} {mv : Nat}
    (hk : Only fl sa s) (hsub : Fld.sub [.pins_] fl = true) : Only fl sa (State.inputVoltage s mv) := by
    refine Only.seq (l := [.pins_]) hk ?_ hsub
    clear hk hsub
    unfold State.inputVoltage
    repeat' first
      | with_reducible exact Only.refl _ _
      | with_reducible apply State.setPmb_only
      | refine Fld.yes rfl
      | (extract_lets +onlyGivenNames zz; try clear_value zz; revert zz; intros)
      | refine Only.upd ?_ rfl rfl

theorem State.pfConfig_only {fl : List Fld} {sa s : State} 
    (hk : Only fl sa s) (hsub : Fld.sub [.regs_, .latch_, .fns_, .pci_] fl = true) : Only fl sa (State.pfConfig s) := by
    refine Only.seq (l := [.regs_, .latch_, .fns_, .pci_]) hk ?_ hsub
    clear hk hsub
    unfold State.pfConfig
    repeat' first
      | with_reducible exact Only.refl _ _
      | refine Only.upd ?_ rfl rfl

theorem State.railsFall_only {fl : List Fld} {sa s : State} (hk : Only fl sa s) (hsub : Fld.sub Fld.most fl = true) :
    Only fl sa s.railsFall := by
  unfold State.railsFall
  split
  · exact hk
  · exact Only.seq (l := Fld.most) (State.powerLoss_only hk hsub) (Only.all (by rfl) (by rfl)) hsub

theorem State.setCage_only {fl : List Fld} {sa s : State} {p : Nat} {v : Option Nat}
    (hk : Only fl sa s) (hsub : Fld.sub [.pins_] fl = true) : Only fl sa (State.setCage s p v) := by
    refine Only.seq (l := [.pins_]) hk ?_ hsub
    clear hk hsub
    unfold State.setCage
    repeat' first
      | with_reducible exact Only.refl _ _
      | (extract_lets +onlyGivenNames zz; try clear_value zz; revert zz; intros)
      | refine Only.upd ?_ rfl rfl

theorem execPwrEnAssert_only (s : State) {sz : State}
    (h : execPwrEnAssert s = .next sz) : Only [.pins_] s sz := by
    unfold execPwrEnAssert at h
    cases h
    repeat' first
      | with_reducible exact Only.refl _ _
      | with_reducible apply State.powerUp_only
      | with_reducible apply Only.ite
      | refine Fld.yes rfl
      | (extract_lets +onlyGivenNames zz; try clear_value zz; revert zz; intros)
      | refine Only.upd ?_ rfl rfl

theorem execPwrEnDeassert_only (s : State) {sz : State} (h : execPwrEnDeassert s = .next sz) : Only Fld.most s sz := by
  have h0 : Only Fld.most s { s with pins := { s.pins with pwrEn := false } } := Only.all rfl rfl
  have h1 := State.powerLoss_only h0 (fl := Fld.most) (by decide)
  unfold execPwrEnDeassert at h
  cases h
  exact Only.seq (l := Fld.most) h1 (Only.all (by rfl) (by rfl)) (by decide)

theorem execVinOutOfRange_only (mv : Nat) (s : State) {sz : State}
    (h : execVinOutOfRange mv s = .next sz) : Only Fld.most s sz := by
    unfold execVinOutOfRange at h
    cases h
    repeat' first
      | with_reducible exact Only.refl _ _
      | with_reducible apply State.inputVoltage_only
      | with_reducible apply State.railsFall_only
      | with_reducible apply Only.ite
      | refine Fld.yes rfl

theorem execPwrGoodFall_only (s : State) {sz : State}
    (h : execPwrGoodFall s = .next sz) : Only Fld.most s sz := by
    unfold execPwrGoodFall at h
    cases h
    repeat' first
      | with_reducible exact Only.refl _ _
      | with_reducible apply State.railsFall_only
      | refine Fld.yes rfl

theorem execResetNAssert_only (s : State) {sz : State} (h : execResetNAssert s = .next sz) : Only Fld.most s sz := by
  have h1 := State.beginReset_only (Only.refl _ s) (fl := Fld.most) (cause := 1) (by decide)
  unfold execResetNAssert at h
  cases h
  split
  · exact Only.refl _ _
  · exact Only.seq (l := Fld.most) h1 (Only.all (by rfl) (by rfl)) (by decide)

theorem execInternalResetEnd_only (straps : Sys2Proof.Straps) (s : State) {sz : State}
    (h : execInternalResetEnd straps s = .next sz) : Only [.regs_, .ctrs_, .tiles_, .stu_, .cues_, .reqs_, .loom_, .ctxs_, .fns_, .hostReads_, .fwGot_, .fwHeld_, .sec_, .fw_, .inc_, .twin_, .pins_, .out_] s sz := by
    unfold execInternalResetEnd at h
    cases h
    repeat' first
      | with_reducible exact Only.refl _ _
      | with_reducible apply State.startBoot_only
      | with_reducible apply Only.ite
      | refine Fld.yes rfl
      | (extract_lets +onlyGivenNames zz; try clear_value zz; revert zz; intros)
      | split

theorem execPerst0N_only (level : Bool) (s : State) {sz : State}
    (h : execPerst0N level s = .next sz) : Only Fld.ofElectrical2 s sz := by
    unfold execPerst0N at h
    cases h
    repeat' first
      | with_reducible exact Only.refl _ _
      | with_reducible apply State.flrWork_only
      | with_reducible apply State.pfConfig_only
      | with_reducible apply Only.ite
      | refine Fld.yes rfl
      | (extract_lets +onlyGivenNames zz; try clear_value zz; revert zz; intros)
      | refine Only.upd ?_ rfl rfl

theorem execPerst1N_only (level : Bool) (s : State) {sz : State}
    (h : execPerst1N level s = .next sz) : Only [.pins_] s sz := by
    unfold execPerst1N at h
    cases h
    repeat' first
      | with_reducible exact Only.refl _ _
      | (extract_lets +onlyGivenNames zz; try clear_value zz; revert zz; intros)
      | refine Only.upd ?_ rfl rfl

theorem execP12vCageLoss_only (s : State) {sz : State}
    (h : execP12vCageLoss s = .next sz) : Only Fld.ofElectrical3 s sz := by
    unfold execP12vCageLoss at h
    cases h
    repeat' first
      | with_reducible exact Only.refl _ _
      | with_reducible assumption
      | with_reducible apply State.cageGone_only
      | with_reducible apply Only.ite
      | with_reducible apply Only.foldl
      | intro _ _ _
      | refine Fld.yes rfl
      | (extract_lets +onlyGivenNames zz; try clear_value zz; revert zz; intros)
      | refine Only.upd ?_ rfl rfl

theorem execCageInsert_only (p : Sys2Proof.Port) (watts : Nat) (s : State) {sz : State}
    (h : execCageInsert p watts s = .next sz) : Only [.ports_, .fw_, .pins_, .freeCtr_] s sz := by
    unfold execCageInsert at h
    cases h
    repeat' first
      | with_reducible exact Only.refl _ _
      | with_reducible apply State.cageReady_only
      | with_reducible apply State.book_only
      | with_reducible apply State.draw_only
      | with_reducible apply State.setCage_only
      | with_reducible apply Only.ite
      | refine Fld.yes rfl

theorem execCageRemove_only (p : Sys2Proof.Port) (s : State) {sz : State}
    (h : execCageRemove p s = .next sz) : Only Fld.ofElectrical3 s sz := by
    unfold execCageRemove at h
    cases h
    repeat' first
      | with_reducible exact Only.refl _ _
      | with_reducible apply State.cageGone_only
      | with_reducible apply State.setCage_only
      | with_reducible apply Only.ite
      | refine Fld.yes rfl

theorem execPmbusWrite_only (addr : BitVec 7) (cmd : Sys2Proof.Byte) (s : State) {sz : State}
    (h : execPmbusWrite addr cmd s = .next sz) : Only [.pins_] s sz := by
    unfold execPmbusWrite at h
    cases h
    repeat' first
      | with_reducible exact Only.refl _ _
      | with_reducible apply State.setPmb_only
      | with_reducible apply Only.ite
      | refine Fld.yes rfl

theorem execClearFaults_only (addr : BitVec 7) (s : State) {sz : State}
    (h : execClearFaults addr s = .next sz) : Only [.pins_] s sz := by
    unfold execClearFaults at h
    cases h
    repeat' first
      | with_reducible exact Only.refl _ _
      | with_reducible apply State.setPmb_only
      | with_reducible apply Only.ite
      | refine Fld.yes rfl

theorem execVin56Rise_only (mv : Nat) (s : State) {sz : State}
    (h : execVin56Rise mv s = .next sz) : Only [.pins_] s sz := by
    unfold execVin56Rise at h
    cases h
    repeat' first
      | with_reducible exact Only.refl _ _
      | with_reducible apply State.inputVoltage_only
      | with_reducible apply State.powerUp_only
      | with_reducible apply Only.ite
      | refine Fld.yes rfl

theorem execP12vCageApply_only (s : State) {sz : State}
    (h : execP12vCageApply s = .next sz) : Only [.ports_, .pins_] s sz := by
    unfold execP12vCageApply at h
    cases h
    repeat' first
      | with_reducible exact Only.refl _ _
      | with_reducible assumption
      | with_reducible apply State.cageReady_only
      | with_reducible apply Only.ite
      | with_reducible apply Only.foldl
      | intro _ _ _
      | refine Fld.yes rfl
      | (extract_lets +onlyGivenNames zz; try clear_value zz; revert zz; intros)
      | refine Only.upd ?_ rfl rfl

end Sys2Proof.Machine
end

