-- ==== Sys2Proof/Laws/FrameIdle.lean ====
section
/-! SUPPORT. Which fields of the state each operation of Sys2Proof/Machine/Idle.lean can change. -/

namespace Sys2Proof.Machine

set_option linter.all false
set_option Elab.async false

theorem idle_only {fl : List Fld} {sa s : State} 
    (hk : Only fl sa s) (hsub : Fld.sub [.stu_] fl = true) : Only fl sa (idle s) := by
    refine Only.seq (l := [.stu_]) hk ?_ hsub
    clear hk hsub
    unfold idle
    repeat' first
      | with_reducible exact Only.refl _ _
      | with_reducible apply Only.ite
      | (extract_lets +onlyGivenNames zz; try clear_value zz; revert zz; intros)
      | refine Only.upd ?_ rfl rfl

end Sys2Proof.Machine
end

