-- ==== Sys2Proof/Laws/FrameLink.lean ====
section
/-! SUPPORT. Which fields of the state each operation of Sys2Proof/Machine/Link.lean can change. -/

namespace Sys2Proof.Machine

set_option linter.all false
set_option Elab.async false

/-- Fields that operations of this file change. -/
def Fld.ofLink1 : List Fld :=
  [.regs_, .ctrs_, .tiles_, .redIn_, .redStage_, .redRun_, .mcFlits_, .hbm_, .cxl_, .metaCache_, .sideArea_, .inv_,
   .cues_, .ports_, .sess_, .reqs_, .nextTag_, .loom_, .ctxs_, .fns_, .hostReads_, .pfWalks_, .fwGot_, .fwHeld_,
   .sec_, .fw_, .inc_, .twin_, .freeCtr_, .out_]

/-- Fields that operations of this file change. -/
def Fld.ofLink2 : List Fld :=
  [.regs_, .vfErr_, .ctrs_, .tiles_, .redIn_, .redStage_, .redRun_, .mcFlits_, .hbm_, .cxl_, .metaCache_, .sideArea_,
   .inv_, .cues_, .ports_, .sess_, .reqs_, .nextTag_, .loom_, .ctxs_, .fns_, .hostReads_, .pfWalks_, .fwGot_,
   .fwHeld_, .sec_, .fw_, .inc_, .twin_, .freeCtr_, .out_]

theorem State.sendResync_only {fl : List Fld} {sa s : State} {p : Nat}
    (hk : Only fl sa s) (hsub : Fld.sub [.ctrs_, .ports_, .out_] fl = true) : Only fl sa (State.sendResync s p) := by
    refine Only.seq (l := [.ctrs_, .ports_, .out_]) hk ?_ hsub
    clear hk hsub
    unfold State.sendResync
    repeat' first
      | with_reducible exact Only.refl _ _
      | with_reducible assumption
      | with_reducible apply State.sendSlot_only
      | with_reducible apply Only.foldl
      | intro _ _ _
      | refine Fld.yes rfl

theorem State.beginResync_only {fl : List Fld} {sa s : State} {p : Nat}
    (hk : Only fl sa s) (hsub : Fld.sub [.ctrs_, .ports_, .out_] fl = true) : Only fl sa (State.beginResync s p) := by
    refine Only.seq (l := [.ctrs_, .ports_, .out_]) hk ?_ hsub
    clear hk hsub
    unfold State.beginResync
    repeat' first
      | with_reducible exact Only.refl _ _
      | with_reducible apply State.sendResync_only
      | with_reducible apply State.updPort_only
      | refine Fld.yes rfl

theorem State.enterRetrain_only {fl : List Fld} {sa s : State} {p : Nat} {cause : Nat} {cseq : Nat}
    (hk : Only fl sa s) (hsub : Fld.sub [.regs_, .ctrs_, .tiles_, .cues_, .ports_, .sess_, .reqs_, .loom_, .ctxs_, .fns_, .hostReads_, .fwGot_, .fwHeld_, .sec_, .fw_, .inc_, .twin_, .out_] fl = true) : Only fl sa (State.enterRetrain s p cause cseq) := by
    refine Only.seq (l := [.regs_, .ctrs_, .tiles_, .cues_, .ports_, .sess_, .reqs_, .loom_, .ctxs_, .fns_, .hostReads_, .fwGot_, .fwHeld_, .sec_, .fw_, .inc_, .twin_, .out_]) hk ?_ hsub
    clear hk hsub
    unfold State.enterRetrain
    repeat' first
      | with_reducible exact Only.refl _ _
      | with_reducible apply State.updPort_only
      | with_reducible apply State.bump_only
      | with_reducible apply State.orReg_only
      | with_reducible apply State.uCheck_only
      | refine Fld.yes rfl

theorem State.fecCount_only {fl : List Fld} {sa s : State} {p : Nat} {corr : Bool}
    (hk : Only fl sa s) (hsub : Fld.sub [.regs_, .ctrs_, .ports_, .inc_] fl = true) : Only fl sa (State.fecCount s p corr) := by
    refine Only.seq (l := [.regs_, .ctrs_, .ports_, .inc_]) hk ?_ hsub
    clear hk hsub
    unfold State.fecCount
    repeat' first
      | with_reducible exact Only.refl _ _
      | with_reducible apply State.orReg_only
      | with_reducible apply State.report_only
      | with_reducible apply State.bump_only
      | with_reducible apply State.updPort_only
      | with_reducible apply Only.ite
      | refine Fld.yes rfl

theorem State.peerMismatch_only {fl : List Fld} {sa s : State} {p : Nat} {w : Sys2Proof.ParamSlot} {r : PortRec}
    (hk : Only fl sa s) (hsub : Fld.sub [.regs_, .ctrs_, .tiles_, .cues_, .ports_, .reqs_, .loom_, .ctxs_, .fns_, .hostReads_, .fwGot_, .fwHeld_, .sec_, .fw_, .inc_, .out_] fl = true) : Only fl sa (State.peerMismatch s p w r) := by
    refine Only.seq (l := [.regs_, .ctrs_, .tiles_, .cues_, .ports_, .reqs_, .loom_, .ctxs_, .fns_, .hostReads_, .fwGot_, .fwHeld_, .sec_, .fw_, .inc_, .out_]) hk ?_ hsub
    clear hk hsub
    unfold State.peerMismatch
    repeat' first
      | with_reducible exact Only.refl _ _
      | with_reducible assumption
      | with_reducible apply State.raise_only
      | with_reducible apply State.updPort_only
      | with_reducible apply Only.foldl
      | intro _ _ _
      | refine Fld.yes rfl
      | (extract_lets +onlyGivenNames zz; refine Only.have_ (u := zz) ?_ (fun _ => ?_); rotate_left; try clear_value zz; revert zz; intros; rotate_right; dsimp -zeta only [zz]; clear zz)
      | (extract_lets +onlyGivenNames zz; try clear_value zz; revert zz; intros)
      | split

theorem State.portGoesUp_only {fl : List Fld} {sa s : State} {p : Nat} {w : Sys2Proof.ParamSlot}
    (hk : Only fl sa s) (hsub : Fld.sub [.regs_, .ctrs_, .tiles_, .cues_, .ports_, .sess_, .reqs_, .loom_, .ctxs_, .fns_, .hostReads_, .fwGot_, .fwHeld_, .sec_, .fw_, .inc_, .twin_, .out_] fl = true) : Only fl sa (State.portGoesUp s p w) := by
    refine Only.seq (l := [.regs_, .ctrs_, .tiles_, .cues_, .ports_, .sess_, .reqs_, .loom_, .ctxs_, .fns_, .hostReads_, .fwGot_, .fwHeld_, .sec_, .fw_, .inc_, .twin_, .out_]) hk ?_ hsub
    clear hk hsub
    unfold State.portGoesUp
    repeat' first
      | with_reducible exact Only.refl _ _
      | with_reducible apply State.drain_only
      | with_reducible apply State.beginResync_only
      | with_reducible apply State.uCheck_only
      | with_reducible apply State.report_only
      | with_reducible apply State.updPort_only
      | with_reducible apply Only.ite
      | refine Fld.yes rfl

theorem State.rejectCw_only {fl : List Fld} {sa s : State} {p : Nat}
    (hk : Only fl sa s) (hsub : Fld.sub [.ctrs_, .ports_, .out_] fl = true) : Only fl sa (State.rejectCw s p) := by
    refine Only.seq (l := [.ctrs_, .ports_, .out_]) hk ?_ hsub
    clear hk hsub
    unfold State.rejectCw
    repeat' first
      | with_reducible exact Only.refl _ _
      | with_reducible apply State.updPort_only
      | with_reducible apply State.sendSlot_only
      | with_reducible apply State.bump_only
      | with_reducible apply Only.ite
      | refine Fld.yes rfl

theorem State.replayCws_only {fl : List Fld} {sa s : State} {p : Nat} {l : List ReplayCw}
    (hk : Only fl sa s) (hsub : Fld.sub [.ctrs_, .out_] fl = true) : Only fl sa (State.replayCws s p l) := by
    refine Only.seq (l := [.ctrs_, .out_]) hk ?_ hsub
    clear hk hsub
    unfold State.replayCws
    repeat' first
      | with_reducible exact Only.refl _ _
      | with_reducible assumption
      | with_reducible apply State.bump_only
      | with_reducible apply State.emit_only
      | with_reducible apply Only.foldl
      | intro _ _ _
      | refine Fld.yes rfl

theorem State.sendParam_only {fl : List Fld} {sa s : State} {p : Nat}
    (hk : Only fl sa s) (hsub : Fld.sub [.ctrs_, .ports_, .out_] fl = true) : Only fl sa (State.sendParam s p) := by
    refine Only.seq (l := [.ctrs_, .ports_, .out_]) hk ?_ hsub
    clear hk hsub
    unfold State.sendParam
    repeat' first
      | with_reducible exact Only.refl _ _
      | with_reducible apply State.sendSlot_only
      | refine Fld.yes rfl

theorem State.timeReply_only {fl : List Fld} {sa s : State} {p : Nat} {t3 : Int} {t2 : Int} {t1 : Int}
    (hk : Only fl sa s) (hsub : Fld.sub [.regs_, .ctrs_, .stu_, .ports_, .ctxs_, .fns_, .inc_, .freeCtr_, .out_] fl = true) : Only fl sa (State.timeReply s p t3 t2 t1) := by
    refine Only.seq (l := [.regs_, .ctrs_, .stu_, .ports_, .ctxs_, .fns_, .inc_, .freeCtr_, .out_]) hk ?_ hsub
    clear hk hsub
    unfold State.timeReply
    repeat' first
      | with_reducible exact Only.refl _ _
      | with_reducible apply State.measured_only
      | with_reducible apply State.updPort_only
      | with_reducible apply Only.ite
      | refine Fld.yes rfl

theorem State.timeRequest_only {fl : List Fld} {sa s : State} {p : Nat} {t1 : Sys2Proof.DWord}
    (hk : Only fl sa s) (hsub : Fld.sub [.regs_, .ctrs_, .stu_, .ports_, .ctxs_, .fns_, .inc_, .out_] fl = true) : Only fl sa (State.timeRequest s p t1) := by
    refine Only.seq (l := [.regs_, .ctrs_, .stu_, .ports_, .ctxs_, .fns_, .inc_, .out_]) hk ?_ hsub
    clear hk hsub
    unfold State.timeRequest
    repeat' first
      | with_reducible exact Only.refl _ _
      | with_reducible apply State.updateAlign_only
      | with_reducible apply State.sendSlot_only
      | with_reducible apply Only.ite
      | refine Fld.yes rfl
      | (extract_lets +onlyGivenNames zz; try clear_value zz; revert zz; intros)
      | split
      | refine Only.upd ?_ rfl rfl

theorem State.trainFailed_only {fl : List Fld} {sa s : State} {p : Nat}
    (hk : Only fl sa s) (hsub : Fld.sub Fld.ofLink1 fl = true) : Only fl sa (State.trainFailed s p) := by
    refine Only.seq (l := Fld.ofLink1) hk ?_ hsub
    clear hk hsub
    unfold State.trainFailed
    repeat' first
      | with_reducible exact Only.refl _ _
      | with_reducible apply State.portLeave_only
      | with_reducible apply State.updPort_only
      | with_reducible apply Only.ite
      | refine Fld.yes rfl

theorem State.writePortCtl_only {fl : List Fld} {sa s : State} {fn : Sys2Proof.Fn} {p : Nat} {v : Nat}
    (hk : Only fl sa s) (hsub : Fld.sub Fld.ofLink2 fl = true) : Only fl sa (State.writePortCtl s fn p v) := by
    refine Only.seq (l := Fld.ofLink2) hk ?_ hsub
    clear hk hsub
    unfold State.writePortCtl
    repeat' first
      | with_reducible exact Only.refl _ _
      | with_reducible apply State.updPort_only
      | with_reducible apply State.uCheck_only
      | with_reducible apply State.retrainOver_only
      | with_reducible apply State.clrReg_only
      | with_reducible apply State.portLeave_only
      | with_reducible apply State.orReg_only
      | with_reducible apply State.portTrain_only
      | with_reducible apply State.setErr_only
      | with_reducible apply Only.ite
      | refine Fld.yes rfl
      | (extract_lets +onlyGivenNames zz; try clear_value zz; revert zz; intros)
      | split

theorem execPortEnable_only (fn : Sys2Proof.Fn) (p : Sys2Proof.Port) (val : Sys2Proof.Word) (s : State) {sz : State}
    (h : execPortEnable fn p val s = .next sz) : Only Fld.ofLink2 s sz := by
    unfold execPortEnable at h
    cases h
    repeat' first
      | with_reducible exact Only.refl _ _
      | with_reducible apply State.writePortCtl_only
      | refine Fld.yes rfl

theorem execRetrain_only (fn : Sys2Proof.Fn) (p : Sys2Proof.Port) (val : Sys2Proof.Word) (s : State) {sz : State}
    (h : execRetrain fn p val s = .next sz) : Only Fld.ofLink2 s sz := by
    unfold execRetrain at h
    cases h
    repeat' first
      | with_reducible exact Only.refl _ _
      | with_reducible apply State.writePortCtl_only
      | refine Fld.yes rfl

theorem execLinkTrainingEnd_only (p : Sys2Proof.Port) (ok : Bool) (us : Nat) (s : State) {sz : State}
    (h : execLinkTrainingEnd p ok us s = .next sz) : Only Fld.ofLink1 s sz := by
    unfold execLinkTrainingEnd at h
    cases h
    repeat' first
      | with_reducible exact Only.refl _ _
      | with_reducible apply State.trainFailed_only
      | with_reducible apply State.updPort_only
      | with_reducible apply Only.ite
      | refine Fld.yes rfl

theorem execCodewordLock_only (p : Sys2Proof.Port) (ok : Bool) (s : State) {sz : State}
    (h : execCodewordLock p ok s = .next sz) : Only Fld.ofLink1 s sz := by
    unfold execCodewordLock at h
    cases h
    repeat' first
      | with_reducible exact Only.refl _ _
      | with_reducible apply State.trainFailed_only
      | with_reducible apply State.updPort_only
      | with_reducible apply State.sendParam_only
      | with_reducible apply Only.ite
      | refine Fld.yes rfl

theorem execParam_only (p : Sys2Proof.Port) (w : Sys2Proof.ParamSlot) (s : State) {sz : State}
    (h : execParam p w s = .next sz) : Only Fld.ofLink1 s sz := by
    unfold execParam at h
    cases h
    repeat' first
      | with_reducible exact Only.refl _ _
      | with_reducible apply State.linkDown_only
      | with_reducible apply State.peerMismatch_only
      | with_reducible apply State.portGoesUp_only
      | with_reducible apply Only.ite
      | refine Fld.yes rfl
      | (extract_lets +onlyGivenNames zz; try clear_value zz; revert zz; intros)
      | split

theorem execCodewordReceive_only (p : Sys2Proof.Port) (cw : Sys2Proof.Codeword) (s : State) {sz : State}
    (h : execCodewordReceive p cw s = .next sz) : Only [.regs_, .ctrs_, .ports_, .inc_, .out_] s sz := by
    unfold execCodewordReceive at h
    cases h
    repeat' first
      | with_reducible exact Only.refl _ _
      | with_reducible apply State.rejectCw_only
      | with_reducible apply State.sendSlot_only
      | with_reducible apply State.updPort_only
      | with_reducible apply State.bump_only
      | with_reducible apply State.fecCount_only
      | with_reducible apply Only.ite
      | refine Fld.yes rfl

theorem execAck_only (p : Sys2Proof.Port) (cseq : BitVec 12) (s : State) {sz : State}
    (h : execAck p cseq s = .next sz) : Only [.regs_, .ctrs_, .tiles_, .cues_, .ports_, .sess_, .reqs_, .loom_, .ctxs_, .fns_, .hostReads_, .fwGot_, .fwHeld_, .sec_, .fw_, .inc_, .out_] s sz := by
    unfold execAck at h
    cases h
    repeat' first
      | with_reducible exact Only.refl _ _
      | with_reducible apply State.drain_only
      | with_reducible apply State.updPort_only
      | with_reducible apply Only.ite
      | refine Fld.yes rfl

theorem execNak_only (p : Sys2Proof.Port) (cseq : BitVec 12) (s : State) {sz : State}
    (h : execNak p cseq s = .next sz) : Only [.ctrs_, .ports_, .out_] s sz := by
    unfold execNak at h
    cases h
    repeat' first
      | with_reducible exact Only.refl _ _
      | with_reducible apply State.replayCws_only
      | with_reducible apply State.updPort_only
      | with_reducible apply Only.ite
      | refine Fld.yes rfl

theorem execNakBound_only (p : Sys2Proof.Port) (s : State) {sz : State}
    (h : execNakBound p s = .next sz) : Only [.regs_, .ctrs_, .tiles_, .cues_, .ports_, .sess_, .reqs_, .loom_, .ctxs_, .fns_, .hostReads_, .fwGot_, .fwHeld_, .sec_, .fw_, .inc_, .twin_, .out_] s sz := by
    unfold execNakBound at h
    cases h
    repeat' first
      | with_reducible exact Only.refl _ _
      | with_reducible apply State.enterRetrain_only
      | with_reducible apply Only.ite
      | refine Fld.yes rfl

theorem execAckStall_only (p : Sys2Proof.Port) (s : State) {sz : State}
    (h : execAckStall p s = .next sz) : Only [.regs_, .ctrs_, .tiles_, .cues_, .ports_, .sess_, .reqs_, .loom_, .ctxs_, .fns_, .hostReads_, .fwGot_, .fwHeld_, .sec_, .fw_, .inc_, .twin_, .out_] s sz := by
    unfold execAckStall at h
    cases h
    repeat' first
      | with_reducible exact Only.refl _ _
      | with_reducible apply State.enterRetrain_only
      | with_reducible apply Only.ite
      | refine Fld.yes rfl
      | (extract_lets +onlyGivenNames zz; try clear_value zz; revert zz; intros)
      | split

theorem execFastRetrainEnd_only (p : Sys2Proof.Port) (ok : Bool) (ns : Nat) (s : State) {sz : State}
    (h : execFastRetrainEnd p ok ns s = .next sz) : Only [.regs_, .ctrs_, .tiles_, .cues_, .ports_, .sess_, .reqs_, .loom_, .ctxs_, .fns_, .hostReads_, .fwGot_, .fwHeld_, .sec_, .fw_, .inc_, .twin_, .out_] s sz := by
    unfold execFastRetrainEnd at h
    cases h
    repeat' first
      | with_reducible exact Only.refl _ _
      | with_reducible apply State.updPort_only
      | with_reducible apply State.beginResync_only
      | with_reducible apply State.uCheck_only
      | with_reducible apply State.retrainOver_only
      | with_reducible apply Only.ite
      | refine Fld.yes rfl

theorem execResync_only (p : Sys2Proof.Port) (cseq : BitVec 12) (ledger : Sys2Proof.LedgerNo) (occupied : Nat) (s : State) {sz : State}
    (h : execResync p cseq ledger occupied s = .next sz) : Only [.regs_, .ctrs_, .tiles_, .cues_, .ports_, .sess_, .reqs_, .loom_, .ctxs_, .fns_, .hostReads_, .fwGot_, .fwHeld_, .sec_, .fw_, .inc_, .out_] s sz := by
    unfold execResync at h
    cases h
    repeat' first
      | with_reducible exact Only.refl _ _
      | with_reducible apply State.replayCws_only
      | with_reducible apply State.drain_only
      | with_reducible apply State.updPort_only
      | with_reducible apply Only.ite
      | refine Fld.yes rfl

theorem execCredit_only (p : Sys2Proof.Port) (cells : List Nat) (shared : Nat) (s : State) {sz : State}
    (h : execCredit p cells shared s = .next sz) : Only [.regs_, .ctrs_, .tiles_, .cues_, .ports_, .sess_, .reqs_, .loom_, .ctxs_, .fns_, .hostReads_, .fwGot_, .fwHeld_, .sec_, .fw_, .inc_, .out_] s sz := by
    unfold execCredit at h
    cases h
    repeat' first
      | with_reducible exact Only.refl _ _
      | with_reducible apply State.drain_only
      | with_reducible apply State.updPort_only
      | with_reducible apply Only.ite
      | refine Fld.yes rfl

theorem execRedCredit_only (p : Sys2Proof.Port) (pairs : List (Sys2Proof.Group × Nat)) (s : State) {sz : State}
    (h : execRedCredit p pairs s = .next sz) : Only [.regs_, .ctrs_, .tiles_, .cues_, .ports_, .sess_, .reqs_, .loom_, .ctxs_, .fns_, .hostReads_, .fwGot_, .fwHeld_, .sec_, .fw_, .inc_, .out_] s sz := by
    unfold execRedCredit at h
    cases h
    repeat' first
      | with_reducible exact Only.refl _ _
      | with_reducible apply State.drain_only
      | with_reducible apply State.updPort_only
      | with_reducible apply Only.ite
      | refine Fld.yes rfl

theorem execAudit_only (p : Sys2Proof.Port) (ledger : Sys2Proof.LedgerNo) (held : Nat) (ret : Nat) (s : State) {sz : State}
    (h : execAudit p ledger held ret s = .next sz) : Only [.regs_, .ctrs_, .tiles_, .cues_, .reqs_, .loom_, .ctxs_, .fns_, .hostReads_, .fwGot_, .fwHeld_, .sec_, .fw_, .inc_, .out_] s sz := by
    unfold execAudit at h
    cases h
    repeat' first
      | with_reducible exact Only.refl _ _
      | with_reducible apply State.raise_only
      | with_reducible apply Only.ite
      | refine Fld.yes rfl

theorem execTime_only (p : Sys2Proof.Port) (reply : Bool) (ta : BitVec 64) (tb : BitVec 64) (tc : BitVec 64) (s : State) {sz : State}
    (h : execTime p reply ta tb tc s = .next sz) : Only [.regs_, .ctrs_, .stu_, .ports_, .ctxs_, .fns_, .inc_, .freeCtr_, .out_] s sz := by
    unfold execTime at h
    cases h
    repeat' first
      | with_reducible exact Only.refl _ _
      | with_reducible apply State.timeReply_only
      | with_reducible apply State.timeRequest_only
      | with_reducible apply Only.ite
      | refine Fld.yes rfl

theorem execTimeExchange_only (p : Sys2Proof.Port) (s : State) {sz : State}
    (h : execTimeExchange p s = .next sz) : Only [.ctrs_, .ports_, .out_] s sz := by
    unfold execTimeExchange at h
    cases h
    repeat' first
      | with_reducible exact Only.refl _ _
      | with_reducible apply State.sendSlot_only
      | with_reducible apply State.updPort_only
      | with_reducible apply Only.ite
      | refine Fld.yes rfl

end Sys2Proof.Machine
end

