-- ==== Sys2Proof/Laws/FrameLoom.lean ====
section
/-! SUPPORT. Which fields of the state each operation of Sys2Proof/Machine/Loom.lean can change. -/

namespace Sys2Proof.Machine

set_option linter.all false
set_option Elab.async false

/-- Fields that operations of this file change. -/
def Fld.ofLoom1 : List Fld :=
  [.regs_, .ctrs_, .tiles_, .redIn_, .redStage_, .redRun_, .mcFlits_, .hbm_, .cxl_, .metaCache_, .sideArea_, .inv_,
   .cues_, .ports_, .sess_, .sessIn_, .reqs_, .nextTag_, .loom_, .ctxs_, .fns_, .hostReads_, .pfWalks_, .fwGot_,
   .fwHeld_, .sec_, .fw_, .inc_, .twin_, .freeCtr_, .out_]

theorem State.armScene_only {fl : List Fld} {sa s : State} {c : Scene}
    (hk : Only fl sa s) (hsub : Fld.sub [.regs_, .ctrs_, .cues_, .loom_, .ctxs_, .fns_, .inc_, .out_] fl = true) : Only fl sa (State.armScene s c) := by
    refine Only.seq (l := [.regs_, .ctrs_, .cues_, .loom_, .ctxs_, .fns_, .inc_, .out_]) hk ?_ hsub
    clear hk hsub
    unfold State.armScene
    repeat' first
      | with_reducible exact Only.refl _ _
      | with_reducible assumption
      | with_reducible apply State.voidForScene_only
      | with_reducible apply State.report_only
      | with_reducible apply State.armSlot_only
      | with_reducible apply Only.foldl
      | intro _ _ _
      | refine Fld.yes rfl
      | (extract_lets +onlyGivenNames zz; try clear_value zz; revert zz; intros)
      | refine Only.upd ?_ rfl rfl

theorem State.setReport_only {fl : List Fld} {sa s : State} {r : LoomRes}
    (hk : Only fl sa s) (hsub : Fld.sub [.regs_] fl = true) : Only fl sa (State.setReport s r) := by
    refine Only.seq (l := [.regs_]) hk ?_ hsub
    clear hk hsub
    unfold State.setReport
    repeat' first
      | with_reducible exact Only.refl _ _
      | with_reducible apply State.setReg_only
      | refine Fld.yes rfl

theorem State.refuseScene_only {fl : List Fld} {sa s : State} {m : Image} {r : LoomRes}
    (hk : Only fl sa s) (hsub : Fld.sub [.regs_, .ctrs_, .inc_] fl = true) : Only fl sa (State.refuseScene s m r) := by
    refine Only.seq (l := [.regs_, .ctrs_, .inc_]) hk ?_ hsub
    clear hk hsub
    unfold State.refuseScene
    repeat' first
      | with_reducible exact Only.refl _ _
      | with_reducible apply State.setReport_only
      | with_reducible apply State.report_only
      | refine Fld.yes rfl

theorem State.commitScene_only {fl : List Fld} {sa s : State} {sigOk : Bool}
    (hk : Only fl sa s) (hsub : Fld.sub [.regs_, .ctrs_, .cues_, .loom_, .ctxs_, .fns_, .inc_, .out_] fl = true) : Only fl sa (State.commitScene s sigOk).1 := by
    refine Only.seq (l := [.regs_, .ctrs_, .cues_, .loom_, .ctxs_, .fns_, .inc_, .out_]) hk ?_ hsub
    clear hk hsub
    unfold State.commitScene
    repeat' first
      | with_reducible exact Only.refl _ _
      | with_reducible apply State.armScene_only
      | with_reducible apply State.setReport_only
      | with_reducible apply State.refuseScene_only
      | refine Fld.yes rfl
      | (extract_lets +onlyGivenNames zz; try clear_value zz; revert zz; intros)
      | split

theorem execLoomPut_only (ses : Sys2Proof.SessId) (off : Nat) (data : List Sys2Proof.Byte) (s : State) {sz : State}
    (h : execLoomPut ses off data s = .next sz) : Only [.regs_, .ctrs_, .fw_, .inc_, .out_] s sz := by
    unfold execLoomPut at h
    cases h
    repeat' first
      | with_reducible exact Only.refl _ _
      | with_reducible assumption
      | with_reducible apply State.message_only
      | refine Fld.yes rfl
      | (extract_lets +onlyGivenNames zz; try clear_value zz; revert zz; intros)
      | dsimp -zeta only
      | split
      | intro _
      | refine Only.upd ?_ rfl rfl

theorem execLoomCommit_only (ses : Sys2Proof.SessId) (force : Bool) (sigOk : Bool) (s : State) {sz : State}
    (h : execLoomCommit ses force sigOk s = .next sz) : Only Fld.ofLoom1 s sz := by
  unfold execLoomCommit at h
  cases h
  apply State.message_only (Only.refl _ _) (by decide)
  intro t ht
  split
  · exact ht
  · extract_lets u r
    have hu : Only Fld.ofLoom1 s u := by
      dsimp only [u]
      split
      · exact State.drainForce_only ht (by decide)
      · exact ht
    have hr : Only Fld.ofLoom1 s r.1 := State.commitScene_only hu (by decide)
    clear_value r
    exact Only.upd hr rfl rfl

theorem execLoomCancel_only (ses : Sys2Proof.SessId) (scene : Sys2Proof.Word) (s : State) {sz : State}
    (h : execLoomCancel ses scene s = .next sz) : Only [.regs_, .ctrs_, .cues_, .loom_, .fw_, .inc_, .out_] s sz := by
  unfold execLoomCancel at h
  cases h
  apply State.message_only (Only.refl _ _) (by decide)
  intro t ht
  split
  · split
    · extract_lets u
      have hu : Only [.regs_, .ctrs_, .cues_, .loom_, .fw_, .inc_, .out_] s u := State.setCue_only ht (by decide)
      clear_value u
      exact Only.upd hu rfl rfl
    · exact ht
  · exact ht

theorem execLoomRead_only (ses : Sys2Proof.SessId) (off : Nat) (s : State) {sz : State}
    (h : execLoomRead ses off s = .next sz) : Only [.regs_, .ctrs_, .fw_, .inc_, .out_] s sz := by
    unfold execLoomRead at h
    cases h
    repeat' first
      | with_reducible exact Only.refl _ _
      | with_reducible assumption
      | with_reducible apply State.message_only
      | refine Fld.yes rfl
      | (extract_lets +onlyGivenNames zz; try clear_value zz; revert zz; intros)
      | intro _

theorem execSceneRetire_only (s : State) {sz : State}
    (h : execSceneRetire s = .next sz) : Only Fld.ofLoom1 s sz := by
    unfold execSceneRetire at h
    cases h
    repeat' first
      | with_reducible exact Only.refl _ _
      | with_reducible apply State.retireScene_only
      | with_reducible apply Only.ite
      | refine Fld.yes rfl

theorem execLomDrainTimeout_only (s : State) {sz : State}
    (h : execLomDrainTimeout s = .next sz) : Only Fld.ofLoom1 s sz := by
    unfold execLomDrainTimeout at h
    cases h
    repeat' first
      | with_reducible exact Only.refl _ _
      | with_reducible apply State.drainForce_only
      | with_reducible apply Only.ite
      | refine Fld.yes rfl

theorem execLomScrubDone_only (c : Sys2Proof.Chan) (s : State) {sz : State}
    (h : execLomScrubDone c s = .next sz) : Only [.regs_, .ctrs_, .hbm_, .hbmUe_, .loom_, .inc_] s sz := by
    unfold execLomScrubDone at h
    cases h
    repeat' first
      | with_reducible exact Only.refl _ _
      | with_reducible assumption
      | with_reducible apply State.report_only
      | with_reducible apply Only.ite
      | refine Fld.yes rfl
      | (extract_lets +onlyGivenNames zz; refine Only.have_ (u := zz) ?_ (fun _ => ?_); rotate_left; try clear_value zz; revert zz; intros; rotate_right; dsimp -zeta only [zz]; clear zz)
      | (extract_lets +onlyGivenNames zz; try clear_value zz; revert zz; intros)
      | split
      | refine Only.upd ?_ rfl rfl

theorem execSceneRetireCplTmo_only (s : State) {sz : State}
    (h : execSceneRetireCplTmo s = .next sz) : Only Fld.ofLoom1 s sz := by
    unfold execSceneRetireCplTmo at h
    cases h
    repeat' first
      | with_reducible exact Only.refl _ _
      | with_reducible apply State.retireScene_only
      | with_reducible apply Only.ite
      | refine Fld.yes rfl

end Sys2Proof.Machine
end

