-- ==== Sys2Proof/Laws/FrameMeshOps.lean ====
section
/-! SUPPORT. Which fields of the state each operation of Sys2Proof/Machine/MeshOps.lean can change. -/

namespace Sys2Proof.Machine

set_option linter.all false
set_option Elab.async false

theorem State.auditMesh_only {fl : List Fld} {sa s : State} {l : Sys2Proof.LedgerId}
    (hk : Only fl sa s) (hsub : Fld.sub [.regs_, .ctrs_, .tiles_, .cues_, .reqs_, .loom_, .ctxs_, .fns_, .hostReads_, .fwGot_, .fwHeld_, .sec_, .fw_, .inc_, .out_] fl = true) : Only fl sa (State.auditMesh s l) := by
    refine Only.seq (l := [.regs_, .ctrs_, .tiles_, .cues_, .reqs_, .loom_, .ctxs_, .fns_, .hostReads_, .fwGot_, .fwHeld_, .sec_, .fw_, .inc_, .out_]) hk ?_ hsub
    clear hk hsub
    unfold State.auditMesh
    repeat' first
      | with_reducible exact Only.refl _ _
      | with_reducible apply State.raise_only
      | with_reducible apply Only.ite
      | refine Fld.yes rfl

theorem State.flitOut_only {fl : List Fld} {sa s : State} {site : Nat} {f : Sys2Proof.Flit}
    (hk : Only fl sa s) (hsub : Fld.sub [.out_] fl = true) : Only fl sa (State.flitOut s site f) := by
    refine Only.seq (l := [.out_]) hk ?_ hsub
    clear hk hsub
    unfold State.flitOut
    repeat' first
      | with_reducible exact Only.refl _ _
      | with_reducible apply State.emit_only
      | with_reducible apply Only.ite
      | refine Fld.yes rfl

theorem State.setMeshLedger_only {fl : List Fld} {sa s : State} {l : Sys2Proof.LedgerId} {v : Ledger}
    (hk : Only fl sa s) (hsub : Fld.sub [.ledgers_] fl = true) : Only fl sa (State.setMeshLedger s l v) := by
    refine Only.seq (l := [.ledgers_]) hk ?_ hsub
    clear hk hsub
    unfold State.setMeshLedger
    repeat' first
      | with_reducible exact Only.refl _ _
      | refine Only.upd ?_ rfl rfl

theorem State.consCheck_only {fl : List Fld} {sa s : State} {kind : Nat} {want : Nat} {found : Nat}
    (hk : Only fl sa s) (hsub : Fld.sub [.regs_, .ctrs_, .tiles_, .cues_, .reqs_, .loom_, .ctxs_, .fns_, .hostReads_, .fwGot_, .fwHeld_, .sec_, .fw_, .inc_, .out_] fl = true) : Only fl sa (State.consCheck s kind want found) := by
    refine Only.seq (l := [.regs_, .ctrs_, .tiles_, .cues_, .reqs_, .loom_, .ctxs_, .fns_, .hostReads_, .fwGot_, .fwHeld_, .sec_, .fw_, .inc_, .out_]) hk ?_ hsub
    clear hk hsub
    unfold State.consCheck
    repeat' first
      | with_reducible exact Only.refl _ _
      | with_reducible apply State.raise_only
      | with_reducible apply Only.ite
      | refine Fld.yes rfl

theorem State.mcCommit_only {fl : List Fld} {sa s : State} {site : Nat} {f : McFlit}
    (hk : Only fl sa s) (hsub : Fld.sub [.regs_, .ctrs_, .tiles_, .hbm_, .cxl_, .hbmUe_, .metaCache_, .sideArea_, .cues_, .reqs_, .nextTag_, .loom_, .ctxs_, .fns_, .hostReads_, .fwGot_, .fwHeld_, .sec_, .fw_, .inc_, .twin_, .out_] fl = true) : Only fl sa (State.mcCommit s site f) := by
    refine Only.seq (l := [.regs_, .ctrs_, .tiles_, .hbm_, .cxl_, .hbmUe_, .metaCache_, .sideArea_, .cues_, .reqs_, .nextTag_, .loom_, .ctxs_, .fns_, .hostReads_, .fwGot_, .fwHeld_, .sec_, .fw_, .inc_, .twin_, .out_]) hk ?_ hsub
    clear hk hsub
    unfold State.mcCommit
    repeat' first
      | with_reducible exact Only.refl _ _
      | with_reducible assumption
      | with_reducible apply State.semAddAt_only
      | with_reducible apply State.poke_only
      | refine Fld.yes rfl
      | (extract_lets +onlyGivenNames zz; refine Only.have_ (u := zz) ?_ (fun _ => ?_); rotate_left; try clear_value zz; revert zz; intros; rotate_right; dsimp -zeta only [zz]; clear zz)
      | split

theorem State.noteAudit_only {fl : List Fld} {sa s : State} {l : Sys2Proof.LedgerId}
    (hk : Only fl sa s) (hsub : Fld.sub [.audited_, .auditFirst_] fl = true) : Only fl sa (State.noteAudit s l) := by
    refine Only.seq (l := [.audited_, .auditFirst_]) hk ?_ hsub
    clear hk hsub
    unfold State.noteAudit
    repeat' first
      | with_reducible exact Only.refl _ _
      | refine Only.upd ?_ rfl rfl

theorem State.redClose_only {fl : List Fld} {sa s : State} {g : Nat} {b : Nat} {round : Nat}
    (hk : Only fl sa s) (hsub : Fld.sub [.redRun_, .loom_] fl = true) : Only fl sa (State.redClose s g b round) := by
    refine Only.seq (l := [.redRun_, .loom_]) hk ?_ hsub
    clear hk hsub
    unfold State.redClose
    repeat' first
      | with_reducible exact Only.refl _ _
      | with_reducible assumption
      | with_reducible apply State.flightSub_only
      | with_reducible apply State.setRedRun_only
      | with_reducible apply Only.ite
      | with_reducible apply Only.foldl
      | intro _ _ _
      | refine Fld.yes rfl

theorem State.redFail_only {fl : List Fld} {sa s : State} {g : Nat} {b : Nat}
    (hk : Only fl sa s) (hsub : Fld.sub [.ctrs_, .redIn_, .redStage_, .redRun_, .redOpen_, .ports_, .loom_, .out_] fl = true) : Only fl sa (State.redFail s g b) := by
    refine Only.seq (l := [.ctrs_, .redIn_, .redStage_, .redRun_, .redOpen_, .ports_, .loom_, .out_]) hk ?_ hsub
    clear hk hsub
    unfold State.redFail
    repeat' first
      | with_reducible exact Only.refl _ _
      | with_reducible assumption
      | with_reducible apply State.freeStaged_only
      | with_reducible apply State.setRedRun_only
      | with_reducible apply State.flightSub_only
      | with_reducible apply Only.foldl
      | intro _ _ _
      | refine Fld.yes rfl
      | (extract_lets +onlyGivenNames zz; refine Only.have_ (u := zz) ?_ (fun _ => ?_); rotate_left; try clear_value zz; revert zz; intros; rotate_right; dsimp -zeta only [zz]; clear zz)
      | (extract_lets +onlyGivenNames zz; try clear_value zz; revert zz; intros)
      | refine Only.upd ?_ rfl rfl

theorem State.redLeave_only {fl : List Fld} {sa s : State} {g : Nat} {n : Nat} {round : Nat} {chunk : Nat}
    (hk : Only fl sa s) (hsub : Fld.sub [.ctrs_, .redIn_, .redStage_, .redRun_, .redOpen_, .ports_, .out_] fl = true) : Only fl sa (State.redLeave s g n round chunk) := by
    refine Only.seq (l := [.ctrs_, .redIn_, .redStage_, .redRun_, .redOpen_, .ports_, .out_]) hk ?_ hsub
    clear hk hsub
    unfold State.redLeave
    repeat' first
      | with_reducible exact Only.refl _ _
      | with_reducible apply State.redRefill_only
      | with_reducible apply State.setRedRun_only
      | refine Fld.yes rfl
      | (extract_lets +onlyGivenNames zz; try clear_value zz; revert zz; intros)
      | refine Only.upd ?_ rfl rfl

theorem State.redSignal_only {fl : List Fld} {sa s : State} {g : Nat} {site : Nat} {round : Nat}
    (hk : Only fl sa s) (hsub : Fld.sub [.regs_, .ctrs_, .tiles_, .redRun_, .cues_, .reqs_, .loom_, .ctxs_, .fns_, .hostReads_, .fwGot_, .fwHeld_, .sec_, .fw_, .inc_, .out_] fl = true) : Only fl sa (State.redSignal s g site round) := by
    refine Only.seq (l := [.regs_, .ctrs_, .tiles_, .redRun_, .cues_, .reqs_, .loom_, .ctxs_, .fns_, .hostReads_, .fwGot_, .fwHeld_, .sec_, .fw_, .inc_, .out_]) hk ?_ hsub
    clear hk hsub
    unfold State.redSignal
    repeat' first
      | with_reducible exact Only.refl _ _
      | with_reducible assumption
      | with_reducible apply State.semAddAt_only
      | with_reducible apply State.setRedRun_only
      | with_reducible apply Only.ite
      | with_reducible apply Only.foldl
      | intro _ _ _
      | refine Fld.yes rfl

theorem State.redUp_only {fl : List Fld} {sa s : State} {r : RedRec} {scene : Sys2Proof.Word} {round : Nat} {chunk : Nat} {l : List Sys2Proof.Word}
    (hk : Only fl sa s) (hsub : Fld.sub [.regs_, .ctrs_, .tiles_, .cues_, .ports_, .sess_, .reqs_, .loom_, .ctxs_, .fns_, .hostReads_, .fwGot_, .fwHeld_, .sec_, .fw_, .inc_, .out_] fl = true) : Only fl sa (State.redUp s r scene round chunk l) := by
    refine Only.seq (l := [.regs_, .ctrs_, .tiles_, .cues_, .ports_, .sess_, .reqs_, .loom_, .ctxs_, .fns_, .hostReads_, .fwGot_, .fwHeld_, .sec_, .fw_, .inc_, .out_]) hk ?_ hsub
    clear hk hsub
    unfold State.redUp
    repeat' first
      | with_reducible exact Only.refl _ _
      | with_reducible apply State.sendPkt_only
      | with_reducible apply Only.ite
      | refine Fld.yes rfl
      | (extract_lets +onlyGivenNames zz; try clear_value zz; revert zz; intros)
      | split

theorem State.sendAudit_only {fl : List Fld} {sa s : State} {p : Nat} {no : Nat}
    (hk : Only fl sa s) (hsub : Fld.sub [.ctrs_, .ports_, .out_] fl = true) : Only fl sa (State.sendAudit s p no) := by
    refine Only.seq (l := [.ctrs_, .ports_, .out_]) hk ?_ hsub
    clear hk hsub
    unfold State.sendAudit
    repeat' first
      | with_reducible exact Only.refl _ _
      | with_reducible apply State.sendSlot_only
      | refine Fld.yes rfl

theorem State.setBridge_only {fl : List Fld} {sa s : State} {br : Nat} {stop : Nat} {v : BridgeStop}
    (hk : Only fl sa s) (hsub : Fld.sub [.bridges_] fl = true) : Only fl sa (State.setBridge s br stop v) := by
    refine Only.seq (l := [.bridges_]) hk ?_ hsub
    clear hk hsub
    unfold State.setBridge
    repeat' first
      | with_reducible exact Only.refl _ _
      | refine Only.upd ?_ rfl rfl

end Sys2Proof.Machine
end

