-- ==== Sys2Proof/Laws/FrameMesh.lean ====
section
/-! SUPPORT. Which fields of the state each operation of Sys2Proof/Machine/Mesh.lean can change. -/

namespace Sys2Proof.Machine

set_option linter.all false
set_option Elab.async false

theorem State.bridgeOut_only {fl : List Fld} {sa s : State} {br : Nat} {stop : Nat} {f : Sys2Proof.Flit}
    (hk : Only fl sa s) (hsub : Fld.sub [.out_] fl = true) : Only fl sa (State.bridgeOut s br stop f) := by
    refine Only.seq (l := [.out_]) hk ?_ hsub
    clear hk hsub
    unfold State.bridgeOut
    repeat' first
      | with_reducible exact Only.refl _ _
      | with_reducible apply State.flitOut_only
      | with_reducible apply Only.ite
      | refine Fld.yes rfl

theorem State.bridgeTickets_only {fl : List Fld} {sa s : State} {br : Sys2Proof.Bridge} {stop : Fin 4} {occ : List Sys2Proof.BridgeOcc}
    (hk : Only fl sa s) (hsub : Fld.sub [.ledgers_] fl = true) : Only fl sa (State.bridgeTickets s br stop occ) := by
    refine Only.seq (l := [.ledgers_]) hk ?_ hsub
    clear hk hsub
    unfold State.bridgeTickets
    repeat' first
      | with_reducible exact Only.refl _ _
      | with_reducible assumption
      | with_reducible apply State.setMeshLedger_only
      | with_reducible apply Only.foldl
      | intro _ _ _
      | refine Fld.yes rfl

theorem State.meshCorrect_only {fl : List Fld} {sa s : State} {l : Sys2Proof.MeshLink}
    (hk : Only fl sa s) (hsub : Fld.sub [.regs_, .ctrs_, .meshCe_, .inc_] fl = true) : Only fl sa (State.meshCorrect s l) := by
    refine Only.seq (l := [.regs_, .ctrs_, .meshCe_, .inc_]) hk ?_ hsub
    clear hk hsub
    unfold State.meshCorrect
    repeat' first
      | with_reducible exact Only.refl _ _
      | with_reducible apply State.report_only
      | with_reducible apply Only.ite
      | refine Fld.yes rfl
      | (extract_lets +onlyGivenNames zz; try clear_value zz; revert zz; intros)
      | refine Only.upd ?_ rfl rfl

theorem execMeshFlitReceive_only (l : Sys2Proof.MeshLink) (flit : Sys2Proof.Flit) (ecc : Sys2Proof.Ecc) (s : State) {sz : State}
    (h : execMeshFlitReceive l flit ecc s = .next sz) : Only [.regs_, .ctrs_, .tiles_, .ledgers_, .meshCe_, .cues_, .reqs_, .loom_, .ctxs_, .fns_, .hostReads_, .fwGot_, .fwHeld_, .sec_, .fw_, .inc_, .out_] s sz := by
    unfold execMeshFlitReceive at h
    cases h
    repeat' first
      | with_reducible exact Only.refl _ _
      | with_reducible assumption
      | with_reducible apply State.raise_only
      | with_reducible apply State.meshCorrect_only
      | with_reducible apply State.flitOut_only
      | with_reducible apply State.setMeshLedger_only
      | refine Fld.yes rfl
      | (extract_lets +onlyGivenNames zz; refine Only.have_ (u := zz) ?_ (fun _ => ?_); rotate_left; try clear_value zz; revert zz; intros; rotate_right; dsimp -zeta only [zz]; clear zz)
      | split

theorem execTicketReturn_only (l : Sys2Proof.TicketLink) (vc : Sys2Proof.Vc) (s : State) {sz : State}
    (h : execTicketReturn l vc s = .next sz) : Only [.ledgers_] s sz := by
    unfold execTicketReturn at h
    cases h
    repeat' first
      | with_reducible exact Only.refl _ _
      | with_reducible apply State.setMeshLedger_only
      | with_reducible apply Only.ite
      | refine Fld.yes rfl

theorem execMcastFlitForward_only (g : Sys2Proof.Group) (node : Sys2Proof.NodeIx) (s : State) {sz : State}
    (h : execMcastFlitForward g node s = .next sz) : Only [.regs_, .ctrs_, .tiles_, .mcFlits_, .hbm_, .cxl_, .hbmUe_, .metaCache_, .sideArea_, .cues_, .reqs_, .nextTag_, .loom_, .ctxs_, .fns_, .hostReads_, .fwGot_, .fwHeld_, .sec_, .fw_, .inc_, .twin_, .out_] s sz := by
    unfold execMcastFlitForward at h
    cases h
    repeat' first
      | with_reducible exact Only.refl _ _
      | with_reducible assumption
      | with_reducible apply State.mcCommit_only
      | with_reducible apply Only.ite
      | refine Fld.yes rfl
      | (extract_lets +onlyGivenNames zz; refine Only.have_ (u := zz) ?_ (fun _ => ?_); rotate_left; try clear_value zz; revert zz; intros; rotate_right; dsimp -zeta only [zz]; clear zz)
      | (extract_lets +onlyGivenNames zz; try clear_value zz; revert zz; intros)
      | split
      | refine Only.upd ?_ rfl rfl

theorem execRedChunkCombine_only (g : Sys2Proof.Group) (node : Sys2Proof.NodeIx) (round : Nat) (chunk : Nat) (s : State) {sz : State}
    (h : execRedChunkCombine g node round chunk s = .next sz) : Only [.regs_, .ctrs_, .tiles_, .redIn_, .redStage_, .redRun_, .redOpen_, .hbm_, .cxl_, .hbmUe_, .metaCache_, .sideArea_, .cues_, .ports_, .sess_, .reqs_, .nextTag_, .loom_, .ctxs_, .fns_, .hostReads_, .fwGot_, .fwHeld_, .sec_, .fw_, .inc_, .twin_, .out_] s sz := by
    unfold execRedChunkCombine at h
    cases h
    repeat' first
      | with_reducible exact Only.refl _ _
      | with_reducible assumption
      | with_reducible apply State.redSignal_only
      | with_reducible apply State.poke_only
      | with_reducible apply State.redUp_only
      | with_reducible apply State.redClose_only
      | with_reducible apply State.redLeave_only
      | with_reducible apply Only.ite
      | refine Fld.yes rfl
      | (extract_lets +onlyGivenNames zz; refine Only.have_ (u := zz) ?_ (fun _ => ?_); rotate_left; try clear_value zz; revert zz; intros; rotate_right; dsimp -zeta only [zz]; clear zz)
      | (extract_lets +onlyGivenNames zz; try clear_value zz; revert zz; intros)
      | split
      | refine Only.upd ?_ rfl rfl

theorem execRedTimeout_only (g : Sys2Proof.Group) (node : Sys2Proof.NodeIx) (round : Nat) (chunk : Nat) (s : State) {sz : State}
    (h : execRedTimeout g node round chunk s = .next sz) : Only [.regs_, .ctrs_, .tiles_, .redIn_, .redStage_, .redRun_, .redOpen_, .cues_, .ports_, .reqs_, .loom_, .ctxs_, .fns_, .hostReads_, .fwGot_, .fwHeld_, .sec_, .fw_, .inc_, .out_] s sz := by
    unfold execRedTimeout at h
    cases h
    repeat' first
      | with_reducible exact Only.refl _ _
      | with_reducible apply State.redFail_only
      | with_reducible apply State.raise_only
      | with_reducible apply Only.ite
      | refine Fld.yes rfl
      | (extract_lets +onlyGivenNames zz; try clear_value zz; revert zz; intros)
      | split

theorem execBridgeFlitReceive_only (br : Sys2Proof.Bridge) (stop : Fin 4) (flit : Sys2Proof.Flit) (crcOk : Bool) (s : State) {sz : State}
    (h : execBridgeFlitReceive br stop flit crcOk s = .next sz) : Only [.ledgers_, .bridges_, .out_] s sz := by
    unfold execBridgeFlitReceive at h
    cases h
    repeat' first
      | with_reducible exact Only.refl _ _
      | with_reducible apply State.setBridge_only
      | with_reducible apply State.setMeshLedger_only
      | with_reducible apply State.bridgeOut_only
      | with_reducible apply Only.ite
      | refine Fld.yes rfl
      | (extract_lets +onlyGivenNames zz; try clear_value zz; revert zz; intros)
      | split

theorem execBrgRetrain_only (br : Sys2Proof.Bridge) (stop : Fin 4) (s : State) {sz : State}
    (h : execBrgRetrain br stop s = .next sz) : Only [.bridges_] s sz := by
    unfold execBrgRetrain at h
    cases h
    repeat' first
      | with_reducible exact Only.refl _ _
      | with_reducible apply State.setBridge_only
      | with_reducible apply Only.ite
      | refine Fld.yes rfl

theorem execBridgeRetrainEnd_only (br : Sys2Proof.Bridge) (stop : Fin 4) (ok : Bool) (occupied : List Sys2Proof.BridgeOcc) (ns : Nat) (s : State) {sz : State}
    (h : execBridgeRetrainEnd br stop ok occupied ns s = .next sz) : Only [.regs_, .ctrs_, .tiles_, .ledgers_, .bridges_, .cues_, .reqs_, .loom_, .ctxs_, .fns_, .hostReads_, .fwGot_, .fwHeld_, .sec_, .fw_, .inc_, .out_] s sz := by
    unfold execBridgeRetrainEnd at h
    cases h
    repeat' first
      | with_reducible exact Only.refl _ _
      | with_reducible apply State.raise_only
      | with_reducible apply State.report_only
      | with_reducible apply State.setBridge_only
      | with_reducible apply State.bridgeTickets_only
      | with_reducible apply Only.ite
      | refine Fld.yes rfl

theorem execLedgerAudit_only (l : Sys2Proof.LedgerId) (s : State) {sz : State}
    (h : execLedgerAudit l s = .next sz) : Only [.regs_, .ctrs_, .tiles_, .audited_, .auditFirst_, .cues_, .ports_, .reqs_, .loom_, .ctxs_, .fns_, .hostReads_, .fwGot_, .fwHeld_, .sec_, .fw_, .inc_, .out_] s sz := by
  unfold execLedgerAudit at h
  cases h
  split
  · exact Only.refl _ _
  cases l <;> dsimp only <;> (repeat' split)
  all_goals first
    | exact Only.refl _ _
    | exact State.noteAudit_only (State.consCheck_only (Only.refl _ _) (by decide)) (by decide)
    | exact State.noteAudit_only (State.sendAudit_only (Only.refl _ _) (by decide)) (by decide)
    | exact State.noteAudit_only (State.auditMesh_only (Only.refl _ _) (by decide)) (by decide)

theorem execAuditLate_only (l : Sys2Proof.LedgerId) (s : State) {sz : State}
    (h : execAuditLate l s = .next sz) : Only [.regs_, .ctrs_, .auditFirst_, .inc_] s sz := by
    unfold execAuditLate at h
    cases h
    repeat' first
      | with_reducible exact Only.refl _ _
      | with_reducible apply State.report_only
      | with_reducible apply Only.ite
      | refine Fld.yes rfl
      | (extract_lets +onlyGivenNames zz; try clear_value zz; revert zz; intros)
      | refine Only.upd ?_ rfl rfl

end Sys2Proof.Machine
end

