-- ==== Sys2Proof/Laws/FramePktOps.lean ====
section
/-! SUPPORT. Which fields of the state each operation of Sys2Proof/Machine/PktOps.lean can change. -/

namespace Sys2Proof.Machine

set_option linter.all false
set_option Elab.async false

/-- Fields that operations of this file change. -/
def Fld.ofPktOps1 : List Fld :=
  [.regs_, .ctrs_, .tiles_, .redIn_, .redStage_, .redRun_, .mcFlits_, .hbm_, .cxl_, .metaCache_, .sideArea_, .inv_,
   .cues_, .ports_, .sess_, .reqs_, .nextTag_, .loom_, .ctxs_, .fns_, .hostReads_, .pfWalks_, .fwGot_, .fwHeld_,
   .sec_, .fw_, .inc_, .twin_, .freeCtr_, .out_]

theorem State.ackWrite_only {fl : List Fld} {sa s : State} {kind : Nat} {h : Sys2Proof.PktHdr} {rval : Nat} {data : List Sys2Proof.Byte}
    (hk : Only fl sa s) (hsub : Fld.sub [.regs_, .ctrs_, .tiles_, .cues_, .ports_, .sess_, .reqs_, .loom_, .ctxs_, .fns_, .hostReads_, .fwGot_, .fwHeld_, .sec_, .fw_, .inc_, .twin_, .out_] fl = true) : Only fl sa (State.ackWrite s kind h rval data) := by
    refine Only.seq (l := [.regs_, .ctrs_, .tiles_, .cues_, .ports_, .sess_, .reqs_, .loom_, .ctxs_, .fns_, .hostReads_, .fwGot_, .fwHeld_, .sec_, .fw_, .inc_, .twin_, .out_]) hk ?_ hsub
    clear hk hsub
    unfold State.ackWrite
    repeat' first
      | with_reducible exact Only.refl _ _
      | with_reducible apply State.sendRsp_only
      | with_reducible apply Only.ite
      | refine Fld.yes rfl
      | (extract_lets +onlyGivenNames zz; try clear_value zz; revert zz; intros)
      | split
      | refine Only.upd ?_ rfl rfl

theorem State.endReq_only {fl : List Fld} {sa s : State} {h : PktHdr} {kinds : List Nat} {good : State → CrReq → State}
    (hk : Only fl sa s) (hsub : Fld.sub Fld.ofPktOps1 fl = true)
    (hg : ∀ r, Only fl sa (good s r)) : Only fl sa (s.endReq h kinds good) := by
  unfold State.endReq
  repeat' first
    | assumption
    | with_reducible apply hg
    | with_reducible apply State.ownerGo_only
    | with_reducible apply State.finishReq_only
    | with_reducible apply State.reqFail_only
    | exact Fld.sub_trans (by decide) hsub
    | dsimp only
    | split

theorem State.freeCells_only {fl : List Fld} {sa s : State} {p : Nat} {h : Sys2Proof.PktHdr} {ext : Bool}
    (hk : Only fl sa s) (hsub : Fld.sub [.ctrs_, .ports_, .out_] fl = true) : Only fl sa (State.freeCells s p h ext) := by
    refine Only.seq (l := [.ctrs_, .ports_, .out_]) hk ?_ hsub
    clear hk hsub
    unfold State.freeCells
    repeat' first
      | with_reducible exact Only.refl _ _
      | with_reducible apply State.returnCells_only
      | refine Fld.yes rfl

theorem State.holdReq_only {fl : List Fld} {sa s : State} {h : Sys2Proof.PktHdr}
    (hk : Only fl sa s) (hsub : Fld.sub [.sess_] fl = true) : Only fl sa (State.holdReq s h) := by
    refine Only.seq (l := [.sess_]) hk ?_ hsub
    clear hk hsub
    unfold State.holdReq
    repeat' first
      | with_reducible exact Only.refl _ _
      | with_reducible apply State.updSess_only
      | refine Fld.yes rfl

theorem State.pktUe_only {fl : List Fld} {sa s : State} {h : Sys2Proof.PktHdr} {st : Nat}
    (hk : Only fl sa s) (hsub : Fld.sub [.regs_, .ctrs_, .tiles_, .cues_, .reqs_, .loom_, .ctxs_, .fns_, .hostReads_, .fwGot_, .fwHeld_, .sec_, .fw_, .inc_, .out_] fl = true) : Only fl sa (State.pktUe s h st) := by
    refine Only.seq (l := [.regs_, .ctrs_, .tiles_, .cues_, .reqs_, .loom_, .ctxs_, .fns_, .hostReads_, .fwGot_, .fwHeld_, .sec_, .fw_, .inc_, .out_]) hk ?_ hsub
    clear hk hsub
    unfold State.pktUe
    repeat' first
      | with_reducible exact Only.refl _ _
      | with_reducible apply State.raiseUe_only
      | with_reducible apply Only.ite
      | refine Fld.yes rfl

theorem State.refuseReq_only {fl : List Fld} {sa s : State} {kind : Nat} {h : Sys2Proof.PktHdr} {rval : Nat} {st : Nat}
    (hk : Only fl sa s) (hsub : Fld.sub [.regs_, .ctrs_, .tiles_, .cues_, .ports_, .sess_, .reqs_, .loom_, .ctxs_, .fns_, .hostReads_, .fwGot_, .fwHeld_, .sec_, .fw_, .inc_, .out_] fl = true) : Only fl sa (State.refuseReq s kind h rval st) := by
    refine Only.seq (l := [.regs_, .ctrs_, .tiles_, .cues_, .ports_, .sess_, .reqs_, .loom_, .ctxs_, .fns_, .hostReads_, .fwGot_, .fwHeld_, .sec_, .fw_, .inc_, .out_]) hk ?_ hsub
    clear hk hsub
    unfold State.refuseReq
    repeat' first
      | with_reducible exact Only.refl _ _
      | with_reducible apply State.pktUe_only
      | with_reducible apply State.sendRsp_only
      | refine Fld.yes rfl

theorem State.rxSess_only {fl : List Fld} {sa s : State} {p : Nat} {h : Sys2Proof.PktHdr} {ext : Option (List Sys2Proof.Byte)} {data : List Sys2Proof.Byte} {tag : Sys2Proof.GcmTag} {x : Sess}
    (hk : Only fl sa s) (hsub : Fld.sub [.regs_, .ctrs_, .tiles_, .cues_, .sess_, .reqs_, .loom_, .ctxs_, .fns_, .hostReads_, .fwGot_, .fwHeld_, .sec_, .fw_, .inc_, .out_] fl = true) : Only fl sa (State.rxSess s p h ext data tag x).1 := by
    refine Only.seq (l := [.regs_, .ctrs_, .tiles_, .cues_, .sess_, .reqs_, .loom_, .ctxs_, .fns_, .hostReads_, .fwGot_, .fwHeld_, .sec_, .fw_, .inc_, .out_]) hk ?_ hsub
    clear hk hsub
    unfold State.rxSess
    repeat' first
      | with_reducible exact Only.refl _ _
      | with_reducible apply State.setSess_only
      | with_reducible apply State.raise_only
      | refine Fld.yes rfl
      | (extract_lets +onlyGivenNames zz; try clear_value zz; revert zz; intros)
      | split

theorem State.rxCheck_only {fl : List Fld} {sa s : State} {p : Nat} {h : Sys2Proof.PktHdr} {ext : Option (List Sys2Proof.Byte)} {data : List Sys2Proof.Byte} {tag : Sys2Proof.GcmTag}
    (hk : Only fl sa s) (hsub : Fld.sub [.regs_, .ctrs_, .tiles_, .cues_, .sess_, .reqs_, .loom_, .ctxs_, .fns_, .hostReads_, .fwGot_, .fwHeld_, .sec_, .fw_, .inc_, .out_] fl = true) : Only fl sa (State.rxCheck s p h ext data tag).1 := by
    refine Only.seq (l := [.regs_, .ctrs_, .tiles_, .cues_, .sess_, .reqs_, .loom_, .ctxs_, .fns_, .hostReads_, .fwGot_, .fwHeld_, .sec_, .fw_, .inc_, .out_]) hk ?_ hsub
    clear hk hsub
    unfold State.rxCheck
    repeat' first
      | with_reducible exact Only.refl _ _
      | with_reducible apply State.rxSess_only
      | with_reducible apply State.report_only
      | refine Fld.yes rfl
      | split

theorem State.unholdReq_only {fl : List Fld} {sa s : State} {h : Sys2Proof.PktHdr}
    (hk : Only fl sa s) (hsub : Fld.sub [.sess_] fl = true) : Only fl sa (State.unholdReq s h) := by
    refine Only.seq (l := [.sess_]) hk ?_ hsub
    clear hk hsub
    unfold State.unholdReq
    repeat' first
      | with_reducible exact Only.refl _ _
      | with_reducible apply State.updSess_only
      | refine Fld.yes rfl

theorem State.serve__only {fl : List Fld} {sa s : State} {p : Nat} {h : Sys2Proof.PktHdr} {ext : Option (List Sys2Proof.Byte)}
    {data : List Sys2Proof.Byte} {tag : Sys2Proof.GcmTag} {status : State → RxPkt → Option Nat} {good : State → RxPkt → State}
    {bad : State → Nat → State} (hk : Only fl sa s) (hsub : Fld.sub [.regs_, .ctrs_, .tiles_, .cues_, .ports_, .sess_, .reqs_, .loom_, .ctxs_, .fns_, .hostReads_, .fwGot_, .fwHeld_, .sec_, .fw_, .inc_, .out_] fl = true)
    (hg : ∀ t x, Only fl sa t → Only fl sa (good t x)) (hb : ∀ t n, Only fl sa t → Only fl sa (bad t n)) :
    Only fl sa (s.serve_ p h ext data tag status good bad) := by
  have hc : Only fl sa ((s.freeCells p h ext.isSome).rxCheck p h ext data tag).1 :=
    State.rxCheck_only (State.freeCells_only hk (Fld.sub_trans (by decide) hsub)) (Fld.sub_trans (by decide) hsub)
  unfold State.serve_
  dsimp only
  split
  · exact hc
  · split
    · exact State.holdReq_only hk (Fld.sub_trans (by decide) hsub)
    · split
      · exact State.holdReq_only hk (Fld.sub_trans (by decide) hsub)
      · exact hg _ _ (State.unholdReq_only hc (Fld.sub_trans (by decide) hsub))
      · exact hb _ _ (State.unholdReq_only hc (Fld.sub_trans (by decide) hsub))

theorem State.takeRsp_only {fl : List Fld} {sa s : State} {p : Nat} {h : Sys2Proof.PktHdr} {data : List Sys2Proof.Byte}
    {tag : Sys2Proof.GcmTag} {kind : Nat} {act : State → RxPkt → State} (hk : Only fl sa s) (hsub : Fld.sub [.regs_, .ctrs_, .tiles_, .cues_, .ports_, .sess_, .reqs_, .loom_, .ctxs_, .fns_, .hostReads_, .fwGot_, .fwHeld_, .sec_, .fw_, .inc_, .out_] fl = true)
    (ha : ∀ t x, Only fl sa t → Only fl sa (act t x)) : Only fl sa (s.takeRsp p h data tag kind act) := by
  have hc : Only fl sa ((s.freeCells p h false).rxCheck p h none data tag).1 :=
    State.rxCheck_only (State.freeCells_only hk (Fld.sub_trans (by decide) hsub)) (Fld.sub_trans (by decide) hsub)
  unfold State.takeRsp
  dsimp only
  split
  · exact hk
  · split
    · exact hc
    · split
      · exact ha _ _ hc
      · exact hc

end Sys2Proof.Machine
end

