-- ==== Sys2Proof/Laws/FramePackets.lean ====
section
/-! SUPPORT. Which fields of the state each operation of Sys2Proof/Machine/Packets.lean can change. -/

namespace Sys2Proof.Machine

set_option linter.all false
set_option Elab.async false

/-- Fields that operations of this file change. -/
def Fld.ofPackets1 : List Fld :=
  [.regs_, .ctrs_, .tiles_, .hbm_, .cxl_, .hbmUe_, .metaCache_, .sideArea_, .cues_, .ports_, .sess_, .sessIn_,
   .reqs_, .nextTag_, .loom_, .queues_, .fences_, .objs_, .freed_, .ctxs_, .fns_, .hostReads_, .fwGot_, .fwHeld_,
   .power_, .sec_, .fw_, .inc_, .twin_, .freeCtr_, .out_]

/-- Fields that operations of this file change. -/
def Fld.ofPackets2 : List Fld :=
  [.regs_, .ctrs_, .tiles_, .hbm_, .cxl_, .hbmUe_, .metaCache_, .sideArea_, .cues_, .ports_, .sess_, .sessIn_,
   .reqs_, .nextTag_, .loom_, .queues_, .fences_, .objs_, .freed_, .ctxs_, .fns_, .hostReads_, .fwGot_, .fwHeld_,
   .power_, .sec_, .fw_, .inc_, .twin_, .out_]

/-- Fields that operations of this file change. -/
def Fld.ofPackets3 : List Fld :=
  [.regs_, .ctrs_, .tiles_, .redIn_, .redStage_, .redRun_, .mcFlits_, .hbm_, .cxl_, .metaCache_, .sideArea_, .inv_,
   .cues_, .ports_, .sess_, .reqs_, .nextTag_, .loom_, .ctxs_, .fns_, .hostReads_, .pfWalks_, .fwGot_, .fwHeld_,
   .sec_, .fw_, .inc_, .twin_, .freeCtr_, .out_]

theorem State.crossFlits_only {fl : List Fld} {sa s t : State} {a : Nat × Nat} {f : Flit} {n : Nat}
    (h : s.crossFlits a f n = some t) (hk : Only fl sa s) (hsub : Fld.sub [.ledgers_, .out_] fl = true) : Only fl sa t := by
  induction n generalizing s with
  | zero =>
    unfold State.crossFlits at h
    cases h
    exact hk
  | succ n ih =>
    unfold State.crossFlits at h
    split at h
    · cases h
    · exact ih h (State.flitOut_only (State.setMeshLedger_only hk (Fld.sub_trans (by decide) hsub)) (Fld.sub_trans (by decide) hsub))

theorem State.crossMesh_only {fl : List Fld} {sa s t : State} {p q : Nat} {h : Sys2Proof.PktHdr} {ext : Bool}
    (hm : s.crossMesh p q h ext = some t) (hk : Only fl sa s) (hsub : Fld.sub [.ledgers_, .out_] fl = true) : Only fl sa t := by
  unfold State.crossMesh at hm
  split at hm
  · cases hm
    exact hk
  · exact State.crossFlits_only hm hk hsub

theorem State.closedBy_only {fl : List Fld} {sa s : State} {b : Nat} {cause : Nat}
    (hk : Only fl sa s) (hsub : Fld.sub [.regs_, .tiles_, .cues_, .reqs_, .loom_, .ctxs_, .fns_, .hostReads_, .fwGot_, .fwHeld_, .sec_, .fw_, .out_] fl = true) : Only fl sa (State.closedBy s b cause) := by
    refine Only.seq (l := [.regs_, .tiles_, .cues_, .reqs_, .loom_, .ctxs_, .fns_, .hostReads_, .fwGot_, .fwHeld_, .sec_, .fw_, .out_]) hk ?_ hsub
    clear hk hsub
    unfold State.closedBy
    repeat' first
      | with_reducible exact Only.refl _ _
      | with_reducible apply State.boltStop_only
      | with_reducible apply Only.ite
      | refine Fld.yes rfl

theorem State.owe_only {fl : List Fld} {sa s : State} {h : Sys2Proof.PktHdr} {n : Nat}
    (hk : Only fl sa s) (hsub : Fld.sub [.sess_] fl = true) : Only fl sa (State.owe s h n) := by
    refine Only.seq (l := [.sess_]) hk ?_ hsub
    clear hk hsub
    unfold State.owe
    repeat' first
      | with_reducible exact Only.refl _ _
      | with_reducible apply State.updSess_only
      | refine Fld.yes rfl

theorem State.setupFragment_only {fl : List Fld} {sa s : State} {p : Nat} {h : Sys2Proof.PktHdr} {data : List Sys2Proof.Byte} {sigOk : Bool}
    (hk : Only fl sa s) (hsub : Fld.sub Fld.ofPackets1 fl = true) : Only fl sa (State.setupFragment s p h data sigOk) := by
    refine Only.seq (l := Fld.ofPackets1) hk ?_ hsub
    clear hk hsub
    unfold State.setupFragment
    repeat' first
      | with_reducible exact Only.refl _ _
      | with_reducible apply State.keepFragment_only
      | with_reducible apply State.runSetup_only
      | with_reducible apply State.setupRsp_only
      | with_reducible apply State.freeCells_only
      | with_reducible apply Only.ite
      | refine Fld.yes rfl

theorem State.shootAcked_only {fl : List Fld} {sa s : State} {n : Nat} {seq : Nat} {m : Nat}
    (hk : Only fl sa s) (hsub : Fld.sub [.inv_] fl = true) : Only fl sa (State.shootAcked s n seq m) := by
    refine Only.seq (l := [.inv_]) hk ?_ hsub
    clear hk hsub
    unfold State.shootAcked
    repeat' first
      | with_reducible exact Only.refl _ _
      | with_reducible apply Only.ite
      | (extract_lets +onlyGivenNames zz; try clear_value zz; revert zz; intros)
      | split
      | refine Only.upd ?_ rfl rfl

theorem execLd_only (p : Sys2Proof.Port) (h : Sys2Proof.PktHdr) (tag : Sys2Proof.GcmTag) (s : State) {sz : State}
    (h : execLd p h tag s = .next sz) : Only [.regs_, .ctrs_, .tiles_, .metaCache_, .sideArea_, .cues_, .ports_, .sess_, .reqs_, .loom_, .ctxs_, .fns_, .hostReads_, .fwGot_, .fwHeld_, .sec_, .fw_, .inc_, .out_] s sz := by
    unfold execLd at h
    cases h
    repeat' first
      | with_reducible exact Only.refl _ _
      | with_reducible assumption
      | with_reducible apply State.refuseReq_only
      | with_reducible apply State.readMeta_only
      | with_reducible apply State.sendRsp_only
      | with_reducible apply State.serve__only
      | with_reducible apply Only.ite
      | intro _ _ _
      | refine Fld.yes rfl

theorem execSt_only (p : Sys2Proof.Port) (h : Sys2Proof.PktHdr) (data : List Sys2Proof.Byte) (tag : Sys2Proof.GcmTag) (s : State) {sz : State}
    (h : execSt p h data tag s = .next sz) : Only [.regs_, .ctrs_, .tiles_, .hbm_, .cxl_, .hbmUe_, .metaCache_, .sideArea_, .cues_, .ports_, .sess_, .reqs_, .nextTag_, .loom_, .ctxs_, .fns_, .hostReads_, .fwGot_, .fwHeld_, .sec_, .fw_, .inc_, .twin_, .out_] s sz := by
    unfold execSt at h
    cases h
    repeat' first
      | with_reducible exact Only.refl _ _
      | with_reducible assumption
      | with_reducible apply State.refuseReq_only
      | with_reducible apply State.poke_only
      | with_reducible apply State.ackWrite_only
      | with_reducible apply State.serve__only
      | with_reducible apply Only.ite
      | intro _ _ _
      | refine Fld.yes rfl

theorem execBulkWr_only (p : Sys2Proof.Port) (h : Sys2Proof.PktHdr) (data : List Sys2Proof.Byte) (tag : Sys2Proof.GcmTag) (s : State) {sz : State}
    (h : execBulkWr p h data tag s = .next sz) : Only [.regs_, .ctrs_, .tiles_, .hbm_, .cxl_, .hbmUe_, .metaCache_, .sideArea_, .cues_, .ports_, .sess_, .reqs_, .nextTag_, .loom_, .ctxs_, .fns_, .hostReads_, .fwGot_, .fwHeld_, .sec_, .fw_, .inc_, .twin_, .out_] s sz := by
    unfold execBulkWr at h
    cases h
    repeat' first
      | with_reducible exact Only.refl _ _
      | with_reducible assumption
      | with_reducible apply State.refuseReq_only
      | with_reducible apply State.owe_only
      | with_reducible apply State.ackWrite_only
      | with_reducible apply State.poke_only
      | with_reducible apply State.serve__only
      | with_reducible apply Only.ite
      | intro _ _ _
      | refine Fld.yes rfl

theorem execAtom_only (p : Sys2Proof.Port) (h : Sys2Proof.PktHdr) (extLo : BitVec 128) (extHi : BitVec 128) (tag : Sys2Proof.GcmTag) (s : State) {sz : State}
    (h : execAtom p h extLo extHi tag s = .next sz) : Only [.regs_, .ctrs_, .tiles_, .hbm_, .cxl_, .hbmUe_, .metaCache_, .sideArea_, .cues_, .ports_, .sess_, .reqs_, .nextTag_, .loom_, .ctxs_, .fns_, .hostReads_, .fwGot_, .fwHeld_, .sec_, .fw_, .inc_, .twin_, .out_] s sz := by
    unfold execAtom at h
    cases h
    repeat' first
      | with_reducible exact Only.refl _ _
      | with_reducible assumption
      | with_reducible apply State.refuseReq_only
      | with_reducible apply State.poke_only
      | with_reducible apply State.ackWrite_only
      | with_reducible apply State.serve__only
      | with_reducible apply Only.ite
      | intro _ _ _
      | refine Fld.yes rfl

theorem execSem_only (p : Sys2Proof.Port) (h : Sys2Proof.PktHdr) (tag : Sys2Proof.GcmTag) (s : State) {sz : State}
    (h : execSem p h tag s = .next sz) : Only [.regs_, .ctrs_, .tiles_, .cues_, .ports_, .sess_, .reqs_, .loom_, .ctxs_, .fns_, .hostReads_, .fwGot_, .fwHeld_, .sec_, .fw_, .inc_, .out_] s sz := by
    unfold execSem at h
    cases h
    repeat' first
      | with_reducible exact Only.refl _ _
      | with_reducible assumption
      | with_reducible apply State.semAddAt_only
      | with_reducible apply State.sendRsp_only
      | with_reducible apply State.serve__only
      | with_reducible apply Only.ite
      | intro _ _ _
      | refine Fld.yes rfl
      | (extract_lets +onlyGivenNames zz; try clear_value zz; revert zz; intros)
      | split

theorem execCreustFence_only (p : Sys2Proof.Port) (h : Sys2Proof.PktHdr) (tag : Sys2Proof.GcmTag) (s : State) {sz : State}
    (h : execCreustFence p h tag s = .next sz) : Only [.regs_, .ctrs_, .tiles_, .cues_, .ports_, .sess_, .reqs_, .loom_, .ctxs_, .fns_, .hostReads_, .fwGot_, .fwHeld_, .sec_, .fw_, .inc_, .out_] s sz := by
    unfold execCreustFence at h
    cases h
    repeat' first
      | with_reducible exact Only.refl _ _
      | with_reducible assumption
      | with_reducible apply State.sendRsp_only
      | with_reducible apply State.serve__only
      | with_reducible apply Only.ite
      | intro _ _ _
      | refine Fld.yes rfl

theorem execRed_only (p : Sys2Proof.Port) (h : Sys2Proof.PktHdr) (data : List Sys2Proof.Byte) (tag : Sys2Proof.GcmTag) (s : State) {sz : State}
    (h : execRed p h data tag s = .next sz) : Only [.regs_, .ctrs_, .tiles_, .redIn_, .redStage_, .cues_, .ports_, .sess_, .reqs_, .loom_, .ctxs_, .fns_, .hostReads_, .fwGot_, .fwHeld_, .sec_, .fw_, .inc_, .out_] s sz := by
    unfold execRed at h
    cases h
    repeat' first
      | with_reducible exact Only.refl _ _
      | with_reducible assumption
      | with_reducible apply State.redRefill_only
      | with_reducible apply State.returnCells_only
      | with_reducible apply State.freeCells_only
      | with_reducible apply State.rxCheck_only
      | with_reducible apply Only.ite
      | refine Fld.yes rfl
      | (extract_lets +onlyGivenNames zz; refine Only.have_ (u := zz) ?_ (fun _ => ?_); rotate_left; try clear_value zz; revert zz; intros; rotate_right; dsimp -zeta only [zz]; clear zz)
      | (extract_lets +onlyGivenNames zz; refine Only.have_ (u := zz.1) ?_ (fun _ => ?_); rotate_left; try clear_value zz; revert zz; intros; rotate_right; dsimp -zeta only [zz]; clear zz)
      | (extract_lets +onlyGivenNames zz; try clear_value zz; revert zz; intros)
      | split
      | refine Only.upd ?_ rfl rfl

theorem execShoot_only (p : Sys2Proof.Port) (h : Sys2Proof.PktHdr) (tag : Sys2Proof.GcmTag) (s : State) {sz : State}
    (h : execShoot p h tag s = .next sz) : Only [.regs_, .ctrs_, .tiles_, .tcache_, .wcache_, .inv_, .cues_, .ports_, .sess_, .reqs_, .loom_, .ctxs_, .fns_, .hostReads_, .pfWalks_, .fwGot_, .fwHeld_, .sec_, .fw_, .inc_, .out_] s sz := by
    unfold execShoot at h
    cases h
    repeat' first
      | with_reducible exact Only.refl _ _
      | with_reducible assumption
      | with_reducible apply State.invRemove_only
      | with_reducible apply State.sendRsp_only
      | with_reducible apply State.freeCells_only
      | with_reducible apply State.rxCheck_only
      | with_reducible apply Only.ite
      | refine Fld.yes rfl
      | (extract_lets +onlyGivenNames zz; refine Only.have_ (u := zz) ?_ (fun _ => ?_); rotate_left; try clear_value zz; revert zz; intros; rotate_right; dsimp -zeta only [zz]; clear zz)
      | (extract_lets +onlyGivenNames zz; refine Only.have_ (u := zz.1) ?_ (fun _ => ?_); rotate_left; try clear_value zz; revert zz; intros; rotate_right; dsimp -zeta only [zz]; clear zz)
      | (extract_lets +onlyGivenNames zz; try clear_value zz; revert zz; intros)
      | split
      | refine Only.upd ?_ rfl rfl

theorem execSessOffer_only (p : Sys2Proof.Port) (h : Sys2Proof.PktHdr) (data : List Sys2Proof.Byte) (sigOk : Bool) (s : State) {sz : State}
    (h : execSessOffer p h data sigOk s = .next sz) : Only Fld.ofPackets1 s sz := by
    unfold execSessOffer at h
    cases h
    repeat' first
      | with_reducible exact Only.refl _ _
      | with_reducible apply State.setupFragment_only
      | with_reducible apply Only.ite
      | refine Fld.yes rfl

theorem execSessEncaps_only (p : Sys2Proof.Port) (f : Sys2Proof.SetupFragment) (s : State) {sz : State}
    (h : execSessEncaps p f s = .next sz) : Only Fld.ofPackets1 s sz := by
    unfold execSessEncaps at h
    cases h
    repeat' first
      | with_reducible exact Only.refl _ _
      | with_reducible apply State.setupFragment_only
      | with_reducible apply Only.ite
      | refine Fld.yes rfl

theorem execSessConfirm_only (p : Sys2Proof.Port) (h : Sys2Proof.PktHdr) (body : Sys2Proof.SealedBody) (s : State) {sz : State}
    (h : execSessConfirm p h body s = .next sz) : Only Fld.ofPackets2 s sz := by
    unfold execSessConfirm at h
    cases h
    repeat' first
      | with_reducible exact Only.refl _ _
      | with_reducible assumption
      | with_reducible apply State.setSess_only
      | with_reducible apply State.setupRsp_only
      | with_reducible apply State.setupFail_only
      | with_reducible apply State.freeCells_only
      | with_reducible apply State.rxCheck_only
      | with_reducible apply Only.ite
      | refine Fld.yes rfl
      | (extract_lets +onlyGivenNames zz; refine Only.have_ (u := zz) ?_ (fun _ => ?_); rotate_left; try clear_value zz; revert zz; intros; rotate_right; dsimp -zeta only [zz]; clear zz)
      | split

theorem execSessClose_only (p : Sys2Proof.Port) (h : Sys2Proof.PktHdr) (data : List Sys2Proof.Byte) (tag : Sys2Proof.GcmTag) (s : State) {sz : State}
    (h : execSessClose p h data tag s = .next sz) : Only [.regs_, .ctrs_, .tiles_, .cues_, .ports_, .sess_, .sessIn_, .reqs_, .loom_, .ctxs_, .fns_, .hostReads_, .fwGot_, .fwHeld_, .sec_, .fw_, .inc_, .out_] s sz := by
    unfold execSessClose at h
    cases h
    repeat' first
      | with_reducible exact Only.refl _ _
      | with_reducible assumption
      | with_reducible apply State.setupRsp_only
      | with_reducible apply State.dropMessages_only
      | with_reducible apply State.sendRsp_only
      | with_reducible apply State.dropSess_only
      | with_reducible apply State.closedBy_only
      | with_reducible apply State.rxCheck_only
      | with_reducible apply State.freeCells_only
      | with_reducible apply Only.ite
      | refine Fld.yes rfl
      | (extract_lets +onlyGivenNames zz; refine Only.have_ (u := zz) ?_ (fun _ => ?_); rotate_left; try clear_value zz; revert zz; intros; rotate_right; dsimp -zeta only [zz]; clear zz)
      | (extract_lets +onlyGivenNames zz; refine Only.have_ (u := zz.1) ?_ (fun _ => ?_); rotate_left; try clear_value zz; revert zz; intros; rotate_right; dsimp -zeta only [zz]; clear zz)
      | (extract_lets +onlyGivenNames zz; try clear_value zz; revert zz; intros)
      | split

theorem execSessionTimeout_only (ski : Sys2Proof.SessIx) (s : State) {sz : State}
    (h : execSessionTimeout ski s = .next sz) : Only Fld.ofPackets2 s sz := by
    unfold execSessionTimeout at h
    cases h
    repeat' first
      | with_reducible exact Only.refl _ _
      | with_reducible apply State.setupFail_only
      | with_reducible apply State.dropSess_only
      | with_reducible apply Only.ite
      | refine Fld.yes rfl
      | (extract_lets +onlyGivenNames zz; try clear_value zz; revert zz; intros)
      | split

theorem execRdData_only (p : Sys2Proof.Port) (h : Sys2Proof.PktHdr) (data : List Sys2Proof.Byte) (tag : Sys2Proof.GcmTag) (s : State) {sz : State}
    (h : execRdData p h data tag s = .next sz) : Only Fld.ofPackets3 s sz := by
    unfold execRdData at h
    cases h
    repeat' first
      | with_reducible exact Only.refl _ _
      | with_reducible assumption
      | with_reducible apply State.walkData_only
      | with_reducible apply State.fwArrive_only
      | with_reducible apply State.emit_only
      | with_reducible apply State.tensorData_only
      | with_reducible apply State.endReq_only
      | with_reducible apply State.takeRsp_only
      | intro _ _ _
      | refine Fld.yes rfl
      | (extract_lets +onlyGivenNames zz; try clear_value zz; revert zz; intros)
      | split
      | intro _

theorem execWrAck_only (p : Sys2Proof.Port) (h : Sys2Proof.PktHdr) (tag : Sys2Proof.GcmTag) (s : State) {sz : State}
    (h : execWrAck p h tag s = .next sz) : Only Fld.ofPackets3 s sz := by
    unfold execWrAck at h
    cases h
    repeat' first
      | with_reducible exact Only.refl _ _
      | with_reducible assumption
      | with_reducible apply State.fwArrive_only
      | with_reducible apply State.endReq_only
      | with_reducible apply State.takeRsp_only
      | with_reducible apply State.finishReq_only
      | with_reducible apply State.raise_only
      | with_reducible apply State.report_only
      | with_reducible apply State.freeCells_only
      | with_reducible apply Only.ite
      | intro _ _ _
      | refine Fld.yes rfl
      | (extract_lets +onlyGivenNames zz; refine Only.have_ (u := zz) ?_ (fun _ => ?_); rotate_left; try clear_value zz; revert zz; intros; rotate_right; dsimp -zeta only [zz]; clear zz)
      | (extract_lets +onlyGivenNames zz; try clear_value zz; revert zz; intros)
      | split
      | intro _
      | refine Only.upd ?_ rfl rfl

theorem execBulkAck_only (p : Sys2Proof.Port) (h : Sys2Proof.PktHdr) (tag : Sys2Proof.GcmTag) (s : State) {sz : State}
    (h : execBulkAck p h tag s = .next sz) : Only Fld.ofPackets3 s sz := by
    unfold execBulkAck at h
    cases h
    repeat' first
      | with_reducible exact Only.refl _ _
      | with_reducible assumption
      | with_reducible apply State.finishReq_only
      | with_reducible apply State.ownerGo_only
      | with_reducible apply State.reqFail_only
      | with_reducible apply State.takeRsp_only
      | with_reducible apply Only.ite
      | with_reducible apply Only.foldl
      | intro _ _ _
      | refine Fld.yes rfl

theorem execAtomRsp_only (p : Sys2Proof.Port) (h : Sys2Proof.PktHdr) (tag : Sys2Proof.GcmTag) (s : State) {sz : State}
    (h : execAtomRsp p h tag s = .next sz) : Only Fld.ofPackets3 s sz := by
    unfold execAtomRsp at h
    cases h
    repeat' first
      | with_reducible exact Only.refl _ _
      | with_reducible assumption
      | with_reducible apply State.endReq_only
      | with_reducible apply State.takeRsp_only
      | intro _ _ _
      | refine Fld.yes rfl
      | (extract_lets +onlyGivenNames zz; try clear_value zz; revert zz; intros)
      | intro _

theorem execFenceAck_only (p : Sys2Proof.Port) (h : Sys2Proof.PktHdr) (tag : Sys2Proof.GcmTag) (s : State) {sz : State}
    (h : execFenceAck p h tag s = .next sz) : Only Fld.ofPackets3 s sz := by
    unfold execFenceAck at h
    cases h
    repeat' first
      | with_reducible exact Only.refl _ _
      | with_reducible assumption
      | with_reducible apply State.endReq_only
      | with_reducible apply State.takeRsp_only
      | intro _ _ _
      | refine Fld.yes rfl
      | (extract_lets +onlyGivenNames zz; try clear_value zz; revert zz; intros)
      | intro _

theorem execSemAck_only (p : Sys2Proof.Port) (h : Sys2Proof.PktHdr) (tag : Sys2Proof.GcmTag) (s : State) {sz : State}
    (h : execSemAck p h tag s = .next sz) : Only Fld.ofPackets3 s sz := by
    unfold execSemAck at h
    cases h
    repeat' first
      | with_reducible exact Only.refl _ _
      | with_reducible assumption
      | with_reducible apply State.endReq_only
      | with_reducible apply State.takeRsp_only
      | intro _ _ _
      | refine Fld.yes rfl
      | (extract_lets +onlyGivenNames zz; try clear_value zz; revert zz; intros)
      | intro _

theorem execShootAck_only (p : Sys2Proof.Port) (h : Sys2Proof.PktHdr) (tag : Sys2Proof.GcmTag) (s : State) {sz : State}
    (h : execShootAck p h tag s = .next sz) : Only [.regs_, .ctrs_, .tiles_, .inv_, .cues_, .ports_, .sess_, .reqs_, .nextTag_, .loom_, .ctxs_, .fns_, .hostReads_, .fwGot_, .fwHeld_, .sec_, .fw_, .inc_, .twin_, .out_] s sz := by
    unfold execShootAck at h
    cases h
    repeat' first
      | with_reducible exact Only.refl _ _
      | with_reducible assumption
      | with_reducible apply State.shootAcked_only
      | with_reducible apply State.finishReq_only
      | with_reducible apply State.takeRsp_only
      | with_reducible apply Only.ite
      | intro _ _ _
      | refine Fld.yes rfl
      | (extract_lets +onlyGivenNames zz; try clear_value zz; revert zz; intros)
      | split

theorem execSessRsp_only (p : Sys2Proof.Port) (h : Sys2Proof.PktHdr) (tag : Sys2Proof.GcmTag) (s : State) {sz : State}
    (h : execSessRsp p h tag s = .next sz) : Only [.regs_, .ctrs_, .tiles_, .cues_, .ports_, .sess_, .reqs_, .nextTag_, .loom_, .ctxs_, .fns_, .hostReads_, .fwGot_, .fwHeld_, .sec_, .fw_, .inc_, .twin_, .out_] s sz := by
    unfold execSessRsp at h
    cases h
    repeat' first
      | with_reducible exact Only.refl _ _
      | with_reducible assumption
      | with_reducible apply State.dropSess_only
      | with_reducible apply State.rxSess_only
      | with_reducible apply State.finishReq_only
      | with_reducible apply State.rxCheck_only
      | with_reducible apply State.freeCells_only
      | with_reducible apply Only.ite
      | refine Fld.yes rfl
      | (extract_lets +onlyGivenNames zz; refine Only.have_ (u := zz) ?_ (fun _ => ?_); rotate_left; try clear_value zz; revert zz; intros; rotate_right; dsimp -zeta only [zz]; clear zz)
      | (extract_lets +onlyGivenNames zz; refine Only.have_ (u := zz.1) ?_ (fun _ => ?_); rotate_left; try clear_value zz; revert zz; intros; rotate_right; dsimp -zeta only [zz]; clear zz)
      | (extract_lets +onlyGivenNames zz; try clear_value zz; revert zz; intros)
      | split

theorem execTransitPacket_only (p : Sys2Proof.Port) (x : Sys2Proof.WholePkt) (s : State) {sz : State}
    (hz : execTransitPacket p x s = .next sz) : Only [.regs_, .ctrs_, .tiles_, .ledgers_, .cues_, .ports_, .sess_, .reqs_, .loom_, .ctxs_, .fns_, .hostReads_, .fwGot_, .fwHeld_, .sec_, .fw_, .inc_, .out_] s sz := by
  unfold execTransitPacket at hz
  cases hz
  extract_lets atom free g
  have hf : Only [.regs_, .ctrs_, .tiles_, .ledgers_, .cues_, .ports_, .sess_, .reqs_, .loom_, .ctxs_, .fns_, .hostReads_, .fwGot_, .fwHeld_, .sec_, .fw_, .inc_, .out_] s free := State.freeCells_only (Only.refl _ _) (by decide)
  clear_value free
  refine Only.ite (Only.refl _ _) ?_
  split
  · exact Only.refl _ _
  · refine Only.ite hf ?_
    split
    · exact State.raise_only hf (by decide)
    · split
      · exact Only.refl _ _
      · rename_i t ht
        exact State.sendPkt_only (State.crossMesh_only ht hf (by decide)) (by decide)

theorem execCrCplTimeout_only (tag : BitVec 16) (s : State) {sz : State}
    (h : execCrCplTimeout tag s = .next sz) : Only Fld.ofPackets3 s sz := by
    unfold execCrCplTimeout at h
    cases h
    repeat' first
      | with_reducible exact Only.refl _ _
      | with_reducible apply State.reqFail_only
      | with_reducible apply State.boltFail_only
      | with_reducible apply State.report_only
      | with_reducible apply Only.ite
      | refine Fld.yes rfl
      | split

theorem execCrStall_only (p : Sys2Proof.Port) (vl : Fin 9) (waiting : Nat) (s : State) {sz : State}
    (h : execCrStall p vl waiting s = .next sz) : Only [.regs_, .ctrs_, .ctxs_, .fns_, .inc_, .out_] s sz := by
    unfold execCrStall at h
    cases h
    repeat' first
      | with_reducible exact Only.refl _ _
      | with_reducible assumption
      | with_reducible apply State.report_only
      | with_reducible apply State.boltEvent_only
      | with_reducible apply State.voidSteps_only
      | with_reducible apply Only.ite
      | with_reducible apply Only.foldl
      | intro _ _ _
      | refine Fld.yes rfl

end Sys2Proof.Machine
end

