-- ==== Sys2Proof/Laws/FramePower.lean ====
section
/-! SUPPORT. Which fields of the state each operation of Sys2Proof/Machine/Power.lean can change. -/

namespace Sys2Proof.Machine

set_option linter.all false
set_option Elab.async false

theorem State.ceilingFell_only {fl : List Fld} {sa s : State} {p : Nat}
    (hk : Only fl sa s) (hsub : Fld.sub [.regs_, .ctrs_, .ctxs_, .fns_, .power_, .inc_, .out_] fl = true) : Only fl sa (State.ceilingFell s p) := by
    refine Only.seq (l := [.regs_, .ctrs_, .ctxs_, .fns_, .power_, .inc_, .out_]) hk ?_ hsub
    clear hk hsub
    unfold State.ceilingFell
    repeat' first
      | with_reducible exact Only.refl _ _
      | with_reducible apply State.setTarget_only
      | with_reducible apply Only.ite
      | refine Fld.yes rfl

theorem State.holdChanged_only {fl : List Fld} {sa s : State} {t : Nat}
    (hk : Only fl sa s) (hsub : Fld.sub [.redClk_] fl = true) : Only fl sa (State.holdChanged s t) := by
    refine Only.seq (l := [.redClk_]) hk ?_ hsub
    clear hk hsub
    unfold State.holdChanged
    repeat' first
      | with_reducible exact Only.refl _ _
      | with_reducible apply State.redTimers_only
      | refine Fld.yes rfl
      | split

theorem State.readTemp_only {fl : List Fld} {sa s : State} {p : Nat} {temp : Nat}
    (hk : Only fl sa s) (hsub : Fld.sub [.power_] fl = true) : Only fl sa (State.readTemp s p temp) := by
    refine Only.seq (l := [.power_]) hk ?_ hsub
    clear hk hsub
    unfold State.readTemp
    repeat' first
      | with_reducible exact Only.refl _ _
      | with_reducible apply State.setPanel_only
      | refine Fld.yes rfl

theorem State.refuseCap_only {fl : List Fld} {sa s : State} {asked : Nat} {st : Nat}
    (hk : Only fl sa s) (hsub : Fld.sub [.regs_, .ctrs_, .inc_] fl = true) : Only fl sa (State.refuseCap s asked st) := by
    refine Only.seq (l := [.regs_, .ctrs_, .inc_]) hk ?_ hsub
    clear hk hsub
    unfold State.refuseCap
    repeat' first
      | with_reducible exact Only.refl _ _
      | with_reducible apply State.orReg_only
      | with_reducible apply State.report_only
      | refine Fld.yes rfl

theorem execBudgetInterval_only (demand : List Sys2Proof.Demand) (s : State) {sz : State}
    (h : execBudgetInterval demand s = .next sz) : Only [.regs_, .ctrs_, .ctxs_, .fns_, .power_, .inc_, .freeCtr_, .out_] s sz := by
  unfold execBudgetInterval at h
  cases h
  split
  · exact Only.refl _ _
  · extract_lets d s1 u was p1 s2 floor spill s3 p3
    have h1 : Only [.regs_, .ctrs_, .ctxs_, .fns_, .power_, .inc_, .freeCtr_, .out_] s s1 := State.applyShares_only (State.draw_only (Only.refl _ _) (by decide)) (by decide)
    clear_value floor spill
    have h2 : Only [.regs_, .ctrs_, .ctxs_, .fns_, .power_, .inc_, .freeCtr_, .out_] s s2 := by
      clear_value p1 was s1 u d
      exact Only.upd h1 rfl rfl
    clear_value s2
    have h3 : Only [.regs_, .ctrs_, .ctxs_, .fns_, .power_, .inc_, .freeCtr_, .out_] s s3 := State.takeTurns_only h2 (by decide)
    clear_value p3 s3
    exact Only.upd h3 rfl rfl

theorem execOpStepDone_only (p : Sys2Proof.Panel) (s : State) {sz : State}
    (h : execOpStepDone p s = .next sz) : Only [.power_] s sz := by
    unfold execOpStepDone at h
    cases h
    repeat' first
      | with_reducible exact Only.refl _ _
      | with_reducible apply State.setPanel_only
      | with_reducible apply Only.ite
      | refine Fld.yes rfl

theorem execIntermissionFrame_only (p : Sys2Proof.Panel) (s : State) {sz : State}
    (h : execIntermissionFrame p s = .next sz) : Only [.regs_, .ctrs_, .tiles_, .redClk_, .power_, .inc_] s sz := by
    unfold execIntermissionFrame at h
    cases h
    repeat' first
      | with_reducible exact Only.refl _ _
      | with_reducible apply State.gatePanel_only
      | with_reducible apply State.beginDuty_only
      | with_reducible apply Only.ite
      | refine Fld.yes rfl

theorem execPaceWindow_only (p : Sys2Proof.Panel) (pace : Nat) (s : State) {sz : State}
    (h : execPaceWindow p pace s = .next sz) : Only [.regs_, .ctrs_, .ctxs_, .fns_, .power_, .inc_, .out_] s sz := by
    unfold execPaceWindow at h
    cases h
    repeat' first
      | with_reducible exact Only.refl _ _
      | with_reducible assumption
      | with_reducible apply State.voidSteps_only
      | with_reducible apply State.setPanel_only
      | with_reducible apply Only.ite
      | with_reducible apply Only.foldl
      | intro _ _ _
      | refine Fld.yes rfl

theorem execPwrOvercap_only (avg : Nat) (s : State) {sz : State}
    (h : execPwrOvercap avg s = .next sz) : Only [.regs_, .ctrs_, .tiles_, .cues_, .reqs_, .loom_, .ctxs_, .fns_, .hostReads_, .fwGot_, .fwHeld_, .power_, .sec_, .fw_, .inc_, .out_] s sz := by
    unfold execPwrOvercap at h
    cases h
    repeat' first
      | with_reducible exact Only.refl _ _
      | with_reducible apply State.raise_only
      | with_reducible apply State.orReg_only
      | with_reducible apply Only.ite
      | refine Fld.yes rfl
      | (extract_lets +onlyGivenNames zz; try clear_value zz; revert zz; intros)
      | refine Only.upd ?_ rfl rfl

theorem execPwrCap_only (ses : Sys2Proof.SessId) (watts : Nat) (s : State) {sz : State}
    (h : execPwrCap ses watts s = .next sz) : Only [.regs_, .ctrs_, .fw_, .inc_, .out_] s sz := by
    unfold execPwrCap at h
    cases h
    repeat' first
      | with_reducible exact Only.refl _ _
      | with_reducible assumption
      | with_reducible apply State.refuseCap_only
      | with_reducible apply State.setReg_only
      | with_reducible apply State.report_only
      | with_reducible apply State.message_only
      | refine Fld.yes rfl
      | (extract_lets +onlyGivenNames zz; try clear_value zz; revert zz; intros)
      | split

theorem execPwrOrder_only (ses : Sys2Proof.SessId) (first : BitVec 2) (second : BitVec 2) (third : BitVec 2) (s : State) {sz : State}
    (h : execPwrOrder ses first second third s = .next sz) : Only [.regs_, .ctrs_, .fw_, .inc_, .out_] s sz := by
    unfold execPwrOrder at h
    cases h
    repeat' first
      | with_reducible exact Only.refl _ _
      | with_reducible assumption
      | with_reducible apply State.refuseCap_only
      | with_reducible apply State.setReg_only
      | with_reducible apply State.message_only
      | refine Fld.yes rfl
      | (extract_lets +onlyGivenNames zz; try clear_value zz; revert zz; intros)
      | split

theorem execHoldAssert_only (t : Sys2Proof.Site) (s : State) {sz : State}
    (h : execHoldAssert t s = .next sz) : Only [.ctrs_, .tiles_, .redClk_] s sz := by
    unfold execHoldAssert at h
    cases h
    repeat' first
      | with_reducible exact Only.refl _ _
      | with_reducible apply State.updTile_only
      | with_reducible apply State.bump_only
      | with_reducible apply State.holdChanged_only
      | with_reducible apply Only.ite
      | refine Fld.yes rfl

theorem execHoldRelease_only (t : Sys2Proof.Site) (s : State) {sz : State}
    (h : execHoldRelease t s = .next sz) : Only [.ctrs_, .tiles_, .redClk_] s sz := by
    unfold execHoldRelease at h
    cases h
    repeat' first
      | with_reducible exact Only.refl _ _
      | with_reducible apply State.updTile_only
      | with_reducible apply State.bump_only
      | with_reducible apply State.holdChanged_only
      | with_reducible apply Only.ite
      | refine Fld.yes rfl

theorem execDroopLong_only (t : Sys2Proof.Site) (s : State) {sz : State}
    (h : execDroopLong t s = .next sz) : Only [.regs_, .ctrs_, .inc_] s sz := by
    unfold execDroopLong at h
    cases h
    repeat' first
      | with_reducible exact Only.refl _ _
      | with_reducible apply State.report_only
      | with_reducible apply Only.ite
      | refine Fld.yes rfl

theorem execDroopStorm_only (p : Sys2Proof.Panel) (frac : Nat) (s : State) {sz : State}
    (h : execDroopStorm p frac s = .next sz) : Only [.regs_, .ctrs_, .ctxs_, .fns_, .power_, .inc_, .out_] s sz := by
    unfold execDroopStorm at h
    cases h
    repeat' first
      | with_reducible exact Only.refl _ _
      | with_reducible apply State.setPanel_only
      | with_reducible apply State.ceilingFell_only
      | with_reducible apply State.report_only
      | with_reducible apply Only.ite
      | refine Fld.yes rfl

theorem execCeilingRestore_only (p : Sys2Proof.Panel) (s : State) {sz : State}
    (h : execCeilingRestore p s = .next sz) : Only [.power_] s sz := by
    unfold execCeilingRestore at h
    cases h
    repeat' first
      | with_reducible exact Only.refl _ _
      | with_reducible apply State.setPanel_only
      | with_reducible apply Only.ite
      | refine Fld.yes rfl
      | (extract_lets +onlyGivenNames zz; try clear_value zz; revert zz; intros)
      | split

theorem execThermWarn_only (die : Fin 5) (sensor : Fin 16) (temp : Nat) (s : State) {sz : State}
    (h : execThermWarn die sensor temp s = .next sz) : Only [.regs_, .ctrs_, .power_, .inc_] s sz := by
    unfold execThermWarn at h
    cases h
    repeat' first
      | with_reducible exact Only.refl _ _
      | with_reducible apply State.report_only
      | with_reducible apply Only.ite
      | refine Fld.yes rfl
      | (extract_lets +onlyGivenNames zz; try clear_value zz; revert zz; intros)
      | refine Only.upd ?_ rfl rfl

theorem execThermThrottle_only (p : Sys2Proof.Panel) (temp : Nat) (s : State) {sz : State}
    (h : execThermThrottle p temp s = .next sz) : Only [.regs_, .ctrs_, .ctxs_, .fns_, .power_, .inc_, .out_] s sz := by
    unfold execThermThrottle at h
    cases h
    repeat' first
      | with_reducible exact Only.refl _ _
      | with_reducible apply State.report_only
      | with_reducible apply State.setDuty_only
      | with_reducible apply State.ceilingFell_only
      | with_reducible apply State.setPanel_only
      | with_reducible apply State.readTemp_only
      | with_reducible apply Only.ite
      | refine Fld.yes rfl

theorem execThermHw_only (p : Sys2Proof.Panel) (temp : Nat) (s : State) {sz : State}
    (h : execThermHw p temp s = .next sz) : Only [.regs_, .ctrs_, .tiles_, .cues_, .reqs_, .loom_, .ctxs_, .fns_, .hostReads_, .fwGot_, .fwHeld_, .power_, .sec_, .fw_, .inc_, .out_] s sz := by
    unfold execThermHw at h
    cases h
    repeat' first
      | with_reducible exact Only.refl _ _
      | with_reducible apply State.orReg_only
      | with_reducible apply State.raise_only
      | with_reducible apply State.setTarget_only
      | with_reducible apply State.setDuty_only
      | with_reducible apply State.beginDuty_only
      | with_reducible apply State.setPanel_only
      | with_reducible apply State.readTemp_only
      | with_reducible apply Only.ite
      | refine Fld.yes rfl

theorem execThermTrip_only (die : Nat) (sensor : Nat) (temp : Nat) (s : State) {sz : State}
    (h : execThermTrip die sensor temp s = .next sz) : Only [.regs_, .ctrs_, .tiles_, .cues_, .reqs_, .loom_, .ctxs_, .fns_, .hostReads_, .fwGot_, .fwHeld_, .sec_, .fw_, .inc_, .pins_, .out_] s sz := by
    unfold execThermTrip at h
    cases h
    repeat' first
      | with_reducible exact Only.refl _ _
      | with_reducible apply State.raise_only
      | with_reducible apply Only.ite
      | refine Fld.yes rfl
      | (extract_lets +onlyGivenNames zz; try clear_value zz; revert zz; intros)
      | refine Only.upd ?_ rfl rfl

theorem execIntermissionSlot_only (p : Sys2Proof.Panel) (s : State) {sz : State}
    (h : execIntermissionSlot p s = .next sz) : Only [.tiles_, .redClk_] s sz := by
    unfold execIntermissionSlot at h
    cases h
    repeat' first
      | with_reducible exact Only.refl _ _
      | with_reducible apply State.gatePanel_only
      | with_reducible apply Only.ite
      | refine Fld.yes rfl

theorem execThermRecover_only (p : Sys2Proof.Panel) (temp : Nat) (s : State) {sz : State}
    (h : execThermRecover p temp s = .next sz) : Only [.power_] s sz := by
    unfold execThermRecover at h
    cases h
    repeat' first
      | with_reducible exact Only.refl _ _
      | with_reducible apply State.setPanel_only
      | with_reducible apply State.readTemp_only
      | with_reducible apply Only.ite
      | refine Fld.yes rfl

end Sys2Proof.Machine
end

