-- ==== Sys2Proof/Laws/FrameReads.lean ====
section
/-! SUPPORT. Which fields of the state each operation of Sys2Proof/Machine/Reads.lean can change. -/

namespace Sys2Proof.Machine

set_option linter.all false
set_option Elab.async false

theorem State.readHi_only {fl : List Fld} {sa s : State} {fn : Sys2Proof.Fn} {off : Nat} {o : Nat}
    (hk : Only fl sa s) (hsub : Fld.sub [.latch_, .out_] fl = true) : Only fl sa (State.readHi s fn off o) := by
    refine Only.seq (l := [.latch_, .out_]) hk ?_ hsub
    clear hk hsub
    unfold State.readHi
    repeat' first
      | with_reducible exact Only.refl _ _
      | with_reducible assumption
      | with_reducible apply State.emit_only
      | with_reducible apply Only.ite
      | refine Fld.yes rfl
      | (extract_lets +onlyGivenNames zz; refine Only.have_ (u := zz) ?_ (fun _ => ?_); rotate_left; try clear_value zz; revert zz; intros; rotate_right; dsimp -zeta only [zz]; clear zz)
      | (extract_lets +onlyGivenNames zz; try clear_value zz; revert zz; intros)
      | split
      | refine Only.upd ?_ rfl rfl

theorem State.readOne_only {fl : List Fld} {sa s : State} {fn : Sys2Proof.Fn} {off : Nat}
    (hk : Only fl sa s) (hsub : Fld.sub [.regs_, .vfErr_, .out_] fl = true) : Only fl sa (State.readOne s fn off) := by
    refine Only.seq (l := [.regs_, .vfErr_, .out_]) hk ?_ hsub
    clear hk hsub
    unfold State.readOne
    repeat' first
      | with_reducible exact Only.refl _ _
      | with_reducible assumption
      | with_reducible apply State.emit_only
      | with_reducible apply State.setErr_only
      | with_reducible apply Only.ite
      | refine Fld.yes rfl
      | (extract_lets +onlyGivenNames zz; refine Only.have_ (u := zz) ?_ (fun _ => ?_); rotate_left; try clear_value zz; revert zz; intros; rotate_right; dsimp -zeta only [zz]; clear zz)
      | split

theorem execPairLoRead_only (fn : Sys2Proof.Fn) (off : Nat) (wide : Bool) (s : State) {sz : State}
    (h : execPairLoRead fn off wide s = .next sz) : Only [.regs_, .vfErr_, .latch_, .out_] s sz := by
    unfold execPairLoRead at h
    cases h
    repeat' first
      | with_reducible exact Only.refl _ _
      | with_reducible apply State.readOne_only
      | with_reducible apply State.readHi_only
      | with_reducible apply State.setErr_only
      | with_reducible apply State.emit_only
      | with_reducible apply Only.ite
      | refine Fld.yes rfl
      | (extract_lets +onlyGivenNames zz; try clear_value zz; revert zz; intros)
      | split
      | refine Only.upd ?_ rfl rfl

theorem execPairLoWrite_only (fn : Sys2Proof.Fn) (off : Nat) (val : Sys2Proof.Word) (s : State) {sz : State}
    (h : execPairLoWrite fn off val s = .next sz) : Only [.regs_, .vfErr_, .loHeld_, .fw_] s sz := by
    unfold execPairLoWrite at h
    cases h
    repeat' first
      | with_reducible exact Only.refl _ _
      | with_reducible apply State.writeWord_only
      | with_reducible apply Only.ite
      | refine Fld.yes rfl
      | (extract_lets +onlyGivenNames zz; try clear_value zz; revert zz; intros)
      | split

end Sys2Proof.Machine
end

