-- ==== Sys2Proof/Laws/FrameSecurity.lean ====
section
/-! SUPPORT. Which fields of the state each operation of Sys2Proof/Machine/Security.lean can change. -/

namespace Sys2Proof.Machine

set_option linter.all false
set_option Elab.async false

/-- Fields that operations of this file change. -/
def Fld.ofSecurity1 : List Fld :=
  [.regs_, .vfErr_, .ctrs_, .tiles_, .hbm_, .cxl_, .chanCe_, .hbmUe_, .metaCache_, .sideArea_, .tcache_, .wcache_,
   .cues_, .ports_, .sess_, .reqs_, .nextTag_, .loom_, .ctxs_, .fns_, .hostReads_, .fwNeed_, .fwGot_, .fwHeld_,
   .sec_, .fw_, .inc_, .twin_, .pins_, .freeCtr_, .out_]

theorem State.moveAll_only {fl : List Fld} {sa s : State} {i : Nat}
    (hk : Only fl sa s) (hsub : Fld.sub [.metaCache_, .sideArea_, .sec_] fl = true) : Only fl sa (State.moveAll s i) := by
    refine Only.seq (l := [.metaCache_, .sideArea_, .sec_]) hk ?_ hsub
    clear hk hsub
    unfold State.moveAll
    repeat' first
      | with_reducible exact Only.refl _ _
      | with_reducible assumption
      | with_reducible apply State.setRegRun_only
      | with_reducible apply State.sealGroup_only
      | with_reducible apply Only.foldl
      | intro _ _ _
      | refine Fld.yes rfl
      | split

theorem execRegionInitDone_only (r : Sys2Proof.RegionIx) (s : State) {sz : State}
    (h : execRegionInitDone r s = .next sz) : Only [.sec_] s sz := by
    unfold execRegionInitDone at h
    cases h
    repeat' first
      | with_reducible exact Only.refl _ _
      | with_reducible apply State.setRegRun_only
      | with_reducible apply Only.ite
      | refine Fld.yes rfl

theorem execRekeyDone_only (r : Sys2Proof.RegionIx) (s : State) {sz : State}
    (h : execRekeyDone r s = .next sz) : Only [.regs_, .ctrs_, .metaCache_, .sideArea_, .sec_, .inc_] s sz := by
    unfold execRekeyDone at h
    cases h
    repeat' first
      | with_reducible exact Only.refl _ _
      | with_reducible apply State.report_only
      | with_reducible apply State.setRegRun_only
      | with_reducible apply State.moveAll_only
      | with_reducible apply Only.ite
      | refine Fld.yes rfl

theorem execSecRngFail_only (test : Nat) (s : State) {sz : State}
    (h : execSecRngFail test s = .next sz) : Only [.regs_, .ctrs_, .tiles_, .cues_, .reqs_, .loom_, .ctxs_, .fns_, .hostReads_, .fwGot_, .fwHeld_, .sec_, .fw_, .inc_, .out_] s sz := by
    unfold execSecRngFail at h
    cases h
    repeat' first
      | with_reducible exact Only.refl _ _
      | with_reducible apply State.raise_only
      | with_reducible apply Only.ite
      | refine Fld.yes rfl
      | (extract_lets +onlyGivenNames zz; try clear_value zz; revert zz; intros)
      | refine Only.upd ?_ rfl rfl

theorem execSecPbCtlGo_only (fn : Sys2Proof.Fn) (bltWin : Option Sys2Proof.Bolt) (val : Sys2Proof.Word) (s : State) {sz : State}
    (h : execSecPbCtlGo fn bltWin val s = .next sz) : Only [.regs_, .vfErr_, .sec_] s sz := by
    unfold execSecPbCtlGo at h
    cases h
    repeat' first
      | with_reducible exact Only.refl _ _
      | with_reducible apply State.setReg_only
      | with_reducible apply State.pbGo_only
      | with_reducible apply State.setErr_only
      | with_reducible apply Only.ite
      | refine Fld.yes rfl
      | (extract_lets +onlyGivenNames zz; try clear_value zz; revert zz; intros)
      | split

theorem execPlaybillSigned_only (writeOk : Bool) (s : State) {sz : State}
    (h : execPlaybillSigned writeOk s = .next sz) : Only [.regs_, .sec_, .fw_, .out_] s sz := by
    unfold execPlaybillSigned at h
    cases h
    repeat' first
      | with_reducible exact Only.refl _ _
      | with_reducible apply State.hostWrite_only
      | with_reducible apply State.setReg_only
      | with_reducible apply State.lateReply_only
      | with_reducible apply State.setBoothSess_only
      | with_reducible apply Only.ite
      | refine Fld.yes rfl
      | (extract_lets +onlyGivenNames zz; try clear_value zz; revert zz; intros)
      | split
      | refine Only.upd ?_ rfl rfl

theorem execDbgChal_only (path : Sys2Proof.DbgPath) (s : State) {sz : State}
    (h : execDbgChal path s = .next sz) : Only [.sec_, .freeCtr_, .out_] s sz := by
    unfold execDbgChal at h
    cases h
    repeat' first
      | with_reducible exact Only.refl _ _
      | with_reducible assumption
      | with_reducible apply State.emit_only
      | with_reducible apply State.draw_only
      | with_reducible apply Only.ite
      | refine Fld.yes rfl
      | (extract_lets +onlyGivenNames zz; refine Only.have_ (u := zz) ?_ (fun _ => ?_); rotate_left; try clear_value zz; revert zz; intros; rotate_right; dsimp -zeta only [zz]; clear zz)
      | (extract_lets +onlyGivenNames zz; try clear_value zz; revert zz; intros)
      | refine Only.upd ?_ rfl rfl

theorem execDbgResp_only (path : Sys2Proof.DbgPath) (grant : Nat) (sigOk : Bool) (s : State) {sz : State}
    (h : execDbgResp path grant sigOk s = .next sz) : Only [.regs_, .ctrs_, .sec_, .inc_] s sz := by
    unfold execDbgResp at h
    cases h
    repeat' first
      | with_reducible exact Only.refl _ _
      | with_reducible apply State.endGrant_only
      | with_reducible apply State.setGrant_only
      | with_reducible apply State.grantReport_only
      | with_reducible apply Only.ite
      | refine Fld.yes rfl
      | (extract_lets +onlyGivenNames zz; try clear_value zz; revert zz; intros)
      | split

theorem execDbgAccess_only (path : Sys2Proof.DbgPath) (req : BitVec 128) (ecc : Sys2Proof.Ecc) (s : State) {sz : State}
    (h : execDbgAccess path req ecc s = .next sz) : Only Fld.ofSecurity1 s sz := by
    unfold execDbgAccess at h
    cases h
    repeat' first
      | with_reducible exact Only.refl _ _
      | with_reducible apply State.dbgRun_only
      | with_reducible apply State.setErr_only
      | with_reducible apply Only.ite
      | refine Fld.yes rfl

theorem execGrantExpiry_only (grant : Fin 4) (s : State) {sz : State}
    (h : execGrantExpiry grant s = .next sz) : Only [.regs_, .ctrs_, .sec_, .inc_] s sz := by
    unfold execGrantExpiry at h
    cases h
    repeat' first
      | with_reducible exact Only.refl _ _
      | with_reducible apply State.endGrant_only
      | with_reducible apply Only.ite
      | refine Fld.yes rfl
      | split

theorem execJtagTrst_only (s : State) {sz : State}
    (h : execJtagTrst s = .next sz) : Only [.sec_, .pins_] s sz := by
    unfold execJtagTrst at h
    cases h
    repeat' first
      | with_reducible exact Only.refl _ _
      | with_reducible assumption
      | with_reducible apply State.endDebug_only
      | with_reducible apply Only.ite
      | refine Fld.yes rfl
      | (extract_lets +onlyGivenNames zz; refine Only.have_ (u := zz) ?_ (fun _ => ?_); rotate_left; try clear_value zz; revert zz; intros; rotate_right; dsimp -zeta only [zz]; clear zz)
      | (extract_lets +onlyGivenNames zz; try clear_value zz; revert zz; intros)
      | refine Only.upd ?_ rfl rfl

theorem execDbgGrant_only (ses : Sys2Proof.SessId) (g : Sys2Proof.GrantRec) (s : State) {sz : State}
    (h : execDbgGrant ses g s = .next sz) : Only [.regs_, .ctrs_, .sec_, .fw_, .inc_, .out_] s sz := by
    unfold execDbgGrant at h
    cases h
    repeat' first
      | with_reducible exact Only.refl _ _
      | with_reducible assumption
      | with_reducible apply State.setGrant_only
      | with_reducible apply State.grantReport_only
      | with_reducible apply State.message_only
      | refine Fld.yes rfl
      | (extract_lets +onlyGivenNames zz; try clear_value zz; revert zz; intros)
      | split

theorem execDbgRevoke_only (ses : Sys2Proof.SessId) (grant : Nat) (s : State) {sz : State}
    (h : execDbgRevoke ses grant s = .next sz) : Only [.regs_, .ctrs_, .sec_, .fw_, .inc_, .out_] s sz := by
    unfold execDbgRevoke at h
    cases h
    repeat' first
      | with_reducible exact Only.refl _ _
      | with_reducible assumption
      | with_reducible apply State.endGrant_only
      | with_reducible apply State.message_only
      | refine Fld.yes rfl
      | (extract_lets +onlyGivenNames zz; try clear_value zz; revert zz; intros)
      | dsimp -zeta only
      | split
      | intro _

theorem execPlaybill_only (ses : Sys2Proof.SessId) (kind : Bool) (b : Sys2Proof.Bolt) (nonce : BitVec 256) (s : State) {sz : State}
    (h : execPlaybill ses kind b nonce s = .next sz) : Only [.regs_, .ctrs_, .sec_, .fw_, .inc_, .out_] s sz := by
    unfold execPlaybill at h
    cases h
    repeat' first
      | with_reducible exact Only.refl _ _
      | with_reducible assumption
      | with_reducible apply State.pbQueue_only
      | with_reducible apply State.deferReply_only
      | with_reducible apply State.message_only
      | refine Fld.yes rfl
      | (extract_lets +onlyGivenNames zz; try clear_value zz; revert zz; intros)
      | split

theorem execTapInstructionLoad_only (code : Sys2Proof.Byte) (s : State) {sz : State}
    (h : execTapInstructionLoad code s = .next sz) : Only [.pins_] s sz := by
    unfold execTapInstructionLoad at h
    cases h
    repeat' first
      | with_reducible exact Only.refl _ _
      | with_reducible apply Only.ite
      | (extract_lets +onlyGivenNames zz; try clear_value zz; revert zz; intros)
      | refine Only.upd ?_ rfl rfl

end Sys2Proof.Machine
end

