-- ==== Sys2Proof/Laws/FrameServeOps.lean ====
section
/-! SUPPORT. Which fields of the state each operation of Sys2Proof/Machine/ServeOps.lean can change. -/

namespace Sys2Proof.Machine

set_option linter.all false
set_option Elab.async false

/-- Fields that operations of this file change. -/
def Fld.ofServeOps1 : List Fld :=
  [.regs_, .ctrs_, .tiles_, .hbm_, .cxl_, .hbmUe_, .metaCache_, .sideArea_, .tcache_, .wcache_, .cues_, .ports_,
   .sess_, .reqs_, .nextTag_, .loom_, .ctxs_, .fns_, .hostReads_, .fwNeed_, .fwGot_, .fwHeld_, .casts_, .serve_,
   .sec_, .fw_, .inc_, .twin_, .freeCtr_, .out_]

theorem State.srvRead_only {fl : List Fld} {sa s : State} {b : Nat} {va : Nat} {n : Nat}
    (hk : Only fl sa s) (hsub : Fld.sub [.ctrs_, .metaCache_, .sideArea_, .tcache_, .wcache_, .fwNeed_, .sec_, .freeCtr_] fl = true) : Only fl sa (State.srvRead s b va n).1 := by
    refine Only.seq (l := [.ctrs_, .metaCache_, .sideArea_, .tcache_, .wcache_, .fwNeed_, .sec_, .freeCtr_]) hk ?_ hsub
    clear hk hsub
    unfold State.srvRead
    repeat' first
      | with_reducible exact Only.refl _ _
      | with_reducible apply State.fwGather_only
      | refine Fld.yes rfl

theorem State.setPool_only {fl : List Fld} {sa s : State} {b : Nat} {p : Nat} {v : Pool}
    (hk : Only fl sa s) (hsub : Fld.sub [.serve_] fl = true) : Only fl sa (State.setPool s b p v) := by
    refine Only.seq (l := [.serve_]) hk ?_ hsub
    clear hk hsub
    unfold State.setPool
    repeat' first
      | with_reducible exact Only.refl _ _
      | with_reducible apply State.setServe_only
      | refine Fld.yes rfl

theorem State.popPage_only {fl : List Fld} {sa s : State} {b : Nat} {p : Nat}
    (hk : Only fl sa s) (hsub : Fld.sub [.ctrs_, .metaCache_, .sideArea_, .tcache_, .wcache_, .fwNeed_, .serve_, .sec_, .freeCtr_] fl = true) : Only fl sa (State.popPage s b p).1 := by
    refine Only.seq (l := [.ctrs_, .metaCache_, .sideArea_, .tcache_, .wcache_, .fwNeed_, .serve_, .sec_, .freeCtr_]) hk ?_ hsub
    clear hk hsub
    unfold State.popPage
    repeat' first
      | with_reducible exact Only.refl _ _
      | with_reducible assumption
      | with_reducible apply State.setPool_only
      | with_reducible apply State.srvRead_only
      | refine Fld.yes rfl
      | (extract_lets +onlyGivenNames zz; refine Only.have_ (u := zz.1) ?_ (fun _ => ?_); rotate_left; try clear_value zz; revert zz; intros; rotate_right; dsimp -zeta only [zz]; clear zz)
      | (extract_lets +onlyGivenNames zz; try clear_value zz; revert zz; intros)
      | split

theorem State.srvWrite_only {fl : List Fld} {sa s : State} {b : Nat} {va : Nat} {l : List Sys2Proof.Byte}
    (hk : Only fl sa s) (hsub : Fld.sub [.regs_, .ctrs_, .tiles_, .hbm_, .cxl_, .hbmUe_, .metaCache_, .sideArea_, .tcache_, .wcache_, .cues_, .reqs_, .nextTag_, .loom_, .ctxs_, .fns_, .hostReads_, .fwNeed_, .fwGot_, .fwHeld_, .sec_, .fw_, .inc_, .twin_, .freeCtr_, .out_] fl = true) : Only fl sa (State.srvWrite s b va l).1 := by
    refine Only.seq (l := [.regs_, .ctrs_, .tiles_, .hbm_, .cxl_, .hbmUe_, .metaCache_, .sideArea_, .tcache_, .wcache_, .cues_, .reqs_, .nextTag_, .loom_, .ctxs_, .fns_, .hostReads_, .fwNeed_, .fwGot_, .fwHeld_, .sec_, .fw_, .inc_, .twin_, .freeCtr_, .out_]) hk ?_ hsub
    clear hk hsub
    unfold State.srvWrite
    repeat' first
      | with_reducible exact Only.refl _ _
      | with_reducible apply State.fwScatter_only
      | refine Fld.yes rfl

theorem State.fillRow_only {fl : List Fld} {sa s : State} {b : Nat} {kv : Nat} {j : Nat} {p : Nat} {y5 : Nat} {y6 : List Nat}
    (hk : Only fl sa s) (hsub : Fld.sub [.regs_, .ctrs_, .tiles_, .hbm_, .cxl_, .hbmUe_, .metaCache_, .sideArea_, .tcache_, .wcache_, .cues_, .reqs_, .nextTag_, .loom_, .ctxs_, .fns_, .hostReads_, .fwNeed_, .fwGot_, .fwHeld_, .serve_, .sec_, .fw_, .inc_, .twin_, .freeCtr_, .out_] fl = true) : Only fl sa (State.fillRow s b kv j p y5 y6).1 := by
    refine Only.seq (l := [.regs_, .ctrs_, .tiles_, .hbm_, .cxl_, .hbmUe_, .metaCache_, .sideArea_, .tcache_, .wcache_, .cues_, .reqs_, .nextTag_, .loom_, .ctxs_, .fns_, .hostReads_, .fwNeed_, .fwGot_, .fwHeld_, .serve_, .sec_, .fw_, .inc_, .twin_, .freeCtr_, .out_]) hk ?_ hsub
    clear hk hsub
    fun_induction State.fillRow s b kv j p y5 y6
    all_goals
      repeat' first
        | with_reducible exact Only.refl _ _
        | with_reducible assumption
        | with_reducible apply State.srvWrite_only
        | with_reducible apply State.popPage_only
        | with_reducible refine Only.seq (l := [.regs_, .ctrs_, .tiles_, .hbm_, .cxl_, .hbmUe_, .metaCache_, .sideArea_, .tcache_, .wcache_, .cues_, .reqs_, .nextTag_, .loom_, .ctxs_, .fns_, .hostReads_, .fwNeed_, .fwGot_, .fwHeld_, .serve_, .sec_, .fw_, .inc_, .twin_, .freeCtr_, .out_]) ?_ (by assumption) rfl
        | refine Fld.yes rfl

theorem State.allocRows_only {fl : List Fld} {sa s : State} {b : Nat} {kv : Nat} {y3 : List (Nat × List Nat)} {y4 : List Nat}
    (hk : Only fl sa s) (hsub : Fld.sub [.regs_, .ctrs_, .tiles_, .hbm_, .cxl_, .hbmUe_, .metaCache_, .sideArea_, .tcache_, .wcache_, .cues_, .reqs_, .nextTag_, .loom_, .ctxs_, .fns_, .hostReads_, .fwNeed_, .fwGot_, .fwHeld_, .serve_, .sec_, .fw_, .inc_, .twin_, .freeCtr_, .out_] fl = true) : Only fl sa (State.allocRows s b kv y3 y4).1 := by
    refine Only.seq (l := [.regs_, .ctrs_, .tiles_, .hbm_, .cxl_, .hbmUe_, .metaCache_, .sideArea_, .tcache_, .wcache_, .cues_, .reqs_, .nextTag_, .loom_, .ctxs_, .fns_, .hostReads_, .fwNeed_, .fwGot_, .fwHeld_, .serve_, .sec_, .fw_, .inc_, .twin_, .freeCtr_, .out_]) hk ?_ hsub
    clear hk hsub
    fun_induction State.allocRows s b kv y3 y4
    all_goals
      repeat' first
        | with_reducible exact Only.refl _ _
        | with_reducible apply State.fillRow_only
        | with_reducible refine Only.seq (l := [.regs_, .ctrs_, .tiles_, .hbm_, .cxl_, .hbmUe_, .metaCache_, .sideArea_, .tcache_, .wcache_, .cues_, .reqs_, .nextTag_, .loom_, .ctxs_, .fns_, .hostReads_, .fwNeed_, .fwGot_, .fwHeld_, .serve_, .sec_, .fw_, .inc_, .twin_, .freeCtr_, .out_]) ?_ (by assumption) rfl
        | refine Fld.yes rfl

theorem State.checkHead_only {fl : List Fld} {sa s : State} {b : Nat} {e : CastSt}
    (hk : Only fl sa s) (hsub : Fld.sub [.ctrs_, .metaCache_, .sideArea_, .tcache_, .wcache_, .fwNeed_, .sec_, .freeCtr_] fl = true) : Only fl sa (State.checkHead s b e).1 := by
    refine Only.seq (l := [.ctrs_, .metaCache_, .sideArea_, .tcache_, .wcache_, .fwNeed_, .sec_, .freeCtr_]) hk ?_ hsub
    clear hk hsub
    unfold State.checkHead
    repeat' first
      | with_reducible exact Only.refl _ _
      | with_reducible assumption
      | with_reducible apply State.srvRead_only
      | refine Fld.yes rfl
      | (extract_lets +onlyGivenNames zz; refine Only.have_ (u := zz.1) ?_ (fun _ => ?_); rotate_left; try clear_value zz; revert zz; intros; rotate_right; dsimp -zeta only [zz]; clear zz)
      | split

theorem State.readRow_only {fl : List Fld} {sa s : State} {b : Nat} {e : CastSt} {j : Nat}
    (hk : Only fl sa s) (hsub : Fld.sub [.ctrs_, .metaCache_, .sideArea_, .tcache_, .wcache_, .fwNeed_, .sec_, .freeCtr_] fl = true) : Only fl sa (State.readRow s b e j).1 := by
    refine Only.seq (l := [.ctrs_, .metaCache_, .sideArea_, .tcache_, .wcache_, .fwNeed_, .sec_, .freeCtr_]) hk ?_ hsub
    clear hk hsub
    unfold State.readRow
    repeat' first
      | with_reducible exact Only.refl _ _
      | with_reducible assumption
      | with_reducible apply State.srvRead_only
      | refine Fld.yes rfl
      | (extract_lets +onlyGivenNames zz; refine Only.have_ (u := zz.1) ?_ (fun _ => ?_); rotate_left; try clear_value zz; revert zz; intros; rotate_right; dsimp -zeta only [zz]; clear zz)
      | (extract_lets +onlyGivenNames zz; try clear_value zz; revert zz; intros)
      | split

theorem State.needRows_only {fl : List Fld} {sa s : State} {b : Nat} {e : CastSt} {y3 : List Nat}
    (hk : Only fl sa s) (hsub : Fld.sub [.ctrs_, .metaCache_, .sideArea_, .tcache_, .wcache_, .fwNeed_, .sec_, .freeCtr_] fl = true) : Only fl sa (State.needRows s b e y3).1 := by
    refine Only.seq (l := [.ctrs_, .metaCache_, .sideArea_, .tcache_, .wcache_, .fwNeed_, .sec_, .freeCtr_]) hk ?_ hsub
    clear hk hsub
    fun_induction State.needRows s b e y3
    all_goals
      repeat' first
        | with_reducible exact Only.refl _ _
        | with_reducible apply State.readRow_only
        | with_reducible refine Only.seq (l := [.ctrs_, .metaCache_, .sideArea_, .tcache_, .wcache_, .fwNeed_, .sec_, .freeCtr_]) ?_ (by assumption) rfl
        | refine Fld.yes rfl

theorem State.setCast_only {fl : List Fld} {sa s : State} {k : Nat} {v : CastSt}
    (hk : Only fl sa s) (hsub : Fld.sub [.casts_] fl = true) : Only fl sa (State.setCast s k v) := by
    refine Only.seq (l := [.casts_]) hk ?_ hsub
    clear hk hsub
    unfold State.setCast
    repeat' first
      | with_reducible exact Only.refl _ _
      | refine Only.upd ?_ rfl rfl

theorem State.buildOne_only {fl : List Fld} {sa s : State} {b : Nat} {n : Nat} {limit : Nat} {k : Nat} {e : CastSt} {a : BuildSt}
    (hk : Only fl sa s) (hsub : Fld.sub [.regs_, .ctrs_, .tiles_, .hbm_, .cxl_, .hbmUe_, .metaCache_, .sideArea_, .tcache_, .wcache_, .cues_, .reqs_, .nextTag_, .loom_, .ctxs_, .fns_, .hostReads_, .fwNeed_, .fwGot_, .fwHeld_, .casts_, .serve_, .sec_, .fw_, .inc_, .twin_, .freeCtr_, .out_] fl = true) : Only fl sa (State.buildOne s b n limit k e a).1 := by
    refine Only.seq (l := [.regs_, .ctrs_, .tiles_, .hbm_, .cxl_, .hbmUe_, .metaCache_, .sideArea_, .tcache_, .wcache_, .cues_, .reqs_, .nextTag_, .loom_, .ctxs_, .fns_, .hostReads_, .fwNeed_, .fwGot_, .fwHeld_, .casts_, .serve_, .sec_, .fw_, .inc_, .twin_, .freeCtr_, .out_]) hk ?_ hsub
    clear hk hsub
    unfold State.buildOne
    repeat' first
      | with_reducible exact Only.refl _ _
      | with_reducible assumption
      | with_reducible apply State.allocRows_only
      | with_reducible apply State.setCast_only
      | with_reducible apply State.report_only
      | with_reducible apply State.needRows_only
      | with_reducible apply State.checkHead_only
      | refine Fld.yes rfl
      | (extract_lets +onlyGivenNames zz; refine Only.have_ (u := zz) ?_ (fun _ => ?_); rotate_left; try clear_value zz; revert zz; intros; rotate_right; dsimp -zeta only [zz]; clear zz)
      | (extract_lets +onlyGivenNames zz; refine Only.have_ (u := zz.1) ?_ (fun _ => ?_); rotate_left; try clear_value zz; revert zz; intros; rotate_right; dsimp -zeta only [zz]; clear zz)
      | (extract_lets +onlyGivenNames zz; try clear_value zz; revert zz; intros)
      | split

theorem State.buildPass_only {fl : List Fld} {sa s : State} {b : Nat} {pass : Nat} {limit : Nat} {y4 : List (Nat × CastSt)} {y5 : BuildSt}
    (hk : Only fl sa s) (hsub : Fld.sub [.regs_, .ctrs_, .tiles_, .hbm_, .cxl_, .hbmUe_, .metaCache_, .sideArea_, .tcache_, .wcache_, .cues_, .reqs_, .nextTag_, .loom_, .ctxs_, .fns_, .hostReads_, .fwNeed_, .fwGot_, .fwHeld_, .casts_, .serve_, .sec_, .fw_, .inc_, .twin_, .freeCtr_, .out_] fl = true) : Only fl sa (State.buildPass s b pass limit y4 y5).1 := by
    refine Only.seq (l := [.regs_, .ctrs_, .tiles_, .hbm_, .cxl_, .hbmUe_, .metaCache_, .sideArea_, .tcache_, .wcache_, .cues_, .reqs_, .nextTag_, .loom_, .ctxs_, .fns_, .hostReads_, .fwNeed_, .fwGot_, .fwHeld_, .casts_, .serve_, .sec_, .fw_, .inc_, .twin_, .freeCtr_, .out_]) hk ?_ hsub
    clear hk hsub
    fun_induction State.buildPass s b pass limit y4 y5
    all_goals
      repeat' first
        | with_reducible exact Only.refl _ _
        | with_reducible assumption
        | with_reducible apply State.buildOne_only
        | with_reducible refine Only.seq (l := [.regs_, .ctrs_, .tiles_, .hbm_, .cxl_, .hbmUe_, .metaCache_, .sideArea_, .tcache_, .wcache_, .cues_, .reqs_, .nextTag_, .loom_, .ctxs_, .fns_, .hostReads_, .fwNeed_, .fwGot_, .fwHeld_, .casts_, .serve_, .sec_, .fw_, .inc_, .twin_, .freeCtr_, .out_]) ?_ (by assumption) rfl
        | refine Fld.yes rfl

theorem State.buildPasses_only {fl : List Fld} {sa s : State} {b : Nat} {limit : Nat} {l : List (Nat × CastSt)} {y4 : List Nat} {y5 : BuildSt}
    (hk : Only fl sa s) (hsub : Fld.sub [.regs_, .ctrs_, .tiles_, .hbm_, .cxl_, .hbmUe_, .metaCache_, .sideArea_, .tcache_, .wcache_, .cues_, .reqs_, .nextTag_, .loom_, .ctxs_, .fns_, .hostReads_, .fwNeed_, .fwGot_, .fwHeld_, .casts_, .serve_, .sec_, .fw_, .inc_, .twin_, .freeCtr_, .out_] fl = true) : Only fl sa (State.buildPasses s b limit l y4 y5).1 := by
    refine Only.seq (l := [.regs_, .ctrs_, .tiles_, .hbm_, .cxl_, .hbmUe_, .metaCache_, .sideArea_, .tcache_, .wcache_, .cues_, .reqs_, .nextTag_, .loom_, .ctxs_, .fns_, .hostReads_, .fwNeed_, .fwGot_, .fwHeld_, .casts_, .serve_, .sec_, .fw_, .inc_, .twin_, .freeCtr_, .out_]) hk ?_ hsub
    clear hk hsub
    fun_induction State.buildPasses s b limit l y4 y5
    all_goals
      repeat' first
        | with_reducible exact Only.refl _ _
        | with_reducible apply State.buildPass_only
        | with_reducible refine Only.seq (l := [.regs_, .ctrs_, .tiles_, .hbm_, .cxl_, .hbmUe_, .metaCache_, .sideArea_, .tcache_, .wcache_, .cues_, .reqs_, .nextTag_, .loom_, .ctxs_, .fns_, .hostReads_, .fwNeed_, .fwGot_, .fwHeld_, .casts_, .serve_, .sec_, .fw_, .inc_, .twin_, .freeCtr_, .out_]) ?_ (by assumption) rfl
        | refine Fld.yes rfl

theorem State.writeOrder_only {fl : List Fld} {sa s : State} {b : Nat} {k : Nat} {r : StepRec} {items : List (Taken × CastSt)} {a : BuildSt}
    (hk : Only fl sa s) (hsub : Fld.sub [.regs_, .ctrs_, .tiles_, .hbm_, .cxl_, .hbmUe_, .metaCache_, .sideArea_, .tcache_, .wcache_, .cues_, .reqs_, .nextTag_, .loom_, .ctxs_, .fns_, .hostReads_, .fwNeed_, .fwGot_, .fwHeld_, .sec_, .fw_, .inc_, .twin_, .freeCtr_, .out_] fl = true) : Only fl sa (State.writeOrder s b k r items a).1 := by
    refine Only.seq (l := [.regs_, .ctrs_, .tiles_, .hbm_, .cxl_, .hbmUe_, .metaCache_, .sideArea_, .tcache_, .wcache_, .cues_, .reqs_, .nextTag_, .loom_, .ctxs_, .fns_, .hostReads_, .fwNeed_, .fwGot_, .fwHeld_, .sec_, .fw_, .inc_, .twin_, .freeCtr_, .out_]) hk ?_ hsub
    clear hk hsub
    unfold State.writeOrder
    repeat' first
      | with_reducible exact Only.refl _ _
      | with_reducible assumption
      | with_reducible apply State.srvWrite_only
      | refine Fld.yes rfl
      | (extract_lets +onlyGivenNames zz; refine Only.have_ (u := zz.1) ?_ (fun _ => ?_); rotate_left; try clear_value zz; revert zz; intros; rotate_right; dsimp -zeta only [zz]; clear zz)
      | (extract_lets +onlyGivenNames zz; try clear_value zz; revert zz; intros)
      | split

theorem State.poolLow_only {fl : List Fld} {sa s : State} {b : Nat}
    (hk : Only fl sa s) (hsub : Fld.sub [.regs_] fl = true) : Only fl sa (State.poolLow s b) := by
    refine Only.seq (l := [.regs_]) hk ?_ hsub
    clear hk hsub
    unfold State.poolLow
    repeat' first
      | with_reducible exact Only.refl _ _
      | with_reducible apply State.orReg_only
      | with_reducible apply Only.ite
      | refine Fld.yes rfl

theorem State.srvFault_only {fl : List Fld} {sa s : State} {b : Nat} {source : Nat} {va : Nat}
    (hk : Only fl sa s) (hsub : Fld.sub [.regs_, .ctrs_, .tiles_, .cues_, .reqs_, .loom_, .ctxs_, .fns_, .hostReads_, .fwGot_, .fwHeld_, .sec_, .fw_, .inc_, .out_] fl = true) : Only fl sa (State.srvFault s b source va) := by
    refine Only.seq (l := [.regs_, .ctrs_, .tiles_, .cues_, .reqs_, .loom_, .ctxs_, .fns_, .hostReads_, .fwGot_, .fwHeld_, .sec_, .fw_, .inc_, .out_]) hk ?_ hsub
    clear hk hsub
    unfold State.srvFault
    repeat' first
      | with_reducible exact Only.refl _ _
      | with_reducible apply State.raise_only
      | refine Fld.yes rfl

theorem State.srvEnd_only {fl : List Fld} {sa s r : State} {b : Nat} {e : SrvEnd} (hk0 : Only fl sa s) (hk : Only fl sa r)
    (hsub : Fld.sub [.regs_, .ctrs_, .tiles_, .cues_, .ports_, .sess_, .reqs_, .nextTag_, .loom_, .ctxs_, .fns_, .hostReads_, .fwGot_, .fwHeld_, .sec_, .fw_, .inc_, .out_] fl = true) : Only fl sa (s.srvEnd r b e) := by
  have hd : Only fl sa (r.fwDone b) := State.fwDone_only hk (Fld.sub_trans (by decide) hsub)
  unfold State.srvEnd
  split
  · exact State.fwAwait_only hk0 (Fld.sub_trans (by decide) hsub)
  · exact State.srvFault_only hd (Fld.sub_trans (by decide) hsub)
  · exact State.raiseUe_only hd (Fld.sub_trans (by decide) hsub)
  · exact State.walkUe_only hd (Fld.sub_trans (by decide) hsub)
  · exact hd
  · exact hd

theorem State.build_only {fl : List Fld} {sa s : State} {b : Nat} {r : StepRec}
    (hk : Only fl sa s) (hsub : Fld.sub Fld.ofServeOps1 fl = true) : Only fl sa (State.build s b r) := by
    refine Only.seq (l := Fld.ofServeOps1) hk ?_ hsub
    clear hk hsub
    unfold State.build
    repeat' first
      | with_reducible exact Only.refl _ _
      | with_reducible assumption
      | with_reducible apply State.srvEnd_only
      | with_reducible apply State.bump_only
      | with_reducible apply State.fwDone_only
      | with_reducible apply State.setReg_only
      | with_reducible apply State.poolLow_only
      | with_reducible apply State.writeOrder_only
      | with_reducible apply State.buildPasses_only
      | with_reducible apply State.orReg_only
      | with_reducible apply State.report_only
      | with_reducible apply State.setServe_only
      | with_reducible apply Only.ite
      | refine Fld.yes rfl
      | (extract_lets +onlyGivenNames zz; refine Only.have_ (u := zz) ?_ (fun _ => ?_); rotate_left; try clear_value zz; revert zz; intros; rotate_right; dsimp -zeta only [zz]; clear zz)
      | (extract_lets +onlyGivenNames zz; refine Only.have_ (u := zz.1) ?_ (fun _ => ?_); rotate_left; try clear_value zz; revert zz; intros; rotate_right; dsimp -zeta only [zz]; clear zz)
      | (extract_lets +onlyGivenNames zz; try clear_value zz; revert zz; intros)
      | split

theorem State.pushPage_only {fl : List Fld} {sa s : State} {b : Nat} {p : Nat} {v : Nat}
    (hk : Only fl sa s) (hsub : Fld.sub [.regs_, .ctrs_, .tiles_, .hbm_, .cxl_, .hbmUe_, .metaCache_, .sideArea_, .tcache_, .wcache_, .cues_, .reqs_, .nextTag_, .loom_, .ctxs_, .fns_, .hostReads_, .fwNeed_, .fwGot_, .fwHeld_, .serve_, .sec_, .fw_, .inc_, .twin_, .freeCtr_, .out_] fl = true) : Only fl sa (State.pushPage s b p v).1 := by
    refine Only.seq (l := [.regs_, .ctrs_, .tiles_, .hbm_, .cxl_, .hbmUe_, .metaCache_, .sideArea_, .tcache_, .wcache_, .cues_, .reqs_, .nextTag_, .loom_, .ctxs_, .fns_, .hostReads_, .fwNeed_, .fwGot_, .fwHeld_, .serve_, .sec_, .fw_, .inc_, .twin_, .freeCtr_, .out_]) hk ?_ hsub
    clear hk hsub
    unfold State.pushPage
    repeat' first
      | with_reducible exact Only.refl _ _
      | with_reducible assumption
      | with_reducible apply State.setPool_only
      | with_reducible apply State.srvWrite_only
      | with_reducible apply State.report_only
      | refine Fld.yes rfl
      | (extract_lets +onlyGivenNames zz; refine Only.have_ (u := zz.1) ?_ (fun _ => ?_); rotate_left; try clear_value zz; revert zz; intros; rotate_right; dsimp -zeta only [zz]; clear zz)
      | (extract_lets +onlyGivenNames zz; try clear_value zz; revert zz; intros)
      | split

theorem State.freeRow_only {fl : List Fld} {sa s : State} {b : Nat} {kv : Nat} {j : Nat} {y4 : Nat} {y5 : List Nat}
    (hk : Only fl sa s) (hsub : Fld.sub [.regs_, .ctrs_, .tiles_, .hbm_, .cxl_, .hbmUe_, .metaCache_, .sideArea_, .tcache_, .wcache_, .cues_, .reqs_, .nextTag_, .loom_, .ctxs_, .fns_, .hostReads_, .fwNeed_, .fwGot_, .fwHeld_, .serve_, .sec_, .fw_, .inc_, .twin_, .freeCtr_, .out_] fl = true) : Only fl sa (State.freeRow s b kv j y4 y5).1 := by
    refine Only.seq (l := [.regs_, .ctrs_, .tiles_, .hbm_, .cxl_, .hbmUe_, .metaCache_, .sideArea_, .tcache_, .wcache_, .cues_, .reqs_, .nextTag_, .loom_, .ctxs_, .fns_, .hostReads_, .fwNeed_, .fwGot_, .fwHeld_, .serve_, .sec_, .fw_, .inc_, .twin_, .freeCtr_, .out_]) hk ?_ hsub
    clear hk hsub
    fun_induction State.freeRow s b kv j y4 y5
    all_goals
      repeat' first
        | with_reducible exact Only.refl _ _
        | with_reducible assumption
        | with_reducible apply State.srvWrite_only
        | with_reducible apply State.pushPage_only
        | with_reducible refine Only.seq (l := [.regs_, .ctrs_, .tiles_, .hbm_, .cxl_, .hbmUe_, .metaCache_, .sideArea_, .tcache_, .wcache_, .cues_, .reqs_, .nextTag_, .loom_, .ctxs_, .fns_, .hostReads_, .fwNeed_, .fwGot_, .fwHeld_, .serve_, .sec_, .fw_, .inc_, .twin_, .freeCtr_, .out_]) ?_ (by assumption) rfl
        | refine Fld.yes rfl

theorem State.freeRows_only {fl : List Fld} {sa s : State} {b : Nat} {e : CastSt} {y3 : List Nat}
    (hk : Only fl sa s) (hsub : Fld.sub [.regs_, .ctrs_, .tiles_, .hbm_, .cxl_, .hbmUe_, .metaCache_, .sideArea_, .tcache_, .wcache_, .cues_, .reqs_, .nextTag_, .loom_, .ctxs_, .fns_, .hostReads_, .fwNeed_, .fwGot_, .fwHeld_, .serve_, .sec_, .fw_, .inc_, .twin_, .freeCtr_, .out_] fl = true) : Only fl sa (State.freeRows s b e y3).1 := by
    refine Only.seq (l := [.regs_, .ctrs_, .tiles_, .hbm_, .cxl_, .hbmUe_, .metaCache_, .sideArea_, .tcache_, .wcache_, .cues_, .reqs_, .nextTag_, .loom_, .ctxs_, .fns_, .hostReads_, .fwNeed_, .fwGot_, .fwHeld_, .serve_, .sec_, .fw_, .inc_, .twin_, .freeCtr_, .out_]) hk ?_ hsub
    clear hk hsub
    fun_induction State.freeRows s b e y3
    all_goals
      repeat' first
        | with_reducible exact Only.refl _ _
        | with_reducible apply State.freeRow_only
        | with_reducible apply State.readRow_only
        | with_reducible refine Only.seq (l := [.regs_, .ctrs_, .tiles_, .hbm_, .cxl_, .hbmUe_, .metaCache_, .sideArea_, .tcache_, .wcache_, .cues_, .reqs_, .nextTag_, .loom_, .ctxs_, .fns_, .hostReads_, .fwNeed_, .fwGot_, .fwHeld_, .serve_, .sec_, .fw_, .inc_, .twin_, .freeCtr_, .out_]) ?_ (by assumption) rfl
        | refine Fld.yes rfl

theorem State.movePages_only {fl : List Fld} {sa s : State} {b : Nat} {kv : Nat} {j : Nat} {p : Nat} {y5 : Nat} {y6 : List Nat}
    (hk : Only fl sa s) (hsub : Fld.sub [.regs_, .ctrs_, .tiles_, .hbm_, .cxl_, .hbmUe_, .metaCache_, .sideArea_, .tcache_, .wcache_, .cues_, .reqs_, .nextTag_, .loom_, .ctxs_, .fns_, .hostReads_, .fwNeed_, .fwGot_, .fwHeld_, .serve_, .sec_, .fw_, .inc_, .twin_, .freeCtr_, .out_] fl = true) : Only fl sa (State.movePages s b kv j p y5 y6).1 := by
    refine Only.seq (l := [.regs_, .ctrs_, .tiles_, .hbm_, .cxl_, .hbmUe_, .metaCache_, .sideArea_, .tcache_, .wcache_, .cues_, .reqs_, .nextTag_, .loom_, .ctxs_, .fns_, .hostReads_, .fwNeed_, .fwGot_, .fwHeld_, .serve_, .sec_, .fw_, .inc_, .twin_, .freeCtr_, .out_]) hk ?_ hsub
    clear hk hsub
    fun_induction State.movePages s b kv j p y5 y6
    all_goals
      repeat' first
        | with_reducible exact Only.refl _ _
        | with_reducible assumption
        | with_reducible apply State.bump_only
        | with_reducible apply State.pushPage_only
        | with_reducible apply State.srvWrite_only
        | with_reducible apply State.fwScatter_only
        | with_reducible apply State.fwGather_only
        | with_reducible apply State.popPage_only
        | with_reducible refine Only.seq (l := [.regs_, .ctrs_, .tiles_, .hbm_, .cxl_, .hbmUe_, .metaCache_, .sideArea_, .tcache_, .wcache_, .cues_, .reqs_, .nextTag_, .loom_, .ctxs_, .fns_, .hostReads_, .fwNeed_, .fwGot_, .fwHeld_, .serve_, .sec_, .fw_, .inc_, .twin_, .freeCtr_, .out_]) ?_ (by assumption) rfl
        | refine Fld.yes rfl

theorem State.promoteRows_only {fl : List Fld} {sa s : State} {b : Nat} {idx : Nat} {y3 : List Nat}
    (hk : Only fl sa s) (hsub : Fld.sub [.regs_, .ctrs_, .tiles_, .hbm_, .cxl_, .hbmUe_, .metaCache_, .sideArea_, .tcache_, .wcache_, .cues_, .reqs_, .nextTag_, .loom_, .ctxs_, .fns_, .hostReads_, .fwNeed_, .fwGot_, .fwHeld_, .casts_, .serve_, .sec_, .fw_, .inc_, .twin_, .freeCtr_, .out_] fl = true) : Only fl sa (State.promoteRows s b idx y3).1 := by
    refine Only.seq (l := [.regs_, .ctrs_, .tiles_, .hbm_, .cxl_, .hbmUe_, .metaCache_, .sideArea_, .tcache_, .wcache_, .cues_, .reqs_, .nextTag_, .loom_, .ctxs_, .fns_, .hostReads_, .fwNeed_, .fwGot_, .fwHeld_, .casts_, .serve_, .sec_, .fw_, .inc_, .twin_, .freeCtr_, .out_]) hk ?_ hsub
    clear hk hsub
    fun_induction State.promoteRows s b idx y3
    all_goals
      repeat' first
        | with_reducible exact Only.refl _ _
        | with_reducible apply State.setCast_only
        | with_reducible apply State.movePages_only
        | with_reducible apply State.readRow_only
        | with_reducible refine Only.seq (l := [.regs_, .ctrs_, .tiles_, .hbm_, .cxl_, .hbmUe_, .metaCache_, .sideArea_, .tcache_, .wcache_, .cues_, .reqs_, .nextTag_, .loom_, .ctxs_, .fns_, .hostReads_, .fwNeed_, .fwGot_, .fwHeld_, .casts_, .serve_, .sec_, .fw_, .inc_, .twin_, .freeCtr_, .out_]) ?_ (by assumption) rfl
        | refine Fld.yes rfl

theorem State.spillRows_only {fl : List Fld} {sa s : State} {b : Nat} {idx : Nat} {go : State → Bool} {y4 : List Nat} {y5 : Nat}
    (hk : Only fl sa s) (hsub : Fld.sub [.regs_, .ctrs_, .tiles_, .hbm_, .cxl_, .hbmUe_, .metaCache_, .sideArea_, .tcache_, .wcache_, .cues_, .reqs_, .nextTag_, .loom_, .ctxs_, .fns_, .hostReads_, .fwNeed_, .fwGot_, .fwHeld_, .casts_, .serve_, .sec_, .fw_, .inc_, .twin_, .freeCtr_, .out_] fl = true) : Only fl sa (State.spillRows s b idx go y4 y5).1 := by
    refine Only.seq (l := [.regs_, .ctrs_, .tiles_, .hbm_, .cxl_, .hbmUe_, .metaCache_, .sideArea_, .tcache_, .wcache_, .cues_, .reqs_, .nextTag_, .loom_, .ctxs_, .fns_, .hostReads_, .fwNeed_, .fwGot_, .fwHeld_, .casts_, .serve_, .sec_, .fw_, .inc_, .twin_, .freeCtr_, .out_]) hk ?_ hsub
    clear hk hsub
    fun_induction State.spillRows s b idx go y4 y5
    all_goals
      repeat' first
        | with_reducible exact Only.refl _ _
        | with_reducible apply State.setCast_only
        | with_reducible apply State.movePages_only
        | with_reducible apply State.report_only
        | with_reducible apply State.readRow_only
        | with_reducible refine Only.seq (l := [.regs_, .ctrs_, .tiles_, .hbm_, .cxl_, .hbmUe_, .metaCache_, .sideArea_, .tcache_, .wcache_, .cues_, .reqs_, .nextTag_, .loom_, .ctxs_, .fns_, .hostReads_, .fwNeed_, .fwGot_, .fwHeld_, .casts_, .serve_, .sec_, .fw_, .inc_, .twin_, .freeCtr_, .out_]) ?_ (by assumption) rfl
        | refine Fld.yes rfl

theorem State.spillAll_only {fl : List Fld} {sa s : State} {b : Nat} {y2 : List Nat}
    (hk : Only fl sa s) (hsub : Fld.sub [.regs_, .ctrs_, .tiles_, .hbm_, .cxl_, .hbmUe_, .metaCache_, .sideArea_, .tcache_, .wcache_, .cues_, .reqs_, .nextTag_, .loom_, .ctxs_, .fns_, .hostReads_, .fwNeed_, .fwGot_, .fwHeld_, .casts_, .serve_, .sec_, .fw_, .inc_, .twin_, .freeCtr_, .out_] fl = true) : Only fl sa (State.spillAll s b y2).1 := by
    refine Only.seq (l := [.regs_, .ctrs_, .tiles_, .hbm_, .cxl_, .hbmUe_, .metaCache_, .sideArea_, .tcache_, .wcache_, .cues_, .reqs_, .nextTag_, .loom_, .ctxs_, .fns_, .hostReads_, .fwNeed_, .fwGot_, .fwHeld_, .casts_, .serve_, .sec_, .fw_, .inc_, .twin_, .freeCtr_, .out_]) hk ?_ hsub
    clear hk hsub
    fun_induction State.spillAll s b y2
    all_goals
      repeat' first
        | with_reducible exact Only.refl _ _
        | with_reducible apply State.spillRows_only
        | with_reducible refine Only.seq (l := [.regs_, .ctrs_, .tiles_, .hbm_, .cxl_, .hbmUe_, .metaCache_, .sideArea_, .tcache_, .wcache_, .cues_, .reqs_, .nextTag_, .loom_, .ctxs_, .fns_, .hostReads_, .fwNeed_, .fwGot_, .fwHeld_, .casts_, .serve_, .sec_, .fw_, .inc_, .twin_, .freeCtr_, .out_]) ?_ (by assumption) rfl
        | refine Fld.yes rfl

theorem State.updateItems_only {fl : List Fld} {sa s : State} {b : Nat} {c : Nat} {y3 : List RoItem}
    (hk : Only fl sa s) (hsub : Fld.sub [.ctrs_, .metaCache_, .sideArea_, .tcache_, .wcache_, .fwNeed_, .casts_, .sec_, .freeCtr_] fl = true) : Only fl sa (State.updateItems s b c y3).1 := by
    refine Only.seq (l := [.ctrs_, .metaCache_, .sideArea_, .tcache_, .wcache_, .fwNeed_, .casts_, .sec_, .freeCtr_]) hk ?_ hsub
    clear hk hsub
    fun_induction State.updateItems s b c y3
    all_goals
      repeat' first
        | with_reducible exact Only.refl _ _
        | with_reducible apply State.bump_only
        | with_reducible apply State.setCast_only
        | with_reducible apply State.srvRead_only
        | with_reducible apply Only.ite
        | with_reducible refine Only.seq (l := [.ctrs_, .metaCache_, .sideArea_, .tcache_, .wcache_, .fwNeed_, .casts_, .sec_, .freeCtr_]) ?_ (by assumption) rfl
        | refine Fld.yes rfl

end Sys2Proof.Machine
end

