-- ==== Sys2Proof/Laws/FrameServe.lean ====
section
/-! SUPPORT. Which fields of the state each operation of Sys2Proof/Machine/Serve.lean can change. -/

namespace Sys2Proof.Machine

set_option linter.all false
set_option Elab.async false

/-- Fields that operations of this file change. -/
def Fld.ofServe1 : List Fld :=
  [.regs_, .ctrs_, .tiles_, .hbm_, .cxl_, .hbmUe_, .metaCache_, .sideArea_, .cues_, .ports_, .sess_, .reqs_,
   .nextTag_, .loom_, .queues_, .queueRr_, .fences_, .objs_, .freed_, .ctxs_, .fns_, .hostReads_, .fwGot_, .fwHeld_,
   .sec_, .fw_, .inc_, .twin_, .out_]

/-- Fields that operations of this file change. -/
def Fld.ofServe2 : List Fld :=
  [.regs_, .ctrs_, .tiles_, .hbm_, .cxl_, .hbmUe_, .metaCache_, .sideArea_, .tcache_, .wcache_, .cues_, .ports_,
   .sess_, .reqs_, .nextTag_, .loom_, .queues_, .queueRr_, .fences_, .objs_, .freed_, .ctxs_, .fns_, .hostReads_,
   .fwNeed_, .fwGot_, .fwHeld_, .casts_, .sec_, .fw_, .inc_, .twin_, .freeCtr_, .out_]

/-- Fields that operations of this file change. -/
def Fld.ofServe3 : List Fld :=
  [.regs_, .ctrs_, .tiles_, .hbm_, .cxl_, .hbmUe_, .metaCache_, .sideArea_, .tcache_, .wcache_, .cues_, .ports_,
   .sess_, .reqs_, .nextTag_, .loom_, .queues_, .queueRr_, .fences_, .objs_, .freed_, .ctxs_, .fns_, .hostReads_,
   .fwNeed_, .fwGot_, .fwHeld_, .sec_, .fw_, .inc_, .twin_, .freeCtr_, .out_]

/-- Fields that operations of this file change. -/
def Fld.ofServe4 : List Fld :=
  [.regs_, .ctrs_, .tiles_, .hbm_, .cxl_, .hbmUe_, .metaCache_, .sideArea_, .cues_, .ports_, .sess_, .reqs_,
   .nextTag_, .loom_, .queues_, .queueRr_, .fences_, .objs_, .freed_, .ctxs_, .fns_, .hostReads_, .fwGot_, .fwHeld_,
   .casts_, .sec_, .fw_, .inc_, .twin_, .out_]

/-- Fields that operations of this file change. -/
def Fld.ofServe5 : List Fld :=
  [.regs_, .ctrs_, .tiles_, .hbm_, .cxl_, .hbmUe_, .metaCache_, .sideArea_, .tcache_, .wcache_, .cues_, .ports_,
   .sess_, .reqs_, .nextTag_, .loom_, .queues_, .queueRr_, .fences_, .objs_, .freed_, .ctxs_, .fns_, .hostReads_,
   .fwNeed_, .fwGot_, .fwHeld_, .casts_, .serve_, .sec_, .fw_, .inc_, .twin_, .freeCtr_, .out_]

/-- Fields that operations of this file change. -/
def Fld.ofServe6 : List Fld :=
  [.regs_, .ctrs_, .tiles_, .hbm_, .cxl_, .hbmUe_, .metaCache_, .sideArea_, .tcache_, .wcache_, .cues_, .ports_,
   .sess_, .reqs_, .nextTag_, .loom_, .ctxs_, .fns_, .hostReads_, .fwNeed_, .fwGot_, .fwHeld_, .casts_, .serve_,
   .sec_, .fw_, .inc_, .twin_, .freeCtr_, .out_]

/-- Fields that operations of this file change. -/
def Fld.ofServe7 : List Fld :=
  [.regs_, .loHeld_, .ctrs_, .tiles_, .hbm_, .cxl_, .hbmUe_, .metaCache_, .sideArea_, .tcache_, .wcache_, .cues_,
   .ports_, .sess_, .reqs_, .nextTag_, .loom_, .ctxs_, .fns_, .hostReads_, .fwNeed_, .fwGot_, .fwHeld_, .serve_,
   .sec_, .fw_, .inc_, .twin_, .freeCtr_, .out_]

theorem State.castCall_only {fl : List Fld} {sa s : State} {q : Queue} {action : Nat}
    {act : State → Nat → Nat → CastSt → Nat → State × CastEnd} (hk : Only fl sa s)
    (hsub : Fld.sub Fld.ofServe1 fl = true)
    (ha : ∀ t, Only fl sa t → ∀ b n e v, Only fl sa (act t b n e v).1) : Only fl sa (s.castCall q action act) := by
  unfold State.castCall
  repeat' first
    | assumption
    | with_reducible apply ha
    | with_reducible apply State.turn_only
    | with_reducible apply State.fwDone_only
    | with_reducible apply State.fwAwait_only
    | with_reducible apply State.walkUe_only
    | with_reducible apply State.complete_only
    | with_reducible apply State.poolLow_only
    | with_reducible apply State.srvFault_only
    | with_reducible apply State.markStarted_only
    | with_reducible apply State.raiseUe_only
    | exact Fld.sub_trans (by decide) hsub
    | dsimp only
    | split

theorem State.checkRows_only {fl : List Fld} {sa s : State} {b : Nat} {e : CastSt} {y3 : List Nat}
    (hk : Only fl sa s) (hsub : Fld.sub [.ctrs_, .metaCache_, .sideArea_, .tcache_, .wcache_, .fwNeed_, .sec_, .freeCtr_] fl = true) : Only fl sa (State.checkRows s b e y3).1 := by
    refine Only.seq (l := [.ctrs_, .metaCache_, .sideArea_, .tcache_, .wcache_, .fwNeed_, .sec_, .freeCtr_]) hk ?_ hsub
    clear hk hsub
    fun_induction State.checkRows s b e y3
    all_goals
      repeat' first
        | with_reducible exact Only.refl _ _
        | with_reducible apply State.readRow_only
        | with_reducible refine Only.seq (l := [.ctrs_, .metaCache_, .sideArea_, .tcache_, .wcache_, .fwNeed_, .sec_, .freeCtr_]) ?_ (by assumption) rfl
        | refine Fld.yes rfl

theorem execCastAdmit_only (q : Sys2Proof.Queue) (s : State) {sz : State}
    (h : execCastAdmit q s = .next sz) : Only Fld.ofServe2 s sz := by
    unfold execCastAdmit at h
    cases h
    repeat' first
      | with_reducible exact Only.refl _ _
      | with_reducible assumption
      | with_reducible apply State.setCast_only
      | with_reducible apply State.checkRows_only
      | with_reducible apply State.checkHead_only
      | with_reducible apply State.srvRead_only
      | with_reducible apply State.castCall_only
      | intro _ _ _
      | refine Fld.yes rfl
      | (extract_lets +onlyGivenNames zz; refine Only.have_ (u := zz.1) ?_ (fun _ => ?_); rotate_left; try clear_value zz; revert zz; intros; rotate_right; dsimp -zeta only [zz]; clear zz)
      | (extract_lets +onlyGivenNames zz; try clear_value zz; revert zz; intros)
      | split

theorem execCastUpdate_only (q : Sys2Proof.Queue) (s : State) {sz : State}
    (h : execCastUpdate q s = .next sz) : Only Fld.ofServe2 s sz := by
    unfold execCastUpdate at h
    cases h
    repeat' first
      | with_reducible exact Only.refl _ _
      | with_reducible assumption
      | with_reducible apply State.setCast_only
      | with_reducible apply State.srvRead_only
      | with_reducible apply State.castCall_only
      | intro _ _ _
      | refine Fld.yes rfl
      | (extract_lets +onlyGivenNames zz; refine Only.have_ (u := zz.1) ?_ (fun _ => ?_); rotate_left; try clear_value zz; revert zz; intros; rotate_right; dsimp -zeta only [zz]; clear zz)
      | (extract_lets +onlyGivenNames zz; try clear_value zz; revert zz; intros)
      | split

theorem execCastRead_only (q : Sys2Proof.Queue) (s : State) {sz : State}
    (h : execCastRead q s = .next sz) : Only Fld.ofServe3 s sz := by
    unfold execCastRead at h
    cases h
    repeat' first
      | with_reducible exact Only.refl _ _
      | with_reducible assumption
      | with_reducible apply State.srvWrite_only
      | with_reducible apply State.castCall_only
      | intro _ _ _
      | refine Fld.yes rfl

theorem execCastPark_only (q : Sys2Proof.Queue) (s : State) {sz : State}
    (h : execCastPark q s = .next sz) : Only Fld.ofServe4 s sz := by
    unfold execCastPark at h
    cases h
    repeat' first
      | with_reducible exact Only.refl _ _
      | with_reducible assumption
      | with_reducible apply State.setCast_only
      | with_reducible apply State.castCall_only
      | intro _ _ _
      | refine Fld.yes rfl
      | (extract_lets +onlyGivenNames zz; try clear_value zz; revert zz; intros)
      | split

theorem execCastResume_only (q : Sys2Proof.Queue) (s : State) {sz : State}
    (h : execCastResume q s = .next sz) : Only Fld.ofServe4 s sz := by
    unfold execCastResume at h
    cases h
    repeat' first
      | with_reducible exact Only.refl _ _
      | with_reducible assumption
      | with_reducible apply State.setCast_only
      | with_reducible apply State.castCall_only
      | intro _ _ _
      | refine Fld.yes rfl
      | (extract_lets +onlyGivenNames zz; try clear_value zz; revert zz; intros)
      | split

theorem execCastResumePromote_only (q : Sys2Proof.Queue) (s : State) {sz : State}
    (h : execCastResumePromote q s = .next sz) : Only Fld.ofServe5 s sz := by
    unfold execCastResumePromote at h
    cases h
    repeat' first
      | with_reducible exact Only.refl _ _
      | with_reducible assumption
      | with_reducible apply State.setCast_only
      | with_reducible apply State.promoteRows_only
      | with_reducible apply State.checkHead_only
      | with_reducible apply State.castCall_only
      | intro _ _ _
      | refine Fld.yes rfl
      | (extract_lets +onlyGivenNames zz; refine Only.have_ (u := zz.1) ?_ (fun _ => ?_); rotate_left; try clear_value zz; revert zz; intros; rotate_right; dsimp -zeta only [zz]; clear zz)
      | split

theorem execCastEvict_only (q : Sys2Proof.Queue) (s : State) {sz : State}
    (h : execCastEvict q s = .next sz) : Only Fld.ofServe5 s sz := by
    unfold execCastEvict at h
    cases h
    repeat' first
      | with_reducible exact Only.refl _ _
      | with_reducible assumption
      | with_reducible apply State.spillRows_only
      | with_reducible apply State.checkHead_only
      | with_reducible apply State.castCall_only
      | intro _ _ _
      | refine Fld.yes rfl
      | (extract_lets +onlyGivenNames zz; refine Only.have_ (u := zz.1) ?_ (fun _ => ?_); rotate_left; try clear_value zz; revert zz; intros; rotate_right; dsimp -zeta only [zz]; clear zz)
      | split

theorem execCastRelease_only (q : Sys2Proof.Queue) (s : State) {sz : State}
    (h : execCastRelease q s = .next sz) : Only Fld.ofServe5 s sz := by
    unfold execCastRelease at h
    cases h
    repeat' first
      | with_reducible exact Only.refl _ _
      | with_reducible assumption
      | with_reducible apply State.setCast_only
      | with_reducible apply State.freeRows_only
      | with_reducible apply State.checkHead_only
      | with_reducible apply State.castCall_only
      | intro _ _ _
      | refine Fld.yes rfl
      | (extract_lets +onlyGivenNames zz; refine Only.have_ (u := zz.1) ?_ (fun _ => ?_); rotate_left; try clear_value zz; revert zz; intros; rotate_right; dsimp -zeta only [zz]; clear zz)
      | split

theorem execRunningOrderBuild_only (b : Sys2Proof.Bolt) (s : State) {sz : State}
    (h : execRunningOrderBuild b s = .next sz) : Only Fld.ofServe6 s sz := by
    unfold execRunningOrderBuild at h
    cases h
    repeat' first
      | with_reducible exact Only.refl _ _
      | with_reducible apply State.build_only
      | with_reducible apply Only.ite
      | refine Fld.yes rfl
      | (extract_lets +onlyGivenNames zz; try clear_value zz; revert zz; intros)
      | split

theorem execPostStepUpdate_only (b : Sys2Proof.Bolt) (s : State) {sz : State}
    (h : execPostStepUpdate b s = .next sz) : Only [.regs_, .ctrs_, .tiles_, .metaCache_, .sideArea_, .tcache_, .wcache_, .cues_, .ports_, .sess_, .reqs_, .nextTag_, .loom_, .ctxs_, .fns_, .hostReads_, .fwNeed_, .fwGot_, .fwHeld_, .casts_, .serve_, .sec_, .fw_, .inc_, .freeCtr_, .out_] s sz := by
    unfold execPostStepUpdate at h
    cases h
    repeat' first
      | with_reducible exact Only.refl _ _
      | with_reducible assumption
      | with_reducible apply State.srvEnd_only
      | with_reducible apply State.fwDone_only
      | with_reducible apply State.setServe_only
      | with_reducible apply State.updateItems_only
      | with_reducible apply Only.ite
      | refine Fld.yes rfl
      | (extract_lets +onlyGivenNames zz; refine Only.have_ (u := zz.1) ?_ (fun _ => ?_); rotate_left; try clear_value zz; revert zz; intros; rotate_right; dsimp -zeta only [zz]; clear zz)
      | (extract_lets +onlyGivenNames zz; try clear_value zz; revert zz; intros)
      | split

theorem execSrvPoolPush_only (fn : Sys2Proof.Fn) (b : Sys2Proof.Bolt) (pool : Fin 4) (hi : Sys2Proof.Word) (s : State) {sz : State}
    (h : execSrvPoolPush fn b pool hi s = .next sz) : Only Fld.ofServe7 s sz := by
    unfold execSrvPoolPush at h
    cases h
    repeat' first
      | with_reducible exact Only.refl _ _
      | with_reducible apply State.srvEnd_only
      | with_reducible apply State.pushPage_only
      | with_reducible apply State.report_only
      | with_reducible apply State.takeLo_only
      | with_reducible apply Only.ite
      | refine Fld.yes rfl

theorem execSrvPoolEnable_only (fn : Sys2Proof.Fn) (b : Sys2Proof.Bolt) (pool : Fin 4) (val : Sys2Proof.Word) (s : State) {sz : State}
    (h : execSrvPoolEnable fn b pool val s = .next sz) : Only [.regs_, .vfErr_, .serve_] s sz := by
    unfold execSrvPoolEnable at h
    cases h
    repeat' first
      | with_reducible exact Only.refl _ _
      | with_reducible apply State.setPool_only
      | with_reducible apply State.setErr_only
      | with_reducible apply State.setReg_only
      | with_reducible apply Only.ite
      | refine Fld.yes rfl

theorem execSpill_only (b : Sys2Proof.Bolt) (s : State) {sz : State}
    (h : execSpill b s = .next sz) : Only Fld.ofServe6 s sz := by
    unfold execSpill at h
    cases h
    repeat' first
      | with_reducible exact Only.refl _ _
      | with_reducible apply State.srvEnd_only
      | with_reducible apply State.orReg_only
      | with_reducible apply State.spillAll_only
      | with_reducible apply Only.ite
      | refine Fld.yes rfl

end Sys2Proof.Machine
end

