-- ==== Sys2Proof/Laws/FrameStu.lean ====
section
/-! SUPPORT. Which fields of the state each operation of Sys2Proof/Machine/Stu.lean can change. -/

namespace Sys2Proof.Machine

set_option linter.all false
set_option Elab.async false

theorem execPpsEdge_only (width : Nat) (s : State) {sz : State}
    (h : execPpsEdge width s = .next sz) : Only [.regs_, .ctrs_, .stu_, .ctxs_, .fns_, .inc_, .freeCtr_, .out_] s sz := by
    unfold execPpsEdge at h
    cases h
    repeat' first
      | with_reducible exact Only.refl _ _
      | with_reducible apply State.orReg_only
      | with_reducible apply State.report_only
      | with_reducible apply State.measured_only
      | with_reducible apply Only.ite
      | refine Fld.yes rfl

theorem execPpsLoss_only (s : State) {sz : State}
    (h : execPpsLoss s = .next sz) : Only [.regs_, .ctrs_, .stu_, .ctxs_, .fns_, .inc_, .freeCtr_, .out_] s sz := by
    unfold execPpsLoss at h
    cases h
    repeat' first
      | with_reducible exact Only.refl _ _
      | with_reducible apply State.setStuMode_only
      | with_reducible apply Only.ite
      | refine Fld.yes rfl

theorem execFabricTimeLoss_only (s : State) {sz : State}
    (h : execFabricTimeLoss s = .next sz) : Only [.regs_, .ctrs_, .stu_, .ctxs_, .fns_, .inc_, .freeCtr_, .out_] s sz := by
    unfold execFabricTimeLoss at h
    cases h
    repeat' first
      | with_reducible exact Only.refl _ _
      | with_reducible apply State.setStuMode_only
      | with_reducible apply Only.ite
      | refine Fld.yes rfl

theorem execStuReacq_only (fn : Sys2Proof.Fn) (val : Sys2Proof.Word) (s : State) {sz : State}
    (h : execStuReacq fn val s = .next sz) : Only [.regs_, .vfErr_, .ctrs_, .stu_, .ctxs_, .fns_, .inc_, .freeCtr_, .out_] s sz := by
    unfold execStuReacq at h
    cases h
    repeat' first
      | with_reducible exact Only.refl _ _
      | with_reducible apply State.reacquire_only
      | with_reducible apply State.orReg_only
      | with_reducible apply State.setErr_only
      | with_reducible apply Only.ite
      | refine Fld.yes rfl

theorem execStuCtlWrite_only (fn : Sys2Proof.Fn) (val : Sys2Proof.Word) (s : State) {sz : State}
    (h : execStuCtlWrite fn val s = .next sz) : Only [.regs_, .vfErr_, .ctrs_, .stu_, .ctxs_, .fns_, .inc_, .freeCtr_, .out_] s sz := by
    unfold execStuCtlWrite at h
    cases h
    repeat' first
      | with_reducible exact Only.refl _ _
      | with_reducible apply State.loadStuCtl_only
      | with_reducible apply State.setErr_only
      | with_reducible apply Only.ite
      | refine Fld.yes rfl

theorem execStuEnd_only (s : State) {sz : State}
    (h : execStuEnd s = .next sz) : Only [.regs_, .ctrs_, .stu_, .inc_] s sz := by
    unfold execStuEnd at h
    cases h
    repeat' first
      | with_reducible exact Only.refl _ _
      | with_reducible apply State.orReg_only
      | with_reducible apply State.report_only
      | with_reducible apply Only.ite
      | refine Fld.yes rfl
      | (extract_lets +onlyGivenNames zz; try clear_value zz; revert zz; intros)
      | refine Only.upd ?_ rfl rfl

theorem execPpsOutPulse_only (rise : Bool) (s : State) {sz : State}
    (h : execPpsOutPulse rise s = .next sz) : Only [.stu_] s sz := by
    unfold execPpsOutPulse at h
    cases h
    repeat' first
      | with_reducible exact Only.refl _ _
      | with_reducible apply Only.ite
      | (extract_lets +onlyGivenNames zz; try clear_value zz; revert zz; intros)
      | refine Only.upd ?_ rfl rfl

end Sys2Proof.Machine
end

