-- ==== Sys2Proof/Laws/FrameTensor.lean ====
section
/-! SUPPORT. Which fields of the state each operation of Sys2Proof/Machine/Tensor.lean can change. -/

namespace Sys2Proof.Machine

set_option linter.all false
set_option Elab.async false

/-- Fields that operations of this file change. -/
def Fld.ofTensor1 : List Fld :=
  [.regs_, .ctrs_, .tiles_, .mcFlits_, .hbm_, .cxl_, .hbmUe_, .metaCache_, .sideArea_, .fq_, .inv_, .cues_,
   .ports_, .sess_, .reqs_, .nextTag_, .loom_, .queues_, .fences_, .objs_, .freed_, .ctxs_, .fns_, .hostReads_,
   .walkWait_, .fwGot_, .fwHeld_, .sec_, .fw_, .inc_, .twin_, .freeCtr_, .out_]

/-- Fields that operations of this file change. -/
def Fld.ofTensor2 : List Fld :=
  [.regs_, .ctrs_, .tiles_, .mcFlits_, .hbm_, .cxl_, .hbmUe_, .metaCache_, .sideArea_, .tcache_, .wcache_, .fq_,
   .inv_, .cues_, .ports_, .sess_, .reqs_, .nextTag_, .loom_, .queues_, .fences_, .objs_, .freed_, .ctxs_,
   .fns_, .hostReads_, .fwGot_, .fwHeld_, .sec_, .fw_, .inc_, .twin_, .freeCtr_, .out_]

/-- Fields that operations of this file change. -/
def Fld.ofTensor3 : List Fld :=
  [.regs_, .ctrs_, .tiles_, .mcFlits_, .hbm_, .cxl_, .chanCe_, .hbmUe_, .metaCache_, .sideArea_, .tcache_, .wcache_,
   .fq_, .inv_, .cues_, .ports_, .sess_, .reqs_, .nextTag_, .loom_, .queues_, .fences_, .objs_, .freed_,
   .ctxs_, .fns_, .hostReads_, .pfWalks_, .fwGot_, .fwHeld_, .sec_, .fw_, .inc_, .twin_, .freeCtr_, .out_]

theorem State.takeCredit_only {fl : List Fld} {sa s t : State} {n k : Nat} {d : Desc} (h : s.takeCredit n k d = some t)
    (hk : Only fl sa s) (hsub : Fld.sub [.tiles_] fl = true) : Only fl sa t := by
  unfold State.takeCredit at h
  split at h
  · cases h
    exact hk
  · dsimp only at h
    split at h
    · cases h
    · cases h
      exact State.updTile_only hk hsub

theorem State.tensorCopyEnd_only {fl : List Fld} {sa s : State} {t : Nat} {k : Nat} {b : Nat} {q : QDesc}
    (hk : Only fl sa s) (hsub : Fld.sub [.regs_, .ctrs_, .tiles_, .inv_, .cues_, .ports_, .sess_, .reqs_, .nextTag_, .loom_, .ctxs_, .fns_, .hostReads_, .fwGot_, .fwHeld_, .sec_, .fw_, .inc_, .freeCtr_, .out_] fl = true) : Only fl sa (State.tensorCopyEnd s t k b q) := by
    refine Only.seq (l := [.regs_, .ctrs_, .tiles_, .inv_, .cues_, .ports_, .sess_, .reqs_, .nextTag_, .loom_, .ctxs_, .fns_, .hostReads_, .fwGot_, .fwHeld_, .sec_, .fw_, .inc_, .freeCtr_, .out_]) hk ?_ hsub
    clear hk hsub
    unfold State.tensorCopyEnd
    repeat' first
      | with_reducible exact Only.refl _ _
      | with_reducible apply State.semSignal_only
      | with_reducible apply State.semAddAt_only
      | with_reducible apply State.popTensor_only
      | with_reducible apply State.flightSub_only
      | with_reducible apply Only.ite
      | refine Fld.yes rfl

theorem State.copyDone_only {fl : List Fld} {sa s : State} {t : Nat} {k : Nat} {b : Nat} {q : QDesc}
    (hk : Only fl sa s) (hsub : Fld.sub [.regs_, .ctrs_, .tiles_, .mcFlits_, .hbm_, .cxl_, .hbmUe_, .metaCache_, .sideArea_, .inv_, .cues_, .ports_, .sess_, .reqs_, .nextTag_, .loom_, .ctxs_, .fns_, .hostReads_, .fwGot_, .fwHeld_, .sec_, .fw_, .inc_, .twin_, .freeCtr_, .out_] fl = true) : Only fl sa (State.copyDone s t k b q) := by
    refine Only.seq (l := [.regs_, .ctrs_, .tiles_, .mcFlits_, .hbm_, .cxl_, .hbmUe_, .metaCache_, .sideArea_, .inv_, .cues_, .ports_, .sess_, .reqs_, .nextTag_, .loom_, .ctxs_, .fns_, .hostReads_, .fwGot_, .fwHeld_, .sec_, .fw_, .inc_, .twin_, .freeCtr_, .out_]) hk ?_ hsub
    clear hk hsub
    unfold State.copyDone
    repeat' first
      | with_reducible exact Only.refl _ _
      | with_reducible assumption
      | with_reducible apply State.tensorCopyEnd_only
      | with_reducible apply State.setTensor_only
      | with_reducible apply State.writePieces_only
      | with_reducible apply State.draw_only
      | with_reducible apply State.tensorStatus_only
      | with_reducible apply Only.ite
      | refine Fld.yes rfl
      | (extract_lets +onlyGivenNames zz; refine Only.have_ (u := zz) ?_ (fun _ => ?_); rotate_left; try clear_value zz; revert zz; intros; rotate_right; dsimp -zeta only [zz]; clear zz)
      | (extract_lets +onlyGivenNames zz; refine Only.have_ (u := zz.1) ?_ (fun _ => ?_); rotate_left; try clear_value zz; revert zz; intros; rotate_right; dsimp -zeta only [zz]; clear zz)
      | (extract_lets +onlyGivenNames zz; try clear_value zz; revert zz; intros)
      | split

theorem State.prefetchDesc_only {fl : List Fld} {sa s : State} {t : Nat} {k : Nat} {b : Nat} {d : Desc} {y5 : Nat} {y6 : List Leaf}
    (hk : Only fl sa s) (hsub : Fld.sub [.regs_, .ctrs_, .tiles_, .cues_, .ports_, .sess_, .reqs_, .nextTag_, .loom_, .ctxs_, .fns_, .hostReads_, .pfWalks_, .fwGot_, .fwHeld_, .sec_, .fw_, .inc_, .out_] fl = true) : Only fl sa (State.prefetchDesc s t k b d y5 y6) := by
    refine Only.seq (l := [.regs_, .ctrs_, .tiles_, .cues_, .ports_, .sess_, .reqs_, .nextTag_, .loom_, .ctxs_, .fns_, .hostReads_, .pfWalks_, .fwGot_, .fwHeld_, .sec_, .fw_, .inc_, .out_]) hk ?_ hsub
    clear hk hsub
    fun_induction State.prefetchDesc s t k b d y5 y6
    all_goals
      repeat' first
        | with_reducible exact Only.refl _ _
        | with_reducible assumption
        | with_reducible apply State.walkAsk_only
        | with_reducible apply State.bump_only
        | with_reducible apply Only.ite
        | with_reducible refine Only.seq (l := [.regs_, .ctrs_, .tiles_, .cues_, .ports_, .sess_, .reqs_, .nextTag_, .loom_, .ctxs_, .fns_, .hostReads_, .pfWalks_, .fwGot_, .fwHeld_, .sec_, .fw_, .inc_, .out_]) ?_ (by assumption) rfl
        | refine Fld.yes rfl
        | (extract_lets +onlyGivenNames zz; refine Only.have_ (u := zz) ?_ (fun _ => ?_); rotate_left; try clear_value zz; revert zz; intros; rotate_right; dsimp -zeta only [zz]; clear zz)
        | refine Only.upd ?_ rfl rfl

theorem State.prefetchLevel_only {fl : List Fld} {sa s : State} {p : PfWalk}
    (hk : Only fl sa s) (hsub : Fld.sub [.regs_, .ctrs_, .tiles_, .tcache_, .wcache_, .cues_, .ports_, .sess_, .reqs_, .nextTag_, .loom_, .ctxs_, .fns_, .hostReads_, .pfWalks_, .fwGot_, .fwHeld_, .sec_, .fw_, .inc_, .freeCtr_, .out_] fl = true) : Only fl sa (State.prefetchLevel s p) := by
    refine Only.seq (l := [.regs_, .ctrs_, .tiles_, .tcache_, .wcache_, .cues_, .ports_, .sess_, .reqs_, .nextTag_, .loom_, .ctxs_, .fns_, .hostReads_, .pfWalks_, .fwGot_, .fwHeld_, .sec_, .fw_, .inc_, .freeCtr_, .out_]) hk ?_ hsub
    clear hk hsub
    unfold State.prefetchLevel
    repeat' first
      | with_reducible exact Only.refl _ _
      | with_reducible assumption
      | with_reducible apply State.tcFill_only
      | with_reducible apply State.wcFill_only
      | with_reducible apply State.walkAsk_only
      | with_reducible apply State.readEntry_only
      | with_reducible apply Only.ite
      | refine Fld.yes rfl
      | (extract_lets +onlyGivenNames zz; refine Only.have_ (u := zz) ?_ (fun _ => ?_); rotate_left; try clear_value zz; revert zz; intros; rotate_right; dsimp -zeta only [zz]; clear zz)
      | (extract_lets +onlyGivenNames zz; try clear_value zz; revert zz; intros)
      | split
      | refine Only.upd ?_ rfl rfl

theorem State.walkAt_only {fl : List Fld} {sa s : State} {t : Nat} {k : Nat} {b : Nat} {q : QDesc} {w : Walk}
    (hk : Only fl sa s) (hsub : Fld.sub [.regs_, .ctrs_, .tiles_, .mcFlits_, .hbm_, .cxl_, .inv_, .cues_, .ports_, .sess_, .reqs_, .nextTag_, .loom_, .ctxs_, .fns_, .hostReads_, .fwGot_, .fwHeld_, .sec_, .fw_, .inc_, .freeCtr_, .out_] fl = true) : Only fl sa (State.walkAt s t k b q w) := by
    refine Only.seq (l := [.regs_, .ctrs_, .tiles_, .mcFlits_, .hbm_, .cxl_, .inv_, .cues_, .ports_, .sess_, .reqs_, .nextTag_, .loom_, .ctxs_, .fns_, .hostReads_, .fwGot_, .fwHeld_, .sec_, .fw_, .inc_, .freeCtr_, .out_]) hk ?_ hsub
    clear hk hsub
    unfold State.walkAt
    repeat' first
      | with_reducible exact Only.refl _ _
      | with_reducible apply State.tensorFail_only
      | with_reducible apply State.setTensor_only
      | with_reducible apply State.walkAsk_only
      | with_reducible apply Only.ite
      | refine Fld.yes rfl

theorem State.tensorWalk_only {fl : List Fld} {sa s : State} {t : Nat} {k : Nat} {b : Nat} {q : QDesc} {va : Nat} {dst : Bool}
    (hk : Only fl sa s) (hsub : Fld.sub Fld.ofTensor1 fl = true) : Only fl sa (State.tensorWalk s t k b q va dst) := by
    refine Only.seq (l := Fld.ofTensor1) hk ?_ hsub
    clear hk hsub
    unfold State.tensorWalk
    repeat' first
      | with_reducible exact Only.refl _ _
      | with_reducible assumption
      | with_reducible apply State.tensorHold_only
      | with_reducible apply State.walkAt_only
      | with_reducible apply State.bump_only
      | with_reducible apply Only.ite
      | refine Fld.yes rfl
      | (extract_lets +onlyGivenNames zz; refine Only.have_ (u := zz) ?_ (fun _ => ?_); rotate_left; try clear_value zz; revert zz; intros; rotate_right; dsimp -zeta only [zz]; clear zz)
      | (extract_lets +onlyGivenNames zz; try clear_value zz; revert zz; intros)
      | split
      | refine Only.upd ?_ rfl rfl

theorem State.tensorMiss_only {fl : List Fld} {sa s : State} {t : Nat} {k : Nat} {b : Nat} {q : QDesc} {va : Nat} {dst : Bool}
    (hk : Only fl sa s) (hsub : Fld.sub Fld.ofTensor1 fl = true) : Only fl sa (State.tensorMiss s t k b q va dst) := by
    refine Only.seq (l := Fld.ofTensor1) hk ?_ hsub
    clear hk hsub
    unfold State.tensorMiss
    repeat' first
      | with_reducible exact Only.refl _ _
      | with_reducible apply State.tensorWalk_only
      | with_reducible apply State.bump_only
      | with_reducible apply State.tensorPin_only
      | with_reducible apply Only.ite
      | refine Fld.yes rfl
      | split

theorem State.tensorRoom_only {fl : List Fld} {sa s : State} {t : Nat} {k : Nat} {b : Nat} {q : QDesc}
    (hk : Only fl sa s) (hsub : Fld.sub [.regs_, .ctrs_, .tiles_, .mcFlits_, .hbm_, .cxl_, .inv_, .cues_, .ports_, .sess_, .reqs_, .loom_, .ctxs_, .fns_, .hostReads_, .walkWait_, .fwGot_, .fwHeld_, .sec_, .fw_, .inc_, .freeCtr_, .out_] fl = true) : Only fl sa (State.tensorRoom s t k b q) := by
    refine Only.seq (l := [.regs_, .ctrs_, .tiles_, .mcFlits_, .hbm_, .cxl_, .inv_, .cues_, .ports_, .sess_, .reqs_, .loom_, .ctxs_, .fns_, .hostReads_, .walkWait_, .fwGot_, .fwHeld_, .sec_, .fw_, .inc_, .freeCtr_, .out_]) hk ?_ hsub
    clear hk hsub
    unfold State.tensorRoom
    repeat' first
      | with_reducible exact Only.refl _ _
      | with_reducible apply State.setTensor_only
      | with_reducible apply State.tensorFail_only
      | with_reducible apply Only.ite
      | refine Fld.yes rfl
      | (extract_lets +onlyGivenNames zz; try clear_value zz; revert zz; intros)
      | split
      | refine Only.upd ?_ rfl rfl

theorem State.tensorStart_only {fl : List Fld} {sa s : State} {t : Nat} {k : Nat} {b : Nat} {q : QDesc}
    (hk : Only fl sa s) (hsub : Fld.sub [.regs_, .ctrs_, .tiles_, .mcFlits_, .hbm_, .cxl_, .inv_, .cues_, .ports_, .sess_, .reqs_, .loom_, .ctxs_, .fns_, .hostReads_, .walkWait_, .fwGot_, .fwHeld_, .sec_, .fw_, .inc_, .freeCtr_, .out_] fl = true) : Only fl sa (State.tensorStart s t k b q) := by
    refine Only.seq (l := [.regs_, .ctrs_, .tiles_, .mcFlits_, .hbm_, .cxl_, .inv_, .cues_, .ports_, .sess_, .reqs_, .loom_, .ctxs_, .fns_, .hostReads_, .walkWait_, .fwGot_, .fwHeld_, .sec_, .fw_, .inc_, .freeCtr_, .out_]) hk ?_ hsub
    clear hk hsub
    unfold State.tensorStart
    repeat' first
      | with_reducible exact Only.refl _ _
      | with_reducible apply State.tensorRoom_only
      | with_reducible apply State.tensorFail_only
      | refine Fld.yes rfl
      | split

theorem State.walkLevel_only {fl : List Fld} {sa s : State} {t : Nat} {k : Nat} {b : Nat} {q : QDesc} {w : Walk}
    (hk : Only fl sa s) (hsub : Fld.sub Fld.ofTensor2 fl = true) : Only fl sa (State.walkLevel s t k b q w) := by
    refine Only.seq (l := Fld.ofTensor2) hk ?_ hsub
    clear hk hsub
    unfold State.walkLevel
    repeat' first
      | with_reducible exact Only.refl _ _
      | with_reducible assumption
      | with_reducible apply State.tensorFail_only
      | with_reducible apply State.tensorHold_only
      | with_reducible apply State.tcFill_only
      | with_reducible apply State.tensorPin_only
      | with_reducible apply State.wcFill_only
      | with_reducible apply State.walkAt_only
      | with_reducible apply State.readEntry_only
      | refine Fld.yes rfl
      | (extract_lets +onlyGivenNames zz; refine Only.have_ (u := zz) ?_ (fun _ => ?_); rotate_left; try clear_value zz; revert zz; intros; rotate_right; dsimp -zeta only [zz]; clear zz)
      | (extract_lets +onlyGivenNames zz; refine Only.have_ (u := zz.1) ?_ (fun _ => ?_); rotate_left; try clear_value zz; revert zz; intros; rotate_right; dsimp -zeta only [zz]; clear zz)
      | split

theorem execTensorTileStart_only (t : Sys2Proof.Site) (stream : Sys2Proof.Stream) (s : State) {sz : State}
    (h : execTensorTileStart t stream s = .next sz) : Only [.regs_, .ctrs_, .tiles_, .mcFlits_, .hbm_, .cxl_, .inv_, .cues_, .ports_, .sess_, .reqs_, .loom_, .ctxs_, .fns_, .hostReads_, .walkWait_, .fwGot_, .fwHeld_, .sec_, .fw_, .inc_, .freeCtr_, .out_] s sz := by
    unfold execTensorTileStart at h
    cases h
    repeat' first
      | with_reducible exact Only.refl _ _
      | with_reducible apply State.tensorStart_only
      | with_reducible refine State.takeCredit_only (by assumption) ?_ ?_
      | with_reducible apply Only.ite
      | refine Fld.yes rfl
      | (extract_lets +onlyGivenNames zz; try clear_value zz; revert zz; intros)
      | split

theorem execMicroTlbRoom_only (t : Sys2Proof.Site) (stream : Sys2Proof.Stream) (s : State) {sz : State}
    (h : execMicroTlbRoom t stream s = .next sz) : Only [.regs_, .ctrs_, .tiles_, .mcFlits_, .hbm_, .cxl_, .inv_, .cues_, .ports_, .sess_, .reqs_, .loom_, .ctxs_, .fns_, .hostReads_, .walkWait_, .fwGot_, .fwHeld_, .sec_, .fw_, .inc_, .freeCtr_, .out_] s sz := by
    unfold execMicroTlbRoom at h
    cases h
    repeat' first
      | with_reducible exact Only.refl _ _
      | with_reducible apply State.tensorRoom_only
      | refine Fld.yes rfl
      | split

theorem execMicroTlbMiss_only (t : Sys2Proof.Site) (stream : Sys2Proof.Stream) (s : State) {sz : State}
    (h : execMicroTlbMiss t stream s = .next sz) : Only Fld.ofTensor1 s sz := by
    unfold execMicroTlbMiss at h
    cases h
    repeat' first
      | with_reducible exact Only.refl _ _
      | with_reducible assumption
      | with_reducible apply State.tensorMiss_only
      | with_reducible apply State.setTensor_only
      | refine Fld.yes rfl
      | (extract_lets +onlyGivenNames zz; refine Only.have_ (u := zz) ?_ (fun _ => ?_); rotate_left; try clear_value zz; revert zz; intros; rotate_right; dsimp -zeta only [zz]; clear zz)
      | (extract_lets +onlyGivenNames zz; try clear_value zz; revert zz; intros)
      | split

theorem execWalkLevelRead_only (t : Sys2Proof.Site) (stream : Sys2Proof.Stream) (r : Sys2Proof.WalkRead) (s : State) {sz : State}
    (h : execWalkLevelRead t stream r s = .next sz) : Only Fld.ofTensor3 s sz := by
    unfold execWalkLevelRead at h
    cases h
    repeat' first
      | with_reducible exact Only.refl _ _
      | with_reducible assumption
      | with_reducible apply State.prefetchLevel_only
      | with_reducible apply State.walkLevel_only
      | with_reducible apply State.chanCorrect_only
      | with_reducible apply State.raise_only
      | with_reducible apply State.ueMark_only
      | with_reducible apply Only.ite
      | refine Fld.yes rfl
      | (extract_lets +onlyGivenNames zz; refine Only.have_ (u := zz) ?_ (fun _ => ?_); rotate_left; try clear_value zz; revert zz; intros; rotate_right; dsimp -zeta only [zz]; clear zz)
      | split

theorem execPrefetchWalk_only (t : Sys2Proof.Site) (stream : Sys2Proof.Stream) (s : State) {sz : State}
    (h : execPrefetchWalk t stream s = .next sz) : Only [.regs_, .ctrs_, .tiles_, .cues_, .ports_, .sess_, .reqs_, .nextTag_, .loom_, .ctxs_, .fns_, .hostReads_, .pfWalks_, .fwGot_, .fwHeld_, .sec_, .fw_, .inc_, .out_] s sz := by
    unfold execPrefetchWalk at h
    cases h
    repeat' first
      | with_reducible exact Only.refl _ _
      | with_reducible assumption
      | with_reducible apply State.prefetchDesc_only
      | with_reducible apply Only.ite
      | with_reducible apply Only.foldl
      | intro _ _ _
      | refine Fld.yes rfl
      | (extract_lets +onlyGivenNames zz; try clear_value zz; revert zz; intros)
      | split

theorem execTensorTileTranslated_only (t : Sys2Proof.Site) (stream : Sys2Proof.Stream) (s : State) {sz : State}
    (h : execTensorTileTranslated t stream s = .next sz) : Only [.regs_, .ctrs_, .tiles_, .redIn_, .redStage_, .redRun_, .mcFlits_, .hbm_, .cxl_, .metaCache_, .sideArea_, .inv_, .cues_, .ports_, .sess_, .reqs_, .nextTag_, .loom_, .ctxs_, .fns_, .hostReads_, .fwGot_, .fwHeld_, .sec_, .fw_, .inc_, .freeCtr_, .out_] s sz := by
    unfold execTensorTileTranslated at h
    cases h
    repeat' first
      | with_reducible exact Only.refl _ _
      | with_reducible assumption
      | with_reducible apply State.tensorInject_only
      | with_reducible apply State.fetchPieces_only
      | with_reducible apply State.setTensor_only
      | with_reducible apply State.tensorFail_only
      | with_reducible apply Only.ite
      | refine Fld.yes rfl
      | (extract_lets +onlyGivenNames zz; refine Only.have_ (u := zz) ?_ (fun _ => ?_); rotate_left; try clear_value zz; revert zz; intros; rotate_right; dsimp -zeta only [zz]; clear zz)
      | (extract_lets +onlyGivenNames zz; refine Only.have_ (u := zz.1) ?_ (fun _ => ?_); rotate_left; try clear_value zz; revert zz; intros; rotate_right; dsimp -zeta only [zz]; clear zz)
      | (extract_lets +onlyGivenNames zz; try clear_value zz; revert zz; intros)
      | split

theorem execTensorTileComplete_only (t : Sys2Proof.Site) (stream : Sys2Proof.Stream) (s : State) {sz : State}
    (h : execTensorTileComplete t stream s = .next sz) : Only [.regs_, .ctrs_, .tiles_, .mcFlits_, .hbm_, .cxl_, .hbmUe_, .metaCache_, .sideArea_, .inv_, .cues_, .ports_, .sess_, .reqs_, .nextTag_, .loom_, .ctxs_, .fns_, .hostReads_, .fwGot_, .fwHeld_, .sec_, .fw_, .inc_, .twin_, .freeCtr_, .out_] s sz := by
    unfold execTensorTileComplete at h
    cases h
    repeat' first
      | with_reducible exact Only.refl _ _
      | with_reducible apply State.copyDone_only
      | with_reducible apply State.tensorCopyEnd_only
      | with_reducible apply State.flightSub_only
      | with_reducible apply State.popTensor_only
      | with_reducible apply Only.ite
      | refine Fld.yes rfl
      | (extract_lets +onlyGivenNames zz; try clear_value zz; revert zz; intros)
      | split

end Sys2Proof.Machine
end

