-- ==== Sys2Proof/Laws/FrameTile.lean ====
section
/-! SUPPORT. Which fields of the state each operation of Sys2Proof/Machine/Tile.lean can change. -/

namespace Sys2Proof.Machine

set_option linter.all false
set_option Elab.async false

theorem execMnop_only (t : Sys2Proof.Site) (f : BitVec 27) (vs : Sys2Proof.Word) (ss : Sys2Proof.Word) (cs : Sys2Proof.Word) (s : State) {sz : State}
    (h : execMnop t f vs ss cs s = .next sz) : Only [.regs_, .ctrs_, .tiles_, .cues_, .ports_, .sess_, .reqs_, .nextTag_, .loom_, .ctxs_, .fns_, .hostReads_, .fwGot_, .fwHeld_, .sec_, .fw_, .inc_, .freeCtr_, .out_] s sz := by
    unfold execMnop at h
    cases h
    repeat' first
      | with_reducible exact Only.refl _ _
      | with_reducible apply State.issueWords_only
      | refine Fld.yes rfl

theorem execMldw_only (t : Sys2Proof.Site) (f : BitVec 27) (vs : Sys2Proof.Word) (ss : Sys2Proof.Word) (cs : Sys2Proof.Word) (s : State) {sz : State}
    (h : execMldw t f vs ss cs s = .next sz) : Only [.regs_, .ctrs_, .tiles_, .cues_, .ports_, .sess_, .reqs_, .nextTag_, .loom_, .ctxs_, .fns_, .hostReads_, .fwGot_, .fwHeld_, .sec_, .fw_, .inc_, .freeCtr_, .out_] s sz := by
    unfold execMldw at h
    cases h
    repeat' first
      | with_reducible exact Only.refl _ _
      | with_reducible apply State.issueWords_only
      | refine Fld.yes rfl

theorem execMmul_only (t : Sys2Proof.Site) (f : BitVec 27) (vs : Sys2Proof.Word) (ss : Sys2Proof.Word) (cs : Sys2Proof.Word) (s : State) {sz : State}
    (h : execMmul t f vs ss cs s = .next sz) : Only [.regs_, .ctrs_, .tiles_, .cues_, .ports_, .sess_, .reqs_, .nextTag_, .loom_, .ctxs_, .fns_, .hostReads_, .fwGot_, .fwHeld_, .sec_, .fw_, .inc_, .freeCtr_, .out_] s sz := by
    unfold execMmul at h
    cases h
    repeat' first
      | with_reducible exact Only.refl _ _
      | with_reducible apply State.issueWords_only
      | refine Fld.yes rfl

theorem execMwb_only (t : Sys2Proof.Site) (f : BitVec 27) (vs : Sys2Proof.Word) (ss : Sys2Proof.Word) (cs : Sys2Proof.Word) (s : State) {sz : State}
    (h : execMwb t f vs ss cs s = .next sz) : Only [.regs_, .ctrs_, .tiles_, .cues_, .ports_, .sess_, .reqs_, .nextTag_, .loom_, .ctxs_, .fns_, .hostReads_, .fwGot_, .fwHeld_, .sec_, .fw_, .inc_, .freeCtr_, .out_] s sz := by
    unfold execMwb at h
    cases h
    repeat' first
      | with_reducible exact Only.refl _ _
      | with_reducible apply State.issueWords_only
      | refine Fld.yes rfl

theorem execMzero_only (t : Sys2Proof.Site) (f : BitVec 27) (vs : Sys2Proof.Word) (ss : Sys2Proof.Word) (cs : Sys2Proof.Word) (s : State) {sz : State}
    (h : execMzero t f vs ss cs s = .next sz) : Only [.regs_, .ctrs_, .tiles_, .cues_, .ports_, .sess_, .reqs_, .nextTag_, .loom_, .ctxs_, .fns_, .hostReads_, .fwGot_, .fwHeld_, .sec_, .fw_, .inc_, .freeCtr_, .out_] s sz := by
    unfold execMzero at h
    cases h
    repeat' first
      | with_reducible exact Only.refl _ _
      | with_reducible apply State.issueWords_only
      | refine Fld.yes rfl

theorem execDitherWrap_only (t : Sys2Proof.Site) (s : State) {sz : State}
    (h : execDitherWrap t s = .next sz) : Only [.tiles_] s sz := by
    unfold execDitherWrap at h
    cases h
    repeat' first
      | with_reducible exact Only.refl _ _
      | with_reducible apply State.updTile_only
      | with_reducible apply Only.ite
      | refine Fld.yes rfl

theorem execVnop_only (t : Sys2Proof.Site) (f : BitVec 26) (ms : Sys2Proof.Word) (ss : Sys2Proof.Word) (cs : Sys2Proof.Word) (s : State) {sz : State}
    (h : execVnop t f ms ss cs s = .next sz) : Only [.regs_, .ctrs_, .tiles_, .cues_, .ports_, .sess_, .reqs_, .nextTag_, .loom_, .ctxs_, .fns_, .hostReads_, .fwGot_, .fwHeld_, .sec_, .fw_, .inc_, .freeCtr_, .out_] s sz := by
    unfold execVnop at h
    cases h
    repeat' first
      | with_reducible exact Only.refl _ _
      | with_reducible apply State.issueWords_only
      | refine Fld.yes rfl

theorem execVld_only (t : Sys2Proof.Site) (f : BitVec 26) (ms : Sys2Proof.Word) (ss : Sys2Proof.Word) (cs : Sys2Proof.Word) (s : State) {sz : State}
    (h : execVld t f ms ss cs s = .next sz) : Only [.regs_, .ctrs_, .tiles_, .cues_, .ports_, .sess_, .reqs_, .nextTag_, .loom_, .ctxs_, .fns_, .hostReads_, .fwGot_, .fwHeld_, .sec_, .fw_, .inc_, .freeCtr_, .out_] s sz := by
    unfold execVld at h
    cases h
    repeat' first
      | with_reducible exact Only.refl _ _
      | with_reducible apply State.issueWords_only
      | refine Fld.yes rfl

theorem execVst_only (t : Sys2Proof.Site) (f : BitVec 26) (ms : Sys2Proof.Word) (ss : Sys2Proof.Word) (cs : Sys2Proof.Word) (s : State) {sz : State}
    (h : execVst t f ms ss cs s = .next sz) : Only [.regs_, .ctrs_, .tiles_, .cues_, .ports_, .sess_, .reqs_, .nextTag_, .loom_, .ctxs_, .fns_, .hostReads_, .fwGot_, .fwHeld_, .sec_, .fw_, .inc_, .freeCtr_, .out_] s sz := by
    unfold execVst at h
    cases h
    repeat' first
      | with_reducible exact Only.refl _ _
      | with_reducible apply State.issueWords_only
      | refine Fld.yes rfl

theorem execVadd_only (t : Sys2Proof.Site) (f : BitVec 26) (ms : Sys2Proof.Word) (ss : Sys2Proof.Word) (cs : Sys2Proof.Word) (s : State) {sz : State}
    (h : execVadd t f ms ss cs s = .next sz) : Only [.regs_, .ctrs_, .tiles_, .cues_, .ports_, .sess_, .reqs_, .nextTag_, .loom_, .ctxs_, .fns_, .hostReads_, .fwGot_, .fwHeld_, .sec_, .fw_, .inc_, .freeCtr_, .out_] s sz := by
    unfold execVadd at h
    cases h
    repeat' first
      | with_reducible exact Only.refl _ _
      | with_reducible apply State.issueWords_only
      | refine Fld.yes rfl

theorem execVsub_only (t : Sys2Proof.Site) (f : BitVec 26) (ms : Sys2Proof.Word) (ss : Sys2Proof.Word) (cs : Sys2Proof.Word) (s : State) {sz : State}
    (h : execVsub t f ms ss cs s = .next sz) : Only [.regs_, .ctrs_, .tiles_, .cues_, .ports_, .sess_, .reqs_, .nextTag_, .loom_, .ctxs_, .fns_, .hostReads_, .fwGot_, .fwHeld_, .sec_, .fw_, .inc_, .freeCtr_, .out_] s sz := by
    unfold execVsub at h
    cases h
    repeat' first
      | with_reducible exact Only.refl _ _
      | with_reducible apply State.issueWords_only
      | refine Fld.yes rfl

theorem execVmul_only (t : Sys2Proof.Site) (f : BitVec 26) (ms : Sys2Proof.Word) (ss : Sys2Proof.Word) (cs : Sys2Proof.Word) (s : State) {sz : State}
    (h : execVmul t f ms ss cs s = .next sz) : Only [.regs_, .ctrs_, .tiles_, .cues_, .ports_, .sess_, .reqs_, .nextTag_, .loom_, .ctxs_, .fns_, .hostReads_, .fwGot_, .fwHeld_, .sec_, .fw_, .inc_, .freeCtr_, .out_] s sz := by
    unfold execVmul at h
    cases h
    repeat' first
      | with_reducible exact Only.refl _ _
      | with_reducible apply State.issueWords_only
      | refine Fld.yes rfl

theorem execVfma_only (t : Sys2Proof.Site) (f : BitVec 26) (ms : Sys2Proof.Word) (ss : Sys2Proof.Word) (cs : Sys2Proof.Word) (s : State) {sz : State}
    (h : execVfma t f ms ss cs s = .next sz) : Only [.regs_, .ctrs_, .tiles_, .cues_, .ports_, .sess_, .reqs_, .nextTag_, .loom_, .ctxs_, .fns_, .hostReads_, .fwGot_, .fwHeld_, .sec_, .fw_, .inc_, .freeCtr_, .out_] s sz := by
    unfold execVfma at h
    cases h
    repeat' first
      | with_reducible exact Only.refl _ _
      | with_reducible apply State.issueWords_only
      | refine Fld.yes rfl

theorem execVmax_only (t : Sys2Proof.Site) (f : BitVec 26) (ms : Sys2Proof.Word) (ss : Sys2Proof.Word) (cs : Sys2Proof.Word) (s : State) {sz : State}
    (h : execVmax t f ms ss cs s = .next sz) : Only [.regs_, .ctrs_, .tiles_, .cues_, .ports_, .sess_, .reqs_, .nextTag_, .loom_, .ctxs_, .fns_, .hostReads_, .fwGot_, .fwHeld_, .sec_, .fw_, .inc_, .freeCtr_, .out_] s sz := by
    unfold execVmax at h
    cases h
    repeat' first
      | with_reducible exact Only.refl _ _
      | with_reducible apply State.issueWords_only
      | refine Fld.yes rfl

theorem execVmin_only (t : Sys2Proof.Site) (f : BitVec 26) (ms : Sys2Proof.Word) (ss : Sys2Proof.Word) (cs : Sys2Proof.Word) (s : State) {sz : State}
    (h : execVmin t f ms ss cs s = .next sz) : Only [.regs_, .ctrs_, .tiles_, .cues_, .ports_, .sess_, .reqs_, .nextTag_, .loom_, .ctxs_, .fns_, .hostReads_, .fwGot_, .fwHeld_, .sec_, .fw_, .inc_, .freeCtr_, .out_] s sz := by
    unfold execVmin at h
    cases h
    repeat' first
      | with_reducible exact Only.refl _ _
      | with_reducible apply State.issueWords_only
      | refine Fld.yes rfl

theorem execVabs_only (t : Sys2Proof.Site) (f : BitVec 26) (ms : Sys2Proof.Word) (ss : Sys2Proof.Word) (cs : Sys2Proof.Word) (s : State) {sz : State}
    (h : execVabs t f ms ss cs s = .next sz) : Only [.regs_, .ctrs_, .tiles_, .cues_, .ports_, .sess_, .reqs_, .nextTag_, .loom_, .ctxs_, .fns_, .hostReads_, .fwGot_, .fwHeld_, .sec_, .fw_, .inc_, .freeCtr_, .out_] s sz := by
    unfold execVabs at h
    cases h
    repeat' first
      | with_reducible exact Only.refl _ _
      | with_reducible apply State.issueWords_only
      | refine Fld.yes rfl

theorem execVneg_only (t : Sys2Proof.Site) (f : BitVec 26) (ms : Sys2Proof.Word) (ss : Sys2Proof.Word) (cs : Sys2Proof.Word) (s : State) {sz : State}
    (h : execVneg t f ms ss cs s = .next sz) : Only [.regs_, .ctrs_, .tiles_, .cues_, .ports_, .sess_, .reqs_, .nextTag_, .loom_, .ctxs_, .fns_, .hostReads_, .fwGot_, .fwHeld_, .sec_, .fw_, .inc_, .freeCtr_, .out_] s sz := by
    unfold execVneg at h
    cases h
    repeat' first
      | with_reducible exact Only.refl _ _
      | with_reducible apply State.issueWords_only
      | refine Fld.yes rfl

theorem execVsel_only (t : Sys2Proof.Site) (f : BitVec 26) (ms : Sys2Proof.Word) (ss : Sys2Proof.Word) (cs : Sys2Proof.Word) (s : State) {sz : State}
    (h : execVsel t f ms ss cs s = .next sz) : Only [.regs_, .ctrs_, .tiles_, .cues_, .ports_, .sess_, .reqs_, .nextTag_, .loom_, .ctxs_, .fns_, .hostReads_, .fwGot_, .fwHeld_, .sec_, .fw_, .inc_, .freeCtr_, .out_] s sz := by
    unfold execVsel at h
    cases h
    repeat' first
      | with_reducible exact Only.refl _ _
      | with_reducible apply State.issueWords_only
      | refine Fld.yes rfl

theorem execVbcst_only (t : Sys2Proof.Site) (f : BitVec 26) (ms : Sys2Proof.Word) (ss : Sys2Proof.Word) (cs : Sys2Proof.Word) (s : State) {sz : State}
    (h : execVbcst t f ms ss cs s = .next sz) : Only [.regs_, .ctrs_, .tiles_, .cues_, .ports_, .sess_, .reqs_, .nextTag_, .loom_, .ctxs_, .fns_, .hostReads_, .fwGot_, .fwHeld_, .sec_, .fw_, .inc_, .freeCtr_, .out_] s sz := by
    unfold execVbcst at h
    cases h
    repeat' first
      | with_reducible exact Only.refl _ _
      | with_reducible apply State.issueWords_only
      | refine Fld.yes rfl

theorem execVcmplt_only (t : Sys2Proof.Site) (f : BitVec 26) (ms : Sys2Proof.Word) (ss : Sys2Proof.Word) (cs : Sys2Proof.Word) (s : State) {sz : State}
    (h : execVcmplt t f ms ss cs s = .next sz) : Only [.regs_, .ctrs_, .tiles_, .cues_, .ports_, .sess_, .reqs_, .nextTag_, .loom_, .ctxs_, .fns_, .hostReads_, .fwGot_, .fwHeld_, .sec_, .fw_, .inc_, .freeCtr_, .out_] s sz := by
    unfold execVcmplt at h
    cases h
    repeat' first
      | with_reducible exact Only.refl _ _
      | with_reducible apply State.issueWords_only
      | refine Fld.yes rfl

theorem execVcmpeq_only (t : Sys2Proof.Site) (f : BitVec 26) (ms : Sys2Proof.Word) (ss : Sys2Proof.Word) (cs : Sys2Proof.Word) (s : State) {sz : State}
    (h : execVcmpeq t f ms ss cs s = .next sz) : Only [.regs_, .ctrs_, .tiles_, .cues_, .ports_, .sess_, .reqs_, .nextTag_, .loom_, .ctxs_, .fns_, .hostReads_, .fwGot_, .fwHeld_, .sec_, .fw_, .inc_, .freeCtr_, .out_] s sz := by
    unfold execVcmpeq at h
    cases h
    repeat' first
      | with_reducible exact Only.refl _ _
      | with_reducible apply State.issueWords_only
      | refine Fld.yes rfl

theorem execVcmple_only (t : Sys2Proof.Site) (f : BitVec 26) (ms : Sys2Proof.Word) (ss : Sys2Proof.Word) (cs : Sys2Proof.Word) (s : State) {sz : State}
    (h : execVcmple t f ms ss cs s = .next sz) : Only [.regs_, .ctrs_, .tiles_, .cues_, .ports_, .sess_, .reqs_, .nextTag_, .loom_, .ctxs_, .fns_, .hostReads_, .fwGot_, .fwHeld_, .sec_, .fw_, .inc_, .freeCtr_, .out_] s sz := by
    unfold execVcmple at h
    cases h
    repeat' first
      | with_reducible exact Only.refl _ _
      | with_reducible apply State.issueWords_only
      | refine Fld.yes rfl

theorem execVexp2_only (t : Sys2Proof.Site) (f : BitVec 26) (ms : Sys2Proof.Word) (ss : Sys2Proof.Word) (cs : Sys2Proof.Word) (s : State) {sz : State}
    (h : execVexp2 t f ms ss cs s = .next sz) : Only [.regs_, .ctrs_, .tiles_, .cues_, .ports_, .sess_, .reqs_, .nextTag_, .loom_, .ctxs_, .fns_, .hostReads_, .fwGot_, .fwHeld_, .sec_, .fw_, .inc_, .freeCtr_, .out_] s sz := by
    unfold execVexp2 at h
    cases h
    repeat' first
      | with_reducible exact Only.refl _ _
      | with_reducible apply State.issueWords_only
      | refine Fld.yes rfl

theorem execVlog2_only (t : Sys2Proof.Site) (f : BitVec 26) (ms : Sys2Proof.Word) (ss : Sys2Proof.Word) (cs : Sys2Proof.Word) (s : State) {sz : State}
    (h : execVlog2 t f ms ss cs s = .next sz) : Only [.regs_, .ctrs_, .tiles_, .cues_, .ports_, .sess_, .reqs_, .nextTag_, .loom_, .ctxs_, .fns_, .hostReads_, .fwGot_, .fwHeld_, .sec_, .fw_, .inc_, .freeCtr_, .out_] s sz := by
    unfold execVlog2 at h
    cases h
    repeat' first
      | with_reducible exact Only.refl _ _
      | with_reducible apply State.issueWords_only
      | refine Fld.yes rfl

theorem execVrcp_only (t : Sys2Proof.Site) (f : BitVec 26) (ms : Sys2Proof.Word) (ss : Sys2Proof.Word) (cs : Sys2Proof.Word) (s : State) {sz : State}
    (h : execVrcp t f ms ss cs s = .next sz) : Only [.regs_, .ctrs_, .tiles_, .cues_, .ports_, .sess_, .reqs_, .nextTag_, .loom_, .ctxs_, .fns_, .hostReads_, .fwGot_, .fwHeld_, .sec_, .fw_, .inc_, .freeCtr_, .out_] s sz := by
    unfold execVrcp at h
    cases h
    repeat' first
      | with_reducible exact Only.refl _ _
      | with_reducible apply State.issueWords_only
      | refine Fld.yes rfl

theorem execVrsq_only (t : Sys2Proof.Site) (f : BitVec 26) (ms : Sys2Proof.Word) (ss : Sys2Proof.Word) (cs : Sys2Proof.Word) (s : State) {sz : State}
    (h : execVrsq t f ms ss cs s = .next sz) : Only [.regs_, .ctrs_, .tiles_, .cues_, .ports_, .sess_, .reqs_, .nextTag_, .loom_, .ctxs_, .fns_, .hostReads_, .fwGot_, .fwHeld_, .sec_, .fw_, .inc_, .freeCtr_, .out_] s sz := by
    unfold execVrsq at h
    cases h
    repeat' first
      | with_reducible exact Only.refl _ _
      | with_reducible apply State.issueWords_only
      | refine Fld.yes rfl

theorem execVtanh_only (t : Sys2Proof.Site) (f : BitVec 26) (ms : Sys2Proof.Word) (ss : Sys2Proof.Word) (cs : Sys2Proof.Word) (s : State) {sz : State}
    (h : execVtanh t f ms ss cs s = .next sz) : Only [.regs_, .ctrs_, .tiles_, .cues_, .ports_, .sess_, .reqs_, .nextTag_, .loom_, .ctxs_, .fns_, .hostReads_, .fwGot_, .fwHeld_, .sec_, .fw_, .inc_, .freeCtr_, .out_] s sz := by
    unfold execVtanh at h
    cases h
    repeat' first
      | with_reducible exact Only.refl _ _
      | with_reducible apply State.issueWords_only
      | refine Fld.yes rfl

theorem execVrsum_only (t : Sys2Proof.Site) (f : BitVec 26) (ms : Sys2Proof.Word) (ss : Sys2Proof.Word) (cs : Sys2Proof.Word) (s : State) {sz : State}
    (h : execVrsum t f ms ss cs s = .next sz) : Only [.regs_, .ctrs_, .tiles_, .cues_, .ports_, .sess_, .reqs_, .nextTag_, .loom_, .ctxs_, .fns_, .hostReads_, .fwGot_, .fwHeld_, .sec_, .fw_, .inc_, .freeCtr_, .out_] s sz := by
    unfold execVrsum at h
    cases h
    repeat' first
      | with_reducible exact Only.refl _ _
      | with_reducible apply State.issueWords_only
      | refine Fld.yes rfl

theorem execVrmax_only (t : Sys2Proof.Site) (f : BitVec 26) (ms : Sys2Proof.Word) (ss : Sys2Proof.Word) (cs : Sys2Proof.Word) (s : State) {sz : State}
    (h : execVrmax t f ms ss cs s = .next sz) : Only [.regs_, .ctrs_, .tiles_, .cues_, .ports_, .sess_, .reqs_, .nextTag_, .loom_, .ctxs_, .fns_, .hostReads_, .fwGot_, .fwHeld_, .sec_, .fw_, .inc_, .freeCtr_, .out_] s sz := by
    unfold execVrmax at h
    cases h
    repeat' first
      | with_reducible exact Only.refl _ _
      | with_reducible apply State.issueWords_only
      | refine Fld.yes rfl

theorem execVrmin_only (t : Sys2Proof.Site) (f : BitVec 26) (ms : Sys2Proof.Word) (ss : Sys2Proof.Word) (cs : Sys2Proof.Word) (s : State) {sz : State}
    (h : execVrmin t f ms ss cs s = .next sz) : Only [.regs_, .ctrs_, .tiles_, .cues_, .ports_, .sess_, .reqs_, .nextTag_, .loom_, .ctxs_, .fns_, .hostReads_, .fwGot_, .fwHeld_, .sec_, .fw_, .inc_, .freeCtr_, .out_] s sz := by
    unfold execVrmin at h
    cases h
    repeat' first
      | with_reducible exact Only.refl _ _
      | with_reducible apply State.issueWords_only
      | refine Fld.yes rfl

theorem execSnop_only (t : Sys2Proof.Site) (f : BitVec 28) (ms : Sys2Proof.Word) (vs : Sys2Proof.Word) (cs : Sys2Proof.Word) (s : State) {sz : State}
    (h : execSnop t f ms vs cs s = .next sz) : Only [.regs_, .ctrs_, .tiles_, .cues_, .ports_, .sess_, .reqs_, .nextTag_, .loom_, .ctxs_, .fns_, .hostReads_, .fwGot_, .fwHeld_, .sec_, .fw_, .inc_, .freeCtr_, .out_] s sz := by
    unfold execSnop at h
    cases h
    repeat' first
      | with_reducible exact Only.refl _ _
      | with_reducible apply State.issueWords_only
      | refine Fld.yes rfl

theorem execSq_only (t : Sys2Proof.Site) (f : BitVec 28) (ms : Sys2Proof.Word) (vs : Sys2Proof.Word) (cs : Sys2Proof.Word) (s : State) {sz : State}
    (h : execSq t f ms vs cs s = .next sz) : Only [.regs_, .ctrs_, .tiles_, .cues_, .ports_, .sess_, .reqs_, .nextTag_, .loom_, .ctxs_, .fns_, .hostReads_, .fwGot_, .fwHeld_, .sec_, .fw_, .inc_, .freeCtr_, .out_] s sz := by
    unfold execSq at h
    cases h
    repeat' first
      | with_reducible exact Only.refl _ _
      | with_reducible apply State.issueWords_only
      | refine Fld.yes rfl

theorem execStreamSlotFree_only (t : Sys2Proof.Site) (stream : Sys2Proof.Stream) (s : State) {sz : State}
    (h : execStreamSlotFree t stream s = .next sz) : Only [.regs_, .ctrs_, .tiles_, .cues_, .ports_, .sess_, .reqs_, .nextTag_, .loom_, .ctxs_, .fns_, .hostReads_, .fwGot_, .fwHeld_, .sec_, .fw_, .inc_, .freeCtr_, .out_] s sz := by
    unfold execStreamSlotFree at h
    cases h
    repeat' first
      | with_reducible exact Only.refl _ _
      | with_reducible apply State.streamRoom_only
      | refine Fld.yes rfl

theorem execScfg_only (t : Sys2Proof.Site) (f : BitVec 28) (ms : Sys2Proof.Word) (vs : Sys2Proof.Word) (cs : Sys2Proof.Word) (s : State) {sz : State}
    (h : execScfg t f ms vs cs s = .next sz) : Only [.regs_, .ctrs_, .tiles_, .cues_, .ports_, .sess_, .reqs_, .nextTag_, .loom_, .ctxs_, .fns_, .hostReads_, .fwGot_, .fwHeld_, .sec_, .fw_, .inc_, .freeCtr_, .out_] s sz := by
    unfold execScfg at h
    cases h
    repeat' first
      | with_reducible exact Only.refl _ _
      | with_reducible apply State.issueWords_only
      | refine Fld.yes rfl

theorem execCnop_only (t : Sys2Proof.Site) (f : BitVec 26) (ms : Sys2Proof.Word) (vs : Sys2Proof.Word) (ss : Sys2Proof.Word) (s : State) {sz : State}
    (h : execCnop t f ms vs ss s = .next sz) : Only [.regs_, .ctrs_, .tiles_, .cues_, .ports_, .sess_, .reqs_, .nextTag_, .loom_, .ctxs_, .fns_, .hostReads_, .fwGot_, .fwHeld_, .sec_, .fw_, .inc_, .freeCtr_, .out_] s sz := by
    unfold execCnop at h
    cases h
    repeat' first
      | with_reducible exact Only.refl _ _
      | with_reducible apply State.issueWords_only
      | refine Fld.yes rfl

theorem execBr_only (t : Sys2Proof.Site) (f : BitVec 26) (ms : Sys2Proof.Word) (vs : Sys2Proof.Word) (ss : Sys2Proof.Word) (s : State) {sz : State}
    (h : execBr t f ms vs ss s = .next sz) : Only [.regs_, .ctrs_, .tiles_, .cues_, .ports_, .sess_, .reqs_, .nextTag_, .loom_, .ctxs_, .fns_, .hostReads_, .fwGot_, .fwHeld_, .sec_, .fw_, .inc_, .freeCtr_, .out_] s sz := by
    unfold execBr at h
    cases h
    repeat' first
      | with_reducible exact Only.refl _ _
      | with_reducible apply State.issueWords_only
      | refine Fld.yes rfl

theorem execBrz_only (t : Sys2Proof.Site) (f : BitVec 26) (ms : Sys2Proof.Word) (vs : Sys2Proof.Word) (ss : Sys2Proof.Word) (s : State) {sz : State}
    (h : execBrz t f ms vs ss s = .next sz) : Only [.regs_, .ctrs_, .tiles_, .cues_, .ports_, .sess_, .reqs_, .nextTag_, .loom_, .ctxs_, .fns_, .hostReads_, .fwGot_, .fwHeld_, .sec_, .fw_, .inc_, .freeCtr_, .out_] s sz := by
    unfold execBrz at h
    cases h
    repeat' first
      | with_reducible exact Only.refl _ _
      | with_reducible apply State.issueWords_only
      | refine Fld.yes rfl

theorem execBrnz_only (t : Sys2Proof.Site) (f : BitVec 26) (ms : Sys2Proof.Word) (vs : Sys2Proof.Word) (ss : Sys2Proof.Word) (s : State) {sz : State}
    (h : execBrnz t f ms vs ss s = .next sz) : Only [.regs_, .ctrs_, .tiles_, .cues_, .ports_, .sess_, .reqs_, .nextTag_, .loom_, .ctxs_, .fns_, .hostReads_, .fwGot_, .fwHeld_, .sec_, .fw_, .inc_, .freeCtr_, .out_] s sz := by
    unfold execBrnz at h
    cases h
    repeat' first
      | with_reducible exact Only.refl _ _
      | with_reducible apply State.issueWords_only
      | refine Fld.yes rfl

theorem execLoop_only (t : Sys2Proof.Site) (f : BitVec 26) (ms : Sys2Proof.Word) (vs : Sys2Proof.Word) (ss : Sys2Proof.Word) (s : State) {sz : State}
    (h : execLoop t f ms vs ss s = .next sz) : Only [.regs_, .ctrs_, .tiles_, .cues_, .ports_, .sess_, .reqs_, .nextTag_, .loom_, .ctxs_, .fns_, .hostReads_, .fwGot_, .fwHeld_, .sec_, .fw_, .inc_, .freeCtr_, .out_] s sz := by
    unfold execLoop at h
    cases h
    repeat' first
      | with_reducible exact Only.refl _ _
      | with_reducible apply State.issueWords_only
      | refine Fld.yes rfl

theorem execWaitsem_only (t : Sys2Proof.Site) (f : BitVec 26) (ms : Sys2Proof.Word) (vs : Sys2Proof.Word) (ss : Sys2Proof.Word) (s : State) {sz : State}
    (h : execWaitsem t f ms vs ss s = .next sz) : Only [.regs_, .ctrs_, .tiles_, .cues_, .ports_, .sess_, .reqs_, .nextTag_, .loom_, .ctxs_, .fns_, .hostReads_, .fwGot_, .fwHeld_, .sec_, .fw_, .inc_, .freeCtr_, .out_] s sz := by
    unfold execWaitsem at h
    cases h
    repeat' first
      | with_reducible exact Only.refl _ _
      | with_reducible apply State.issueWords_only
      | refine Fld.yes rfl

theorem execWaitsemSatisfied_only (t : Sys2Proof.Site) (s : State) {sz : State}
    (h : execWaitsemSatisfied t s = .next sz) : Only [.regs_, .ctrs_, .tiles_, .cues_, .ports_, .sess_, .reqs_, .nextTag_, .loom_, .ctxs_, .fns_, .hostReads_, .fwGot_, .fwHeld_, .sec_, .fw_, .inc_, .freeCtr_, .out_] s sz := by
    unfold execWaitsemSatisfied at h
    cases h
    repeat' first
      | with_reducible exact Only.refl _ _
      | with_reducible apply State.reissue_only
      | refine Fld.yes rfl

theorem execSemsig_only (t : Sys2Proof.Site) (f : BitVec 26) (ms : Sys2Proof.Word) (vs : Sys2Proof.Word) (ss : Sys2Proof.Word) (s : State) {sz : State}
    (h : execSemsig t f ms vs ss s = .next sz) : Only [.regs_, .ctrs_, .tiles_, .cues_, .ports_, .sess_, .reqs_, .nextTag_, .loom_, .ctxs_, .fns_, .hostReads_, .fwGot_, .fwHeld_, .sec_, .fw_, .inc_, .freeCtr_, .out_] s sz := by
    unfold execSemsig at h
    cases h
    repeat' first
      | with_reducible exact Only.refl _ _
      | with_reducible apply State.issueWords_only
      | refine Fld.yes rfl

theorem execWaitcue_only (t : Sys2Proof.Site) (f : BitVec 26) (ms : Sys2Proof.Word) (vs : Sys2Proof.Word) (ss : Sys2Proof.Word) (s : State) {sz : State}
    (h : execWaitcue t f ms vs ss s = .next sz) : Only [.regs_, .ctrs_, .tiles_, .cues_, .ports_, .sess_, .reqs_, .nextTag_, .loom_, .ctxs_, .fns_, .hostReads_, .fwGot_, .fwHeld_, .sec_, .fw_, .inc_, .freeCtr_, .out_] s sz := by
    unfold execWaitcue at h
    cases h
    repeat' first
      | with_reducible exact Only.refl _ _
      | with_reducible apply State.issueWords_only
      | refine Fld.yes rfl

theorem execWaitcueSatisfied_only (t : Sys2Proof.Site) (s : State) {sz : State}
    (h : execWaitcueSatisfied t s = .next sz) : Only [.regs_, .ctrs_, .tiles_, .cues_, .ports_, .sess_, .reqs_, .nextTag_, .loom_, .ctxs_, .fns_, .hostReads_, .fwGot_, .fwHeld_, .sec_, .fw_, .inc_, .freeCtr_, .out_] s sz := by
    unfold execWaitcueSatisfied at h
    cases h
    repeat' first
      | with_reducible exact Only.refl _ _
      | with_reducible apply State.reissue_only
      | refine Fld.yes rfl

theorem execFence_only (t : Sys2Proof.Site) (f : BitVec 26) (ms : Sys2Proof.Word) (vs : Sys2Proof.Word) (ss : Sys2Proof.Word) (s : State) {sz : State}
    (h : execFence t f ms vs ss s = .next sz) : Only [.regs_, .ctrs_, .tiles_, .cues_, .ports_, .sess_, .reqs_, .nextTag_, .loom_, .ctxs_, .fns_, .hostReads_, .fwGot_, .fwHeld_, .sec_, .fw_, .inc_, .freeCtr_, .out_] s sz := by
    unfold execFence at h
    cases h
    repeat' first
      | with_reducible exact Only.refl _ _
      | with_reducible apply State.issueWords_only
      | refine Fld.yes rfl

theorem execFenceSatisfied_only (t : Sys2Proof.Site) (s : State) {sz : State}
    (h : execFenceSatisfied t s = .next sz) : Only [.regs_, .ctrs_, .tiles_, .cues_, .ports_, .sess_, .reqs_, .nextTag_, .loom_, .ctxs_, .fns_, .hostReads_, .fwGot_, .fwHeld_, .sec_, .fw_, .inc_, .freeCtr_, .out_] s sz := by
    unfold execFenceSatisfied at h
    cases h
    repeat' first
      | with_reducible exact Only.refl _ _
      | with_reducible apply State.reissue_only
      | refine Fld.yes rfl

theorem execTmark_only (t : Sys2Proof.Site) (f : BitVec 26) (ms : Sys2Proof.Word) (vs : Sys2Proof.Word) (ss : Sys2Proof.Word) (s : State) {sz : State}
    (h : execTmark t f ms vs ss s = .next sz) : Only [.regs_, .ctrs_, .tiles_, .cues_, .ports_, .sess_, .reqs_, .nextTag_, .loom_, .ctxs_, .fns_, .hostReads_, .fwGot_, .fwHeld_, .sec_, .fw_, .inc_, .freeCtr_, .out_] s sz := by
    unfold execTmark at h
    cases h
    repeat' first
      | with_reducible exact Only.refl _ _
      | with_reducible apply State.issueWords_only
      | refine Fld.yes rfl

theorem execSeed_only (t : Sys2Proof.Site) (f : BitVec 26) (ms : Sys2Proof.Word) (vs : Sys2Proof.Word) (ss : Sys2Proof.Word) (s : State) {sz : State}
    (h : execSeed t f ms vs ss s = .next sz) : Only [.regs_, .ctrs_, .tiles_, .cues_, .ports_, .sess_, .reqs_, .nextTag_, .loom_, .ctxs_, .fns_, .hostReads_, .fwGot_, .fwHeld_, .sec_, .fw_, .inc_, .freeCtr_, .out_] s sz := by
    unfold execSeed at h
    cases h
    repeat' first
      | with_reducible exact Only.refl _ _
      | with_reducible apply State.issueWords_only
      | refine Fld.yes rfl

theorem execRstat_only (t : Sys2Proof.Site) (f : BitVec 26) (ms : Sys2Proof.Word) (vs : Sys2Proof.Word) (ss : Sys2Proof.Word) (s : State) {sz : State}
    (h : execRstat t f ms vs ss s = .next sz) : Only [.regs_, .ctrs_, .tiles_, .cues_, .ports_, .sess_, .reqs_, .nextTag_, .loom_, .ctxs_, .fns_, .hostReads_, .fwGot_, .fwHeld_, .sec_, .fw_, .inc_, .freeCtr_, .out_] s sz := by
    unfold execRstat at h
    cases h
    repeat' first
      | with_reducible exact Only.refl _ _
      | with_reducible apply State.issueWords_only
      | refine Fld.yes rfl

theorem execCstat_only (t : Sys2Proof.Site) (f : BitVec 26) (ms : Sys2Proof.Word) (vs : Sys2Proof.Word) (ss : Sys2Proof.Word) (s : State) {sz : State}
    (h : execCstat t f ms vs ss s = .next sz) : Only [.regs_, .ctrs_, .tiles_, .cues_, .ports_, .sess_, .reqs_, .nextTag_, .loom_, .ctxs_, .fns_, .hostReads_, .fwGot_, .fwHeld_, .sec_, .fw_, .inc_, .freeCtr_, .out_] s sz := by
    unfold execCstat at h
    cases h
    repeat' first
      | with_reducible exact Only.refl _ _
      | with_reducible apply State.issueWords_only
      | refine Fld.yes rfl

theorem execSeta_only (t : Sys2Proof.Site) (f : BitVec 26) (ms : Sys2Proof.Word) (vs : Sys2Proof.Word) (ss : Sys2Proof.Word) (s : State) {sz : State}
    (h : execSeta t f ms vs ss s = .next sz) : Only [.regs_, .ctrs_, .tiles_, .cues_, .ports_, .sess_, .reqs_, .nextTag_, .loom_, .ctxs_, .fns_, .hostReads_, .fwGot_, .fwHeld_, .sec_, .fw_, .inc_, .freeCtr_, .out_] s sz := by
    unfold execSeta at h
    cases h
    repeat' first
      | with_reducible exact Only.refl _ _
      | with_reducible apply State.issueWords_only
      | refine Fld.yes rfl

theorem execSetst_only (t : Sys2Proof.Site) (f : BitVec 26) (ms : Sys2Proof.Word) (vs : Sys2Proof.Word) (ss : Sys2Proof.Word) (s : State) {sz : State}
    (h : execSetst t f ms vs ss s = .next sz) : Only [.regs_, .ctrs_, .tiles_, .cues_, .ports_, .sess_, .reqs_, .nextTag_, .loom_, .ctxs_, .fns_, .hostReads_, .fwGot_, .fwHeld_, .sec_, .fw_, .inc_, .freeCtr_, .out_] s sz := by
    unfold execSetst at h
    cases h
    repeat' first
      | with_reducible exact Only.refl _ _
      | with_reducible apply State.issueWords_only
      | refine Fld.yes rfl

theorem execAdda_only (t : Sys2Proof.Site) (f : BitVec 26) (ms : Sys2Proof.Word) (vs : Sys2Proof.Word) (ss : Sys2Proof.Word) (s : State) {sz : State}
    (h : execAdda t f ms vs ss s = .next sz) : Only [.regs_, .ctrs_, .tiles_, .cues_, .ports_, .sess_, .reqs_, .nextTag_, .loom_, .ctxs_, .fns_, .hostReads_, .fwGot_, .fwHeld_, .sec_, .fw_, .inc_, .freeCtr_, .out_] s sz := by
    unfold execAdda at h
    cases h
    repeat' first
      | with_reducible exact Only.refl _ _
      | with_reducible apply State.issueWords_only
      | refine Fld.yes rfl

theorem execSeti_only (t : Sys2Proof.Site) (f : BitVec 26) (ms : Sys2Proof.Word) (vs : Sys2Proof.Word) (ss : Sys2Proof.Word) (s : State) {sz : State}
    (h : execSeti t f ms vs ss s = .next sz) : Only [.regs_, .ctrs_, .tiles_, .cues_, .ports_, .sess_, .reqs_, .nextTag_, .loom_, .ctxs_, .fns_, .hostReads_, .fwGot_, .fwHeld_, .sec_, .fw_, .inc_, .freeCtr_, .out_] s sz := by
    unfold execSeti at h
    cases h
    repeat' first
      | with_reducible exact Only.refl _ _
      | with_reducible apply State.issueWords_only
      | refine Fld.yes rfl

theorem execAddi_only (t : Sys2Proof.Site) (f : BitVec 26) (ms : Sys2Proof.Word) (vs : Sys2Proof.Word) (ss : Sys2Proof.Word) (s : State) {sz : State}
    (h : execAddi t f ms vs ss s = .next sz) : Only [.regs_, .ctrs_, .tiles_, .cues_, .ports_, .sess_, .reqs_, .nextTag_, .loom_, .ctxs_, .fns_, .hostReads_, .fwGot_, .fwHeld_, .sec_, .fw_, .inc_, .freeCtr_, .out_] s sz := by
    unfold execAddi at h
    cases h
    repeat' first
      | with_reducible exact Only.refl _ _
      | with_reducible apply State.issueWords_only
      | refine Fld.yes rfl

theorem execLdi_only (t : Sys2Proof.Site) (f : BitVec 26) (ms : Sys2Proof.Word) (vs : Sys2Proof.Word) (ss : Sys2Proof.Word) (s : State) {sz : State}
    (h : execLdi t f ms vs ss s = .next sz) : Only [.regs_, .ctrs_, .tiles_, .cues_, .ports_, .sess_, .reqs_, .nextTag_, .loom_, .ctxs_, .fns_, .hostReads_, .fwGot_, .fwHeld_, .sec_, .fw_, .inc_, .freeCtr_, .out_] s sz := by
    unfold execLdi at h
    cases h
    repeat' first
      | with_reducible exact Only.refl _ _
      | with_reducible apply State.issueWords_only
      | refine Fld.yes rfl

theorem execTinfo_only (t : Sys2Proof.Site) (f : BitVec 26) (ms : Sys2Proof.Word) (vs : Sys2Proof.Word) (ss : Sys2Proof.Word) (s : State) {sz : State}
    (h : execTinfo t f ms vs ss s = .next sz) : Only [.regs_, .ctrs_, .tiles_, .cues_, .ports_, .sess_, .reqs_, .nextTag_, .loom_, .ctxs_, .fns_, .hostReads_, .fwGot_, .fwHeld_, .sec_, .fw_, .inc_, .freeCtr_, .out_] s sz := by
    unfold execTinfo at h
    cases h
    repeat' first
      | with_reducible exact Only.refl _ _
      | with_reducible apply State.issueWords_only
      | refine Fld.yes rfl

theorem execBow_only (t : Sys2Proof.Site) (f : BitVec 26) (ms : Sys2Proof.Word) (vs : Sys2Proof.Word) (ss : Sys2Proof.Word) (s : State) {sz : State}
    (h : execBow t f ms vs ss s = .next sz) : Only [.regs_, .ctrs_, .tiles_, .cues_, .ports_, .sess_, .reqs_, .nextTag_, .loom_, .ctxs_, .fns_, .hostReads_, .fwGot_, .fwHeld_, .sec_, .fw_, .inc_, .freeCtr_, .out_] s sz := by
    unfold execBow at h
    cases h
    repeat' first
      | with_reducible exact Only.refl _ _
      | with_reducible apply State.issueWords_only
      | refine Fld.yes rfl

theorem execStepend_only (t : Sys2Proof.Site) (f : BitVec 26) (ms : Sys2Proof.Word) (vs : Sys2Proof.Word) (ss : Sys2Proof.Word) (s : State) {sz : State}
    (h : execStepend t f ms vs ss s = .next sz) : Only [.regs_, .ctrs_, .tiles_, .cues_, .ports_, .sess_, .reqs_, .nextTag_, .loom_, .ctxs_, .fns_, .hostReads_, .fwGot_, .fwHeld_, .sec_, .fw_, .inc_, .freeCtr_, .out_] s sz := by
    unfold execStepend at h
    cases h
    repeat' first
      | with_reducible exact Only.refl _ _
      | with_reducible apply State.issueWords_only
      | refine Fld.yes rfl

theorem execHalt_only (t : Sys2Proof.Site) (f : BitVec 26) (ms : Sys2Proof.Word) (vs : Sys2Proof.Word) (ss : Sys2Proof.Word) (s : State) {sz : State}
    (h : execHalt t f ms vs ss s = .next sz) : Only [.regs_, .ctrs_, .tiles_, .cues_, .ports_, .sess_, .reqs_, .nextTag_, .loom_, .ctxs_, .fns_, .hostReads_, .fwGot_, .fwHeld_, .sec_, .fw_, .inc_, .freeCtr_, .out_] s sz := by
    unfold execHalt at h
    cases h
    repeat' first
      | with_reducible exact Only.refl _ _
      | with_reducible apply State.issueWords_only
      | refine Fld.yes rfl

end Sys2Proof.Machine
end

