-- ==== Sys2Proof/Laws/FrameStep.lean ====
section
/-! SUPPORT. Which fields of the state each operation of Sys2Proof/Machine/Step.lean can change. -/

namespace Sys2Proof.Machine

set_option linter.all false
set_option Elab.async false

theorem State.withFetchWord_only {fl : List Fld} {sa s : State} {nbits : Nat} {w : Nat}
    (hk : Only fl sa s) : Only fl sa (State.withFetchWord s nbits w) := hk

end Sys2Proof.Machine
end

