-- ==== Sys2Proof/Laws/Maps.lean ====
section
/-! SUPPORT. The laws of the finite maps: what a read finds after a write, and that every operation keeps the canonical form. -/

namespace Sys2Proof.Machine

section
variable {α : Type}

/-- An erased key reads as the default. -/
@[simp] theorem mget_merase_self (d : α) (m : Sparse α) (k : Nat) : mget d (merase m k) k = d := by
  induction m with
  | nil => rfl
  | cons e r ih =>
    unfold merase
    split
    · exact ih
    · rename_i h
      simp [mget, h, ih]

/-- Erasing one key leaves the others alone. -/
theorem mget_merase_ne (d : α) (m : Sparse α) {k j : Nat} (h : j ≠ k) : mget d (merase m k) j = mget d m j := by
  induction m with
  | nil => rfl
  | cons e r ih =>
    unfold merase
    split
    · rename_i hk
      have : ¬ e.1 = j := fun hj => h (hj.symm.trans hk)
      simp [mget, this, ih]
    · simp only [mget, ih]

/-- A put key reads as its value, if no other entry has the key. -/
theorem mget_minsert_self (d : α) (m : Sparse α) (k : Nat) (v : α) (h : ∀ e ∈ m, e.1 ≠ k) : mget d (minsert m k v) k = v := by
  induction m with
  | nil => simp [minsert, mget]
  | cons e r ih =>
    unfold minsert
    split
    · simp [mget]
    · have := h e List.mem_cons_self
      simp only [mget, this, ↓reduceIte]
      exact ih (fun x hx => h x (List.mem_cons_of_mem _ hx))

/-- Putting one key leaves the others alone. -/
theorem mget_minsert_ne (d : α) (m : Sparse α) {k j : Nat} (v : α) (h : j ≠ k) : mget d (minsert m k v) j = mget d m j := by
  induction m with
  | nil => simp [minsert, mget, h.symm]
  | cons e r ih =>
    unfold minsert
    split
    · simp [mget, h.symm]
    · simp only [mget, ih]

/-- No entry of an erased map has the key. -/
theorem merase_ne (m : Sparse α) (k : Nat) : ∀ e ∈ merase m k, e.1 ≠ k := by
  induction m with
  | nil => simp [merase]
  | cons x r ih =>
    unfold merase
    split
    · exact ih
    · rename_i h
      intro e he
      rcases List.mem_cons.mp he with rfl | he
      · exact h
      · exact ih e he

variable [DecidableEq α]

/-- A read of the key written gives the value written. -/
@[simp] theorem mget_mset_self (d : α) (m : Sparse α) (k : Nat) (v : α) : mget d (mset d m k v) k = v := by
  unfold mset
  split
  · rename_i h
    simp [h]
  · exact mget_minsert_self d _ k v (merase_ne m k)

/-- A write leaves every other key alone. -/
theorem mget_mset_ne (d d' : α) (m : Sparse α) {k j : Nat} (v : α) (h : j ≠ k) :
    mget d' (mset d m k v) j = mget d' m j := by
  unfold mset
  split
  · exact mget_merase_ne d' m h
  · rw [mget_minsert_ne d' _ v h, mget_merase_ne d' m h]

/-- An update of a key. -/
@[simp] theorem mget_mupd_self (d : α) (m : Sparse α) (k : Nat) (f : α → α) : mget d (mupd d m k f) k = f (mget d m k) :=
  mget_mset_self ..

/-- An update leaves every other key alone. -/
theorem mget_mupd_ne (d : α) (m : Sparse α) {k j : Nat} (f : α → α) (h : j ≠ k) : mget d (mupd d m k f) j = mget d m j :=
  mget_mset_ne d d m _ h

/-- A map that rises from a bound rises from every lower one. -/
theorem mwfFrom_mono {d : α} {m : Sparse α} {lo lo' : Nat} (h : mwfFrom d lo m = true) (hl : lo' ≤ lo) :
    mwfFrom d lo' m = true := by
  cases m with
  | nil => rfl
  | cons e r =>
    simp only [mwfFrom, Bool.and_eq_true, decide_eq_true_eq] at *
    exact ⟨⟨by omega, h.1.2⟩, h.2⟩

/-- Erasing keeps the form. -/
theorem mwfFrom_merase {d : α} {m : Sparse α} {lo : Nat} (k : Nat) (h : mwfFrom d lo m = true) :
    mwfFrom d lo (merase m k) = true := by
  induction m generalizing lo with
  | nil => rfl
  | cons e r ih =>
    simp only [mwfFrom, Bool.and_eq_true, decide_eq_true_eq] at h
    unfold merase
    split
    · exact mwfFrom_mono (ih h.2) (by omega)
    · simp only [mwfFrom, Bool.and_eq_true, decide_eq_true_eq]
      exact ⟨h.1, ih h.2⟩

/-- Putting a key that no entry has keeps the form. -/
theorem mwfFrom_minsert {d : α} {m : Sparse α} {lo k : Nat} {v : α} (hv : v ≠ d) (hk : lo ≤ k) (hn : ∀ e ∈ m, e.1 ≠ k)
    (h : mwfFrom d lo m = true) : mwfFrom d lo (minsert m k v) = true := by
  induction m generalizing lo with
  | nil => simp [minsert, mwfFrom, hv, hk]
  | cons e r ih =>
    simp only [mwfFrom, Bool.and_eq_true, decide_eq_true_eq] at h
    have hne := hn e List.mem_cons_self
    unfold minsert
    split
    · simp only [mwfFrom, Bool.and_eq_true, decide_eq_true_eq]
      exact ⟨⟨hk, hv⟩, ⟨by omega, h.1.2⟩, h.2⟩
    · simp only [mwfFrom, Bool.and_eq_true, decide_eq_true_eq]
      exact ⟨h.1, ih (by omega) (fun x hx => hn x (List.mem_cons_of_mem _ hx)) h.2⟩

/-- A write keeps the canonical form. -/
theorem mset_wf {d : α} {m : Sparse α} (k : Nat) (v : α) (h : mwf d m = true) : mwf d (mset d m k v) = true := by
  unfold mset
  split
  · exact mwfFrom_merase k h
  · rename_i hv
    exact mwfFrom_minsert hv (Nat.zero_le k) (merase_ne m k) (mwfFrom_merase k h)

/-- An update keeps the canonical form. -/
theorem mupd_wf {d : α} {m : Sparse α} (k : Nat) (f : α → α) (h : mwf d m = true) : mwf d (mupd d m k f) = true :=
  mset_wf k _ h

/-- A map in canonical form that rises from a bound gives the default below it. -/
theorem mget_below {d : α} {m : Sparse α} {lo k : Nat} (h : mwfFrom d lo m = true) (hk : k < lo) : mget d m k = d := by
  induction m generalizing lo with
  | nil => rfl
  | cons e r ih =>
    simp only [mwfFrom, Bool.and_eq_true, decide_eq_true_eq] at h
    have : e.1 ≠ k := by omega
    simp only [mget, this, ↓reduceIte]
    exact ih h.2 (by omega)

/-- Two maps in canonical form that read alike are equal data. -/
theorem mwfFrom_ext {d : α} {m n : Sparse α} {lo : Nat} (hm : mwfFrom d lo m = true) (hn : mwfFrom d lo n = true)
    (h : ∀ k, mget d m k = mget d n k) : m = n := by
  induction m generalizing n lo with
  | nil =>
    cases n with
    | nil => rfl
    | cons e r =>
      simp only [mwfFrom, Bool.and_eq_true, decide_eq_true_eq] at hn
      have := h e.1
      simp only [mget, ↓reduceIte] at this
      exact absurd this.symm hn.1.2
  | cons e r ih =>
    simp only [mwfFrom, Bool.and_eq_true, decide_eq_true_eq] at hm
    cases n with
    | nil =>
      have := h e.1
      simp only [mget, ↓reduceIte] at this
      exact absurd this hm.1.2
    | cons x t =>
      simp only [mwfFrom, Bool.and_eq_true, decide_eq_true_eq] at hn
      have hk : e.1 = x.1 := by
        rcases Nat.lt_trichotomy e.1 x.1 with hlt | heq | hgt
        · have h1 := h e.1
          have h2 : mget d t e.1 = d := mget_below hn.2 (by omega)
          have h3 : x.1 ≠ e.1 := by omega
          simp only [mget, ↓reduceIte, h3, h2] at h1
          exact absurd h1 hm.1.2
        · exact heq
        · have h1 := h x.1
          have h2 : mget d r x.1 = d := mget_below hm.2 (by omega)
          have h3 : e.1 ≠ x.1 := by omega
          simp only [mget, ↓reduceIte, h3, h2] at h1
          exact absurd h1.symm hn.1.2
      have hv : e.2 = x.2 := by
        have h1 := h e.1
        simp only [mget, ↓reduceIte, hk] at h1
        exact h1
      have ht : r = t := by
        refine ih hm.2 (hk ▸ hn.2) (fun k => ?_)
        have h1 := h k
        by_cases hkk : e.1 = k
        · rw [mget_below hm.2 (by omega), mget_below hn.2 (by omega)]
        · have h2 : x.1 ≠ k := by omega
          simpa only [mget, hkk, h2, ↓reduceIte] using h1
      rw [ht]
      exact congrArg (· :: t) (Prod.ext hk hv)

end

end Sys2Proof.Machine
end

