-- ==== Sys2Proof/Laws/Mem.lean ====
section
/-! SUPPORT. The laws of the byte memories: what a read finds after a write, and that every operation keeps the canonical
form. -/

namespace Sys2Proof.Machine

/-! ### Reads after writes -/

/-- A write changes no free range. -/
@[simp] theorem Mem.write_free (m : Mem) (a : Nat) (b : Byte) : (m.write a b).free = m.free := rfl

/-- A read of the byte written gives the byte written. -/
@[simp] theorem Mem.read_write_self (m : Mem) (a : Nat) (b : Byte) : (m.write a b).read a = b := by
  unfold Mem.read Mem.write Mem.unlisted
  dsimp only
  by_cases h : b = 0 ∧ freeAt m.free a = none
  · rw [if_pos h, mget_merase_self, h.2]
    exact h.1.symm
  · rw [if_neg h]
    exact mget_minsert_self _ _ a b (merase_ne m.cells a)

/-- A write leaves every other byte alone. -/
theorem Mem.read_write_ne (m : Mem) {a k : Nat} (b : Byte) (h : k ≠ a) : (m.write a b).read k = m.read k := by
  unfold Mem.read Mem.write Mem.unlisted
  dsimp only
  by_cases hb : b = 0 ∧ freeAt m.free a = none
  · rw [if_pos hb]
    exact mget_merase_ne _ _ h
  · rw [if_neg hb, mget_minsert_ne _ _ b h, mget_merase_ne _ _ h]

/-- A store changes no free range. -/
@[simp] theorem Mem.store_free (m : Mem) (a : Nat) (l : List Byte) : (m.store a l).free = m.free := by
  induction l generalizing m a with
  | nil => rfl
  | cons b bs ih => exact ih ..

/-- A store leaves every byte outside its range alone. -/
theorem Mem.read_store_outside (m : Mem) {a k : Nat} (l : List Byte) (h : k < a ∨ a + l.length ≤ k) :
    (m.store a l).read k = m.read k := by
  induction l generalizing m a with
  | nil => rfl
  | cons b bs ih =>
    simp only [List.length_cons] at h
    unfold Mem.store
    rw [ih _ (by omega), Mem.read_write_ne _ _ (by omega)]

/-- A read inside a store gives the byte stored. -/
theorem Mem.read_store_inside (m : Mem) {a k : Nat} (l : List Byte) (h : a ≤ k) (hk : k < a + l.length) :
    (m.store a l).read k = l[k - a]'(by omega) := by
  induction l generalizing m a with
  | nil => simp at hk; omega
  | cons b bs ih =>
    simp only [List.length_cons] at hk
    unfold Mem.store
    by_cases he : k = a
    · subst he
      rw [Mem.read_store_outside _ _ (by omega)]
      simp
    · rw [ih _ (by omega) (by omega)]
      have : k - a = (k - (a + 1)) + 1 := by omega
      simp [this]

/-- As many bytes as asked for. -/
@[simp] theorem Mem.bytes_length (m : Mem) (a n : Nat) : (m.bytes a n).length = n := by
  induction n generalizing a with
  | zero => rfl
  | succ n ih => simp [Mem.bytes, ih]

/-- Reading back a store gives the bytes stored. -/
theorem Mem.bytes_store (m : Mem) (a : Nat) (l : List Byte) : (m.store a l).bytes a l.length = l := by
  induction l generalizing m a with
  | nil => rfl
  | cons b bs ih =>
    unfold Mem.store
    simp only [List.length_cons, Mem.bytes]
    rw [ih, Mem.read_store_outside _ _ (by omega), Mem.read_write_self]

/-- As many little-endian bytes as asked for. -/
@[simp] theorem leBytes_length (n v : Nat) : (leBytes n v).length = n := by
  induction n generalizing v with
  | zero => rfl
  | succ n ih => simp [leBytes, ih]

/-- Little-endian bytes give their number back. -/
theorem leNat_leBytes (n v : Nat) : leNat (leBytes n v) = v % 256 ^ n := by
  induction n generalizing v with
  | zero => simp [leBytes, leNat, Nat.mod_one]
  | succ n ih =>
    simp only [leBytes, leNat, ih, BitVec.toNat_ofNat, Nat.reducePow]
    rw [Nat.pow_succ', Nat.mod_mul]

/-- Reading back a number gives its low bytes. -/
theorem Mem.num_setNum (m : Mem) (a n v : Nat) : (m.setNum a n v).num a n = v % 256 ^ n := by
  unfold Mem.num Mem.setNum
  have h := m.bytes_store a (leBytes n v)
  rw [leBytes_length] at h
  rw [h, leNat_leBytes]

/-! ### Free ranges -/

/-- A cut range gives the same answer outside the cut and none inside. -/
theorem freeAt_cut (lo hi a : Nat) (r : FreeRange) (rs : List FreeRange) :
    freeAt (r.cut lo hi ++ rs) a = if r.lo ≤ a ∧ a < r.hi ∧ ¬ (lo ≤ a ∧ a < hi) then some r.epoch else freeAt rs a := by
  unfold FreeRange.cut
  by_cases h1 : r.hi ≤ lo ∨ hi ≤ r.lo
  · rw [if_pos h1]
    simp only [List.singleton_append, freeAt]
    by_cases h2 : r.lo ≤ a ∧ a < r.hi
    · rw [if_pos h2, if_pos (by omega)]
    · rw [if_neg h2, if_neg (by omega)]
  · rw [if_neg h1]
    by_cases h2 : r.lo < lo <;> by_cases h3 : hi < r.hi <;>
      simp only [h2, h3, ↓reduceIte, List.nil_append, List.cons_append, freeAt] <;>
      by_cases h4 : r.lo ≤ a ∧ a < r.hi ∧ ¬ (lo ≤ a ∧ a < hi)
    all_goals first | rw [if_pos h4] | rw [if_neg h4]
    all_goals (repeat' split) <;> first | rfl | omega

/-- What the free ranges say after a cut. -/
theorem freeAt_zero (l : List FreeRange) (lo hi a : Nat) :
    freeAt (l.flatMap (FreeRange.cut lo hi)) a = if lo ≤ a ∧ a < hi then none else freeAt l a := by
  induction l with
  | nil => simp [freeAt]
  | cons r rs ih =>
    rw [List.flatMap_cons, freeAt_cut, ih]
    simp only [freeAt]
    by_cases h1 : lo ≤ a ∧ a < hi
    · rw [if_pos h1, if_pos h1, if_neg (by omega)]
    · rw [if_neg h1, if_neg h1]
      by_cases h2 : r.lo ≤ a ∧ a < r.hi
      · rw [if_pos h2, if_pos (by omega)]
      · rw [if_neg h2, if_neg (by omega)]

/-- A value is not found where no entry has the key. -/
theorem mget_absent {d : Byte} {m : List Host.Cell} {k : Nat} (h : ∀ e ∈ m, e.1 ≠ k) : mget d m k = d := by
  induction m with
  | nil => rfl
  | cons e r ih =>
    have := h e List.mem_cons_self
    simp only [mget, this, ↓reduceIte]
    exact ih (fun x hx => h x (List.mem_cons_of_mem _ hx))

/-- A filter on keys leaves the keys it keeps alone. -/
theorem mget_filter {d : Byte} {m : List Host.Cell} {k : Nat} (p : Nat → Bool) (h : p k = true) :
    mget d (m.filter (fun c => p c.1)) k = mget d m k := by
  induction m with
  | nil => rfl
  | cons e r ih =>
    by_cases hp : p e.1 = true
    · simp only [List.filter_cons, hp, ↓reduceIte, mget, ih]
    · have : e.1 ≠ k := fun hk => hp (hk ▸ h)
      simp only [List.filter_cons, hp, mget, this, ↓reduceIte]
      simpa using ih

/-- Zeroed bytes read 0. -/
theorem Mem.read_zero_inside (m : Mem) {lo hi a : Nat} (h : lo ≤ a ∧ a < hi) : (m.zero lo hi).read a = 0 := by
  unfold Mem.read Mem.zero Mem.unlisted
  dsimp only
  rw [freeAt_zero, if_pos h]
  refine mget_absent (fun e he => ?_)
  have := (List.mem_filter.mp he).2
  simp only [decide_eq_true_eq] at this
  omega

/-- Zeroing leaves every byte outside its range alone. -/
theorem Mem.read_zero_outside (m : Mem) {lo hi a : Nat} (h : a < lo ∨ hi ≤ a) : (m.zero lo hi).read a = m.read a := by
  unfold Mem.read Mem.zero Mem.unlisted
  dsimp only
  rw [freeAt_zero, if_neg (by omega)]
  exact mget_filter (fun k => decide (k < lo ∨ hi ≤ k)) (by simpa using h)

/-- Forgetting leaves every byte outside its range alone. -/
theorem Mem.read_forget_outside (m : Mem) {lo hi e a : Nat} (h : a < lo ∨ hi ≤ a) : (m.forget lo hi e).read a = m.read a := by
  unfold Mem.forget
  dsimp only
  split
  · rw [← m.read_zero_outside h]
    unfold Mem.read Mem.unlisted
    dsimp only [freeAt]
    rw [if_neg (by omega)]
  · exact m.read_zero_outside h

/-- A forgotten byte is free. -/
theorem Mem.read_forget_inside (m : Mem) {lo hi e a : Nat} (h : lo ≤ a ∧ a < hi) :
    (m.forget lo hi e).read a = Config.freeByte e a := by
  unfold Mem.forget
  dsimp only
  rw [if_pos (by omega)]
  unfold Mem.read Mem.unlisted
  dsimp only [freeAt]
  rw [if_pos h]
  refine mget_absent (fun x hx => ?_)
  have := (List.mem_filter.mp hx).2
  simp only [decide_eq_true_eq] at this
  omega

/-! ### The canonical form -/

/-- Cells that rise from a bound rise from every lower one. -/
theorem Mem.wfFrom_mono {free : List FreeRange} {l : List Host.Cell} {lo lo' : Nat} (h : Mem.wfFrom free lo l = true)
    (hl : lo' ≤ lo) : Mem.wfFrom free lo' l = true := by
  cases l with
  | nil => rfl
  | cons e r =>
    simp only [Mem.wfFrom, Bool.and_eq_true, decide_eq_true_eq] at *
    exact ⟨⟨by omega, h.1.2⟩, h.2⟩

/-- Erasing keeps the form. -/
theorem Mem.wfFrom_merase {free : List FreeRange} {l : List Host.Cell} {lo : Nat} (k : Nat)
    (h : Mem.wfFrom free lo l = true) : Mem.wfFrom free lo (merase l k) = true := by
  induction l generalizing lo with
  | nil => rfl
  | cons e r ih =>
    simp only [Mem.wfFrom, Bool.and_eq_true, decide_eq_true_eq] at h
    unfold merase
    split
    · exact Mem.wfFrom_mono (ih h.2) (by omega)
    · simp only [Mem.wfFrom, Bool.and_eq_true, decide_eq_true_eq]
      exact ⟨h.1, ih h.2⟩

/-- Putting a byte at an address that is not listed keeps the form. -/
theorem Mem.wfFrom_minsert {free : List FreeRange} {l : List Host.Cell} {lo k : Nat} {v : Byte}
    (hv : v ≠ 0 ∨ (freeAt free k).isSome = true) (hk : lo ≤ k) (hn : ∀ e ∈ l, e.1 ≠ k) (h : Mem.wfFrom free lo l = true) :
    Mem.wfFrom free lo (minsert l k v) = true := by
  induction l generalizing lo with
  | nil =>
    simp only [minsert, Mem.wfFrom, Bool.and_eq_true, decide_eq_true_eq, Bool.or_eq_true, and_true]
    exact ⟨hk, hv⟩
  | cons e r ih =>
    simp only [Mem.wfFrom, Bool.and_eq_true, decide_eq_true_eq] at h
    have hne := hn e List.mem_cons_self
    unfold minsert
    split
    · simp only [Mem.wfFrom, Bool.and_eq_true, decide_eq_true_eq, Bool.or_eq_true]
      exact ⟨⟨hk, hv⟩, ⟨by omega, by simpa using h.1.2⟩, h.2⟩
    · simp only [Mem.wfFrom, Bool.and_eq_true, decide_eq_true_eq]
      exact ⟨h.1, ih (by omega) (fun x hx => hn x (List.mem_cons_of_mem _ hx)) h.2⟩

/-- A write keeps the canonical form. -/
theorem Mem.write_wf {m : Mem} (a : Nat) (b : Byte) (h : m.wf = true) : (m.write a b).wf = true := by
  unfold Mem.wf Mem.write
  dsimp only
  split
  · exact Mem.wfFrom_merase a h
  · rename_i hb
    refine Mem.wfFrom_minsert ?_ (Nat.zero_le a) (merase_ne m.cells a) (Mem.wfFrom_merase a h)
    by_cases h0 : b = 0
    · right
      cases hf : freeAt m.free a with
      | none => exact absurd ⟨h0, hf⟩ hb
      | some x => rfl
    · exact Or.inl h0

/-- A store keeps the canonical form. -/
theorem Mem.store_wf {m : Mem} (a : Nat) (l : List Byte) (h : m.wf = true) : (m.store a l).wf = true := by
  induction l generalizing m a with
  | nil => exact h
  | cons b bs ih => exact ih _ (Mem.write_wf a b h)

/-- A store of a number keeps the canonical form. -/
theorem Mem.setNum_wf {m : Mem} (a n v : Nat) (h : m.wf = true) : (m.setNum a n v).wf = true := Mem.store_wf a _ h

/-- Keeping a part of the cells keeps the form, for free ranges that say no less of the cells kept. -/
theorem Mem.wfFrom_filter {f g : List FreeRange} {l : List Host.Cell} {lo : Nat} (p : Nat → Bool)
    (hp : ∀ k, p k = true → (freeAt f k).isSome = true → (freeAt g k).isSome = true) (h : Mem.wfFrom f lo l = true) :
    Mem.wfFrom g lo (l.filter (fun c => p c.1)) = true := by
  induction l generalizing lo with
  | nil => rfl
  | cons e r ih =>
    simp only [Mem.wfFrom, Bool.and_eq_true, decide_eq_true_eq, Bool.or_eq_true] at h
    by_cases hk : p e.1 = true
    · simp only [List.filter_cons, hk, ↓reduceIte, Mem.wfFrom, Bool.and_eq_true, decide_eq_true_eq, Bool.or_eq_true]
      exact ⟨⟨h.1.1, h.1.2.imp id (hp _ hk)⟩, ih h.2⟩
    · simp only [List.filter_cons, hk]
      exact Mem.wfFrom_mono (ih h.2) (by omega)

/-- Zeroing keeps the canonical form. -/
theorem Mem.zero_wf {m : Mem} (lo hi : Nat) (h : m.wf = true) : (m.zero lo hi).wf = true := by
  refine Mem.wfFrom_filter (fun k => decide (k < lo ∨ hi ≤ k)) (fun k hk hf => ?_) h
  change (freeAt (m.free.flatMap (FreeRange.cut lo hi)) k).isSome = true
  rw [freeAt_zero, if_neg (by simp only [decide_eq_true_eq] at hk; omega)]
  exact hf

/-- Forgetting keeps the canonical form. -/
theorem Mem.forget_wf {m : Mem} (lo hi e : Nat) (h : m.wf = true) : (m.forget lo hi e).wf = true := by
  unfold Mem.forget
  dsimp only
  split
  · refine Mem.wfFrom_filter (fun k => decide (k < lo ∨ hi ≤ k)) (fun k hk hf => ?_) h
    simp only [decide_eq_true_eq] at hk
    unfold freeAt
    rw [if_neg (by dsimp only; omega)]
    change (freeAt (m.free.flatMap (FreeRange.cut lo hi)) k).isSome = true
    rw [freeAt_zero, if_neg (by omega)]
    exact hf
  · exact Mem.zero_wf lo hi h

/-- The empty memory has the form. -/
theorem Mem.empty_wf : Mem.empty.wf = true := by decide

end Sys2Proof.Machine
end

