-- ==== Sys2Proof/Laws/State.lean ====
section
/-! SUPPORT. Each primitive update of the state: what it leaves, field by field, and what a read finds after it. -/

namespace Sys2Proof.Machine

/-! ### What a read finds after an update -/

/-- `tile` after `setTile`. -/
@[simp] theorem State.tile_setTile (s : State) (n : Nat) (v : Tile) : (s.setTile n v).tile n = v := mget_mset_self ..

/-- `tile` of another number after `setTile`. -/
theorem State.tile_setTile_ne (s : State) (n : Nat) (v : Tile) {j : Nat} (h : j ≠ n) :
    (s.setTile n v).tile j = s.tile j := mget_mset_ne _ _ _ _ h

/-- `ctx` after `setCtx`. -/
@[simp] theorem State.ctx_setCtx (s : State) (b : Nat) (v : Ctx) : (s.setCtx b v).ctx b = v := mget_mset_self ..

/-- `ctx` of another number after `setCtx`. -/
theorem State.ctx_setCtx_ne (s : State) (b : Nat) (v : Ctx) {j : Nat} (h : j ≠ b) :
    (s.setCtx b v).ctx j = s.ctx j := mget_mset_ne _ _ _ _ h

/-- `boothSess` after `setBoothSess`. -/
@[simp] theorem State.boothSess_setBoothSess (s : State) (k : Nat) (v : Option BoothSess) : (s.setBoothSess k v).boothSess k = v := mget_mset_self ..

/-- `boothSess` of another number after `setBoothSess`. -/
theorem State.boothSess_setBoothSess_ne (s : State) (k : Nat) (v : Option BoothSess) {j : Nat} (h : j ≠ k) :
    (s.setBoothSess k v).boothSess j = s.boothSess j := mget_mset_ne _ _ _ _ h

/-- `queue` after `setQueue`. -/
@[simp] theorem State.queue_setQueue (s : State) (q : Nat) (v : QueueSt) : (s.setQueue q v).queue q = v := mget_mset_self ..

/-- `queue` of another number after `setQueue`. -/
theorem State.queue_setQueue_ne (s : State) (q : Nat) (v : QueueSt) {j : Nat} (h : j ≠ q) :
    (s.setQueue q v).queue j = s.queue j := mget_mset_ne _ _ _ _ h

/-- `fence` after `setFence`. -/
@[simp] theorem State.fence_setFence (s : State) (f : Nat) (v : Option FenceSt) : (s.setFence f v).fence f = v := mget_mset_self ..

/-- `fence` of another number after `setFence`. -/
theorem State.fence_setFence_ne (s : State) (f : Nat) (v : Option FenceSt) {j : Nat} (h : j ≠ f) :
    (s.setFence f v).fence j = s.fence j := mget_mset_ne _ _ _ _ h

/-- `obj` after `setObj`. -/
@[simp] theorem State.obj_setObj (s : State) (k : Nat) (v : ObjSt) : (s.setObj k v).obj k = v := mget_mset_self ..

/-- `obj` of another number after `setObj`. -/
theorem State.obj_setObj_ne (s : State) (k : Nat) (v : ObjSt) {j : Nat} (h : j ≠ k) :
    (s.setObj k v).obj j = s.obj j := mget_mset_ne _ _ _ _ h

/-- `cue` after `setCue`. -/
@[simp] theorem State.cue_setCue (s : State) (k : Nat) (v : Option CueSlotSt) : (s.setCue k v).cue k = v := mget_mset_self ..

/-- `cue` of another number after `setCue`. -/
theorem State.cue_setCue_ne (s : State) (k : Nat) (v : Option CueSlotSt) {j : Nat} (h : j ≠ k) :
    (s.setCue k v).cue j = s.cue j := mget_mset_ne _ _ _ _ h

/-- `cast` after `setCast`. -/
@[simp] theorem State.cast_setCast (s : State) (k : Nat) (v : CastSt) : (s.setCast k v).cast k = v := mget_mset_self ..

/-- `cast` of another number after `setCast`. -/
theorem State.cast_setCast_ne (s : State) (k : Nat) (v : CastSt) {j : Nat} (h : j ≠ k) :
    (s.setCast k v).cast j = s.cast j := mget_mset_ne _ _ _ _ h

/-- `panel` after `setPanel`. -/
@[simp] theorem State.panel_setPanel (s : State) (p : Nat) (v : PanelPwr) : (s.setPanel p v).panel p = v := mget_mset_self ..

/-- `panel` of another number after `setPanel`. -/
theorem State.panel_setPanel_ne (s : State) (p : Nat) (v : PanelPwr) {j : Nat} (h : j ≠ p) :
    (s.setPanel p v).panel j = s.panel j := mget_mset_ne _ _ _ _ h

/-- A register after its write holds the low 32 bits. -/
@[simp] theorem State.reg_setReg (s : State) (off v : Nat) : (s.setReg off v).reg off = v % 2 ^ 32 := by
  unfold State.reg State.setReg
  rw [mget_mset_self]
  exact BitVec.toNat_ofNat v 32

/-- Another register after a write. -/
theorem State.reg_setReg_ne (s : State) (off v : Nat) {j : Nat} (h : j ≠ off) : (s.setReg off v).reg j = s.reg j := by
  unfold State.reg State.setReg
  rw [mget_mset_ne _ _ _ _ h]

/-- What leaves the module is noted newest first. -/
@[simp] theorem State.emit_out (s : State) (o : Out) : (s.emit o).out = o :: s.out := rfl

/-- A draw moves the counter of free values on. -/
@[simp] theorem State.draw_freeCtr (s : State) : s.draw.1.freeCtr = s.freeCtr + 1 := rfl

/-! ### What an update leaves -/

@[simp] theorem State.emit_regs (s : State) (o : Out) : (s.emit o).regs = s.regs := rfl
@[simp] theorem State.emit_vfErr (s : State) (o : Out) : (s.emit o).vfErr = s.vfErr := rfl
@[simp] theorem State.emit_latch (s : State) (o : Out) : (s.emit o).latch = s.latch := rfl
@[simp] theorem State.emit_loHeld (s : State) (o : Out) : (s.emit o).loHeld = s.loHeld := rfl
@[simp] theorem State.emit_ctrs (s : State) (o : Out) : (s.emit o).ctrs = s.ctrs := rfl
@[simp] theorem State.emit_tiles (s : State) (o : Out) : (s.emit o).tiles = s.tiles := rfl
@[simp] theorem State.emit_ledgers (s : State) (o : Out) : (s.emit o).ledgers = s.ledgers := rfl
@[simp] theorem State.emit_meshCe (s : State) (o : Out) : (s.emit o).meshCe = s.meshCe := rfl
@[simp] theorem State.emit_bridges (s : State) (o : Out) : (s.emit o).bridges = s.bridges := rfl
@[simp] theorem State.emit_redIn (s : State) (o : Out) : (s.emit o).redIn = s.redIn := rfl
@[simp] theorem State.emit_redRun (s : State) (o : Out) : (s.emit o).redRun = s.redRun := rfl
@[simp] theorem State.emit_redOpen (s : State) (o : Out) : (s.emit o).redOpen = s.redOpen := rfl
@[simp] theorem State.emit_redClk (s : State) (o : Out) : (s.emit o).redClk = s.redClk := rfl
@[simp] theorem State.emit_mcFlits (s : State) (o : Out) : (s.emit o).mcFlits = s.mcFlits := rfl
@[simp] theorem State.emit_audited (s : State) (o : Out) : (s.emit o).audited = s.audited := rfl
@[simp] theorem State.emit_auditFirst (s : State) (o : Out) : (s.emit o).auditFirst = s.auditFirst := rfl
@[simp] theorem State.emit_hbm (s : State) (o : Out) : (s.emit o).hbm = s.hbm := rfl
@[simp] theorem State.emit_cxl (s : State) (o : Out) : (s.emit o).cxl = s.cxl := rfl
@[simp] theorem State.emit_chanCe (s : State) (o : Out) : (s.emit o).chanCe = s.chanCe := rfl
@[simp] theorem State.emit_hot (s : State) (o : Out) : (s.emit o).hot = s.hot := rfl
@[simp] theorem State.emit_tcache (s : State) (o : Out) : (s.emit o).tcache = s.tcache := rfl
@[simp] theorem State.emit_wcache (s : State) (o : Out) : (s.emit o).wcache = s.wcache := rfl
@[simp] theorem State.emit_fq (s : State) (o : Out) : (s.emit o).fq = s.fq := rfl
@[simp] theorem State.emit_inv (s : State) (o : Out) : (s.emit o).inv = s.inv := rfl
@[simp] theorem State.emit_stu (s : State) (o : Out) : (s.emit o).stu = s.stu := rfl
@[simp] theorem State.emit_cues (s : State) (o : Out) : (s.emit o).cues = s.cues := rfl
@[simp] theorem State.emit_ports (s : State) (o : Out) : (s.emit o).ports = s.ports := rfl
@[simp] theorem State.emit_sess (s : State) (o : Out) : (s.emit o).sess = s.sess := rfl
@[simp] theorem State.emit_reqs (s : State) (o : Out) : (s.emit o).reqs = s.reqs := rfl
@[simp] theorem State.emit_nextTag (s : State) (o : Out) : (s.emit o).nextTag = s.nextTag := rfl
@[simp] theorem State.emit_loom (s : State) (o : Out) : (s.emit o).loom = s.loom := rfl
@[simp] theorem State.emit_queues (s : State) (o : Out) : (s.emit o).queues = s.queues := rfl
@[simp] theorem State.emit_queueRr (s : State) (o : Out) : (s.emit o).queueRr = s.queueRr := rfl
@[simp] theorem State.emit_fences (s : State) (o : Out) : (s.emit o).fences = s.fences := rfl
@[simp] theorem State.emit_objs (s : State) (o : Out) : (s.emit o).objs = s.objs := rfl
@[simp] theorem State.emit_freed (s : State) (o : Out) : (s.emit o).freed = s.freed := rfl
@[simp] theorem State.emit_ctxs (s : State) (o : Out) : (s.emit o).ctxs = s.ctxs := rfl
@[simp] theorem State.emit_mbx (s : State) (o : Out) : (s.emit o).mbx = s.mbx := rfl
@[simp] theorem State.emit_fns (s : State) (o : Out) : (s.emit o).fns = s.fns := rfl
@[simp] theorem State.emit_hostReads (s : State) (o : Out) : (s.emit o).hostReads = s.hostReads := rfl
@[simp] theorem State.emit_casts (s : State) (o : Out) : (s.emit o).casts = s.casts := rfl
@[simp] theorem State.emit_serve (s : State) (o : Out) : (s.emit o).serve = s.serve := rfl
@[simp] theorem State.emit_power (s : State) (o : Out) : (s.emit o).power = s.power := rfl
@[simp] theorem State.emit_sec (s : State) (o : Out) : (s.emit o).sec = s.sec := rfl
@[simp] theorem State.emit_fw (s : State) (o : Out) : (s.emit o).fw = s.fw := rfl
@[simp] theorem State.emit_inc (s : State) (o : Out) : (s.emit o).inc = s.inc := rfl
@[simp] theorem State.emit_twin (s : State) (o : Out) : (s.emit o).twin = s.twin := rfl
@[simp] theorem State.emit_lost (s : State) (o : Out) : (s.emit o).lost = s.lost := rfl
@[simp] theorem State.emit_cxlGone (s : State) (o : Out) : (s.emit o).cxlGone = s.cxlGone := rfl
@[simp] theorem State.emit_pins (s : State) (o : Out) : (s.emit o).pins = s.pins := rfl
@[simp] theorem State.emit_freeCtr (s : State) (o : Out) : (s.emit o).freeCtr = s.freeCtr := rfl
@[simp] theorem State.emit_pending (s : State) (o : Out) : (s.emit o).pending = s.pending := rfl
@[simp] theorem State.emit_redStage (s : State) (o : Out) : (s.emit o).redStage = s.redStage := rfl
@[simp] theorem State.emit_hbmUe (s : State) (o : Out) : (s.emit o).hbmUe = s.hbmUe := rfl
@[simp] theorem State.emit_metaCache (s : State) (o : Out) : (s.emit o).metaCache = s.metaCache := rfl
@[simp] theorem State.emit_sideArea (s : State) (o : Out) : (s.emit o).sideArea = s.sideArea := rfl
@[simp] theorem State.emit_sessIn (s : State) (o : Out) : (s.emit o).sessIn = s.sessIn := rfl
@[simp] theorem State.emit_pci (s : State) (o : Out) : (s.emit o).pci = s.pci := rfl
@[simp] theorem State.emit_pfWalks (s : State) (o : Out) : (s.emit o).pfWalks = s.pfWalks := rfl
@[simp] theorem State.emit_walkWait (s : State) (o : Out) : (s.emit o).walkWait = s.walkWait := rfl
@[simp] theorem State.emit_fwNeed (s : State) (o : Out) : (s.emit o).fwNeed = s.fwNeed := rfl
@[simp] theorem State.emit_fwGot (s : State) (o : Out) : (s.emit o).fwGot = s.fwGot := rfl
@[simp] theorem State.emit_fwHeld (s : State) (o : Out) : (s.emit o).fwHeld = s.fwHeld := rfl

@[simp] theorem State.setReg_vfErr (s : State) (off v : Nat) : (s.setReg off v).vfErr = s.vfErr := rfl
@[simp] theorem State.setReg_latch (s : State) (off v : Nat) : (s.setReg off v).latch = s.latch := rfl
@[simp] theorem State.setReg_loHeld (s : State) (off v : Nat) : (s.setReg off v).loHeld = s.loHeld := rfl
@[simp] theorem State.setReg_ctrs (s : State) (off v : Nat) : (s.setReg off v).ctrs = s.ctrs := rfl
@[simp] theorem State.setReg_tiles (s : State) (off v : Nat) : (s.setReg off v).tiles = s.tiles := rfl
@[simp] theorem State.setReg_ledgers (s : State) (off v : Nat) : (s.setReg off v).ledgers = s.ledgers := rfl
@[simp] theorem State.setReg_meshCe (s : State) (off v : Nat) : (s.setReg off v).meshCe = s.meshCe := rfl
@[simp] theorem State.setReg_bridges (s : State) (off v : Nat) : (s.setReg off v).bridges = s.bridges := rfl
@[simp] theorem State.setReg_redIn (s : State) (off v : Nat) : (s.setReg off v).redIn = s.redIn := rfl
@[simp] theorem State.setReg_redRun (s : State) (off v : Nat) : (s.setReg off v).redRun = s.redRun := rfl
@[simp] theorem State.setReg_redOpen (s : State) (off v : Nat) : (s.setReg off v).redOpen = s.redOpen := rfl
@[simp] theorem State.setReg_redClk (s : State) (off v : Nat) : (s.setReg off v).redClk = s.redClk := rfl
@[simp] theorem State.setReg_mcFlits (s : State) (off v : Nat) : (s.setReg off v).mcFlits = s.mcFlits := rfl
@[simp] theorem State.setReg_audited (s : State) (off v : Nat) : (s.setReg off v).audited = s.audited := rfl
@[simp] theorem State.setReg_auditFirst (s : State) (off v : Nat) : (s.setReg off v).auditFirst = s.auditFirst := rfl
@[simp] theorem State.setReg_hbm (s : State) (off v : Nat) : (s.setReg off v).hbm = s.hbm := rfl
@[simp] theorem State.setReg_cxl (s : State) (off v : Nat) : (s.setReg off v).cxl = s.cxl := rfl
@[simp] theorem State.setReg_chanCe (s : State) (off v : Nat) : (s.setReg off v).chanCe = s.chanCe := rfl
@[simp] theorem State.setReg_hot (s : State) (off v : Nat) : (s.setReg off v).hot = s.hot := rfl
@[simp] theorem State.setReg_tcache (s : State) (off v : Nat) : (s.setReg off v).tcache = s.tcache := rfl
@[simp] theorem State.setReg_wcache (s : State) (off v : Nat) : (s.setReg off v).wcache = s.wcache := rfl
@[simp] theorem State.setReg_fq (s : State) (off v : Nat) : (s.setReg off v).fq = s.fq := rfl
@[simp] theorem State.setReg_inv (s : State) (off v : Nat) : (s.setReg off v).inv = s.inv := rfl
@[simp] theorem State.setReg_stu (s : State) (off v : Nat) : (s.setReg off v).stu = s.stu := rfl
@[simp] theorem State.setReg_cues (s : State) (off v : Nat) : (s.setReg off v).cues = s.cues := rfl
@[simp] theorem State.setReg_ports (s : State) (off v : Nat) : (s.setReg off v).ports = s.ports := rfl
@[simp] theorem State.setReg_sess (s : State) (off v : Nat) : (s.setReg off v).sess = s.sess := rfl
@[simp] theorem State.setReg_reqs (s : State) (off v : Nat) : (s.setReg off v).reqs = s.reqs := rfl
@[simp] theorem State.setReg_nextTag (s : State) (off v : Nat) : (s.setReg off v).nextTag = s.nextTag := rfl
@[simp] theorem State.setReg_loom (s : State) (off v : Nat) : (s.setReg off v).loom = s.loom := rfl
@[simp] theorem State.setReg_queues (s : State) (off v : Nat) : (s.setReg off v).queues = s.queues := rfl
@[simp] theorem State.setReg_queueRr (s : State) (off v : Nat) : (s.setReg off v).queueRr = s.queueRr := rfl
@[simp] theorem State.setReg_fences (s : State) (off v : Nat) : (s.setReg off v).fences = s.fences := rfl
@[simp] theorem State.setReg_objs (s : State) (off v : Nat) : (s.setReg off v).objs = s.objs := rfl
@[simp] theorem State.setReg_freed (s : State) (off v : Nat) : (s.setReg off v).freed = s.freed := rfl
@[simp] theorem State.setReg_ctxs (s : State) (off v : Nat) : (s.setReg off v).ctxs = s.ctxs := rfl
@[simp] theorem State.setReg_mbx (s : State) (off v : Nat) : (s.setReg off v).mbx = s.mbx := rfl
@[simp] theorem State.setReg_fns (s : State) (off v : Nat) : (s.setReg off v).fns = s.fns := rfl
@[simp] theorem State.setReg_hostReads (s : State) (off v : Nat) : (s.setReg off v).hostReads = s.hostReads := rfl
@[simp] theorem State.setReg_casts (s : State) (off v : Nat) : (s.setReg off v).casts = s.casts := rfl
@[simp] theorem State.setReg_serve (s : State) (off v : Nat) : (s.setReg off v).serve = s.serve := rfl
@[simp] theorem State.setReg_power (s : State) (off v : Nat) : (s.setReg off v).power = s.power := rfl
@[simp] theorem State.setReg_sec (s : State) (off v : Nat) : (s.setReg off v).sec = s.sec := rfl
@[simp] theorem State.setReg_fw (s : State) (off v : Nat) : (s.setReg off v).fw = s.fw := rfl
@[simp] theorem State.setReg_inc (s : State) (off v : Nat) : (s.setReg off v).inc = s.inc := rfl
@[simp] theorem State.setReg_twin (s : State) (off v : Nat) : (s.setReg off v).twin = s.twin := rfl
@[simp] theorem State.setReg_lost (s : State) (off v : Nat) : (s.setReg off v).lost = s.lost := rfl
@[simp] theorem State.setReg_cxlGone (s : State) (off v : Nat) : (s.setReg off v).cxlGone = s.cxlGone := rfl
@[simp] theorem State.setReg_pins (s : State) (off v : Nat) : (s.setReg off v).pins = s.pins := rfl
@[simp] theorem State.setReg_freeCtr (s : State) (off v : Nat) : (s.setReg off v).freeCtr = s.freeCtr := rfl
@[simp] theorem State.setReg_out (s : State) (off v : Nat) : (s.setReg off v).out = s.out := rfl
@[simp] theorem State.setReg_pending (s : State) (off v : Nat) : (s.setReg off v).pending = s.pending := rfl
@[simp] theorem State.setReg_redStage (s : State) (off v : Nat) : (s.setReg off v).redStage = s.redStage := rfl
@[simp] theorem State.setReg_hbmUe (s : State) (off v : Nat) : (s.setReg off v).hbmUe = s.hbmUe := rfl
@[simp] theorem State.setReg_metaCache (s : State) (off v : Nat) : (s.setReg off v).metaCache = s.metaCache := rfl
@[simp] theorem State.setReg_sideArea (s : State) (off v : Nat) : (s.setReg off v).sideArea = s.sideArea := rfl
@[simp] theorem State.setReg_sessIn (s : State) (off v : Nat) : (s.setReg off v).sessIn = s.sessIn := rfl
@[simp] theorem State.setReg_pci (s : State) (off v : Nat) : (s.setReg off v).pci = s.pci := rfl
@[simp] theorem State.setReg_pfWalks (s : State) (off v : Nat) : (s.setReg off v).pfWalks = s.pfWalks := rfl
@[simp] theorem State.setReg_walkWait (s : State) (off v : Nat) : (s.setReg off v).walkWait = s.walkWait := rfl
@[simp] theorem State.setReg_fwNeed (s : State) (off v : Nat) : (s.setReg off v).fwNeed = s.fwNeed := rfl
@[simp] theorem State.setReg_fwGot (s : State) (off v : Nat) : (s.setReg off v).fwGot = s.fwGot := rfl
@[simp] theorem State.setReg_fwHeld (s : State) (off v : Nat) : (s.setReg off v).fwHeld = s.fwHeld := rfl

@[simp] theorem State.bump_regs (s : State) (off n : Nat) : (s.bump off n).regs = s.regs := rfl
@[simp] theorem State.bump_vfErr (s : State) (off n : Nat) : (s.bump off n).vfErr = s.vfErr := rfl
@[simp] theorem State.bump_latch (s : State) (off n : Nat) : (s.bump off n).latch = s.latch := rfl
@[simp] theorem State.bump_loHeld (s : State) (off n : Nat) : (s.bump off n).loHeld = s.loHeld := rfl
@[simp] theorem State.bump_tiles (s : State) (off n : Nat) : (s.bump off n).tiles = s.tiles := rfl
@[simp] theorem State.bump_ledgers (s : State) (off n : Nat) : (s.bump off n).ledgers = s.ledgers := rfl
@[simp] theorem State.bump_meshCe (s : State) (off n : Nat) : (s.bump off n).meshCe = s.meshCe := rfl
@[simp] theorem State.bump_bridges (s : State) (off n : Nat) : (s.bump off n).bridges = s.bridges := rfl
@[simp] theorem State.bump_redIn (s : State) (off n : Nat) : (s.bump off n).redIn = s.redIn := rfl
@[simp] theorem State.bump_redRun (s : State) (off n : Nat) : (s.bump off n).redRun = s.redRun := rfl
@[simp] theorem State.bump_redOpen (s : State) (off n : Nat) : (s.bump off n).redOpen = s.redOpen := rfl
@[simp] theorem State.bump_redClk (s : State) (off n : Nat) : (s.bump off n).redClk = s.redClk := rfl
@[simp] theorem State.bump_mcFlits (s : State) (off n : Nat) : (s.bump off n).mcFlits = s.mcFlits := rfl
@[simp] theorem State.bump_audited (s : State) (off n : Nat) : (s.bump off n).audited = s.audited := rfl
@[simp] theorem State.bump_auditFirst (s : State) (off n : Nat) : (s.bump off n).auditFirst = s.auditFirst := rfl
@[simp] theorem State.bump_hbm (s : State) (off n : Nat) : (s.bump off n).hbm = s.hbm := rfl
@[simp] theorem State.bump_cxl (s : State) (off n : Nat) : (s.bump off n).cxl = s.cxl := rfl
@[simp] theorem State.bump_chanCe (s : State) (off n : Nat) : (s.bump off n).chanCe = s.chanCe := rfl
@[simp] theorem State.bump_hot (s : State) (off n : Nat) : (s.bump off n).hot = s.hot := rfl
@[simp] theorem State.bump_tcache (s : State) (off n : Nat) : (s.bump off n).tcache = s.tcache := rfl
@[simp] theorem State.bump_wcache (s : State) (off n : Nat) : (s.bump off n).wcache = s.wcache := rfl
@[simp] theorem State.bump_fq (s : State) (off n : Nat) : (s.bump off n).fq = s.fq := rfl
@[simp] theorem State.bump_inv (s : State) (off n : Nat) : (s.bump off n).inv = s.inv := rfl
@[simp] theorem State.bump_stu (s : State) (off n : Nat) : (s.bump off n).stu = s.stu := rfl
@[simp] theorem State.bump_cues (s : State) (off n : Nat) : (s.bump off n).cues = s.cues := rfl
@[simp] theorem State.bump_ports (s : State) (off n : Nat) : (s.bump off n).ports = s.ports := rfl
@[simp] theorem State.bump_sess (s : State) (off n : Nat) : (s.bump off n).sess = s.sess := rfl
@[simp] theorem State.bump_reqs (s : State) (off n : Nat) : (s.bump off n).reqs = s.reqs := rfl
@[simp] theorem State.bump_nextTag (s : State) (off n : Nat) : (s.bump off n).nextTag = s.nextTag := rfl
@[simp] theorem State.bump_loom (s : State) (off n : Nat) : (s.bump off n).loom = s.loom := rfl
@[simp] theorem State.bump_queues (s : State) (off n : Nat) : (s.bump off n).queues = s.queues := rfl
@[simp] theorem State.bump_queueRr (s : State) (off n : Nat) : (s.bump off n).queueRr = s.queueRr := rfl
@[simp] theorem State.bump_fences (s : State) (off n : Nat) : (s.bump off n).fences = s.fences := rfl
@[simp] theorem State.bump_objs (s : State) (off n : Nat) : (s.bump off n).objs = s.objs := rfl
@[simp] theorem State.bump_freed (s : State) (off n : Nat) : (s.bump off n).freed = s.freed := rfl
@[simp] theorem State.bump_ctxs (s : State) (off n : Nat) : (s.bump off n).ctxs = s.ctxs := rfl
@[simp] theorem State.bump_mbx (s : State) (off n : Nat) : (s.bump off n).mbx = s.mbx := rfl
@[simp] theorem State.bump_fns (s : State) (off n : Nat) : (s.bump off n).fns = s.fns := rfl
@[simp] theorem State.bump_hostReads (s : State) (off n : Nat) : (s.bump off n).hostReads = s.hostReads := rfl
@[simp] theorem State.bump_casts (s : State) (off n : Nat) : (s.bump off n).casts = s.casts := rfl
@[simp] theorem State.bump_serve (s : State) (off n : Nat) : (s.bump off n).serve = s.serve := rfl
@[simp] theorem State.bump_power (s : State) (off n : Nat) : (s.bump off n).power = s.power := rfl
@[simp] theorem State.bump_sec (s : State) (off n : Nat) : (s.bump off n).sec = s.sec := rfl
@[simp] theorem State.bump_fw (s : State) (off n : Nat) : (s.bump off n).fw = s.fw := rfl
@[simp] theorem State.bump_inc (s : State) (off n : Nat) : (s.bump off n).inc = s.inc := rfl
@[simp] theorem State.bump_twin (s : State) (off n : Nat) : (s.bump off n).twin = s.twin := rfl
@[simp] theorem State.bump_lost (s : State) (off n : Nat) : (s.bump off n).lost = s.lost := rfl
@[simp] theorem State.bump_cxlGone (s : State) (off n : Nat) : (s.bump off n).cxlGone = s.cxlGone := rfl
@[simp] theorem State.bump_pins (s : State) (off n : Nat) : (s.bump off n).pins = s.pins := rfl
@[simp] theorem State.bump_freeCtr (s : State) (off n : Nat) : (s.bump off n).freeCtr = s.freeCtr := rfl
@[simp] theorem State.bump_out (s : State) (off n : Nat) : (s.bump off n).out = s.out := rfl
@[simp] theorem State.bump_pending (s : State) (off n : Nat) : (s.bump off n).pending = s.pending := rfl
@[simp] theorem State.bump_redStage (s : State) (off n : Nat) : (s.bump off n).redStage = s.redStage := rfl
@[simp] theorem State.bump_hbmUe (s : State) (off n : Nat) : (s.bump off n).hbmUe = s.hbmUe := rfl
@[simp] theorem State.bump_metaCache (s : State) (off n : Nat) : (s.bump off n).metaCache = s.metaCache := rfl
@[simp] theorem State.bump_sideArea (s : State) (off n : Nat) : (s.bump off n).sideArea = s.sideArea := rfl
@[simp] theorem State.bump_sessIn (s : State) (off n : Nat) : (s.bump off n).sessIn = s.sessIn := rfl
@[simp] theorem State.bump_pci (s : State) (off n : Nat) : (s.bump off n).pci = s.pci := rfl
@[simp] theorem State.bump_pfWalks (s : State) (off n : Nat) : (s.bump off n).pfWalks = s.pfWalks := rfl
@[simp] theorem State.bump_walkWait (s : State) (off n : Nat) : (s.bump off n).walkWait = s.walkWait := rfl
@[simp] theorem State.bump_fwNeed (s : State) (off n : Nat) : (s.bump off n).fwNeed = s.fwNeed := rfl
@[simp] theorem State.bump_fwGot (s : State) (off n : Nat) : (s.bump off n).fwGot = s.fwGot := rfl
@[simp] theorem State.bump_fwHeld (s : State) (off n : Nat) : (s.bump off n).fwHeld = s.fwHeld := rfl

@[simp] theorem State.draw_regs (s : State) : (s.draw).1.regs = s.regs := rfl
@[simp] theorem State.draw_vfErr (s : State) : (s.draw).1.vfErr = s.vfErr := rfl
@[simp] theorem State.draw_latch (s : State) : (s.draw).1.latch = s.latch := rfl
@[simp] theorem State.draw_loHeld (s : State) : (s.draw).1.loHeld = s.loHeld := rfl
@[simp] theorem State.draw_ctrs (s : State) : (s.draw).1.ctrs = s.ctrs := rfl
@[simp] theorem State.draw_tiles (s : State) : (s.draw).1.tiles = s.tiles := rfl
@[simp] theorem State.draw_ledgers (s : State) : (s.draw).1.ledgers = s.ledgers := rfl
@[simp] theorem State.draw_meshCe (s : State) : (s.draw).1.meshCe = s.meshCe := rfl
@[simp] theorem State.draw_bridges (s : State) : (s.draw).1.bridges = s.bridges := rfl
@[simp] theorem State.draw_redIn (s : State) : (s.draw).1.redIn = s.redIn := rfl
@[simp] theorem State.draw_redRun (s : State) : (s.draw).1.redRun = s.redRun := rfl
@[simp] theorem State.draw_redOpen (s : State) : (s.draw).1.redOpen = s.redOpen := rfl
@[simp] theorem State.draw_redClk (s : State) : (s.draw).1.redClk = s.redClk := rfl
@[simp] theorem State.draw_mcFlits (s : State) : (s.draw).1.mcFlits = s.mcFlits := rfl
@[simp] theorem State.draw_audited (s : State) : (s.draw).1.audited = s.audited := rfl
@[simp] theorem State.draw_auditFirst (s : State) : (s.draw).1.auditFirst = s.auditFirst := rfl
@[simp] theorem State.draw_hbm (s : State) : (s.draw).1.hbm = s.hbm := rfl
@[simp] theorem State.draw_cxl (s : State) : (s.draw).1.cxl = s.cxl := rfl
@[simp] theorem State.draw_chanCe (s : State) : (s.draw).1.chanCe = s.chanCe := rfl
@[simp] theorem State.draw_hot (s : State) : (s.draw).1.hot = s.hot := rfl
@[simp] theorem State.draw_tcache (s : State) : (s.draw).1.tcache = s.tcache := rfl
@[simp] theorem State.draw_wcache (s : State) : (s.draw).1.wcache = s.wcache := rfl
@[simp] theorem State.draw_fq (s : State) : (s.draw).1.fq = s.fq := rfl
@[simp] theorem State.draw_inv (s : State) : (s.draw).1.inv = s.inv := rfl
@[simp] theorem State.draw_stu (s : State) : (s.draw).1.stu = s.stu := rfl
@[simp] theorem State.draw_cues (s : State) : (s.draw).1.cues = s.cues := rfl
@[simp] theorem State.draw_ports (s : State) : (s.draw).1.ports = s.ports := rfl
@[simp] theorem State.draw_sess (s : State) : (s.draw).1.sess = s.sess := rfl
@[simp] theorem State.draw_reqs (s : State) : (s.draw).1.reqs = s.reqs := rfl
@[simp] theorem State.draw_nextTag (s : State) : (s.draw).1.nextTag = s.nextTag := rfl
@[simp] theorem State.draw_loom (s : State) : (s.draw).1.loom = s.loom := rfl
@[simp] theorem State.draw_queues (s : State) : (s.draw).1.queues = s.queues := rfl
@[simp] theorem State.draw_queueRr (s : State) : (s.draw).1.queueRr = s.queueRr := rfl
@[simp] theorem State.draw_fences (s : State) : (s.draw).1.fences = s.fences := rfl
@[simp] theorem State.draw_objs (s : State) : (s.draw).1.objs = s.objs := rfl
@[simp] theorem State.draw_freed (s : State) : (s.draw).1.freed = s.freed := rfl
@[simp] theorem State.draw_ctxs (s : State) : (s.draw).1.ctxs = s.ctxs := rfl
@[simp] theorem State.draw_mbx (s : State) : (s.draw).1.mbx = s.mbx := rfl
@[simp] theorem State.draw_fns (s : State) : (s.draw).1.fns = s.fns := rfl
@[simp] theorem State.draw_hostReads (s : State) : (s.draw).1.hostReads = s.hostReads := rfl
@[simp] theorem State.draw_casts (s : State) : (s.draw).1.casts = s.casts := rfl
@[simp] theorem State.draw_serve (s : State) : (s.draw).1.serve = s.serve := rfl
@[simp] theorem State.draw_power (s : State) : (s.draw).1.power = s.power := rfl
@[simp] theorem State.draw_sec (s : State) : (s.draw).1.sec = s.sec := rfl
@[simp] theorem State.draw_fw (s : State) : (s.draw).1.fw = s.fw := rfl
@[simp] theorem State.draw_inc (s : State) : (s.draw).1.inc = s.inc := rfl
@[simp] theorem State.draw_twin (s : State) : (s.draw).1.twin = s.twin := rfl
@[simp] theorem State.draw_lost (s : State) : (s.draw).1.lost = s.lost := rfl
@[simp] theorem State.draw_cxlGone (s : State) : (s.draw).1.cxlGone = s.cxlGone := rfl
@[simp] theorem State.draw_pins (s : State) : (s.draw).1.pins = s.pins := rfl
@[simp] theorem State.draw_out (s : State) : (s.draw).1.out = s.out := rfl
@[simp] theorem State.draw_pending (s : State) : (s.draw).1.pending = s.pending := rfl

@[simp] theorem State.setTile_regs (s : State) (n : Nat) (v : Tile) : (s.setTile n v).regs = s.regs := rfl
@[simp] theorem State.setTile_vfErr (s : State) (n : Nat) (v : Tile) : (s.setTile n v).vfErr = s.vfErr := rfl
@[simp] theorem State.setTile_latch (s : State) (n : Nat) (v : Tile) : (s.setTile n v).latch = s.latch := rfl
@[simp] theorem State.setTile_loHeld (s : State) (n : Nat) (v : Tile) : (s.setTile n v).loHeld = s.loHeld := rfl
@[simp] theorem State.setTile_ctrs (s : State) (n : Nat) (v : Tile) : (s.setTile n v).ctrs = s.ctrs := rfl
@[simp] theorem State.setTile_ledgers (s : State) (n : Nat) (v : Tile) : (s.setTile n v).ledgers = s.ledgers := rfl
@[simp] theorem State.setTile_meshCe (s : State) (n : Nat) (v : Tile) : (s.setTile n v).meshCe = s.meshCe := rfl
@[simp] theorem State.setTile_bridges (s : State) (n : Nat) (v : Tile) : (s.setTile n v).bridges = s.bridges := rfl
@[simp] theorem State.setTile_redIn (s : State) (n : Nat) (v : Tile) : (s.setTile n v).redIn = s.redIn := rfl
@[simp] theorem State.setTile_redRun (s : State) (n : Nat) (v : Tile) : (s.setTile n v).redRun = s.redRun := rfl
@[simp] theorem State.setTile_redOpen (s : State) (n : Nat) (v : Tile) : (s.setTile n v).redOpen = s.redOpen := rfl
@[simp] theorem State.setTile_redClk (s : State) (n : Nat) (v : Tile) : (s.setTile n v).redClk = s.redClk := rfl
@[simp] theorem State.setTile_mcFlits (s : State) (n : Nat) (v : Tile) : (s.setTile n v).mcFlits = s.mcFlits := rfl
@[simp] theorem State.setTile_audited (s : State) (n : Nat) (v : Tile) : (s.setTile n v).audited = s.audited := rfl
@[simp] theorem State.setTile_auditFirst (s : State) (n : Nat) (v : Tile) : (s.setTile n v).auditFirst = s.auditFirst := rfl
@[simp] theorem State.setTile_hbm (s : State) (n : Nat) (v : Tile) : (s.setTile n v).hbm = s.hbm := rfl
@[simp] theorem State.setTile_cxl (s : State) (n : Nat) (v : Tile) : (s.setTile n v).cxl = s.cxl := rfl
@[simp] theorem State.setTile_chanCe (s : State) (n : Nat) (v : Tile) : (s.setTile n v).chanCe = s.chanCe := rfl
@[simp] theorem State.setTile_hot (s : State) (n : Nat) (v : Tile) : (s.setTile n v).hot = s.hot := rfl
@[simp] theorem State.setTile_tcache (s : State) (n : Nat) (v : Tile) : (s.setTile n v).tcache = s.tcache := rfl
@[simp] theorem State.setTile_wcache (s : State) (n : Nat) (v : Tile) : (s.setTile n v).wcache = s.wcache := rfl
@[simp] theorem State.setTile_fq (s : State) (n : Nat) (v : Tile) : (s.setTile n v).fq = s.fq := rfl
@[simp] theorem State.setTile_inv (s : State) (n : Nat) (v : Tile) : (s.setTile n v).inv = s.inv := rfl
@[simp] theorem State.setTile_stu (s : State) (n : Nat) (v : Tile) : (s.setTile n v).stu = s.stu := rfl
@[simp] theorem State.setTile_cues (s : State) (n : Nat) (v : Tile) : (s.setTile n v).cues = s.cues := rfl
@[simp] theorem State.setTile_ports (s : State) (n : Nat) (v : Tile) : (s.setTile n v).ports = s.ports := rfl
@[simp] theorem State.setTile_sess (s : State) (n : Nat) (v : Tile) : (s.setTile n v).sess = s.sess := rfl
@[simp] theorem State.setTile_reqs (s : State) (n : Nat) (v : Tile) : (s.setTile n v).reqs = s.reqs := rfl
@[simp] theorem State.setTile_nextTag (s : State) (n : Nat) (v : Tile) : (s.setTile n v).nextTag = s.nextTag := rfl
@[simp] theorem State.setTile_loom (s : State) (n : Nat) (v : Tile) : (s.setTile n v).loom = s.loom := rfl
@[simp] theorem State.setTile_queues (s : State) (n : Nat) (v : Tile) : (s.setTile n v).queues = s.queues := rfl
@[simp] theorem State.setTile_queueRr (s : State) (n : Nat) (v : Tile) : (s.setTile n v).queueRr = s.queueRr := rfl
@[simp] theorem State.setTile_fences (s : State) (n : Nat) (v : Tile) : (s.setTile n v).fences = s.fences := rfl
@[simp] theorem State.setTile_objs (s : State) (n : Nat) (v : Tile) : (s.setTile n v).objs = s.objs := rfl
@[simp] theorem State.setTile_freed (s : State) (n : Nat) (v : Tile) : (s.setTile n v).freed = s.freed := rfl
@[simp] theorem State.setTile_ctxs (s : State) (n : Nat) (v : Tile) : (s.setTile n v).ctxs = s.ctxs := rfl
@[simp] theorem State.setTile_mbx (s : State) (n : Nat) (v : Tile) : (s.setTile n v).mbx = s.mbx := rfl
@[simp] theorem State.setTile_fns (s : State) (n : Nat) (v : Tile) : (s.setTile n v).fns = s.fns := rfl
@[simp] theorem State.setTile_hostReads (s : State) (n : Nat) (v : Tile) : (s.setTile n v).hostReads = s.hostReads := rfl
@[simp] theorem State.setTile_casts (s : State) (n : Nat) (v : Tile) : (s.setTile n v).casts = s.casts := rfl
@[simp] theorem State.setTile_serve (s : State) (n : Nat) (v : Tile) : (s.setTile n v).serve = s.serve := rfl
@[simp] theorem State.setTile_power (s : State) (n : Nat) (v : Tile) : (s.setTile n v).power = s.power := rfl
@[simp] theorem State.setTile_sec (s : State) (n : Nat) (v : Tile) : (s.setTile n v).sec = s.sec := rfl
@[simp] theorem State.setTile_fw (s : State) (n : Nat) (v : Tile) : (s.setTile n v).fw = s.fw := rfl
@[simp] theorem State.setTile_inc (s : State) (n : Nat) (v : Tile) : (s.setTile n v).inc = s.inc := rfl
@[simp] theorem State.setTile_twin (s : State) (n : Nat) (v : Tile) : (s.setTile n v).twin = s.twin := rfl
@[simp] theorem State.setTile_lost (s : State) (n : Nat) (v : Tile) : (s.setTile n v).lost = s.lost := rfl
@[simp] theorem State.setTile_cxlGone (s : State) (n : Nat) (v : Tile) : (s.setTile n v).cxlGone = s.cxlGone := rfl
@[simp] theorem State.setTile_pins (s : State) (n : Nat) (v : Tile) : (s.setTile n v).pins = s.pins := rfl
@[simp] theorem State.setTile_freeCtr (s : State) (n : Nat) (v : Tile) : (s.setTile n v).freeCtr = s.freeCtr := rfl
@[simp] theorem State.setTile_out (s : State) (n : Nat) (v : Tile) : (s.setTile n v).out = s.out := rfl
@[simp] theorem State.setTile_pending (s : State) (n : Nat) (v : Tile) : (s.setTile n v).pending = s.pending := rfl
@[simp] theorem State.setTile_redStage (s : State) (n : Nat) (v : Tile) : (s.setTile n v).redStage = s.redStage := rfl
@[simp] theorem State.setTile_hbmUe (s : State) (n : Nat) (v : Tile) : (s.setTile n v).hbmUe = s.hbmUe := rfl
@[simp] theorem State.setTile_metaCache (s : State) (n : Nat) (v : Tile) : (s.setTile n v).metaCache = s.metaCache := rfl
@[simp] theorem State.setTile_sideArea (s : State) (n : Nat) (v : Tile) : (s.setTile n v).sideArea = s.sideArea := rfl
@[simp] theorem State.setTile_sessIn (s : State) (n : Nat) (v : Tile) : (s.setTile n v).sessIn = s.sessIn := rfl
@[simp] theorem State.setTile_pci (s : State) (n : Nat) (v : Tile) : (s.setTile n v).pci = s.pci := rfl
@[simp] theorem State.setTile_pfWalks (s : State) (n : Nat) (v : Tile) : (s.setTile n v).pfWalks = s.pfWalks := rfl
@[simp] theorem State.setTile_walkWait (s : State) (n : Nat) (v : Tile) : (s.setTile n v).walkWait = s.walkWait := rfl
@[simp] theorem State.setTile_fwNeed (s : State) (n : Nat) (v : Tile) : (s.setTile n v).fwNeed = s.fwNeed := rfl
@[simp] theorem State.setTile_fwGot (s : State) (n : Nat) (v : Tile) : (s.setTile n v).fwGot = s.fwGot := rfl
@[simp] theorem State.setTile_fwHeld (s : State) (n : Nat) (v : Tile) : (s.setTile n v).fwHeld = s.fwHeld := rfl

@[simp] theorem State.setCtx_regs (s : State) (b : Nat) (v : Ctx) : (s.setCtx b v).regs = s.regs := rfl
@[simp] theorem State.setCtx_vfErr (s : State) (b : Nat) (v : Ctx) : (s.setCtx b v).vfErr = s.vfErr := rfl
@[simp] theorem State.setCtx_latch (s : State) (b : Nat) (v : Ctx) : (s.setCtx b v).latch = s.latch := rfl
@[simp] theorem State.setCtx_loHeld (s : State) (b : Nat) (v : Ctx) : (s.setCtx b v).loHeld = s.loHeld := rfl
@[simp] theorem State.setCtx_ctrs (s : State) (b : Nat) (v : Ctx) : (s.setCtx b v).ctrs = s.ctrs := rfl
@[simp] theorem State.setCtx_tiles (s : State) (b : Nat) (v : Ctx) : (s.setCtx b v).tiles = s.tiles := rfl
@[simp] theorem State.setCtx_ledgers (s : State) (b : Nat) (v : Ctx) : (s.setCtx b v).ledgers = s.ledgers := rfl
@[simp] theorem State.setCtx_meshCe (s : State) (b : Nat) (v : Ctx) : (s.setCtx b v).meshCe = s.meshCe := rfl
@[simp] theorem State.setCtx_bridges (s : State) (b : Nat) (v : Ctx) : (s.setCtx b v).bridges = s.bridges := rfl
@[simp] theorem State.setCtx_redIn (s : State) (b : Nat) (v : Ctx) : (s.setCtx b v).redIn = s.redIn := rfl
@[simp] theorem State.setCtx_redRun (s : State) (b : Nat) (v : Ctx) : (s.setCtx b v).redRun = s.redRun := rfl
@[simp] theorem State.setCtx_redOpen (s : State) (b : Nat) (v : Ctx) : (s.setCtx b v).redOpen = s.redOpen := rfl
@[simp] theorem State.setCtx_redClk (s : State) (b : Nat) (v : Ctx) : (s.setCtx b v).redClk = s.redClk := rfl
@[simp] theorem State.setCtx_mcFlits (s : State) (b : Nat) (v : Ctx) : (s.setCtx b v).mcFlits = s.mcFlits := rfl
@[simp] theorem State.setCtx_audited (s : State) (b : Nat) (v : Ctx) : (s.setCtx b v).audited = s.audited := rfl
@[simp] theorem State.setCtx_auditFirst (s : State) (b : Nat) (v : Ctx) : (s.setCtx b v).auditFirst = s.auditFirst := rfl
@[simp] theorem State.setCtx_hbm (s : State) (b : Nat) (v : Ctx) : (s.setCtx b v).hbm = s.hbm := rfl
@[simp] theorem State.setCtx_cxl (s : State) (b : Nat) (v : Ctx) : (s.setCtx b v).cxl = s.cxl := rfl
@[simp] theorem State.setCtx_chanCe (s : State) (b : Nat) (v : Ctx) : (s.setCtx b v).chanCe = s.chanCe := rfl
@[simp] theorem State.setCtx_hot (s : State) (b : Nat) (v : Ctx) : (s.setCtx b v).hot = s.hot := rfl
@[simp] theorem State.setCtx_tcache (s : State) (b : Nat) (v : Ctx) : (s.setCtx b v).tcache = s.tcache := rfl
@[simp] theorem State.setCtx_wcache (s : State) (b : Nat) (v : Ctx) : (s.setCtx b v).wcache = s.wcache := rfl
@[simp] theorem State.setCtx_fq (s : State) (b : Nat) (v : Ctx) : (s.setCtx b v).fq = s.fq := rfl
@[simp] theorem State.setCtx_inv (s : State) (b : Nat) (v : Ctx) : (s.setCtx b v).inv = s.inv := rfl
@[simp] theorem State.setCtx_stu (s : State) (b : Nat) (v : Ctx) : (s.setCtx b v).stu = s.stu := rfl
@[simp] theorem State.setCtx_cues (s : State) (b : Nat) (v : Ctx) : (s.setCtx b v).cues = s.cues := rfl
@[simp] theorem State.setCtx_ports (s : State) (b : Nat) (v : Ctx) : (s.setCtx b v).ports = s.ports := rfl
@[simp] theorem State.setCtx_sess (s : State) (b : Nat) (v : Ctx) : (s.setCtx b v).sess = s.sess := rfl
@[simp] theorem State.setCtx_reqs (s : State) (b : Nat) (v : Ctx) : (s.setCtx b v).reqs = s.reqs := rfl
@[simp] theorem State.setCtx_nextTag (s : State) (b : Nat) (v : Ctx) : (s.setCtx b v).nextTag = s.nextTag := rfl
@[simp] theorem State.setCtx_loom (s : State) (b : Nat) (v : Ctx) : (s.setCtx b v).loom = s.loom := rfl
@[simp] theorem State.setCtx_queues (s : State) (b : Nat) (v : Ctx) : (s.setCtx b v).queues = s.queues := rfl
@[simp] theorem State.setCtx_queueRr (s : State) (b : Nat) (v : Ctx) : (s.setCtx b v).queueRr = s.queueRr := rfl
@[simp] theorem State.setCtx_fences (s : State) (b : Nat) (v : Ctx) : (s.setCtx b v).fences = s.fences := rfl
@[simp] theorem State.setCtx_objs (s : State) (b : Nat) (v : Ctx) : (s.setCtx b v).objs = s.objs := rfl
@[simp] theorem State.setCtx_freed (s : State) (b : Nat) (v : Ctx) : (s.setCtx b v).freed = s.freed := rfl
@[simp] theorem State.setCtx_mbx (s : State) (b : Nat) (v : Ctx) : (s.setCtx b v).mbx = s.mbx := rfl
@[simp] theorem State.setCtx_fns (s : State) (b : Nat) (v : Ctx) : (s.setCtx b v).fns = s.fns := rfl
@[simp] theorem State.setCtx_hostReads (s : State) (b : Nat) (v : Ctx) : (s.setCtx b v).hostReads = s.hostReads := rfl
@[simp] theorem State.setCtx_casts (s : State) (b : Nat) (v : Ctx) : (s.setCtx b v).casts = s.casts := rfl
@[simp] theorem State.setCtx_serve (s : State) (b : Nat) (v : Ctx) : (s.setCtx b v).serve = s.serve := rfl
@[simp] theorem State.setCtx_power (s : State) (b : Nat) (v : Ctx) : (s.setCtx b v).power = s.power := rfl
@[simp] theorem State.setCtx_sec (s : State) (b : Nat) (v : Ctx) : (s.setCtx b v).sec = s.sec := rfl
@[simp] theorem State.setCtx_fw (s : State) (b : Nat) (v : Ctx) : (s.setCtx b v).fw = s.fw := rfl
@[simp] theorem State.setCtx_inc (s : State) (b : Nat) (v : Ctx) : (s.setCtx b v).inc = s.inc := rfl
@[simp] theorem State.setCtx_twin (s : State) (b : Nat) (v : Ctx) : (s.setCtx b v).twin = s.twin := rfl
@[simp] theorem State.setCtx_lost (s : State) (b : Nat) (v : Ctx) : (s.setCtx b v).lost = s.lost := rfl
@[simp] theorem State.setCtx_cxlGone (s : State) (b : Nat) (v : Ctx) : (s.setCtx b v).cxlGone = s.cxlGone := rfl
@[simp] theorem State.setCtx_pins (s : State) (b : Nat) (v : Ctx) : (s.setCtx b v).pins = s.pins := rfl
@[simp] theorem State.setCtx_freeCtr (s : State) (b : Nat) (v : Ctx) : (s.setCtx b v).freeCtr = s.freeCtr := rfl
@[simp] theorem State.setCtx_out (s : State) (b : Nat) (v : Ctx) : (s.setCtx b v).out = s.out := rfl
@[simp] theorem State.setCtx_pending (s : State) (b : Nat) (v : Ctx) : (s.setCtx b v).pending = s.pending := rfl
@[simp] theorem State.setCtx_redStage (s : State) (b : Nat) (v : Ctx) : (s.setCtx b v).redStage = s.redStage := rfl
@[simp] theorem State.setCtx_hbmUe (s : State) (b : Nat) (v : Ctx) : (s.setCtx b v).hbmUe = s.hbmUe := rfl
@[simp] theorem State.setCtx_metaCache (s : State) (b : Nat) (v : Ctx) : (s.setCtx b v).metaCache = s.metaCache := rfl
@[simp] theorem State.setCtx_sideArea (s : State) (b : Nat) (v : Ctx) : (s.setCtx b v).sideArea = s.sideArea := rfl
@[simp] theorem State.setCtx_sessIn (s : State) (b : Nat) (v : Ctx) : (s.setCtx b v).sessIn = s.sessIn := rfl
@[simp] theorem State.setCtx_pci (s : State) (b : Nat) (v : Ctx) : (s.setCtx b v).pci = s.pci := rfl
@[simp] theorem State.setCtx_pfWalks (s : State) (b : Nat) (v : Ctx) : (s.setCtx b v).pfWalks = s.pfWalks := rfl
@[simp] theorem State.setCtx_walkWait (s : State) (b : Nat) (v : Ctx) : (s.setCtx b v).walkWait = s.walkWait := rfl
@[simp] theorem State.setCtx_fwNeed (s : State) (b : Nat) (v : Ctx) : (s.setCtx b v).fwNeed = s.fwNeed := rfl
@[simp] theorem State.setCtx_fwGot (s : State) (b : Nat) (v : Ctx) : (s.setCtx b v).fwGot = s.fwGot := rfl
@[simp] theorem State.setCtx_fwHeld (s : State) (b : Nat) (v : Ctx) : (s.setCtx b v).fwHeld = s.fwHeld := rfl

@[simp] theorem State.setBoothSess_regs (s : State) (k : Nat) (v : Option BoothSess) : (s.setBoothSess k v).regs = s.regs := rfl
@[simp] theorem State.setBoothSess_vfErr (s : State) (k : Nat) (v : Option BoothSess) : (s.setBoothSess k v).vfErr = s.vfErr := rfl
@[simp] theorem State.setBoothSess_latch (s : State) (k : Nat) (v : Option BoothSess) : (s.setBoothSess k v).latch = s.latch := rfl
@[simp] theorem State.setBoothSess_loHeld (s : State) (k : Nat) (v : Option BoothSess) : (s.setBoothSess k v).loHeld = s.loHeld := rfl
@[simp] theorem State.setBoothSess_ctrs (s : State) (k : Nat) (v : Option BoothSess) : (s.setBoothSess k v).ctrs = s.ctrs := rfl
@[simp] theorem State.setBoothSess_tiles (s : State) (k : Nat) (v : Option BoothSess) : (s.setBoothSess k v).tiles = s.tiles := rfl
@[simp] theorem State.setBoothSess_ledgers (s : State) (k : Nat) (v : Option BoothSess) : (s.setBoothSess k v).ledgers = s.ledgers := rfl
@[simp] theorem State.setBoothSess_meshCe (s : State) (k : Nat) (v : Option BoothSess) : (s.setBoothSess k v).meshCe = s.meshCe := rfl
@[simp] theorem State.setBoothSess_bridges (s : State) (k : Nat) (v : Option BoothSess) : (s.setBoothSess k v).bridges = s.bridges := rfl
@[simp] theorem State.setBoothSess_redIn (s : State) (k : Nat) (v : Option BoothSess) : (s.setBoothSess k v).redIn = s.redIn := rfl
@[simp] theorem State.setBoothSess_redRun (s : State) (k : Nat) (v : Option BoothSess) : (s.setBoothSess k v).redRun = s.redRun := rfl
@[simp] theorem State.setBoothSess_redOpen (s : State) (k : Nat) (v : Option BoothSess) : (s.setBoothSess k v).redOpen = s.redOpen := rfl
@[simp] theorem State.setBoothSess_redClk (s : State) (k : Nat) (v : Option BoothSess) : (s.setBoothSess k v).redClk = s.redClk := rfl
@[simp] theorem State.setBoothSess_mcFlits (s : State) (k : Nat) (v : Option BoothSess) : (s.setBoothSess k v).mcFlits = s.mcFlits := rfl
@[simp] theorem State.setBoothSess_audited (s : State) (k : Nat) (v : Option BoothSess) : (s.setBoothSess k v).audited = s.audited := rfl
@[simp] theorem State.setBoothSess_auditFirst (s : State) (k : Nat) (v : Option BoothSess) : (s.setBoothSess k v).auditFirst = s.auditFirst := rfl
@[simp] theorem State.setBoothSess_hbm (s : State) (k : Nat) (v : Option BoothSess) : (s.setBoothSess k v).hbm = s.hbm := rfl
@[simp] theorem State.setBoothSess_cxl (s : State) (k : Nat) (v : Option BoothSess) : (s.setBoothSess k v).cxl = s.cxl := rfl
@[simp] theorem State.setBoothSess_chanCe (s : State) (k : Nat) (v : Option BoothSess) : (s.setBoothSess k v).chanCe = s.chanCe := rfl
@[simp] theorem State.setBoothSess_hot (s : State) (k : Nat) (v : Option BoothSess) : (s.setBoothSess k v).hot = s.hot := rfl
@[simp] theorem State.setBoothSess_tcache (s : State) (k : Nat) (v : Option BoothSess) : (s.setBoothSess k v).tcache = s.tcache := rfl
@[simp] theorem State.setBoothSess_wcache (s : State) (k : Nat) (v : Option BoothSess) : (s.setBoothSess k v).wcache = s.wcache := rfl
@[simp] theorem State.setBoothSess_fq (s : State) (k : Nat) (v : Option BoothSess) : (s.setBoothSess k v).fq = s.fq := rfl
@[simp] theorem State.setBoothSess_inv (s : State) (k : Nat) (v : Option BoothSess) : (s.setBoothSess k v).inv = s.inv := rfl
@[simp] theorem State.setBoothSess_stu (s : State) (k : Nat) (v : Option BoothSess) : (s.setBoothSess k v).stu = s.stu := rfl
@[simp] theorem State.setBoothSess_cues (s : State) (k : Nat) (v : Option BoothSess) : (s.setBoothSess k v).cues = s.cues := rfl
@[simp] theorem State.setBoothSess_ports (s : State) (k : Nat) (v : Option BoothSess) : (s.setBoothSess k v).ports = s.ports := rfl
@[simp] theorem State.setBoothSess_sess (s : State) (k : Nat) (v : Option BoothSess) : (s.setBoothSess k v).sess = s.sess := rfl
@[simp] theorem State.setBoothSess_reqs (s : State) (k : Nat) (v : Option BoothSess) : (s.setBoothSess k v).reqs = s.reqs := rfl
@[simp] theorem State.setBoothSess_nextTag (s : State) (k : Nat) (v : Option BoothSess) : (s.setBoothSess k v).nextTag = s.nextTag := rfl
@[simp] theorem State.setBoothSess_loom (s : State) (k : Nat) (v : Option BoothSess) : (s.setBoothSess k v).loom = s.loom := rfl
@[simp] theorem State.setBoothSess_queues (s : State) (k : Nat) (v : Option BoothSess) : (s.setBoothSess k v).queues = s.queues := rfl
@[simp] theorem State.setBoothSess_queueRr (s : State) (k : Nat) (v : Option BoothSess) : (s.setBoothSess k v).queueRr = s.queueRr := rfl
@[simp] theorem State.setBoothSess_fences (s : State) (k : Nat) (v : Option BoothSess) : (s.setBoothSess k v).fences = s.fences := rfl
@[simp] theorem State.setBoothSess_objs (s : State) (k : Nat) (v : Option BoothSess) : (s.setBoothSess k v).objs = s.objs := rfl
@[simp] theorem State.setBoothSess_freed (s : State) (k : Nat) (v : Option BoothSess) : (s.setBoothSess k v).freed = s.freed := rfl
@[simp] theorem State.setBoothSess_ctxs (s : State) (k : Nat) (v : Option BoothSess) : (s.setBoothSess k v).ctxs = s.ctxs := rfl
@[simp] theorem State.setBoothSess_mbx (s : State) (k : Nat) (v : Option BoothSess) : (s.setBoothSess k v).mbx = s.mbx := rfl
@[simp] theorem State.setBoothSess_fns (s : State) (k : Nat) (v : Option BoothSess) : (s.setBoothSess k v).fns = s.fns := rfl
@[simp] theorem State.setBoothSess_hostReads (s : State) (k : Nat) (v : Option BoothSess) : (s.setBoothSess k v).hostReads = s.hostReads := rfl
@[simp] theorem State.setBoothSess_casts (s : State) (k : Nat) (v : Option BoothSess) : (s.setBoothSess k v).casts = s.casts := rfl
@[simp] theorem State.setBoothSess_serve (s : State) (k : Nat) (v : Option BoothSess) : (s.setBoothSess k v).serve = s.serve := rfl
@[simp] theorem State.setBoothSess_power (s : State) (k : Nat) (v : Option BoothSess) : (s.setBoothSess k v).power = s.power := rfl
@[simp] theorem State.setBoothSess_sec (s : State) (k : Nat) (v : Option BoothSess) : (s.setBoothSess k v).sec = s.sec := rfl
@[simp] theorem State.setBoothSess_inc (s : State) (k : Nat) (v : Option BoothSess) : (s.setBoothSess k v).inc = s.inc := rfl
@[simp] theorem State.setBoothSess_twin (s : State) (k : Nat) (v : Option BoothSess) : (s.setBoothSess k v).twin = s.twin := rfl
@[simp] theorem State.setBoothSess_lost (s : State) (k : Nat) (v : Option BoothSess) : (s.setBoothSess k v).lost = s.lost := rfl
@[simp] theorem State.setBoothSess_cxlGone (s : State) (k : Nat) (v : Option BoothSess) : (s.setBoothSess k v).cxlGone = s.cxlGone := rfl
@[simp] theorem State.setBoothSess_pins (s : State) (k : Nat) (v : Option BoothSess) : (s.setBoothSess k v).pins = s.pins := rfl
@[simp] theorem State.setBoothSess_freeCtr (s : State) (k : Nat) (v : Option BoothSess) : (s.setBoothSess k v).freeCtr = s.freeCtr := rfl
@[simp] theorem State.setBoothSess_out (s : State) (k : Nat) (v : Option BoothSess) : (s.setBoothSess k v).out = s.out := rfl
@[simp] theorem State.setBoothSess_pending (s : State) (k : Nat) (v : Option BoothSess) : (s.setBoothSess k v).pending = s.pending := rfl
@[simp] theorem State.setBoothSess_redStage (s : State) (k : Nat) (v : Option BoothSess) : (s.setBoothSess k v).redStage = s.redStage := rfl
@[simp] theorem State.setBoothSess_hbmUe (s : State) (k : Nat) (v : Option BoothSess) : (s.setBoothSess k v).hbmUe = s.hbmUe := rfl
@[simp] theorem State.setBoothSess_metaCache (s : State) (k : Nat) (v : Option BoothSess) : (s.setBoothSess k v).metaCache = s.metaCache := rfl
@[simp] theorem State.setBoothSess_sideArea (s : State) (k : Nat) (v : Option BoothSess) : (s.setBoothSess k v).sideArea = s.sideArea := rfl
@[simp] theorem State.setBoothSess_sessIn (s : State) (k : Nat) (v : Option BoothSess) : (s.setBoothSess k v).sessIn = s.sessIn := rfl
@[simp] theorem State.setBoothSess_pci (s : State) (k : Nat) (v : Option BoothSess) : (s.setBoothSess k v).pci = s.pci := rfl
@[simp] theorem State.setBoothSess_pfWalks (s : State) (k : Nat) (v : Option BoothSess) : (s.setBoothSess k v).pfWalks = s.pfWalks := rfl
@[simp] theorem State.setBoothSess_walkWait (s : State) (k : Nat) (v : Option BoothSess) : (s.setBoothSess k v).walkWait = s.walkWait := rfl
@[simp] theorem State.setBoothSess_fwNeed (s : State) (k : Nat) (v : Option BoothSess) : (s.setBoothSess k v).fwNeed = s.fwNeed := rfl
@[simp] theorem State.setBoothSess_fwGot (s : State) (k : Nat) (v : Option BoothSess) : (s.setBoothSess k v).fwGot = s.fwGot := rfl
@[simp] theorem State.setBoothSess_fwHeld (s : State) (k : Nat) (v : Option BoothSess) : (s.setBoothSess k v).fwHeld = s.fwHeld := rfl

@[simp] theorem State.setQueue_regs (s : State) (q : Nat) (v : QueueSt) : (s.setQueue q v).regs = s.regs := rfl
@[simp] theorem State.setQueue_vfErr (s : State) (q : Nat) (v : QueueSt) : (s.setQueue q v).vfErr = s.vfErr := rfl
@[simp] theorem State.setQueue_latch (s : State) (q : Nat) (v : QueueSt) : (s.setQueue q v).latch = s.latch := rfl
@[simp] theorem State.setQueue_loHeld (s : State) (q : Nat) (v : QueueSt) : (s.setQueue q v).loHeld = s.loHeld := rfl
@[simp] theorem State.setQueue_ctrs (s : State) (q : Nat) (v : QueueSt) : (s.setQueue q v).ctrs = s.ctrs := rfl
@[simp] theorem State.setQueue_tiles (s : State) (q : Nat) (v : QueueSt) : (s.setQueue q v).tiles = s.tiles := rfl
@[simp] theorem State.setQueue_ledgers (s : State) (q : Nat) (v : QueueSt) : (s.setQueue q v).ledgers = s.ledgers := rfl
@[simp] theorem State.setQueue_meshCe (s : State) (q : Nat) (v : QueueSt) : (s.setQueue q v).meshCe = s.meshCe := rfl
@[simp] theorem State.setQueue_bridges (s : State) (q : Nat) (v : QueueSt) : (s.setQueue q v).bridges = s.bridges := rfl
@[simp] theorem State.setQueue_redIn (s : State) (q : Nat) (v : QueueSt) : (s.setQueue q v).redIn = s.redIn := rfl
@[simp] theorem State.setQueue_redRun (s : State) (q : Nat) (v : QueueSt) : (s.setQueue q v).redRun = s.redRun := rfl
@[simp] theorem State.setQueue_redOpen (s : State) (q : Nat) (v : QueueSt) : (s.setQueue q v).redOpen = s.redOpen := rfl
@[simp] theorem State.setQueue_redClk (s : State) (q : Nat) (v : QueueSt) : (s.setQueue q v).redClk = s.redClk := rfl
@[simp] theorem State.setQueue_mcFlits (s : State) (q : Nat) (v : QueueSt) : (s.setQueue q v).mcFlits = s.mcFlits := rfl
@[simp] theorem State.setQueue_audited (s : State) (q : Nat) (v : QueueSt) : (s.setQueue q v).audited = s.audited := rfl
@[simp] theorem State.setQueue_auditFirst (s : State) (q : Nat) (v : QueueSt) : (s.setQueue q v).auditFirst = s.auditFirst := rfl
@[simp] theorem State.setQueue_hbm (s : State) (q : Nat) (v : QueueSt) : (s.setQueue q v).hbm = s.hbm := rfl
@[simp] theorem State.setQueue_cxl (s : State) (q : Nat) (v : QueueSt) : (s.setQueue q v).cxl = s.cxl := rfl
@[simp] theorem State.setQueue_chanCe (s : State) (q : Nat) (v : QueueSt) : (s.setQueue q v).chanCe = s.chanCe := rfl
@[simp] theorem State.setQueue_hot (s : State) (q : Nat) (v : QueueSt) : (s.setQueue q v).hot = s.hot := rfl
@[simp] theorem State.setQueue_tcache (s : State) (q : Nat) (v : QueueSt) : (s.setQueue q v).tcache = s.tcache := rfl
@[simp] theorem State.setQueue_wcache (s : State) (q : Nat) (v : QueueSt) : (s.setQueue q v).wcache = s.wcache := rfl
@[simp] theorem State.setQueue_fq (s : State) (q : Nat) (v : QueueSt) : (s.setQueue q v).fq = s.fq := rfl
@[simp] theorem State.setQueue_inv (s : State) (q : Nat) (v : QueueSt) : (s.setQueue q v).inv = s.inv := rfl
@[simp] theorem State.setQueue_stu (s : State) (q : Nat) (v : QueueSt) : (s.setQueue q v).stu = s.stu := rfl
@[simp] theorem State.setQueue_cues (s : State) (q : Nat) (v : QueueSt) : (s.setQueue q v).cues = s.cues := rfl
@[simp] theorem State.setQueue_ports (s : State) (q : Nat) (v : QueueSt) : (s.setQueue q v).ports = s.ports := rfl
@[simp] theorem State.setQueue_sess (s : State) (q : Nat) (v : QueueSt) : (s.setQueue q v).sess = s.sess := rfl
@[simp] theorem State.setQueue_reqs (s : State) (q : Nat) (v : QueueSt) : (s.setQueue q v).reqs = s.reqs := rfl
@[simp] theorem State.setQueue_nextTag (s : State) (q : Nat) (v : QueueSt) : (s.setQueue q v).nextTag = s.nextTag := rfl
@[simp] theorem State.setQueue_loom (s : State) (q : Nat) (v : QueueSt) : (s.setQueue q v).loom = s.loom := rfl
@[simp] theorem State.setQueue_queueRr (s : State) (q : Nat) (v : QueueSt) : (s.setQueue q v).queueRr = s.queueRr := rfl
@[simp] theorem State.setQueue_fences (s : State) (q : Nat) (v : QueueSt) : (s.setQueue q v).fences = s.fences := rfl
@[simp] theorem State.setQueue_objs (s : State) (q : Nat) (v : QueueSt) : (s.setQueue q v).objs = s.objs := rfl
@[simp] theorem State.setQueue_freed (s : State) (q : Nat) (v : QueueSt) : (s.setQueue q v).freed = s.freed := rfl
@[simp] theorem State.setQueue_ctxs (s : State) (q : Nat) (v : QueueSt) : (s.setQueue q v).ctxs = s.ctxs := rfl
@[simp] theorem State.setQueue_mbx (s : State) (q : Nat) (v : QueueSt) : (s.setQueue q v).mbx = s.mbx := rfl
@[simp] theorem State.setQueue_fns (s : State) (q : Nat) (v : QueueSt) : (s.setQueue q v).fns = s.fns := rfl
@[simp] theorem State.setQueue_hostReads (s : State) (q : Nat) (v : QueueSt) : (s.setQueue q v).hostReads = s.hostReads := rfl
@[simp] theorem State.setQueue_casts (s : State) (q : Nat) (v : QueueSt) : (s.setQueue q v).casts = s.casts := rfl
@[simp] theorem State.setQueue_serve (s : State) (q : Nat) (v : QueueSt) : (s.setQueue q v).serve = s.serve := rfl
@[simp] theorem State.setQueue_power (s : State) (q : Nat) (v : QueueSt) : (s.setQueue q v).power = s.power := rfl
@[simp] theorem State.setQueue_sec (s : State) (q : Nat) (v : QueueSt) : (s.setQueue q v).sec = s.sec := rfl
@[simp] theorem State.setQueue_fw (s : State) (q : Nat) (v : QueueSt) : (s.setQueue q v).fw = s.fw := rfl
@[simp] theorem State.setQueue_inc (s : State) (q : Nat) (v : QueueSt) : (s.setQueue q v).inc = s.inc := rfl
@[simp] theorem State.setQueue_twin (s : State) (q : Nat) (v : QueueSt) : (s.setQueue q v).twin = s.twin := rfl
@[simp] theorem State.setQueue_lost (s : State) (q : Nat) (v : QueueSt) : (s.setQueue q v).lost = s.lost := rfl
@[simp] theorem State.setQueue_cxlGone (s : State) (q : Nat) (v : QueueSt) : (s.setQueue q v).cxlGone = s.cxlGone := rfl
@[simp] theorem State.setQueue_pins (s : State) (q : Nat) (v : QueueSt) : (s.setQueue q v).pins = s.pins := rfl
@[simp] theorem State.setQueue_freeCtr (s : State) (q : Nat) (v : QueueSt) : (s.setQueue q v).freeCtr = s.freeCtr := rfl
@[simp] theorem State.setQueue_out (s : State) (q : Nat) (v : QueueSt) : (s.setQueue q v).out = s.out := rfl
@[simp] theorem State.setQueue_pending (s : State) (q : Nat) (v : QueueSt) : (s.setQueue q v).pending = s.pending := rfl
@[simp] theorem State.setQueue_redStage (s : State) (q : Nat) (v : QueueSt) : (s.setQueue q v).redStage = s.redStage := rfl
@[simp] theorem State.setQueue_hbmUe (s : State) (q : Nat) (v : QueueSt) : (s.setQueue q v).hbmUe = s.hbmUe := rfl
@[simp] theorem State.setQueue_metaCache (s : State) (q : Nat) (v : QueueSt) : (s.setQueue q v).metaCache = s.metaCache := rfl
@[simp] theorem State.setQueue_sideArea (s : State) (q : Nat) (v : QueueSt) : (s.setQueue q v).sideArea = s.sideArea := rfl
@[simp] theorem State.setQueue_sessIn (s : State) (q : Nat) (v : QueueSt) : (s.setQueue q v).sessIn = s.sessIn := rfl
@[simp] theorem State.setQueue_pci (s : State) (q : Nat) (v : QueueSt) : (s.setQueue q v).pci = s.pci := rfl
@[simp] theorem State.setQueue_pfWalks (s : State) (q : Nat) (v : QueueSt) : (s.setQueue q v).pfWalks = s.pfWalks := rfl
@[simp] theorem State.setQueue_walkWait (s : State) (q : Nat) (v : QueueSt) : (s.setQueue q v).walkWait = s.walkWait := rfl
@[simp] theorem State.setQueue_fwNeed (s : State) (q : Nat) (v : QueueSt) : (s.setQueue q v).fwNeed = s.fwNeed := rfl
@[simp] theorem State.setQueue_fwGot (s : State) (q : Nat) (v : QueueSt) : (s.setQueue q v).fwGot = s.fwGot := rfl
@[simp] theorem State.setQueue_fwHeld (s : State) (q : Nat) (v : QueueSt) : (s.setQueue q v).fwHeld = s.fwHeld := rfl

@[simp] theorem State.setFence_regs (s : State) (f : Nat) (v : Option FenceSt) : (s.setFence f v).regs = s.regs := rfl
@[simp] theorem State.setFence_vfErr (s : State) (f : Nat) (v : Option FenceSt) : (s.setFence f v).vfErr = s.vfErr := rfl
@[simp] theorem State.setFence_latch (s : State) (f : Nat) (v : Option FenceSt) : (s.setFence f v).latch = s.latch := rfl
@[simp] theorem State.setFence_loHeld (s : State) (f : Nat) (v : Option FenceSt) : (s.setFence f v).loHeld = s.loHeld := rfl
@[simp] theorem State.setFence_ctrs (s : State) (f : Nat) (v : Option FenceSt) : (s.setFence f v).ctrs = s.ctrs := rfl
@[simp] theorem State.setFence_tiles (s : State) (f : Nat) (v : Option FenceSt) : (s.setFence f v).tiles = s.tiles := rfl
@[simp] theorem State.setFence_ledgers (s : State) (f : Nat) (v : Option FenceSt) : (s.setFence f v).ledgers = s.ledgers := rfl
@[simp] theorem State.setFence_meshCe (s : State) (f : Nat) (v : Option FenceSt) : (s.setFence f v).meshCe = s.meshCe := rfl
@[simp] theorem State.setFence_bridges (s : State) (f : Nat) (v : Option FenceSt) : (s.setFence f v).bridges = s.bridges := rfl
@[simp] theorem State.setFence_redIn (s : State) (f : Nat) (v : Option FenceSt) : (s.setFence f v).redIn = s.redIn := rfl
@[simp] theorem State.setFence_redRun (s : State) (f : Nat) (v : Option FenceSt) : (s.setFence f v).redRun = s.redRun := rfl
@[simp] theorem State.setFence_redOpen (s : State) (f : Nat) (v : Option FenceSt) : (s.setFence f v).redOpen = s.redOpen := rfl
@[simp] theorem State.setFence_redClk (s : State) (f : Nat) (v : Option FenceSt) : (s.setFence f v).redClk = s.redClk := rfl
@[simp] theorem State.setFence_mcFlits (s : State) (f : Nat) (v : Option FenceSt) : (s.setFence f v).mcFlits = s.mcFlits := rfl
@[simp] theorem State.setFence_audited (s : State) (f : Nat) (v : Option FenceSt) : (s.setFence f v).audited = s.audited := rfl
@[simp] theorem State.setFence_auditFirst (s : State) (f : Nat) (v : Option FenceSt) : (s.setFence f v).auditFirst = s.auditFirst := rfl
@[simp] theorem State.setFence_hbm (s : State) (f : Nat) (v : Option FenceSt) : (s.setFence f v).hbm = s.hbm := rfl
@[simp] theorem State.setFence_cxl (s : State) (f : Nat) (v : Option FenceSt) : (s.setFence f v).cxl = s.cxl := rfl
@[simp] theorem State.setFence_chanCe (s : State) (f : Nat) (v : Option FenceSt) : (s.setFence f v).chanCe = s.chanCe := rfl
@[simp] theorem State.setFence_hot (s : State) (f : Nat) (v : Option FenceSt) : (s.setFence f v).hot = s.hot := rfl
@[simp] theorem State.setFence_tcache (s : State) (f : Nat) (v : Option FenceSt) : (s.setFence f v).tcache = s.tcache := rfl
@[simp] theorem State.setFence_wcache (s : State) (f : Nat) (v : Option FenceSt) : (s.setFence f v).wcache = s.wcache := rfl
@[simp] theorem State.setFence_fq (s : State) (f : Nat) (v : Option FenceSt) : (s.setFence f v).fq = s.fq := rfl
@[simp] theorem State.setFence_inv (s : State) (f : Nat) (v : Option FenceSt) : (s.setFence f v).inv = s.inv := rfl
@[simp] theorem State.setFence_stu (s : State) (f : Nat) (v : Option FenceSt) : (s.setFence f v).stu = s.stu := rfl
@[simp] theorem State.setFence_cues (s : State) (f : Nat) (v : Option FenceSt) : (s.setFence f v).cues = s.cues := rfl
@[simp] theorem State.setFence_ports (s : State) (f : Nat) (v : Option FenceSt) : (s.setFence f v).ports = s.ports := rfl
@[simp] theorem State.setFence_sess (s : State) (f : Nat) (v : Option FenceSt) : (s.setFence f v).sess = s.sess := rfl
@[simp] theorem State.setFence_reqs (s : State) (f : Nat) (v : Option FenceSt) : (s.setFence f v).reqs = s.reqs := rfl
@[simp] theorem State.setFence_nextTag (s : State) (f : Nat) (v : Option FenceSt) : (s.setFence f v).nextTag = s.nextTag := rfl
@[simp] theorem State.setFence_loom (s : State) (f : Nat) (v : Option FenceSt) : (s.setFence f v).loom = s.loom := rfl
@[simp] theorem State.setFence_queues (s : State) (f : Nat) (v : Option FenceSt) : (s.setFence f v).queues = s.queues := rfl
@[simp] theorem State.setFence_queueRr (s : State) (f : Nat) (v : Option FenceSt) : (s.setFence f v).queueRr = s.queueRr := rfl
@[simp] theorem State.setFence_objs (s : State) (f : Nat) (v : Option FenceSt) : (s.setFence f v).objs = s.objs := rfl
@[simp] theorem State.setFence_freed (s : State) (f : Nat) (v : Option FenceSt) : (s.setFence f v).freed = s.freed := rfl
@[simp] theorem State.setFence_ctxs (s : State) (f : Nat) (v : Option FenceSt) : (s.setFence f v).ctxs = s.ctxs := rfl
@[simp] theorem State.setFence_mbx (s : State) (f : Nat) (v : Option FenceSt) : (s.setFence f v).mbx = s.mbx := rfl
@[simp] theorem State.setFence_fns (s : State) (f : Nat) (v : Option FenceSt) : (s.setFence f v).fns = s.fns := rfl
@[simp] theorem State.setFence_hostReads (s : State) (f : Nat) (v : Option FenceSt) : (s.setFence f v).hostReads = s.hostReads := rfl
@[simp] theorem State.setFence_casts (s : State) (f : Nat) (v : Option FenceSt) : (s.setFence f v).casts = s.casts := rfl
@[simp] theorem State.setFence_serve (s : State) (f : Nat) (v : Option FenceSt) : (s.setFence f v).serve = s.serve := rfl
@[simp] theorem State.setFence_power (s : State) (f : Nat) (v : Option FenceSt) : (s.setFence f v).power = s.power := rfl
@[simp] theorem State.setFence_sec (s : State) (f : Nat) (v : Option FenceSt) : (s.setFence f v).sec = s.sec := rfl
@[simp] theorem State.setFence_fw (s : State) (f : Nat) (v : Option FenceSt) : (s.setFence f v).fw = s.fw := rfl
@[simp] theorem State.setFence_inc (s : State) (f : Nat) (v : Option FenceSt) : (s.setFence f v).inc = s.inc := rfl
@[simp] theorem State.setFence_twin (s : State) (f : Nat) (v : Option FenceSt) : (s.setFence f v).twin = s.twin := rfl
@[simp] theorem State.setFence_lost (s : State) (f : Nat) (v : Option FenceSt) : (s.setFence f v).lost = s.lost := rfl
@[simp] theorem State.setFence_cxlGone (s : State) (f : Nat) (v : Option FenceSt) : (s.setFence f v).cxlGone = s.cxlGone := rfl
@[simp] theorem State.setFence_pins (s : State) (f : Nat) (v : Option FenceSt) : (s.setFence f v).pins = s.pins := rfl
@[simp] theorem State.setFence_freeCtr (s : State) (f : Nat) (v : Option FenceSt) : (s.setFence f v).freeCtr = s.freeCtr := rfl
@[simp] theorem State.setFence_out (s : State) (f : Nat) (v : Option FenceSt) : (s.setFence f v).out = s.out := rfl
@[simp] theorem State.setFence_pending (s : State) (f : Nat) (v : Option FenceSt) : (s.setFence f v).pending = s.pending := rfl
@[simp] theorem State.setFence_redStage (s : State) (f : Nat) (v : Option FenceSt) : (s.setFence f v).redStage = s.redStage := rfl
@[simp] theorem State.setFence_hbmUe (s : State) (f : Nat) (v : Option FenceSt) : (s.setFence f v).hbmUe = s.hbmUe := rfl
@[simp] theorem State.setFence_metaCache (s : State) (f : Nat) (v : Option FenceSt) : (s.setFence f v).metaCache = s.metaCache := rfl
@[simp] theorem State.setFence_sideArea (s : State) (f : Nat) (v : Option FenceSt) : (s.setFence f v).sideArea = s.sideArea := rfl
@[simp] theorem State.setFence_sessIn (s : State) (f : Nat) (v : Option FenceSt) : (s.setFence f v).sessIn = s.sessIn := rfl
@[simp] theorem State.setFence_pci (s : State) (f : Nat) (v : Option FenceSt) : (s.setFence f v).pci = s.pci := rfl
@[simp] theorem State.setFence_pfWalks (s : State) (f : Nat) (v : Option FenceSt) : (s.setFence f v).pfWalks = s.pfWalks := rfl
@[simp] theorem State.setFence_walkWait (s : State) (f : Nat) (v : Option FenceSt) : (s.setFence f v).walkWait = s.walkWait := rfl
@[simp] theorem State.setFence_fwNeed (s : State) (f : Nat) (v : Option FenceSt) : (s.setFence f v).fwNeed = s.fwNeed := rfl
@[simp] theorem State.setFence_fwGot (s : State) (f : Nat) (v : Option FenceSt) : (s.setFence f v).fwGot = s.fwGot := rfl
@[simp] theorem State.setFence_fwHeld (s : State) (f : Nat) (v : Option FenceSt) : (s.setFence f v).fwHeld = s.fwHeld := rfl

@[simp] theorem State.setObj_regs (s : State) (k : Nat) (v : ObjSt) : (s.setObj k v).regs = s.regs := rfl
@[simp] theorem State.setObj_vfErr (s : State) (k : Nat) (v : ObjSt) : (s.setObj k v).vfErr = s.vfErr := rfl
@[simp] theorem State.setObj_latch (s : State) (k : Nat) (v : ObjSt) : (s.setObj k v).latch = s.latch := rfl
@[simp] theorem State.setObj_loHeld (s : State) (k : Nat) (v : ObjSt) : (s.setObj k v).loHeld = s.loHeld := rfl
@[simp] theorem State.setObj_ctrs (s : State) (k : Nat) (v : ObjSt) : (s.setObj k v).ctrs = s.ctrs := rfl
@[simp] theorem State.setObj_tiles (s : State) (k : Nat) (v : ObjSt) : (s.setObj k v).tiles = s.tiles := rfl
@[simp] theorem State.setObj_ledgers (s : State) (k : Nat) (v : ObjSt) : (s.setObj k v).ledgers = s.ledgers := rfl
@[simp] theorem State.setObj_meshCe (s : State) (k : Nat) (v : ObjSt) : (s.setObj k v).meshCe = s.meshCe := rfl
@[simp] theorem State.setObj_bridges (s : State) (k : Nat) (v : ObjSt) : (s.setObj k v).bridges = s.bridges := rfl
@[simp] theorem State.setObj_redIn (s : State) (k : Nat) (v : ObjSt) : (s.setObj k v).redIn = s.redIn := rfl
@[simp] theorem State.setObj_redRun (s : State) (k : Nat) (v : ObjSt) : (s.setObj k v).redRun = s.redRun := rfl
@[simp] theorem State.setObj_redOpen (s : State) (k : Nat) (v : ObjSt) : (s.setObj k v).redOpen = s.redOpen := rfl
@[simp] theorem State.setObj_redClk (s : State) (k : Nat) (v : ObjSt) : (s.setObj k v).redClk = s.redClk := rfl
@[simp] theorem State.setObj_mcFlits (s : State) (k : Nat) (v : ObjSt) : (s.setObj k v).mcFlits = s.mcFlits := rfl
@[simp] theorem State.setObj_audited (s : State) (k : Nat) (v : ObjSt) : (s.setObj k v).audited = s.audited := rfl
@[simp] theorem State.setObj_auditFirst (s : State) (k : Nat) (v : ObjSt) : (s.setObj k v).auditFirst = s.auditFirst := rfl
@[simp] theorem State.setObj_hbm (s : State) (k : Nat) (v : ObjSt) : (s.setObj k v).hbm = s.hbm := rfl
@[simp] theorem State.setObj_cxl (s : State) (k : Nat) (v : ObjSt) : (s.setObj k v).cxl = s.cxl := rfl
@[simp] theorem State.setObj_chanCe (s : State) (k : Nat) (v : ObjSt) : (s.setObj k v).chanCe = s.chanCe := rfl
@[simp] theorem State.setObj_hot (s : State) (k : Nat) (v : ObjSt) : (s.setObj k v).hot = s.hot := rfl
@[simp] theorem State.setObj_tcache (s : State) (k : Nat) (v : ObjSt) : (s.setObj k v).tcache = s.tcache := rfl
@[simp] theorem State.setObj_wcache (s : State) (k : Nat) (v : ObjSt) : (s.setObj k v).wcache = s.wcache := rfl
@[simp] theorem State.setObj_fq (s : State) (k : Nat) (v : ObjSt) : (s.setObj k v).fq = s.fq := rfl
@[simp] theorem State.setObj_inv (s : State) (k : Nat) (v : ObjSt) : (s.setObj k v).inv = s.inv := rfl
@[simp] theorem State.setObj_stu (s : State) (k : Nat) (v : ObjSt) : (s.setObj k v).stu = s.stu := rfl
@[simp] theorem State.setObj_cues (s : State) (k : Nat) (v : ObjSt) : (s.setObj k v).cues = s.cues := rfl
@[simp] theorem State.setObj_ports (s : State) (k : Nat) (v : ObjSt) : (s.setObj k v).ports = s.ports := rfl
@[simp] theorem State.setObj_sess (s : State) (k : Nat) (v : ObjSt) : (s.setObj k v).sess = s.sess := rfl
@[simp] theorem State.setObj_reqs (s : State) (k : Nat) (v : ObjSt) : (s.setObj k v).reqs = s.reqs := rfl
@[simp] theorem State.setObj_nextTag (s : State) (k : Nat) (v : ObjSt) : (s.setObj k v).nextTag = s.nextTag := rfl
@[simp] theorem State.setObj_loom (s : State) (k : Nat) (v : ObjSt) : (s.setObj k v).loom = s.loom := rfl
@[simp] theorem State.setObj_queues (s : State) (k : Nat) (v : ObjSt) : (s.setObj k v).queues = s.queues := rfl
@[simp] theorem State.setObj_queueRr (s : State) (k : Nat) (v : ObjSt) : (s.setObj k v).queueRr = s.queueRr := rfl
@[simp] theorem State.setObj_fences (s : State) (k : Nat) (v : ObjSt) : (s.setObj k v).fences = s.fences := rfl
@[simp] theorem State.setObj_freed (s : State) (k : Nat) (v : ObjSt) : (s.setObj k v).freed = s.freed := rfl
@[simp] theorem State.setObj_ctxs (s : State) (k : Nat) (v : ObjSt) : (s.setObj k v).ctxs = s.ctxs := rfl
@[simp] theorem State.setObj_mbx (s : State) (k : Nat) (v : ObjSt) : (s.setObj k v).mbx = s.mbx := rfl
@[simp] theorem State.setObj_fns (s : State) (k : Nat) (v : ObjSt) : (s.setObj k v).fns = s.fns := rfl
@[simp] theorem State.setObj_hostReads (s : State) (k : Nat) (v : ObjSt) : (s.setObj k v).hostReads = s.hostReads := rfl
@[simp] theorem State.setObj_casts (s : State) (k : Nat) (v : ObjSt) : (s.setObj k v).casts = s.casts := rfl
@[simp] theorem State.setObj_serve (s : State) (k : Nat) (v : ObjSt) : (s.setObj k v).serve = s.serve := rfl
@[simp] theorem State.setObj_power (s : State) (k : Nat) (v : ObjSt) : (s.setObj k v).power = s.power := rfl
@[simp] theorem State.setObj_sec (s : State) (k : Nat) (v : ObjSt) : (s.setObj k v).sec = s.sec := rfl
@[simp] theorem State.setObj_fw (s : State) (k : Nat) (v : ObjSt) : (s.setObj k v).fw = s.fw := rfl
@[simp] theorem State.setObj_inc (s : State) (k : Nat) (v : ObjSt) : (s.setObj k v).inc = s.inc := rfl
@[simp] theorem State.setObj_twin (s : State) (k : Nat) (v : ObjSt) : (s.setObj k v).twin = s.twin := rfl
@[simp] theorem State.setObj_lost (s : State) (k : Nat) (v : ObjSt) : (s.setObj k v).lost = s.lost := rfl
@[simp] theorem State.setObj_cxlGone (s : State) (k : Nat) (v : ObjSt) : (s.setObj k v).cxlGone = s.cxlGone := rfl
@[simp] theorem State.setObj_pins (s : State) (k : Nat) (v : ObjSt) : (s.setObj k v).pins = s.pins := rfl
@[simp] theorem State.setObj_freeCtr (s : State) (k : Nat) (v : ObjSt) : (s.setObj k v).freeCtr = s.freeCtr := rfl
@[simp] theorem State.setObj_out (s : State) (k : Nat) (v : ObjSt) : (s.setObj k v).out = s.out := rfl
@[simp] theorem State.setObj_pending (s : State) (k : Nat) (v : ObjSt) : (s.setObj k v).pending = s.pending := rfl
@[simp] theorem State.setObj_redStage (s : State) (k : Nat) (v : ObjSt) : (s.setObj k v).redStage = s.redStage := rfl
@[simp] theorem State.setObj_hbmUe (s : State) (k : Nat) (v : ObjSt) : (s.setObj k v).hbmUe = s.hbmUe := rfl
@[simp] theorem State.setObj_metaCache (s : State) (k : Nat) (v : ObjSt) : (s.setObj k v).metaCache = s.metaCache := rfl
@[simp] theorem State.setObj_sideArea (s : State) (k : Nat) (v : ObjSt) : (s.setObj k v).sideArea = s.sideArea := rfl
@[simp] theorem State.setObj_sessIn (s : State) (k : Nat) (v : ObjSt) : (s.setObj k v).sessIn = s.sessIn := rfl
@[simp] theorem State.setObj_pci (s : State) (k : Nat) (v : ObjSt) : (s.setObj k v).pci = s.pci := rfl
@[simp] theorem State.setObj_pfWalks (s : State) (k : Nat) (v : ObjSt) : (s.setObj k v).pfWalks = s.pfWalks := rfl
@[simp] theorem State.setObj_walkWait (s : State) (k : Nat) (v : ObjSt) : (s.setObj k v).walkWait = s.walkWait := rfl
@[simp] theorem State.setObj_fwNeed (s : State) (k : Nat) (v : ObjSt) : (s.setObj k v).fwNeed = s.fwNeed := rfl
@[simp] theorem State.setObj_fwGot (s : State) (k : Nat) (v : ObjSt) : (s.setObj k v).fwGot = s.fwGot := rfl
@[simp] theorem State.setObj_fwHeld (s : State) (k : Nat) (v : ObjSt) : (s.setObj k v).fwHeld = s.fwHeld := rfl

@[simp] theorem State.setCue_regs (s : State) (k : Nat) (v : Option CueSlotSt) : (s.setCue k v).regs = s.regs := rfl
@[simp] theorem State.setCue_vfErr (s : State) (k : Nat) (v : Option CueSlotSt) : (s.setCue k v).vfErr = s.vfErr := rfl
@[simp] theorem State.setCue_latch (s : State) (k : Nat) (v : Option CueSlotSt) : (s.setCue k v).latch = s.latch := rfl
@[simp] theorem State.setCue_loHeld (s : State) (k : Nat) (v : Option CueSlotSt) : (s.setCue k v).loHeld = s.loHeld := rfl
@[simp] theorem State.setCue_ctrs (s : State) (k : Nat) (v : Option CueSlotSt) : (s.setCue k v).ctrs = s.ctrs := rfl
@[simp] theorem State.setCue_tiles (s : State) (k : Nat) (v : Option CueSlotSt) : (s.setCue k v).tiles = s.tiles := rfl
@[simp] theorem State.setCue_ledgers (s : State) (k : Nat) (v : Option CueSlotSt) : (s.setCue k v).ledgers = s.ledgers := rfl
@[simp] theorem State.setCue_meshCe (s : State) (k : Nat) (v : Option CueSlotSt) : (s.setCue k v).meshCe = s.meshCe := rfl
@[simp] theorem State.setCue_bridges (s : State) (k : Nat) (v : Option CueSlotSt) : (s.setCue k v).bridges = s.bridges := rfl
@[simp] theorem State.setCue_redIn (s : State) (k : Nat) (v : Option CueSlotSt) : (s.setCue k v).redIn = s.redIn := rfl
@[simp] theorem State.setCue_redRun (s : State) (k : Nat) (v : Option CueSlotSt) : (s.setCue k v).redRun = s.redRun := rfl
@[simp] theorem State.setCue_redOpen (s : State) (k : Nat) (v : Option CueSlotSt) : (s.setCue k v).redOpen = s.redOpen := rfl
@[simp] theorem State.setCue_redClk (s : State) (k : Nat) (v : Option CueSlotSt) : (s.setCue k v).redClk = s.redClk := rfl
@[simp] theorem State.setCue_mcFlits (s : State) (k : Nat) (v : Option CueSlotSt) : (s.setCue k v).mcFlits = s.mcFlits := rfl
@[simp] theorem State.setCue_audited (s : State) (k : Nat) (v : Option CueSlotSt) : (s.setCue k v).audited = s.audited := rfl
@[simp] theorem State.setCue_auditFirst (s : State) (k : Nat) (v : Option CueSlotSt) : (s.setCue k v).auditFirst = s.auditFirst := rfl
@[simp] theorem State.setCue_hbm (s : State) (k : Nat) (v : Option CueSlotSt) : (s.setCue k v).hbm = s.hbm := rfl
@[simp] theorem State.setCue_cxl (s : State) (k : Nat) (v : Option CueSlotSt) : (s.setCue k v).cxl = s.cxl := rfl
@[simp] theorem State.setCue_chanCe (s : State) (k : Nat) (v : Option CueSlotSt) : (s.setCue k v).chanCe = s.chanCe := rfl
@[simp] theorem State.setCue_hot (s : State) (k : Nat) (v : Option CueSlotSt) : (s.setCue k v).hot = s.hot := rfl
@[simp] theorem State.setCue_tcache (s : State) (k : Nat) (v : Option CueSlotSt) : (s.setCue k v).tcache = s.tcache := rfl
@[simp] theorem State.setCue_wcache (s : State) (k : Nat) (v : Option CueSlotSt) : (s.setCue k v).wcache = s.wcache := rfl
@[simp] theorem State.setCue_fq (s : State) (k : Nat) (v : Option CueSlotSt) : (s.setCue k v).fq = s.fq := rfl
@[simp] theorem State.setCue_inv (s : State) (k : Nat) (v : Option CueSlotSt) : (s.setCue k v).inv = s.inv := rfl
@[simp] theorem State.setCue_stu (s : State) (k : Nat) (v : Option CueSlotSt) : (s.setCue k v).stu = s.stu := rfl
@[simp] theorem State.setCue_ports (s : State) (k : Nat) (v : Option CueSlotSt) : (s.setCue k v).ports = s.ports := rfl
@[simp] theorem State.setCue_sess (s : State) (k : Nat) (v : Option CueSlotSt) : (s.setCue k v).sess = s.sess := rfl
@[simp] theorem State.setCue_reqs (s : State) (k : Nat) (v : Option CueSlotSt) : (s.setCue k v).reqs = s.reqs := rfl
@[simp] theorem State.setCue_nextTag (s : State) (k : Nat) (v : Option CueSlotSt) : (s.setCue k v).nextTag = s.nextTag := rfl
@[simp] theorem State.setCue_loom (s : State) (k : Nat) (v : Option CueSlotSt) : (s.setCue k v).loom = s.loom := rfl
@[simp] theorem State.setCue_queues (s : State) (k : Nat) (v : Option CueSlotSt) : (s.setCue k v).queues = s.queues := rfl
@[simp] theorem State.setCue_queueRr (s : State) (k : Nat) (v : Option CueSlotSt) : (s.setCue k v).queueRr = s.queueRr := rfl
@[simp] theorem State.setCue_fences (s : State) (k : Nat) (v : Option CueSlotSt) : (s.setCue k v).fences = s.fences := rfl
@[simp] theorem State.setCue_objs (s : State) (k : Nat) (v : Option CueSlotSt) : (s.setCue k v).objs = s.objs := rfl
@[simp] theorem State.setCue_freed (s : State) (k : Nat) (v : Option CueSlotSt) : (s.setCue k v).freed = s.freed := rfl
@[simp] theorem State.setCue_ctxs (s : State) (k : Nat) (v : Option CueSlotSt) : (s.setCue k v).ctxs = s.ctxs := rfl
@[simp] theorem State.setCue_mbx (s : State) (k : Nat) (v : Option CueSlotSt) : (s.setCue k v).mbx = s.mbx := rfl
@[simp] theorem State.setCue_fns (s : State) (k : Nat) (v : Option CueSlotSt) : (s.setCue k v).fns = s.fns := rfl
@[simp] theorem State.setCue_hostReads (s : State) (k : Nat) (v : Option CueSlotSt) : (s.setCue k v).hostReads = s.hostReads := rfl
@[simp] theorem State.setCue_casts (s : State) (k : Nat) (v : Option CueSlotSt) : (s.setCue k v).casts = s.casts := rfl
@[simp] theorem State.setCue_serve (s : State) (k : Nat) (v : Option CueSlotSt) : (s.setCue k v).serve = s.serve := rfl
@[simp] theorem State.setCue_power (s : State) (k : Nat) (v : Option CueSlotSt) : (s.setCue k v).power = s.power := rfl
@[simp] theorem State.setCue_sec (s : State) (k : Nat) (v : Option CueSlotSt) : (s.setCue k v).sec = s.sec := rfl
@[simp] theorem State.setCue_fw (s : State) (k : Nat) (v : Option CueSlotSt) : (s.setCue k v).fw = s.fw := rfl
@[simp] theorem State.setCue_inc (s : State) (k : Nat) (v : Option CueSlotSt) : (s.setCue k v).inc = s.inc := rfl
@[simp] theorem State.setCue_twin (s : State) (k : Nat) (v : Option CueSlotSt) : (s.setCue k v).twin = s.twin := rfl
@[simp] theorem State.setCue_lost (s : State) (k : Nat) (v : Option CueSlotSt) : (s.setCue k v).lost = s.lost := rfl
@[simp] theorem State.setCue_cxlGone (s : State) (k : Nat) (v : Option CueSlotSt) : (s.setCue k v).cxlGone = s.cxlGone := rfl
@[simp] theorem State.setCue_pins (s : State) (k : Nat) (v : Option CueSlotSt) : (s.setCue k v).pins = s.pins := rfl
@[simp] theorem State.setCue_freeCtr (s : State) (k : Nat) (v : Option CueSlotSt) : (s.setCue k v).freeCtr = s.freeCtr := rfl
@[simp] theorem State.setCue_out (s : State) (k : Nat) (v : Option CueSlotSt) : (s.setCue k v).out = s.out := rfl
@[simp] theorem State.setCue_pending (s : State) (k : Nat) (v : Option CueSlotSt) : (s.setCue k v).pending = s.pending := rfl
@[simp] theorem State.setCue_redStage (s : State) (k : Nat) (v : Option CueSlotSt) : (s.setCue k v).redStage = s.redStage := rfl
@[simp] theorem State.setCue_hbmUe (s : State) (k : Nat) (v : Option CueSlotSt) : (s.setCue k v).hbmUe = s.hbmUe := rfl
@[simp] theorem State.setCue_metaCache (s : State) (k : Nat) (v : Option CueSlotSt) : (s.setCue k v).metaCache = s.metaCache := rfl
@[simp] theorem State.setCue_sideArea (s : State) (k : Nat) (v : Option CueSlotSt) : (s.setCue k v).sideArea = s.sideArea := rfl
@[simp] theorem State.setCue_sessIn (s : State) (k : Nat) (v : Option CueSlotSt) : (s.setCue k v).sessIn = s.sessIn := rfl
@[simp] theorem State.setCue_pci (s : State) (k : Nat) (v : Option CueSlotSt) : (s.setCue k v).pci = s.pci := rfl
@[simp] theorem State.setCue_pfWalks (s : State) (k : Nat) (v : Option CueSlotSt) : (s.setCue k v).pfWalks = s.pfWalks := rfl
@[simp] theorem State.setCue_walkWait (s : State) (k : Nat) (v : Option CueSlotSt) : (s.setCue k v).walkWait = s.walkWait := rfl
@[simp] theorem State.setCue_fwNeed (s : State) (k : Nat) (v : Option CueSlotSt) : (s.setCue k v).fwNeed = s.fwNeed := rfl
@[simp] theorem State.setCue_fwGot (s : State) (k : Nat) (v : Option CueSlotSt) : (s.setCue k v).fwGot = s.fwGot := rfl
@[simp] theorem State.setCue_fwHeld (s : State) (k : Nat) (v : Option CueSlotSt) : (s.setCue k v).fwHeld = s.fwHeld := rfl

@[simp] theorem State.setSess_regs (s : State) (k : Nat) (v : Option Sess) : (s.setSess k v).regs = s.regs := rfl
@[simp] theorem State.setSess_vfErr (s : State) (k : Nat) (v : Option Sess) : (s.setSess k v).vfErr = s.vfErr := rfl
@[simp] theorem State.setSess_latch (s : State) (k : Nat) (v : Option Sess) : (s.setSess k v).latch = s.latch := rfl
@[simp] theorem State.setSess_loHeld (s : State) (k : Nat) (v : Option Sess) : (s.setSess k v).loHeld = s.loHeld := rfl
@[simp] theorem State.setSess_ctrs (s : State) (k : Nat) (v : Option Sess) : (s.setSess k v).ctrs = s.ctrs := rfl
@[simp] theorem State.setSess_tiles (s : State) (k : Nat) (v : Option Sess) : (s.setSess k v).tiles = s.tiles := rfl
@[simp] theorem State.setSess_ledgers (s : State) (k : Nat) (v : Option Sess) : (s.setSess k v).ledgers = s.ledgers := rfl
@[simp] theorem State.setSess_meshCe (s : State) (k : Nat) (v : Option Sess) : (s.setSess k v).meshCe = s.meshCe := rfl
@[simp] theorem State.setSess_bridges (s : State) (k : Nat) (v : Option Sess) : (s.setSess k v).bridges = s.bridges := rfl
@[simp] theorem State.setSess_redIn (s : State) (k : Nat) (v : Option Sess) : (s.setSess k v).redIn = s.redIn := rfl
@[simp] theorem State.setSess_redRun (s : State) (k : Nat) (v : Option Sess) : (s.setSess k v).redRun = s.redRun := rfl
@[simp] theorem State.setSess_redOpen (s : State) (k : Nat) (v : Option Sess) : (s.setSess k v).redOpen = s.redOpen := rfl
@[simp] theorem State.setSess_redClk (s : State) (k : Nat) (v : Option Sess) : (s.setSess k v).redClk = s.redClk := rfl
@[simp] theorem State.setSess_mcFlits (s : State) (k : Nat) (v : Option Sess) : (s.setSess k v).mcFlits = s.mcFlits := rfl
@[simp] theorem State.setSess_audited (s : State) (k : Nat) (v : Option Sess) : (s.setSess k v).audited = s.audited := rfl
@[simp] theorem State.setSess_auditFirst (s : State) (k : Nat) (v : Option Sess) : (s.setSess k v).auditFirst = s.auditFirst := rfl
@[simp] theorem State.setSess_hbm (s : State) (k : Nat) (v : Option Sess) : (s.setSess k v).hbm = s.hbm := rfl
@[simp] theorem State.setSess_cxl (s : State) (k : Nat) (v : Option Sess) : (s.setSess k v).cxl = s.cxl := rfl
@[simp] theorem State.setSess_chanCe (s : State) (k : Nat) (v : Option Sess) : (s.setSess k v).chanCe = s.chanCe := rfl
@[simp] theorem State.setSess_hot (s : State) (k : Nat) (v : Option Sess) : (s.setSess k v).hot = s.hot := rfl
@[simp] theorem State.setSess_tcache (s : State) (k : Nat) (v : Option Sess) : (s.setSess k v).tcache = s.tcache := rfl
@[simp] theorem State.setSess_wcache (s : State) (k : Nat) (v : Option Sess) : (s.setSess k v).wcache = s.wcache := rfl
@[simp] theorem State.setSess_fq (s : State) (k : Nat) (v : Option Sess) : (s.setSess k v).fq = s.fq := rfl
@[simp] theorem State.setSess_inv (s : State) (k : Nat) (v : Option Sess) : (s.setSess k v).inv = s.inv := rfl
@[simp] theorem State.setSess_stu (s : State) (k : Nat) (v : Option Sess) : (s.setSess k v).stu = s.stu := rfl
@[simp] theorem State.setSess_cues (s : State) (k : Nat) (v : Option Sess) : (s.setSess k v).cues = s.cues := rfl
@[simp] theorem State.setSess_ports (s : State) (k : Nat) (v : Option Sess) : (s.setSess k v).ports = s.ports := rfl
@[simp] theorem State.setSess_reqs (s : State) (k : Nat) (v : Option Sess) : (s.setSess k v).reqs = s.reqs := rfl
@[simp] theorem State.setSess_nextTag (s : State) (k : Nat) (v : Option Sess) : (s.setSess k v).nextTag = s.nextTag := rfl
@[simp] theorem State.setSess_loom (s : State) (k : Nat) (v : Option Sess) : (s.setSess k v).loom = s.loom := rfl
@[simp] theorem State.setSess_queues (s : State) (k : Nat) (v : Option Sess) : (s.setSess k v).queues = s.queues := rfl
@[simp] theorem State.setSess_queueRr (s : State) (k : Nat) (v : Option Sess) : (s.setSess k v).queueRr = s.queueRr := rfl
@[simp] theorem State.setSess_fences (s : State) (k : Nat) (v : Option Sess) : (s.setSess k v).fences = s.fences := rfl
@[simp] theorem State.setSess_objs (s : State) (k : Nat) (v : Option Sess) : (s.setSess k v).objs = s.objs := rfl
@[simp] theorem State.setSess_freed (s : State) (k : Nat) (v : Option Sess) : (s.setSess k v).freed = s.freed := rfl
@[simp] theorem State.setSess_ctxs (s : State) (k : Nat) (v : Option Sess) : (s.setSess k v).ctxs = s.ctxs := rfl
@[simp] theorem State.setSess_mbx (s : State) (k : Nat) (v : Option Sess) : (s.setSess k v).mbx = s.mbx := rfl
@[simp] theorem State.setSess_fns (s : State) (k : Nat) (v : Option Sess) : (s.setSess k v).fns = s.fns := rfl
@[simp] theorem State.setSess_hostReads (s : State) (k : Nat) (v : Option Sess) : (s.setSess k v).hostReads = s.hostReads := rfl
@[simp] theorem State.setSess_casts (s : State) (k : Nat) (v : Option Sess) : (s.setSess k v).casts = s.casts := rfl
@[simp] theorem State.setSess_serve (s : State) (k : Nat) (v : Option Sess) : (s.setSess k v).serve = s.serve := rfl
@[simp] theorem State.setSess_power (s : State) (k : Nat) (v : Option Sess) : (s.setSess k v).power = s.power := rfl
@[simp] theorem State.setSess_sec (s : State) (k : Nat) (v : Option Sess) : (s.setSess k v).sec = s.sec := rfl
@[simp] theorem State.setSess_fw (s : State) (k : Nat) (v : Option Sess) : (s.setSess k v).fw = s.fw := rfl
@[simp] theorem State.setSess_inc (s : State) (k : Nat) (v : Option Sess) : (s.setSess k v).inc = s.inc := rfl
@[simp] theorem State.setSess_twin (s : State) (k : Nat) (v : Option Sess) : (s.setSess k v).twin = s.twin := rfl
@[simp] theorem State.setSess_lost (s : State) (k : Nat) (v : Option Sess) : (s.setSess k v).lost = s.lost := rfl
@[simp] theorem State.setSess_cxlGone (s : State) (k : Nat) (v : Option Sess) : (s.setSess k v).cxlGone = s.cxlGone := rfl
@[simp] theorem State.setSess_pins (s : State) (k : Nat) (v : Option Sess) : (s.setSess k v).pins = s.pins := rfl
@[simp] theorem State.setSess_freeCtr (s : State) (k : Nat) (v : Option Sess) : (s.setSess k v).freeCtr = s.freeCtr := rfl
@[simp] theorem State.setSess_out (s : State) (k : Nat) (v : Option Sess) : (s.setSess k v).out = s.out := rfl
@[simp] theorem State.setSess_pending (s : State) (k : Nat) (v : Option Sess) : (s.setSess k v).pending = s.pending := rfl
@[simp] theorem State.setSess_redStage (s : State) (k : Nat) (v : Option Sess) : (s.setSess k v).redStage = s.redStage := rfl
@[simp] theorem State.setSess_hbmUe (s : State) (k : Nat) (v : Option Sess) : (s.setSess k v).hbmUe = s.hbmUe := rfl
@[simp] theorem State.setSess_metaCache (s : State) (k : Nat) (v : Option Sess) : (s.setSess k v).metaCache = s.metaCache := rfl
@[simp] theorem State.setSess_sideArea (s : State) (k : Nat) (v : Option Sess) : (s.setSess k v).sideArea = s.sideArea := rfl
@[simp] theorem State.setSess_sessIn (s : State) (k : Nat) (v : Option Sess) : (s.setSess k v).sessIn = s.sessIn := rfl
@[simp] theorem State.setSess_pci (s : State) (k : Nat) (v : Option Sess) : (s.setSess k v).pci = s.pci := rfl
@[simp] theorem State.setSess_pfWalks (s : State) (k : Nat) (v : Option Sess) : (s.setSess k v).pfWalks = s.pfWalks := rfl
@[simp] theorem State.setSess_walkWait (s : State) (k : Nat) (v : Option Sess) : (s.setSess k v).walkWait = s.walkWait := rfl
@[simp] theorem State.setSess_fwNeed (s : State) (k : Nat) (v : Option Sess) : (s.setSess k v).fwNeed = s.fwNeed := rfl
@[simp] theorem State.setSess_fwGot (s : State) (k : Nat) (v : Option Sess) : (s.setSess k v).fwGot = s.fwGot := rfl
@[simp] theorem State.setSess_fwHeld (s : State) (k : Nat) (v : Option Sess) : (s.setSess k v).fwHeld = s.fwHeld := rfl

@[simp] theorem State.setCast_regs (s : State) (k : Nat) (v : CastSt) : (s.setCast k v).regs = s.regs := rfl
@[simp] theorem State.setCast_vfErr (s : State) (k : Nat) (v : CastSt) : (s.setCast k v).vfErr = s.vfErr := rfl
@[simp] theorem State.setCast_latch (s : State) (k : Nat) (v : CastSt) : (s.setCast k v).latch = s.latch := rfl
@[simp] theorem State.setCast_loHeld (s : State) (k : Nat) (v : CastSt) : (s.setCast k v).loHeld = s.loHeld := rfl
@[simp] theorem State.setCast_ctrs (s : State) (k : Nat) (v : CastSt) : (s.setCast k v).ctrs = s.ctrs := rfl
@[simp] theorem State.setCast_tiles (s : State) (k : Nat) (v : CastSt) : (s.setCast k v).tiles = s.tiles := rfl
@[simp] theorem State.setCast_ledgers (s : State) (k : Nat) (v : CastSt) : (s.setCast k v).ledgers = s.ledgers := rfl
@[simp] theorem State.setCast_meshCe (s : State) (k : Nat) (v : CastSt) : (s.setCast k v).meshCe = s.meshCe := rfl
@[simp] theorem State.setCast_bridges (s : State) (k : Nat) (v : CastSt) : (s.setCast k v).bridges = s.bridges := rfl
@[simp] theorem State.setCast_redIn (s : State) (k : Nat) (v : CastSt) : (s.setCast k v).redIn = s.redIn := rfl
@[simp] theorem State.setCast_redRun (s : State) (k : Nat) (v : CastSt) : (s.setCast k v).redRun = s.redRun := rfl
@[simp] theorem State.setCast_redOpen (s : State) (k : Nat) (v : CastSt) : (s.setCast k v).redOpen = s.redOpen := rfl
@[simp] theorem State.setCast_redClk (s : State) (k : Nat) (v : CastSt) : (s.setCast k v).redClk = s.redClk := rfl
@[simp] theorem State.setCast_mcFlits (s : State) (k : Nat) (v : CastSt) : (s.setCast k v).mcFlits = s.mcFlits := rfl
@[simp] theorem State.setCast_audited (s : State) (k : Nat) (v : CastSt) : (s.setCast k v).audited = s.audited := rfl
@[simp] theorem State.setCast_auditFirst (s : State) (k : Nat) (v : CastSt) : (s.setCast k v).auditFirst = s.auditFirst := rfl
@[simp] theorem State.setCast_hbm (s : State) (k : Nat) (v : CastSt) : (s.setCast k v).hbm = s.hbm := rfl
@[simp] theorem State.setCast_cxl (s : State) (k : Nat) (v : CastSt) : (s.setCast k v).cxl = s.cxl := rfl
@[simp] theorem State.setCast_chanCe (s : State) (k : Nat) (v : CastSt) : (s.setCast k v).chanCe = s.chanCe := rfl
@[simp] theorem State.setCast_hot (s : State) (k : Nat) (v : CastSt) : (s.setCast k v).hot = s.hot := rfl
@[simp] theorem State.setCast_tcache (s : State) (k : Nat) (v : CastSt) : (s.setCast k v).tcache = s.tcache := rfl
@[simp] theorem State.setCast_wcache (s : State) (k : Nat) (v : CastSt) : (s.setCast k v).wcache = s.wcache := rfl
@[simp] theorem State.setCast_fq (s : State) (k : Nat) (v : CastSt) : (s.setCast k v).fq = s.fq := rfl
@[simp] theorem State.setCast_inv (s : State) (k : Nat) (v : CastSt) : (s.setCast k v).inv = s.inv := rfl
@[simp] theorem State.setCast_stu (s : State) (k : Nat) (v : CastSt) : (s.setCast k v).stu = s.stu := rfl
@[simp] theorem State.setCast_cues (s : State) (k : Nat) (v : CastSt) : (s.setCast k v).cues = s.cues := rfl
@[simp] theorem State.setCast_ports (s : State) (k : Nat) (v : CastSt) : (s.setCast k v).ports = s.ports := rfl
@[simp] theorem State.setCast_sess (s : State) (k : Nat) (v : CastSt) : (s.setCast k v).sess = s.sess := rfl
@[simp] theorem State.setCast_reqs (s : State) (k : Nat) (v : CastSt) : (s.setCast k v).reqs = s.reqs := rfl
@[simp] theorem State.setCast_nextTag (s : State) (k : Nat) (v : CastSt) : (s.setCast k v).nextTag = s.nextTag := rfl
@[simp] theorem State.setCast_loom (s : State) (k : Nat) (v : CastSt) : (s.setCast k v).loom = s.loom := rfl
@[simp] theorem State.setCast_queues (s : State) (k : Nat) (v : CastSt) : (s.setCast k v).queues = s.queues := rfl
@[simp] theorem State.setCast_queueRr (s : State) (k : Nat) (v : CastSt) : (s.setCast k v).queueRr = s.queueRr := rfl
@[simp] theorem State.setCast_fences (s : State) (k : Nat) (v : CastSt) : (s.setCast k v).fences = s.fences := rfl
@[simp] theorem State.setCast_objs (s : State) (k : Nat) (v : CastSt) : (s.setCast k v).objs = s.objs := rfl
@[simp] theorem State.setCast_freed (s : State) (k : Nat) (v : CastSt) : (s.setCast k v).freed = s.freed := rfl
@[simp] theorem State.setCast_ctxs (s : State) (k : Nat) (v : CastSt) : (s.setCast k v).ctxs = s.ctxs := rfl
@[simp] theorem State.setCast_mbx (s : State) (k : Nat) (v : CastSt) : (s.setCast k v).mbx = s.mbx := rfl
@[simp] theorem State.setCast_fns (s : State) (k : Nat) (v : CastSt) : (s.setCast k v).fns = s.fns := rfl
@[simp] theorem State.setCast_hostReads (s : State) (k : Nat) (v : CastSt) : (s.setCast k v).hostReads = s.hostReads := rfl
@[simp] theorem State.setCast_serve (s : State) (k : Nat) (v : CastSt) : (s.setCast k v).serve = s.serve := rfl
@[simp] theorem State.setCast_power (s : State) (k : Nat) (v : CastSt) : (s.setCast k v).power = s.power := rfl
@[simp] theorem State.setCast_sec (s : State) (k : Nat) (v : CastSt) : (s.setCast k v).sec = s.sec := rfl
@[simp] theorem State.setCast_fw (s : State) (k : Nat) (v : CastSt) : (s.setCast k v).fw = s.fw := rfl
@[simp] theorem State.setCast_inc (s : State) (k : Nat) (v : CastSt) : (s.setCast k v).inc = s.inc := rfl
@[simp] theorem State.setCast_twin (s : State) (k : Nat) (v : CastSt) : (s.setCast k v).twin = s.twin := rfl
@[simp] theorem State.setCast_lost (s : State) (k : Nat) (v : CastSt) : (s.setCast k v).lost = s.lost := rfl
@[simp] theorem State.setCast_cxlGone (s : State) (k : Nat) (v : CastSt) : (s.setCast k v).cxlGone = s.cxlGone := rfl
@[simp] theorem State.setCast_pins (s : State) (k : Nat) (v : CastSt) : (s.setCast k v).pins = s.pins := rfl
@[simp] theorem State.setCast_freeCtr (s : State) (k : Nat) (v : CastSt) : (s.setCast k v).freeCtr = s.freeCtr := rfl
@[simp] theorem State.setCast_out (s : State) (k : Nat) (v : CastSt) : (s.setCast k v).out = s.out := rfl
@[simp] theorem State.setCast_pending (s : State) (k : Nat) (v : CastSt) : (s.setCast k v).pending = s.pending := rfl
@[simp] theorem State.setCast_redStage (s : State) (k : Nat) (v : CastSt) : (s.setCast k v).redStage = s.redStage := rfl
@[simp] theorem State.setCast_hbmUe (s : State) (k : Nat) (v : CastSt) : (s.setCast k v).hbmUe = s.hbmUe := rfl
@[simp] theorem State.setCast_metaCache (s : State) (k : Nat) (v : CastSt) : (s.setCast k v).metaCache = s.metaCache := rfl
@[simp] theorem State.setCast_sideArea (s : State) (k : Nat) (v : CastSt) : (s.setCast k v).sideArea = s.sideArea := rfl
@[simp] theorem State.setCast_sessIn (s : State) (k : Nat) (v : CastSt) : (s.setCast k v).sessIn = s.sessIn := rfl
@[simp] theorem State.setCast_pci (s : State) (k : Nat) (v : CastSt) : (s.setCast k v).pci = s.pci := rfl
@[simp] theorem State.setCast_pfWalks (s : State) (k : Nat) (v : CastSt) : (s.setCast k v).pfWalks = s.pfWalks := rfl
@[simp] theorem State.setCast_walkWait (s : State) (k : Nat) (v : CastSt) : (s.setCast k v).walkWait = s.walkWait := rfl
@[simp] theorem State.setCast_fwNeed (s : State) (k : Nat) (v : CastSt) : (s.setCast k v).fwNeed = s.fwNeed := rfl
@[simp] theorem State.setCast_fwGot (s : State) (k : Nat) (v : CastSt) : (s.setCast k v).fwGot = s.fwGot := rfl
@[simp] theorem State.setCast_fwHeld (s : State) (k : Nat) (v : CastSt) : (s.setCast k v).fwHeld = s.fwHeld := rfl

@[simp] theorem State.setPanel_regs (s : State) (p : Nat) (v : PanelPwr) : (s.setPanel p v).regs = s.regs := rfl
@[simp] theorem State.setPanel_vfErr (s : State) (p : Nat) (v : PanelPwr) : (s.setPanel p v).vfErr = s.vfErr := rfl
@[simp] theorem State.setPanel_latch (s : State) (p : Nat) (v : PanelPwr) : (s.setPanel p v).latch = s.latch := rfl
@[simp] theorem State.setPanel_loHeld (s : State) (p : Nat) (v : PanelPwr) : (s.setPanel p v).loHeld = s.loHeld := rfl
@[simp] theorem State.setPanel_ctrs (s : State) (p : Nat) (v : PanelPwr) : (s.setPanel p v).ctrs = s.ctrs := rfl
@[simp] theorem State.setPanel_tiles (s : State) (p : Nat) (v : PanelPwr) : (s.setPanel p v).tiles = s.tiles := rfl
@[simp] theorem State.setPanel_ledgers (s : State) (p : Nat) (v : PanelPwr) : (s.setPanel p v).ledgers = s.ledgers := rfl
@[simp] theorem State.setPanel_meshCe (s : State) (p : Nat) (v : PanelPwr) : (s.setPanel p v).meshCe = s.meshCe := rfl
@[simp] theorem State.setPanel_bridges (s : State) (p : Nat) (v : PanelPwr) : (s.setPanel p v).bridges = s.bridges := rfl
@[simp] theorem State.setPanel_redIn (s : State) (p : Nat) (v : PanelPwr) : (s.setPanel p v).redIn = s.redIn := rfl
@[simp] theorem State.setPanel_redRun (s : State) (p : Nat) (v : PanelPwr) : (s.setPanel p v).redRun = s.redRun := rfl
@[simp] theorem State.setPanel_redOpen (s : State) (p : Nat) (v : PanelPwr) : (s.setPanel p v).redOpen = s.redOpen := rfl
@[simp] theorem State.setPanel_redClk (s : State) (p : Nat) (v : PanelPwr) : (s.setPanel p v).redClk = s.redClk := rfl
@[simp] theorem State.setPanel_mcFlits (s : State) (p : Nat) (v : PanelPwr) : (s.setPanel p v).mcFlits = s.mcFlits := rfl
@[simp] theorem State.setPanel_audited (s : State) (p : Nat) (v : PanelPwr) : (s.setPanel p v).audited = s.audited := rfl
@[simp] theorem State.setPanel_auditFirst (s : State) (p : Nat) (v : PanelPwr) : (s.setPanel p v).auditFirst = s.auditFirst := rfl
@[simp] theorem State.setPanel_hbm (s : State) (p : Nat) (v : PanelPwr) : (s.setPanel p v).hbm = s.hbm := rfl
@[simp] theorem State.setPanel_cxl (s : State) (p : Nat) (v : PanelPwr) : (s.setPanel p v).cxl = s.cxl := rfl
@[simp] theorem State.setPanel_chanCe (s : State) (p : Nat) (v : PanelPwr) : (s.setPanel p v).chanCe = s.chanCe := rfl
@[simp] theorem State.setPanel_hot (s : State) (p : Nat) (v : PanelPwr) : (s.setPanel p v).hot = s.hot := rfl
@[simp] theorem State.setPanel_tcache (s : State) (p : Nat) (v : PanelPwr) : (s.setPanel p v).tcache = s.tcache := rfl
@[simp] theorem State.setPanel_wcache (s : State) (p : Nat) (v : PanelPwr) : (s.setPanel p v).wcache = s.wcache := rfl
@[simp] theorem State.setPanel_fq (s : State) (p : Nat) (v : PanelPwr) : (s.setPanel p v).fq = s.fq := rfl
@[simp] theorem State.setPanel_inv (s : State) (p : Nat) (v : PanelPwr) : (s.setPanel p v).inv = s.inv := rfl
@[simp] theorem State.setPanel_stu (s : State) (p : Nat) (v : PanelPwr) : (s.setPanel p v).stu = s.stu := rfl
@[simp] theorem State.setPanel_cues (s : State) (p : Nat) (v : PanelPwr) : (s.setPanel p v).cues = s.cues := rfl
@[simp] theorem State.setPanel_ports (s : State) (p : Nat) (v : PanelPwr) : (s.setPanel p v).ports = s.ports := rfl
@[simp] theorem State.setPanel_sess (s : State) (p : Nat) (v : PanelPwr) : (s.setPanel p v).sess = s.sess := rfl
@[simp] theorem State.setPanel_reqs (s : State) (p : Nat) (v : PanelPwr) : (s.setPanel p v).reqs = s.reqs := rfl
@[simp] theorem State.setPanel_nextTag (s : State) (p : Nat) (v : PanelPwr) : (s.setPanel p v).nextTag = s.nextTag := rfl
@[simp] theorem State.setPanel_loom (s : State) (p : Nat) (v : PanelPwr) : (s.setPanel p v).loom = s.loom := rfl
@[simp] theorem State.setPanel_queues (s : State) (p : Nat) (v : PanelPwr) : (s.setPanel p v).queues = s.queues := rfl
@[simp] theorem State.setPanel_queueRr (s : State) (p : Nat) (v : PanelPwr) : (s.setPanel p v).queueRr = s.queueRr := rfl
@[simp] theorem State.setPanel_fences (s : State) (p : Nat) (v : PanelPwr) : (s.setPanel p v).fences = s.fences := rfl
@[simp] theorem State.setPanel_objs (s : State) (p : Nat) (v : PanelPwr) : (s.setPanel p v).objs = s.objs := rfl
@[simp] theorem State.setPanel_freed (s : State) (p : Nat) (v : PanelPwr) : (s.setPanel p v).freed = s.freed := rfl
@[simp] theorem State.setPanel_ctxs (s : State) (p : Nat) (v : PanelPwr) : (s.setPanel p v).ctxs = s.ctxs := rfl
@[simp] theorem State.setPanel_mbx (s : State) (p : Nat) (v : PanelPwr) : (s.setPanel p v).mbx = s.mbx := rfl
@[simp] theorem State.setPanel_fns (s : State) (p : Nat) (v : PanelPwr) : (s.setPanel p v).fns = s.fns := rfl
@[simp] theorem State.setPanel_hostReads (s : State) (p : Nat) (v : PanelPwr) : (s.setPanel p v).hostReads = s.hostReads := rfl
@[simp] theorem State.setPanel_casts (s : State) (p : Nat) (v : PanelPwr) : (s.setPanel p v).casts = s.casts := rfl
@[simp] theorem State.setPanel_serve (s : State) (p : Nat) (v : PanelPwr) : (s.setPanel p v).serve = s.serve := rfl
@[simp] theorem State.setPanel_sec (s : State) (p : Nat) (v : PanelPwr) : (s.setPanel p v).sec = s.sec := rfl
@[simp] theorem State.setPanel_fw (s : State) (p : Nat) (v : PanelPwr) : (s.setPanel p v).fw = s.fw := rfl
@[simp] theorem State.setPanel_inc (s : State) (p : Nat) (v : PanelPwr) : (s.setPanel p v).inc = s.inc := rfl
@[simp] theorem State.setPanel_twin (s : State) (p : Nat) (v : PanelPwr) : (s.setPanel p v).twin = s.twin := rfl
@[simp] theorem State.setPanel_lost (s : State) (p : Nat) (v : PanelPwr) : (s.setPanel p v).lost = s.lost := rfl
@[simp] theorem State.setPanel_cxlGone (s : State) (p : Nat) (v : PanelPwr) : (s.setPanel p v).cxlGone = s.cxlGone := rfl
@[simp] theorem State.setPanel_pins (s : State) (p : Nat) (v : PanelPwr) : (s.setPanel p v).pins = s.pins := rfl
@[simp] theorem State.setPanel_freeCtr (s : State) (p : Nat) (v : PanelPwr) : (s.setPanel p v).freeCtr = s.freeCtr := rfl
@[simp] theorem State.setPanel_out (s : State) (p : Nat) (v : PanelPwr) : (s.setPanel p v).out = s.out := rfl
@[simp] theorem State.setPanel_pending (s : State) (p : Nat) (v : PanelPwr) : (s.setPanel p v).pending = s.pending := rfl
@[simp] theorem State.setPanel_redStage (s : State) (p : Nat) (v : PanelPwr) : (s.setPanel p v).redStage = s.redStage := rfl
@[simp] theorem State.setPanel_hbmUe (s : State) (p : Nat) (v : PanelPwr) : (s.setPanel p v).hbmUe = s.hbmUe := rfl
@[simp] theorem State.setPanel_metaCache (s : State) (p : Nat) (v : PanelPwr) : (s.setPanel p v).metaCache = s.metaCache := rfl
@[simp] theorem State.setPanel_sideArea (s : State) (p : Nat) (v : PanelPwr) : (s.setPanel p v).sideArea = s.sideArea := rfl
@[simp] theorem State.setPanel_sessIn (s : State) (p : Nat) (v : PanelPwr) : (s.setPanel p v).sessIn = s.sessIn := rfl
@[simp] theorem State.setPanel_pci (s : State) (p : Nat) (v : PanelPwr) : (s.setPanel p v).pci = s.pci := rfl
@[simp] theorem State.setPanel_pfWalks (s : State) (p : Nat) (v : PanelPwr) : (s.setPanel p v).pfWalks = s.pfWalks := rfl
@[simp] theorem State.setPanel_walkWait (s : State) (p : Nat) (v : PanelPwr) : (s.setPanel p v).walkWait = s.walkWait := rfl
@[simp] theorem State.setPanel_fwNeed (s : State) (p : Nat) (v : PanelPwr) : (s.setPanel p v).fwNeed = s.fwNeed := rfl
@[simp] theorem State.setPanel_fwGot (s : State) (p : Nat) (v : PanelPwr) : (s.setPanel p v).fwGot = s.fwGot := rfl
@[simp] theorem State.setPanel_fwHeld (s : State) (p : Nat) (v : PanelPwr) : (s.setPanel p v).fwHeld = s.fwHeld := rfl

@[simp] theorem State.turn_regs (s : State) (b q : Nat) : (s.turn b q).regs = s.regs := rfl
@[simp] theorem State.turn_vfErr (s : State) (b q : Nat) : (s.turn b q).vfErr = s.vfErr := rfl
@[simp] theorem State.turn_latch (s : State) (b q : Nat) : (s.turn b q).latch = s.latch := rfl
@[simp] theorem State.turn_loHeld (s : State) (b q : Nat) : (s.turn b q).loHeld = s.loHeld := rfl
@[simp] theorem State.turn_ctrs (s : State) (b q : Nat) : (s.turn b q).ctrs = s.ctrs := rfl
@[simp] theorem State.turn_tiles (s : State) (b q : Nat) : (s.turn b q).tiles = s.tiles := rfl
@[simp] theorem State.turn_ledgers (s : State) (b q : Nat) : (s.turn b q).ledgers = s.ledgers := rfl
@[simp] theorem State.turn_meshCe (s : State) (b q : Nat) : (s.turn b q).meshCe = s.meshCe := rfl
@[simp] theorem State.turn_bridges (s : State) (b q : Nat) : (s.turn b q).bridges = s.bridges := rfl
@[simp] theorem State.turn_redIn (s : State) (b q : Nat) : (s.turn b q).redIn = s.redIn := rfl
@[simp] theorem State.turn_redRun (s : State) (b q : Nat) : (s.turn b q).redRun = s.redRun := rfl
@[simp] theorem State.turn_redOpen (s : State) (b q : Nat) : (s.turn b q).redOpen = s.redOpen := rfl
@[simp] theorem State.turn_redClk (s : State) (b q : Nat) : (s.turn b q).redClk = s.redClk := rfl
@[simp] theorem State.turn_mcFlits (s : State) (b q : Nat) : (s.turn b q).mcFlits = s.mcFlits := rfl
@[simp] theorem State.turn_audited (s : State) (b q : Nat) : (s.turn b q).audited = s.audited := rfl
@[simp] theorem State.turn_auditFirst (s : State) (b q : Nat) : (s.turn b q).auditFirst = s.auditFirst := rfl
@[simp] theorem State.turn_hbm (s : State) (b q : Nat) : (s.turn b q).hbm = s.hbm := rfl
@[simp] theorem State.turn_cxl (s : State) (b q : Nat) : (s.turn b q).cxl = s.cxl := rfl
@[simp] theorem State.turn_chanCe (s : State) (b q : Nat) : (s.turn b q).chanCe = s.chanCe := rfl
@[simp] theorem State.turn_hot (s : State) (b q : Nat) : (s.turn b q).hot = s.hot := rfl
@[simp] theorem State.turn_tcache (s : State) (b q : Nat) : (s.turn b q).tcache = s.tcache := rfl
@[simp] theorem State.turn_wcache (s : State) (b q : Nat) : (s.turn b q).wcache = s.wcache := rfl
@[simp] theorem State.turn_fq (s : State) (b q : Nat) : (s.turn b q).fq = s.fq := rfl
@[simp] theorem State.turn_inv (s : State) (b q : Nat) : (s.turn b q).inv = s.inv := rfl
@[simp] theorem State.turn_stu (s : State) (b q : Nat) : (s.turn b q).stu = s.stu := rfl
@[simp] theorem State.turn_cues (s : State) (b q : Nat) : (s.turn b q).cues = s.cues := rfl
@[simp] theorem State.turn_ports (s : State) (b q : Nat) : (s.turn b q).ports = s.ports := rfl
@[simp] theorem State.turn_sess (s : State) (b q : Nat) : (s.turn b q).sess = s.sess := rfl
@[simp] theorem State.turn_reqs (s : State) (b q : Nat) : (s.turn b q).reqs = s.reqs := rfl
@[simp] theorem State.turn_nextTag (s : State) (b q : Nat) : (s.turn b q).nextTag = s.nextTag := rfl
@[simp] theorem State.turn_loom (s : State) (b q : Nat) : (s.turn b q).loom = s.loom := rfl
@[simp] theorem State.turn_queues (s : State) (b q : Nat) : (s.turn b q).queues = s.queues := rfl
@[simp] theorem State.turn_fences (s : State) (b q : Nat) : (s.turn b q).fences = s.fences := rfl
@[simp] theorem State.turn_objs (s : State) (b q : Nat) : (s.turn b q).objs = s.objs := rfl
@[simp] theorem State.turn_freed (s : State) (b q : Nat) : (s.turn b q).freed = s.freed := rfl
@[simp] theorem State.turn_ctxs (s : State) (b q : Nat) : (s.turn b q).ctxs = s.ctxs := rfl
@[simp] theorem State.turn_mbx (s : State) (b q : Nat) : (s.turn b q).mbx = s.mbx := rfl
@[simp] theorem State.turn_fns (s : State) (b q : Nat) : (s.turn b q).fns = s.fns := rfl
@[simp] theorem State.turn_hostReads (s : State) (b q : Nat) : (s.turn b q).hostReads = s.hostReads := rfl
@[simp] theorem State.turn_casts (s : State) (b q : Nat) : (s.turn b q).casts = s.casts := rfl
@[simp] theorem State.turn_serve (s : State) (b q : Nat) : (s.turn b q).serve = s.serve := rfl
@[simp] theorem State.turn_power (s : State) (b q : Nat) : (s.turn b q).power = s.power := rfl
@[simp] theorem State.turn_sec (s : State) (b q : Nat) : (s.turn b q).sec = s.sec := rfl
@[simp] theorem State.turn_fw (s : State) (b q : Nat) : (s.turn b q).fw = s.fw := rfl
@[simp] theorem State.turn_inc (s : State) (b q : Nat) : (s.turn b q).inc = s.inc := rfl
@[simp] theorem State.turn_twin (s : State) (b q : Nat) : (s.turn b q).twin = s.twin := rfl
@[simp] theorem State.turn_lost (s : State) (b q : Nat) : (s.turn b q).lost = s.lost := rfl
@[simp] theorem State.turn_cxlGone (s : State) (b q : Nat) : (s.turn b q).cxlGone = s.cxlGone := rfl
@[simp] theorem State.turn_pins (s : State) (b q : Nat) : (s.turn b q).pins = s.pins := rfl
@[simp] theorem State.turn_freeCtr (s : State) (b q : Nat) : (s.turn b q).freeCtr = s.freeCtr := rfl
@[simp] theorem State.turn_out (s : State) (b q : Nat) : (s.turn b q).out = s.out := rfl
@[simp] theorem State.turn_pending (s : State) (b q : Nat) : (s.turn b q).pending = s.pending := rfl
@[simp] theorem State.turn_redStage (s : State) (b q : Nat) : (s.turn b q).redStage = s.redStage := rfl
@[simp] theorem State.turn_hbmUe (s : State) (b q : Nat) : (s.turn b q).hbmUe = s.hbmUe := rfl
@[simp] theorem State.turn_metaCache (s : State) (b q : Nat) : (s.turn b q).metaCache = s.metaCache := rfl
@[simp] theorem State.turn_sideArea (s : State) (b q : Nat) : (s.turn b q).sideArea = s.sideArea := rfl
@[simp] theorem State.turn_sessIn (s : State) (b q : Nat) : (s.turn b q).sessIn = s.sessIn := rfl
@[simp] theorem State.turn_pci (s : State) (b q : Nat) : (s.turn b q).pci = s.pci := rfl
@[simp] theorem State.turn_pfWalks (s : State) (b q : Nat) : (s.turn b q).pfWalks = s.pfWalks := rfl
@[simp] theorem State.turn_walkWait (s : State) (b q : Nat) : (s.turn b q).walkWait = s.walkWait := rfl
@[simp] theorem State.turn_fwNeed (s : State) (b q : Nat) : (s.turn b q).fwNeed = s.fwNeed := rfl
@[simp] theorem State.turn_fwGot (s : State) (b q : Nat) : (s.turn b q).fwGot = s.fwGot := rfl
@[simp] theorem State.turn_fwHeld (s : State) (b q : Nat) : (s.turn b q).fwHeld = s.fwHeld := rfl

@[simp] theorem State.setServe_regs (s : State) (b : Nat) (v : Serve) : (s.setServe b v).regs = s.regs := rfl
@[simp] theorem State.setServe_vfErr (s : State) (b : Nat) (v : Serve) : (s.setServe b v).vfErr = s.vfErr := rfl
@[simp] theorem State.setServe_latch (s : State) (b : Nat) (v : Serve) : (s.setServe b v).latch = s.latch := rfl
@[simp] theorem State.setServe_loHeld (s : State) (b : Nat) (v : Serve) : (s.setServe b v).loHeld = s.loHeld := rfl
@[simp] theorem State.setServe_ctrs (s : State) (b : Nat) (v : Serve) : (s.setServe b v).ctrs = s.ctrs := rfl
@[simp] theorem State.setServe_tiles (s : State) (b : Nat) (v : Serve) : (s.setServe b v).tiles = s.tiles := rfl
@[simp] theorem State.setServe_ledgers (s : State) (b : Nat) (v : Serve) : (s.setServe b v).ledgers = s.ledgers := rfl
@[simp] theorem State.setServe_meshCe (s : State) (b : Nat) (v : Serve) : (s.setServe b v).meshCe = s.meshCe := rfl
@[simp] theorem State.setServe_bridges (s : State) (b : Nat) (v : Serve) : (s.setServe b v).bridges = s.bridges := rfl
@[simp] theorem State.setServe_redIn (s : State) (b : Nat) (v : Serve) : (s.setServe b v).redIn = s.redIn := rfl
@[simp] theorem State.setServe_redRun (s : State) (b : Nat) (v : Serve) : (s.setServe b v).redRun = s.redRun := rfl
@[simp] theorem State.setServe_redOpen (s : State) (b : Nat) (v : Serve) : (s.setServe b v).redOpen = s.redOpen := rfl
@[simp] theorem State.setServe_redClk (s : State) (b : Nat) (v : Serve) : (s.setServe b v).redClk = s.redClk := rfl
@[simp] theorem State.setServe_mcFlits (s : State) (b : Nat) (v : Serve) : (s.setServe b v).mcFlits = s.mcFlits := rfl
@[simp] theorem State.setServe_audited (s : State) (b : Nat) (v : Serve) : (s.setServe b v).audited = s.audited := rfl
@[simp] theorem State.setServe_auditFirst (s : State) (b : Nat) (v : Serve) : (s.setServe b v).auditFirst = s.auditFirst := rfl
@[simp] theorem State.setServe_hbm (s : State) (b : Nat) (v : Serve) : (s.setServe b v).hbm = s.hbm := rfl
@[simp] theorem State.setServe_cxl (s : State) (b : Nat) (v : Serve) : (s.setServe b v).cxl = s.cxl := rfl
@[simp] theorem State.setServe_chanCe (s : State) (b : Nat) (v : Serve) : (s.setServe b v).chanCe = s.chanCe := rfl
@[simp] theorem State.setServe_hot (s : State) (b : Nat) (v : Serve) : (s.setServe b v).hot = s.hot := rfl
@[simp] theorem State.setServe_tcache (s : State) (b : Nat) (v : Serve) : (s.setServe b v).tcache = s.tcache := rfl
@[simp] theorem State.setServe_wcache (s : State) (b : Nat) (v : Serve) : (s.setServe b v).wcache = s.wcache := rfl
@[simp] theorem State.setServe_fq (s : State) (b : Nat) (v : Serve) : (s.setServe b v).fq = s.fq := rfl
@[simp] theorem State.setServe_inv (s : State) (b : Nat) (v : Serve) : (s.setServe b v).inv = s.inv := rfl
@[simp] theorem State.setServe_stu (s : State) (b : Nat) (v : Serve) : (s.setServe b v).stu = s.stu := rfl
@[simp] theorem State.setServe_cues (s : State) (b : Nat) (v : Serve) : (s.setServe b v).cues = s.cues := rfl
@[simp] theorem State.setServe_ports (s : State) (b : Nat) (v : Serve) : (s.setServe b v).ports = s.ports := rfl
@[simp] theorem State.setServe_sess (s : State) (b : Nat) (v : Serve) : (s.setServe b v).sess = s.sess := rfl
@[simp] theorem State.setServe_reqs (s : State) (b : Nat) (v : Serve) : (s.setServe b v).reqs = s.reqs := rfl
@[simp] theorem State.setServe_nextTag (s : State) (b : Nat) (v : Serve) : (s.setServe b v).nextTag = s.nextTag := rfl
@[simp] theorem State.setServe_loom (s : State) (b : Nat) (v : Serve) : (s.setServe b v).loom = s.loom := rfl
@[simp] theorem State.setServe_queues (s : State) (b : Nat) (v : Serve) : (s.setServe b v).queues = s.queues := rfl
@[simp] theorem State.setServe_queueRr (s : State) (b : Nat) (v : Serve) : (s.setServe b v).queueRr = s.queueRr := rfl
@[simp] theorem State.setServe_fences (s : State) (b : Nat) (v : Serve) : (s.setServe b v).fences = s.fences := rfl
@[simp] theorem State.setServe_objs (s : State) (b : Nat) (v : Serve) : (s.setServe b v).objs = s.objs := rfl
@[simp] theorem State.setServe_freed (s : State) (b : Nat) (v : Serve) : (s.setServe b v).freed = s.freed := rfl
@[simp] theorem State.setServe_ctxs (s : State) (b : Nat) (v : Serve) : (s.setServe b v).ctxs = s.ctxs := rfl
@[simp] theorem State.setServe_mbx (s : State) (b : Nat) (v : Serve) : (s.setServe b v).mbx = s.mbx := rfl
@[simp] theorem State.setServe_fns (s : State) (b : Nat) (v : Serve) : (s.setServe b v).fns = s.fns := rfl
@[simp] theorem State.setServe_hostReads (s : State) (b : Nat) (v : Serve) : (s.setServe b v).hostReads = s.hostReads := rfl
@[simp] theorem State.setServe_casts (s : State) (b : Nat) (v : Serve) : (s.setServe b v).casts = s.casts := rfl
@[simp] theorem State.setServe_power (s : State) (b : Nat) (v : Serve) : (s.setServe b v).power = s.power := rfl
@[simp] theorem State.setServe_sec (s : State) (b : Nat) (v : Serve) : (s.setServe b v).sec = s.sec := rfl
@[simp] theorem State.setServe_fw (s : State) (b : Nat) (v : Serve) : (s.setServe b v).fw = s.fw := rfl
@[simp] theorem State.setServe_inc (s : State) (b : Nat) (v : Serve) : (s.setServe b v).inc = s.inc := rfl
@[simp] theorem State.setServe_twin (s : State) (b : Nat) (v : Serve) : (s.setServe b v).twin = s.twin := rfl
@[simp] theorem State.setServe_lost (s : State) (b : Nat) (v : Serve) : (s.setServe b v).lost = s.lost := rfl
@[simp] theorem State.setServe_cxlGone (s : State) (b : Nat) (v : Serve) : (s.setServe b v).cxlGone = s.cxlGone := rfl
@[simp] theorem State.setServe_pins (s : State) (b : Nat) (v : Serve) : (s.setServe b v).pins = s.pins := rfl
@[simp] theorem State.setServe_freeCtr (s : State) (b : Nat) (v : Serve) : (s.setServe b v).freeCtr = s.freeCtr := rfl
@[simp] theorem State.setServe_out (s : State) (b : Nat) (v : Serve) : (s.setServe b v).out = s.out := rfl
@[simp] theorem State.setServe_pending (s : State) (b : Nat) (v : Serve) : (s.setServe b v).pending = s.pending := rfl
@[simp] theorem State.setServe_redStage (s : State) (b : Nat) (v : Serve) : (s.setServe b v).redStage = s.redStage := rfl
@[simp] theorem State.setServe_hbmUe (s : State) (b : Nat) (v : Serve) : (s.setServe b v).hbmUe = s.hbmUe := rfl
@[simp] theorem State.setServe_metaCache (s : State) (b : Nat) (v : Serve) : (s.setServe b v).metaCache = s.metaCache := rfl
@[simp] theorem State.setServe_sideArea (s : State) (b : Nat) (v : Serve) : (s.setServe b v).sideArea = s.sideArea := rfl
@[simp] theorem State.setServe_sessIn (s : State) (b : Nat) (v : Serve) : (s.setServe b v).sessIn = s.sessIn := rfl
@[simp] theorem State.setServe_pci (s : State) (b : Nat) (v : Serve) : (s.setServe b v).pci = s.pci := rfl
@[simp] theorem State.setServe_pfWalks (s : State) (b : Nat) (v : Serve) : (s.setServe b v).pfWalks = s.pfWalks := rfl
@[simp] theorem State.setServe_walkWait (s : State) (b : Nat) (v : Serve) : (s.setServe b v).walkWait = s.walkWait := rfl
@[simp] theorem State.setServe_fwNeed (s : State) (b : Nat) (v : Serve) : (s.setServe b v).fwNeed = s.fwNeed := rfl
@[simp] theorem State.setServe_fwGot (s : State) (b : Nat) (v : Serve) : (s.setServe b v).fwGot = s.fwGot := rfl
@[simp] theorem State.setServe_fwHeld (s : State) (b : Nat) (v : Serve) : (s.setServe b v).fwHeld = s.fwHeld := rfl

end Sys2Proof.Machine
end

