-- ==== Sys2Proof/WellFormed.lean ====
section
/-! DEFINITION. Well-formed commands: what a sender can send. An operand that the types of Syntax.lean leave wider than the
bus, message or pin that carries it is checked here. The module answers ill-formed commands too: `exec` is total. -/

namespace Sys2Proof

/-- The offset lies in the function's BAR0: 64 MiB for the PF, 256 KiB for a VF (09_host_objects.md R290). -/
def inBar (fn : Fn) (off : Nat) : Bool := if fn = 0 then decide (off < 2 ^ 26) else decide (off < 2 ^ 18)

/-- The offset names a register of the function's configuration space, or, for the PF's command, of the companion function
(09 R286 to R288). -/
def inCfg (fn : Fn) (off : Nat) : Bool :=
  decide (2 ^ 28 ≤ off ∧ off < 2 ^ 28 + 0x1000) || (fn == 0 && decide (2 ^ 29 ≤ off ∧ off < 2 ^ 29 + 0x2000))

/-- The access lies in the function's BAR2, at most 2 TiB for the PF and 8 GiB for a VF, and in one packet of the host port:
512 bytes written, 4,096 read (09 R287, R290). -/
def apertureOk (fn : Fn) (off len : Nat) (w : Option (List Byte)) : Bool :=
  let size := if fn = 0 then 2 ^ 41 else 2 ^ 33
  match w with
  | some l => decide (0 < l.length ∧ l.length ≤ 512 ∧ off + l.length ≤ size)
  | none => decide (0 < len ∧ len ≤ 4096 ∧ off + len ≤ size)

/-- A request inside the module moves 1 to 512 bytes (11_budgets.md R348). -/
def MemReq.wf (r : MemReq) : Bool :=
  let n := if r.write then r.data.length else r.len
  decide (0 < n ∧ n ≤ 512 ∧ r.off + n ≤ 2 ^ 49)

/-- A ticket ledger of a Creust port: 0 to 8 the virtual lanes, 9 the shared pool, 16 + g group g (07_creust_fabric.md R220). -/
def ledgerOk (no : LedgerNo) : Bool := decide (no ≤ 9) || decide (16 ≤ no ∧ no < 272)

/-- Is a command well formed? -/
def Instr.wf : Instr → Bool
  | .registerWrite fn off _ _ => inBar fn off || inCfg fn off
  | .unimplementedAccess fn off _ => inBar fn off
  | .unsupportedWidthAccess fn off _ => inBar fn off
  | .pairLoRead fn off _ => inBar fn off || inCfg fn off
  | .pairLoWrite fn off _ => inBar fn off
  | .mnop _ _ _ _ _ => true
  | .mldw _ _ _ _ _ => true
  | .mmul _ _ _ _ _ => true
  | .mwb _ _ _ _ _ => true
  | .mzero _ _ _ _ _ => true
  | .ditherWrap _ => true
  | .vnop _ _ _ _ _ => true
  | .vld _ _ _ _ _ => true
  | .vst _ _ _ _ _ => true
  | .vadd _ _ _ _ _ => true
  | .vsub _ _ _ _ _ => true
  | .vmul _ _ _ _ _ => true
  | .vfma _ _ _ _ _ => true
  | .vmax _ _ _ _ _ => true
  | .vmin _ _ _ _ _ => true
  | .vabs _ _ _ _ _ => true
  | .vneg _ _ _ _ _ => true
  | .vsel _ _ _ _ _ => true
  | .vbcst _ _ _ _ _ => true
  | .vcmplt _ _ _ _ _ => true
  | .vcmpeq _ _ _ _ _ => true
  | .vcmple _ _ _ _ _ => true
  | .vexp2 _ _ _ _ _ => true
  | .vlog2 _ _ _ _ _ => true
  | .vrcp _ _ _ _ _ => true
  | .vrsq _ _ _ _ _ => true
  | .vtanh _ _ _ _ _ => true
  | .vrsum _ _ _ _ _ => true
  | .vrmax _ _ _ _ _ => true
  | .vrmin _ _ _ _ _ => true
  | .snop _ _ _ _ _ => true
  | .sq _ _ _ _ _ => true
  | .streamSlotFree _ _ => true
  | .scfg _ _ _ _ _ => true
  | .cnop _ _ _ _ _ => true
  | .br _ _ _ _ _ => true
  | .brz _ _ _ _ _ => true
  | .brnz _ _ _ _ _ => true
  | .loop _ _ _ _ _ => true
  | .waitsem _ _ _ _ _ => true
  | .waitsemSatisfied _ => true
  | .semsig _ _ _ _ _ => true
  | .waitcue _ _ _ _ _ => true
  | .waitcueSatisfied _ => true
  | .fence _ _ _ _ _ => true
  | .fenceSatisfied _ => true
  | .tmark _ _ _ _ _ => true
  | .seed _ _ _ _ _ => true
  | .rstat _ _ _ _ _ => true
  | .cstat _ _ _ _ _ => true
  | .seta _ _ _ _ _ => true
  | .setst _ _ _ _ _ => true
  | .adda _ _ _ _ _ => true
  | .seti _ _ _ _ _ => true
  | .addi _ _ _ _ _ => true
  | .ldi _ _ _ _ _ => true
  | .tinfo _ _ _ _ _ => true
  | .bow _ _ _ _ _ => true
  | .stepend _ _ _ _ _ => true
  | .halt _ _ _ _ _ => true
  | .bowPass _ => true
  | .tensorTileStart _ _ => true
  | .microTlbRoom _ _ => true
  | .microTlbMiss _ _ => true
  | .walkLevelRead _ _ _ => true
  | .prefetchWalk _ _ => true
  | .tensorTileTranslated _ _ => true
  | .tensorTileComplete _ _ => true
  | .startPhase _ => true
  | .releaseStream _ => true
  | .openRed _ => true
  | .signalFence _ => true
  | .shiftPower _ => true
  | .sceneChange _ => true
  | .meshFlitReceive _ _ _ => true
  | .ticketReturn _ _ => true
  | .mcastFlitForward _ _ => true
  | .redChunkCombine _ _ _ _ => true
  | .redTimeout _ _ _ _ => true
  | .bridgeFlitReceive _ _ _ _ => true
  | .brgRetrain _ _ => true
  | .bridgeRetrainEnd _ _ _ _ _ => true
  | .ledgerAudit _ => true
  | .auditLate _ => true
  | .hbmAccess r _ _ _ => r.wf
  | .hbmScrub _ off _ => decide (off < 3 * 2 ^ 30)
  | .hbmRefreshHot _ _ => true
  | .hbmChDown _ _ => true
  | .fqResume _ _ _ => true
  | .fqAbandon _ _ _ => true
  | .invRange _ _ => true
  | .invContext _ _ => true
  | .invAll _ _ => true
  | .invComplete _ => true
  | .invTimeout _ _ _ => true
  | .ppsEdge _ => true
  | .ppsLoss => true
  | .fabricTimeLoss => true
  | .stuReacq _ _ => true
  | .stuCtlWrite _ _ => true
  | .stuEnd => true
  | .cueHandover _ => true
  | .cueLate _ _ => true
  | .stepAdmission _ => true
  | .stepDelivery _ => true
  | .guaranteeMissed _ => true
  | .portEnable _ _ _ => true
  | .retrain _ _ _ => true
  | .linkTrainingEnd _ _ _ => true
  | .codewordLock _ _ => true
  | .param _ _ => true
  | .codewordReceive _ cw => cw.data.length == 640
  | .ack _ _ => true
  | .nak _ _ => true
  | .nakBound _ => true
  | .ackStall _ => true
  | .fastRetrainEnd _ _ _ => true
  | .resync _ _ no _ => ledgerOk no
  | .credit _ cells _ => decide (cells.length ≤ 8)
  | .redCredit _ _ => true
  | .audit _ no _ _ => ledgerOk no
  | .time _ _ _ _ _ => true
  | .ld _ _ _ => true
  | .st _ h data _ => data.length == 64 * (h.len.toNat + 1)
  | .bulkWr _ h data _ => data.length == 64 * (h.len.toNat + 1)
  | .atom _ _ _ _ _ => true
  | .sem _ _ _ => true
  | .creustFence _ _ _ => true
  | .red _ _ _ _ => true
  | .shoot _ _ _ => true
  | .sessOffer _ _ _ _ => true
  | .sessEncaps _ _ => true
  | .sessConfirm _ _ _ => true
  | .sessClose _ _ _ _ => true
  | .sessionTimeout _ => true
  | .rdData _ _ _ _ => true
  | .wrAck _ _ _ => true
  | .bulkAck _ _ _ => true
  | .atomRsp _ _ _ => true
  | .fenceAck _ _ _ => true
  | .semAck _ _ _ => true
  | .shootAck _ _ _ => true
  | .sessRsp _ _ _ => true
  | .transitPacket _ _ => true
  | .crCplTimeout _ => true
  | .crStall _ _ _ => true
  | .loomPut _ off data => decide (off < 2 ^ 32) && decide (data.length ≤ 65528)
  | .loomCommit _ _ _ => true
  | .loomCancel _ _ => true
  | .loomRead _ _ => true
  | .sceneRetire => true
  | .lomDrainTimeout => true
  | .lomScrubDone _ => true
  | .flr _ => true
  | .doorbell _ q _ => decide (q < 8192)
  | .queueWindowSwap _ => true
  | .callFetch _ data => data.length == 0 || data.length == 64
  | .qCreate _ _ _ _ => true
  | .qDestroy _ _ _ _ => true
  | .qStop _ _ _ _ => true
  | .qStart _ _ _ _ => true
  | .qRead _ _ _ _ => true
  | .fenceCreate _ _ _ _ => true
  | .fenceDestroy _ _ _ _ => true
  | .fenceAbandon _ _ _ _ => true
  | .fenceRead _ _ _ _ => true
  | .objCreate _ _ _ _ => true
  | .objHostInc _ _ _ _ => true
  | .objHostDec _ _ _ _ => true
  | .objRead _ _ _ _ => true
  | .fenceShare _ _ _ _ => true
  | .quota _ _ _ _ => true
  | .nop _ => true
  | .step _ => true
  | .ctxLoad _ => true
  | .contextReady _ => true
  | .ctxUnload _ => true
  | .copy _ => true
  | .fill _ => true
  | .signal _ => true
  | .wait _ => true
  | .waitTimeout _ => true
  | .cueArm _ => true
  | .cueCancel _ => true
  | .barrier _ => true
  | .castAdmit _ => true
  | .castUpdate _ => true
  | .castRead _ => true
  | .castPark _ => true
  | .castResume _ => true
  | .castResumePromote _ => true
  | .castEvict _ => true
  | .castRelease _ => true
  | .strike _ => true
  | .strikeComplete _ => true
  | .apertureAccess fn off len w _ => apertureOk fn off len w
  | .drain _ _ _ => true
  | .drainTimeout _ => true
  | .freePop _ _ => true
  | .mbxSend _ _ _ => true
  | .mbxAck _ _ _ => true
  | .drvVerWrite _ _ _ => true
  | .runningOrderBuild _ => true
  | .postStepUpdate _ => true
  | .srvPoolPush _ _ _ _ => true
  | .srvPoolEnable _ _ _ _ => true
  | .spill _ => true
  | .budgetInterval _ => true
  | .opStepDone _ => true
  | .intermissionFrame _ => true
  | .paceWindow _ _ => true
  | .pwrOvercap _ => true
  | .pwrCap _ _ => true
  | .pwrOrder _ _ _ _ => true
  | .holdAssert _ => true
  | .holdRelease _ => true
  | .droopLong _ => true
  | .droopStorm _ _ => true
  | .ceilingRestore _ => true
  | .thermWarn _ _ _ => true
  | .thermThrottle _ _ => true
  | .thermHw _ _ => true
  | .thermTrip die sensor _ => decide (die < 5) && decide (sensor < 16)
  | .regionInitDone _ => true
  | .rekeyDone _ => true
  | .secRngFail _ => true
  | .secPbCtlGo _ _ _ => true
  | .playbillSigned _ => true
  | .dbgChal _ => true
  | .dbgResp _ _ _ => true
  | .dbgAccess _ _ _ => true
  | .grantExpiry _ => true
  | .jtagTrst => true
  | .resetNDeassert _ => true
  | .bootStage _ => true
  | .trialTimeout => true
  | .heartbeatLapse _ => true
  | .coreTrap _ _ _ => true
  | .restartComplete _ => true
  | .tlsConnect _ => true
  | .sessionIdle _ => true
  | .hello _ _ => true
  | .status _ => true
  | .setModnum _ _ => true
  | .setAddr _ _ plen _ => decide (plen < 256)
  | .enroll _ _ _ => true
  | .fwStage _ off _ data _ => decide (off < 2 ^ 31) && decide (data.length ≤ 65528)
  | .fwActivate _ _ => true
  | .fwConfirm _ => true
  | .fwDiscard _ => true
  | .dbgGrant _ _ => true
  | .dbgRevoke _ _ => true
  | .playbill _ _ _ _ => true
  | .incRead _ _ => true
  | .incSubscribe _ cls => decide (cls < 256)
  | .pbRead _ _ _ => true
  | .traceSet _ _ _ _ => true
  | .boltDrain _ _ _ => true
  | .boltReset _ _ => true
  | .boltStrike _ _ _ => true
  | .moduleReset _ => true
  | .trcEnable _ _ _ => true
  | .incIntake => true
  | .faultNAssert => true
  | .incTailWrite _ _ => true
  | .incSrcClear _ _ => true
  | .bltIncClear _ _ _ => true
  | .counterSatClear fn off _ => inBar fn off
  | .boltResetComplete _ => true
  | .ctxTeardown _ => true
  | .uLinkPairing _ _ => true
  | .mirrorWrite _ _ _ off data => decide (off % 4096 + data.length ≤ 4096)
  | .mirCkpt _ _ _ => true
  | .mirCkptAck _ => true
  | .twinOkInChange _ => true
  | .promotion => true
  | .syncComplete _ => true
  | .cxlMemberLost _ _ _ => true
  | .cxlRebuilt _ _ => true
  | .pwrEnAssert => true
  | .pwrEnDeassert => true
  | .vinOutOfRange _ => true
  | .pwrGoodFall => true
  | .resetNAssert => true
  | .internalResetEnd _ => true
  | .perst0N _ => true
  | .perst1N _ => true
  | .p12vCageLoss => true
  | .cageInsert _ _ => true
  | .cageRemove _ => true
  | .pmbusWrite _ _ => true
  | .clearFaults _ => true
  | .timeExchange _ => true
  | .ppsOutPulse _ => true
  | .intermissionSlot _ => true
  | .hostReadCompletion _ _ _ => true
  | .space4CompletionTimeout _ => true
  | .cxlCompletion _ r _ _ => r.wf
  | .cxlMemberReturn _ _ => true
  | .sceneRetireCplTmo => true
  | .vin56Rise _ => true
  | .p12vCageApply => true
  | .thermRecover _ _ => true
  | .boothSessionClose _ => true
  | .tapInstructionLoad _ => true
  | .powerStateD3hot _ _ => true

end Sys2Proof
end

