-- ==== Sys2Proof/Tests/Slice0.lean ====
section
/-! SUPPORT. Tests of the model: terms that the well-formedness check refuses, states that meet the hypotheses of the
statements, and single steps whose results the spec gives. -/

namespace Sys2Proof.Tests

set_option Elab.async false

open Sys2Proof Sys2Proof.Machine

/-! ### States for the tests -/

/-- Bolt 1: function 1, two tiles, queues 0 to 3, eight cue slots, eight cast entries. -/
def bolt1 : BoltRec where
  bolt := 1
  priv := false
  mirror := false
  legacy := false
  elastic := false
  linkSeal := false
  vf := 1
  tileBase := 0
  tiles := 2
  cueBase := 0
  cueCount := 8
  castBase := 0
  castCount := 8
  queueBase := 0
  queueCount := 4
  qwinMin := 1
  qwinMax := 2
  guarClasses := 1
  pwrRes := 300
  floorOp := 15
  home := 0

/-- Scene 1: bolt 1 with the tiles at sites 0 and 1. -/
def scene1 : Scene :=
  { Scene.zero with num := 1, bolts := [bolt1], tiles := [(0, some ⟨1, 0⟩), (1, some ⟨1, 1⟩)] }

/-- A module that has booted, with scene 1 live, the reserved area up and an admin on booth session 0. -/
def up : State :=
  { State.reset with
    loom := { Loom.reset with live := scene1, members := scene1.tiles, committed := true, maxScene := 1 }
    fw := { Fw.reset with
      stage := 4, ready := true, hpUp := true, enrolCnt := 1, sess := [(0, some ⟨.admin, true, 0, none, []⟩)] }
    pci := { Pci.reset with vfEnable := true }
    regs := [(0x200, 0xFFFFFFFF), (0x10000, 0x40000001)] }

/-- `up` with the context of bolt 1 in a mode. -/
def upCtx (m : CtxMode) : State := { up with ctxs := [(1, { Ctx.reset with mode := m })] }

/-- A tile about to issue a bundle. -/
def tileAt (b : BitVec 128) : Tile := { Tile.reset with imem := [(0, b)], streamLen := 8, run := .running }

/-- `up` with tile 0 as given. -/
def upTile (x : Tile) : State := { upCtx .running with tiles := [(0, x)] }

/-- A bundle from its four slot words. -/
def words (m v ss c : Nat) : BitVec 128 := BitVec.ofNat 128 (m + 2 ^ 32 * v + 2 ^ 64 * ss + 2 ^ 96 * c)

/-- A queue of bolt 1 with one fetched call at its head. -/
def queueWith (w : BitVec 512) : QueueSt :=
  { QueueSt.reset with mode := .running, order := 6, resident := true, head := 1, last := 0, calls := [⟨0, w, false, false, none, none⟩] }

/-- `up` with a call at the head of queue 0. -/
def upCall (w : Nat) (m : CtxMode) : State := { upCtx m with queues := [(0, queueWith (BitVec.ofNat 512 w))] }

/-! ### Ill-formed commands are refused by the check -/

theorem test_wf_bar : (Instr.registerWrite 1 0x40000 false 0).wf = false := by decide

/-! ### The hypotheses of the statements are met -/

theorem witness_StepRunsFront : ({ up with pending := [Instr.ppsLoss] } : State).pending = [Instr.ppsLoss] := by decide

theorem witness_StepIdles : up.pending = [] := by decide

theorem witness_QueueKept : ∃ t, exec (.perst1N true) up = .next t := ⟨_, rfl⟩

theorem witness_MemoryFormKept : up.hbm.wf = true ∧ up.cxl.wf = true ∧ ∃ t, step up = .next t := ⟨by decide, by decide, _, rfl⟩

theorem witness_FusesOneWay : ∃ t, step up = .next t := ⟨_, rfl⟩

theorem witness_LedgersBalance : (up.ledger (.mesh ⟨0, 0⟩ 0)).taken ≤ ledgerTickets (.mesh ⟨0, 0⟩ 0) ∧ ∃ t, step up = .next t :=
  ⟨by decide, _, rfl⟩

theorem witness_RegisterWriteByType :
    up.regsUp 0 0x20028 = true ∧ regPlace up 0 0x20028 = .map 0x20028 ∧ (∃ r, regDef 0x20028 = some r ∧ mayWrite 0 r = true) ∧
    ownRow 0x20028 = false ∧ isPairLo 0x20028 = false ∧ isPairHi 0x20028 = false ∧ up.loom.committed = true ∧ isCmd 0x20028 = false :=
  ⟨by decide, by decide, ⟨_, by rfl, by decide⟩, by decide, by decide, by decide, by decide, by decide⟩

/-- A GO of opcode 0xFF at the PF's interface. -/
theorem witness_RegisterWriteByType_go : up.regsUp 0 0x10118 = true ∧ regPlace up 0 0x10118 = .map 0x10118 ∧
    (∃ r, regDef 0x10118 = some r ∧ mayWrite 0 r = true) ∧ isCmd 0x10118 = true ∧ bit (2 ^ 31 + 0xFF) 31 = true ∧
    cmdOps.contains 0xFF = false ∧ up.serving 0 = true ∧ bit (up.reg 0x10000) 0 = true :=
  ⟨by decide, by decide, ⟨_, by rfl, by decide⟩, by decide, by decide, by decide, by decide, by decide⟩

theorem witness_BadAccesses : up.regsUp 0 0x7C = true ∧ regPlace up 0 0x7C = .absent ∧
    regPlace up 0 0x40 = .map 0x40 ∧ isPairLo 0x40 = false ∧ invPair 0x40 = false := by decide

theorem witness_PairsReadCoherently : up.regsUp 0 0x10010 = true ∧ up.pairAt 0 0x10010 = some 0x10010 ∧
    regPlace up 0 0x10010 = .map 0x10010 ∧ isPairLo 0x10010 = true ∧ ownRow 0x10010 = false ∧ up.pairAt 0 0x10014 = none ∧
    up.hiAt 0 0x10014 = some 0x10014 ∧ isPairHi 0x10014 = true ∧ up.hiAt 0 0x20028 = none ∧
    (up.readPlace 0 0x20028 (regPlace up 0 0x20028)).isSome = true := by decide

/-- `Issues`, as a check that runs. -/
theorem issues_of {s : State} {t k : Nat} {b : Bundle} (h : (s.mayIssue t && ((s.tile t).run == .running) &&
    ((s.tile t).bundle == b) && (s.tileBolt t == some k) && (bundleFaults (s.tile t) (s.boltHas k) (s.awaited k t) b).isEmpty &&
    !heldBy (s.tile t) b) = true) : Issues s t k b := by
  simp only [Bool.and_eq_true, beq_iff_eq, List.isEmpty_iff, Bool.not_eq_true'] at h
  exact ⟨⟨h.1.1.1.1.1, h.1.1.1.1.2, h.1.1.1.2⟩, h.1.1.2, h.1.2, h.2⟩

/-- The bundle of empty slots. -/
theorem witness_BundleIssue : Issues (upTile (tileAt 0)) 0 1 ⟨0, 0, 0, 0⟩ ∧
    bundleOf (.mnop 0 0 0 0 0) = some (0, ⟨0, 0, 0, 0⟩) := ⟨issues_of (by decide), by decide⟩

/-- A bundle with a reserved opcode in its control slot faults; a WAITSEM of more than the count holds. -/
theorem witness_BundleIssue_stops :
    bundleFaults (tileAt (words 0 0 0 (0x3F * 2 ^ 26))) (fun _ => true) none ⟨0, 0, 0, 0x3F * 2 ^ 26⟩ ≠ [] ∧
    heldBy (tileAt 0) ⟨0, 0, 0, 5 * 2 ^ 26 + 2 ^ 15⟩ = true := by decide

theorem witness_TileFaultStopsIssue : (up.src 0).pend = none := by decide

theorem witness_MatrixSlot : Issues (upTile (tileAt (words (4 * 2 ^ 27) 0 0 0))) 0 1 ⟨4 * 2 ^ 27, 0, 0, 0⟩ ∧
    Issues (upTile (tileAt (words (1 * 2 ^ 27 + 1 * 2 ^ 22) 0 0 0))) 0 1 ⟨1 * 2 ^ 27 + 1 * 2 ^ 22, 0, 0, 0⟩ :=
  ⟨issues_of (by decide), issues_of (by decide)⟩

theorem witness_VectorLanes : Issues (upTile (tileAt (words 0 (0x08 * 2 ^ 26) 0 0))) 0 1 ⟨0, 0x08 * 2 ^ 26, 0, 0⟩ ∧
    Issues (upTile (tileAt (words 0 (0x1C * 2 ^ 26) 0 0))) 0 1 ⟨0, 0x1C * 2 ^ 26, 0, 0⟩ :=
  ⟨issues_of (by decide), issues_of (by decide)⟩

theorem witness_VectorMoves : Issues (upTile (tileAt (words 0 (0x10 * 2 ^ 26) 0 0))) 0 1 ⟨0, 0x10 * 2 ^ 26, 0, 0⟩ ∧
    Issues (upTile (tileAt (words 0 (0x22 * 2 ^ 26) 0 0))) 0 1 ⟨0, 0x22 * 2 ^ 26, 0, 0⟩ :=
  ⟨issues_of (by decide), issues_of (by decide)⟩

theorem witness_VectorMemory : Issues (upTile (tileAt (words 0 (0x02 * 2 ^ 26) 0 0))) 0 1 ⟨0, 0x02 * 2 ^ 26, 0, 0⟩ :=
  issues_of (by decide)

theorem witness_ControlRegisters : Issues (upTile (tileAt (words 0 0 0 (0x11 * 2 ^ 26)))) 0 1 ⟨0, 0, 0, 0x11 * 2 ^ 26⟩ ∧
    Issues (upTile (tileAt (words 0 0 0 (0x0A * 2 ^ 26)))) 0 1 ⟨0, 0, 0, 0x0A * 2 ^ 26⟩ :=
  ⟨issues_of (by decide), issues_of (by decide)⟩

/-- A branch by one, and a loop of one bundle. -/
theorem witness_ControlFlow : Issues (upTile (tileAt (words 0 0 0 (1 * 2 ^ 26 + 1)))) 0 1 ⟨0, 0, 0, 1 * 2 ^ 26 + 1⟩ ∧
    Issues (upTile (tileAt (words 0 0 0 (4 * 2 ^ 26 + 2)))) 0 1 ⟨0, 0, 0, 4 * 2 ^ 26 + 2⟩ :=
  ⟨issues_of (by decide), issues_of (by decide)⟩

theorem witness_TileSynchronisation : Issues (upTile { tileAt (words 0 0 0 (5 * 2 ^ 26 + 2 ^ 15)) with sems := [(0, 1)] }) 0 1 ⟨0, 0, 0, 5 * 2 ^ 26 + 2 ^ 15⟩ ∧
    Issues (upTile (tileAt (words 0 0 0 (6 * 2 ^ 26 + 0xFFFF * 2 ^ 10)))) 0 1 ⟨0, 0, 0, 6 * 2 ^ 26 + 0xFFFF * 2 ^ 10⟩ ∧
    (upTile (tileAt 0)).siteOf 1 1 = some 1 :=
  ⟨issues_of (by decide), issues_of (by decide), by decide⟩

/-- A held WAITSEM whose count is there. -/
theorem witness_TileSynchronisation_held :
    let x := { tileAt (words 0 0 0 (5 * 2 ^ 26 + 2 ^ 15)) with run := .heldIssue, sems := [(0, 1)] }
    (upTile x).mayIssue 0 = true ∧ x.bundle.c / 2 ^ 26 = 5 ∧ (upTile x).tileBolt 0 = some 1 ∧ heldBy x x.bundle = false ∧
      bundleFaults x ((upTile x).boltHas 1) ((upTile x).awaited 1 0) x.bundle = [] := by decide

theorem witness_TileStreamsAndStops : Issues (upTile (tileAt (words 0 0 (2 * 2 ^ 28 + 2 ^ 20) 0))) 0 1 ⟨0, 0, 2 * 2 ^ 28 + 2 ^ 20, 0⟩ ∧
    Issues (upTile (tileAt (words 0 0 0 (0x15 * 2 ^ 26)))) 0 1 ⟨0, 0, 0, 0x15 * 2 ^ 26⟩ ∧
    ({ tileAt 0 with dither := BitVec.ofNat 48 (2 ^ 48 - 1) } : Tile).dither.toNat = 2 ^ 48 - 1 :=
  ⟨issues_of (by decide), issues_of (by decide), by decide⟩

theorem witness_VectorFrame : Issues (upTile (tileAt (words 0 (0x12 * 2 ^ 26 + 2 ^ 21) 0 0))) 0 1 ⟨0, 0x12 * 2 ^ 26 + 2 ^ 21, 0, 0⟩ ∧
    Issues (upTile (tileAt (words 0 0 0 (0x0D * 2 ^ 26)))) 0 1 ⟨0, 0, 0, 0x0D * 2 ^ 26⟩ :=
  ⟨issues_of (by decide), issues_of (by decide)⟩

/-- A copy descriptor between two spool offsets, in a phase. -/
def copyDesc (p : TensorPhase) : QDesc := ⟨Desc.ofNat 1, p, [], [], false, false, 0, 1, [], false⟩

/-- `up` with one descriptor in stream 0 of tile 0. -/
def upTensor (q : QDesc) : State := upTile { tileAt 0 with streams := [(0, ⟨[q], 1⟩)] }

/-- A queued copy can start. -/
theorem witness_TensorTileProgress_queued :
    let q := copyDesc .queued
    let s := upTensor q
    s.live = true ∧ s.tileBolt 0 = some 1 ∧ s.stopping 1 = false ∧ s.tensorHead 0 0 = some q ∧ (s.tile 0).gated = false ∧
      s.groupWaits q.desc = false ∧ q.desc.hold = false ∧ s.groupCause 1 0 q.desc = none ∧ (s.pagesOf 1 q.desc).2 = none ∧
      s.tlbRoom 0 0 1 q.desc = true := by decide +kernel

/-- A copy with every page found can commit. -/
theorem witness_TensorTileProgress_translated :
    let q := copyDesc (.translating none)
    let s := upTensor q
    s.live = true ∧ s.tileBolt 0 = some 1 ∧ s.stopping 1 = false ∧ s.tensorHead 0 0 = some q ∧ q.desc.missing q.pins = none ∧
      s.groupWaits q.desc = false ∧ s.groupCause 1 0 q.desc = none ∧ (q.pieces false).any (s.pieceWaits 1 1 false) = false := by decide +kernel

/-- A copy sent can complete. -/
theorem witness_TensorTileProgress_committing :
    let q := { copyDesc .committing with sent := true }
    let s := upTensor q
    s.tensorHead 0 0 = some q ∧ q.desc.op = 1 ∧ q.todo = [] ∧ s.tensorReqs 0 0 = 0 ∧ (q.pieces true).any (s.pieceWaits 1 1 true) = false ∧
      s.refusedPiece 1 1 (q.pieces true) = none ∧ s.stopping 1 = false := by decide +kernel

/-- A copy of 64 bytes from 0x1000. -/
def uvaCopy : Desc := Desc.ofNat (1 + 2 ^ 19 + 0x1000 * 2 ^ 64 + 64 * 2 ^ 192 + 2 ^ 208 + 2 ^ 224 + 2 ^ 240)

/-- It finds no page, and another stream has waited for a walker longer. -/
theorem witness_TensorTileProgress_missing :
    let q : QDesc := ⟨uvaCopy, .translating none, [], [], false, false, 0, 1, [], false⟩
    let x := { tileAt 0 with streams := [(0, ⟨[q], 1⟩), (1, ⟨[q], 1⟩)] }
    let s := { upTile x with walkWait := [(0, 1)] }
    (q.desc.missing []).isSome = true ∧ (s.tile 0).leaves = [] ∧ s.tcFind 0 1 0x1000 = none ∧
      q.desc.absorb (s.tile 0).leaves 1 (s.ctx 1).gen.toNat 64 [] = [] ∧ (s.setTensor 0 0 q).walkerFor 0 0 = false := by
  decide +kernel

/-- A prefetch under way in a table of this module. -/
theorem witness_PrefetchFaultsNothing :
    let w : Walk := ⟨0x1000, 3, 0, false, false, false, []⟩
    let s := { upTensor (copyDesc .queued) with pfWalks := [⟨0, 0, 1, 0, w⟩] }
    s.live = true ∧ s.tableHere 1 = true ∧ mget [] s.wcache 0 = [] ∧
      (s.pfWalks.find? (fun p => p.site == 0 && p.stream == 0 && p.walk.va == 0x1000)).isSome = true ∧
      faMod w.entryFa = s.modNum ∧ w.table % 4096 = 0 ∧ s.entryUe w = false := by decide

/-- A walk that finds nothing in its table faults. -/
theorem witness_TranslationFaultHolds :
    let w : Walk := ⟨0x1000, 3, 0, false, false, false, []⟩
    let s := upTensor (copyDesc (.translating (some w)))
    s.live = true ∧ s.tileBolt 0 = some 1 ∧ s.stopping 1 = false ∧ (s.ctx 1).drain = none ∧
      s.entryUe w = false ∧ faMod w.entryFa = s.modNum ∧
      ∃ e lv, (s.readEntry w).1.walkEntry 1 w (s.readEntry w).2.1 (s.readEntry w).2.2 = .fault e lv :=
  ⟨by decide, by decide, by decide, by decide, by decide, by decide, .unmapped, 3, by decide⟩

/-- Both tiles of bolt 1 at a bow point. -/
theorem witness_BowPoint :
    let x := { tileAt 0 with run := .atBow 1 false false }
    let s := { upCtx .running with tiles := [(0, x), (1, x)] }
    s.live = true ∧ s.bowReady 1 = true ∧ (s.boltTiles 1).Nodup ∧ s.bowQuiet 1 = true ∧ (s.ctx 1).drain = none ∧
      x.bowing = true ∧ (nextOf x.pc x.loops).1 < x.streamLen := by decide

theorem witness_StageTimeSources :
    State.reset.live = true ∧ State.reset.stuSrc = 0 ∧ State.reset.stu.mode = .acquire ∧ State.reset.cues = [] ∧
      State.reset.loom.committed = false ∧
      ({ up with stu := { up.stu with mode := .locked, time := 2 * giga } } : State).stu.lastRef + 2 * giga ≤
        ({ up with stu := { up.stu with mode := .locked, time := 2 * giga } } : State).now := by decide

/-- A cue record of bolt 1. -/
def cueOf (a : Nat) : CueRec := { CueRec.ofNat 0 with action := BitVec.ofNat 8 a, bolt := 1 }

/-- `up` with a cue handed over in slot 0 and due. -/
def upCue (a : Nat) : State := { upCtx .running with cues := [(0, some ⟨cueOf a, 0, true, none, false, none, 0⟩)] }

theorem witness_ShiftPowerKeepsTheSum : ((upCue 5).firing 0 5).isSome = true ∧
    (((upCue 5).loom.live.bolt? 1).map (fun x => x.pwrRes)) = some 300 := by decide

theorem witness_CuesFire : ((upCue 1).firing 0 1).isSome = true ∧ ((upCue 2).firing 0 2).isSome = true ∧
    ((upCue 3).firing 0 3).isSome = true ∧ ((upCue 4).firing 0 4).isSome = true ∧ ((upCue 6).firing 0 6).isSome = true := by
  decide

/-- A cue not handed over whose time has come within the handover window. -/
theorem witness_CuesFire_handover :
    let c : CueSlotSt := ⟨{ cueOf 1 with fire := 2 }, 0, false, none, false, none, 0⟩
    let s := { upCtx .running with cues := [(0, some c)] }
    c.fireAt ≤ s.now + 4000 ∧ s.now + 2 ≤ c.fireAt ∧ s.comparatorsFree c.record = true ∧ s.heldForBuild c = false := by decide

/-- A cue armed after its fire time, with nothing due before it. -/
theorem witness_CuesFire_late :
    let c : CueSlotSt := ⟨{ cueOf 1 with fire := 2 }, 0, false, none, false, none, 5⟩
    let s := { upCtx .running with cues := [(0, some c)], stu := { Stu.reset with time := 5 } }
    s.live = true ∧ c.fireAt ≤ s.now ∧ s.heldForBuild c = false ∧ s.comparatorsFree c.record = true ∧ c.lateFor .armedLate = true ∧
      s.dueCues.all (fun x => !cueBefore s.now x (0, c)) = true := by decide

theorem witness_CueArming :
    ((upCall 8 .running).take 0 8 1).isSome = true ∧ ((upCall 9 .running).take 0 9 1).isSome = true ∧
      (up.bolt? 1) = some bolt1 ∧ 0 < bolt1.cueCount ∧ up.cue 0 = none ∧ (up.ctx 1).reserves 0 = false := by decide +kernel

theorem witness_StepsAdmittedAndDelivered :
    ((upCall 1 .ready).take 0 1 1).isSome = true ∧ (upCall 1 .ready).noCtx 1 = false ∧ ((upCall 1 .ready).ctx 1).refuseNext = false ∧
      (upCall 1 .empty).noCtx 1 = true ∧ ((upCall 1 .empty).take 0 1 1).isSome = true ∧
      ((upCtx .ready).loom.live.bolt? 1) = some bolt1 := by decide +kernel

/-- A blocking of two tiles with no template, and a step behind another of bolt 1, which spans modules and has its home elsewhere. -/
theorem witness_StepsAdmittedAndDelivered_far :
    let s := { upCtx .running with
      ctxs := [(1, { Ctx.reset with mode := .running, blks := [⟨2, 0, 0, 0, [], []⟩] })]
      loom := { up.loom with live := { scene1 with bolts := [{ bolt1 with home := 2 }], bindings := [⟨1, 2, 0⟩] } } }
    s.live = true ∧ s.serving 1 = true ∧ (s.blocking 1).isSome = true ∧ s.atHome 1 = false ∧ timeOk 5 = true := by
  decide +kernel

/-- The oldest step of bolt 1 has ended, and its interrupt's message is held. -/
theorem witness_StepsAdmittedAndDelivered_end :
    let r : StepRec := ⟨0, 0, 0, 0, 0, 0, some 0, 5, 0, 5, 0, false, 1, false, false, 1, false, true, 0, false⟩
    let s := { upCtx .running with ctxs := [(1, { Ctx.reset with mode := .running, steps := [r] })] }
    s.live = true ∧ s.serving 1 = true ∧ r.overdue s.now = false ∧ s.messageHeld r = false ∧ (s.ctx 1).drain = none := by
  decide +kernel

theorem witness_MeshRoutes :
    up.liveXY 0 0 0 = true ∧ up.liveXY 0 3 2 = false ∧ up.liveXY 0 0 5 = true ∧ up.segment 0 0 2 3 5 = (1, 0, 6) ∧
      pointSite 0 0 = (0, 0) ∧ pointSite 0 5 = (5, 0) := by decide

/-- A flit from tile 0 to tile 5 of panel 0. -/
def flitOf : Flit := ⟨0, 1, true, 0, 0, 0, 5⟩

theorem witness_MeshFlits : up.live = true ∧ up.flitOk flitOf = true ∧
    up.freeLedger (inputLedger ⟨0, 0⟩) 0 = some (.mesh ⟨0, 0⟩ 0) ∧
    (let d : LedgerId := .edge 0 0 false 0
     let s := up.setMeshLedger d ⟨1, 0, 1, 0⟩
     0 < ledgerTickets d ∧ 0 < (s.ledger d).taken ∧ 0 < (s.ledger d).back) := by decide

/-- A group with one node, of tile 0. -/
def upRed : State :=
  { up with
    loom := { up.loom with live := { scene1 with
      red := [⟨0, 1, false, false, 0, 10, 0, 0, [⟨0, 0, false, true, 8, 0⟩]⟩]
      mcast := [⟨0, 1, 8, [⟨0, 0, false, true, 8, 0⟩]⟩] } }
    redIn := [⟨0, 1, 0, 0, 0, 0, [], 256, 0⟩]
    mcFlits := [⟨0, 1, 0, 0, [1], none, (0, 0)⟩] }

theorem witness_MeshTrees : upRed.live = true ∧ (upRed.mcAt 0 0).length = 1 ∧ (upRed.mcRecAt 0 1).isSome = true ∧
    (upRed.redHeld 0 0 0 0).head?.isSome = true ∧ (upRed.redRecAt 0 1).isSome = true ∧ (upRed.redRunOf 0).failed = false ∧
    ((redOrder [⟨0, 0, false, true, 8, 0⟩] 0).filterMap (fun k => upRed.redInput 0 0 0 0 k)).length =
      (redOrder [⟨0, 0, false, true, 8, 0⟩] 0).length := by decide

theorem witness_BridgesAndAudits : up.live = true ∧ (up.bridge 0 0).retraining = false ∧
    (up.setBridge 0 0 ⟨[], 8, 8, false, 0⟩).bridge 0 0 = ⟨[], 8, 8, false, 0⟩ ∧
    ((up.setBridge 0 0 ⟨[], 8, 8, true, 2⟩).bridge 0 0).retraining = true ∧
    up.freeLedger (fun c => .bridge 0 0 (crossesBack 0 flitOf) c) 0 = some (.bridge 0 0 (crossesBack 0 flitOf) 0) ∧
    up.auditPaused (.mesh ⟨0, 0⟩ 0) = false ∧
    ((up.setBridge 0 0 ⟨[⟨crossesBack 0 flitOf, 0, flitOf⟩], 0, 1, false, 0⟩).bridge 0 0).replay.find?
      (fun x => x.back == crossesBack 0 flitOf && x.flit == flitOf) = some ⟨crossesBack 0 flitOf, 0, flitOf⟩ ∧
    mget none ({ up with audited := [(ledgerKey (.mesh ⟨0, 0⟩ 0), some 0)], stu := { up.stu with time := 10000000 } } : State).audited
      (ledgerKey (.mesh ⟨0, 0⟩ 0)) = some 0 := by decide

/-- `up` with channel 0 in bolt 1's hands. -/
def upChan : State :=
  { upCtx .running with loom := { up.loom with live := { scene1 with channels := [(0, some ⟨1, false⟩)] } } }

/-- A read and a write of bolt 1's memory by its tile 0. -/
def memRead : MemReq := ⟨1, .tile 0, false, 0, 32, [], true, 0, 0⟩

theorem witness_HbmServes : upChan.live = true ∧
    upChan.accessStatus 1 (upChan.reqSrc memRead) true 0 0 (reqSize memRead) true false false = some 0 ∧
    upChan.integrity 0 memRead .good = none ∧ upChan.chanUp 0 = true ∧
    up.accessStatus 1 (up.reqSrc memRead) true 0 0 (reqSize memRead) true false false = some stDenied ∧
    up.hot.contains 0 = false := by decide

/-- A held tensor tile and its entry in the fault queue of bolt 1. -/
def upFault : State :=
  { upTensor (copyDesc .held) with fq := [(1, ⟨[⟨1, 0, false, false, .unmapped, 0, 0, 0, 0, 0, 1, 0⟩], [], 2⟩)] }

theorem witness_FaultQueueResponses : upFault.live = true ∧ (upFault.faults 1).entries.length = 1 ∧
    (upFault.faults 1).waiting = [] ∧ (upFault.heldAt ⟨1, 0, false, false, .unmapped, 0, 0, 0, 0, 0, 1, 0⟩).isSome = true ∧
    bits 65536 31 16 = 1 ∧ bits 65536 15 1 = 0 ∧ (up.faults 1).entries = [] := by decide

/-- INV_ALL in slot 0, and one that waits for nothing. -/
theorem witness_Invalidations :
    let s := up.setReg (invWord 0 0) 3
    s.live = true ∧ bit (s.reg (invStat 0)) 0 = false ∧ s.invBad 0 ((s.setReg (invWord 0 7) 1).invDesc 0) = false ∧
      bit (up.reg (invStat 0)) 0 = false ∧ up.invBad 0 (up.invDesc 0) = true ∧ up.invClear [] = true := by decide

/-- `up` with port 0 in a mode. -/
def upPort (m : PortMode) : State :=
  { upCtx .running with
    ports := [(0, { CrPort.reset with mode := m })]
    loom := { up.loom with live := { scene1 with ports := some [] } } }

theorem witness_CreustPortStates : (upPort .train).live = true ∧ ((upPort .train).port 0).mode = .train ∧
    ((upPort .param).port 0).mode = .param ∧ (upPort .param).portRec 0 = none ∧ ((upPort .up).port 0).mode = .up ∧
    State.reset.live = true ∧ State.reset.loom.committed = false ∧ bit (State.reset.reg (cru 0 0)) 0 = false := by decide

theorem witness_CreustCodewords : (upPort .up).live = true ∧ ((upPort .up).port 0).mode = .up ∧
    (let cw : Codeword := ⟨.clean, 0xFFF, []⟩
     cwSeq cw = 0xFFF ∧ cw.fec ≠ .failed) ∧ ((upPort .up).port 0).egress = [] ∧
    ((upPort .up).port 0).flitQ = [] ∧ ((upPort .up).port 0).maySend = true := by decide

/-- The CRC-8 of zeros is 0. -/
theorem crc8_zeros (n : Nat) : crc8 (List.replicate n 0) = 0 := by
  induction n with
  | zero => rfl
  | succ n ih => simpa [crc8, List.replicate_succ, crcStep] using ih

/-- A codeword of idle flits, CSEQ 0, is the one expected at first. -/
theorem witness_CreustCodewords_taken :
    let cw : Codeword := ⟨.clean, 0, List.replicate 640 0⟩
    cwSeq cw ≠ 0xFFF ∧ cw.tag = cwTag (cwSeq cw) cw.data ∧ cwSeq cw = ((upPort .up).port 0).rxCseq ∧
      (scanCw ((upPort .up).port 0).rxDue cw.data).bad = false := by
  refine ⟨by decide, ?_, by decide, by decide +kernel⟩
  have h : List.replicate 640 (0 : Byte) ++ leBytes 2 0 = List.replicate 642 0 := by decide +kernel
  have h0 : cwSeq ⟨.clean, 0, List.replicate 640 0⟩ = 0 := by decide
  simp only [h0, cwTag, h, crc8_zeros]
  decide

/-- A header from module 2 for bolt 1. -/
def hdr (k : Nat) : PktHdr :=
  { kind := BitVec.ofNat 8 k, tc := 0, scene := true, bolt := 1, src := 2, vs := false, sp := false, dst := 0, ski := 0,
    sealed := false, rsv1 := 0, seq := 0, addr := 0, len := 0, rsv2 := 0, tag := 0, opx := 0, aux := 0 }

/-- An open session with module 2. -/
def sessOf (p : SessPhase) : Sess where
  phase := p
  peer := 2
  bolt := 1
  sealed := false
  peerSki := 0
  capHbm := 0
  capCxl := 0
  capDark := []
  txSeq := 0
  rx := []
  openedAt := 0
  bulkOwed := []
  bulkSeq := []
  txKey := ⟨0, 0⟩
  rxKey := ⟨0, 0⟩
  offerOut := []
  offerIn := []
  encapsOut := []
  encapsIn := []
  secretOut := 0
  secretIn := 0
  held := []

/-- `up` with port 0 up and a session with module 2. -/
def upSess (p : SessPhase) : State := { upPort .up with sess := [(0, some (sessOf p))] }

theorem witness_CreustRequests : (upSess .opened).arrives 0 (hdr 1) 1 = true ∧ (upSess .opened).arrives 0 (hdr 5) 5 = true ∧
    (((upSess .opened).freeCells 0 (hdr 1) false).rxCheck 0 (hdr 1) none [] 0).2.isSome = true ∧
    ((upSess .opened).sceneFor 1 true).isSome = true ∧ (sessOf .opened).fits (hdr 1) = true ∧ (upPort .up).sessAt 0 = none ∧
    pktBare (hdr 5) = true ∧ ({ seq := 0, tc := 0, mask := some 1 } : HeldReq).stops { hdr 1 with seq := 1 } = true := by decide

theorem witness_CreustSessionsAndGroups :
    (upSess .offerSent).arrives 0 { hdr 0x11 with opx := 1 } 0x11 = true ∧
      (upSess .offerSent).setupSess 2 1 = some (0, sessOf .offerSent) ∧ (upSess .confirmSent).sessAt 0 = some (sessOf .confirmSent) ∧
      (upSess .opened).live = true ∧ shootFields { hdr 0x10 with opx := 3 } = true ∧
      (let s := upSess .offerSent
       { s with loom := { s.loom with live := { s.loom.live with bindings := [⟨1, 2, 0⟩] } } }.setupStatus
         { hdr 0x11 with opx := 1, aux := 256 } (List.replicate 64 0) = 0) := by decide

/-- A request of tag 0 waiting for module 2. -/
def upReq : State :=
  { upSess .opened with reqs := [(0, some ⟨1, 2, 1, 0, 0, 0, 0, 1, .firmware 1, 0, false, 0, 32, 0⟩)] }

theorem witness_CreustResponses : upReq.live = true ∧ upReq.arrives 0 (hdr 0x21) 0x21 = true ∧
    (upReq.answered (hdr 0x21) 0 [1]).isSome = true ∧ (upReq.expired 0).isSome = true ∧ rspFields (hdr 0x21) = true ∧
    upReq.carries 0 { hdr 1 with dst := 5 } 1 = true ∧ upReq.isLocal { hdr 1 with dst := 5 } = false := by decide

/-- `BoothHears`, as a check that runs. -/
theorem hears_of {s : State} {ses : SessId} {m : MsgRule} {x : BoothSess} (h : (s.boothUp && (s.boothSess ses.val == some x) &&
    decide (x.unanswered < 16) && (x.hello || m.type == 1) && (!s.inc.halted || m.inHalt) && !s.fw.bootStopped &&
    m.mayRole x.role) = true) : BoothHears s ses m x := by
  simp only [Bool.and_eq_true, beq_iff_eq, decide_eq_true_eq, Bool.or_eq_true, Bool.not_eq_true'] at h
  exact ⟨h.1.1.1.1.1.1, h.1.1.1.1.1.2, h.1.1.1.1.2, h.1.1.1.2, h.1.1.2, .inl h.1.2, h.2⟩

/-- The admin's session of `up`. -/
def admin : BoothSess := ⟨.admin, true, 0, none, []⟩

theorem witness_BoothMessages : boothRule (.status 0) = some (0, ⟨2, 0, true, true⟩) ∧ up.boothUp = true ∧
    up.boothSess 0 = some admin ∧ up.boothSess 1 = none ∧ State.reset.boothUp = false :=
  ⟨rfl, by decide, by decide, by decide, by decide⟩

theorem witness_LoomCommits : BoothHears up 0 ⟨0x20, 2, false, false⟩ admin ∧ BoothHears up 0 ⟨0x21, 2, false, false⟩ admin ∧
    BoothHears up 0 ⟨0x23, 0, false, false⟩ admin ∧ up.fw.loomOwner = none ∧ up.loom.mode ≠ .draining :=
  ⟨hears_of (by decide), hears_of (by decide), hears_of (by decide), by decide, by decide⟩

/-- `up` with an old scene retiring. -/
def upOld : State := { up with loom := { up.loom with mode := .draining, old := some Scene.zero, scrubs := [(0, 1, some 0)] } }

theorem witness_SceneRetirement : upOld.live = true ∧ upOld.loom.mode = .draining ∧ upOld.loom.old = some Scene.zero ∧
    upOld.oldFlight = 0 ∧ upOld.oldSpans = false ∧
    upOld.loom.scrubs.find? (fun x => x.1 == 0 && x.2.2.isSome) = some (0, 1, some 0) := by decide

/-- The PF's command interface for bolt 1. -/
theorem witness_QueueCommands : CommandRuns up 0 false 1 0 ∧ hostRule (.qCreate 0 false 1 0) = some (0, false, 1, 0, 1) ∧
    up.relQueue (up.cmdBolt false 1) (bits (up.cmdArg false 1 0) 12 0) = some 0 ∧ (up.queue 0).mode = .free ∧
    up.mayCommand 1 true 1 = false := ⟨⟨by decide, by decide, by decide, by decide, by decide⟩, by decide, by decide, by decide, by decide⟩

theorem witness_FencesAndObjects : CommandRuns up 0 true 1 0 ∧ up.fence (up.cmdArg true 1 0) = none ∧
    (up.setFence 0 (some ⟨0, .live, 0, false, 1, 0, 0⟩)).fence 0 = some ⟨0, .live, 0, false, 1, 0, 0⟩ ∧
    (match (up.setObj 0 ⟨up.cmdBolt true 1, 0, 1, 0, true⟩).ownObj 0 (up.cmdBolt true 1) with
     | .inl st => decide (st ≠ 0)
     | .inr _ => true) = true :=
  ⟨⟨by decide, by decide, by decide, by decide, by decide⟩, by decide, by decide, by decide⟩

theorem witness_HostPort : (upCall 0 .running).live = true ∧ (upCall 0 .running).ringQueue 0 5 = none ∧
    (upCall 0 .running).serving 0 = true ∧ (upCall 0 .running).queueBolt 0 = some 1 ∧
    ((upCall 0 .running).queue 0).mode = .running ∧ up.ownsWindow 1 1 = true ∧ up.freedOf 1 = [] ∧ up.pins.perst0N = true ∧
    apLen 8 none ≠ 0 ∧ up.hostMay 0 0 8 false = true ∧ 0 + 8 ≤ 2 ^ up.pci.bar2Exp ∧ up.ueAt 0 0 8 true false = false ∧
    ((upCall 0 .running).callBytes 1 ((upCall 0 .running).queue 0) []).isSome = true ∧
    mget none ({ up with hostReads := [(0, some ⟨.aperture 0, 1, 0, 0, 1, 8, 0, 0⟩)] } : State).hostReads 0 =
      some ⟨.aperture 0, 1, 0, 0, 1, 8, 0, 0⟩ := by decide +kernel

theorem witness_CallsComplete : ((upCall 0 .running).take 0 0 0).isSome = true ∧ ((upCall 6 .running).take 0 6 1).isSome = true ∧
    ((upCall 7 .running).take 0 7 1).isSome = true ∧ ((upCall 0xA .running).take 0 0xA 0).isSome = true ∧
    callFen 0 = false ∧ callIrq 0 = false ∧ callObjA 0 = 0 ∧ callHandleB 0 = 0 := by decide +kernel

theorem witness_ContextsAndCopies : ((upCall 2 .empty).take 0 2 2).isSome = true ∧ ((upCall 3 .ready).take 0 3 2).isSome = true ∧
    ((upCall 4 .ready).take 0 4 3).isSome = true ∧ ((upCall 5 .ready).take 0 5 3).isSome = true ∧
    (upCtx .loading).sessionsOpen 1 = true ∧ (upCtx .loading).serving 2 = true ∧ up.peersOf 1 = [] ∧
    ((upCall 2 .empty).ctx 1).mode = .empty ∧ (upCall 2 .empty).twinTarget 1 = false := by decide +kernel

theorem witness_DrainsAndResets : (upCtx .running).live = true ∧ ((upCtx .running).ctx 1).drain = none ∧
    (upCtx .running).hasFault 1 = false ∧ BoothHears (upCtx .running) 0 ⟨0x80, 1, false, false⟩ admin ∧ up.hasBolt 1 = true ∧
    up.hasBolt 2 = false ∧ (upCtx .running).stopping 1 = false ∧ ((upCtx .resetting).core 7).mode ≠ .restarting ∧
    (({ up with fw := { up.fw with cores := [(7, ⟨.restarting, 1⟩)] } } : State).core 7).mode = .restarting ∧
    ((upCtx .resetting).ctx 1).strike = none ∧ (1 ∉ up.loom.movePend) :=
  ⟨by decide, by decide, by decide, hears_of (by decide), by decide, by decide, by decide, by decide, by decide, by decide, by decide⟩

theorem witness_StrikesAndFunctionResets : ((upCall 0xC .empty).take 0 0xC 2).isSome = true ∧
    BoothHears up 0 ⟨0x82, 2, false, false⟩ admin ∧ ((upCtx .striking).ctx 1).saved = [] ∧
    ({ up with ctxs := [(1, { Ctx.reset with mode := .striking, strike := some ⟨false, none, none⟩ })] } : State).serving 2 = true ∧
    ({ up with pci := { up.pci with vfEnable := true } } : State).fnOn 1 = true :=
  ⟨by decide +kernel, hears_of (by decide), by decide, by decide, by decide⟩

/-- A CAST of an action at entry 0, in a bolt that serves. -/
def upCast (act : Nat) (e : CastSt) : State :=
  let s := upCall (0xB + act * 2 ^ 272) .running
  { s with casts := [(0, e)], regs := [(0x10000, 0x40000001), (blt 1 0xB00, 1)] }

theorem witness_CastLists :
    ((upCast 3 { CastSt.reset with mode := .queued }).take 0 0xB 3).map (fun x => callBits x.2.words 0x20 19 16) = some 3 ∧
      (upCast 3 CastSt.reset).castRange 1 = (0, 8) ∧ (upCast 3 CastSt.reset).srvOn 1 = true ∧
      ((upCast 3 { CastSt.reset with mode := .queued }).cast 0).mode = .queued ∧ (up.pool 1 0).count = 0 ∧
      bit (up.reg (blt 1 0xB40)) 0 = false := by decide +kernel

theorem witness_PowerAndHeat : up.live = true ∧ up.now % 10000 = 0 ∧ up.serving 6 = true ∧ (up.panel 0).hw = false ∧
    up.siteLive 0 = true ∧ (up.tile 0).hold = false ∧ BoothHears up 0 ⟨0x30, 1, false, false⟩ admin ∧
    BoothHears up 0 ⟨0x31, 1, false, false⟩ admin ∧ up.pins.thermTripN = true ∧ up.power.warm.contains 0 = false :=
  ⟨by decide, by decide, by decide, by decide, by decide, by decide, hears_of (by decide), hears_of (by decide), by decide,
    by decide⟩

theorem witness_KeysPlaybillsAndDebug : up.live = true ∧ up.boothUp = true ∧ BoothHears up 0 ⟨0x50, 2, false, false⟩ admin ∧
    BoothHears up 0 ⟨0x60, 0, false, true⟩ admin ∧ up.grantAt 0 = none ∧ up.pathUp 1 = true ∧ up.pathOpen 1 = false ∧
    up.loom.live.has 1 = true ∧ bit (up.reg (pbStat 0)) 0 = false ∧
    ({ up with sec := { up.sec with grants := [(0, some ⟨0x7F, 1, 2, 1, 0, true, 0⟩)] } } : State).pathOpen 1 = true :=
  ⟨by decide, by decide, hears_of (by decide), hears_of (by decide), by decide, by decide, by decide, by decide, by decide,
    by decide⟩

/-- A module in its boot stages, and one held in reset. -/
theorem witness_BootAndCores : State.reset.live = true ∧ State.reset.fw.bootStopped = false ∧ State.reset.fw.ready = false ∧
    State.reset.fw.stage < 4 ∧ State.reset.runImg.bootable = true ∧ State.reset.runImg.magicOk = true ∧
    State.reset.runImg.id.toNat = glbId ∧ State.reset.fw.fuseSvn ≤ State.reset.runImg.svn ∧ up.watched 0 = true ∧
    (up.core 0).mode = .running ∧ up.shWindow.length < 3 ∧
    ({ State.reset.pins with resetN := false } : Pins).pwrGood = true := by decide

theorem witness_BoothRequests : up.boothUp = true ∧ up.boothSess 0 = some admin ∧ up.boothSess 1 = none ∧
    BoothHears up 0 ⟨0x10, 2, false, true⟩ admin ∧ BoothHears up 0 ⟨0x40, 2, false, false⟩ admin ∧
    BoothHears up 0 ⟨0x90, 2, true, false⟩ admin ∧ up.bootsel = 0 ∧ up.fw.trial = false ∧ up.fnBolt 1 = some 1 :=
  ⟨by decide, by decide, by decide, hears_of (by decide), hears_of (by decide), hears_of (by decide), by decide, by decide,
    by decide⟩

/-- A report of class 2 pending at tile 0, and one of class 4. -/
def upInc (cls : Nat) : State := up.raise 0 0x008 cls (some 1) 0 0 0

theorem witness_IncidentsAndTwin : ((upInc 2).takeReport).isSome = true ∧ ((upInc 4).takeReport).isSome = true ∧
    up.takeReport = none ∧ up.incUp = true ∧ up.inc.ovCount = 0 ∧ up.regsUp 0 0x40008 = true ∧ up.regsUp 0 0x40024 = true ∧
    ({ up with inc := { up.inc with halted := true }, stu := { up.stu with time := 100000000 } } : State).inc.haltAt + 100000000 ≤
      100000000 ∧
    ({ up with ports := [(16, { CrPort.reset with mode := .up })] } : State).portUp 16 = true := by decide +kernel

theorem witness_PinsPowerAndCxl : State.reset.pins.pwrGood = true ∧ State.reset.pins.resetN = true ∧
    State.reset.pins.pwrEn = true ∧ ({ State.reset.pins with pwrEn := false, pwrGood := false } : Pins).needCycle = false ∧
    52000 ≤ State.reset.pins.vin ∧ State.reset.pins.vin ≤ 60000 ∧ up.cage 0 = none ∧ up.live = true ∧
    up.cxlGone.contains (0, 0) = false ∧ (mget [] up.lost 0).length ≤ 2 ∧
    ({ up with loom := { up.loom with live := { scene1 with decs := [⟨0, 0, false, 0, 0, 0, 2 ^ 40⟩] } } } : State).portServes 0 0 =
      true := by decide

/-! ### Ill-formed commands are refused by the check, one for each check of WellFormed.lean -/

/-- A memory request of no bytes, one of 513 bytes, and one beyond space 0. -/
def badReq (off len : Nat) : MemReq := ⟨1, .tile 0, false, off, len, [], true, 0, 0⟩

theorem test_wf_registers : (Instr.unimplementedAccess 0 (2 ^ 26) true).wf = false ∧
    (Instr.unsupportedWidthAccess 1 (2 ^ 18) true).wf = false ∧ (Instr.pairLoRead 0 (2 ^ 26) false).wf = false ∧
    (Instr.pairLoWrite 1 (2 ^ 18) 0).wf = false ∧ (Instr.counterSatClear 0 (2 ^ 26) 0).wf = false := by decide
theorem test_wf_mem : (Instr.hbmAccess (badReq 0 0) .clean .good 0).wf = false ∧
    (Instr.hbmAccess (badReq 0 513) .clean .good 0).wf = false ∧
    (Instr.cxlCompletion 0 (badReq (2 ^ 49 - 1) 2) ⟨true, .good⟩ 0).wf = false ∧ (Instr.hbmScrub 0 (3 * 2 ^ 30) .clean).wf = false := by
  decide
theorem test_wf_creust : (Instr.resync 0 0 10 0).wf = false ∧ (Instr.audit 0 15 0 0).wf = false ∧
    (Instr.credit 0 [0, 0, 0, 0, 0, 0, 0, 0, 0] 0).wf = false ∧ (Instr.st 0 (hdr 2) [] 0).wf = false ∧
    (Instr.bulkWr 0 (hdr 3) [] 0).wf = false ∧ (Instr.codewordReceive 0 ⟨.clean, 0, []⟩).wf = false := by decide
theorem test_wf_booth : (Instr.loomPut 0 (2 ^ 32) []).wf = false ∧ (Instr.setAddr 0 0 256 0).wf = false ∧
    (Instr.incSubscribe 0 256).wf = false := by decide
theorem test_wf_host : (Instr.doorbell 0 8192 0).wf = false ∧ (Instr.callFetch 0 [0]).wf = false ∧
    (Instr.apertureAccess 0 0 0 none .clean).wf = false ∧ (Instr.apertureAccess 1 (2 ^ 33) 1 none .clean).wf = false ∧
    (Instr.thermTrip 5 0 120).wf = false := by decide

/-! ### Single results that the spec gives -/

/-- 00, worked example: the tile at (5, 2) on panel 3 is site 213. -/
theorem test_site : siteAt 3 5 2 = 213 := by decide
/-- 04 R114, worked example: with (3, 2) and (5, 4) dark, site 21 reaches site 35 by the detour row 3 at no added length. -/
theorem test_detour : State.reset.segment 0 5 2 3 4 = (2, 3, 4) := by decide
/-- 05, worked example: 16 MiB into channel 361 of module 17. -/
theorem test_fabric_address : mkFa 17 0 (361 * chanBytes + 16 * 2 ^ 20) = 0x0110010EC1000000 := by decide
/-- 02 R30: 1 + 1 = 2, and 2^24 + 1 takes the even significand, as in the worked example of 04 R129. -/
theorem test_add : fpAdd 0x3F800000 0x3F800000 = (0x40000000, 0) ∧ (fpAdd 0x4B800000 0x3F800000).1 = 0x4B800000 := by
  decide +kernel
/-- 04 R129, worked example: the inputs in the group's order give 1.0. -/
theorem test_reduction_order :
    redFold false [[0x4B800000], [0x3F800000], [(fpAdd 0x3F800000 0xCB800000).1]] = [0x3F800000] := by decide +kernel
/-- 02 R52: under RNE, 450 to E4M3 gives 448 without SAT; 470 gives 448 with SAT. -/
theorem test_narrow_e4m3 : narrow 2 .rne 0x43E10000 = (0x7E, 0) ∧ (narrow 2 .rne 0x43EB0000).1 = 0x7E ∧
    (narrow 2 .rne 0x43EB0000).2 ≠ 0 := by decide +kernel
/-- 02 R55: the greater of −0 and +0 is +0; a NaN operand gives the canonical NaN. -/
theorem test_max : (fpMax 0x80000000 0).1 = 0 ∧ (fpMax 0x7F800001 0).1 = 0x7FC00000 := by decide +kernel
/-- 06 R176: 1.5 s packs as one second and half a billion nanoseconds. -/
theorem test_time : packTime 1500000000 = 0x5DCD6500 := by decide

/-- The tile of a next state. -/
def tileAfter (r : Host.Outcome State Fault Refusal) : Option Tile :=
  match r with
  | .next t => some (t.tile 0)
  | _ => none

/-- 03 R79: SETA writes four times its immediate. -/
theorem test_seta : (tileAfter (exec (.seta 0 3 0 0 0) (upTile (tileAt (words 0 0 0 (0x0D * 2 ^ 26 + 3)))))).map (fun x =>
    (x.a 0, x.pc)) = some (12, 1) := by decide +kernel
/-- 03 R79: ADDI of −1 to 0 wraps. -/
theorem test_addi : (tileAfter (exec (.addi 0 0x3FFFFF 0 0 0) (upTile (tileAt (words 0 0 0 (0x11 * 2 ^ 26 + 0x3FFFFF)))))).map
    (fun x => x.i 0) = some 0xFFFFFFFF := by decide +kernel
/-- 03 R80: the next bundle of a taken branch is the target. -/
theorem test_br : (tileAfter (exec (.br 0 3 0 0 0) (upTile (tileAt (words 0 0 0 (1 * 2 ^ 26 + 3)))))).map (fun x => x.pc) =
    some 3 := by decide +kernel
/-- 03 R79: HALT stops issue. -/
theorem test_halt : (tileAfter (exec (.halt 0 0 0 0 0) (upTile (tileAt (words 0 0 0 (0x16 * 2 ^ 26)))))).map (fun x => x.run) =
    some .halted := by decide +kernel
/-- 03 R100: a WAITSEM of more than the count holds issue and takes nothing. -/
theorem test_waitsem : (tileAfter (exec (.waitsem 0 (2 ^ 16) 0 0 0) (upTile { tileAt (words 0 0 0 (5 * 2 ^ 26 + 2 ^ 16)) with
    sems := [(0, 1)] }))).map (fun x => (x.run, x.sem 0)) = some (.heldIssue, 1) := by decide +kernel

/-- What the host reads. -/
def readBack (r : Host.Outcome State Fault Refusal) : Option Out :=
  match r with
  | .next t => t.out.head?
  | _ => none

/-- 00 R6: a read of an unimplemented offset returns 0 and sets UNIMPL. -/
theorem test_unimplemented : readBack (exec (.unimplementedAccess 0 0x7C false) up) = some (.readData 0 0x7C 0) := by decide +kernel
/-- 00 GLB_ID. -/
theorem test_glb_id : State.reset.readWord 0 = 0x02A12160 := by decide +kernel
/-- 13 R435: a message of a session that has not said HELLO is refused with UNBOUND. -/
theorem test_unbound : readBack (exec (.status 0) { up with fw := { up.fw with sess := [(0, some { admin with hello := false })] } }) =
    some (.booth 0 0x8002 5 []) := by decide +kernel
/-- 11 R358: a cap of 1,000 W is below the least. -/
theorem test_cap : readBack (exec (.pwrCap 0 1000) up) = some (.booth 0 0x8030 0 [2]) := by decide +kernel
/-- An empty queue lets one nanosecond of stage time pass (log entry 2). -/
theorem test_idle : (match step up with
    | .next t => t.stu.time
    | _ => 0) = 1 := by decide +kernel
/-- The group of 02's worked example of Twill-3, as its 101 bytes. -/
def twillGroup : List Byte := leBytes 101
  0x7c000000036db6db6db6db6db6db6db6db6db6db6db6db6db6db6db6db6db6db6db6db6db6db6db6db6db6db6db6db6db6db6db6db6db6db6db6db6db6db6db6db6db6db6db6db6db6db6db6db6db6db6db6db6db6db6db6e86db6db6db6db6db6db6dbd0f
/-- Its activations, E4M3: elements 0 to 3, 32 and 33; the others 0. -/
def twillActs : List Nat :=
  [0x40, 0x46, 0xBA, 0x30] ++ List.replicate 28 0 ++ [0x4C, 0xB6] ++ List.replicate 222 0
/-- 02, worked example: the group's bytes 0x00, 0x01, 0x60 and 0x64. -/
theorem test_twill_bytes : (twillGroup[0]?, twillGroup[1]?, twillGroup[0x60]?, twillGroup[0x64]?) =
    (some 0x0F, some 0xBD, some 0x03, some 0x7C) := by decide +kernel
/-- 02, worked example: 65,536.0 and the six products round once, to 65,535.1875. -/
theorem test_twill_beat : (let g := readElems 10 256 twillGroup []
    (beatColumn false 0x47800000 (rowValues 2 twillActs []) (rowValues 10 g.1 g.2)).1) = 0x477FFF30 := by decide +kernel

end Sys2Proof.Tests
end

section
/-! Accesses that no register answers, and accesses of a width that none takes (00_scope.md R6): what the three register
commands make of them, and what setting an error bit changes. -/

namespace Sys2Proof.Machine

/-! ### Setting a bit of GLB_ERR_STATUS -/

/-- The model's `bit` is the library's bit test. -/
theorem bit_eq_testBit (w k : Nat) : bit w k = w.testBit k :=
  Nat.testBit_eq_decide_div_mod_eq.symm

/-- A register keeps 32 bits, hence the bound on the bit read. -/
theorem bit_or_two_pow (w k : Nat) {j : Nat} (hj : j < 32) :
    bit ((w ||| 2 ^ k) % 2 ^ 32) j = (bit w j || decide (k = j)) := by
  simp only [bit_eq_testBit, Nat.testBit_mod_two_pow, Nat.testBit_or, Nat.testBit_two_pow, hj, decide_true, Bool.true_and]

theorem State.reg_setErr_ne (s : State) (fn : Fn) (k : Nat) {o : Nat} (ho : o ≠ 0x40) : (s.setErr fn k).reg o = s.reg o := by
  unfold State.setErr
  split
  · exact State.reg_setReg_ne s _ _ ho
  · rfl

/-- One statement for both kinds of function: the PF's bits are a register, a VF's an entry of `vfErr`. -/
theorem State.errBit_setErr (s : State) (fn : Fn) (k : Nat) {j : Nat} (hj : j < 32) :
    (s.setErr fn k).errBit fn j = (s.errBit fn j || decide (k = j)) := by
  by_cases hfn : fn = 0
  · simp only [State.errBit, State.setErr, State.orReg, if_pos hfn, State.reg_setReg, bit_or_two_pow _ _ hj]
  · have hor (w : Word) : (w ||| BitVec.ofNat 32 (2 ^ k)).toNat = (w.toNat ||| 2 ^ k) % 2 ^ 32 := by
      rw [Nat.or_mod_two_pow, BitVec.toNat_or, BitVec.toNat_ofNat, Nat.mod_eq_of_lt w.isLt]
    simp only [State.errBit, State.setErr, if_neg hfn, mget_mset_self, hor, bit_or_two_pow _ _ hj]

/-! ### The three commands while the function's registers answer -/

section
variable {s : State} {fn : Fn} {off : Nat} (hup : s.regsUp fn off = true)
include hup

theorem exec_unimplementedAccess_absent (habs : regPlace s fn off = .absent) (write : Bool) :
    exec (.unimplementedAccess fn off write) s =
      .next (if write then s.setErr fn 0 else (s.setErr fn 0).emit (.readData fn.val off 0)) := by
  change execUnimplementedAccess fn off write s = _
  simp [execUnimplementedAccess, hup, habs]

theorem exec_unsupportedWidthAccess_up (write : Bool) :
    exec (.unsupportedWidthAccess fn off write) s =
      .next (if write then s.setErr fn 1 else (s.setErr fn 1).emit (.readData fn.val off 0)) := by
  change execUnsupportedWidthAccess fn off write s = _
  simp [execUnsupportedWidthAccess, hup]

theorem exec_registerWrite_absent (hal : off % 4 = 0) (habs : regPlace s fn off = .absent) (val : BitVec 64) :
    exec (.registerWrite fn off false val) s = .next (s.setErr fn 0) := by
  change execRegisterWrite fn off false val s = _
  simp [execRegisterWrite, hup, hal, habs, State.writePlace]

/-- A word write must be 4-byte aligned, a wide one 8-byte aligned. -/
theorem exec_registerWrite_misaligned {wide : Bool} (hal : off % 4 ≠ 0 ∨ (wide = true ∧ off % 8 ≠ 0)) (val : BitVec 64) :
    exec (.registerWrite fn off wide val) s = .next (s.setErr fn 1) := by
  change execRegisterWrite fn off wide val s = _
  simp only [execRegisterWrite, hup, Bool.not_true, Bool.false_eq_true, if_false, if_pos hal]

/-- An aligned wide write of a register that `takes64` refuses. -/
theorem exec_registerWrite_wide_single {o : Nat} (hal : off % 8 = 0) (hpl : regPlace s fn off = .map o)
    (hno : takes64 o = false) (val : BitVec 64) :
    exec (.registerWrite fn off true val) s = .next (s.setErr fn 1) := by
  change execRegisterWrite fn off true val s = _
  have hal4 : off % 4 = 0 := by omega
  simp [execRegisterWrite, hup, hal, hal4, hpl, hno]

end

/-! ### The obligation -/

/-- Settles O9: each command by its own rule above; the error bits by `errBit_setErr`. -/
theorem badAccesses : Obligations.BadAccesses := by
  unfold Obligations.BadAccesses
  intro fn off s hup
  refine ⟨fun habs => ⟨exec_unimplementedAccess_absent hup habs true, exec_unimplementedAccess_absent hup habs false,
      fun hal val => exec_registerWrite_absent hup hal habs val⟩,
    exec_unsupportedWidthAccess_up hup true, exec_unsupportedWidthAccess_up hup false,
    fun hal wide val => exec_registerWrite_misaligned hup (.inl hal) val, ?wideWrite, ?errorBits⟩
  case wideWrite =>
    intro o val hal4 hpl hwide
    by_cases hal8 : off % 8 = 0
    · obtain ⟨hpair, hinv⟩ := hwide.resolve_left (not_not_intro hal8)
      exact exec_registerWrite_wide_single hup hal8 hpl (by simp [takes64, hpair, hinv]) val
    · exact exec_registerWrite_misaligned hup (.inr ⟨rfl, hal8⟩) val
  case errorBits =>
    intro k hk
    refine ⟨?_, fun o ho => State.reg_setErr_ne s fn k ho, fun j hj hset => ?_⟩
    · simp [State.errBit_setErr s fn k (show k < 32 by omega)]
    · simp [State.errBit_setErr s fn k (show j < 32 by omega), hset]

end Sys2Proof.Machine
end

section
/-! The SHIFT_POWER cue (06_stage_time_cues.md R192): what firing a slot comes to for a due occurrence, what a report and the
update of the panels' floors leave, and the two outcomes of the shares' check. -/

namespace Sys2Proof.Machine

/-! ### Firing a slot -/

/-- A slot fires an action only when its occurrence has that action. -/
theorem State.action_of_firing {s : State} {n a : Nat} {c : CueSlotSt} (h : s.firing n a = some c) :
    c.record.action.toNat = a := by
  unfold State.firing at h
  split at h
  · cases h
  · split at h
    · cases h
    · split at h
      next hdue =>
        cases h
        exact hdue.2.1
      · cases h

theorem State.fire_of_firing {s : State} {n a : Nat} {c : CueSlotSt} (h : s.firing n a = some c) :
    s.fire n a = (s.afterFire n c.occ c).cueEffect n c.occ c.record := by
  simp only [State.fire, h]

theorem State.cueEffect_shiftPower (s : State) (n k : Nat) {r : CueRec} (h : r.action.toNat = 5) :
    s.cueEffect n k r = s.shiftPowerTo n r (r.argOf k) := by
  simp only [State.cueEffect, h]

theorem exec_shiftPower_of_firing {slot : CueSlot} {s : State} {c : CueSlotSt} (h : s.firing slot.toNat 5 = some c) :
    exec (.shiftPower slot) s =
      .next ((s.afterFire slot.toNat c.occ c).shiftPowerTo slot.toNat c.record (c.record.argOf c.occ)) := by
  change Host.Outcome.next (s.fire slot.toNat 5) = _
  rw [State.fire_of_firing h, State.cueEffect_shiftPower _ _ _ (State.action_of_firing h)]

/-! ### The stage time -/

/-- The stage time is a value of the stage time unit alone. -/
theorem State.time_congr {s t : State} (h : t.stu = s.stu) : t.time = s.time := by
  rw [State.time, State.time, State.now, State.now, h]

/-! ### The newest report of a source (14 R449) -/

@[simp] theorem State.src_setSrc (s : State) (u : Nat) (v : IncSrc) : (s.setSrc u v).src u = v := mget_mset_self ..

/-- A dropped report is counted at its source, whose newest report stands. -/
theorem State.src_dropReport (s : State) (u : Nat) :
    (s.dropReport u).src u =
      { s.src u with drops := min ((s.src u).drops + 1) (2 ^ 32 - 1), dropCnt := (s.src u).dropCnt.add 1 } :=
  State.src_setSrc s u _

/-- A source's LAST takes every report of it, one that is dropped too. -/
theorem State.last_src_reportAt (s : State) (scene : Word) (u code cls : Nat) (b : Option Nat) (a0 a1 a2 : Nat) :
    ((s.reportAt scene u code cls b a0 a1 a2).src u).last = some (cls * 4096 + code, b, s.time) := by
  by_cases hcls : cls = 4
  · simp only [State.reportAt, if_pos hcls, State.src_setSrc]
  · simp only [State.reportAt, if_neg hcls]
    cases (s.src u).pend with
    | none => simp only [State.src_setSrc]
    | some _ => simp only [State.src_dropReport, State.src_setSrc]

theorem State.last_src_report (s : State) (u code cls : Nat) (b : Option Nat) (a0 a1 a2 : Nat) :
    ((s.report u code cls b a0 a1 a2).src u).last = some (cls * 4096 + code, b, s.time) :=
  State.last_src_reportAt ..

/-! ### The shares beside the panels' floors -/

@[simp] theorem State.setPanel_shares (s : State) (p : Nat) (v : PanelPwr) :
    (s.setPanel p v).power.shares = s.power.shares := rfl
@[simp] theorem State.setPanel_inForce (s : State) (p : Nat) (v : PanelPwr) :
    (s.setPanel p v).power.inForce = s.power.inForce := rfl

@[simp] theorem State.updateFloors_shares (s : State) : s.updateFloors.power.shares = s.power.shares := by
  simp only [State.updateFloors, List.foldl_cons, List.foldl_nil, State.setPanel_shares]
@[simp] theorem State.updateFloors_inForce (s : State) : s.updateFloors.power.inForce = s.power.inForce := by
  simp only [State.updateFloors, List.foldl_cons, List.foldl_nil, State.setPanel_inForce]

/-! ### The check of the shares (R192) -/

/-- The three shares that a SHIFT_POWER argument asks for (R191). -/
def sharesOf (arg : Nat) : Shares := ⟨bits arg 11 0, bits arg 23 12, bits arg 35 24⟩

/-- The reservation PWR_RES of a bolt in the live scene. -/
def State.reservation (s : State) (b : Nat) : Nat := ((s.loom.live.bolt? b).map (fun x => x.pwrRes)).getD 0

/-- Shares that sum to the reservation become the bolt's, asked for and in force. -/
theorem State.shiftPowerTo_accepted (s : State) (n : Nat) (r : CueRec) (arg : Nat)
    (h : bits arg 11 0 + bits arg 23 12 + bits arg 35 24 = s.reservation r.bolt.toNat) :
    mget Shares.reset (s.shiftPowerTo n r arg).power.inForce r.bolt.toNat = sharesOf arg ∧
      mget Shares.reset (s.shiftPowerTo n r arg).power.shares r.bolt.toNat = sharesOf arg := by
  unfold State.reservation at h
  simp only [State.shiftPowerTo, if_pos h, State.updateFloors_inForce, State.updateFloors_shares, mget_mset_self,
    sharesOf, and_self]

section
variable {s : State} {r : CueRec} {arg : Nat}
  (h : bits arg 11 0 + bits arg 23 12 + bits arg 35 24 ≠ s.reservation r.bolt.toNat)
include h

/-- Shares with another sum come to a report alone. -/
theorem State.shiftPowerTo_refused (n : Nat) :
    s.shiftPowerTo n r arg =
      s.report unitStu 0x0A1 0 (some r.bolt.toNat) (cueArg0 n r) (arg % 2 ^ 32) (s.reservation r.bolt.toNat) :=
  if_neg h

theorem State.power_shiftPowerTo_refused (n : Nat) : (s.shiftPowerTo n r arg).power = s.power := by
  have hreport : Only [.regs_, .ctrs_, .inc_] s (s.shiftPowerTo n r arg) := by
    rw [State.shiftPowerTo_refused h]
    exact State.report_only (Only.refl _ s) (Fld.yes rfl)
  exact hreport.power rfl

theorem State.last_shiftPowerTo_refused (n : Nat) :
    ((s.shiftPowerTo n r arg).src unitStu).last = some (0x0A1, some r.bolt.toNat, s.time) := by
  rw [State.shiftPowerTo_refused h]
  exact State.last_src_report s unitStu 0x0A1 0 ..

end

/-! ### The obligation -/

/-- Settles O27: the slot's advance changes the cues alone, and the check of the shares changes neither cues nor loom. -/
theorem shiftPowerKeepsTheSum : Obligations.ShiftPowerKeepsTheSum := by
  unfold Obligations.ShiftPowerKeepsTheSum
  intro slot s c hfire b arg res
  have hslot : Only [.cues_] s (s.afterFire slot.toNat c.occ c) := State.afterFire_only (Only.refl _ s) (Fld.yes rfl)
  have hcheck : Only [.regs_, .ctrs_, .power_, .inc_] (s.afterFire slot.toNat c.occ c)
      ((s.afterFire slot.toNat c.occ c).shiftPowerTo slot.toNat c.record arg) :=
    State.shiftPowerTo_only (Only.refl _ _) (Fld.yes rfl)
  have hres : (s.afterFire slot.toNat c.occ c).reservation b = res := by
    rw [State.reservation, hslot.loom rfl]
  refine ⟨_, exec_shiftPower_of_firing hfire, ?advance, ?scene, fun hsum => ?accepted, fun hsum => ?refused⟩
  case advance => rw [State.cue, State.cue, hcheck.cues rfl]
  case scene => exact (hcheck.loom rfl).trans (hslot.loom rfl)
  case accepted => exact State.shiftPowerTo_accepted _ _ _ _ (hsum.trans hres.symm)
  case refused =>
    have hne : bits arg 11 0 + bits arg 23 12 + bits arg 35 24 ≠ (s.afterFire slot.toNat c.occ c).reservation b :=
      fun heq => hsum (heq.trans hres)
    exact ⟨(State.power_shiftPowerTo_refused hne _).trans (hslot.power rfl),
      State.time_congr (hslot.stu rfl) ▸ State.last_shiftPowerTo_refused hne _⟩

end Sys2Proof.Machine
end
